-- ==== Sys2Proof/Word.lean ====
section
/-! DEFINITION. The word types of the KX-256 (00_scope.md R7: everything is little-endian; 01_machine.md). -/

namespace Sys2Proof

/-- One byte. -/
abbrev Byte := BitVec 8

/-- A 32-bit register or instruction word. -/
abbrev Word := BitVec 32

/-- A 64-bit register pair or counter. -/
abbrev DWord := BitVec 64

end Sys2Proof
end

