-- ==== Sys2Proof/Machine/Bits.lean ====
section
/-! DEFINITION. Bit fields, sign extension, byte order and the other integer helpers that the meanings share
(00_scope.md, "Notation"; 03_instruction_words.md Table 3-1; R7 for the byte order). -/

namespace Sys2Proof.Machine

/-- Bits `[lo + len - 1 : lo]` of a natural number. -/
def bits (w lo len : Nat) : Nat := w / 2 ^ lo % 2 ^ len

/-- Bit `i` of a natural number. -/
def bitOf (w i : Nat) : Bool := w / 2 ^ i % 2 == 1

/-- A Bool as 0 or 1. -/
def b2n (b : Bool) : Nat := if b then 1 else 0

/-- `v` with bits `[lo + len - 1 : lo]` replaced by the low bits of `x`. -/
def setBits (v lo len x : Nat) : Nat :=
  v % 2 ^ lo + x % 2 ^ len * 2 ^ lo + v / 2 ^ (lo + len) * 2 ^ (lo + len)

/-- SignExtend(x, n): the integer that the low `n` bits of `x` hold in two's complement. -/
def sext (x n : Nat) : Int :=
  if x % 2 ^ n < 2 ^ (n - 1) then (x % 2 ^ n : Int) else (x % 2 ^ n : Int) - 2 ^ n

/-- An integer reduced modulo `2^n`. -/
def wrapInt (x : Int) (n : Nat) : Nat := (x % (2 ^ n : Int)).toNat

/-- Saturate(x, min, max). -/
def saturate (x lo hi : Int) : Int := if x < lo then lo else if x > hi then hi else x

/-- A 32-bit word read as a two's-complement integer. -/
def sint (w : Word) : Int := w.toInt

/-- An integer written into a 32-bit word, modulo 2^32. -/
def wordOfInt (x : Int) : Word := BitVec.ofInt 32 x

/-- An integer written into 64 bits, modulo 2^64. -/
def dwordOfInt (x : Int) : DWord := BitVec.ofInt 64 x

/-- The 64-bit value of a pair: the low word is the even register (R27). -/
def pairVal (lo hi : Word) : DWord := BitVec.ofNat 64 (lo.toNat + hi.toNat * 2 ^ 32)

/-- The low word of a pair. -/
def loWord (v : DWord) : Word := BitVec.ofNat 32 v.toNat

/-- The high word of a pair. -/
def hiWord (v : DWord) : Word := BitVec.ofNat 32 (v.toNat / 2 ^ 32)

/-- `k` little-endian bytes of a number (R7). -/
def bytesLE : Nat → Nat → List Byte
  | 0, _ => []
  | k + 1, v => BitVec.ofNat 8 v :: bytesLE k (v / 256)

/-- The number that little-endian bytes hold (R7). -/
def ofBytesLE : List Byte → Nat
  | [] => 0
  | b :: bs => b.toNat + 256 * ofBytesLE bs

/-- The number of ones among the low `n` bits. -/
def popcount : Nat → Nat → Nat
  | 0, _ => 0
  | n + 1, v => v % 2 + popcount n (v / 2)

/-- The number of bits that a natural number needs (0 for 0), by its low `n` bits. -/
def bitLen (v : Nat) : Nat := if v = 0 then 0 else Nat.log2 v + 1

/-- The low `n` bits of `v` in reverse order. -/
def bitRev : Nat → Nat → Nat
  | 0, _ => 0
  | n + 1, v => v % 2 * 2 ^ n + bitRev n (v / 2)

/-- The set bits of a mask among positions `i .. i + n - 1`, ascending. -/
def maskLanesFrom : Nat → Nat → Nat → List Nat
  | 0, _, _ => []
  | n + 1, i, m => if m % 2 = 1 then i :: maskLanesFrom n (i + 1) (m / 2) else maskLanesFrom n (i + 1) (m / 2)

/-- The lanes 0 to 31 whose bit is set in a mask, ascending. -/
def maskLanes (m : Word) : List Nat := maskLanesFrom 32 0 m.toNat

/-- The mask of a list of lanes. -/
def lanesMask (ls : List Nat) : Word := ls.foldl (fun m l => m ||| BitVec.ofNat 32 (2 ^ l)) 0

/-- The numbers `i, i + 1, …, i + n - 1`. -/
def upFrom : Nat → Nat → List Nat
  | 0, _ => []
  | n + 1, i => i :: upFrom n (i + 1)

/-- Ceiling division. -/
def ceilDiv (a b : Nat) : Nat := (a + b - 1) / b

end Sys2Proof.Machine
end

