-- ==== Sys2Proof/Machine/Num.lean ====
section
/-! DEFINITION. The number formats of 02_number_formats.md: decoding (R28, R31, R33), rounding (R37), the flags
(R38), conversion (R34, R39), block quantisation (R40 to R43). Arithmetic is exact on dyadic numbers and is narrowed
once at the end. -/

namespace Sys2Proof.Machine

/-! ## Rounding modes and flags (R37, R38, Table 7-7) -/

/-- The rounding modes of R37. -/
inductive RMode where
  | rn | rz | rm | rp
  deriving DecidableEq, Repr

/-- The mode of a two-bit code of R37. -/
def RMode.ofCode (c : Nat) : RMode :=
  match c with
  | 1 => .rz
  | 2 => .rm
  | 3 => .rp
  | _ => .rn

/-- The sticky flags of R38 in the bit order of Table 7-7: NV 0, DZ 1, OF 2, UF 3, NX 4, CV 5. -/
abbrev OpFlags := BitVec 6

def OpFlags.nv : OpFlags := 1
def OpFlags.dz : OpFlags := 2
def OpFlags.ovf : OpFlags := 4
def OpFlags.udf : OpFlags := 8
def OpFlags.nx : OpFlags := 16
def OpFlags.cv : OpFlags := 32

/-- A flag when a condition holds. -/
def OpFlags.when (c : Bool) (f : OpFlags) : OpFlags := if c then f else 0

/-! ## Exact values -/

/-- A decoded number: a NaN with its stored sign and whether it is signalling, an infinity, or the exact value
`(-1)^neg * mant * 2^exp`, which keeps the sign of a zero (R30). -/
inductive FVal where
  | nan (sign signalling : Bool)
  | inf (neg : Bool)
  | fin (neg : Bool) (mant : Nat) (exp : Int)
  deriving DecidableEq, Repr

/-- A positive zero. -/
def FVal.zero : FVal := .fin false 0 0

def FVal.isNan : FVal → Bool
  | .nan _ _ => true
  | _ => false

def FVal.isSnan : FVal → Bool
  | .nan _ s => s
  | _ => false

def FVal.isInf : FVal → Bool
  | .inf _ => true
  | _ => false

def FVal.isZero : FVal → Bool
  | .fin _ m _ => m == 0
  | _ => false

/-- The stored sign. -/
def FVal.sign : FVal → Bool
  | .nan s _ => s
  | .inf n => n
  | .fin n _ _ => n

def FVal.negate : FVal → FVal
  | .nan s q => .nan (!s) q
  | .inf n => .inf (!n)
  | .fin n m e => .fin (!n) m e

/-- A value multiplied by a power of two. -/
def FVal.scale (v : FVal) (k : Int) : FVal :=
  match v with
  | .fin n m e => .fin n m (e + k)
  | x => x

/-- An integer as an exact value. -/
def FVal.ofInt (x : Int) : FVal := .fin (x < 0) x.natAbs 0

/-- The signed mantissa of a finite value aligned to exponent `e` (at most its own). -/
def alignTo (neg : Bool) (m : Nat) (exp e : Int) : Int :=
  let x : Int := (m * 2 ^ (exp - e).toNat : Nat)
  if neg then -x else x

/-- Comparison of two non-negative dyadic numbers. -/
def cmpDyadic (m1 : Nat) (e1 : Int) (m2 : Nat) (e2 : Int) : Ordering :=
  let e := min e1 e2
  compare (m1 * 2 ^ (e1 - e).toNat) (m2 * 2 ^ (e2 - e).toNat)

/-! ## The binary formats (R28, Table 2-1) -/

/-- How a format spends its all-ones exponent. -/
inductive Specials where
  /-- Infinity and NaN as IEEE 754. -/
  | ieee
  /-- Only the all-ones code of each sign is NaN (.e4m3). -/
  | oneNan
  /-- Neither infinity nor NaN. -/
  | none
  deriving DecidableEq, Repr

/-- The layout of a binary floating-point format. -/
structure FFmt where
  ebits : Nat
  mbits : Nat
  bias : Nat
  special : Specials
  deriving DecidableEq, Repr

def FFmt.f32 : FFmt := ⟨8, 23, 127, .ieee⟩
def FFmt.bf16 : FFmt := ⟨8, 7, 127, .ieee⟩
def FFmt.f16 : FFmt := ⟨5, 10, 15, .ieee⟩
def FFmt.e5m2 : FFmt := ⟨5, 2, 15, .ieee⟩
def FFmt.e4m3 : FFmt := ⟨4, 3, 7, .oneNan⟩
def FFmt.e3m2 : FFmt := ⟨3, 2, 3, .none⟩
def FFmt.e2m3 : FFmt := ⟨2, 3, 1, .none⟩
def FFmt.e2m1 : FFmt := ⟨2, 1, 1, .none⟩

/-- The width of a format. -/
def FFmt.width (f : FFmt) : Nat := 1 + f.ebits + f.mbits

/-- The sign bit of a format as a number. -/
def FFmt.signBit (f : FFmt) (neg : Bool) : Nat := if neg then 2 ^ (f.ebits + f.mbits) else 0

/-- The code of the largest finite magnitude (Table 2-1). -/
def FFmt.maxCode (f : FFmt) : Nat :=
  match f.special with
  | .ieee => (2 ^ f.ebits - 1) * 2 ^ f.mbits - 1
  | .oneNan => 2 ^ (f.ebits + f.mbits) - 2
  | .none => 2 ^ (f.ebits + f.mbits) - 1

/-- The code of infinity, for the formats that have one. -/
def FFmt.infCode (f : FFmt) : Nat := (2 ^ f.ebits - 1) * 2 ^ f.mbits

/-- The canonical NaN of the formats that have one (R29). -/
def FFmt.nanCode (f : FFmt) : Nat :=
  match f.special with
  | .ieee => (2 ^ f.ebits - 1) * 2 ^ f.mbits + 2 ^ (f.mbits - 1)
  | _ => 2 ^ (f.ebits + f.mbits) - 1

/-- The value of an encoding (R28). -/
def FFmt.decode (f : FFmt) (code : Nat) : FVal :=
  let neg := bitOf code (f.ebits + f.mbits)
  let e := bits code f.mbits f.ebits
  let m := bits code 0 f.mbits
  let qmin : Int := 1 - (f.bias : Int) - (f.mbits : Int)
  if f.special = .ieee ∧ e = 2 ^ f.ebits - 1 then
    if m = 0 then .inf neg else .nan neg (!bitOf m (f.mbits - 1))
  else if f.special = .oneNan ∧ e = 2 ^ f.ebits - 1 ∧ m = 2 ^ f.mbits - 1 then .nan neg false
  else if e = 0 then .fin neg m qmin
  else .fin neg (2 ^ f.mbits + m) (qmin + (e : Int) - 1)

/-! ## Rounding (R37) -/

/-- `m / 2^shift` rounded to an integer under a mode, with whether it was inexact. -/
def roundShift (md : RMode) (neg : Bool) (m shift : Nat) : Nat × Bool :=
  let q := m / 2 ^ shift
  let r := m % 2 ^ shift
  let up : Bool := match md with
    | .rn => decide (2 * r > 2 ^ shift) || (decide (2 * r = 2 ^ shift) && decide (q % 2 = 1))
    | .rz => false
    | .rm => neg && decide (r ≠ 0)
    | .rp => !neg && decide (r ≠ 0)
  (if up then q + 1 else q, decide (r ≠ 0))

/-- A magnitude rounded to a format as if the exponent range were unbounded: its code without sign (which continues
past the largest finite code), and whether it was inexact and tiny (R37, R38). -/
structure Rounded where
  code : Nat
  inexact : Bool
  tiny : Bool
  deriving DecidableEq, Repr

/-- Rounds the magnitude `mant * 2^exp` to a format. -/
def FFmt.roundMag (f : FFmt) (md : RMode) (neg : Bool) (mant : Nat) (exp : Int) : Rounded :=
  if mant = 0 then ⟨0, false, false⟩
  else
    let lead : Int := exp + (bitLen mant : Int) - 1
    let emin : Int := 1 - (f.bias : Int)
    let qmin : Int := emin - (f.mbits : Int)
    let q := max (lead - (f.mbits : Int)) qmin
    let sr := if q ≤ exp then (mant * 2 ^ (exp - q).toNat, false)
      else roundShift md neg mant (q - exp).toNat
    ⟨(q - qmin).toNat * 2 ^ f.mbits + sr.1, sr.2, decide (lead < emin)⟩

/-- Whether the mode rounds an overflow of this sign towards zero. -/
def RMode.towardsZero (md : RMode) (neg : Bool) : Bool :=
  match md with
  | .rn => false
  | .rz => true
  | .rm => !neg
  | .rp => neg

/-- The code that a finite overflow delivers (Table 2-5), and the largest finite code under `.sat`. -/
def FFmt.overflowCode (f : FFmt) (md : RMode) (sat neg : Bool) : Nat :=
  if sat then f.signBit neg + f.maxCode
  else match f.special with
    | .ieee => f.signBit neg + (if md.towardsZero neg then f.maxCode else f.infCode)
    | .oneNan => f.nanCode
    | .none => f.signBit neg + f.maxCode

/-- Round(x, format, mode) of an exact value, with its flags (R37, R38, R39). The flag NV of an invalid operation or
of a signalling operand is the caller's. -/
def FFmt.round (f : FFmt) (md : RMode) (sat : Bool) (x : FVal) : Nat × OpFlags :=
  match x with
  | .nan s _ => match f.special with
    | .none => (f.signBit s + f.maxCode, .cv)
    | _ => (f.nanCode, 0)
  | .inf n => match f.special with
    | .ieee => (f.signBit n + f.infCode, 0)
    | .oneNan => (f.nanCode, .nv)
    | .none => (f.signBit n + f.maxCode, .cv)
  | .fin n m e =>
    let r := f.roundMag md n m e
    if r.code > f.maxCode then (f.overflowCode md sat n, OpFlags.ovf ||| OpFlags.nx)
    else (f.signBit n + r.code,
      OpFlags.when r.inexact .nx ||| OpFlags.when (r.tiny && r.inexact) .udf)

/-! ## The tapered formats (R33, R34) -/

/-- The length of the run of bits equal to `b` from bit `i` of `mag` downwards, over `k` bits. -/
def regimeRun (mag : Nat) (b : Bool) : Nat → Nat
  | 0 => 0
  | k + 1 => if bitOf mag k = b then 1 + regimeRun mag b k else 0

/-- The exact magnitude of a tapered magnitude field of `n` bits (R33, steps 2 to 4), as mantissa and exponent. -/
def taperedMag (n mag : Nat) : Nat × Int :=
  if mag = 0 then (0, 0)
  else
    let b := bitOf mag (n - 1)
    let m := regimeRun mag b n
    let k : Int := if b then (m : Int) - 1 else -(m : Int)
    let rest := n - m - 1
    let e := if rest = 0 then 0 else bits mag (rest - 1) 1
    let fb := rest - 1
    let f := bits mag 0 fb
    (2 ^ fb + f, 2 * k + (e : Int) - (fb : Int))

/-- The value of a tapered code of `w` bits (R33). -/
def decodeTapered (w code : Nat) : FVal :=
  let s := bitOf code (w - 1)
  let mag := bits code 0 (w - 1)
  if mag = 0 then (if s then .nan true false else .fin false 0 0)
  else .fin s (taperedMag (w - 1) mag).1 (taperedMag (w - 1) mag).2

/-- The largest tapered magnitude code, at most `c`, whose value does not exceed `mant * 2^exp`. -/
def taperedFloor (n mant : Nat) (exp : Int) : Nat → Nat
  | 0 => 0
  | c + 1 =>
    let v := taperedMag n (c + 1)
    match cmpDyadic v.1 v.2 mant exp with
    | .gt => taperedFloor n mant exp c
    | _ => c + 1

/-- Conversion of an exact value to a tapered code of `w` bits, with its flags (R34, Table 2-5). -/
def roundTapered (w : Nat) (x : FVal) : Nat × OpFlags :=
  let n := w - 1
  let top := 2 ^ n - 1
  let sb (neg : Bool) := if neg then 2 ^ n else 0
  match x with
  | .nan _ _ => (2 ^ n, 0)
  | .inf neg => (sb neg + top, .cv)
  | .fin neg mant exp =>
    if mant = 0 then (0, 0)
    else
      let c := taperedFloor n mant exp top
      let lo := taperedMag n c
      if c = top then
        (sb neg + top, if cmpDyadic mant exp lo.1 lo.2 = .gt then OpFlags.ovf ||| OpFlags.nx else 0)
      else
        let hi := taperedMag n (c + 1)
        let e := min lo.2 hi.2
        let mid := lo.1 * 2 ^ (lo.2 - e).toNat + hi.1 * 2 ^ (hi.2 - e).toNat
        let exact := c ≠ 0 ∧ cmpDyadic mant exp lo.1 lo.2 = .eq
        let pick := match cmpDyadic mant (exp + 1) mid e with
          | .lt => c
          | .gt => c + 1
          | .eq => if c % 2 = 0 then c else c + 1
        if exact then (sb neg + c, 0)
        else ((if pick = 0 then 0 else sb neg + pick),
          OpFlags.nx ||| OpFlags.when (decide (c = 0)) .udf)

/-! ## Element types (Table 3-8, R35) -/

/-- What a type code of Table 3-8 names. -/
inductive EKind where
  | int (signed : Bool) (width : Nat)
  | flt (f : FFmt)
  | tap (width : Nat)
  | mxfp4
  | mxint8
  deriving DecidableEq, Repr

/-- The element type of a type code (Table 3-8); `none` for a reserved code. -/
def EKind.ofCode (c : Nat) : Option EKind :=
  match c with
  | 0x00 => some (.int true 8)
  | 0x01 => some (.int true 16)
  | 0x02 => some (.int true 32)
  | 0x03 => some (.int true 64)
  | 0x04 => some (.int false 8)
  | 0x05 => some (.int false 16)
  | 0x06 => some (.int false 32)
  | 0x07 => some (.int false 64)
  | 0x08 => some (.flt .f32)
  | 0x09 => some (.flt .bf16)
  | 0x0A => some (.flt .f16)
  | 0x0B => some (.flt .e4m3)
  | 0x0C => some (.flt .e5m2)
  | 0x0D => some (.flt .e2m3)
  | 0x0E => some (.flt .e3m2)
  | 0x0F => some (.flt .e2m1)
  | 0x10 => some (.tap 8)
  | 0x11 => some (.tap 6)
  | 0x12 => some .mxfp4
  | 0x13 => some .mxint8
  | _ => none

/-- The width in bits of an element (Table 2-3). -/
def EKind.width : EKind → Nat
  | .int _ w => w
  | .flt f => f.width
  | .tap w => w
  | .mxfp4 => 4
  | .mxint8 => 8

/-- The exact value of an element's code; MXINT8 elements carry the factor 2^-6 (R32). -/
def EKind.value (k : EKind) (code : Nat) : FVal :=
  match k with
  | .int true w => .ofInt (sext code w)
  | .int false w => .fin false (code % 2 ^ w) 0
  | .flt f => f.decode code
  | .tap w => decodeTapered w code
  | .mxfp4 => FFmt.e2m1.decode code
  | .mxint8 => (FVal.ofInt (sext code 8)).scale (-6)

/-- The least and the greatest value of an integer type (R27). -/
def intMin (signed : Bool) (w : Nat) : Int := if signed then -(2 ^ (w - 1)) else 0
def intMax (signed : Bool) (w : Nat) : Int := if signed then 2 ^ (w - 1) - 1 else 2 ^ w - 1

/-- A finite value rounded to an integer under a mode, with whether it was inexact. -/
def roundToInt (md : RMode) (neg : Bool) (mant : Nat) (exp : Int) : Int × Bool :=
  let r := if 0 ≤ exp then (mant * 2 ^ exp.toNat, false) else roundShift md neg mant (-exp).toNat
  (if neg then -(r.1 : Int) else r.1, r.2)

/-- Conversion of an exact value to an integer type: rounded, then saturated (R39, Table 2-5). -/
def roundInteger (signed : Bool) (w : Nat) (md : RMode) (x : FVal) : Nat × OpFlags :=
  match x with
  | .nan _ _ => (0, .nv)
  | .inf neg => (wrapInt (if neg then intMin signed w else intMax signed w) w, .nv)
  | .fin neg m e =>
    let r := roundToInt md neg m e
    if r.1 < intMin signed w ∨ r.1 > intMax signed w then
      (wrapInt (saturate r.1 (intMin signed w) (intMax signed w)) w, .nv)
    else (wrapInt r.1 w, OpFlags.when r.2 .nx)

/-- Integer to integer: exact, or NV with wrapping or, under `.sat`, saturation (R39). -/
def intToInt (signed : Bool) (w : Nat) (sat : Bool) (x : Int) : Nat × OpFlags :=
  if x < intMin signed w ∨ x > intMax signed w then
    (wrapInt (if sat then saturate x (intMin signed w) (intMax signed w) else x) w, .nv)
  else (wrapInt x w, 0)

/-- CVT of one element between two types of Table 3-8 other than the MX types (R39, R99): the destination's code at
its own width, and the flags. Equal codes are a move (R62). -/
def convert (src dst : EKind) (md : RMode) (sat : Bool) (code : Nat) : Nat × OpFlags :=
  if src = dst then (code % 2 ^ src.width, 0)
  else
    let v := src.value code
    let snan := OpFlags.when v.isSnan .nv
    match src, dst with
    | .int sg w, .int sg' w' =>
      intToInt sg' w' sat (if sg then sext code w else ((code % 2 ^ w : Nat) : Int))
    | _, .int sg' w' => let r := roundInteger sg' w' md v; (r.1, r.2 ||| snan)
    | _, .flt f => let r := f.round md sat v; (r.1, r.2 ||| snan)
    | _, .tap w => let r := roundTapered w v; (r.1, r.2 ||| snan)
    | _, _ => (code, 0)

/-! ## Exact arithmetic -/

/-- An exact result and whether an invalid operation or a signalling operand sets NV. -/
structure XRes where
  v : FVal
  nv : Bool
  deriving DecidableEq, Repr

/-- An exact sum; the sign of an exact zero follows IEEE 754 under the mode (R30). -/
def addExact (md : RMode) (a b : FVal) : XRes :=
  let sn := a.isSnan || b.isSnan
  match a, b with
  | .nan _ _, _ => ⟨.nan false false, sn⟩
  | _, .nan _ _ => ⟨.nan false false, sn⟩
  | .inf x, .inf y => if x = y then ⟨.inf x, false⟩ else ⟨.nan false false, true⟩
  | .inf x, _ => ⟨.inf x, false⟩
  | _, .inf y => ⟨.inf y, false⟩
  | .fin n1 m1 e1, .fin n2 m2 e2 =>
    let e := min e1 e2
    let x := alignTo n1 m1 e1 e + alignTo n2 m2 e2 e
    if x = 0 then ⟨.fin (if n1 = n2 then n1 else decide (md = .rm)) 0 0, false⟩
    else ⟨.fin (decide (x < 0)) x.natAbs e, false⟩

/-- An exact product. -/
def mulExact (a b : FVal) : XRes :=
  let sn := a.isSnan || b.isSnan
  match a, b with
  | .nan _ _, _ => ⟨.nan false false, sn⟩
  | _, .nan _ _ => ⟨.nan false false, sn⟩
  | .inf x, y => if y.isZero then ⟨.nan false false, true⟩ else ⟨.inf (x != y.sign), false⟩
  | x, .inf y => if x.isZero then ⟨.nan false false, true⟩ else ⟨.inf (x.sign != y), false⟩
  | .fin n1 m1 e1, .fin n2 m2 e2 => ⟨.fin (n1 != n2) (m1 * m2) (e1 + e2), false⟩

/-- An exact product plus an addend; 0 × ∞ sets NV whatever the addend (R93). -/
def fmaExact (md : RMode) (a b c : FVal) : XRes :=
  let p := mulExact a b
  let r := addExact md p.v c
  ⟨r.v, r.nv || p.nv⟩

/-- An exact result rounded to a format, with its flags. -/
def FFmt.finish (f : FFmt) (md : RMode) (sat : Bool) (x : XRes) : Nat × OpFlags :=
  let r := f.round md sat x.v
  (r.1, r.2 ||| OpFlags.when x.nv .nv)

/-- RoundNE(a + b, f32) with its flags, on encodings. -/
def f32Add (md : RMode) (a b : Nat) : Nat × OpFlags :=
  FFmt.f32.finish md false (addExact md (FFmt.f32.decode a) (FFmt.f32.decode b))

/-- The order of two numbers that are not NaN; the two zeros are equal. -/
def cmpVal (a b : FVal) : Ordering :=
  match a, b with
  | .inf x, .inf y => if x = y then .eq else if x then .lt else .gt
  | .inf x, _ => if x then .lt else .gt
  | _, .inf y => if y then .gt else .lt
  | .fin n1 m1 e1, .fin n2 m2 e2 =>
    let e := min e1 e2
    compare (alignTo n1 m1 e1 e) (alignTo n2 m2 e2 e)
  | _, _ => .eq

/-- `a` orders below `b` in the order of R47, in which -0 is below +0; neither is NaN. -/
def ordBelow (a b : FVal) : Bool :=
  match cmpVal a b with
  | .lt => true
  | .gt => false
  | .eq => a.isZero && b.isZero && a.sign && !b.sign

/-- The lesser (`mx = false`) or the greater of two encodings of a format (R47, R94), with NV for a signalling
operand. -/
def FFmt.minMax (f : FFmt) (mx : Bool) (a b : Nat) : Nat × OpFlags :=
  let x := f.decode a
  let y := f.decode b
  let fl := OpFlags.when (x.isSnan || y.isSnan) .nv
  if x.isNan ∧ y.isNan then (f.nanCode, fl)
  else if x.isNan then (b, fl)
  else if y.isNan then (a, fl)
  else if mx then (if ordBelow x y then b else a, fl)
  else (if ordBelow y x then b else a, fl)

/-- A code as an operation that reads it as a number takes it: a NaN is the canonical one (R29). -/
def FFmt.canonical (f : FFmt) (c : Nat) : Nat := if (f.decode c).isNan then f.nanCode else c

/-- The largest `r` with `r * r ≤ m`, searched over `k` bits from a partial root. -/
def isqrtBits (m : Nat) : Nat → Nat → Nat
  | 0, r => r
  | k + 1, r => if (r + 2 ^ k) * (r + 2 ^ k) ≤ m then isqrtBits m k (r + 2 ^ k) else isqrtBits m k r

/-- The integer square root. -/
def isqrt (m : Nat) : Nat := isqrtBits m (bitLen m / 2 + 1) 0

/-- 1/x of a finite non-zero magnitude, to more bits than any format keeps, with a sticky last bit. -/
def recipMag (mant : Nat) (exp : Int) : Nat × Int :=
  let k := 64 + bitLen mant
  let q := 2 ^ k / mant
  (2 * q + (if 2 ^ k % mant = 0 then 0 else 1), -exp - (k : Int) - 1)

/-- The square root of a finite non-zero magnitude, to more bits than any format keeps, with a sticky last bit. -/
def sqrtMag (mant : Nat) (exp : Int) : Nat × Int :=
  let odd := exp % 2 ≠ 0
  let m0 := if odd then 2 * mant else mant
  let e0 := if odd then exp - 1 else exp
  let m := m0 * 2 ^ 128
  let r := isqrt m
  (2 * r + (if r * r = m then 0 else 1), e0 / 2 - 64 - 1)

/-! ## Block quantisation (R40 to R43) -/

/-- The element formats that MF names (Table 3-6), with emax of Table 2-6; `none` for codes 6 and 7. -/
inductive MxFmt where
  | flt (f : FFmt) (emax : Nat)
  | int8
  deriving DecidableEq, Repr

def MxFmt.ofCode (c : Nat) : Option MxFmt :=
  match c with
  | 0 => some (.flt .e2m1 2)
  | 1 => some (.flt .e2m3 2)
  | 2 => some (.flt .e3m2 4)
  | 3 => some (.flt .e4m3 8)
  | 4 => some (.flt .e5m2 15)
  | 5 => some .int8
  | _ => none

def MxFmt.emax : MxFmt → Nat
  | .flt _ e => e
  | .int8 => 0

/-- floor(log2 |x|) of a finite non-zero value. -/
def floorLog2 (m : Nat) (e : Int) : Int := e + (bitLen m : Int) - 1

/-- The greatest floor(log2 |x|) of the non-zero values of a list. -/
def maxLog2 : List FVal → Option Int
  | [] => none
  | .fin _ m e :: vs =>
    if m = 0 then maxLog2 vs
    else match maxLog2 vs with
      | none => some (floorLog2 m e)
      | some x => some (max x (floorLog2 m e))
  | _ :: vs => maxLog2 vs

/-- The shared exponent of a block whose values are finite (R40, steps 2 and 3). -/
def blockExp (f : MxFmt) (vs : List FVal) : Int :=
  match maxLog2 vs with
  | none => -127
  | some l => max (l - (f.emax : Int)) (-127)

/-- The element code of a finite value under a shared exponent, with whether it saturated and was inexact
(R40, step 5; R103). -/
def quantElem (f : MxFmt) (x : Int) (v : FVal) : Nat × Bool × Bool :=
  match v with
  | .fin n m e => match f with
    | .flt ff _ =>
      let r := ff.roundMag .rn n m (e - x)
      if r.code > ff.maxCode then (ff.signBit n + ff.maxCode, true, true)
      else (ff.signBit n + r.code, false, r.inexact)
    | .int8 =>
      let r := roundToInt .rn n m (e + 6 - x)
      if r.1 < -127 ∨ r.1 > 127 then (wrapInt (saturate r.1 (-127) 127) 8, true, true)
      else (wrapInt r.1 8, false, r.2)
  | _ => (0, false, false)

/-- A quantised block: the scale code and, for each value, its code, whether it saturated and whether it was inexact
(R40). -/
def quantBlock (f : MxFmt) (vs : List FVal) : Nat × List (Nat × Bool × Bool) :=
  if vs.any (fun v => v.isNan || v.isInf) then (0xFF, vs.map (fun _ => (0, false, false)))
  else
    let x := blockExp f vs
    ((x + 127).toNat, vs.map (quantElem f x))

/-- DQBLK of one element (R41, R105): the f32 code, with OF and NX on overflow and no other flag. -/
def dequant (f : MxFmt) (code scale : Nat) : Nat × OpFlags :=
  if scale % 256 = 0xFF then (FFmt.f32.nanCode, 0)
  else
    let v := match f with
      | .flt ff _ => ff.decode (code % 2 ^ ff.width)
      | .int8 => EKind.mxint8.value (code % 256)
    let r := FFmt.f32.round .rn false (v.scale ((scale % 256 : Nat) - 127))
    (r.1, r.2 &&& (OpFlags.ovf ||| OpFlags.nx))

/-- One step of xorshift64* (R42). -/
def xorshiftStep (s : Nat) : Nat :=
  let s := s ^^^ (s / 2 ^ 12)
  let s := (s ^^^ (s * 2 ^ 25)) % 2 ^ 64
  s ^^^ (s / 2 ^ 27)

/-- The next `n` signs (true is -1) from a generator state (R42). -/
def hadamardSignsFrom : Nat → Nat → List Bool
  | 0, _ => []
  | n + 1, s =>
    let s' := xorshiftStep s
    bitOf (s' * 0x2545F4914F6CDD1D % 2 ^ 64) 63 :: hadamardSignsFrom n s'

/-- The 32 keyed signs of a block (R42). -/
def hadamardSigns (seed block : DWord) : List Bool :=
  let s := (seed ^^^ block).toNat
  hadamardSignsFrom 32 (if s = 0 then 0x9E3779B97F4A7C15 else s)

/-- One stage of the Walsh-Hadamard transform on f32 codes, with whether a rounding was inexact (R43). -/
def whtStage (h : Nat) (u : List Nat) : List Nat × Bool :=
  let rs := (upFrom 32 0).map (fun i =>
    if i / h % 2 = 0 then f32Add .rn (u.getD i 0) (u.getD (i + h) 0)
    else f32Add .rn (u.getD (i - h) 0) (u.getD i 0 ^^^ 0x80000000))
  (rs.map (·.1), rs.any (fun r => r.2 &&& OpFlags.nx != 0))

/-- The 32-point Walsh-Hadamard transform of R43, with whether any rounding was inexact. -/
def wht (u : List Nat) : List Nat × Bool :=
  [1, 2, 4, 8, 16].foldl (fun a h => let r := whtStage h a.1; (r.1, a.2 || r.2)) (u, false)

end Sys2Proof.Machine
end

