-- ==== Sys2Proof/Machine/Flags.lean ====
section
/-! DEFINITION. The condition codes of the compares (03_instruction_words.md R61, Table 3-7). The sticky flags of OPF are
`OpFlags` of Machine/Num.lean. -/

namespace Sys2Proof.Machine

/-- An integer condition code over two words; `none` for a reserved code. -/
def intCond (cc : Nat) (a b : Word) : Option Bool :=
  match cc with
  | 0x0 => some (a == b)
  | 0x1 => some (a != b)
  | 0x2 => some (decide (sint a < sint b))
  | 0x3 => some (decide (sint a ≤ sint b))
  | 0x4 => some (decide (sint a > sint b))
  | 0x5 => some (decide (sint a ≥ sint b))
  | 0x6 => some (decide (a.toNat < b.toNat))
  | 0x7 => some (decide (a.toNat ≤ b.toNat))
  | 0x8 => some (decide (a.toNat > b.toNat))
  | 0x9 => some (decide (a.toNat ≥ b.toNat))
  | 0xA => some (a &&& b != 0)
  | _ => none

/-- The six ordered comparisons of the float codes. -/
def floatRel (k : Nat) (o : Ordering) : Bool :=
  match k with
  | 0 => o == .eq
  | 1 => o != .eq
  | 2 => o == .lt
  | 3 => o != .gt
  | 4 => o == .gt
  | _ => o != .lt

/-- A float condition code over two .f32 codes; `none` for a reserved code. -/
def floatCond (cc : Nat) (a b : Nat) : Option Bool :=
  let x := FFmt.f32.decode a
  let y := FFmt.f32.decode b
  let un := x.isNan || y.isNan
  if cc ≤ 5 then some (!un && floatRel cc (cmpVal x y))
  else if cc = 6 then some (!un)
  else if cc = 7 then some un
  else if cc ≤ 0xD then some (un || floatRel (cc - 8) (cmpVal x y))
  else none

/-- Whether a compare's code is assigned for its kind. -/
def intCondOk (cc : Nat) : Bool := decide (cc ≤ 0xA)
def floatCondOk (cc : Nat) : Bool := decide (cc ≤ 0xD)

end Sys2Proof.Machine
end

