-- ==== Sys2Proof/Syntax.lean ====
section
/-! DEFINITION. The instructions of the KX-256: one constructor for each row of spec/opcode_table.json.
Rows with an encoding carry the header of Table 3-1 and their operand fields exactly as encoded; rows without one are the
events and commands of the other agents, and carry the subject they name. -/

namespace Sys2Proof

/-- The switch marker, the negation of the guard and the guard predicate (03_instruction_words.md R50, Table 3-1). -/
structure Hdr where
  s : Bool
  gn : Bool
  gp : BitVec 3
  deriving DecidableEq, Repr

/-- One constructor per row of the table of operations and events. -/
inductive Instr where
  /-- IADD (R77): Adds gA and gB into gD, wrapping or saturating under MODR .sat. -/
  | iadd (h : Hdr) (d : BitVec 6) (a : BitVec 6) (b : BitVec 6)
  /-- ISUB (R77): Subtracts gB from gA into gD, wrapping or saturating under MODR .sat. -/
  | isub (h : Hdr) (d : BitVec 6) (a : BitVec 6) (b : BitVec 6)
  /-- INEG (R77): Writes the two's-complement negation of gA into gD. -/
  | ineg (h : Hdr) (d : BitVec 6) (a : BitVec 6)
  /-- IABS (R77): Writes the absolute value of gA into gD. -/
  | iabs (h : Hdr) (d : BitVec 6) (a : BitVec 6)
  /-- IADDI (R77): Adds a signed 8-bit immediate, or an IMMX value, to gA into gD. -/
  | iaddi (h : Hdr) (d : BitVec 6) (a : BitVec 6) (i : BitVec 8)
  /-- IMUL (R78): Writes the low 32 bits of gA times gB into gD. -/
  | imul (h : Hdr) (d : BitVec 6) (a : BitVec 6) (b : BitVec 6)
  /-- IMULH_I32 (R78): Writes the high 32 bits of the signed product of gA and gB into gD. -/
  | imulhI32 (h : Hdr) (d : BitVec 6) (a : BitVec 6) (b : BitVec 6)
  /-- IMULH_N32 (R78): Writes the high 32 bits of the unsigned product of gA and gB into gD. -/
  | imulhN32 (h : Hdr) (d : BitVec 6) (a : BitVec 6) (b : BitVec 6)
  /-- IMAD (R78): Writes gA times gB plus gD, or plus an OPND register, into gD. -/
  | imad (h : Hdr) (d : BitVec 6) (a : BitVec 6) (b : BitVec 6)
  /-- IMIN_I32 (R79): Writes the signed lesser of gA and gB into gD. -/
  | iminI32 (h : Hdr) (d : BitVec 6) (a : BitVec 6) (b : BitVec 6)
  /-- IMIN_N32 (R79): Writes the unsigned lesser of gA and gB into gD. -/
  | iminN32 (h : Hdr) (d : BitVec 6) (a : BitVec 6) (b : BitVec 6)
  /-- IMAX_I32 (R79): Writes the signed greater of gA and gB into gD. -/
  | imaxI32 (h : Hdr) (d : BitVec 6) (a : BitVec 6) (b : BitVec 6)
  /-- IMAX_N32 (R79): Writes the unsigned greater of gA and gB into gD. -/
  | imaxN32 (h : Hdr) (d : BitVec 6) (a : BitVec 6) (b : BitVec 6)
  /-- AND (R79): Writes gA AND gB into gD. -/
  | and (h : Hdr) (d : BitVec 6) (a : BitVec 6) (b : BitVec 6)
  /-- OR (R79): Writes gA OR gB into gD. -/
  | or (h : Hdr) (d : BitVec 6) (a : BitVec 6) (b : BitVec 6)
  /-- XOR (R79): Writes gA XOR gB into gD. -/
  | xor (h : Hdr) (d : BitVec 6) (a : BitVec 6) (b : BitVec 6)
  /-- ANDN (R79): Writes gA AND NOT gB into gD. -/
  | andn (h : Hdr) (d : BitVec 6) (a : BitVec 6) (b : BitVec 6)
  /-- ORN (R79): Writes gA OR NOT gB into gD. -/
  | orn (h : Hdr) (d : BitVec 6) (a : BitVec 6) (b : BitVec 6)
  /-- POPC (R79): Writes the number of one bits of gA into gD. -/
  | popc (h : Hdr) (d : BitVec 6) (a : BitVec 6)
  /-- CLZ (R79): Writes the count of leading zeros of gA into gD. -/
  | clz (h : Hdr) (d : BitVec 6) (a : BitVec 6)
  /-- BREV (R79): Writes gA with its bit order reversed into gD. -/
  | brev (h : Hdr) (d : BitVec 6) (a : BitVec 6)
  /-- SHL (R80): Shifts gA left by the amount in gB into gD. -/
  | shl (h : Hdr) (d : BitVec 6) (a : BitVec 6) (b : BitVec 6)
  /-- SHR (R80): Shifts gA right with zero fill by the amount in gB into gD. -/
  | shr (h : Hdr) (d : BitVec 6) (a : BitVec 6) (b : BitVec 6)
  /-- SAR (R80): Shifts gA right with sign fill by the amount in gB into gD. -/
  | sar (h : Hdr) (d : BitVec 6) (a : BitVec 6) (b : BitVec 6)
  /-- ROL (R80): Rotates gA left by gB mod 32 into gD. -/
  | rol (h : Hdr) (d : BitVec 6) (a : BitVec 6) (b : BitVec 6)
  /-- BFX_N32 (R81): Extracts a zero-extended bit field of gA into gD. -/
  | bfxN32 (h : Hdr) (d : BitVec 6) (a : BitVec 6) (b : BitVec 6)
  /-- BFX_I32 (R81): Extracts a sign-extended bit field of gA into gD. -/
  | bfxI32 (h : Hdr) (d : BitVec 6) (a : BitVec 6) (b : BitVec 6)
  /-- BFI (R81): Inserts the low bits of gA into a field of gD. -/
  | bfi (h : Hdr) (d : BitVec 6) (a : BitVec 6) (b : BitVec 6)
  /-- PERM (R82): Builds gD from selected and sign-filled bytes of gA and gB. -/
  | perm (h : Hdr) (d : BitVec 6) (a : BitVec 6) (b : BitVec 6)
  /-- LEA (R83): Adds a shifted sign-extended index to the pair gA.d into gD.d. -/
  | lea (h : Hdr) (d : BitVec 6) (a : BitVec 6) (b : BitVec 6) (hf : BitVec 2)
  /-- IADD64 (R83): Adds two 64-bit pairs into gD.d. -/
  | iadd64 (h : Hdr) (d : BitVec 6) (a : BitVec 6) (b : BitVec 6)
  /-- ISUB64 (R83): Subtracts two 64-bit pairs into gD.d. -/
  | isub64 (h : Hdr) (d : BitVec 6) (a : BitVec 6) (b : BitVec 6)
  /-- ADDC (R83): Adds gA, gB and the carry in pK into gD and writes the carry out to pK. -/
  | addc (h : Hdr) (d : BitVec 6) (a : BitVec 6) (b : BitVec 6)
  /-- SOP_ADD (R89): Adds two scalar registers into sD once per batch. -/
  | sopAdd (h : Hdr) (d : BitVec 6) (a : BitVec 6) (b : BitVec 6)
  /-- SOP_SUB (R89): Subtracts two scalar registers into sD once per batch. -/
  | sopSub (h : Hdr) (d : BitVec 6) (a : BitVec 6) (b : BitVec 6)
  /-- SOP_MUL (R89): Multiplies two scalar registers into sD once per batch. -/
  | sopMul (h : Hdr) (d : BitVec 6) (a : BitVec 6) (b : BitVec 6)
  /-- SOP_AND (R89): ANDs two scalar registers into sD once per batch. -/
  | sopAnd (h : Hdr) (d : BitVec 6) (a : BitVec 6) (b : BitVec 6)
  /-- SOP_OR (R89): ORs two scalar registers into sD once per batch. -/
  | sopOr (h : Hdr) (d : BitVec 6) (a : BitVec 6) (b : BitVec 6)
  /-- SOP_XOR (R89): XORs two scalar registers into sD once per batch. -/
  | sopXor (h : Hdr) (d : BitVec 6) (a : BitVec 6) (b : BitVec 6)
  /-- SOP_SHL (R89): Shifts a scalar register left into sD once per batch. -/
  | sopShl (h : Hdr) (d : BitVec 6) (a : BitVec 6) (b : BitVec 6)
  /-- SOP_SHR (R89): Shifts a scalar register right into sD once per batch. -/
  | sopShr (h : Hdr) (d : BitVec 6) (a : BitVec 6) (b : BitVec 6)
  /-- SCMP (R90): Compares two scalar registers and writes the result to pD in every member. -/
  | scmp (h : Hdr) (q : BitVec 4) (a : BitVec 5) (b : BitVec 5) (c : BitVec 4)
  /-- ICMP (R85): Compares gA with gB under an integer condition code into pD. -/
  | icmp (h : Hdr) (q : BitVec 4) (a : BitVec 4) (b : BitVec 6) (c : BitVec 4)
  /-- ICMPI (R85): Compares gA with a signed 6-bit immediate under an integer condition code into pD. -/
  | icmpi (h : Hdr) (q : BitVec 4) (a : BitVec 6) (i : BitVec 6) (c : BitVec 4)
  /-- MOV (R84): Copies gA into gD. -/
  | mov (h : Hdr) (d : BitVec 6) (a : BitVec 6)
  /-- MOVI (R84): Writes a sign-extended 14-bit or IMMX immediate into gD. -/
  | movi (h : Hdr) (d : BitVec 6) (i : BitVec 14)
  /-- ISEL (R84): Writes gA into gD if the OPND predicate is true, else gB. -/
  | isel (h : Hdr) (d : BitVec 6) (a : BitVec 6) (b : BitVec 6)
  /-- PLOP (R87): Sets pD from a truth table of pA and pB. -/
  | plop (h : Hdr) (q : BitVec 4) (a : BitVec 4) (b : BitVec 4) (c : BitVec 4)
  /-- PMOV_FROM_PW (R88): Copies the predicate word into gD. -/
  | pmovFromPw (h : Hdr) (d : BitVec 6)
  /-- PMOV_TO_PW (R88): Sets p1 to p15 from bits of gA. -/
  | pmovToPw (h : Hdr) (a : BitVec 6)
  /-- FADD (R93): Adds two .f32 values with one rounding into gD. -/
  | fadd (h : Hdr) (d : BitVec 6) (a : BitVec 6) (b : BitVec 6)
  /-- FSUB (R93): Subtracts two .f32 values with one rounding into gD. -/
  | fsub (h : Hdr) (d : BitVec 6) (a : BitVec 6) (b : BitVec 6)
  /-- FMUL (R93): Multiplies two .f32 values with one rounding into gD. -/
  | fmul (h : Hdr) (d : BitVec 6) (a : BitVec 6) (b : BitVec 6)
  /-- FFMA (R93): Computes gA times gB plus an addend with one rounding into gD. -/
  | ffma (h : Hdr) (d : BitVec 6) (a : BitVec 6) (b : BitVec 6)
  /-- FMIN (R94): Writes the lesser .f32 value of gA and gB into gD. -/
  | fmin (h : Hdr) (d : BitVec 6) (a : BitVec 6) (b : BitVec 6)
  /-- FMAX (R94): Writes the greater .f32 value of gA and gB into gD. -/
  | fmax (h : Hdr) (d : BitVec 6) (a : BitVec 6) (b : BitVec 6)
  /-- FMOV (R95): Copies gA into gD bit for bit. -/
  | fmov (h : Hdr) (d : BitVec 6) (a : BitVec 6)
  /-- FMOV_ABS (R95): Writes gA with its sign cleared into gD. -/
  | fmovAbs (h : Hdr) (d : BitVec 6) (a : BitVec 6)
  /-- FMOV_NEG (R95): Writes gA with its sign inverted into gD. -/
  | fmovNeg (h : Hdr) (d : BitVec 6) (a : BitVec 6)
  /-- FMOV_CPSGN (R95): Writes gA with the sign of gB into gD. -/
  | fmovCpsgn (h : Hdr) (d : BitVec 6) (a : BitVec 6) (b : BitVec 6)
  /-- FCMP (R96): Compares two .f32 values under a float condition code into pD. -/
  | fcmp (h : Hdr) (q : BitVec 4) (a : BitVec 6) (b : BitVec 6) (c : BitVec 4)
  /-- FRCP (R97): Writes the correctly rounded reciprocal of gA into gD. -/
  | frcp (h : Hdr) (d : BitVec 6) (a : BitVec 6)
  /-- FRSQ (R97): Writes the reciprocal square root of gA within 1 ulp into gD. -/
  | frsq (h : Hdr) (d : BitVec 6) (a : BitVec 6)
  /-- FSQRT (R97): Writes the correctly rounded square root of gA into gD. -/
  | fsqrt (h : Hdr) (d : BitVec 6) (a : BitVec 6)
  /-- FEX2 (R97): Writes 2 to the power gA within 2 ulp into gD. -/
  | fex2 (h : Hdr) (d : BitVec 6) (a : BitVec 6)
  /-- FLG2 (R97): Writes log2 of gA within its bound into gD. -/
  | flg2 (h : Hdr) (d : BitVec 6) (a : BitVec 6)
  /-- FSIN (R97): Writes the sine of gA within its bound into gD. -/
  | fsin (h : Hdr) (d : BitVec 6) (a : BitVec 6)
  /-- FCOS (R97): Writes the cosine of gA within its bound into gD. -/
  | fcos (h : Hdr) (d : BitVec 6) (a : BitVec 6)
  /-- FTANH (R97): Writes tanh of gA within 2 ulp into gD. -/
  | ftanh (h : Hdr) (d : BitVec 6) (a : BitVec 6)
  /-- PKADD_F16 (R98): Adds two packed .f16 pairs element-wise into gD. -/
  | pkaddF16 (h : Hdr) (d : BitVec 6) (a : BitVec 6) (b : BitVec 6)
  /-- PKMUL_F16 (R98): Multiplies two packed .f16 pairs element-wise into gD. -/
  | pkmulF16 (h : Hdr) (d : BitVec 6) (a : BitVec 6) (b : BitVec 6)
  /-- PKADD_BF16 (R98): Adds two packed .bf16 pairs element-wise into gD. -/
  | pkaddBf16 (h : Hdr) (d : BitVec 6) (a : BitVec 6) (b : BitVec 6)
  /-- PKMUL_BF16 (R98): Multiplies two packed .bf16 pairs element-wise into gD. -/
  | pkmulBf16 (h : Hdr) (d : BitVec 6) (a : BitVec 6) (b : BitVec 6)
  /-- PKFMA_F16 (R98): Fused multiply-add of packed .f16 pairs into gD. -/
  | pkfmaF16 (h : Hdr) (d : BitVec 6) (a : BitVec 6) (b : BitVec 6)
  /-- PKFMA_BF16 (R98): Fused multiply-add of packed .bf16 pairs into gD. -/
  | pkfmaBf16 (h : Hdr) (d : BitVec 6) (a : BitVec 6) (b : BitVec 6)
  /-- CVT (R99): Converts one element from source type to destination type per fibre. -/
  | cvt (h : Hdr) (d : BitVec 6) (a : BitVec 6) (st : BitVec 5) (dt : BitVec 5)
  /-- PACK (R101): Packs four byte-lane 6-bit elements into the dense layout. -/
  | pack (h : Hdr) (d : BitVec 6) (a : BitVec 6)
  /-- UNPK (R101): Unpacks four dense 6-bit elements into byte lanes. -/
  | unpk (h : Hdr) (d : BitVec 6) (a : BitVec 6)
  /-- FRND (R100): Rounds an .f32 value to an integral .f32 under its own rounding field. -/
  | frnd (h : Hdr) (d : BitVec 6) (a : BitVec 6) (m : BitVec 2)
  /-- QBLK (R103): Quantises the members' values as one MX block into codes and a shared scale. -/
  | qblk (h : Hdr) (d : BitVec 6) (a : BitVec 6) (f : BitVec 3)
  /-- QHAD (R104): Sign-flips, Hadamard-transforms and quantises the members' values as one MX block. -/
  | qhad (h : Hdr) (d : BitVec 6) (a : BitVec 6) (f : BitVec 3) (hf : BitVec 3)
  /-- DQBLK (R105): Dequantises an MX element code with its scale into an .f32 value. -/
  | dqblk (h : Hdr) (d : BitVec 6) (a : BitVec 6) (f : BitVec 3)
  /-- SHFL_LANE (R106): Delivers gA of a chosen lane of each segment to each member. -/
  | shflLane (h : Hdr) (d : BitVec 6) (a : BitVec 6) (b : BitVec 6)
  /-- SHFL_ROT (R106): Rotates gA values around each segment. -/
  | shflRot (h : Hdr) (d : BitVec 6) (a : BitVec 6) (b : BitVec 6)
  /-- SHFL_MIRR (R106): Reverses gA values within each segment. -/
  | shflMirr (h : Hdr) (d : BitVec 6) (a : BitVec 6) (b : BitVec 6)
  /-- SHFL_BFLY (R106): Exchanges gA values between butterfly partners. -/
  | shflBfly (h : Hdr) (d : BitVec 6) (a : BitVec 6) (b : BitVec 6)
  /-- VOTE_EVERY (R107): Sets pD to whether pA is true in every member. -/
  | voteEvery (h : Hdr) (q : BitVec 4) (a : BitVec 4)
  /-- VOTE_SOME (R107): Sets pD to whether pA is true in some member. -/
  | voteSome (h : Hdr) (q : BitVec 4) (a : BitVec 4)
  /-- VOTE_SAME (R107): Sets pD to whether pA has one value in every member. -/
  | voteSame (h : Hdr) (q : BitVec 4) (a : BitVec 4)
  /-- VOTE_ODD (R107): Sets pD to whether pA is true in an odd number of members. -/
  | voteOdd (h : Hdr) (q : BitVec 4) (a : BitVec 4)
  /-- BALLOT (R107): Writes the mask of members with pA true into gD. -/
  | ballot (h : Hdr) (d : BitVec 6) (a : BitVec 4)
  /-- MATCH_PEERS (R107): Writes the mask of members whose gA equals this member's into gD. -/
  | matchPeers (h : Hdr) (d : BitVec 6) (a : BitVec 6)
  /-- MATCH_WHOLE (R107): Writes the member mask if all members' gA are equal, else 0, into gD. -/
  | matchWhole (h : Hdr) (d : BitVec 6) (a : BitVec 6)
  /-- REDW (R108): Reduces gA over the members by the fixed tree and writes the result to every member. -/
  | redw (h : Hdr) (d : BitVec 6) (a : BitVec 6) (o : BitVec 3) (t : BitVec 3)
  /-- SCANW (R108): Writes each member its inclusive prefix reduction of gA. -/
  | scanw (h : Hdr) (d : BitVec 6) (a : BitVec 6) (o : BitVec 3) (t : BitVec 3)
  /-- SCANW_EXCL (R108): Writes each member its exclusive prefix reduction of gA. -/
  | scanwExcl (h : Hdr) (d : BitVec 6) (a : BitVec 6) (o : BitVec 3) (t : BitVec 3)
  /-- SMOV_S (R109): Copies the leader's gA into scalar register sD. -/
  | smovS (h : Hdr) (d : BitVec 6) (a : BitVec 6)
  /-- SMOV_G (R109): Copies scalar register sA into gD of every member. -/
  | smovG (h : Hdr) (d : BitVec 6) (a : BitVec 6)
  /-- BRA (R115): Branches each member with true guard to PC plus a signed word offset. -/
  | bra (h : Hdr) (o : BitVec 20)
  /-- CALL (R120): Writes the link record, advances the window and SP and branches to a relative target. -/
  | call (h : Hdr) (w : BitVec 4) (o : BitVec 16)
  /-- BRAX (R115): Branches each member to the address in gA.d. -/
  | brax (h : Hdr) (a : BitVec 6)
  /-- CALLX (R120): Calls the address in gA.d with a window advance of 4W. -/
  | callx (h : Hdr) (a : BitVec 6) (w : BitVec 4)
  /-- RET (R121): Reads the link record and restores PC, LK, WBASE and SP. -/
  | ret (h : Hdr)
  /-- JOIN (R116): Sets the bits of the true-guard members in mask mK. -/
  | join (h : Hdr) (m : BitVec 4)
  /-- LEAVE (R116): Clears the bits of the true-guard members in mask mK. -/
  | leave (h : Hdr) (m : BitVec 4)
  /-- WAITM (R117): Parks members whose bit is set in mK until every counted lane is parked on mK. -/
  | waitm (h : Hdr) (m : BitVec 4)
  /-- MOP_SET (R118): Sets mask mD from the leader's g register. -/
  | mopSet (h : Hdr) (m : BitVec 4) (r : BitVec 6)
  /-- MOP_AND (R118): Sets mD to mA AND mB. -/
  | mopAnd (h : Hdr) (m : BitVec 4) (a : BitVec 4) (b : BitVec 4)
  /-- MOP_OR (R118): Sets mD to mA OR mB. -/
  | mopOr (h : Hdr) (m : BitVec 4) (a : BitVec 4) (b : BitVec 4)
  /-- MOP_ANDN (R118): Sets mD to mA AND NOT mB. -/
  | mopAndn (h : Hdr) (m : BitVec 4) (a : BitVec 4) (b : BitVec 4)
  /-- MOP_BATCH (R118): Sets mD to the members whose guard is true. -/
  | mopBatch (h : Hdr) (m : BitVec 4)
  /-- MOP_BALLOT (R118): Sets mD to the true-guard members whose predicate is true. -/
  | mopBallot (h : Hdr) (m : BitVec 4) (a : BitVec 4)
  /-- FSPAWN (R123): Creates a fibre in the lowest EMPTY lane for each member and reports success in pD. -/
  | fspawn (h : Hdr) (q : BitVec 4) (a : BitVec 6) (b : BitVec 6)
  /-- FEND (R124): Ends each member into ENDED and clears its mask bits. -/
  | fend (h : Hdr)
  /-- EXIT (R124): Ends each member into EMPTY and clears its mask bits. -/
  | exit (h : Hdr)
  /-- YIELD (R125): Defers the issuing batch for the next 16 issue slots of its scheduler. -/
  | yield (h : Hdr)
  /-- NAP (R125): Puts each member in NAPPING for the time in gA. -/
  | nap (h : Hdr) (a : BitVec 6)
  /-- SAFE (R126): Resets SAFECNT and marks a safe point with its LIVE blocks, parking if a pre-emption is pending. -/
  | safe (h : Hdr) (l : BitVec 16)
  /-- TRAP (R128): Raises fault TRAP with its code for each true-guard member. -/
  | trap (h : Hdr) (c : BitVec 16)
  /-- TRET_RESUME (R129): Makes the named FAULTED fibre READY at its faulting PC. -/
  | tretResume (h : Hdr) (a : BitVec 6)
  /-- TRET_SKIP (R129): Makes the named FAULTED fibre READY after its faulting instruction. -/
  | tretSkip (h : Hdr) (a : BitVec 6)
  /-- TRET_END (R129): Ends the named FAULTED fibre as EXIT does. -/
  | tretEnd (h : Hdr) (a : BitVec 6)
  /-- LDB (R198): Loads a zero-extended byte per member and sets its residency predicate. -/
  | ldb (h : Hdr) (d : BitVec 6) (a : BitVec 6) (r : BitVec 3) (i : BitVec 5)
  /-- LDH (R198): Loads a zero-extended half per member and sets its residency predicate. -/
  | ldh (h : Hdr) (d : BitVec 6) (a : BitVec 6) (r : BitVec 3) (i : BitVec 5)
  /-- LDW (R198): Loads a word per member and sets its residency predicate. -/
  | ldw (h : Hdr) (d : BitVec 6) (a : BitVec 6) (r : BitVec 3) (i : BitVec 5)
  /-- LDD (R198): Loads 8 bytes into a pair per member and sets its residency predicate. -/
  | ldd (h : Hdr) (d : BitVec 6) (a : BitVec 6) (r : BitVec 3) (i : BitVec 5)
  /-- LDQ (R198): Loads 16 bytes into a quad per member and sets its residency predicate. -/
  | ldq (h : Hdr) (d : BitVec 6) (a : BitVec 6) (r : BitVec 3) (i : BitVec 5)
  /-- STB (R199): Stores a byte per member. -/
  | stb (h : Hdr) (d : BitVec 6) (a : BitVec 6) (r : BitVec 3) (i : BitVec 5)
  /-- STH (R199): Stores a half per member. -/
  | sth (h : Hdr) (d : BitVec 6) (a : BitVec 6) (r : BitVec 3) (i : BitVec 5)
  /-- STW (R199): Stores a word per member. -/
  | stw (h : Hdr) (d : BitVec 6) (a : BitVec 6) (r : BitVec 3) (i : BitVec 5)
  /-- STD (R199): Stores 8 bytes from a pair per member. -/
  | std (h : Hdr) (d : BitVec 6) (a : BitVec 6) (r : BitVec 3) (i : BitVec 5)
  /-- STQ (R199): Stores 16 bytes from a quad per member. -/
  | stq (h : Hdr) (d : BitVec 6) (a : BitVec 6) (r : BitVec 3) (i : BitVec 5)
  /-- STN (R200): Stores the low four bits of gD into one nibble as a masked merge. -/
  | stn (h : Hdr) (d : BitVec 6) (a : BitVec 6) (hf : BitVec 1) (r : BitVec 2) (i : BitVec 5)
  /-- ATOM (R202): Performs an integer read-modify-write at the address and returns the old value. -/
  | atom (h : Hdr) (d : BitVec 6) (a : BitVec 6) (o : BitVec 3) (t : BitVec 2)
  /-- ATOMF (R203): Performs an .f32 add, min or max atomically and returns the old value. -/
  | atomf (h : Hdr) (d : BitVec 6) (a : BitVec 6) (o : BitVec 3)
  /-- CAS (R204): Compares a 32-bit word with gD and swaps in gB on equality, returning the old value. -/
  | cas (h : Hdr) (d : BitVec 6) (a : BitVec 6) (b : BitVec 6)
  /-- CAS_D (R204): Compare-and-swap of a 64-bit value. -/
  | casD (h : Hdr) (d : BitVec 6) (a : BitVec 6) (b : BitVec 6)
  /-- CAS_Q (R204): Compare-and-swap of a 128-bit value. -/
  | casQ (h : Hdr) (d : BitVec 6) (a : BitVec 6) (b : BitVec 6)
  /-- RED (R205): Performs an atomic integer operation with gB and returns nothing. -/
  | red (h : Hdr) (o : BitVec 3) (t : BitVec 2) (a : BitVec 6) (b : BitVec 6)
  /-- PHASE (R207): Ends and/or starts a phase at the named scope, publishing stores and invalidating SHARED lines. -/
  | phase (h : Hdr) (k : BitVec 2) (c : BitVec 3)
  /-- PFENCE (R208): Parks the batch until the core's shadowed state, and for .motif its dirty lines, are durable. -/
  | pfence (h : Hdr) (c : BitVec 3)
  /-- CWB (R209): Passes the line's WRITTEN bytes to the home slice through the egress buffer. -/
  | cwb (h : Hdr) (a : BitVec 6)
  /-- CINV (R209): Writes back and then invalidates the L1 copy of the line. -/
  | cinv (h : Hdr) (a : BitVec 6)
  /-- ZLINE (R210): Stores 128 zero bytes to an aligned line as one ordinary store. -/
  | zline (h : Hdr) (a : BitVec 6)
  /-- PREF (R209): Prefetches the line into L1 or home L2. -/
  | pref (h : Hdr) (a : BitVec 6) (l : BitVec 2)
  /-- PGREQ (R211): Posts a pager message asking that a non-resident page be made resident. -/
  | pgreq (h : Hdr) (a : BitVec 6)
  /-- PGPROBE (R212): Writes to pD whether the page is mapped, resident and readable. -/
  | pgprobe (h : Hdr) (a : BitVec 6) (q : BitVec 4)
  /-- ACPY (R217): Starts an asynchronous copy of one tensor into another. -/
  | acpy (h : Hdr) (x : BitVec 4) (y : BitVec 4) (e : BitVec 4) (f : BitVec 1)
  /-- ACPYM (R218): Starts an asynchronous copy into the same destination on the masked cores of the motif. -/
  | acpym (h : Hdr) (x : BitVec 4) (y : BitVec 4) (e : BitVec 4) (f : BitVec 1)
  /-- AFILL (R219): Starts an asynchronous fill of a tensor with a pattern. -/
  | afill (h : Hdr) (x : BitVec 4) (e : BitVec 4) (f : BitVec 1)
  /-- AGTHR (R220): Starts an asynchronous gather of source rows by an index tensor. -/
  | agthr (h : Hdr) (x : BitVec 4) (y : BitVec 4) (z : BitVec 4) (e : BitVec 4) (f : BitVec 1)
  /-- CHAIN (R221): Starts a package copy channel walking the chain at the given head. -/
  | chain (h : Hdr) (a : BitVec 6) (b : BitVec 6)
  /-- BALLOC (R231): Allocates a run of banks to the group and returns its first bank. -/
  | balloc (h : Hdr) (d : BitVec 6) (a : BitVec 6)
  /-- BFREE (R232): Frees a run of the group's banks after exclusive holds, clearing them. -/
  | bfree (h : Hdr) (a : BitVec 6)
  /-- BMODE (R232): Sets the mode of a run of the group's banks after exclusive holds. -/
  | bmode (h : Hdr) (a : BitVec 6) (b : BitVec 6)
  /-- BSTAT (R233): Writes a snapshot of a bank's status word to every member. -/
  | bstat (h : Hdr) (d : BitVec 6) (a : BitVec 6)
  /-- MLOOP (R237): Starts a matrix loop of n K-steps of an A tile against a compute panel into an accumulator region. -/
  | mloop (h : Hdr) (x : BitVec 4) (y : BitVec 4) (z : BitVec 4) (e : BitVec 4) (f : BitVec 4)
  /-- ACCRD (R242): Reads an accumulator entry into gD per member once its shared hold is granted. -/
  | accrd (h : Hdr) (d : BitVec 6) (a : BitVec 6)
  /-- ACCLD (R242): Loads a range of accumulator entries from scratchpad words. -/
  | accld (h : Hdr) (a : BitVec 6) (b : BitVec 6)
  /-- ACCCLR (R242): Sets a range of accumulator entries to zero. -/
  | accclr (h : Hdr) (a : BitVec 6)
  /-- ACCST (R243): Starts a copy that converts an accumulator region into a storage tensor. -/
  | accst (h : Hdr) (x : BitVec 4) (y : BitVec 4) (e : BitVec 4) (f : BitVec 2)
  /-- BCHK (R235): Checks the known sums of the named compute banks, parking the batch until done. -/
  | bchk (h : Hdr) (a : BitVec 6)
  /-- RCOPY (R249): Starts a row copy of equal-length 128-aligned ranges. -/
  | rcopy (h : Hdr) (x : BitVec 4) (y : BitVec 4) (e : BitVec 4)
  /-- RFILL (R249): Starts a row fill of a range with all zeros or all ones. -/
  | rfill (h : Hdr) (x : BitVec 4) (e : BitVec 4) (f : BitVec 1)
  /-- RBIT_AND (R249): Starts a row operation writing X AND Y to the destination. -/
  | rbitAnd (h : Hdr) (x : BitVec 4) (y : BitVec 4) (z : BitVec 4) (e : BitVec 4)
  /-- RBIT_OR (R249): Starts a row operation writing X OR Y to the destination. -/
  | rbitOr (h : Hdr) (x : BitVec 4) (y : BitVec 4) (z : BitVec 4) (e : BitVec 4)
  /-- RBIT_MAJ3 (R249): Starts a row operation writing the bitwise majority of D, X and Y to D. -/
  | rbitMaj3 (h : Hdr) (x : BitVec 4) (y : BitVec 4) (z : BitVec 4) (e : BitVec 4)
  /-- RBIT_NOT (R249): Starts a row operation writing NOT X to the destination. -/
  | rbitNot (h : Hdr) (x : BitVec 4) (y : BitVec 4) (e : BitVec 4)
  /-- RBIT_XOR (R249): Starts a row operation writing X XOR Y to the destination. -/
  | rbitXor (h : Hdr) (x : BitVec 4) (y : BitVec 4) (z : BitVec 4) (e : BitVec 4)
  /-- NMX (R257): Starts the near-memory element program over every output element. -/
  | nmx (h : Hdr) (x : BitVec 4) (y : BitVec 4) (z : BitVec 4) (e : BitVec 4)
  /-- NSEG (R258): Starts the near-memory segment reduction of embedding rows into bags. -/
  | nseg (h : Hdr) (x : BitVec 4) (y : BitVec 4) (z : BitVec 4) (e : BitVec 4) (f : BitVec 1) (m : BitVec 2)
  /-- MBBIND (R275): Binds a mailbox window to a task header in the issuing partition and returns a status. -/
  | mbbind (h : Hdr) (d : BitVec 6) (a : BitVec 6) (b : BitVec 6)
  /-- MBFREE (R275): Unbinds a mailbox window and returns a status. -/
  | mbfree (h : Hdr) (d : BitVec 6) (a : BitVec 6)
  /-- MBPOST (R275): Releases and posts z bytes of scratchpad to a mailbox and returns the post's status. -/
  | mbpost (h : Hdr) (d : BitVec 6) (a : BitVec 6) (b : BitVec 6)
  /-- QPUT (R274): Puts a 16-byte entry into stage queue n, parking while it is full. -/
  | qput (h : Hdr) (a : BitVec 6) (b : BitVec 6)
  /-- QTAKE (R274): Takes the head entry of stage queue n, parking until one exists or the queue closes. -/
  | qtake (h : Hdr) (d : BitVec 6) (a : BitVec 6) (b : BitVec 6)
  /-- QSTAT (R274): Writes a snapshot of stage queue n's occupancy, depth and closed bit. -/
  | qstat (h : Hdr) (d : BitVec 6) (b : BitVec 6)
  /-- EFORK (R276): Forks an engine stream of CNT+1 words with a copy of the scalar registers. -/
  | efork (h : Hdr) (c : BitVec 6) (o : BitVec 14)
  /-- ERDV (R277): Parks until the warp's stream ends and takes its s16 to s31 and status. -/
  | erdv (h : Hdr)
  /-- CWAIT (R301): Parks the batch until a completion counter reaches the target or is in error. -/
  | cwait (h : Hdr) (q : BitVec 4) (a : BitVec 6) (b : BitVec 6)
  /-- CTEST (R301): Sets pD to whether a completion counter has reached the target without error. -/
  | ctest (h : Hdr) (q : BitVec 4) (a : BitVec 6) (b : BitVec 6)
  /-- BWINIT (R306): Initialises a scratchpad barrier word with EXPECT arrivals and makes it live. -/
  | bwinit (h : Hdr) (a : BitVec 6) (b : BitVec 6)
  /-- BWARR (R306): Makes one arrival per member at a barrier word, announcing owed engine completions. -/
  | bwarr (h : Hdr) (a : BitVec 6) (b : BitVec 6)
  /-- BWWAIT (R306): Parks each member until the barrier word's phase parity differs from gB. -/
  | bwwait (h : Hdr) (a : BitVec 6) (b : BitVec 6)
  /-- BWTEST (R306): Sets pQ to whether the barrier word's phase parity differs from gB. -/
  | bwtest (h : Hdr) (q : BitVec 3) (a : BitVec 6) (b : BitVec 6)
  /-- BWDROP (R306): Clears a barrier word's live tag unless waiters or .bw completions remain. -/
  | bwdrop (h : Hdr) (a : BitVec 6)
  /-- LBARV (R310): Makes one arrival of the issuing core at a lacing group. -/
  | lbarv (h : Hdr) (l : BitVec 6)
  /-- LBWAIT (R311): Parks the batch until the lacing group completes past the core's ticket. -/
  | lbwait (h : Hdr) (l : BitVec 6)
  /-- LBSET (R312): Reads a 256-bit member mask for a lacing group and installs it now or after the current generation. -/
  | lbset (h : Hdr) (l : BitVec 6) (a : BitVec 6)
  /-- MIGTO (R293): Migrates each member to the home core of the address in gA.d. -/
  | migto (h : Hdr) (a : BitVec 6)
  /-- MIGRET (R293): Sends a guest fibre home; does nothing at home. -/
  | migret (h : Hdr)
  /-- REGRP (R292): Parks the batch until no lane of mask mK is AWAY. -/
  | regrp (h : Hdr) (m : BitVec 4)
  /-- SHLD (R138): Loads a shape register from 64 bytes of memory. -/
  | shld (h : Hdr) (hf : BitVec 4) (a : BitVec 6)
  /-- SHST (R138): Stores a shape register into 64 bytes of memory. -/
  | shst (h : Hdr) (hf : BitVec 4) (a : BitVec 6)
  /-- SHGET (R138): Reads one field of a shape register into every member. -/
  | shget (h : Hdr) (hf : BitVec 4) (a : BitVec 6) (f : BitVec 6)
  /-- SHSET (R138): Writes one field of a shape register from the leader. -/
  | shset (h : Hdr) (hf : BitVec 4) (a : BitVec 6) (f : BitVec 6)
  /-- CSRR (R141): Reads a system register into gD per member. -/
  | csrr (h : Hdr) (d : BitVec 6) (c : BitVec 12)
  /-- CSRW (R141): Writes a system register from the leader's gD under privilege checks. -/
  | csrw (h : Hdr) (d : BitVec 6) (c : BitVec 12)
  /-- CSRS (R141): Sets bits of a system register indivisibly. -/
  | csrs (h : Hdr) (d : BitVec 6) (c : BitVec 12)
  /-- CSRC (R141): Clears bits of a system register indivisibly. -/
  | csrc (h : Hdr) (d : BitVec 6) (c : BitVec 12)
  /-- IMMX (R142): Supplies a 20-bit immediate to the next non-hint instruction of the batch. -/
  | immx (i : BitVec 20)
  /-- OPND_REG (R143): Names a register operand for the next instruction. -/
  | opndReg (r : BitVec 6)
  /-- OPND_PRED (R143): Names a predicate operand for the next instruction. -/
  | opndPred (p : BitVec 4)
  /-- MODR (R144): Supplies rounding, saturation, cache, scope, order and migration modifiers to the next instruction. -/
  | modr (v : BitVec 1) (m : BitVec 2) (t : BitVec 1) (c : BitVec 3) (k : BitVec 3) (o : BitVec 2) (w : BitVec 2)
  /-- SCHD (R145): Advises the scheduler to yield and keep operands for reuse. -/
  | schd (y : BitVec 1) (u : BitVec 3)
  /-- ECLS (R146): Sets the energy class of the next instruction. -/
  | ecls (e : BitVec 4)
  /-- DUMP (R356): Stops the task's groups at safe points, writes a dump and releases them. -/
  | dump (h : Hdr)
  /-- TMARK (R356): Writes a mark entry with its code into the core's trace ring. -/
  | tmark (h : Hdr) (c : BitVec 16)
  /-- BRK (R128): Raises BRK for every active fibre, or stops the core in debug state HALT. -/
  | brk (u : BitVec 1) (v : BitVec 4) (c : BitVec 16)
  /-- ILLEGAL_OP_WORD (R59): A fetched word of an unassigned major or a reserved minor is issued and raises ILLEGAL_OP for every active lane whose guard is true. -/
  | illegalOpWord (word : BitVec 32)
  /-- MODULE_RESET (R165): Module reset clears HBM, scratchpad and caches and loads registers from the configuration record. -/
  | moduleReset
  /-- FIRMWARE_BOOT (R370): Each selvedge die's ROM verifies firmware slots and configuration records before release. -/
  | firmwareBoot
  /-- IMAGE_WRITE (R370): A recovery command writes a firmware image slot while no image verifies. -/
  | imageWrite (master die slot : Nat) (image : List (BitVec 8))
  /-- MODULE_POWER_LOSS (R175): Module-wide power loss ends every context; firmware keeps only MRAM summaries. -/
  | modulePowerLoss
  /-- CORE_POWER_LOSS (R193): A core loses power and rolls back to its last intact commit. -/
  | corePowerLoss (core : Nat)
  /-- MOTIF_POWER_LOSS (R172): A motif loses power while MRAM keeps its images, journals and L2 shadow. -/
  | motifPowerLoss (motif : Nat)
  /-- MOTIF_RESTORE (R172): A motif regaining power reloads its L2 slice from the L2 shadow before serving requests. -/
  | motifRestore (motif : Nat)
  /-- CORE_RESUME (R351): At power-good a core scans and applies its journal, settles intents and releases issue. -/
  | coreResume (core : Nat)
  /-- BANK_RELOAD (R351): After resume a held bank is reloaded from MRAM, in order or on demand. -/
  | bankReload (core bank : Nat)
  /-- CORE_GATE (R295): A core is gated after recalling its guests, refusing departures from the request. -/
  | coreGate (core : Nat)
  /-- HOST_ACCESS (R367): A host read or write through a BAR2 slot is translated and performed at the home slice. -/
  | hostAccess (master part off len : Nat) (write : Option (List (BitVec 8)))
  /-- PEER_ACCESS (R369): An incoming peer read or write is translated in the receiving partition and performed. -/
  | peerAccess (port off len : Nat) (write : Option (List (BitVec 8)))
  /-- STORE_POST (R264): A published store covering a bound window's last byte reaches the home slice and posts its message. -/
  | storePost (part window : Nat)
  /-- DEPENDENCY_MET (R266): A launch in WAITDEP moves to ORDERED, or is refused, when its dependency counter changes. -/
  | dependencyMet (launch : Nat)
  /-- GROUP_PLACEMENT (R269): The launch unit places the next group of the head launch on a fitting core and initialises it. -/
  | groupPlacement (part : Nat)
  /-- PREEMPTION_SAVE (R347): Once engines end and fibres reach safe points, the group is written into its save slot. -/
  | preemptionSave (core group : Nat)
  /-- GROUP_END (R124): A group whose lanes are all EMPTY or ENDED ends after its engines finish, freeing its banks. -/
  | groupEnd (core group : Nat)
  /-- S_PARK_RELEASE (R52): A batch parked by a switch marker resumes once all its pending results are written. -/
  | sParkRelease (core slot : Nat) (lanes : BitVec 32)
  /-- CWAIT_RELEASE (R301): A parked CWAIT is released after an update satisfies it, setting pD and acquiring. -/
  | cwaitRelease (core slot tag : Nat)
  /-- LBWAIT_RELEASE (R311): A completed lacing generation reaches a core and releases its waiting batches. -/
  | lbwaitRelease (core lgroup : Nat)
  /-- QUEUE_PARK_RELEASE (R274): A QPUT or QTAKE parked on a stage queue proceeds once room, an entry or closure appears. -/
  | queueParkRelease (core slot tag : Nat)
  /-- STAGE_REASSIGN (R272): An idle warp is reassigned to the highest stage with a non-empty input queue. -/
  | stageReassign (core slot : Nat)
  /-- NAP_WAKE (R125): A napping fibre becomes READY when its wake time arrives. -/
  | napWake (core slot lane : Nat)
  /-- YIELD_EXPIRY (R125): A YIELD deferral ends after 16 issue slots of the scheduler. -/
  | yieldExpiry (core slot : Nat)
  /-- HOLD_GRANT (R228): A waiting request for a bank or accumulator entry is granted its hold in arrival order. -/
  | holdGrant (core hold : Nat)
  /-- BANK_CLEAR_DONE (R152): A freed bank finishes clearing after 1,024 lane cycles and reads zero. -/
  | bankClearDone (core bank : Nat)
  /-- BANK_RUN_COMPLETE (R232): A BFREE or BMODE performs its change once its exclusive holds are granted. -/
  | bankRunComplete (op : Nat)
  /-- COPY_COMPLETION (R215): A copy whose last byte is written adds its byte count or reduces DUE as one release. -/
  | copyCompletion (op : Nat)
  /-- COPY_FAILURE (R216): A copy meeting a fault after issue writes its status code and releases ownership and slot. -/
  | copyFailure (op : Nat)
  /-- MLOOP_COMPLETION (R238): A matrix loop writes its last entry on every span core, signals completion and releases holds. -/
  | mloopCompletion (op : Nat)
  /-- BCHK_COMPLETION (R235): BCHK finishes its last bank, records outcomes and raises BANK_CHECK on a mismatch. -/
  | bchkCompletion (op : Nat)
  /-- ROW_SEGMENT (R248): A row-operation segment starts, choosing the in-array or fallback path. -/
  | rowSegment (op : Nat)
  /-- STACK_ENGINE_COMPLETION (R246): A row, NMX or NSEG operation completes into its counter with its byte count. -/
  | stackEngineCompletion (op : Nat)
  /-- LINE_WRITEBACK (R255): A line or masked merge reaches the base die, which decodes, merges and re-encodes it. -/
  | lineWriteback (line : Nat)
  /-- DRAM_REFRESH (R252): A DRAM bank refreshes and then replays its catch-up queue in arrival order. -/
  | dramRefresh (stack channel bank : Nat)
  /-- REFRESH_BOUND_EXPIRY (R252): A normal request's 1,000 ns bound expires and its commands preempt the running burst. -/
  | refreshBoundExpiry (stack channel bank : Nat)
  /-- STREAM_WORD (R276): The engine sequencer issues the next word of a stream, ending the stream after its last. -/
  | streamWord (core slot : Nat)
  /-- CHHEAD_WRITE (R279): An MMIO write of CHHEAD starts an idle channel's walk or sets LOST while busy. -/
  | chheadWrite (master ch : Nat) (v : BitVec 64)
  /-- CHANNEL_RECORD (R281): A channel reads its next transfer record and starts its copy or stops. -/
  | channelRecord (ch : Nat)
  /-- CHANNEL_COPY_COMPLETION (R281): A record's copy completes into CTR, clears OWN in chain order and advances CHHEAD. -/
  | channelCopyCompletion (ch : Nat)
  /-- SHUTTLE_ARRIVAL (R289): A shuttle reaches its target core's queue and joins or forms a guest warp when room exists. -/
  | shuttleArrival (gtag : Nat)
  /-- GUEST_PLACEMENT (R289): A queued shuttle is placed in a guest warp lane once a lane or slot frees. -/
  | guestPlacement (core : Nat)
  /-- SHUTTLE_BOUNCE (R289): A shuttle that has waited 10 µs returns and its departure is treated as refused. -/
  | shuttleBounce (core gtag : Nat)
  /-- HOME_ARRIVAL (R288): A homeward shuttle writes its registers home, ORs GFL into OPF and sets the lane state. -/
  | homeArrival (shuttle : Nat)
  /-- SHUTTLE_RESEND (R295): The sender resends a shuttle with the same SEQ after the receiver lost power before committing it. -/
  | shuttleResend (shuttle : Nat)
  /-- GROUP_MOVE (R296): The power controller moves a quiescent group to another core of the partition. -/
  | groupMove (core group dst : Nat)
  /-- EGRESS_DRAIN (R190): The egress buffer commits and drains when full or 1 µs after its oldest entry. -/
  | egressDrain (core : Nat)
  /-- JOURNAL_APPLY (R169): After commit the journal applies an epoch's records to the MRAM images. -/
  | journalApply (core : Nat)
  /-- STACK_SPILL (R164): The stack cache spills or fills a call's spill slot as ordinary fibre stores. -/
  | stackSpill (core slot lane : Nat)
  /-- FETCH_RETRY (R160): Fibres parked on a non-resident fetch re-attempt when the page's translation changes. -/
  | fetchRetry (core slot : Nat)
  /-- FETCH_REWALK (R328): Parked fetches walk again every 4 µs. -/
  | fetchRewalk (motif : Nat)
  /-- DEADLINE_EXPIRY (R313): A context's DLREM reaches zero and its task takes the fatal fault DEADLINE. -/
  | deadlineExpiry (core launch : Nat)
  /-- DUMP_WRITE (R353): The dump writer writes a signed, encrypted dump into the dump region once engines end. -/
  | dumpWrite (part : Nat)
  /-- ENERGY_REFILL (R315): Every 1,000 ns EBUDGET is raised by EBRATE up to EBMAX. -/
  | energyRefill (core launch : Nat)
  /-- GUEST_DEBIT (R316): A forwarded guest debit is applied to the home context's EBUDGET. -/
  | guestDebit (index : Nat)
  /-- EBUDGET_REPORT (R316): A home core's report of its EBUDGET sign change reaches a host core and sets guest stalls. -/
  | ebudgetReport (index : Nat)
  /-- HANDLER_POST_RETRY (R345): A handler post refused for a full queue is retried every 1 µs. -/
  | handlerPostRetry (core slot : Nat)
  /-- CURRENT_ALARM (R363): A current alarm raises PASSCNT within 50 ns or lowers the current ceiling. -/
  | currentAlarm (motif : Nat)
  /-- SENSITIVITY_WINDOW (R362): Every 10 µs the sensitivity controller classes the window and may request a step. -/
  | sensitivityWindow (motif : Nat)
  /-- CONTROL_INTERVAL (R363): Every 1 µs the motif controller forms its limits and begins at most one OPL step; the estimates of the point held
and of the next faster one. -/
  | controlInterval (motif temp : Nat) (estimate : Nat × Nat)
  /-- STEP_PHASE_END (R360): A voltage ramp or clock relock phase of a power step ends. -/
  | stepPhaseEnd (motif : Nat)
  /-- HOST_LINK_CHANGE (R333): A host endpoint's PCI Express link goes up or down. -/
  | hostLinkChange (master : Nat) (up : Bool)
  /-- BMC_POLL (R333): Every 10 ms the management controller polls the board management controller's endpoint. -/
  | bmcPoll (answered : Bool)
  /-- OWNER_TIMEOUT (R333): After the owner's link is down for 100 ms OWNER becomes none. -/
  | ownerTimeout
  /-- PEER_LINK_DOWN (R369): A peer port's link goes down; later accesses through it fault or fail. -/
  | peerLinkDown (port : Nat)
  /-- DEBUG_TOKEN_EXPIRY (R336): TIME reaches a debug token's NOTAFTER and DEBUG returns to NONE. -/
  | debugTokenExpiry (part : Nat)
  /-- SHOOTDOWN (R328): A write of SHOOTCMD.GO drops translations, lines and fetch blocks of a range. -/
  | shootdown (master part : Nat) (value : BitVec 32)
  /-- SHOOTDOWN_DONE (R328): Once in-flight engines of the partition end the shootdown clears BUSY and advances DONE. -/
  | shootdownDone (part : Nat)
  /-- APERR_READ (R367): A read of APERR returns the count and clears it. -/
  | aperrRead (master part : Nat)
  /-- DEBUG_WINDOW_ACCESS (R368): A master reads or writes the selected state of a stopped core through the debug window. -/
  | debugWindowAccess (master off len : Nat) (write : Option (List (BitVec 8)))
  /-- MMIO_WRITE (R9): A write to a BAR0 register without its own behaviour sets its fields by their access codes. -/
  | mmioWrite (master off : Nat) (bytes : List (BitVec 8))
  /-- READ (R334): Returns the ownership and partition tables. -/
  | cmdRead (master : Nat)
  /-- CLAIM (R334): Makes the issuer owner if there is none. -/
  | cmdClaim (master : Nat)
  /-- HANDOVER (R334): Passes ownership to a master whose link is up, or to none. -/
  | cmdHandover (master succ : Nat)
  /-- GRANT (R334): Sets or revokes the master granted a partition. -/
  | cmdGrant (master part grantee : Nat)
  /-- PSET (R332): Writes a partition-table field under its limits. -/
  | cmdPset (master part field : Nat) (value : Nat)
  /-- ERASE (R353): Zeroes a partition's dump region and sets DUMPUSED to 0. -/
  | cmdErase (master part : Nat)
  /-- TBIND (R336): Binds a tenant credential to a partition, moving SECURED to TENANT. -/
  | cmdTbind (master part : Nat) (handle : BitVec 32)
  /-- TUNBIND (R336): Erases a partition's dumps and traces and removes its tenant binding. -/
  | cmdTunbind (master part : Nat)
  /-- DEBUG (R336): Sets a partition's debug state, requiring a debug token and any tenant consent. -/
  | cmdDebug (master part state : Nat)
  /-- DSTOP (R337): Stops issue on a core of a partition in debug state HALT. -/
  | cmdDstop (master core : Nat)
  /-- DRESUME (R337): Restarts issue on a stopped core. -/
  | cmdDresume (master core : Nat)
  /-- TRACEREAD (R334): Copies a core's trace ring into OWNBUF under the access rules. -/
  | cmdTraceread (master core : Nat)
  /-- DUMPREAD (R334): Copies 16 KiB of a partition's dump region into OWNBUF under the access rules. -/
  | cmdDumpread (master part off : Nat)
  /-- CHALLENGE (R338): Returns a fresh nonce and the device's encapsulation key. -/
  | cmdChallenge (master : Nat)
  /-- PROVISION (R336): Moves MANUFACTURE to SECURED on a signed provisioning record. -/
  | cmdProvision (master : Nat)
  /-- RETIRE (R336): Moves the module to RETIRED on a signed retire token, erasing keys. -/
  | cmdRetire (master : Nat)
  /-- ATTEST (R372): Returns a signed attestation report over the measurements for a nonce. -/
  | cmdAttest (master : Nat) (nonce : List (BitVec 8))
  /-- CLASS_D_RESULT (R53): A pending class-D result, such as a load's data and residency predicate, an atomic's old value or a float result with its OPF flags, is written and becomes visible to its fibre. -/
  | classDResult (core slot res : Nat)
  /-- PEER_LINK_UP (R369): A peer port's link comes up, so PEERLINK reads up and device and incoming accesses through that port work again. -/
  | peerLinkUp (port : Nat)
  deriving DecidableEq, Repr

end Sys2Proof
end

