-- ==== Sys2Proof/Machine/Legal.lean ====
section
/-! DEFINITION. Which encoded operands are legal: pairs and quads, s registers, masks, condition codes and the reserved
values of coded fields (03_instruction_words.md R55, R56, R60 to R62). An illegal operand raises ILLEGAL_OP. -/

namespace Sys2Proof.Machine

/-- An operand written .d must be even, and one written .q a multiple of four (R56). -/
def evenReg (r : BitVec 6) : Bool := r.toNat % 2 == 0
def quadReg (r : BitVec 6) : Bool := r.toNat % 4 == 0

/-- A field that names s0 to s31 (R56, R109). -/
def sReg (r : BitVec 6) : Bool := decide (r.toNat ≤ 31)

/-- A mask field names m0 to m11 (R60). -/
def maskReg (m : BitVec 4) : Bool := decide (m.toNat ≤ 11)

/-- A stage queue number (13_queues.md R274). -/
def queueNo (n : BitVec 6) : Bool := n != 0 && decide (n.toNat ≤ 3)

/-- A CVT type code that is assigned and not MX (R62), whose 64-bit types name an even register (05 R99). -/
def cvtTypeOk (r : BitVec 6) (c : Nat) : Bool := decide (c ≤ 0x11) && (!(c == 3 || c == 7) || evenReg r)
def cvtOk (d a : BitVec 6) (st dt : Nat) : Bool := cvtTypeOk a st && cvtTypeOk d dt

/-- An element format code of the block instructions (05 R102). -/
def mxOk (f : BitVec 3) : Bool := decide (f.toNat ≤ 5)

/-- OP and T of REDW and SCANW (R62, 05 R108). -/
def redOk (d a : BitVec 6) (o t : Nat) : Bool :=
  decide (o ≤ 5) && decide (t ≤ 4) && !(t == 2 && decide (3 ≤ o)) && (decide (t ≤ 2) || (evenReg d && evenReg a))

/-- Width of a shape field (07_shape_system.md Table 7-4). -/
def shapeWidth (f : Nat) : Nat :=
  [64, 64, 64, 32, 32, 20, 20, 20, 20, 20, 24, 32, 32, 32, 32, 5, 3, 2, 5, 2, 2, 1, 1, 6, 7, 7].getD f 0

/-- CSR numbers through which a 64-bit register is accessed whole (07 R139, Table 7-6). -/
def csrWide (c : Nat) : Bool :=
  [0x000, 0x004, 0x008, 0x020, 0x022, 0x032, 0x034, 0x042, 0x080, 0x082, 0x084, 0x086, 0x088].contains c ||
  (decide (0x0A0 ≤ c) && decide (c < 0x0C0) && c % 2 == 0)

/-- CSR numbers that access 32 bits: the 32-bit registers, and the low words of the 64-bit ones. -/
def csrNarrow (c : Nat) : Bool :=
  [0x002, 0x003, 0x006, 0x007, 0x024, 0x025, 0x030, 0x031, 0x040, 0x041, 0x044, 0x045, 0x060, 0x061, 0x062, 0x063].contains c ||
  (decide (0x0C0 ≤ c) && decide (c < 0x0D0)) || (c % 2 == 1 && csrWide (c - 1))

/-- The encoded operands of an instruction are legal, whatever the state; an event has none. -/
def legal : Instr → Bool
  | .iadd _ _ _ _ => true
  | .isub _ _ _ _ => true
  | .ineg _ _ _ => true
  | .iabs _ _ _ => true
  | .iaddi _ _ _ _ => true
  | .imul _ _ _ _ => true
  | .imulhI32 _ _ _ _ => true
  | .imulhN32 _ _ _ _ => true
  | .imad _ _ _ _ => true
  | .iminI32 _ _ _ _ => true
  | .iminN32 _ _ _ _ => true
  | .imaxI32 _ _ _ _ => true
  | .imaxN32 _ _ _ _ => true
  | .and _ _ _ _ => true
  | .or _ _ _ _ => true
  | .xor _ _ _ _ => true
  | .andn _ _ _ _ => true
  | .orn _ _ _ _ => true
  | .popc _ _ _ => true
  | .clz _ _ _ => true
  | .brev _ _ _ => true
  | .shl _ _ _ _ => true
  | .shr _ _ _ _ => true
  | .sar _ _ _ _ => true
  | .rol _ _ _ _ => true
  | .bfxN32 _ _ _ _ => true
  | .bfxI32 _ _ _ _ => true
  | .bfi _ _ _ _ => true
  | .perm _ _ _ _ => true
  | .lea _ d a _ _ => evenReg d && evenReg a
  | .iadd64 _ d a b => evenReg d && evenReg a && evenReg b
  | .isub64 _ d a b => evenReg d && evenReg a && evenReg b
  | .addc _ _ _ _ => true
  | .sopAdd _ d a b => sReg d && sReg a && sReg b
  | .sopSub _ d a b => sReg d && sReg a && sReg b
  | .sopMul _ d a b => sReg d && sReg a && sReg b
  | .sopAnd _ d a b => sReg d && sReg a && sReg b
  | .sopOr _ d a b => sReg d && sReg a && sReg b
  | .sopXor _ d a b => sReg d && sReg a && sReg b
  | .sopShl _ d a b => sReg d && sReg a && sReg b
  | .sopShr _ d a b => sReg d && sReg a && sReg b
  | .scmp _ _ _ _ c => intCondOk c.toNat
  | .icmp _ _ _ _ c => intCondOk c.toNat
  | .icmpi _ _ _ _ c => intCondOk c.toNat
  | .mov _ _ _ => true
  | .movi _ _ _ => true
  | .isel _ _ _ _ => true
  | .plop _ _ _ _ _ => true
  | .pmovFromPw _ _ => true
  | .pmovToPw _ _ => true
  | .fadd _ _ _ _ => true
  | .fsub _ _ _ _ => true
  | .fmul _ _ _ _ => true
  | .ffma _ _ _ _ => true
  | .fmin _ _ _ _ => true
  | .fmax _ _ _ _ => true
  | .fmov _ _ _ => true
  | .fmovAbs _ _ _ => true
  | .fmovNeg _ _ _ => true
  | .fmovCpsgn _ _ _ _ => true
  | .fcmp _ _ _ _ c => floatCondOk c.toNat
  | .frcp _ _ _ => true
  | .frsq _ _ _ => true
  | .fsqrt _ _ _ => true
  | .fex2 _ _ _ => true
  | .flg2 _ _ _ => true
  | .fsin _ _ _ => true
  | .fcos _ _ _ => true
  | .ftanh _ _ _ => true
  | .pkaddF16 _ _ _ _ => true
  | .pkmulF16 _ _ _ _ => true
  | .pkaddBf16 _ _ _ _ => true
  | .pkmulBf16 _ _ _ _ => true
  | .pkfmaF16 _ _ _ _ => true
  | .pkfmaBf16 _ _ _ _ => true
  | .cvt _ d a st dt => cvtOk d a st.toNat dt.toNat
  | .pack _ _ _ => true
  | .unpk _ _ _ => true
  | .frnd _ _ _ _ => true
  | .qblk _ d _ f => evenReg d && mxOk f
  | .qhad _ d a f _ => evenReg d && evenReg a && mxOk f
  | .dqblk _ _ a f => evenReg a && mxOk f
  | .shflLane _ _ _ _ => true
  | .shflRot _ _ _ _ => true
  | .shflMirr _ _ _ _ => true
  | .shflBfly _ _ _ _ => true
  | .voteEvery _ _ _ => true
  | .voteSome _ _ _ => true
  | .voteSame _ _ _ => true
  | .voteOdd _ _ _ => true
  | .ballot _ _ _ => true
  | .matchPeers _ _ _ => true
  | .matchWhole _ _ _ => true
  | .redw _ d a o t => redOk d a o.toNat t.toNat
  | .scanw _ d a o t => redOk d a o.toNat t.toNat
  | .scanwExcl _ d a o t => redOk d a o.toNat t.toNat
  | .smovS _ d _ => sReg d
  | .smovG _ _ a => sReg a
  | .bra _ _ => true
  | .call _ _ _ => true
  | .brax _ a => evenReg a
  | .callx _ a _ => evenReg a
  | .ret _ => true
  | .join _ m => maskReg m
  | .leave _ m => maskReg m
  | .waitm _ m => maskReg m
  | .mopSet _ m _ => maskReg m
  | .mopAnd _ m a b => maskReg m && maskReg a && maskReg b
  | .mopOr _ m a b => maskReg m && maskReg a && maskReg b
  | .mopAndn _ m a b => maskReg m && maskReg a && maskReg b
  | .mopBatch _ m => maskReg m
  | .mopBallot _ m _ => maskReg m
  | .fspawn _ _ a _ => evenReg a
  | .fend _ => true
  | .exit _ => true
  | .yield _ => true
  | .nap _ _ => true
  | .safe _ _ => true
  | .trap _ _ => true
  | .tretResume _ a => evenReg a
  | .tretSkip _ a => evenReg a
  | .tretEnd _ a => evenReg a
  | .ldb _ _ a _ _ => evenReg a
  | .ldh _ _ a _ _ => evenReg a
  | .ldw _ _ a _ _ => evenReg a
  | .ldd _ d a _ _ => evenReg a && evenReg d
  | .ldq _ d a _ _ => evenReg a && quadReg d
  | .stb _ _ a r _ => evenReg a && decide (r.toNat ≤ 2)
  | .sth _ _ a r _ => evenReg a && decide (r.toNat ≤ 2)
  | .stw _ _ a r _ => evenReg a && decide (r.toNat ≤ 2)
  | .std _ d a r _ => evenReg a && evenReg d && decide (r.toNat ≤ 2)
  | .stq _ d a r _ => evenReg a && quadReg d && decide (r.toNat ≤ 2)
  | .stn _ _ a _ r _ => evenReg a && decide (r.toNat ≤ 2)
  | .atom _ d a o t => evenReg a && decide (o.toNat ≤ 6) && (decide (t.toNat ≤ 1) || evenReg d)
  | .atomf _ _ a o => evenReg a && decide (o.toNat ≤ 2)
  | .cas _ _ a _ => evenReg a
  | .casD _ d a b => evenReg a && evenReg d && evenReg b
  | .casQ _ d a b => evenReg a && quadReg d && quadReg b
  | .red _ o t a b => evenReg a && decide (o.toNat ≤ 6) && o != 1 && (decide (t.toNat ≤ 1) || evenReg b)
  | .phase _ k c => decide (k.toNat ≤ 2) && decide (c.toNat ≤ 5)
  | .pfence _ c => (c == 2 || c == 3)
  | .cwb _ a => evenReg a
  | .cinv _ a => evenReg a
  | .zline _ a => evenReg a
  | .pref _ a l => evenReg a && decide (l.toNat ≤ 1)
  | .pgreq _ a => evenReg a
  | .pgprobe _ a _ => evenReg a
  | .acpy _ _ _ _ _ => true
  | .acpym _ _ _ _ _ => true
  | .afill _ _ _ _ => true
  | .agthr _ _ _ _ _ _ => true
  | .chain _ _ b => evenReg b
  | .balloc _ _ _ => true
  | .bfree _ _ => true
  | .bmode _ _ _ => true
  | .bstat _ _ _ => true
  | .mloop _ _ _ _ _ _ => true
  | .accrd _ _ _ => true
  | .accld _ _ _ => true
  | .accclr _ _ => true
  | .accst _ _ _ _ _ => true
  | .bchk _ a => evenReg a
  | .rcopy _ _ _ _ => true
  | .rfill _ _ _ _ => true
  | .rbitAnd _ _ _ _ _ => true
  | .rbitOr _ _ _ _ _ => true
  | .rbitMaj3 _ _ _ _ _ => true
  | .rbitNot _ _ _ _ => true
  | .rbitXor _ _ _ _ _ => true
  | .nmx _ _ _ _ _ => true
  | .nseg _ _ _ _ _ _ m => m != 3
  | .mbbind _ _ a b => evenReg a && evenReg b
  | .mbfree _ _ a => evenReg a
  | .mbpost _ _ a _ => evenReg a
  | .qput _ a b => quadReg a && queueNo b
  | .qtake _ d _ b => quadReg d && queueNo b
  | .qstat _ _ b => queueNo b
  | .efork _ _ _ => true
  | .erdv _ => true
  | .cwait _ _ a b => evenReg a && evenReg b
  | .ctest _ _ a b => evenReg a && evenReg b
  | .bwinit _ a _ => evenReg a
  | .bwarr _ a _ => evenReg a
  | .bwwait _ a _ => evenReg a
  | .bwtest _ _ a _ => evenReg a
  | .bwdrop _ a => evenReg a
  | .lbarv _ _ => true
  | .lbwait _ _ => true
  | .lbset _ _ a => evenReg a
  | .migto _ a => evenReg a
  | .migret _ => true
  | .regrp _ m => maskReg m
  | .shld _ _ a => evenReg a
  | .shst _ _ a => evenReg a
  | .shget _ _ a f => decide (f.toNat ≤ 25) && (decide (shapeWidth f.toNat ≠ 64) || evenReg a)
  | .shset _ _ a f => decide (f.toNat ≤ 25) && (decide (shapeWidth f.toNat ≠ 64) || evenReg a)
  | .csrr _ d c => (csrWide c.toNat || csrNarrow c.toNat) && (!csrWide c.toNat || evenReg d)
  | .csrw _ d c => (csrWide c.toNat || csrNarrow c.toNat) && (!csrWide c.toNat || evenReg d)
  | .csrs _ d c => (csrWide c.toNat || csrNarrow c.toNat) && (!csrWide c.toNat || evenReg d)
  | .csrc _ d c => (csrWide c.toNat || csrNarrow c.toNat) && (!csrWide c.toNat || evenReg d)
  | .immx _ => true
  | .opndReg _ => true
  | .opndPred _ => true
  | .modr _ _ _ c k _ w => decide (c.toNat ≤ 3) && decide (k.toNat ≤ 5) && decide (w.toNat ≤ 2)
  | .schd _ _ => true
  | .ecls _ => true
  | .dump _ => true
  | .tmark _ _ => true
  | .brk _ _ _ => true
  | .moduleReset => true
  | .firmwareBoot => true
  | .imageWrite _ _ _ _ => true
  | .modulePowerLoss => true
  | .corePowerLoss _ => true
  | .motifPowerLoss _ => true
  | .motifRestore _ => true
  | .coreResume _ => true
  | .bankReload _ _ => true
  | .coreGate _ => true
  | .hostAccess _ _ _ _ _ => true
  | .peerAccess _ _ _ _ => true
  | .storePost _ _ => true
  | .dependencyMet _ => true
  | .groupPlacement _ => true
  | .preemptionSave _ _ => true
  | .groupEnd _ _ => true
  | .sParkRelease _ _ _ => true
  | .cwaitRelease _ _ _ => true
  | .lbwaitRelease _ _ => true
  | .queueParkRelease _ _ _ => true
  | .stageReassign _ _ => true
  | .napWake _ _ _ => true
  | .yieldExpiry _ _ => true
  | .holdGrant _ _ => true
  | .bankClearDone _ _ => true
  | .bankRunComplete _ => true
  | .copyCompletion _ => true
  | .copyFailure _ => true
  | .mloopCompletion _ => true
  | .bchkCompletion _ => true
  | .rowSegment _ => true
  | .stackEngineCompletion _ => true
  | .lineWriteback _ => true
  | .dramRefresh _ _ _ => true
  | .refreshBoundExpiry _ _ _ => true
  | .streamWord _ _ => true
  | .chheadWrite _ _ _ => true
  | .channelRecord _ => true
  | .channelCopyCompletion _ => true
  | .shuttleArrival _ => true
  | .guestPlacement _ => true
  | .shuttleBounce _ _ => true
  | .homeArrival _ => true
  | .shuttleResend _ => true
  | .groupMove _ _ _ => true
  | .egressDrain _ => true
  | .journalApply _ => true
  | .stackSpill _ _ _ => true
  | .fetchRetry _ _ => true
  | .fetchRewalk _ => true
  | .deadlineExpiry _ _ => true
  | .dumpWrite _ => true
  | .energyRefill _ _ => true
  | .guestDebit _ => true
  | .ebudgetReport _ => true
  | .handlerPostRetry _ _ => true
  | .currentAlarm _ => true
  | .sensitivityWindow _ => true
  | .controlInterval _ _ _ => true
  | .stepPhaseEnd _ => true
  | .hostLinkChange _ _ => true
  | .bmcPoll _ => true
  | .ownerTimeout => true
  | .peerLinkDown _ => true
  | .debugTokenExpiry _ => true
  | .shootdown _ _ _ => true
  | .shootdownDone _ => true
  | .aperrRead _ _ => true
  | .debugWindowAccess _ _ _ _ => true
  | .mmioWrite _ _ _ => true
  | .cmdRead _ => true
  | .cmdClaim _ => true
  | .cmdHandover _ _ => true
  | .cmdGrant _ _ _ => true
  | .cmdPset _ _ _ _ => true
  | .cmdErase _ _ => true
  | .cmdTbind _ _ _ => true
  | .cmdTunbind _ _ => true
  | .cmdDebug _ _ _ => true
  | .cmdDstop _ _ => true
  | .cmdDresume _ _ => true
  | .cmdTraceread _ _ => true
  | .cmdDumpread _ _ _ => true
  | .cmdChallenge _ => true
  | .cmdProvision _ => true
  | .cmdRetire _ => true
  | .cmdAttest _ _ => true
  | .classDResult _ _ _ => true
  | .illegalOpWord _ => true
  | .peerLinkUp _ => true

end Sys2Proof.Machine
end

