-- ==== Sys2Proof/Config.lean ====
section
/-! DEFINITION. What an implementation fixes, and the free values: constants without a body, of which nothing can be
proved but what the spec says (assumption log 2, 5, 9, 10). -/

namespace Sys2Proof.Config

/-- The free value number `n` of a run, for use `i`: a choice or a value that the spec leaves open (log 2). -/
opaque free : Nat → Nat → Nat

/-- The bits that a special function of Table 5-2 delivers for a source outside its special cases; a module delivers
the same bits for the same source (05_float_registers.md R97). The first argument names the function: 0 FRSQ, 1 FEX2,
2 FLG2, 3 FSIN, 4 FCOS, 5 FTANH (log 5). -/
opaque special : Nat → Nat → Nat

/-- The cryptographic primitives that the spec names by outside standards, uninterpreted (log 9): SHA-256 of bytes. -/
opaque sha256 : List Byte → List Byte

/-- Whether an LMS or HSS signature over a message verifies under a key (log 9): key, message, signature. -/
opaque verify : List Byte → List Byte → List Byte → Bool

/-- The LMS signature of a message under the device attestation key with a leaf index (log 9). -/
opaque sign : Nat → List Byte → List Byte

/-- AES-256-GCM of a dump body: key choice, nonce, additional data, body; answers the tag and the ciphertext (log 9). -/
opaque encrypt : Nat → List Byte → List Byte → List Byte → List Byte

/-- A key wrapped under a credential's key-encryption key (log 9): choice, credential. -/
opaque wrapKey : Nat → List Byte → List Byte

/-- The key-encryption key carried by a ciphertext and its wrapped form (log 9). -/
opaque unwrap : List Byte → List Byte

/-- The device identity public key, the encapsulation key made at PROVISION and the fused key digest (log 9). -/
opaque deviceKey : List Byte
opaque encapKey : List Byte
opaque fusedKey : List Byte

/-- The security version that a firmware image carries (18_power_host.md R370, log 9). -/
opaque imageVersion : List Byte → Nat

/-- The digest of the selvedge dies' ROM (18_power_host.md R372, log 9). -/
opaque romDigest : List Byte

/-- A byte that the far end of a peer port answers (log 10): port, offset, choice. -/
opaque peerByte : Nat → Nat → Nat → Byte

end Sys2Proof.Config
end

