-- ==== Sys2Proof/Machine/State.lean ====
section
/-! DEFINITION. The state of the KX-256 module as plain data, and the state after module reset
(01_machine.md Table 1-7, R26; 08_memories.md R165). Fibre, warp, context and group state exists from their creation
(04_fibre_registers.md R71). -/

namespace Sys2Proof.Machine

/-- A finite map by ascending key. -/
abbrev PMap (α : Type) := List (Nat × α)

/-- Memory: the listed bytes by rising address; an unlisted byte reads zero (R165). -/
abbrev Memory := List Host.Cell

/-- Why the machine stops. -/
inductive Fault where
  /-- The spec gives the machine no stop: every architectural fault is taken as a next state (17_faults.md). Nothing
  raises this constructor; it is safe. -/
  | machineStop
  deriving DecidableEq, Repr

/-- Why the model refuses an instruction. -/
inductive Refusal where
  /-- An instruction whose meaning is not written yet: raised by the arm of `exec` alone; safe. -/
  | notModelled (mnemonic : String)
  deriving DecidableEq, Repr

/-! ## Fibres -/

/-- Lane states (06_control_state.md R110, Table 6-1). -/
inductive LaneState where
  | empty | ready | parked | napping | away | faulted | ended
  deriving DecidableEq, Repr

/-- What a PARKED fibre waits for (R110 and the rules of the waiting instructions). -/
inductive Park where
  | none
  /-- WAITM or REGRP on a mask (R117, R292). -/
  | waitm (k : Nat)
  | regrp (k : Nat)
  /-- An S park (03_instruction_words.md R52). -/
  | switchMark
  /-- CWAIT: its counter and the value that this is to reach (15_counters.md R301); it has reached it, or is in error. -/
  | cwait (addr target : Nat)
  | cwaitMet (err : Bool)
  /-- BWWAIT on the barrier word at a scratchpad offset for a parity bit (R306). -/
  | bwwait (off : Nat) (bit : Bool)
  /-- LBWAIT for a generation above a ticket (R311). -/
  | lbwait (group ticket : Nat)
  /-- A pre-emption or recall park at SAFE (R127). -/
  | safePoint
  /-- Pending results before a persist point or a departure (09_consistency.md R191, R285). -/
  | persist
  /-- A fetch from a non-resident page, and a link record, spill or fill on one (08_memories.md R160, R164; R122). -/
  | fetch (page : Nat)
  | stackPage (page : Nat)
  /-- QPUT or QTAKE (13_queues.md R274). -/
  | queue (n : Nat) (put : Bool)
  /-- ERDV, and EFORK behind a running stream (R276, R277). -/
  | stream
  /-- The core's 48 copy slots are in use (10_memory_instructions.md R214). -/
  | copySlot
  /-- A line or bank owned by an engine (09 R187); a bank that a resume has still to reload (17_faults.md R351). -/
  | owned
  | restoring (core bank : Nat)
  /-- The egress buffer is full (09 R190). -/
  | egress
  /-- The pager mailbox is full (10 R211); posted, while another post of the batch still waits for it. -/
  | pager
  | pagerDone (pc : DWord)
  /-- CHAIN on a busy channel (10 R221). -/
  | channel (ch : Nat)
  /-- BCHK (11_banks_matrix.md R235), BALLOC waiting for a clearing bank (R231). -/
  | bankCheck (op : Nat)
  | clearing
  /-- LBARV with both arrivals made (15 R310). -/
  | lbarv (group gen : Nat)
  /-- TRET naming a fibre of a resuming core (17_faults.md R350). -/
  | resuming (core : Nat)
  /-- DUMP, until the dump is written (17 R356). -/
  | dump
  /-- A pre-emption or group move in progress (14_shuttles.md R296). -/
  | moving
  /-- A guest that goes home once its core can commit (14 R285, R291; 08 R169). -/
  | leaving
  deriving DecidableEq, Repr

/-- A hint that a batch holds (03 R57, R58; 07_shape_system.md R142 to R146). -/
inductive Hint where
  | immx (v : BitVec 20)
  | opndReg (r : Nat)
  | opndPred (k : Nat)
  | modr (rv : Bool) (rm : Nat) (sat : Bool) (cp sc ord mg : Nat)
  | schd (yld : Bool) (ru : Nat)
  | ecls (ec : Nat)
  deriving DecidableEq, Repr

/-- A fault record (17 R340, Table 17-2), with the address at which TRET .skip goes on. -/
structure FaultRec where
  code : Nat
  pc : DWord
  addr : DWord
  batch : Word
  insn : Word
  core : Nat
  warp : Nat
  lane : Nat
  fseq : Word
  detail : Nat
  taskwide : Bool
  leader : Bool
  split : Bool
  guest : Bool
  stream : Bool
  hinted : Bool
  leadlane : Nat
  msnap : BitVec 12
  mvals : List Word
  /-- Not part of the 64 bytes: the address of the word after the faulted instruction (R129). -/
  after : DWord
  deriving DecidableEq, Repr

/-- A live call: its spill slot, and the registers that the stack cache has written there whole (06 R122, 08 R164). -/
structure Frame where
  slot : DWord
  count : Nat
  wbase : Nat
  spilled : List Nat := []
  deriving DecidableEq, Repr

/-- What a homeward shuttle reports (14 R286, R288). -/
structure HomeWhy where
  recalled : Bool := false
  fault : Option FaultRec := none
  ended : Bool := false
  exited : Bool := false
  deriving DecidableEq, Repr

/-- What a fibre away from home carries (14_shuttles.md R286, Table 14-1). -/
structure Guest where
  origin : Nat
  homeSlot : Nat
  lane : Nat
  hops : Nat
  taskid : Word
  launch : Nat
  seq : Word
  gtag : Nat
  prio : Nat
  gfl : OpFlags
  migset : DWord
  deriving DecidableEq, Repr

/-- A fibre in its lane (01_machine.md Table 1-7). General registers are held by physical number of the lane slot. -/
structure Lane where
  state : LaneState := .empty
  park : Park := .none
  pc : DWord := 0
  pw : BitVec 16 := 1
  regs : PMap Word := []
  poison : PMap Bool := []
  sp : DWord := 0
  lk : DWord := 0
  wbase : Nat := 0
  workid : DWord := 0
  safecnt : Nat := 0
  live : BitVec 16 := 0xFFFF
  fseq : Word := 0
  record : Option FaultRec := none
  wake : Nat := 0
  /-- Hints held, oldest first, with the address of the first (R58). -/
  hints : List Hint := []
  hpc : DWord := 0
  /-- A batch that may not merge has a tag of its own; 0: none. -/
  tag : Nat := 0
  /-- The parked instruction has been counted and debited already (log 1). -/
  counted : Bool := false
  /-- The lane's last departure came back refused: the instruction is performed here (14 R289). -/
  bounced : Bool := false
  /-- The results that an S park of the lane awaits, in force or owed once the present wait ends: those of the lanes of a mask
  with an identity below a bound (R52). -/
  owed : List (Word × Nat) := []
  frames : List Frame := []
  age : Nat := 0
  defer : Nat := 0
  seq : Word := 0
  guest : Option Guest := none
  /-- A guest's homeward departure that waits for its core's commit: the PC it carries, and why it leaves (R285). -/
  homeDue : Option (DWord × HomeWhy) := none
  deriving DecidableEq, Repr

/-! ## Warps -/

/-- One destination of a pending class-D result (03 R52, R53). General registers are physical. -/
inductive Eff where
  | g (lane reg : Nat) (v : Word)
  | p (lane k : Nat) (v : Bool)
  | s (r : Nat) (v : Word)
  | m (k : Nat) (v : Word)
  | shape (n : Nat) (v : BitVec 512)
  | shapeField (n lo len : Nat) (v : Nat)
  deriving DecidableEq, Repr

/-- A pending class-D result of a warp: its destinations, the lanes whose S park it holds, the flags that it ORs into
OPF when it is written (07 R141), the accumulator hold that it waits for (11 R242), the engine operation whose completion it is (R238). -/
structure PRes where
  id : Nat
  lanes : Word
  effs : List Eff
  flags : OpFlags := 0
  /-- ACCRD: lane, physical destination and entry, read when the hold is granted. -/
  acc : List (Nat × Nat × Nat) := []
  hold : Option Nat := none
  op : Option Nat := none
  /-- The result of a load, an atomic or a residency test (15 R317). -/
  mem : Bool := false
  deriving DecidableEq, Repr

/-- What a stream waits for (13 R276 to R278). -/
inductive StreamPark where
  | none | results | cwait (addr target : Nat) | cwaitMet (err : Bool) | lbarv (group gen : Nat) | retry
  deriving DecidableEq, Repr

/-- An engine stream (13 R276, R277; 03 R64). -/
structure Stream where
  base : DWord
  count : Nat
  idx : Nat := 0
  s : PMap Word
  hints : List Hint := []
  pend : List Nat := []
  park : StreamPark := .none
  counted : Bool := false
  leader : Nat
  ended : Bool := false
  status : Word := 0
  deriving DecidableEq, Repr

/-- A warp: a home warp of a group, or a guest warp (01 Table 1-7, 14 R289). -/
structure Warp where
  isGuest : Bool := false
  launch : Nat
  group : Nat := 0
  index : Nat := 0
  nreg : Nat := 16
  s : PMap Word := []
  m : PMap Word := []
  migset : DWord := 0
  stkbase : DWord := 0
  stklim : Word := 0
  stage : Nat := 0
  lanes : PMap Lane := []
  pend : List PRes := []
  stream : Option Stream := none
  /-- A handler post was made since the last TRET (17 R344); the TIME from which a refused one is retried (R345). -/
  posted : Bool := false
  retryAt : Option Nat := none
  /-- The reason and the mask of the post to retry (R344). -/
  retryWhy : Nat × Nat := (0, 0)
  waited : Nat := 0
  lastIssue : Nat := 0
  deriving DecidableEq, Repr

/-! ## Contexts, groups and banks -/

/-- A context: one task on one core (07 R131, Table 7-6). -/
structure Ctx where
  sh : PMap (BitVec 512) := []
  taskid : Word := 0
  prio : Nat := 0
  persistOff : Bool := false
  faultq : DWord := 0
  opf : OpFlags := 0
  accsat : BitVec 2 := 0
  dlrem : DWord := 0
  ebudget : Word := 0
  ebrate : Word := 0
  ebmax : Int := 0
  part : Nat := 0
  /-- The sign of EBUDGET last reported to the hosts of guests (15 R316). -/
  reported : Bool := true
  /-- Multiples of 1,000 ns that TIME has passed and whose refill comes next (15 R315). -/
  refills : Nat := 0
  deriving DecidableEq, Repr

/-- A stage queue (13 R272): its slots lie in the scratch run. -/
structure Queue where
  base : Nat
  depth : Nat
  head : Nat := 0
  tail : Nat := 0
  occ : Nat := 0
  deriving DecidableEq, Repr

/-- A resident group (01 R22, 13 R268). -/
structure Group where
  launch : Nat
  coords : List Nat
  number : Nat
  warps : List Nat
  scratchBank : Nat := 0
  scratchLen : Nat := 0
  span : Nat := 1
  queues : PMap Queue := []
  preempt : Bool := false
  /-- Its save slot could not be written: it runs on, and is not chosen again (17 R347). -/
  kept : Bool := false
  /-- A saved group's compute banks held here (17 R349). -/
  lazyOf : Option Nat := none
  deriving DecidableEq, Repr

/-- What a bank keeps beside its bits and entries (11 R222, Table 11-3; 15 R302). -/
structure Bank where
  owner : Option Nat := none
  compute : Bool := false
  clearing : Bool := false
  scale : PMap Byte := []
  check : PMap Nat := []
  fmt : Nat := 0
  planes : Nat := 0
  fails : Nat := 0
  chkerr : Bool := false
  live : PMap Bool := []
  /-- Banks left behind by a group move forward to this core (14 R296). -/
  forward : Option Nat := none
  /-- The bank's last allocation or mode switch: a copy that reads the bank fails when it changes (10 R216). -/
  stamp : Nat := 0
  deriving DecidableEq, Repr

/-- A trace entry (15 R320, Table 15-11): kind, guest, warp, lane, TIME[35:4] and the 80 bits of LOC. -/
structure TraceEntry where
  ts : Nat
  kind : Nat
  guest : Bool
  warp : Nat
  lane : Nat
  loc : Nat
  deriving DecidableEq, Repr

/-- A shuttle (14 R286, Table 14-1) with where it stands. -/
structure Shuttle where
  id : Nat
  fromCore : Nat
  fromSlot : Nat
  fromLane : Nat
  target : Nat
  pc : DWord
  sp : DWord
  pw : BitVec 16
  safecnt : Nat
  workid : DWord
  g : Guest
  homeward : Bool := false
  recalled : Bool := false
  fault : Bool := false
  ended : Bool := false
  exited : Bool := false
  fcode : Nat := 0
  faddr : DWord := 0
  frec : Option FaultRec := none
  regs : PMap Word := []
  /-- How the departing access acts when it is refused (R287): 0 .mg, 1 .mgq, 2 MIGTO. -/
  mode : Nat := 0
  /-- TIME of arrival in a queue, once there (R289). -/
  queuedAt : Nat := 0
  /-- It has reached the receiver, which has not committed its arrival yet (R295). -/
  settled : Bool := false
  /-- Its departure was refused after it left a guest warp: it waits for a place on the core that it came from (R289). -/
  returned : Bool := false
  deriving DecidableEq, Repr

/-- The shadowed state of a core (08 R167, Table 8-3). -/
structure CoreSt where
  warps : PMap Warp := []
  ctxs : PMap Ctx := []
  groups : PMap Group := []
  banks : PMap Bank := []
  scratch : Memory := []
  acc : PMap Word := []
  shuttles : List Shuttle := []
  trace : PMap TraceEntry := []
  traceCount : Nat := 0
  /-- TIME of the ring's latest entry. -/
  traceAt : Nat := 0
  migfallback : DWord := 0
  /-- Departures already received: home core and slot, lane, group tag, SEQ (14 R295). -/
  seen : List (Nat × Nat × Nat × Word) := []
  /-- Scratchpad rows written since the last commit, each once (08 R171). -/
  rows : List Nat := []
  deriving DecidableEq, Repr

/-! ## Cores -/

/-- Power states of a core (16_tables.md R335). -/
inductive Power where
  | active | coreGated | motifGated
  deriving DecidableEq, Repr

/-- A store that waits in the egress buffer (09 R190): physical target and bytes, or a nibble merge. -/
inductive EgressKind where
  /-- Bytes to a physical address (local HBM or a peer window). -/
  | phys (pa : Nat) (bytes : List Byte)
  /-- WRITTEN bytes of a line. -/
  | line (bytes : PMap Byte)
  /-- A nibble of a byte of global memory (R179). -/
  | nibble (pa : Nat) (hi : Bool) (v : Nat)
  /-- A remote scratchpad store, and its nibble form. -/
  | scratch (core off : Nat) (bytes : List Byte)
  | scratchNib (core off : Nat) (hi : Bool) (v : Nat)
  /-- A line of zeros (10 R210). -/
  | zero (pa : Nat)
  deriving DecidableEq, Repr

structure Egress where
  kind : EgressKind
  comp : Bool := false
  vaddr : Nat := 0
  since : Nat := 0
  part : Nat := 0
  /-- The core, and for a scratchpad store the task and, through LOCALBASE, the group that its bank must belong to (08 R149). -/
  core : Nat := 0
  launch : Nat := 0
  own : Option Nat := none
  /-- A release pushed it out: it leaves before the core does anything else that another agent can see (10 R207). -/
  release : Bool := false
  /-- The next fresh identity when it reached its target: engines of lower identity were issued before (09 R187). -/
  arrived : Nat := 0
  /-- A write of an agent that is no core: a host, a peer or the device's own (12 R251). -/
  outside : Bool := false
  deriving DecidableEq, Repr

/-- An intent that a commit holds (08 R169, Table 8-6): an atomic with its physical destinations and the notice that its
loss would give, an engine operation, or a channel's walk with the word that starts it (10 R221). -/
inductive Intent where
  | atomic (slot lane : Nat) (dests : List Nat) (notice : FaultRec)
  | engine (op : Nat)
  | chain (ch head : Nat) (word : Word)
  deriving DecidableEq, Repr

/-- A committed epoch of a journal (08 R168 to R170), held as the state it leaves (log 16): the shadowed state, the
dirty bytes of the L1, the cause of Table 8-7, TIME, and the intents whose results come after it. -/
structure Epoch where
  snap : CoreSt := {}
  dirty : PMap Byte := []
  cause : Nat := 0
  time : Nat := 0
  /-- The epoch's number (08 Tables 8-5 and 8-6). -/
  seq : Nat := 0
  intact : Bool := true
  intents : List Intent := []
  /-- The stores that waited in the egress buffer at the commit and have not left since, and the next fresh identity. -/
  egress : List Egress := []
  fresh : Nat := 0
  /-- The virtual line by which each dirty line was written (Table 8-6, KIND 0x07). -/
  lines : PMap Nat := []
  /-- The commands of its engine intents as they were captured: counter address, word, shapes (KIND 0x0A). -/
  commands : List (Nat × Nat × Word × List (BitVec 512)) := []
  /-- The results of atomics that came back in it: their targets and values (KIND 0x09). -/
  results : List (Nat × List Byte) := []
  /-- The counter of free values at the commit: bytes of its records whose layout the spec leaves open are fixed by it. -/
  free : Nat := 0
  /-- The state that the epoch before it left, and the journal buffer that holds it (R168, R170). -/
  prior : CoreSt := {}
  buf : Nat := 0
  deriving DecidableEq, Repr

/-- A loss of power that falls inside an atomic, after its commit and before its request (20_programs_memory_power.md R392): none, one
that waits for the next atomic, and one that is due. -/
inductive Cut where
  | none | armed | due
  deriving DecidableEq, Repr

/-- What holds a bank or an accumulator entry (11 R228). -/
structure Hold where
  id : Nat
  banks : List Nat
  /-- Accumulator entries held: first and count by run. -/
  entries : List (Nat × Nat)
  excl : Bool
  /-- Entries are held exclusively although the banks are shared (MLOOP). -/
  exclEntries : Bool
  /-- The engine operation, or none for a pending ACCRD. -/
  op : Option Nat
  granted : Bool := false
  deriving DecidableEq, Repr

structure Core where
  st : CoreSt := {}
  hazchk : Bool := false
  cycf : DWord := 0
  issu : DWord := 0
  mstl : DWord := 0
  lbsy : DWord := 0
  evc : PMap DWord := []
  evsel : PMap Word := []
  power : Power := .coreGated
  gateReq : Bool := false
  stopped : Bool := false
  resuming : Bool := false
  restoring : List Nat := []
  /-- WRITTEN bytes and SHARED copies of the L1 by physical address (08 R156; log 6), lines of zeros included. -/
  l1w : PMap Byte := []
  l1s : PMap Byte := []
  icache : PMap Word := []
  egress : List Egress := []
  holds : List Hold := []
  /-- The images of Table 8-4, and the committed epochs not yet applied to them, oldest first. -/
  image : Epoch := {}
  epochs : List Epoch := []
  /-- A debug window write waits for resume (18 R368). -/
  debugWrites : List (Nat × Byte) := []
  /-- The home contexts that last reported EBUDGET at 0 or less: (home core, launch) (15 R316). -/
  guestStalls : List (Nat × Nat) := []
  issues : Nat := 0
  /-- The current journal buffer is full and the other's epochs are not applied yet: the core issues nothing (08 R170). -/
  journalFull : Bool := false
  /-- The virtual line by which each line of the L1 was last written. -/
  l1va : PMap Nat := []
  /-- Atomics whose old value has come back since the last commit: target and value (KIND 0x09). -/
  returned : List (Nat × List Byte) := []
  /-- The current journal buffer, and the epochs whose records the two buffers hold, oldest first. -/
  journalBuf : Nat := 0
  journals : List Epoch := []
  cut : Cut := .none
  deriving DecidableEq, Repr

/-! ## Motifs -/

/-- A leaf translation that a motif TLB holds (16 R322, R324). -/
structure Tlb where
  asid : Nat
  level : Nat
  vpage : Nat
  leaf : Nat
  deriving DecidableEq, Repr

/-- A power step in progress (18 R360, Table 18-1). -/
structure PowerStep where
  isRatio : Bool
  target : Nat
  phase : Nat
  ends : Nat
  deriving DecidableEq, Repr

/-- A power-log entry (18 R365). -/
structure PowerLog where
  time : Nat
  kind : Nat
  before : Nat
  after : Nat
  passcnt : Nat
  lratio : Nat
  window : Nat
  deriving DecidableEq, Repr

/-- The classes of a sensitivity window (18 R362, Table 18-2). -/
inductive WinClass where
  | idle | mem | lane | front | balanced
  deriving DecidableEq, Repr

structure Motif where
  passcnt : Nat := 0
  lratio : Nat := 1
  opl : Nat := 1
  thc : Nat := 0
  chc : Nat := 0
  cuc : Nat := 0
  quiet : Nat := 0
  cucQuiet : Nat := 0
  cool : Nat := 0
  alarm : Bool := false
  winClass : WinClass := .idle
  winRun : Nat := 0
  winBase : List DWord := []
  /-- TIME of the last window and the last interval. -/
  lastWin : Nat := 0
  lastIval : Nat := 0
  request : Option WinClass := none
  checkReqs : Nat := 0
  step : Option PowerStep := none
  log : PMap PowerLog := []
  logCount : Nat := 0
  /-- Cycles of the lane domain since the last window, in units of 5 ps of a 1 GHz clock, up to the TIME in `laneSince` (18 R362). -/
  laneWork : Nat := 0
  laneSince : Nat := 0
  tlb : List Tlb := []
  powered : Bool := true
  loaded : Bool := true
  /-- Pages for which a pager post was made while something waits on them (08 R160, 06 R122). -/
  paged : List Nat := []
  deriving DecidableEq, Repr

/-! ## Partitions, launches and mailboxes -/

/-- A binding (13 R263, 16 R329, Table 16-6). -/
structure Bind where
  window : Nat
  header : Nat
  size : Nat
  depth : Nat
  queued : Nat := 0
  seq : Word := 0
  refused : Nat := 0
  deriving DecidableEq, Repr

/-- Lacing group state with the tickets of the cores (15 R307, Table 15-5). -/
structure Lacing where
  gen : Nat := 0
  mask : Nat := 0
  next : Nat := 0
  arrived : Nat := 0
  early : Nat := 0
  tickets : PMap Nat := []
  deriving DecidableEq, Repr

/-- A partition-table entry and the other state of a partition (16 Table 16-9, Tables 16-3 to 16-5; 18 Table 18-4). -/
structure Part where
  state : Nat := 0
  cores : Nat := 0
  master : Nat := 7
  asid : Nat := 0
  root : Nat := 0
  pgmbx : DWord := 0
  budget : Nat := 0
  chgrant : Nat := 0
  peerpost : Nat := 0
  peerwin : Nat := 0
  dumpbase : Nat := 0
  dumpsize : Nat := 0
  dumpused : Nat := 0
  tenant : Word := 0
  debug : Nat := 0
  binds : PMap Bind := []
  lacing : PMap Lacing := []
  shootva : DWord := 0
  shootlen : DWord := 0
  shootBusy : Bool := false
  shootDone : Nat := 0
  shootLost : Bool := false
  shootErr : Bool := false
  /-- What the shootdown in progress waits for: engine operations, channel walks, and egress entries up to a TIME. -/
  shootOps : List Nat := []
  shootChans : List Nat := []
  shootAt : Nat := 0
  /-- The range with which the shootdown in progress started, in bytes. -/
  shootSpan : Nat × Nat := (0, 0)
  apbase : DWord := 0
  aperr : Nat := 0
  /-- Messages that a freed binding has discarded with their launches (13 R275). -/
  discarded : Nat := 0
  tokenExpiry : Option Nat := none
  tenantKey : List Byte := []
  tenantKek : List Byte := []
  /-- Handler and completion vectors raised to the host (18 R366). -/
  msix : Nat := 0
  /-- A dump that waits to be written: cause, fault code, TASKID, launch (17 R346, R353). -/
  dumpReq : Option (Nat × Nat × Word × Nat) := none
  deriving DecidableEq, Repr

/-- A task header as read (13 Table 13-1). -/
structure Header where
  bytes : List Byte
  deriving DecidableEq, Repr

/-- Life of a launch (13 R266, Table 13-2). -/
inductive LaunchState where
  | header | waitdep | ordered | placed | releasing | done | refused
  deriving DecidableEq, Repr

/-- A launch: one accepted message (13 R266, R269). -/
structure Launch where
  part : Nat
  state : LaunchState := .header
  header : Header
  images : List (BitVec 512)
  message : List Byte
  window : Nat
  seq : Word
  time : Nat
  next : Nat := 0
  ended : Nat := 0
  /-- The motif of each family of the header's locality level that has a placed group: the coordinates that it shares (01 R23). -/
  families : List (List Nat × Nat) := []
  /-- Groups to be placed again after a core lost their set-up (13 R268). -/
  replace : List Nat := []
  failed : Bool := false
  /-- Its binding has been freed since (13 R275). -/
  unbound : Bool := false
  deriving DecidableEq, Repr

/-- A pre-empted group away from its core, its image being in its save slot (17 R347 to R349). -/
structure Saved where
  launch : Nat
  number : Nat
  core : Nat
  gid : Nat
  ctx : Ctx
  group : Group
  warps : PMap Warp
  /-- Banks, scratchpad bytes and accumulator entries by their numbers, those of core `t` of the span set after those of
  64 `t` banks. -/
  banks : PMap Bank
  scratch : Memory
  acc : PMap Word
  /-- Compute banks still on the core. -/
  lazyBanks : List Nat
  deriving DecidableEq, Repr

/-! ## Engines -/

/-- What an engine operation does (10 R213, 11 R230, 12_stacks.md R245, 13 R281). -/
inductive EngKind where
  | acpy | acpym (mask : Nat) | afill (pattern : Nat) | agthr
  | accst (clr : Bool)
  | mloop (count : Nat) (clr sat spanned flex : Bool)
  | bchk (mask : Nat) | bfree (first count : Nat) | bmode (first count : Nat) (compute : Bool)
  | accld (off first count : Nat) | accclr (first count : Nat)
  | rcopy | rfill (one : Bool) | rbit (op : Nat)
  | nmx (prog : List Nat) (k1 k2 : Word) (useC : Bool)
  | nseg (mode : Nat) (fast : Bool)
  | channel (ch src dst len rec ctr : Nat)
  deriving DecidableEq, Repr

/-- An engine operation in flight, with what it captured at issue (07 R135; 10 R214). -/
structure Engine where
  id : Nat
  kind : EngKind
  core : Nat
  slot : Nat
  gid : Nat
  launch : Nat
  part : Nat
  stream : Bool := false
  members : Word := 0
  leader : Nat := 0
  /-- Captured shapes: destination, source, third operand, fourth operand. -/
  shapes : List (BitVec 512) := []
  ctr : Nat := 0
  bw : Bool := false
  span : Nat := 1
  /-- Elements performed so far: those below `next`, and those listed beyond it. -/
  next : Nat := 0
  done : List Nat := []
  total : Nat := 0
  count : Nat := 0
  hold : Option Nat := none
  path : Nat := 0
  pathSeg : List Nat := []
  /-- The first status code met and its INFO; completion still adds for codes 4 and 6. -/
  status : Nat := 0
  info : Nat := 0
  /-- The address of the first hint, of the word itself, and the word. -/
  pc : DWord := 0
  ipc : DWord := 0
  word : Word := 0
  batch : Word := 0
  /-- Accumulator entries before a loop, for a roll-back (11 R244). -/
  before : PMap Word := []
  /-- The source bytes read so far, by their number (`EByte.key`): a sector is read once (09 R188). Accumulator entries read. -/
  seen : PMap Byte := []
  read : PMap Word := []
  /-- The translations of the pages reached so far, by page number and whether for a write: an engine translates a page when it first
  reaches it (16_tables.md R328). -/
  pages : PMap Nat := []
  /-- The destination's lowest and highest virtual address, for a destination in memory (09 R187). -/
  dlo : Nat := 1
  dhi : Nat := 0
  /-- The same for the scales that the operation writes. -/
  slo : Nat := 1
  shi : Nat := 0
  /-- The scratchpad banks read: core, bank, its stamp at issue, and the window address of the source (10 R216). -/
  stamps : List (Nat × Nat × Nat × Nat) := []
  /-- Of the segment that a row operation runs: the path chosen at its start, and the lines written so far (12_stacks.md R248). -/
  segPath : Option Bool := none
  lines : List Nat := []
  deriving DecidableEq, Repr

/-- A package copy channel (13 R279, R281). -/
structure Channel where
  head : DWord := 0
  busy : Bool := false
  code : Nat := 0
  lost : Bool := false
  /-- Engine operations of the chain not yet completed, in chain order. -/
  ops : List Nat := []
  /-- The partition for which the channel walks, until it loses the grant (R281). -/
  part : Option Nat := none
  /-- The record at HEAD, read once, while it waits for the copies before it (R281). -/
  record : List Byte := []
  deriving DecidableEq, Repr

/-! ## The module -/

/-- Security states (16 R335). -/
inductive Security where
  | manufacture | secured | tenant | retired
  deriving DecidableEq, Repr

/-- The command registers that each master has of its own (18 Table 18-4). -/
structure MasterRegs where
  link : Bool := false
  ownbuf : PMap Byte := []
  ownstat : Nat := 0
  owncmd : List Byte := []
  dbgsel : Word := 0
  nonce : Option (List Byte) := none
  /-- Bytes of OWNBUF that are the argument of the command in progress (16 R338). -/
  arglen : Nat := 16384
  /-- The last value that a read or command of this master returned. -/
  answer : List Byte := []
  /-- TIME at which the link went down. -/
  downAt : Nat := 0
  deriving DecidableEq, Repr

/-- A peer port (18 R369, Table 18-4): the writes it has sent and not had acknowledged. -/
structure Peer where
  part : Nat := 0xFF
  vbase : DWord := 0
  up : Bool := false
  sent : List (Nat × Byte) := []
  answer : List Byte := []
  deriving DecidableEq, Repr

/-- The instruction in progress: the batch that issues it (06 R111, R113), or the stream word (13 R276). -/
structure Issue where
  core : Nat := 0
  slot : Nat := 0
  lanes : Word := 0
  pc : DWord := 0
  word : Word := 0
  stream : Bool := false
  /-- The hints that precede it and the address of the first, else its own (R58). -/
  hints : List Hint := []
  hpc : DWord := 0
  /-- Counted and debited at an earlier attempt. -/
  counted : Bool := false
  /-- The counter for which it parked has met its wait, in error or not (15 R301). -/
  met : Option Bool := none
  deriving DecidableEq, Repr

/-- What the module does by itself, unasked (log 1): each is an event of the table, named by what it acts on. -/
inductive Own where
  | result (core slot res : Nat)
  | parks (core slot : Nat)
  | cwait (core slot tag : Nat)
  | queue (core slot tag : Nat)
  | lacing (core group : Nat)
  | page (core slot : Nat)
  | stream (core slot : Nat)
  | handler (core slot : Nat)
  | stage (core slot : Nat)
  | save (core group : Nat)
  | groupEnd (core group : Nat)
  | deadline (core launch : Nat)
  | hold (core hold : Nat)
  | clear (core bank : Nat)
  | reload (core bank : Nat)
  | drain (core : Nat)
  | apply (core : Nat)
  | guest (core : Nat)
  | bounce (core gtag : Nat)
  | gate (core : Nat)
  | resume (core : Nat)
  | restore (motif : Nat)
  | segment (op : Nat)
  | copyEnd (op : Nat)
  | copyFail (op : Nat)
  | loopEnd (op : Nat)
  | checkEnd (op : Nat)
  | bankEnd (op : Nat)
  | stackEnd (op : Nat)
  | chanEnd (op : Nat)
  | channel (ch : Nat)
  | arrive (gtag : Nat)
  | home (shuttle : Nat)
  | resend (shuttle : Nat)
  | debit
  | report
  | launch (id : Nat)
  | place (part : Nat)
  | dump (part : Nat)
  | shoot (part : Nat)
  | token (part : Nat)
  | phase (motif : Nat)
  | window (motif : Nat)
  deriving DecidableEq, Repr

/-- What is written at firmware level (00 R9): a register of Table 7-6 by its number, of a core, a warp slot and a lane; a partition's
shootdown registers (16 R327); an entry of ECOST (16 R330). -/
inductive FwReg where
  | csr (core slot lane num : Nat)
  | shootva (part : Nat)
  | shootlen (part : Nat)
  | shootcmd (part : Nat)
  | shootstat (part : Nat)
  | ecost (cls : Nat)
  deriving DecidableEq, Repr

/-- One turn of the schedule and of the outside world (log 1). -/
inductive Turn where
  /-- The module does something by itself. -/
  | own (o : Own)
  /-- A scheduler issues the batch that R271 and R112 select. -/
  | select (core sched : Nat)
  /-- An event or a command of the table. -/
  | act (i : Instr)
  /-- An engine performs one element of its work. -/
  | engine (op elem : Nat)
  /-- A cache fills or evicts a sector or a line (08 R156, R161; log 6). -/
  | fill (core pa : Nat) (bytes : Nat)
  | evict (core pa : Nat)
  | evictL2 (pa : Nat)
  /-- A dirty line of a slice is written to the L2 shadow (08 R162). -/
  | mirror (line : Nat)
  /-- An instruction cache fills or drops a fetch block (08 R159); a motif TLB fills or drops a leaf (16 R324; log 7). -/
  | ifill (core : Nat) (va : Nat)
  | idrop (core : Nat) (va : Nat)
  | tlbFill (core va : Nat)
  | tlbDrop (motif index : Nat)
  /-- A soft error flips a bit of a bank, or gives a line a reserved tag (11 R225, 12 R253). -/
  | softError (core bank row col : Nat)
  | softTag (line tag : Nat)
  /-- A commit is torn: its epoch never becomes durable (08 R170). -/
  | tear (core : Nat)
  /-- The core loses power inside its next atomic, between the commit of the intent and the request (20 R392). -/
  | cut (core : Nat)
  /-- The journal's buffer cannot hold the next record (08 R169). -/
  | journalFull (core : Nat)
  /-- A peer acknowledges the writes sent so far (10 R207). -/
  | peerAck (port : Nat)
  /-- Firmware, the power controller or the debug agent writes a register at firmware level (00 R9; 07 R140). -/
  | firmware (r : FwReg) (v : DWord)
  /-- TIME passes. -/
  | pass (ns : Nat)
  deriving DecidableEq, Repr

/-- The whole module. -/
structure State where
  /-- The schedule and the inputs still to come (log 1). -/
  turns : List Turn := []
  /-- The instruction in progress. -/
  cur : Issue := {}
  /-- The free-value counter (log 2) and the identity counter of launches, groups, engines, holds, shuttles and tags. -/
  free : Nat := 0
  fresh : Nat := 1
  time : Nat := 0
  powered : Bool := true
  /-- DRAM contents by physical address, with the compression tags by line (12 R253; default 0x1). -/
  hbm : Memory := []
  tags : PMap Nat := []
  /-- L2 dirty bytes at their homes, the page attribute of their lines, and the mirror (08 R161, R162; log 6). -/
  l2 : PMap Byte := []
  l2comp : PMap Bool := []
  l2shadow : PMap Byte := []
  /-- Dirty lines that have not been mirrored since they were written last, each with its tag: the core, plus 1, whose published
  store made the line dirty; 0: another agent (08 R162). -/
  unmirrored : PMap Nat := []
  /-- The same tags of the lines in the mirror (08 R162). -/
  shadowTag : PMap Nat := []
  /-- Stores that have reached the home or the bank and wait there (09 R187, 11 R229, 08 R172), oldest first. -/
  held : List Egress := []
  /-- Catch-up queues of DRAM banks: commands waiting behind a refresh (12 R252). -/
  refresh : PMap (List Nat) := []
  cores : PMap Core := []
  motifs : PMap Motif := []
  parts : PMap Part := []
  launches : PMap Launch := []
  saved : PMap Saved := []
  engines : PMap Engine := []
  channels : PMap Channel := []
  /-- Device stores that have reached the last byte of a bound window, whose posts come next (13 R264): the poster's
  partition, the binding's partition, the window, and the window's bytes at that moment. -/
  postsDue : List (Nat × Nat × Nat × List Byte) := []
  /-- Shuttles that their senders keep: in transit, or received and not committed yet (14 R295). -/
  transit : List Shuttle := []
  /-- Forwarded debits: (home core, launch, units); reports of EBUDGET: (home core, launch, host core, positive) (15 R316). -/
  debits : List (Nat × Nat × Nat) := []
  reports : List (Nat × Nat × Nat × Bool) := []
  ecost : PMap Nat := []
  owner : Nat := 7
  masters : PMap MasterRegs := []
  peers : PMap Peer := []
  security : Security := .manufacture
  boot : Nat := 0
  leaf : Nat := 0
  ownerKey : List Byte := []
  ownerKek : List Byte := []
  /-- M0 to M3 (18 R372). -/
  meas : PMap (List Byte) := []
  /-- Firmware image slots: slot 2 d of die d is A, slot 2 d + 1 is B (18 R370). -/
  flash : PMap (List Byte) := []
  fuse : PMap Nat := []
  /-- The running firmware: released, security version (18 R370, R372). -/
  released : Bool := false
  recovery : Bool := false
  secver : Nat := 0
  /-- Configuration records in MRAM (18 R371), the serial, trace sampling and link configuration in use. -/
  cfgRecords : List (List Byte) := []
  serial : Nat := 0
  tracek : Nat := 0
  linkcfg : Nat := 0
  /-- Dump summaries in MRAM (17 R353). -/
  summaries : List (List Byte) := []
  deriving DecidableEq, Repr

/-- The machine right after module reset (08 R165, 16 R332, R333, 18 R363; log 13 for what the spec gives no reset
value): memories zero, caches empty, every partition FREE, every core gated, TIME 0, OWNER none. -/
def State.reset : State := {}

end Sys2Proof.Machine
end

