-- ==== Sys2Proof/Machine/Map.lean ====
section
/-! DEFINITION. Finite maps, memory bytes, and the accessors of cores, warps, lanes and the other parts of State. -/

namespace Sys2Proof.Machine

/-! ## Maps by ascending key -/

def mfind {α : Type} : PMap α → Nat → Option α
  | [], _ => none
  | (k, v) :: m, i => if i = k then some v else mfind m i

def mget {α : Type} (m : PMap α) (i : Nat) (d : α) : α := (mfind m i).getD d

def mset {α : Type} : PMap α → Nat → α → PMap α
  | [], i, v => [(i, v)]
  | (k, w) :: m, i, v => if i = k then (k, v) :: m else if i < k then (i, v) :: (k, w) :: m else (k, w) :: mset m i v

def mdel {α : Type} (m : PMap α) (i : Nat) : PMap α := m.filter (fun x => x.1 != i)

def mmod {α : Type} (m : PMap α) (i : Nat) (f : α → α) : PMap α :=
  match mfind m i with
  | some v => mset m i (f v)
  | none => m

/-! ## Memory (R165: an unlisted byte is zero) -/

/-- One byte of a memory. -/
def memRead : Memory → Nat → Byte
  | [], _ => 0
  | (k, b) :: m, a => if a = k then b else if a < k then 0 else memRead m a

/-- A byte written; writing zero removes the entry. -/
def memWrite : Memory → Nat → Byte → Memory
  | [], a, b => if b = 0 then [] else [(a, b)]
  | (k, c) :: m, a, b =>
    if a = k then (if b = 0 then m else (k, b) :: m)
    else if a < k then (if b = 0 then (k, c) :: m else (a, b) :: (k, c) :: m)
    else (k, c) :: memWrite m a b

/-- Bytes written from an address upwards. -/
def memWrites (m : Memory) (a : Nat) : List Byte → Memory
  | [] => m
  | b :: bs => memWrites (memWrite m a b) (a + 1) bs

/-- `n` bytes from an address. -/
def memReads (m : Memory) (a n : Nat) : List Byte := (upFrom n a).map (memRead m)

/-- The canonical form: addresses strictly rising and no zero byte listed. -/
def memWfFrom : Option Nat → Memory → Bool
  | _, [] => true
  | lo, (k, b) :: m => (match lo with | none => true | some l => decide (l < k)) && b != 0 && memWfFrom (some k) m

def Memory.wf (m : Memory) : Bool := memWfFrom none m

/-! ## Parts of State -/

def State.core (s : State) (c : Nat) : Core := mget s.cores c {}
def State.setCore (s : State) (c : Nat) (x : Core) : State := { s with cores := mset s.cores c x }
def State.modCore (s : State) (c : Nat) (f : Core → Core) : State := s.setCore c (f (s.core c))
def State.modSt (s : State) (c : Nat) (f : CoreSt → CoreSt) : State := s.modCore c (fun k => { k with st := f k.st })
def State.motif (s : State) (m : Nat) : Motif := mget s.motifs m {}
def State.modMotif (s : State) (m : Nat) (f : Motif → Motif) : State := { s with motifs := mset s.motifs m (f (s.motif m)) }
def State.part (s : State) (p : Nat) : Part := mget s.parts p {}
def State.modPart (s : State) (p : Nat) (f : Part → Part) : State := { s with parts := mset s.parts p (f (s.part p)) }
def State.master (s : State) (m : Nat) : MasterRegs := mget s.masters m {}
def State.modMaster (s : State) (m : Nat) (f : MasterRegs → MasterRegs) : State :=
  { s with masters := mset s.masters m (f (s.master m)) }
def State.peer (s : State) (i : Nat) : Peer := mget s.peers i {}
def State.modPeer (s : State) (i : Nat) (f : Peer → Peer) : State := { s with peers := mset s.peers i (f (s.peer i)) }
def State.channel (s : State) (i : Nat) : Channel := mget s.channels i {}
def State.modChannel (s : State) (i : Nat) (f : Channel → Channel) : State :=
  { s with channels := mset s.channels i (f (s.channel i)) }
def State.modEngine (s : State) (i : Nat) (f : Engine → Engine) : State := { s with engines := mmod s.engines i f }
def State.modLaunch (s : State) (i : Nat) (f : Launch → Launch) : State := { s with launches := mmod s.launches i f }

def State.warp? (s : State) (c slot : Nat) : Option Warp := mfind (s.core c).st.warps slot
def State.modWarp (s : State) (c slot : Nat) (f : Warp → Warp) : State :=
  s.modSt c (fun k => { k with warps := mmod k.warps slot f })
def Warp.lane (w : Warp) (l : Nat) : Lane := mget w.lanes l {}
def Warp.modLane (w : Warp) (l : Nat) (f : Lane → Lane) : Warp := { w with lanes := mset w.lanes l (f (w.lane l)) }
def State.modLane (s : State) (c slot l : Nat) (f : Lane → Lane) : State := s.modWarp c slot (fun w => w.modLane l f)
def CoreSt.ctx? (k : CoreSt) (launch : Nat) : Option Ctx := mfind k.ctxs launch
def State.modCtx (s : State) (c launch : Nat) (f : Ctx → Ctx) : State :=
  s.modSt c (fun k => { k with ctxs := mmod k.ctxs launch f })
def CoreSt.bank (k : CoreSt) (b : Nat) : Bank := mget k.banks b {}
def CoreSt.modBank (k : CoreSt) (b : Nat) (f : Bank → Bank) : CoreSt := { k with banks := mset k.banks b (f (k.bank b)) }
def State.modBank (s : State) (c b : Nat) (f : Bank → Bank) : State := s.modSt c (fun k => k.modBank b f)
def State.modGroup (s : State) (c g : Nat) (f : Group → Group) : State :=
  s.modSt c (fun k => { k with groups := mmod k.groups g f })

/-- A fresh identity number. -/
def State.takeFresh (s : State) : Nat × State := (s.fresh, { s with fresh := s.fresh + 1 })

/-- The ECOST entry of a class: the configuration record's, else Table 16-7 (16_tables.md R330). -/
def State.ecostOf (s : State) (c : Nat) : Nat :=
  mget s.ecost c ([1, 2, 3, 4, 6, 8, 12, 16, 24, 32, 48, 64, 96, 128, 192, 256].getD c 0)

/-- The compression tag of the line of an address (12_stacks.md R253; 0x1 at reset, R165). -/
def State.tagOf (s : State) (line : Nat) : Nat := mget s.tags line 1

/-- A measurement register (18 R372). -/
def State.measReg (s : State) (i : Nat) : List Byte := mget s.meas i (List.replicate 32 0)

/-- The partition that a core belongs to (16 R332). -/
def State.partOfCoreFrom (s : State) (c : Nat) : Nat → Option Nat
  | 0 => none
  | n + 1 => if bitOf (s.part n).cores c then some n else s.partOfCoreFrom c n
def State.partOfCore (s : State) (c : Nat) : Option Nat := s.partOfCoreFrom c 16

/-- The home context of a warp's task on a core, and the partition of the task. -/
def State.launchPart (s : State) (l : Nat) : Nat := match mfind s.launches l with | some x => x.part | none => 0

/-- A master that the module has: host endpoint 0, the board management controller, and endpoints 1 to 3 when the link is bifurcated
(16_tables.md R333, Table 16-10). -/
def State.hasMaster (s : State) (m : Nat) : Bool := m == 0 || m == 4 || (decide (m ≤ 3) && s.linkcfg == 1)

/-- A choice among a value and further candidates; with no further candidate it is the value (log 2, log 4). -/
def choose {α : Type} (n : Nat) (d : α) : List α → α
  | [] => d
  | cs => (d :: cs).getD (n % (cs.length + 1)) d

/-! ## The instruction in progress -/

/-- The fields of PC and LK: bits [56:2], the others being res0 (06_control_state.md Table 6-2, 04_fibre_registers.md
Table 4-3; 00_scope.md R8). -/
def rpc (v : DWord) : DWord := BitVec.ofNat 64 (bits v.toNat 2 55 * 4)

/-- The fields of SP and STKBASE: bits [56:4] (Tables 4-2 and 6-7), of STKLIM: [31:4] (Table 6-8). -/
def spField (v : DWord) : DWord := BitVec.ofNat 64 (bits v.toNat 4 53 * 16)
def stklimField (v : Word) : Word := BitVec.ofNat 32 (bits v.toNat 4 28 * 16)

/-- A field that holds a reserved value after a write is left as it was (00_scope.md R2). -/
def keepField (old v : Nat) (ok : Bool) : Nat := if ok then v else old

/-- What a register of Table 7-6 holds after a write at firmware level: its fields, with what is res0 dropped and a field that would
take a reserved value left as it was (00_scope.md R2, R8, R9; Tables 4-2 to 4-4, 6-7, 6-8, 7-7, 15-6 to 15-9, 17-3). -/
def fwField (base old v : Nat) : Nat :=
  if base = 0x008 then bits v 12 45 * 4096 + keepField (old % 16) (v % 16) (decide (v % 16 ≤ 12))
  else if base = 0x020 ∨ base = 0x034 then bits v 4 53 * 16
  else if base = 0x022 then bits v 2 55 * 4
  else if base = 0x024 then keepField old (v % 65536) (v % 4 == 0)
  else if base = 0x025 then keepField old (v % 4096) (decide (v % 4096 ≤ 2048))
  else if base = 0x031 then bits v 4 28 * 16
  else if base = 0x032 then keepField old (v % 2 ^ 64) (decide (popcount 64 v ≤ 16))
  else if base = 0x040 then v % 64
  else if base = 0x041 then v % 4
  else if base = 0x044 ∨ base = 0x045 then v % 2 ^ 32
  else if base = 0x060 ∨ base = 0x061 then keepField old (v % 4) (decide (v % 4 ≤ 2))
  else if base = 0x062 then v % 8
  else if base = 0x063 then v % 2
  else if 0x0C0 ≤ base then bits v 31 1 * 2 ^ 31 + keepField (old % 256) (v % 256) (decide (v % 256 < 0x0F))
  else v % 2 ^ 64

/-- The next sequential PC, and the one after `n` words. -/
def nextPc (pc : DWord) : DWord := rpc (pc + 4)
def pcAfter (pc : DWord) (n : Nat) : DWord := rpc (pc + BitVec.ofNat 64 (4 * n))

/-- A lane leaves a park: READY, and free to merge with its warp's other batches unless it holds hints (06 R111; 03 R58). -/
def Lane.released (x : Lane) : Lane :=
  { x with state := .ready, park := .none, tag := if x.hints.isEmpty then 0 else x.tag, owed := [] }

def State.curWarp (s : State) : Warp := (s.warp? s.cur.core s.cur.slot).getD { launch := 0 }
def State.curLane (s : State) (l : Nat) : Lane := s.curWarp.lane l
def State.modCurWarp (s : State) (f : Warp → Warp) : State := s.modWarp s.cur.core s.cur.slot f
def State.modCurLane (s : State) (l : Nat) (f : Lane → Lane) : State := s.modLane s.cur.core s.cur.slot l f
def State.curPart (s : State) : Nat := s.launchPart s.curWarp.launch

/-- The home core and launch whose context a lane's instruction acts for (15_counters.md R316). -/
def State.homeOf (s : State) (c slot l : Nat) : Nat × Nat :=
  match s.warp? c slot with
  | none => (c, 0)
  | some w => match (w.lane l).guest with
    | some g => (g.origin, g.launch)
    | none => (c, w.launch)

/-! ## Registers (04_fibre_registers.md R69 to R74) -/

/-- Pending values of a physical register of a lane. -/
def pendG (ps : List PRes) (l phys : Nat) : List Word :=
  ps.flatMap (fun p => p.effs.filterMap (fun e => match e with
    | .g l' r v => if l' = l ∧ r = phys then some v else none
    | _ => none))

/-- Whether a physical register of a lane has a pending write, ACCRD's included. -/
def isPendG (ps : List PRes) (l phys : Nat) : Bool :=
  !(pendG ps l phys).isEmpty || ps.any (fun p => p.acc.any (fun a => a.1 == l && a.2.1 == phys))

def pendP (ps : List PRes) (l k : Nat) : List Bool :=
  ps.flatMap (fun p => p.effs.filterMap (fun e => match e with
    | .p l' r v => if l' = l ∧ r = k then some v else none
    | _ => none))

def pendS (ps : List PRes) (r : Nat) : List Word :=
  ps.flatMap (fun p => p.effs.filterMap (fun e => match e with
    | .s r' v => if r' = r then some v else none
    | _ => none))

def pendM (ps : List PRes) (k : Nat) : List Word :=
  ps.flatMap (fun p => p.effs.filterMap (fun e => match e with
    | .m k' v => if k' = k then some v else none
    | _ => none))

/-- A read of g_i of a lane: zero for g0; a pending register gives the old or a pending value (R54, log 4). The reads that one
instruction makes for its operands have numbers, since each may find the register before or after the write. -/
def readG (fr : Nat) (w : Warp) (l i : Nat) (read : Nat := 0) : Word :=
  if i = 0 then 0
  else choose (Config.free fr (1000000 * read + l * 256 + i)) (mget (w.lane l).regs ((w.lane l).wbase + i) 0)
    (pendG w.pend l ((w.lane l).wbase + i))

/-- A read of p_k of a lane. -/
def readP (fr : Nat) (w : Warp) (l k : Nat) (read : Nat := 0) : Bool :=
  if k = 0 then true
  else choose (Config.free fr (1000000 * read + l * 256 + 128 + k)) ((w.lane l).pw.getLsbD k) (pendP w.pend l k)

/-- A read of s_r of the warp. -/
def readS (fr : Nat) (w : Warp) (r : Nat) (read : Nat := 0) : Word :=
  choose (Config.free fr (1000000 * read + 8192 + r)) (mget w.s r 0) (pendS w.pend r)

/-- The whole predicate word of a lane, p0 read as true. -/
def readPW (fr : Nat) (w : Warp) (l : Nat) (read : Nat := 0) : Nat :=
  (upFrom 16 0).foldl (fun a k => a + (if readP fr w l k read then 2 ^ k else 0)) 0

/-- Drops the pending writes that a later write of the same register supersedes (R54). -/
def dropEffs (keep : Eff → Bool) (ps : List PRes) : List PRes := ps.map (fun p => { p with effs := p.effs.filter keep })

def notG (l phys : Nat) : Eff → Bool
  | .g l' r _ => !(l' == l && r == phys)
  | _ => true
def notP (l k : Nat) : Eff → Bool
  | .p l' r _ => !(l' == l && r == k)
  | _ => true
def notS (r : Nat) : Eff → Bool
  | .s r' _ => r' != r
  | _ => true
def notM (k : Nat) : Eff → Bool
  | .m k' _ => k' != k
  | _ => true

/-- A class-Z write of g_i: discarded for g0; otherwise it clears the poison mark and supersedes pending writes. -/
def Warp.writeG (w : Warp) (l i : Nat) (v : Word) : Warp :=
  if i = 0 then w
  else
    let phys := (w.lane l).wbase + i
    let w := w.modLane l (fun x => { x with regs := mset x.regs phys v, poison := mdel x.poison phys })
    { w with pend := (dropEffs (notG l phys) w.pend).map (fun p =>
        { p with acc := p.acc.filter (fun a => !(a.1 == l && a.2.1 == phys)) }) }

/-- A class-Z write of p_k; a write to p0 is discarded (R70). -/
def Warp.writeP (w : Warp) (l k : Nat) (v : Bool) : Warp :=
  if k = 0 then w
  else
    let w := w.modLane l (fun x => { x with pw := if v then x.pw ||| BitVec.ofNat 16 (2 ^ k) else x.pw &&& ~~~(BitVec.ofNat 16 (2 ^ k)) })
    { w with pend := dropEffs (notP l k) w.pend }

def Warp.writeS (w : Warp) (r : Nat) (v : Word) : Warp :=
  { w with s := mset w.s r v, pend := dropEffs (notS r) w.pend }

def Warp.writeM (w : Warp) (k : Nat) (v : Word) : Warp :=
  { w with m := mset w.m k v, pend := dropEffs (notM k) w.pend }

def Warp.mask (w : Warp) (k : Nat) : Word := mget w.m k 0

/-- The register window of a warp: g0 to g(min(NREG, 64) - 1) (R69). -/
def Warp.window (w : Warp) : Nat := min w.nreg 64

/-- The core to which accesses to a bank go: the bank itself, or where a move has taken it (14_shuttles.md R296). -/
def bankHome (s : State) (core b : Nat) : Nat := (((s.core core).st.bank b).forward).getD core

end Sys2Proof.Machine
end

