-- ==== Sys2Proof/Machine/Mem.lean ====
section
/-! DEFINITION. Addresses and memories: regions (08_memories.md R147, R148), physical targets and homes (R153 to R155),
page tables (16_tables.md R321 to R324), the view of a core (09_consistency.md R176, R180, R190; log 6), line
compression (12_stacks.md R253 to R255). -/

namespace Sys2Proof.Machine

/-! ## Regions (Table 8-1) -/

def scratchBase : Nat := 0x01FFFF0000000000
def localBase : Nat := 0x01FFFF0100000000
def scratchSize : Nat := 8388608

/-- What a virtual address names. -/
inductive Region where
  | global
  | scratch (core off : Nat)
  | localWin (off : Nat)
  | invalid
  deriving DecidableEq, Repr

def regionOf (va : Nat) : Region :=
  if va < scratchBase then .global
  else if va < localBase then
    if (va - scratchBase) % 0x1000000 < scratchSize then .scratch ((va - scratchBase) / 0x1000000) ((va - scratchBase) % 0x1000000)
    else .invalid
  else if va < localBase + scratchSize then .localWin (va - localBase)
  else .invalid

/-- The target of a physical address (Table 8-2). -/
inductive PaTarget where
  | hbm
  | peer (port off : Nat)
  | reserved
  deriving DecidableEq, Repr

def paTarget (pa : Nat) : PaTarget :=
  let hi := bits pa 48 4
  if hi = 0 then (if bits pa 39 9 = 0 then .hbm else .reserved)
  else if hi ≤ 8 then (if bits pa 40 8 = 0 then .peer (hi - 1) (bits pa 0 40) else .reserved)
  else .reserved

/-- The stack of a physical address of local HBM (R153). -/
def stackOf (pa : Nat) : Nat := bits pa 36 3

/-- The exclusive-or of `n` two-bit fields from bit 7 upwards. -/
def xorFields (pa : Nat) : Nat → Nat
  | 0 => 0
  | n + 1 => bits pa (2 * n + 7) 2 ^^^ xorFields pa n

/-- The motif that homes a line (R155). -/
def homeMotif (pa : Nat) : Nat := 4 * stackOf pa + xorFields pa 14

/-- The target core of a migration to a global address (14_shuttles.md R282). -/
def targetCore (pa : Nat) : Nat :=
  32 * stackOf pa + (bits pa 16 5 ^^^ bits pa 21 5 ^^^ bits pa 26 5 ^^^ bits pa 31 5)

/-! ## Bytes at the home (08 R161) -/

/-- A dirty L2 byte of a home slice; while the slice's motif is without power, its shadow's (R162, R172). -/
def dirtyByte (s : State) (pa : Nat) : Option Byte :=
  match mfind s.l2 pa with
  | some b => some b
  | none => mfind s.l2shadow pa

/-- A nibble of a byte replaced (09_consistency.md R179). -/
def setNibble (hi : Bool) (v : Nat) (b : Byte) : Byte :=
  BitVec.ofNat 8 (if hi then b.toNat % 16 + v % 16 * 16 else b.toNat / 16 * 16 + v % 16)

/-- The effect of an egress entry on the value of one byte of global memory seen through it. -/
def EgressKind.over (k : EgressKind) (pa : Nat) (b : Byte) : Byte :=
  match k with
  | .phys a bs => if a ≤ pa ∧ pa < a + bs.length then bs.getD (pa - a) 0 else b
  | .line m => mget m pa b
  | .nibble a hi v => if pa = a then setNibble hi v b else b
  | .zero a => if a ≤ pa ∧ pa < a + 128 then 0 else b
  | _ => b

/-- One byte of local HBM as its home slice holds it: a dirty L2 byte, else DRAM. -/
def sliceByte (s : State) (pa : Nat) : Byte := (dirtyByte s pa).getD (memRead s.hbm pa)

/-- The same under the stores that have reached the home before the identity `id` was taken, and wait there: each has its place in
the byte's coherence order, after what it waits for (09 R176, R187; 12_stacks.md R251). -/
def homeByteAt (s : State) (id pa : Nat) : Byte :=
  s.held.foldl (fun b e => if e.arrived ≤ id then e.kind.over pa b else b) (sliceByte s pa)

/-- One byte of local HBM as its home serves it. -/
def homeByte (s : State) (pa : Nat) : Byte := s.held.foldl (fun b e => e.kind.over pa b) (sliceByte s pa)

def homeBytes (s : State) (pa n : Nat) : List Byte := (upFrom n pa).map (homeByte s)

/-- The tag of a dirty line in the mirror: that of the store that made it dirty, here `who` if it was clean (R162). -/
def dirtyTag (s : State) (line who : Nat) : Nat := ((mfind s.shadowTag line).or (mfind s.unmirrored line)).getD who

/-- A byte written at the home by a core, as 1 more than its number, or by another agent, as 0: it becomes dirty in the slice, to be
mirrored into the shadow (R162). -/
def homeWriteBy (s : State) (who pa : Nat) (b : Byte) : State :=
  { s with l2 := mset s.l2 pa b, unmirrored := mset s.unmirrored (pa / 128) (dirtyTag s (pa / 128) who) }

def homeWrite (s : State) (pa : Nat) (b : Byte) : State := homeWriteBy s 0 pa b

/-- A dirty line is written to the shadow, with its tag (R162). -/
def mirrorLine (s : State) (line : Nat) : State :=
  { s with
    l2shadow := (upFrom 128 (line * 128)).foldl (fun (m : PMap Byte) a => match mfind s.l2 a with | some b => mset m a b | none => m) s.l2shadow
    shadowTag := mset s.shadowTag line (dirtyTag s line 0)
    unmirrored := mdel s.unmirrored line }

/-- A line leaves its slice, and its mirror. -/
def dropLine (s : State) (line : Nat) : State :=
  { s with l2 := (upFrom 128 (line * 128)).foldl mdel s.l2, l2shadow := (upFrom 128 (line * 128)).foldl mdel s.l2shadow
           unmirrored := mdel s.unmirrored line, shadowTag := mdel s.shadowTag line }

/-- The slice that homes a line has its lines again after a loss of power (R172). -/
def homeServes (s : State) (pa : Nat) : Bool := (s.motif (homeMotif pa)).loaded

def homeWrites (s : State) (pa : Nat) : List Byte → State
  | [] => s
  | b :: bs => homeWrites (homeWrite s pa b) (pa + 1) bs

/-- Notes whether the page of a line carries COMP (12 R254). -/
def noteComp (s : State) (pa : Nat) (comp : Bool) : State := { s with l2comp := mset s.l2comp (pa / 128) comp }

/-! ## Line compression (12 R254) -/

/-- Word `i` of `n` bytes of a line. -/
def lineWord (line : List Byte) (n i : Nat) : Nat := ofBytesLE ((line.drop (n * i)).take n)

/-- Fits(w, b) of R254 for words of `n` bytes. -/
def fitsDelta (line : List Byte) (n b : Nat) : Bool :=
  (upFrom (128 / n) 0).all (fun i =>
    let d := sext (lineWord line n i + 2 ^ (8 * n) - lineWord line n 0) (8 * n)
    decide (-(2 ^ (b - 1)) ≤ d) && decide (d ≤ 2 ^ (b - 1) - 1))

/-- Encode(line): the tag of a full line written to a COMP page. -/
def encodeTag (line : List Byte) : Nat :=
  if line.all (· == 0) then 1
  else if (upFrom 32 0).all (fun i => lineWord line 4 i == lineWord line 4 0) then 2
  else if (upFrom 16 0).all (fun i => lineWord line 8 i == lineWord line 8 0) then 3
  else if fitsDelta line 8 8 then 4
  else if fitsDelta line 8 16 then 5
  else if fitsDelta line 4 8 then 6
  else if fitsDelta line 4 16 then 7
  else 0

/-- Writes a whole line to DRAM with its tag (R254). -/
def dramLine (s : State) (line : Nat) (bytes : List Byte) (comp : Bool) : State :=
  { s with hbm := memWrites s.hbm (line * 128) bytes, tags := mset s.tags line (if comp then encodeTag bytes else 0) }

/-- The dirty bytes of a line written back: merged with the decoded line and encoded anew (R255). -/
def writeBackLine (s : State) (line : Nat) : State :=
  let dirty := (upFrom 128 (line * 128)).any (fun a => (dirtyByte s a).isSome)
  if dirty then
    let old := memReads s.hbm (line * 128) 128
    let new := (upFrom 128 0).map (fun i => (dirtyByte s (line * 128 + i)).getD (old.getD i 0))
    dropLine (dramLine s line new (mget s.l2comp line false)) line
  else s

/-- Whether a line carries a reserved tag, which a soft error alone makes (R253). -/
def tagReserved (s : State) (pa : Nat) : Bool := s.tagOf (pa / 128) ≥ 8

/-- The rewriting of a line found with a reserved tag: raw zeros with tag 0x0 (R253). -/
def clearTagged (s : State) (pa : Nat) : State :=
  { s with hbm := memWrites s.hbm (pa / 128 * 128) (List.replicate 128 0), tags := mset s.tags (pa / 128) 0 }

/-! ## Page tables (16 R321 to R323) -/

/-- A leaf entry with the level at which it was found. -/
structure Leaf where
  level : Nat
  entry : Nat
  deriving DecidableEq, Repr

def pageSize (level : Nat) : Nat := if level = 0 then 65536 else if level = 1 then 2097152 else 1073741824

def Leaf.frame (l : Leaf) : Nat := bits l.entry 16 36 * 65536
def Leaf.resident (l : Leaf) : Bool := bitOf l.entry 1
def Leaf.canRead (l : Leaf) : Bool := bitOf l.entry 3
def Leaf.canWrite (l : Leaf) : Bool := bitOf l.entry 4
def Leaf.canExec (l : Leaf) : Bool := bitOf l.entry 5
def Leaf.ca (l : Leaf) : Nat := bits l.entry 6 2
def Leaf.comp (l : Leaf) : Bool := bitOf l.entry 8
def Leaf.migrate (l : Leaf) : Bool := bitOf l.entry 9
def Leaf.pa (l : Leaf) (va : Nat) : Nat := l.frame + va % pageSize l.level

/-- The checks of R323 on a leaf entry. -/
def leafOk (peerwin level e : Nat) : Bool :=
  let frame := bits e 16 36 * 65536
  bits e 52 12 == 0 && bits e 13 3 == 0 && decide (bits e 6 2 ≤ 1) && decide (level ≤ 2) && frame % pageSize level == 0 &&
  (match paTarget frame with
    | .hbm => bits e 10 3 == stackOf frame
    | .peer port _ => bits e 10 3 == 0 && !bitOf e 8 && !bitOf e 9 && bitOf peerwin port
    | .reserved => false)

/-- The checks of R323 on a pointer entry whose next table has the given size. -/
def pointerOk (e nextSize : Nat) : Bool :=
  let next := bits e 8 44 * 256
  bits e 52 12 == 0 && bits e 3 5 == 0 && !bitOf e 1 && next % nextSize == 0 && paTarget next == .hbm

/-- A walk from a table through the remaining levels (Table 16-1): level, index shift, index width. -/
def walkFrom (s : State) (peerwin va : Nat) : Nat → List (Nat × Nat × Nat) → Option Leaf
  | _, [] => none
  | table, (level, sh, w) :: rest =>
    let e := ofBytesLE (homeBytes s (table + 8 * bits va sh w) 8)
    if !bitOf e 0 then none
    else if bitOf e 2 then (if leafOk peerwin level e then some ⟨level, e⟩ else none)
    else if level = 0 then none
    else if pointerOk e (if level = 1 then 256 else 4096) then walkFrom s peerwin va (bits e 8 44 * 256) rest
    else none

/-- The levels of a walk (Table 16-1). -/
def walkLevels : List (Nat × Nat × Nat) := [(4, 48, 9), (3, 39, 9), (2, 30, 9), (1, 21, 9), (0, 16, 5)]

/-- The translation of a global virtual address in a partition's address space; `none`: ADDR_INVALID (R323). -/
def walk (s : State) (p va : Nat) : Option Leaf := walkFrom s (s.part p).peerwin va (s.part p).root walkLevels

/-- The addresses of the entries that a walk reads. -/
def walkReads (s : State) (va : Nat) : Nat → List (Nat × Nat × Nat) → List Nat
  | _, [] => []
  | table, (level, sh, w) :: rest =>
    let at0 := table + 8 * bits va sh w
    let e := ofBytesLE (homeBytes s at0 8)
    at0 :: (if !bitOf e 0 || bitOf e 2 || level == 0 then [] else walkReads s va (bits e 8 44 * 256) rest)

/-- Every slice that a walk reaches serves requests (08 R172). -/
def walkServes (s : State) (p va : Nat) : Bool := (walkReads s va (s.part p).root walkLevels).all (homeServes s)

/-- A leaf that the motif's TLB holds for an address (R324). -/
def tlbFind (s : State) (motif p va : Nat) : Option Leaf :=
  ((s.motif motif).tlb.find? (fun t => t.asid == (s.part p).asid && t.vpage == va / pageSize t.level)).map
    (fun t => ⟨t.level, t.leaf⟩)

/-- The translation that an access of a core uses: the walk's, or the one held until its shootdown (R324, log 7). -/
def xlate (s : State) (core p va : Nat) : Option Leaf :=
  let w := walk s p va
  match tlbFind s (core / 8) p va with
  | none => w
  | some t => if w = some t then w else choose (Config.free s.free (9000 + va / 65536)) w [some t]

/-- The translation of an access of a core needs a walk that reaches a slice without power (08 R172). -/
def xlateWaits (s : State) (core p va : Nat) : Bool := (tlbFind s (core / 8) p va).isNone && !walkServes s p va

/-- A motif TLB takes a resident leaf (R324). -/
def tlbNote (s : State) (core p va : Nat) (l : Leaf) : State :=
  if l.resident && (tlbFind s (core / 8) p va).isNone then
    s.modMotif (core / 8) (fun m => { m with tlb := ⟨(s.part p).asid, l.level, va / pageSize l.level, l.entry⟩ :: m.tlb })
  else s

end Sys2Proof.Machine
end

