-- ==== Sys2Proof/Machine/Tensor.lean ====
section
/-! DEFINITION. Shape registers as engines read them: the fields of Tables 7-1 to 7-3, the rules of R136, where the elements
and scales of a tensor lie, and the sectors that they fill (07_shape_system.md R132 to R136; 02_number_formats.md R35;
09_consistency.md R177, R187). -/

namespace Sys2Proof.Machine

/-! ## Fields (Tables 7-1 to 7-3) -/

def shF (sh : BitVec 512) (lo len : Nat) : Nat := bits sh.toNat lo len
def shBase (sh : BitVec 512) : Nat := shF sh 0 57
def shScale (sh : BitVec 512) : Nat := shF sh 64 57
def shFmt (sh : BitVec 512) : Nat := shF sh 192 5
def shRank (sh : BitVec 512) : Nat := shF sh 197 3
def shPlace (sh : BitVec 512) : Nat := shF sh 200 2
def shPlanes (sh : BitVec 512) : Nat := shF sh 202 5
def shSblk (sh : BitVec 512) : Nat := shF sh 207 2
def shHblk (sh : BitVec 512) : Nat := shF sh 209 2
def shZpad (sh : BitVec 512) : Bool := shF sh 211 1 == 1
def shRo (sh : BitVec 512) : Bool := shF sh 212 1 == 1
def shFirst (sh : BitVec 512) : Nat := shF sh 224 6
def shKb (sh : BitVec 512) : Nat := shF sh 230 7
def shNb (sh : BitVec 512) : Nat := shF sh 237 7
def shExt (sh : BitVec 512) (d : Nat) : Nat := shF sh ([256, 276, 296, 320, 340].getD d 0) 20
def shStep (sh : BitVec 512) : Int := sext (shF sh 360 24) 24
def shStr (sh : BitVec 512) (d : Nat) : Nat := if d = 0 then 1 else shF sh (384 + 32 * (d - 1)) 32
def shKind (sh : BitVec 512) : EKind := (EKind.ofCode (shFmt sh)).getD (.int false 8)
def shWidth (sh : BitVec 512) : Nat := (shKind sh).width

/-- An MX format code. -/
def fmtMx (c : Nat) : Bool := c == 0x12 || c == 0x13

/-- A float format code of 32 bits or fewer that is not MX, the tapered types included. -/
def fmtFloat (c : Nat) : Bool := decide (8 ≤ c) && decide (c ≤ 0x11)

/-- The rules 1 to 7 of R136. -/
def shapeOk (sh : BitVec 512) : Bool :=
  let r := shRank sh
  let f := shFmt sh
  let w := shWidth sh
  let ds := upFrom r 0
  decide (1 ≤ r) && decide (r ≤ 5) && ds.all (fun d => decide (1 ≤ shExt sh d)) && decide (f ≤ 0x13) &&
  shF sh 57 7 == 0 && shF sh 121 7 == 0 && shF sh 213 11 == 0 && shF sh 244 12 == 0 && shF sh 316 4 == 0 &&
  (shPlace sh != 1 || decide (shBase sh < 8388608)) &&
  (decide (shPlace sh < 2) || (decide (shBase sh < shKb sh * shNb sh * 131072) && decide (1 ≤ shKb sh) && decide (1 ≤ shNb sh) &&
    decide (shFirst sh + shKb sh * shNb sh ≤ 64))) &&
  (shPlace sh != 3 || (shPlanes sh == w && decide (w ≤ 16))) &&
  (if fmtMx f then shSblk sh == 1 else if decide (0x0B ≤ f) && decide (f ≤ 0x0E) then decide (shSblk sh ≤ 1) else shSblk sh == 0) &&
  (shSblk sh != 1 || (ds.all (fun d => d == 0 || shStr sh d % 32 == 0) && shStep sh % 32 == 0)) &&
  (shStep sh * w) % 8 == 0 &&
  decide (shHblk sh ≤ 1) && decide (shPlanes sh ≤ 16)

/-! ## Elements (R134) -/

def shExts (sh : BitVec 512) : List Nat := (upFrom (shRank sh) 0).map (shExt sh)

/-- The number of elements. -/
def shCount (sh : BitVec 512) : Nat := (shExts sh).foldl (fun a e => a * e) 1

/-- The element number of an index tuple whose first index is of dimension `d`. -/
def elemSum (sh : BitVec 512) : Nat → List Nat → Nat
  | _, [] => 0
  | d, i :: is => i * shStr sh d + elemSum sh (d + 1) is

def shElem (sh : BitVec 512) (idx : List Nat) : Nat := elemSum sh 0 idx

/-- The highest element number. -/
def shMax (sh : BitVec 512) : Nat := shElem sh ((shExts sh).map (fun e => e - 1))

/-- The indices of dimension 1 and above of the `n`-th row. -/
def rowIndex : List Nat → Nat → List Nat
  | [], _ => []
  | e :: es, n => n % e :: rowIndex es (n / e)

def insideFrom (sh : BitVec 512) : Nat → List Nat → Bool
  | _, [] => true
  | d, i :: is => decide (i < shExt sh d) && insideFrom sh (d + 1) is

/-- Every index lies within its extent. -/
def shInside (sh : BitVec 512) (idx : List Nat) : Bool := insideFrom sh 0 idx

/-- The work of an engine over a panel of a compute bank goes by units: up to 32 elements of a row (log 8). -/
def rowUnits (sh : BitVec 512) : Nat := ceilDiv (shExt sh 0) 32
def panelUnits (sh : BitVec 512) : Nat := rowUnits sh * (shCount sh / shExt sh 0)

/-- The index tuples of a unit. -/
def unitIdx (sh : BitVec 512) (u : Nat) : List (List Nat) :=
  let lo := u % rowUnits sh * 32
  let row := rowIndex ((shExts sh).drop 1) (u / rowUnits sh)
  (upFrom (min 32 (shExt sh 0 - lo)) lo).map (fun i => i :: row)

/-! ## Sectors (09 R177, R188)

Elsewhere the work goes by the 32-byte sectors of the destination (log 8): those of the elements, then those of the scales. -/

/-- The greatest element number that dimensions reach. -/
def dimsMax : List (Nat × Nat) → Nat
  | [] => 0
  | (n, t) :: ds => (n - 1) * t + dimsMax ds

/-- The index tuples of the element numbers from `lo` to `hi`, dimensions as (extent, stride), the last first. -/
def tuplesIn (lo hi : Nat) : List (Nat × Nat) → Nat → List (List Nat)
  | [], acc => if lo ≤ acc ∧ acc ≤ hi then [[]] else []
  | (n, t) :: ds, acc => ((upFrom n 0).filter (fun i => decide (acc + i * t ≤ hi) && decide (lo ≤ acc + i * t + dimsMax ds))).flatMap
      (fun i => (tuplesIn lo hi ds (acc + i * t)).map (fun r => r ++ [i]))

def shDims (sh : BitVec 512) : List (Nat × Nat) := ((upFrom (shRank sh) 0).map (fun d => (shExt sh d, shStr sh d))).reverse

/-- Bytes from the start of its sector to the first byte of a tensor's elements, and of its scales. -/
def elemLead (sh : BitVec 512) : Nat := shBase sh % 32
def scaleLead (sh : BitVec 512) : Nat := shScale sh % 32

/-- The sectors from the first to the last of the elements, and of the scales. -/
def elemSectors (sh : BitVec 512) : Nat := ((shMax sh * shWidth sh + shWidth sh - 1) / 8 + elemLead sh) / 32 + 1
def scaleSectors (sh : BitVec 512) : Nat := (shMax sh / 32 + scaleLead sh) / 32 + 1

/-- The index tuples of the elements with a bit in a sector. -/
def sectorElems (sh : BitVec 512) (u : Nat) : List (List Nat) :=
  tuplesIn ((32 * u - elemLead sh) * 8 / shWidth sh) (((32 * u + 31 - elemLead sh) * 8 + 7) / shWidth sh) (shDims sh) 0

/-- The index tuples of the first elements of the blocks whose scale lies in a sector. -/
def sectorScales (sh : BitVec 512) (u : Nat) : List (List Nat) :=
  (tuplesIn ((32 * u - scaleLead sh) * 32) ((32 * u + 31 - scaleLead sh) * 32 + 31) (shDims sh) 0).filter (fun i => i.headD 0 % 32 == 0)

/-- The units of an engine's work over a destination, with or without its scales. -/
def shUnits (sh : BitVec 512) (scales : Bool) : Nat :=
  if shPlace sh = 3 then panelUnits sh else elemSectors sh + (if scales then scaleSectors sh else 0)

/-- The elements of a unit, and the elements whose scales it writes. -/
def unitElems (sh : BitVec 512) (u : Nat) : List (List Nat) :=
  if shPlace sh = 3 then unitIdx sh u else if u < elemSectors sh then sectorElems sh u else []
def unitScales (sh : BitVec 512) (u : Nat) : List (List Nat) :=
  if shPlace sh = 3 then (unitIdx sh u).filter (fun i => i.headD 0 % 32 == 0)
  else if u < elemSectors sh then [] else sectorScales sh (u - elemSectors sh)

/-- A byte that an engine reaches: a virtual address, or a byte of a core's scratchpad. -/
inductive EByte where
  | va (a : Nat)
  | bank (core off : Nat)
  deriving DecidableEq, Repr

/-- Byte `o` of a tensor's stream, counted from BASE. -/
def tensorByte (core : Nat) (sh : BitVec 512) (o : Nat) : EByte :=
  match shPlace sh with
  | 0 => .va (shBase sh + o)
  | 1 => .bank core (shBase sh + o)
  | _ => .bank core (shFirst sh * 131072 + shBase sh + o)

/-- The byte that holds the scale of element `e` (R134, Table 7-1). -/
def scaleByte (sh : BitVec 512) (e : Nat) : EByte := .va (shScale sh + e / 32)

/-- The bytes of element `e`, counted from BASE, and its first bit among them. -/
def elemOffs (sh : BitVec 512) (e : Nat) : List Nat × Nat :=
  let b := e * shWidth sh
  (upFrom ((b % 8 + shWidth sh + 7) / 8) (b / 8), b % 8)

/-- The bytes of element `e` and its first bit among them. -/
def elemBytes (core : Nat) (sh : BitVec 512) (e : Nat) : List EByte × Nat :=
  ((elemOffs sh e).1.map (tensorByte core sh), (elemOffs sh e).2)

/-- A byte in a scratchpad window, by its core and offset; LOCALBASE names the issuing core's (08_memories.md R148). -/
def EByte.resolve (s : State) (core : Nat) : EByte → EByte
  | .va a => match regionOf a with
    | .scratch c o => .bank (bankHome s c (o / 131072)) o
    | .localWin o => .bank core o
    | _ => .va a
  | x => x

/-- A byte's number among all that engines reach: its address, or that of its core's window. -/
def EByte.key : EByte → Nat
  | .va a => a
  | .bank c o => scratchBase + c * 0x1000000 + o

/-- The bytes of a byte's 32-byte sector. -/
def EByte.sector : EByte → List EByte
  | .va a => (upFrom 32 (a / 32 * 32)).map .va
  | .bank c o => (upFrom 32 (o / 32 * 32)).map (.bank c)

/-! ## Spans of bytes -/

/-- A range of bytes, both ends included. -/
inductive Span where
  | va (lo hi : Nat)
  | bank (core lo hi : Nat)
  deriving DecidableEq, Repr

/-- The bytes from the lowest to the highest of a tensor's elements; the whole panel for PLACE 3. -/
def elemSpan (core : Nat) (sh : BitVec 512) : Span :=
  let hi := (shMax sh * shWidth sh + shWidth sh - 1) / 8
  match shPlace sh with
  | 0 => .va (shBase sh) (shBase sh + hi)
  | 1 => .bank core (shBase sh) (shBase sh + hi)
  | 2 => .bank core (shFirst sh * 131072 + shBase sh) (shFirst sh * 131072 + shBase sh + hi)
  | _ => .bank core (shFirst sh * 131072) ((shFirst sh + shKb sh * shNb sh) * 131072 - 1)

/-- The bytes of a tensor's scales outside a panel. -/
def scaleSpan (sh : BitVec 512) : List Span :=
  if shSblk sh = 1 ∧ shPlace sh ≠ 3 then
    [.va (shScale sh) (shScale sh + shMax sh / 32)]
  else []

/-- A span by its core and scratchpad offsets where it lies in a scratchpad window. -/
def Span.place (core : Nat) : Span → Span
  | .va lo hi => match regionOf lo with
    | .scratch c o => .bank c o (o + (hi - lo))
    | .localWin o => .bank core o (o + (hi - lo))
    | _ => .va lo hi
  | x => x

def Span.meets : Span → Span → Bool
  | .va a b, .va c d => decide (a ≤ d) && decide (c ≤ b)
  | .bank k a b, .bank l c d => k == l && decide (a ≤ d) && decide (c ≤ b)
  | _, _ => false

end Sys2Proof.Machine
end

