-- ==== Sys2Proof/Machine/View.lean ====
section
/-! DEFINITION. The view of a core: its L1 and its egress buffer over the homes, publication, and stores that wait at their
home for an owned line (09_consistency.md R176 to R190; log 6). -/

namespace Sys2Proof.Machine

/-! ## Event counters (15_counters.md R318) -/

/-- Every event counter of a core that selects an event adds a number to its count, while the core is not gated. -/
def Core.counted (k : Core) (code n : Nat) : PMap DWord :=
  if k.power = .active then
    k.evsel.foldl (fun (m : PMap DWord) (e : Nat × Word) =>
      if bitOf e.2.toNat 31 ∧ bits e.2.toNat 0 8 = code then mset m e.1 (mget m e.1 0 + BitVec.ofNat 64 n) else m) k.evc
  else k.evc

def countEvent (s : State) (core code n : Nat) : State := s.modCore core (fun k => { k with evc := k.counted code n })

/-! ## The view of a core (09 R176, R184, R190) -/

/-- The same for one byte of a scratchpad. -/
def EgressKind.overScratch (k : EgressKind) (core off : Nat) (b : Byte) : Byte :=
  match k with
  | .scratch c a bs => if c = core ∧ a ≤ off ∧ off < a + bs.length then bs.getD (off - a) 0 else b
  | .scratchNib c a hi v => if c = core ∧ off = a then setNibble hi v b else b
  | _ => b

/-- A byte of a target beyond the core: HBM at its home, or a peer's answer (log 10). -/
def farByte (s : State) (pa : Nat) : Byte :=
  match paTarget pa with
  | .hbm => homeByte s pa
  | .peer port off => Config.peerByte port off s.free
  | .reserved => 0

/-- One byte of global memory as a core's load sees it: its WRITTEN bytes, then its SHARED copy, or the home under the core's
own waiting stores; `useShared` is false for a load served by the home slice (R197). -/
def coreByte (s : State) (core : Nat) (useShared : Bool) (pa : Nat) : Byte :=
  let k := s.core core
  match mfind k.l1w pa with
  | some b => b
  | none => match (if useShared then mfind k.l1s pa else none) with
    | some b => b
    | none => k.egress.foldl (fun b e => e.kind.over pa b) (farByte s pa)

/-- The L1 holds every byte of an access, WRITTEN or in a SHARED sector. -/
def l1Holds (s : State) (core pa n : Nat) : Bool :=
  (upFrom n pa).all (fun a => (mfind (s.core core).l1w a).isSome || (mfind (s.core core).l1s a).isSome)

/-- The L1's SHARED sectors of a line are dropped. -/
def dropShared (s : State) (core line : Nat) : State :=
  s.modCore core (fun k => { k with l1s := k.l1s.filter (fun (c : Nat × Byte) => c.1 / 128 != line) })

/-- One byte of a scratchpad as a core sees it: the bank, under its own waiting remote stores. -/
def scratchByte (s : State) (viewer core off : Nat) : Byte :=
  let b := memRead (s.core core).st.scratch off
  if viewer = core then b else (s.core viewer).egress.foldl (fun b e => e.kind.overScratch core off b) b

/-- Rows of a core's scratchpad join those that the next commit records, each once (08 R171). -/
def CoreSt.rowsWith (k : CoreSt) (rs : List Nat) : List Nat := rs.foldl (fun m r => if m.contains r then m else m ++ [r]) k.rows

/-- Bytes written into a core's own banks. -/
def scratchWrite (s : State) (core off : Nat) (bs : List Byte) : State :=
  s.modSt core (fun k => { k with scratch := memWrites k.scratch off bs, rows := k.rowsWith ((upFrom bs.length off).map (· / 128)) })

/-! ## Stores at their homes and banks -/

/-- The launch of a resident group; a span partner's banks belong to a group of another core (11_banks_matrix.md R240). -/
def groupLaunch (s : State) (g : Nat) : Option Nat :=
  s.cores.findSome? (fun c => (mfind c.2.st.groups g).map (·.launch))

/-- The launch of the group that holds a bank. -/
def bankLaunch (s : State) (core b : Nat) : Option Nat :=
  match ((s.core core).st.bank b).owner with
  | none => none
  | some g => groupLaunch s g

/-- The banks still to be reloaded after a resume, first the one in progress: a bank that is asked for comes next (17 R351). -/
def restoreNext (r : List Nat) (b : Nat) : List Nat :=
  match r with
  | x :: t => if t.contains b then x :: b :: t.filter (· != b) else r
  | [] => []

/-- Banks of a core are asked for. -/
def askBanks (s : State) (core : Nat) (bs : List Nat) : State :=
  if (s.core core).restoring.isEmpty then s else s.modCore core (fun k => { k with restoring := bs.foldl restoreNext k.restoring })

/-- A copy kind, an ACCST included. -/
def EngKind.isCopy : EngKind → Bool
  | .acpy | .acpym _ | .afill _ | .agthr | .accst _ => true
  | _ => false

/-- An exclusive hold that keeps an access from a bank: one that runs, or that a copy has taken at its issue (09 R187, 11 R228). -/
def Hold.owns (s : State) (h : Hold) (b : Nat) : Bool :=
  h.excl && h.banks.contains b && (h.granted || (h.op.bind (mfind s.engines)).any (fun e => e.kind.isCopy))

/-- An access waits at a bank that is held exclusively or still restoring (11 R229, 17 R351). -/
def bankBusy (s : State) (core b : Nat) : Bool :=
  (s.core core).holds.any (fun h => h.owns s b) || (s.core core).restoring.contains b

/-- A unit of an engine's work that writes to a sector of a line is still to come; `first` is the unit of sector `lo`. -/
def Engine.owesSector (e : Engine) (line lo first n : Nat) : Bool :=
  (upFrom 4 (4 * line)).any (fun k =>
    let u := first + (k - lo)
    decide (lo ≤ k) && decide (k - lo < n) && !e.done.contains u &&
      !(unitElems (e.shapes.headD 0) u ++ unitScales (e.shapes.headD 0) u).isEmpty)

/-- The same for a copy that writes every sector of its range. -/
def Engine.owesRange (e : Engine) (line lo n : Nat) : Bool :=
  (upFrom 4 (4 * line)).any (fun k => decide (lo ≤ k) && decide (k - lo < n) && !e.done.contains (k - lo))

/-- The lines of virtual addresses that an engine still owns: those that units of its work have still to write (R187). -/
def Engine.ownsLine (e : Engine) (line : Nat) : Bool :=
  let d := e.shapes.headD 0
  match e.kind with
  | .acpy | .acpym _ | .afill _ | .agthr | .accst _ | .nmx _ _ _ _ =>
    (decide (e.dlo ≤ e.dhi) && e.owesSector line (shBase d / 32) 0 (elemSectors d)) ||
    (decide (e.slo ≤ e.shi) && e.owesSector line (shScale d / 32) (elemSectors d) (scaleSectors d))
  | .channel _ _ _ _ _ _ => e.owesRange line (e.dlo / 32) e.total
  | .rcopy | .rfill _ | .rbit _ =>
    let k := (line * 128 - e.dlo) / 393216
    decide (e.dlo ≤ line * 128) && decide (line * 128 ≤ e.dhi) && decide (e.next ≤ k) &&
      !(k == e.next && e.lines.contains ((line * 128 - e.dlo) % 393216 / 128))
  | _ => decide (e.dlo ≤ e.dhi) && decide (e.dlo / 128 ≤ line) && decide (line ≤ e.dhi / 128)

/-- The key of a page under which an engine keeps its translation. -/
def pageSlot (wr : Bool) (a : Nat) : Nat := a / 65536 * 2 + b2n wr

/-- The physical byte that an engine's address names: by the translation that it has kept, or anew (16_tables.md R328). -/
def Engine.paOf (s : State) (e : Engine) (wr : Bool) (a : Nat) : Option Nat :=
  match mfind e.pages (pageSlot wr a) with
  | some g => some (g * 65536 + a % 65536)
  | none => (walk s e.part a).map (fun l => l.pa a)

/-- The virtual addresses of a range of an engine that translate to a physical byte. -/
def Engine.aliasesIn (s : State) (e : Engine) (wr : Bool) (lo hi pa : Nat) : List Nat :=
  if hi < lo then []
  else ((upFrom (hi / 65536 - lo / 65536 + 1) (lo / 65536)).filter (fun pg =>
    e.paOf s wr (pg * 65536) == some (pa / 65536 * 65536))).map (fun pg => pg * 65536 + pa % 65536)

/-- An engine owns the line of a physical byte, under whatever address it writes it (R187). -/
def Engine.ownsPa (s : State) (e : Engine) (pa : Nat) : Bool :=
  (e.aliasesIn s true e.dlo e.dhi pa ++ e.aliasesIn s true e.slo e.shi pa).any (fun va => e.ownsLine (va / 128))

/-- A row operation has still to read the segment in which a physical byte of a source lies (12_stacks.md R251). -/
def Engine.readsPa (s : State) (e : Engine) (pa : Nat) : Bool :=
  match e.kind with
  | .rcopy | .rbit _ => (e.shapes.drop 1).any (fun sh =>
      (e.aliasesIn s false (shBase sh) (shBase sh + (e.dhi - e.dlo)) pa).any (fun va => decide (e.next ≤ (va - shBase sh) / 393216)))
  | _ => false

/-- A request at the home of a line waits: an engine owns the line, or its slice has no power (R187, 08 R172). -/
def lineBusy (s : State) (pa : Nat) : Bool := !homeServes s pa || s.engines.any (fun e => e.2.ownsPa s pa)

/-- A store at the home of a line waits: for that, or for a row operation that reads the line (12 R251). -/
def storeBusy (s : State) (pa : Nat) : Bool := lineBusy s pa || s.engines.any (fun e => e.2.readsPa s pa)

/-- The physical bytes that an entry writes in local HBM or a peer window. -/
def Egress.cells (e : Egress) : List Nat :=
  match e.kind with
  | .phys pa bs => upFrom bs.length pa
  | .line m => m.map (·.1)
  | .nibble pa _ _ => [pa]
  | .zero pa => upFrom 128 pa
  | _ => []

/-- The scratchpad byte at which an entry begins. -/
def Egress.bank (e : Egress) : Option (Nat × Nat) :=
  match e.kind with
  | .scratch c o _ => some (c, o / 131072)
  | .scratchNib c o _ _ => some (c, o / 131072)
  | _ => none

/-- An entry that has reached its target must wait there: for what was issued before it arrived (09 R187, 12 R251). -/
def Egress.waits (e : Egress) (s : State) : Bool :=
  match e.bank with
  | some (c, b) => (s.core c).holds.any (fun h => decide (h.id < e.arrived) && h.owns s b) || (s.core c).restoring.contains b
  | none => match e.cells with
    | pa :: _ => paTarget pa == .hbm &&
      (!homeServes s pa || s.engines.any (fun x => decide (x.1 < e.arrived) && (x.2.ownsPa s pa || x.2.readsPa s pa)))
    | [] => false

/-- Two entries for one line or one bank. -/
def Egress.sameTarget (a b : Egress) : Bool :=
  match a.bank, b.bank with
  | some x, some y => x == y
  | none, none => (match a.cells, b.cells with | x :: _, y :: _ => x / 128 == y / 128 | _, _ => false)
  | _, _ => false

/-- The bank of a remote store is judged where the store is performed (08 R149, 11 R229; log 90). -/
def Egress.judged (e : Egress) (s : State) : Bool :=
  match e.bank with
  | none => true
  | some x =>
    let b := (s.core x.1).st.bank x.2
    b.owner.isSome && !b.compute && (match e.own with | some g => b.owner == some g | none => bankLaunch s x.1 x.2 == some e.launch)

/-- Physical bytes written at their home, or sent to a peer, by a core, as 1 more than its number, or another agent, as 0. -/
def cellsWrite (s : State) (who : Nat) (comp : Bool) (cs : List (Nat × Byte)) : State :=
  cs.foldl (fun s c => match paTarget c.1 with
    | .hbm => noteComp (homeWriteBy s who c.1 c.2) c.1 comp
    | .peer port off => s.modPeer port (fun p => { p with sent := p.sent ++ [(off, c.2)] })
    | .reserved => s) s

/-- Who has written an entry. -/
def Egress.who (e : Egress) : Nat := if e.outside then 0 else e.core + 1

/-- One egress entry is performed at its target (R190). -/
def Egress.perform (e : Egress) (s : State) : State :=
  match e.kind with
  | .scratch c o bs => if e.judged s then scratchWrite s c o bs else s
  | .scratchNib c o hi v => if e.judged s then scratchWrite s c o [setNibble hi v (memRead (s.core c).st.scratch o)] else s
  | .line m => cellsWrite s e.who e.comp m
  | k => cellsWrite s e.who e.comp (e.cells.map (fun pa => (pa, k.over pa (sliceByte s pa))))

/-- `n` bytes of global memory at their homes whatever the rights; an unmapped byte reads zero. -/
def windowBytes (s : State) (p va n : Nat) : List Byte :=
  (upFrom n va).map (fun a => match walk s p a with
    | some l => farByte s (l.pa a)
    | none => 0)

/-- Physical bytes cover the last byte of a bound window (13 R264): the posts that follow, by partition and binding. -/
def windowsHit (s : State) (pas : List Nat) : List (Nat × Bind) :=
  s.parts.flatMap (fun p => p.2.binds.filterMap (fun b =>
    let last := b.2.window + b.2.size - 1
    match walk s p.1 last with
    | some l => if l.resident && pas.contains (l.pa last) then some (p.1, b.2) else none
    | none => none))

/-- Posts by store become due, with the windows' bytes as they stand at their homes in `mid` (13 R264). -/
def storesArrive (s mid : State) (poster : Nat) (pas : List Nat) : State :=
  { s with postsDue := s.postsDue ++ (windowsHit s pas).map (fun x => (poster, x.1, x.2.window, windowBytes mid x.1 x.2.window x.2.size)) }

/-- An entry with the bank that its store reaches now: one left behind by a move forwards it. -/
def Egress.here (e : Egress) (s : State) : Egress :=
  match e.kind with
  | .scratch c o bs => { e with kind := .scratch (bankHome s c (o / 131072)) o bs }
  | .scratchNib c o hi v => { e with kind := .scratchNib (bankHome s c (o / 131072)) o hi v }
  | _ => e

/-- An entry that reaches its target waits there, for what was issued before or behind an earlier entry for the same line or bank. -/
def Egress.stays (e : Egress) (s : State) : Bool := e.waits s || s.held.any e.sameTarget

/-- An entry reaches its target: it waits there, or is performed. -/
def arrive (s : State) (e : Egress) : State :=
  let e := { e.here s with arrived := s.fresh }
  if e.stays s then { s with held := s.held ++ [e] }
  else storesArrive (e.perform s) (e.perform s) e.part e.cells

/-- Bytes that another agent than a core writes reach their homes, each with the COMP of its page, line by line: they wait there as
stores do (09 R187; 12_stacks.md R251). -/
def outsideWrite (s : State) (cs : List (Nat × Bool × Byte)) : State :=
  ((cs.map (fun c => c.1 / 128)).eraseDups).foldl (fun s ln =>
    let m := cs.filter (fun c => c.1 / 128 == ln)
    let e : Egress := { kind := .line (m.map (fun c => (c.1, c.2.2))), comp := m.any (·.2.1), arrived := s.fresh, outside := true }
    if e.stays s then { s with held := s.held ++ [e] } else e.perform s) s

/-- The first store that waits no longer: no earlier one for its line or bank is before it. -/
def heldDue (s : State) : Option Nat :=
  (upFrom s.held.length 0).find? (fun i => match s.held[i]? with
    | some e => !e.waits s && !(s.held.take i).any e.sameTarget
    | none => false)

/-- It is performed. -/
def performHeld (s : State) (i : Nat) : State :=
  match s.held[i]? with
  | some e =>
    let t := e.perform { s with held := s.held.eraseIdx i }
    if e.outside then t else storesArrive t t e.part e.cells
  | none => s

/-- The epochs of a core's journal that a rollback may still return to. -/
def Core.modEpochs (k : Core) (f : Epoch → Epoch) : Core := { k with image := f k.image, epochs := k.epochs.map f }

/-- The oldest `n` waiting entries of a core leave, in order; a rollback does not send them again. -/
def drainFirst (s : State) (core n : Nat) : State :=
  ((s.core core).egress.take n).foldl arrive (s.modCore core (fun k =>
    { k with egress := k.egress.drop n }.modEpochs (fun e => { e with egress := e.egress.drop n })))

/-- The entries up to the last that a release pushed out. -/
def releaseCount (es : List Egress) : Nat := (es.zip (upFrom es.length 1)).foldl (fun n x => if x.1.release then x.2 else n) 0

/-- What a release has pushed out leaves the core (10 R207). -/
def releaseDue (s : State) (core : Nat) : State :=
  if releaseCount (s.core core).egress = 0 then s else drainFirst s core (releaseCount (s.core core).egress)

/-- The WRITTEN bytes of a core, line by line. -/
def writtenLines (m : PMap Byte) : List (PMap Byte) :=
  ((m.map (fun c => c.1 / 128)).eraseDups).map (fun ln => m.filter (fun c => c.1 / 128 == ln))

/-- WRITTEN bytes leave the L1; in a SHARED sector their values stay (10 R207, R209). -/
def Core.unwrite (k : Core) (test : Nat → Bool) : Core :=
  { k with
    l1w := k.l1w.filter (fun c => !test c.1)
    l1s := (k.l1w.filter (fun c => test c.1)).foldl (fun (m : PMap Byte) (c : Nat × Byte) => if (mfind m c.1).isSome then mset m c.1 c.2 else m) k.l1s }

/-- WRITTEN bytes of a line on their way to its home. -/
def lineEntry (s : State) (core part : Nat) (m : PMap Byte) (release : Bool) : Egress :=
  { kind := .line m, comp := mget s.l2comp ((m.map (·.1)).headD 0 / 128) false, since := s.time, part := part, core := core, release := release }

/-- Bytes of a publication that are new in the message of a post that it makes (13 R264): those of the posting store, of at most 16
bytes, or a line of zeros, that ends at the last byte of the window. How wide the posting store was is not kept (DESIGN CHOICE, log 116). -/
def postedBytes (s : State) (m : PMap Byte) : List Nat :=
  (windowsHit s (m.map (·.1))).flatMap (fun x => match walk s x.1 (x.2.window + x.2.size - 1) with
    | some l =>
      let last := l.pa (x.2.window + x.2.size - 1)
      if decide (128 ≤ m.length) && m.all (fun c => c.2 == 0) then m.map (·.1) else (upFrom 16 (last + 1 - 16)).filter (fun a => a / 128 == last / 128)
    | none => [])

/-- The lines of WRITTEN bytes of which a byte satisfies a test pass to their home slices (10 R207, R214), in no defined
order: the message of a post may hold bytes of the same publication old or new (13 R264). A store that posts is a release: all that
the core has written passes with it (09 R180, R182). -/
def publishWritten (s : State) (core : Nat) (test0 : Nat → Bool) : State :=
  let lines0 := (writtenLines (s.core core).l1w).filter (fun m => m.any (fun c => test0 c.1))
  let test := if (windowsHit s (lines0.flatMap (fun m => m.map (·.1)))).isEmpty then test0 else fun _ => true
  let out := (writtenLines (s.core core).l1w).filter (fun m => m.any (fun c => test c.1))
  if out.isEmpty then s
  else
    let part := (s.partOfCore core).getD 0
    let lines := out.map (fun m => (m.map (·.1)).headD 0 / 128)
    let s1 := s.modCore core (fun k => (k.unwrite (fun a => lines.contains (a / 128))).modEpochs (fun e =>
      { e with dirty := e.dirty.filter (fun (c : Nat × Byte) => !lines.contains (c.1 / 128)) }))
    let es := out.map (fun m => { lineEntry s core part m false with arrived := s.fresh })
    let go := es.filter (fun e => !e.stays s1)
    let stay := es.filter (fun e => e.stays s1)
    let cells := go.flatMap (·.cells)
    let mid := go.foldl (fun s e => match e.kind with
      | .line m => cellsWrite s e.who e.comp (m.filter (fun c => (postedBytes s1 m).contains c.1 || Config.free s.free (98000 + c.1 % 65536) % 2 == 0))
      | _ => s) s1
    let t := go.foldl (fun s e => e.perform s) s1
    { storesArrive t mid part cells with held := t.held ++ stay }

/-- Every waiting entry of a core leaves; a store among them that posts is a release, and takes what the core has written with it (09 R180,
R182). -/
def drainEgress (s : State) (core : Nat) : State :=
  let posts := (s.core core).egress.any (fun e => !(windowsHit s e.cells).isEmpty)
  let t := drainFirst s core (s.core core).egress.length
  if posts then publishWritten t core (fun _ => true) else t

/-- A phase start: the SHARED lines filled before it are dropped (09 R180). -/
def acquire (s : State) (core : Nat) : State := s.modCore core (fun k => { k with l1s := [] })

/-- An ordinary store into the core's L1: WRITTEN bytes. -/
def l1Write (s : State) (core pa va : Nat) (bs : List Byte) (comp : Bool) : State :=
  let s := s.modCore core (fun k => { k with
    l1w := ((upFrom bs.length pa).zip bs).foldl (fun (m : PMap Byte) (c : Nat × Byte) => mset m c.1 c.2) k.l1w
    l1va := mset k.l1va (pa / 128) (va / 128) })
  noteComp s pa comp

/-- WRITTEN bytes of a line enter the egress buffer. -/
def lineOut (s : State) (core line part : Nat) (release : Bool) : State :=
  let old : PMap Byte := (s.core core).l1w.filter (fun (c : Nat × Byte) => c.1 / 128 == line)
  if old.isEmpty then s
  else s.modCore core (fun k => { k.unwrite (fun a => a / 128 == line) with egress := k.egress ++ [lineEntry s core part old release] })

/-- A store that bypasses the L1 enters the egress buffer. WRITTEN bytes of the same line enter before it, so that the
buffer keeps their order, and the L1 copy is dropped (09 R176, R179). -/
def egressPush (s : State) (core : Nat) (e : Egress) (line : Option Nat) : State :=
  let s1 := match line with
    | none => s
    | some ln => dropShared (lineOut s core ln e.part false) core ln
  s1.modCore core (fun k => { k with egress := k.egress ++ [{ e with since := s.time, core := core }] })

/-- The WRITTEN bytes of a line pass to the egress buffer; the line stays SHARED, or is dropped (10 R209). -/
def lineBack (s : State) (core line part : Nat) (keep : Bool) : State :=
  let s := lineOut s core line part false
  if keep then s else dropShared s core line

/-- A fill of bytes of a line: they become SHARED copies, the core's own waiting stores included, and what the line holds SHARED
already is read with them, so that the line shows one moment (08 R156; 09 R176, R177). -/
def l1Fill (s : State) (core pa n : Nat) : State :=
  s.modCore core (fun k => { k with
    l1s := (upFrom n pa ++ (k.l1s.filter (fun c => c.1 / 128 == pa / 128)).map (·.1)).foldl
      (fun (m : PMap Byte) a => mset m a (coreByte s core false a)) k.l1s })

/-- The sectors of a range that the L1 does not hold whole. -/
def missing (s : State) (core pa n : Nat) : List Nat :=
  (upFrom ((pa + n - 1) / 32 - pa / 32 + 1) (pa / 32)).filter (fun k => !l1Holds s core (32 * k) 32)

/-- The sectors that a range needs are filled whole, and counted (08 R156; event 0x05 of R318). -/
def fillSectors (s : State) (core pa n : Nat) : State :=
  countEvent (l1Fill s core (pa / 32 * 32) (((pa + n - 1) / 32 - pa / 32 + 1) * 32)) core 0x05 (missing s core pa n).length

/-- Whether the egress buffer of 16 entries is full (R190). -/
def egressFull (s : State) (core : Nat) : Bool := decide (16 ≤ (s.core core).egress.length)

end Sys2Proof.Machine
end

