-- ==== Sys2Proof/Machine/Access.lean ====
section
/-! DEFINITION. Thread accesses: the checks of Table 10-1 in their order (10_memory_instructions.md R196), splits
(09_consistency.md R178), bank checks (08_memories.md R149), and the reads and writes that follow them. -/

namespace Sys2Proof.Machine

/-! ## Fault codes (17_faults.md Table 17-1) -/

def fcIllegalOp : Nat := 0x01
def fcPriv : Nat := 0x02
def fcHazard : Nat := 0x03
def fcAddrInvalid : Nat := 0x10
def fcAddrPerm : Nat := 0x11
def fcMisalign : Nat := 0x12
def fcMisalignXattr : Nat := 0x13
def fcStoreNonres : Nat := 0x14
def fcIfetchNx : Nat := 0x15
def fcBankMode : Nat := 0x20
def fcBankOwner : Nat := 0x21
def fcBankCheck : Nat := 0x22
def fcBarrierClobber : Nat := 0x23
def fcBarrierState : Nat := 0x24
def fcMigRefused : Nat := 0x30
def fcMigReg : Nat := 0x31
def fcSafeGap : Nat := 0x40
def fcDeadline : Nat := 0x41
def fcStackLimit : Nat := 0x42
def fcPoisonRead : Nat := 0x43
def fcResumeLost : Nat := 0x44
def fcResumeImpossible : Nat := 0x45
def fcEngine : Nat := 0x50
def fcRowopAlign : Nat := 0x51
def fcTrap : Nat := 0x60
def fcBrk : Nat := 0x61

/-- A fault that an operation raises: its code, its address field, and whether the second half of a split met it. -/
structure Flt where
  code : Nat
  addr : Nat
  split : Bool := false
  deriving DecidableEq, Repr

/-- On whose behalf an access is made: the executing core, the task and the group, and the home core. -/
structure Who where
  core : Nat
  part : Nat
  launch : Nat
  gid : Nat
  home : Nat
  deriving DecidableEq, Repr

/-- The identity of a lane's fibre: a guest is judged as a member of its home group (08 R149). -/
def whoOf (s : State) (core slot lane : Nat) : Who :=
  match s.warp? core slot with
  | none => ⟨core, 0, 0, 0, core⟩
  | some w => match (w.lane lane).guest with
    | none => ⟨core, s.launchPart w.launch, w.launch, w.group, core⟩
    | some g =>
      ⟨core, s.launchPart g.launch, g.launch, (match s.warp? g.origin g.homeSlot with | some h => h.group | none => 0), g.origin⟩

/-- The kinds of access of Table 10-1. -/
inductive AccKind where
  | load | store | stn | atomic | zline
  deriving DecidableEq, Repr

/-- Where one half of an access lies. -/
inductive Spot where
  | glob (pa : Nat) (leaf : Leaf)
  /-- A scratchpad byte, and the core whose window named it; none: LOCALBASE. -/
  | bank (core off : Nat) (window : Option Nat)
  deriving DecidableEq, Repr

structure Half where
  va : Nat
  len : Nat
  spot : Spot
  deriving DecidableEq, Repr

/-- An access cut at a line or bank-row boundary (09 R178). -/
def halvesOf (va n : Nat) : List (Nat × Nat) :=
  if va % 128 + n ≤ 128 then [(va, n)]
  else [(va, 128 - va % 128), ((va + (128 - va % 128)) % 2 ^ 64, n - (128 - va % 128))]

/-- Check 2: the address names a mapped page of an enabled target, or a scratchpad byte. -/
def locate (s : State) (w : Who) (va : Nat) : Option Spot :=
  match regionOf va with
  | .invalid => none
  | .scratch c o => some (.bank (bankHome s c (o / 131072)) o (some c))
  | .localWin o => some (.bank w.home o none)
  | .global => match xlate s w.core w.part va with
    | none => none
    | some l => match paTarget (l.pa va) with
      | .peer port _ => if (s.peer port).up then some (.glob (l.pa va) l) else none
      | _ => some (.glob (l.pa va) l)

/-- Check 5: permission for the access kind; no atomic or STN to a peer window. -/
def permOk (k : AccKind) : Spot → Bool
  | .bank _ _ _ => true
  | .glob pa l =>
    let peer := match paTarget pa with | .peer _ _ => true | _ => false
    match k with
    | .load => l.canRead
    | .store => l.canWrite
    | .zline => l.canWrite
    | .stn => l.canWrite && !peer
    | .atomic => l.canRead && l.canWrite && !peer

/-- Check 6: the bank is allocated, owned and in storage mode (08 R149). -/
def bankFault (s : State) (w : Who) : Spot → Option Nat
  | .glob _ _ => none
  | .bank c o window =>
    let b := (s.core c).st.bank (o / 131072)
    match b.owner with
    | none => some fcBankOwner
    | some g =>
      if window = none ∧ g ≠ w.gid then some fcBankOwner
      else if window ≠ none ∧ bankLaunch s c (o / 131072) ≠ some w.launch then some fcBankOwner
      else if b.compute then some fcBankMode
      else none

/-- Whether a scratchpad unit of 16 bytes holds a live barrier word (15_counters.md R302). -/
def isLive (s : State) (core off : Nat) : Bool :=
  mget ((s.core core).st.bank (off / 131072)).live (off % 131072 / 16) false

/-- Check 7: the bytes cover a live barrier word. -/
def clobbers (s : State) : Spot → Nat → Bool
  | .glob _ _, _ => false
  | .bank c o _, n => (upFrom ((o % 16 + n + 15) / 16) (o / 16)).any (fun u => isLive s c (16 * u))

def Spot.resident : Spot → Bool
  | .glob _ l => l.resident
  | .bank _ _ _ => true

/-- The first half that fails a test, as a fault with that half's address. -/
def firstFail (hs : List Half) (code : Half → Option Nat) : Option Flt :=
  match hs with
  | [] => none
  | h :: rest => match code h with
    | some c => some ⟨c, h.va, false⟩
    | none => match rest with
      | [] => none
      | h2 :: _ => match code h2 with
        | some c => some ⟨c, h2.va, true⟩
        | none => none

/-- The checks 2 to 8 of Table 10-1 for an access of `n` bytes that must be aligned to `align`. -/
def accessCheck (s : State) (w : Who) (k : AccKind) (va n align : Nat) : Except Flt (List Half) :=
  let spots := (halvesOf va n).map (fun x => (x, locate s w x.1))
  match spots with
  | [] => .error ⟨fcAddrInvalid, va, false⟩
  | (x1, none) :: _ => .error ⟨fcAddrInvalid, x1.1, false⟩
  | (_, some _) :: (x2, none) :: _ => .error ⟨fcAddrInvalid, x2.1, true⟩
  | _ =>
    let hs : List Half := spots.filterMap (fun x => x.2.map (fun sp => ⟨x.1.1, x.1.2, sp⟩))
    if va % align ≠ 0 then .error ⟨fcMisalign, va, false⟩
    else
      let xattr := match hs with
        | [⟨_, _, .glob _ l1⟩, ⟨_, _, .glob _ l2⟩] => l1.ca != l2.ca || l1.comp != l2.comp
        | _ => false
      if xattr then .error ⟨fcMisalignXattr, va, false⟩
      else match firstFail hs (fun h => if permOk k h.spot then none else some fcAddrPerm) with
        | some f => .error f
        | none => match firstFail hs (fun h => bankFault s w h.spot) with
          | some f => .error f
          | none =>
            if k = .load then .ok hs
            else match firstFail hs (fun h => if clobbers s h.spot h.len then some fcBarrierClobber else none) with
              | some f => .error f
              | none => match firstFail hs (fun h => if h.spot.resident then none else some fcStoreNonres) with
                | some f => .error f
                | none => .ok hs

/-! ## Waits on engines and on the egress buffer -/

/-- A load of global memory is served by the L1: its policy and its page allow it, and the L1 holds every byte (10 R197; 09 R177). -/
def l1Serves (s : State) (w : Who) (cp : Nat) (leaf : Leaf) (pa n : Nat) : Bool :=
  !(cp == 1 || cp == 3 || leaf.ca == 1) && l1Holds s w.core pa n

/-- A half reaches a line that an engine owns or whose slice has no power, through the home slice, or a page table in such a slice,
or a bank that is held exclusively or still restoring (09 R187, 08 R172, 11 R229, 17 R351). -/
def mustWait (s : State) (w : Who) (isLoad : Bool) (cp : Nat) (h : Half) : Bool :=
  match h.spot with
  | .bank c o _ => bankBusy s c (o / 131072)
  | .glob pa leaf => !(isLoad && l1Serves s w cp leaf pa h.len) &&
    (xlateWaits s w.core w.part h.va || paTarget pa == .hbm && (if isLoad then lineBusy s pa else storeBusy s pa))

/-- The wait of a half that must wait. -/
def halfWait (s : State) (w : Who) (isLoad : Bool) (cp : Nat) (h : Half) : Option Park :=
  if mustWait s w isLoad cp h then
    some (match h.spot with
      | .bank c o _ => if (s.core c).restoring.contains (o / 131072) then .restoring c (o / 131072) else .owned
      | .glob _ _ => .owned)
  else none

/-- The access of a store leaves through the egress buffer: a remote bank, a peer window, an L2-only page, or a policy
that bypasses the L1 (10 R197, 08 R158, 16 R322). -/
def viaEgress (w : Who) (cp : Nat) (nib : Bool) (h : Half) : Bool :=
  match h.spot with
  | .bank c _ _ => c != w.core
  | .glob pa l => nib || cp == 1 || cp == 3 || l.ca == 1 || (match paTarget pa with | .peer _ _ => true | _ => false)

/-! ## Reads and writes of checked halves -/

/-- The bytes of one half; bytes of a non-resident page are zero (10 R198). -/
def readHalf (s : State) (w : Who) (cp : Nat) (h : Half) : List Byte :=
  match h.spot with
  | .bank c o _ => (upFrom h.len o).map (scratchByte s w.core c)
  | .glob pa l =>
    if l.resident then (upFrom h.len pa).map (coreByte s w.core (l1Serves s w cp l pa h.len))
    else List.replicate h.len 0

def readHalves (s : State) (w : Who) (cp : Nat) (hs : List Half) : List Byte := hs.flatMap (readHalf s w cp)

/-- What a load leaves in the L1 of a global line that the L1 did not serve: the sectors that it needed are filled, or, where it
allocates none, no SHARED sector stays, so that no later load of the core returns an older value (08 R156, R158, R173; 09 R176). -/
def readPast (s : State) (w : Who) (cp : Nat) (hs : List Half) : State :=
  hs.foldl (fun s h => match h.spot with
    | .glob pa l =>
      if !l.resident || l1Serves s w cp l pa h.len then s
      else if cp == 1 || cp == 3 || l.ca == 1 || paTarget pa != .hbm then dropShared s w.core (pa / 128)
      else fillSectors s w.core pa h.len
    | .bank _ _ _ => s) s

/-- A half of a global load reaches a line with a reserved tag (12 R253). -/
def meetsBadTag (s : State) (w : Who) (cp : Nat) (h : Half) : Bool :=
  match h.spot with
  | .bank _ _ _ => false
  | .glob pa l => l.resident && paTarget pa == .hbm && tagReserved s pa && !l1Serves s w cp l pa h.len &&
    (upFrom h.len pa).any (fun a => (mfind (s.core w.core).l1w a).isNone && (dirtyByte s a).isNone)

/-- A store of a fibre to another core's bank: its bank is judged for the fibre's task, through LOCALBASE for its group. -/
def remoteStore (w : Who) (h : Half) (k : EgressKind) : Egress :=
  { kind := k, part := w.part, launch := w.launch, own := match h.spot with | .bank _ _ none => some w.gid | _ => none }

/-- One half of an ordinary store. -/
def writeHalf (s : State) (w : Who) (cp : Nat) (h : Half) (bs : List Byte) : State :=
  match h.spot with
  | .bank c o _ =>
    if c = w.core then scratchWrite s c o bs
    else egressPush s w.core (remoteStore w h (.scratch c o bs)) none
  | .glob pa l =>
    if viaEgress w cp false h then
      egressPush s w.core { kind := .phys pa bs, comp := l.comp, vaddr := h.va, part := w.part } (some (pa / 128))
    else l1Write s w.core pa h.va bs l.comp

/-- A whole ordinary store. -/
def writeHalves (s : State) (w : Who) (cp : Nat) : List Half → List Byte → State
  | [], _ => s
  | h :: hs, bs => writeHalves (writeHalf s w cp h (bs.take h.len)) w cp hs (bs.drop h.len)

end Sys2Proof.Machine
end

