-- ==== Sys2Proof/Machine/Operands.lean ====
section
/-! DEFINITION. Operand forms: what an instruction reads, writes and accepts (03_instruction_words.md R51, R56 to R58,
Table 3-4), the reading of registers by lanes and by streams (04_fibre_registers.md R69 to R74; R64), the hint values
(07_shape_system.md R142 to R146). -/

namespace Sys2Proof.Machine

/-! ## What hints an instruction accepts (Table 3-4) -/

/-- The hints that an instruction accepts; SCHD is accepted by all. -/
structure Accept where
  imm1 : Bool := false
  imm2 : Bool := false
  /-- OPND naming a g register, a predicate, or an s register. -/
  opndG : Bool := false
  opndP : Bool := false
  /-- OPND naming a predicate that is written (QHAD). -/
  opndPDst : Bool := false
  opndS : Bool := false
  opndNeed : Bool := false
  rnd : Bool := false
  sat : Bool := false
  cp : Bool := false
  scord : Bool := false
  mg : Bool := false
  ecls : Bool := true
  deriving DecidableEq, Repr

/-- What an instruction reads, writes and needs, beside its effect. -/
structure Form where
  h : Hdr
  /-- The encoded operands are legal (R56, R60, R61). -/
  ok : Bool := true
  acc : Accept := {}
  /-- The field that an IMMX replaces is zero (R142). -/
  immZero : Bool := true
  src : List Nat := []
  /-- Registers that are read for the leader alone (QHAD). -/
  lead : List Nat := []
  dst : List Nat := []
  psrc : List Nat := []
  pdst : List Nat := []
  ssrc : List Nat := []
  shsrc : List Nat := []
  uniform : Bool := false
  guestOk : Bool := true
  streamOk : Bool := false
  persist : Bool := false
  isSafe : Bool := false
  /-- The energy class of an FE word, and the number of times that the cost is debited (15_counters.md R315). -/
  fe : Option Nat := none
  mult : Nat := 1
  deriving DecidableEq, Repr

/-- The registers of an operand of `n` words. -/
def regsOf (r n : Nat) : List Nat := upFrom n r

/-! ## Hint values -/

def immxOf : Hint → Option (BitVec 20)
  | .immx v => some v
  | _ => none

/-- The values of the IMMX hints held, in order. -/
def State.immxs (s : State) : List (BitVec 20) := s.cur.hints.filterMap immxOf

/-- The value that one or two IMMX hints supply (R57). -/
def State.imm (s : State) : Option Int :=
  match s.immxs with
  | [] => none
  | [a] => some (sext a.toNat 20)
  | a :: b :: _ => some (sext (a.toNat + b.toNat * 2 ^ 20) 40)

/-- The g or s register that an OPND names. -/
def State.opnd (s : State) : Option Nat :=
  s.cur.hints.findSome? (fun h => match h with | .opndReg r => some r | _ => none)

/-- The predicate that an OPND names. -/
def State.opndP (s : State) : Option Nat :=
  s.cur.hints.findSome? (fun h => match h with | .opndPred k => some k | _ => none)

/-- The rounding mode in force: MODR RM when RV = 1, else .rn (R37, R57). -/
def State.rmode (s : State) : RMode :=
  (s.cur.hints.findSome? (fun h => match h with
    | .modr rv rm _ _ _ _ _ => if rv then some (RMode.ofCode rm) else none
    | _ => none)).getD .rn

def State.sat (s : State) : Bool := s.cur.hints.any (fun h => match h with | .modr _ _ t _ _ _ _ => t | _ => false)

/-- MODR CP, SC, ORD and MG, 0 without a MODR. -/
def State.modrCp (s : State) : Nat :=
  (s.cur.hints.findSome? (fun h => match h with | .modr _ _ _ c _ _ _ => some c | _ => none)).getD 0
def State.modrSc (s : State) : Nat :=
  (s.cur.hints.findSome? (fun h => match h with | .modr _ _ _ _ c _ _ => some c | _ => none)).getD 0
def State.modrOrd (s : State) : Nat :=
  (s.cur.hints.findSome? (fun h => match h with | .modr _ _ _ _ _ o _ => some o | _ => none)).getD 0
def State.modrMg (s : State) : Nat :=
  (s.cur.hints.findSome? (fun h => match h with | .modr _ _ _ _ _ _ g => some g | _ => none)).getD 0

/-- At most three hints: two IMMX and one each of the others (R58). -/
def hintLimits (hs : List Hint) : Bool :=
  let n (p : Hint → Bool) := (hs.filter p).length
  decide (hs.length ≤ 3) &&
  decide (n (fun h => match h with | .immx _ => true | _ => false) ≤ 2) &&
  decide (n (fun h => match h with | .opndReg _ => true | .opndPred _ => true | _ => false) ≤ 1) &&
  decide (n (fun h => match h with | .modr _ _ _ _ _ _ _ => true | _ => false) ≤ 1) &&
  decide (n (fun h => match h with | .schd _ _ => true | _ => false) ≤ 1) &&
  decide (n (fun h => match h with | .ecls _ => true | _ => false) ≤ 1)

/-- One hint is accepted, a MODR by each of its non-zero fields. -/
def Accept.takes (a : Accept) : Hint → Bool
  | .immx _ => true
  | .opndReg r => a.opndG || (a.opndS && decide (r ≤ 31))
  | .opndPred _ => a.opndP || a.opndPDst
  | .modr rv rm sat cp sc ord mg =>
    (a.rnd || (!rv && rm == 0)) && (a.sat || !sat) && (a.cp || cp == 0) && (a.scord || (sc == 0 && ord == 0)) && (a.mg || mg == 0)
  | .schd _ _ => true
  | .ecls _ => a.ecls

/-- The hints held are within the limits and accepted, none required is missing, and an IMMX finds its field zero. -/
def Form.hintsOk (f : Form) (hs : List Hint) : Bool :=
  let imms := (hs.filterMap immxOf).length
  hintLimits hs && hs.all f.acc.takes &&
  (imms == 0 || (f.immZero && ((imms == 1 && f.acc.imm1) || (imms == 2 && f.acc.imm2)))) &&
  (!f.acc.opndNeed || hs.any (fun h => match h with | .opndReg _ => true | .opndPred _ => true | _ => false))

/-- The energy class: the FE field, the ECLS hint of an instruction whose hints are legal, or 0 (R146; 03 R58). -/
def State.eclass (s : State) (f : Form) : Nat :=
  match f.fe with
  | some c => c
  | none => if f.hintsOk s.cur.hints then (s.cur.hints.findSome? (fun h => match h with | .ecls c => some c | _ => none)).getD 0 else 0

/-- The g registers read and the predicates read, an OPND's included (R143). -/
def Form.srcs (f : Form) (s : State) : List Nat := f.src ++ (if f.acc.opndG then s.opnd.toList else [])
def Form.psrcs (f : Form) (s : State) : List Nat := f.psrc ++ (if f.acc.opndP then s.opndP.toList else [])

/-! ## Reading operands -/

/-- The stream of the warp of the instruction in progress. -/
def State.curStream (s : State) : Stream := s.curWarp.stream.getD { base := 0, count := 0, s := [], leader := 0, ended := true }

/-- The register `i` that a field names: g_i of the lane, or s_i of the stream's copy (R64). The reads of an instruction's
operands A, B and D are numbered 0, 1 and 2 (R54). -/
def State.g (s : State) (l i : Nat) (read : Nat := 0) : Word :=
  if s.cur.stream then mget s.curStream.s i 0 else readG s.free s.curWarp l i read

/-- A pair, the low word in the even register; g0.d reads zero in its low word (R56). -/
def State.gd (s : State) (l i : Nat) (read : Nat := 0) : DWord := pairVal (s.g l i read) (s.g l (i + 1) read)

/-- A quad as 128 bits. -/
def State.gq (s : State) (l i : Nat) (read : Nat := 0) : Nat :=
  (s.gd l i read).toNat + (s.gd l (i + 2) read).toNat * 2 ^ 64

/-- The register s_r of the warp, or of the stream's copy. -/
def State.sr (s : State) (r : Nat) (read : Nat := 0) : Word :=
  if s.cur.stream then mget s.curStream.s r 0 else readS s.free s.curWarp r read

/-- The predicate p_k of a lane; a stream has p0 only. The guard is read 0, the sources are reads 1 and 2. -/
def State.p (s : State) (l k : Nat) (read : Nat := 1) : Bool := if s.cur.stream then k == 0 else readP s.free s.curWarp l k read

/-- The second operand: the IMMX value in place of the register (R75). -/
def State.gOrImm (s : State) (l i : Nat) : Word :=
  match s.imm with
  | some v => wordOfInt v
  | none => s.g l i 1

/-- The third operand of an FC form: gD, or the register that an OPND names. -/
def State.gThird (s : State) (l d : Nat) : Word := s.g l (s.opnd.getD d) 2

/-- The members of the issuing batch, ascending. -/
def State.members (s : State) : List Nat := maskLanes s.cur.lanes

/-- The guard of a lane (R51). -/
def State.guard (s : State) (h : Hdr) (l : Nat) : Bool := readP s.free s.curWarp l h.gp.toNat != h.gn

/-- The members whose guard is true. -/
def State.active (s : State) (h : Hdr) : List Nat := s.members.filter (s.guard h)

/-- The leader of a batch-uniform instruction (R63). -/
def State.leader (s : State) (h : Hdr) : Nat :=
  if s.cur.stream then s.curStream.leader else (s.active h).headD 0

/-! ## Writing results -/

/-- Class-Z results. -/
def State.setG (s : State) (l i : Nat) (v : Word) : State := s.modCurWarp (fun w => w.writeG l i v)
def State.setGd (s : State) (l i : Nat) (v : DWord) : State :=
  s.modCurWarp (fun w => (w.writeG l i (loWord v)).writeG l (i + 1) (hiWord v))
def State.setP (s : State) (l k : Nat) (v : Bool) : State := s.modCurWarp (fun w => w.writeP l k v)

/-- A class-Z scalar result: the warp's register, or the stream's copy (R72). -/
def State.setS (s : State) (r : Nat) (v : Word) : State :=
  if s.cur.stream then
    s.modCurWarp (fun w => { w with stream := w.stream.map (fun t => { t with s := mset t.s r v }) })
  else s.modCurWarp (fun w => w.writeS r v)

/-- The destination of a class-D write of g_i: none for g0 (R69). -/
def effG (w : Warp) (l i : Nat) (v : Word) : List Eff := if i = 0 then [] else [.g l ((w.lane l).wbase + i) v]
def effGd (w : Warp) (l i : Nat) (v : DWord) : List Eff := effG w l i (loWord v) ++ effG w l (i + 1) (hiWord v)
def effGq (w : Warp) (l i : Nat) (v : Nat) : List Eff :=
  effGd w l i (BitVec.ofNat 64 v) ++ effGd w l (i + 2) (BitVec.ofNat 64 (v / 2 ^ 64))
/-- The destination of a class-D write of p_k: none for p0 (R70). -/
def effP (l k : Nat) (v : Bool) : List Eff := if k = 0 then [] else [.p l k v]

/-- The words whose results come from memory: loads, atomics, residency tests and SHLD (15_counters.md R317; 07_shape_system.md R138). -/
def memWord (w : Nat) : Bool :=
  (decide (0x50 ≤ bits w 24 7) && decide (bits w 24 7 ≤ 0x5F)) || (bits w 24 7 == 0x7C && bits w 0 2 == 0)

/-- A pending result joins the warp of the instruction in progress; one without any effect is none. -/
def State.addRes (s : State) (lanes : Word) (effs : List Eff) (fl : OpFlags) : State :=
  if effs.isEmpty && fl == 0 then s
  else
    let r : PRes := { id := s.fresh, lanes := lanes, effs := effs, flags := fl, mem := memWord s.cur.word.toNat }
    { s with fresh := s.fresh + 1 }.modCurWarp (fun w => { w with pend := w.pend ++ [r] })

/-- The class-D result of one lane. -/
def State.addLane (s : State) (l : Nat) (effs : List Eff) (fl : OpFlags) : State :=
  s.addRes (lanesMask [l]) effs fl

/-- One result for each lane, in ascending order. -/
def State.eachLane (s : State) (ls : List Nat) (f : State → Nat → State) : State := ls.foldl f s

end Sys2Proof.Machine
end

