-- ==== Sys2Proof/Machine/Device.lean ====
section
/-! DEFINITION. The reads and writes of the device's own agents at the homes (09_consistency.md R188; Table 10-4 codes),
mailbox posts (13_queues.md R263 to R265), completion counters (15_counters.md R297 to R299) and barrier words
(R302, R303). -/

namespace Sys2Proof.Machine

/-! ## Access at the homes -/

/-- The physical byte that a device agent reaches in a partition's address space, or the code of Table 10-4: 1 unmapped
or reserved, 2 forbidden, 3 not resident. -/
def devPa (s : State) (p : Nat) (wr : Bool) (va : Nat) : Except Nat Nat :=
  match regionOf va with
  | .global => match walk s p va with
    | none => .error 1
    | some l =>
      if (if wr then l.canWrite else l.canRead) then
        if l.resident then
          (match paTarget (l.pa va) with
            | .peer port _ => if (s.peer port).up then .ok (l.pa va) else .error 1
            | _ => .ok (l.pa va))
        else .error 3
      else .error 2
  | _ => .error 1

/-- `n` bytes of global memory as a device agent reads them, or the code and the address at which it fails. -/
def devRead (s : State) (p va : Nat) : Nat → Except (Nat × Nat) (List Byte)
  | 0 => .ok []
  | n + 1 => match devPa s p false va with
    | .error c => .error (c, va)
    | .ok pa => match devRead s p (va + 1) n with
      | .error e => .error e
      | .ok bs => .ok (farByte s pa :: bs)

/-- A line with a reserved tag of which the L2 holds no byte here (12_stacks.md R253). -/
def lostByte (s : State) (pa : Nat) : Bool := paTarget pa == .hbm && tagReserved s pa && (dirtyByte s pa).isNone

/-- A read by a device agent that meets a reserved tag takes zeros, and the line is rewritten (12 R253, R255). -/
def clearRead (s : State) (p va n : Nat) : State :=
  (upFrom n va).foldl (fun s a => match devPa s p false a with
    | .ok pa => if lostByte s pa then clearTagged s pa else s
    | .error _ => s) s

/-- One byte that an engine writes at the home, or sends to a peer. -/
def paWrite (s : State) (pa : Nat) (b : Byte) : State :=
  match paTarget pa with
  | .peer port off => s.modPeer port (fun p => { p with sent := p.sent ++ [(off, b)] })
  | _ => homeWrite s pa b

/-- The page of an address carries COMP (12_stacks.md R254). -/
def vaComp (s : State) (p va : Nat) : Bool :=
  match walk s p va with
  | some l => l.comp
  | none => false

/-- The physical bytes of a range that a device agent writes. -/
def devPas (s : State) (p va : Nat) : Nat → Except (Nat × Nat) (List Nat)
  | 0 => .ok []
  | n + 1 => match devPa s p true va with
    | .error c => .error (c, va)
    | .ok pa => match devPas s p (va + 1) n with
      | .error e => .error e
      | .ok ps => .ok (pa :: ps)

/-- Bytes at virtual addresses as they reach their homes: physical address, COMP of the page, and value. -/
def vaCells (s : State) (p va : Nat) (ps : List Nat) (bs : List Byte) : List (Nat × Bool × Byte) :=
  ps.zip (((upFrom bs.length va).map (vaComp s p)).zip bs)

/-- Bytes written by a device agent, all or none. -/
def devWrite (s : State) (p va : Nat) (bs : List Byte) : Except (Nat × Nat) State :=
  match devPas s p va bs.length with
  | .error e => .error e
  | .ok ps => .ok (outsideWrite s (vaCells s p va ps bs))

/-! ## Mailbox posts (R264, R265) -/

/-- Who posts a message. -/
inductive Poster where
  | device (part : Nat)
  | master (m : Nat)
  | peer (port : Nat)
  deriving DecidableEq, Repr

/-- The binding at a window address: its partition, entry and contents. -/
def findBind (s : State) (window : Nat) : Option (Nat × Nat × Bind) :=
  if window = 0 then none
  else s.parts.findSome? (fun p => p.2.binds.findSome? (fun b => if b.2.window = window then some (p.1, b.1, b.2) else none))

def State.modBind (s : State) (p i : Nat) (f : Bind → Bind) : State :=
  s.modPart p (fun x => { x with binds := mmod x.binds i f })

/-- The ownership check of R265; a RETIRED module takes no post (16_tables.md R335, Closed). -/
def mayPost (s : State) (who : Poster) (part : Nat) : Bool :=
  s.security != .retired &&
  match who with
  | .device p => p == part
  | .master m => (s.part part).master == m
  | .peer port => bitOf (s.part part).peerpost port

/-- `n` bytes, zero-filled or truncated. -/
def fitBytes (bs : List Byte) (n : Nat) : List Byte := (bs ++ List.replicate (n - bs.length) 0).take n

/-- Sixteen shape images, of which none is read when one cannot be (07_shape_system.md R131). -/
def readImages (s : State) (p ptr : Nat) : List (BitVec 512) :=
  if ptr = 0 then List.replicate 16 0
  else match devRead s p ptr 1024 with
    | .error _ => []
    | .ok bs => (upFrom 16 0).map (fun i => BitVec.ofNat 512 (ofBytesLE ((bs.drop (64 * i)).take 64)))

/-- A field of a task header (Table 13-1). -/
def Header.field (h : Header) (off n : Nat) : Nat := ofBytesLE ((h.bytes.drop off).take n)
def Header.shapeImg (h : Header) : Nat := h.field 208 8

/-- An accepted message makes a launch in HEADER; its header and images are read at that moment (R261, R266). A message
to a completion or handler mailbox raises the partition's vector to the host (18_power_host.md R366). -/
def acceptMessage (s : State) (p i : Nat) (b : Bind) (msg : List Byte) : State :=
  let bytes := match devRead s p b.header 256 with | .ok bs => bs | .error _ => []
  let h : Header := ⟨bytes⟩
  let imgs := if bytes.isEmpty then [] else readImages s p h.shapeImg
  let s := clearRead s p b.header 256
  let l : Launch := { part := p, header := h, images := imgs, message := fitBytes msg b.size, window := b.window, seq := b.seq, time := s.time }
  let s := s.modBind p i (fun x => { x with queued := x.queued + 1, seq := x.seq + 1 })
  let s := if s.launches.any (fun x => x.2.part == p && (x.2.header.field 192 8 == b.window || x.2.header.field 200 8 == b.window)) then
      s.modPart p (fun x => { x with msix := x.msix + 1 }) else s
  { s with launches := mset s.launches s.fresh l, fresh := s.fresh + 1 }

/-- A post is decided (R265): status 0 accepted, 1 queue full, 2 not bound, 3 refused by ownership. `none` for the
message takes the window's bytes as they stand. -/
def post (s : State) (who : Poster) (window : Nat) (msg : Option (List Byte)) : Nat × State :=
  match findBind s window with
  | none => (2, s)
  | some (p, i, b) =>
    if !mayPost s who p then (3, s)
    else if b.queued ≥ b.depth then (1, s)
    else (0, acceptMessage s p i b (msg.getD (windowBytes s p b.window b.size)))

/-- The refusal count of a binding (Table 16-6). -/
def countRefusal (s : State) (window : Nat) : State :=
  match findBind s window with
  | none => s
  | some (p, i, _) => s.modBind p i (fun b => { b with refused := min (b.refused + 1) 0xFFFFFFFF })

/-! ## Completion counters (R297, R298) -/

/-- Where a counter lies. -/
inductive CtrSpot where
  /-- A physical byte, and the COMP of its page. -/
  | glob (pa : Nat) (comp : Bool)
  | bank (core off : Nat)
  deriving DecidableEq, Repr

/-- The home of a counter named by an agent of a core. -/
def ctrSpot (s : State) (p core va : Nat) : Option CtrSpot :=
  match regionOf va with
  | .global => match walk s p va with
    | some l => if l.resident then some (.glob (l.pa va) l.comp) else none
    | none => none
  | .scratch c o => some (.bank (bankHome s c (o / 131072)) o)
  | .localWin o => some (.bank core o)
  | .invalid => none

/-- The sixteen bytes of a counter at its home. -/
def ctrRead (s : State) : CtrSpot → Nat
  | .glob pa _ => ofBytesLE ((upFrom 16 pa).map (farByte s))
  | .bank c o => ofBytesLE (memReads (s.core c).st.scratch o 16)

/-- The sixteen bytes written at the home; no line of a peer's window is cached in the module (08_memories.md R158). -/
def ctrWrite (s : State) (v : Nat) : CtrSpot → State
  | .glob pa comp => outsideWrite s ((upFrom 16 pa).zip ((bytesLE 16 v).map (fun b => (comp, b))))
  | .bank c o => scratchWrite s c o (bytesLE 16 v)

def ctrValue (v : Nat) : Nat := bits v 0 64
def ctrCode (v : Nat) : Nat := bits v 64 8

/-- STATUS after an update: the first failure code stands with its INFO, the path bits are joined (R298). -/
def ctrStatus (old code info path : Nat) : Nat :=
  let st := if bits old 0 8 = 0 ∧ code ≠ 0 then setBits (setBits old 0 8 code) 14 50 info else old
  setBits st 12 2 (bits st 12 2 ||| path)

/-- The new contents of a counter: VALUE advanced, STATUS updated (R298). -/
def ctrNext (old add code info path : Nat) : Nat :=
  (ctrValue old + add) % 2 ^ 64 + ctrStatus (bits old 64 64) code info path * 2 ^ 64

/-- One update of a counter by a device agent, or the post that stands in its place, with the status of the post (R264, R298). A
counter that cannot be reached is not updated. -/
def counterPost (s : State) (p core va add code info path : Nat) : Nat × State :=
  match findBind s va with
  | some _ => post s (.device p) va (some (bytesLE 8 add ++ bytesLE 8 (ctrStatus 0 code info path)))
  | none => match ctrSpot s p core va with
    | none => (0, s)
    | some sp => (0, ctrWrite s (ctrNext (ctrRead s sp) add code info path) sp)

def counterUpdate (s : State) (p core va add code info path : Nat) : State := (counterPost s p core va add code info path).2

/-- The same where address 0 names no counter: in a header (13 Table 13-1) and in a transfer record (13 Table 13-9). -/
def namedUpdate (s : State) (p core va add code info path : Nat) : State :=
  if va = 0 then s else counterUpdate s p core va add code info path

/-! ## Barrier words (R302, R303) -/

def bwRead (s : State) (core off : Nat) : Nat := ofBytesLE (memReads (s.core core).st.scratch off 16)
def bwPhase (v : Nat) : Bool := bitOf v 31
def bwExpect (v : Nat) : Nat := bits v 16 12
def bwPending (v : Nat) : Nat := bits v 0 12
def bwDue (v : Nat) : Nat := bits v 64 32

/-- The phase completes when PENDING and DUE are both zero (R303). -/
def bwSettle (v : Nat) : Nat :=
  if bwPending v = 0 ∧ bwDue v = 0 then setBits (setBits v 31 1 (1 - b2n (bwPhase v))) 0 12 (bwExpect v) else v

/-- An arrival that announces `owed` completions; `none` when no arrival is owed (R306). -/
def bwArrive (v owed : Nat) : Option Nat :=
  if bwPending v = 0 then none
  else some (bwSettle (setBits (setBits v 64 32 (bwDue v + owed)) 0 12 (bwPending v - 1)))

/-- A .bw completion, successful or failed with a code (R303). -/
def bwDone (v code : Nat) : Nat :=
  let v := setBits v 64 32 (bwDue v + 2 ^ 32 - 1)
  let v := if code = 0 then v else
    let v := setBits v 30 1 1
    if bits v 32 8 = 0 then setBits v 32 8 code else v
  bwSettle v

end Sys2Proof.Machine
end

