-- ==== Sys2Proof/Machine/Results.lean ====
section
/-! DEFINITION. Pending class-D results and S parks (03_instruction_words.md R52 to R54), parking and release
(06_control_state.md R110, R111), the journal's commits (08_memories.md R169) and the publication of stores
(09_consistency.md R180, R190, R191). -/

namespace Sys2Proof.Machine

/-! ## Results become visible -/

/-- A result takes its place in the registers of its warp: in a scalar register for every batch of the warp at once (04_fibre_registers.md
R72; DESIGN CHOICE, log 112). -/
def Warp.applyEff (w : Warp) : Eff → Warp
  | .g l r v => w.modLane l (fun x => { x with regs := mset x.regs r v, poison := mdel x.poison r })
  | .p l k v => w.modLane l (fun x =>
      { x with pw := if v then x.pw ||| BitVec.ofNat 16 (2 ^ k) else x.pw &&& ~~~(BitVec.ofNat 16 (2 ^ k)) })
  | .s r v => { w with s := mset w.s r v }
  | .m k v => { w with m := mset w.m k v }
  | .shape _ _ => w
  | .shapeField _ _ _ _ => w

/-- Effects on the shape registers of the context (07_shape_system.md R137). -/
def Ctx.applyEff (c : Ctx) : Eff → Ctx
  | .shape n v => { c with sh := mset c.sh n v }
  | .shapeField n lo len v => { c with sh := mset c.sh n (BitVec.ofNat 512 (setBits (mget c.sh n 0).toNat lo len v)) }
  | _ => c

/-- The parts of a field of a shape register, bits `lo'` to `lo' + len' - 1`, outside a field written later. -/
def fieldLeft (lo len n lo' len' v : Nat) : List Eff :=
  let top := max lo' (lo + len)
  (if lo' < lo then [.shapeField n lo' (min len' (lo - lo')) v] else []) ++
  (if top < lo' + len' then [.shapeField n top (lo' + len' - top) (v / 2 ^ (top - lo'))] else [])

/-- What is left of an earlier effect once a later one has been written (R54): nothing where the later writes all that the
earlier would, the later field within an earlier whole shape register, and of an earlier field the bits that the later does not
write (07_shape_system.md R137). -/
def Eff.after (later : Eff) (e : Eff) : List Eff :=
  match later, e with
  | .g l r _, .g l' r' _ => if l = l' ∧ r = r' then [] else [e]
  | .p l k _, .p l' k' _ => if l = l' ∧ k = k' then [] else [e]
  | .s r _, .s r' _ => if r = r' then [] else [e]
  | .m k _, .m k' _ => if k = k' then [] else [e]
  | .shape n _, .shape n' _ => if n = n' then [] else [e]
  | .shape n _, .shapeField n' _ _ _ => if n = n' then [] else [e]
  | .shapeField n lo len v, .shape n' u => if n = n' then [.shape n' (BitVec.ofNat 512 (setBits u.toNat lo len v))] else [e]
  | .shapeField n lo len _, .shapeField n' lo' len' v => if n = n' then fieldLeft lo len n lo' len' v else [e]
  | _, _ => [e]

/-- An earlier pending result after a later one has been written: what it would still write, and the accumulator reads whose
registers have not been written since. -/
def PRes.after (later : List Eff) (q : PRes) : PRes :=
  { q with
    effs := later.foldl (fun (es : List Eff) x => es.flatMap (Eff.after x)) q.effs
    acc := q.acc.filter (fun a => !later.any (fun x => match x with | .g l r _ => a.1 == l && a.2.1 == r | _ => false)) }

/-- The flags of a result join OPF of the context, or the guest's own flags (07 R141, 15 R316). -/
def orFlags (s : State) (core slot : Nat) (lanes : Word) (fl : OpFlags) : State :=
  if fl = 0 then s
  else match s.warp? core slot with
    | none => s
    | some w =>
      if w.isGuest then
        (maskLanes lanes).foldl (fun s l => s.modLane core slot l (fun x =>
          { x with guest := x.guest.map (fun g => { g with gfl := g.gfl ||| fl }) })) s
      else s.modCtx core w.launch (fun c => { c with opf := c.opf ||| fl })

/-- A pending result is written: its destinations, its flags; earlier results for the same registers are superseded (R54). -/
def deliver (s : State) (core slot : Nat) (r : PRes) : State :=
  let s := s.modWarp core slot (fun w =>
    let w := r.effs.foldl Warp.applyEff w
    { w with pend := (w.pend.filter (fun q => q.id != r.id)).map (fun q => if q.id < r.id then q.after r.effs else q) })
  let s := match s.warp? core slot with
    | some w => s.modCtx core w.launch (fun c => r.effs.foldl Ctx.applyEff c)
    | none => s
  orFlags s core slot r.lanes r.flags

/-- A result waits neither for a hold nor for a loop's completion. -/
def PRes.ready (r : PRes) : Bool := r.acc.isEmpty && r.op.isNone && r.hold.isNone

/-- The result numbered `id` of a warp is written now, if nothing else delays it. -/
def deliverId (s : State) (core slot id : Nat) : State :=
  match s.warp? core slot with
  | none => s
  | some w => match w.pend.find? (fun r => r.id == id) with
    | some r => if r.ready then deliver s core slot r else s
    | none => s

/-- Every result of a warp that meets a test and delays on nothing is written, in order of issue. -/
def deliverWarp (s : State) (core slot : Nat) (p : PRes → Bool) : State :=
  match s.warp? core slot with
  | none => s
  | some w => (w.pend.filter p).foldl (fun s r => deliverId s core slot r.id) s

/-- Every result of a core that can be written is written. -/
def deliverCore (s : State) (core : Nat) : State :=
  (s.core core).st.warps.foldl (fun s x => deliverWarp s core x.1 (fun _ => true)) s

/-- A result touches one of the lanes. -/
def PRes.touches (r : PRes) (lanes : Word) : Bool := r.lanes &&& lanes != 0

/-- Results that an S park of the lanes waits for. -/
def pending (w : Warp) (lanes : Word) : Bool := w.pend.any (fun r => r.touches lanes)

/-- Results that a persist point waits for: all but an MLOOP's completion (R191). -/
def pendingPersist (w : Warp) (lanes : Word) : Bool := w.pend.any (fun r => r.touches lanes && r.op.isNone)

/-- An accumulator instruction of the core waits for its hold, and with it every commit of the core (R169). -/
def commitWaits (s : State) (core : Nat) : Bool :=
  (s.core core).st.warps.any (fun x => x.2.pend.any (fun r => r.hold.isSome))

/-! ## Parking and release -/

/-- A batch's parking at issue: its members stand at the instruction with its hints, to issue it again (R169, log 8). -/
def parkAtIssue (s : State) (ls : List Nat) (why : Park) : State :=
  let t := s.fresh
  let s := { match why with | .restoring c b => askBanks s c [b] | _ => s with fresh := t + 1 }
  ls.foldl (fun s l => s.modCurLane l (fun x =>
    { x with state := .parked, park := why, pc := s.cur.hpc, hints := s.cur.hints, hpc := s.cur.hpc, tag := t, counted := true })) s

/-- Members park after the instruction. -/
def parkAfter (s : State) (ls : List Nat) (why : Park) : State :=
  ls.foldl (fun s l => s.modCurLane l (fun x => { x with state := .parked, park := why })) s

/-- A result that an S park awaits is still pending. -/
def owedHeld (w : Warp) (o : List (Word × Nat)) : Bool :=
  o.any (fun x => w.pend.any (fun r => r.touches x.1 && decide (r.id < x.2)))

/-- What a lane owes when its wait ends: what it owed, and the results of the lanes that end the same wait with it, which the marked
instruction may just have given them (R52). -/
def owedNow (w : Warp) (ls : List Nat) (t l : Nat) : List (Word × Nat) :=
  let o := (w.lane l).owed
  if o.isEmpty then [] else o ++ [(lanesMask (ls.filter (fun k => (w.lane k).owed == o)), t)]

/-- S parks entered are counted (15_counters.md R318, event 0x04). -/
def countParks (s : State) (core n : Nat) : State := if n = 0 then s else countEvent s core 0x04 n

/-- Lanes end a park: an S park that they still owe follows (R52), else they are READY. -/
def endPark (s : State) (core slot : Nat) (ls : List Nat) : State :=
  match s.warp? core slot with
  | none => s
  | some w =>
    let t := s.fresh
    let stay := ls.filter (fun l => owedHeld w (owedNow w ls t l))
    let n := ((stay.map (fun l => (w.lane l).owed)).eraseDups).length
    let s := { countParks s core n with fresh := t + 1 }
    ls.foldl (fun s l => s.modLane core slot l (fun x =>
      if stay.contains l then { x with state := .parked, park := .switchMark, owed := owedNow w ls t l, tag := t }
      else x.released)) s

/-- Lanes parked at an instruction go on after it (06 R110; R52). -/
def goOn (s : State) (core slot : Nat) (ls : List Nat) : State :=
  endPark (ls.foldl (fun s l => s.modLane core slot l (fun x =>
    { x with pc := pcAfter x.hpc (x.hints.length + 1), hints := [], hpc := 0, tag := 0, counted := false })) s) core slot ls

/-- The S park of a marked instruction awaits the results of every member, one that faults at it included (R52): READY members
park, members that park or nap otherwise owe it; a member that stands at the instruction again meets it there. -/
def sPark (s : State) (core slot : Nat) (ls : List Nat) : State :=
  match s.warp? core slot with
  | none => s
  | some w =>
    let live := ls.filter (fun l => (w.lane l).state == .ready || (w.lane l).state == .parked || (w.lane l).state == .napping)
    if pending w (lanesMask ls) then
      let t := s.fresh
      let s := { countParks s core (b2n (live.any (fun l => (w.lane l).state == .ready))) with fresh := t + 1 }
      live.foldl (fun s l => s.modLane core slot l (fun x =>
        if x.state = .ready then { x with state := .parked, park := .switchMark, tag := t, owed := [(lanesMask ls, t)] }
        else if x.counted then x
        else { x with owed := [(lanesMask ls, t)] })) s
    else s

/-- The lanes parked with a lane at its S park or its persist park. -/
def parkMates (w : Warp) (l : Nat) : List Nat :=
  (upFrom 32 0).filter (fun k => (w.lane k).state == .parked && (w.lane k).park == (w.lane l).park && (w.lane k).tag == (w.lane l).tag &&
    (w.lane k).owed == (w.lane l).owed)

/-- The S park or the persist park of a lane can end (R52, R191). -/
def parkOver (s : State) (core : Nat) (w : Warp) (l : Nat) : Bool :=
  (w.lane l).state == .parked &&
  (match (w.lane l).park with
    | .switchMark => !owedHeld w (w.lane l).owed
    | .persist => !pendingPersist w (lanesMask (parkMates w l)) && !commitWaits s core
    | _ => false)

/-- The S park or the persist park of a lane's batch ends. -/
def releasePark (s : State) (core slot l : Nat) : State :=
  match s.warp? core slot with
  | none => s
  | some w =>
    if parkOver s core w l then
      (parkMates w l).foldl (fun s k => s.modLane core slot k Lane.released) s
    else s

/-- Batches and streams of a core that parked for a reason issue their instruction again. -/
def wake (s : State) (core : Nat) (why : Park → Bool) : State :=
  s.modSt core (fun k => { k with warps := k.warps.map (fun x => (x.1, { x.2 with
    lanes := x.2.lanes.map (fun y => (y.1, if y.2.state = .parked ∧ why y.2.park then y.2.released else y.2))
    stream := x.2.stream.map (fun t => if t.park = .retry then { t with park := .none } else t) })) })

def wakeAll (s : State) (why : Park → Bool) : State := s.cores.foldl (fun s c => wake s c.1 why) s

/-! ## Commits and publication -/

/-- The accumulator entries that a commit records: a region that a loop holds is recorded at its values before the loop
(11_banks_matrix.md R244). -/
def journalAcc (s : State) (core : Nat) : PMap Word :=
  s.engines.foldl (fun (m : PMap Word) (e : Nat × Engine) =>
    e.2.before.foldl (fun (m : PMap Word) (x : Nat × Word) => if x.1 / 65536 = core then mset m (x.1 % 65536) x.2 else m) m) (s.core core).st.acc

/-- The number of a core's next epoch. -/
def Core.epochNext (k : Core) : Nat := ((k.epochs.getLast?).getD k.image).seq + 1

/-- The last intact epoch of a core, else its images. -/
def Core.lastEpoch (k : Core) : Epoch := ((k.epochs.filter (·.intact)).getLast?).getD k.image

/-- The command of an engine intent, as it is captured (08 Table 8-6). -/
def Intent.command (s : State) (i : Intent) : Option (Nat × Nat × Word × List (BitVec 512)) :=
  match i with
  | .engine op => (mfind s.engines op).map (fun e => (op, e.ctr, e.word, e.shapes))
  | _ => none

/-- The epoch that a commit of a core writes as the core stands, with its records' contents (08 R168, R169). -/
def epochNow (s : State) (core cause : Nat) (intents : List Intent) : Epoch :=
  let k := s.core core
  { snap := { k.st with acc := journalAcc s core }, dirty := k.l1w, cause := cause, time := s.time, seq := k.epochNext
    intents := intents, egress := k.egress, fresh := s.fresh, lines := k.l1va, commands := intents.filterMap (·.command s)
    results := k.returned, free := s.free, prior := k.lastEpoch.snap, buf := k.journalBuf }

/-- An epoch joins a core's journal. -/
def Core.journalled (k : Core) (e : Epoch) : Core := { k with epochs := k.epochs ++ [e], journals := k.journals ++ [e] }

/-- A commit of a core's journal (R169): results are written first; the epoch holds the shadowed state, the dirty bytes
and the intents. Shuttles that the core has received need not be kept by their senders any longer (14_shuttles.md R295). -/
def commitCore (s : State) (core cause : Nat) (intents : List Intent) : State :=
  let s := deliverCore s core
  let s := { s with transit := s.transit.filter (fun x => !(x.settled && x.target == core)) }
  s.modCore core (fun k => { k.journalled (epochNow s core cause intents) with returned := [], st := { k.st with rows := [] } })

/-- The journal goes on in its other buffer, which no longer holds what it held (R170). -/
def switchBuffer (s : State) (core : Nat) : State :=
  s.modCore core (fun k => { k with journalBuf := 1 - k.journalBuf, journals := k.journals.filter (fun e => e.buf == k.journalBuf) })

/-- Publication at .motif or wider, completed at once, with the intents of the act: the core commits, its egress buffer drains and its WRITTEN
bytes pass to their homes (R190, R191; 10_memory_instructions.md R207). -/
def releaseWideWith (s : State) (core : Nat) (intents : List Intent) : State :=
  let s := commitCore s core 0 intents
  let s := drainEgress s core
  let s := wake s core (fun p => p == .egress)
  publishWritten s core (fun _ => true)

def releaseWide (s : State) (core : Nat) : State := releaseWideWith s core []

/-- A release whose bytes are on their way: the WRITTEN bytes enter the egress buffer, and the core commits; what has entered leaves
before the core does anything else that another agent can see (10 R207; `releaseDue`). -/
def releaseLate (s : State) (core : Nat) : State :=
  let s := (writtenLines (s.core core).l1w).foldl (fun s m => lineOut s core ((m.map (·.1)).headD 0 / 128) ((s.partOfCore core).getD 0) true) s
  commitCore (s.modCore core (fun k => { k with
    egress := (k.egress.take (k.egress.length - 1)) ++ (k.egress.drop (k.egress.length - 1)).map (fun e => { e with release := true }) })) core 0 []

/-- A release through the egress buffer, at once where the buffer cannot hold it. -/
def releaseOut (s : State) (core : Nat) : State :=
  if (s.core core).egress.length + (writtenLines (s.core core).l1w).length < 16 then releaseLate s core else releaseWide s core

/-- A persist point: the core commits with the intents of the act, and its egress buffer drains (R190, R191). -/
def persistPoint (s : State) (core : Nat) (intents : List Intent) : State :=
  wake (drainEgress (commitCore s core 0 intents) core) core (fun p => p == .egress)

/-- An egress buffer found full after an instruction commits and drains (R190), unless a result delays the commit. -/
def egressSettle (s : State) (core : Nat) : State :=
  if egressFull s core && !commitWaits s core then persistPoint s core [] else s

/-! ## Barrier words -/

/-- Waiters whose phase has passed are released with an acquire at .core (15_counters.md R306). -/
def releaseBarrier (s : State) (core off : Nat) : State :=
  let ph := bwPhase (bwRead s core off)
  (s.core core).st.warps.foldl (fun s x =>
    let ls := (upFrom 32 0).filter (fun l => (x.2.lane l).state == .parked && (match (x.2.lane l).park with
      | .bwwait o b => o == off && b != ph
      | _ => false))
    if ls.isEmpty then s else acquire (goOn s core x.1 ls) core) s

/-- A barrier word takes a new value; waiters see a completed phase. -/
def bwWrite (s : State) (core off v : Nat) : State :=
  let done := bwPhase v != bwPhase (bwRead s core off)
  let s := scratchWrite s core off (bytesLE 16 v)
  if done then releaseBarrier (countEvent s core 0x0D 1) core off else s

end Sys2Proof.Machine
end

