-- ==== Sys2Proof/Machine/Ops.lean ====
section
/-! DEFINITION. Shared operations of the control state: the trace ring (15_counters.md R319, R320), taking a fault
(17_faults.md R339 to R346), the release of WAITM (06_control_state.md R117), the return from a fault (R129), the
departures home (14_shuttles.md R288, R291) and the end of a fibre (R124). -/

namespace Sys2Proof.Machine

/-! ## The trace ring -/

/-- The order in which entries of one front-end cycle are kept: faults, marks, calls and returns, branches, samples (R319). -/
def traceRank (kind : Nat) : Nat :=
  if kind = 4 then 5 else if kind = 6 then 4 else if kind = 2 ∨ kind = 3 then 3 else if kind = 1 then 2 else if kind = 5 then 1 else 0

/-- The latest entry of the ring's kind. -/
def CoreSt.traceLast (k : CoreSt) : Nat := match mfind k.trace ((k.traceCount - 1) % 256) with | some e => e.kind | none => 0

/-- An entry begins a front-end cycle of its own: the first of its TIME, or another by a free choice (log 89). -/
def traceBegins (s : State) (core kind slot lane : Nat) : Bool :=
  (s.core core).st.traceCount == 0 || (s.core core).st.traceAt != s.time ||
  Config.free s.free (64000 + 2048 * kind + 32 * slot + lane) % 2 == 0

/-- The ring after an entry: in the next slot, in the place of a lower one of its cycle, or dropped. -/
def CoreSt.traced (k : CoreSt) (begins : Bool) (e : TraceEntry) : PMap TraceEntry :=
  if begins then mset k.trace (k.traceCount % 256) e
  else if traceRank e.kind ≤ traceRank k.traceLast then k.trace
  else mset k.trace ((k.traceCount - 1) % 256) e

/-- An entry joins the trace ring of a core. Entries of one TIME may fall in one front-end cycle, of which the ring keeps the
first of the highest rank; the other is dropped and counted (R319, log 89). -/
def traceAdd (s : State) (core kind : Nat) (guest : Bool) (slot lane loc : Nat) : State :=
  let b := traceBegins s core kind slot lane
  let e : TraceEntry := ⟨bits s.time 4 32, kind, guest, slot, lane, loc % 2 ^ 80⟩
  s.modCore core (fun k => { k with
    evc := if b then k.evc else k.counted 0x0C 1
    st := { k.st with
      trace := k.st.traced b e, traceCount := if b then k.st.traceCount + 1 else k.st.traceCount
      traceAt := if b then s.time else k.st.traceAt } })

/-- LOC of a taken branch, call or return (Table 15-11). -/
def branchLoc (src dst : Nat) : Nat :=
  let d : Int := ((src : Int) - (dst : Int)) / 4
  let f := if d < -(2 ^ 24) ∨ d > 2 ^ 24 - 1 then 0x1000000 else wrapInt d 25
  bits dst 2 55 * 2 ^ 25 + f

/-! ## Fault records (R340, Table 17-2) -/

/-- The fault handle of a record. -/
def handleOf (core slot lane : Nat) (fseq : Word) : Nat :=
  core * 2 ^ 56 + slot * 2 ^ 50 + lane * 2 ^ 45 + fseq.toNat

/-- The 64 bytes of a record. -/
def recordBytes (r : FaultRec) : List Byte :=
  bytesLE 8 (r.code * 2 ^ 56 + bits r.pc.toNat 2 55) ++ bytesLE 8 r.addr.toNat ++ bytesLE 4 r.batch.toNat ++
  bytesLE 4 r.insn.toNat ++ bytesLE 8 (handleOf r.core r.warp r.lane r.fseq) ++
  [BitVec.ofNat 8 r.detail,
   BitVec.ofNat 8 (b2n r.taskwide * 64 + b2n r.leader * 16 + b2n r.split * 8 + b2n r.guest * 4 + b2n r.stream * 2 + b2n r.hinted),
   BitVec.ofNat 8 r.leadlane, 0] ++
  bytesLE 4 r.msnap.toNat ++ (upFrom 6 0).flatMap (fun i => bytesLE 4 (r.mvals.getD i 0).toNat)

/-- A record template: a fault of an instruction before it is joined to its lane. -/
def FaultRec.blank : FaultRec :=
  { code := 0, pc := 0, addr := 0, batch := 0, insn := 0, core := 0, warp := 0, lane := 0, fseq := 0, detail := 0, taskwide := false,
    leader := false, split := false, guest := false, stream := false, hinted := false, leadlane := 0, msnap := 0, mvals := [], after := 0 }

/-- A record is placed in the ring that FAULTQ names (R343). -/
def ringPlace (s : State) (p : Nat) (fq : DWord) (bytes : List Byte) : State :=
  let base := bits fq.toNat 12 45 * 4096
  let n := 2 ^ (bits fq.toNat 0 4 + 4)
  if base = 0 then s
  else match devRead s p base 24 with
    | .error _ => s
    | .ok ctl =>
      let wr := ofBytesLE (ctl.take 8)
      let rd := ofBytesLE ((ctl.drop 8).take 8)
      let lost := ofBytesLE (ctl.drop 16)
      let lose := match devWrite s p (base + 16) (bytesLE 8 (lost + 1)) with | .ok s => s | .error _ => s
      if (wr + 2 ^ 64 - rd) % 2 ^ 64 ≥ n then lose
      else match devWrite s p (base + 64 + 64 * (wr % n)) bytes with
        | .error _ => lose
        | .ok s1 => match devWrite s1 p base (bytesLE 8 (wr + 1)) with
          | .error _ => lose
          | .ok s2 => s2

/-- FAULTQ of a launch's context on a core. -/
def faultqOf (s : State) (core launch : Nat) : DWord :=
  match (s.core core).st.ctx? launch with
  | some c => c.faultq
  | none => 0

/-- The masks of a warp that hold a lane's bit. -/
def masksOf (w : Warp) (l : Nat) : List Nat := (upFrom 12 0).filter (fun k => bitOf (w.mask k).toNat l)

/-- A fibre at home takes a fault: FSEQ advances, the record is formed and kept, the lane enters FAULTED at the faulting
instruction with SAFECNT 0 and no hint, the record is placed in the ring (R340, R341, R343). -/
def enterFault (s : State) (core slot l : Nat) (tpl : FaultRec) : State :=
  match s.warp? core slot with
  | none => s
  | some w =>
    let ms := masksOf w l
    let r : FaultRec := { tpl with
      core := core, warp := slot, lane := l, fseq := (w.lane l).fseq + 1,
      msnap := BitVec.ofNat 12 (ms.foldl (fun a k => a + 2 ^ k) 0), mvals := (ms.take 6).map w.mask }
    let s := s.modLane core slot l (fun x => { x with
      state := .faulted, park := .none, fseq := x.fseq + 1, record := some r, safecnt := 0, hints := [], hpc := 0,
      tag := 0, counted := false, owed := [], defer := 0, pc := r.pc })
    ringPlace s (s.launchPart w.launch) (faultqOf s core w.launch) (recordBytes r)

/-- A notice of a fibre at home: the record is counted, kept and queued, and the fibre goes on (R339). -/
def noticeAt (s : State) (core slot l : Nat) (tpl : FaultRec) : State :=
  match s.warp? core slot with
  | none => s
  | some w =>
    let ms := masksOf w l
    let r : FaultRec := { tpl with
      core := core, warp := slot, lane := l, fseq := (w.lane l).fseq + 1,
      msnap := BitVec.ofNat 12 (ms.foldl (fun a k => a + 2 ^ k) 0), mvals := (ms.take 6).map w.mask }
    let s := s.modLane core slot l (fun x => { x with fseq := x.fseq + 1, record := some r })
    ringPlace s (s.launchPart w.launch) (faultqOf s core w.launch) (recordBytes r)

/-- A notice; a guest's names its home core, warp and lane, and counts in the fibre's own FSEQ there (R340). -/
def noticeFault (s : State) (core slot l : Nat) (tpl : FaultRec) : State :=
  match s.warp? core slot with
  | none => s
  | some w => match (w.lane l).guest with
    | none => noticeAt s core slot l tpl
    | some g => noticeAt s g.origin g.homeSlot g.lane { tpl with guest := true }

/-- The KIND 4 trace entry of a fault (R341, Table 15-11). -/
def traceFault (s : State) (core slot l : Nat) (guest : Bool) (code addr : Nat) : State :=
  traceAdd s core 4 guest slot l (code * 2 ^ 72 + bits addr 0 57)

/-! ## Fatal faults (R346) -/

def Header.cmpctr (h : Header) : Nat := h.field 176 8
def Header.cmpinc (h : Header) : Nat := h.field 184 8
def Header.cmpmbx (h : Header) : Nat := h.field 192 8
def Header.fltmbx (h : Header) : Nat := h.field 200 8
def Header.taskid (h : Header) : Nat := h.field 4 4

/-- The completion message of Table 13-3. -/
def completionMsg (s : State) (l : Launch) (status ctr : Nat) : List Byte :=
  bytesLE 4 l.header.taskid ++ bytesLE 4 status ++ bytesLE 4 l.seq.toNat ++ bytesLE 4 0 ++ bytesLE 8 s.time ++ bytesLE 8 ctr

/-- CMPCTR's VALUE as it stands. -/
def cmpctrValue (s : State) (l : Launch) : Nat :=
  if l.header.cmpctr = 0 then 0
  else match ctrSpot s l.part 0 l.header.cmpctr with
    | some sp => ctrValue (ctrRead s sp)
    | none => 0

/-- A launch reports a status to its counter and its mailbox; a refused post leaves code 0x12 (R267). -/
def reportLaunch (s : State) (l : Launch) (add code info msgStatus : Nat) : State :=
  let s := namedUpdate s l.part 0 l.header.cmpctr add code info 0
  if l.header.cmpmbx = 0 then s
  else
    let r := post s (.device l.part) l.header.cmpmbx (some (completionMsg s l msgStatus (if add = 0 then 0 else cmpctrValue s l)))
    if r.1 = 0 then r.2 else namedUpdate s l.part 0 l.header.cmpctr 0 0x12 0 0

/-- A fatal fault halts the partition once, asks for its dump and fails the task (R346). -/
def fatal (s : State) (launch cause code : Nat) : State :=
  match mfind s.launches launch with
  | none => s
  | some l =>
    if (s.part l.part).state = 2 then s
    else
      let s := s.modPart l.part (fun p => { p with state := 2, dumpReq := some (cause, code, BitVec.ofNat 32 l.header.taskid, launch) })
      let s := s.modLaunch launch (fun x => { x with failed := true })
      reportLaunch s l 0 0x13 code (0x13 + code * 256)

/-- A record of the whole task (Table 17-2, TASKWIDE). -/
def taskFault (s : State) (core launch code : Nat) : State :=
  ringPlace s (s.launchPart launch) (faultqOf s core launch)
    (recordBytes { FaultRec.blank with code := code, core := core, taskwide := true })

/-! ## Handler posts (R344, R345) -/

/-- Lanes of a warp in a state. -/
def lanesIn (w : Warp) (p : LaneState → Bool) : List Nat := (upFrom 32 0).filter (fun l => p (w.lane l).state)

/-- The counted lanes of a mask (06 R117). -/
def countedLanes (w : Warp) (k : Nat) : List Nat :=
  (maskLanes (w.mask k)).filter (fun l => match (w.lane l).state with
    | .ready | .parked | .napping | .away | .faulted => true
    | _ => false)

def waitsOn (w : Warp) (k l : Nat) : Bool := (w.lane l).state == .parked && (w.lane l).park == .waitm k

def waiters (w : Warp) (k : Nat) : List Nat := (upFrom 32 0).filter (waitsOn w k)

/-- The lowest mask whose WAITM cannot release only because of counted FAULTED lanes. -/
def heldByFault (w : Warp) : Option Nat :=
  (upFrom 12 0).find? (fun k => !(waiters w k).isEmpty &&
    (countedLanes w k).any (fun l => (w.lane l).state == .faulted) &&
    (countedLanes w k).all (fun l => (w.lane l).state == .faulted || waitsOn w k l))

/-- The reason to post to the handler, and the mask for reason 1 (R344). -/
def postReason (w : Warp) : Option (Nat × Nat) :=
  if (lanesIn w (· == .faulted)).isEmpty then none
  else match heldByFault w with
    | some k => some (1, k)
    | none => if (lanesIn w (fun x => x == .ready || x == .napping || x == .away)).isEmpty then some (0, 0) else none

/-- The handler message of Table 17-4. -/
def handlerMsg (s : State) (core slot : Nat) (w : Warp) (l : Launch) (r : Nat × Nat) : List Byte :=
  let base := bits (faultqOf s core w.launch).toNat 12 45 * 4096
  let wr := if base = 0 then 0 else match devRead s l.part base 8 with | .ok bs => ofBytesLE bs | .error _ => 0
  bytesLE 4 l.header.taskid ++ bytesLE 2 core ++ bytesLE 1 slot ++ bytesLE 1 r.1 ++
  bytesLE 4 (lanesMask (lanesIn w (· == .faulted))).toNat ++ bytesLE 1 r.2 ++ bytesLE 3 0 ++ bytesLE 8 wr ++ bytesLE 8 s.time

/-- A warp posts a reason to its task's handler as MBPOST does; a refusal other than a full queue is fatal (R344, R345). A post that
the core's commit delays (08_memories.md R169) is made at the next occasion. -/
def handlerPostAs (s : State) (core slot : Nat) (r : Nat × Nat) : State :=
  match s.warp? core slot with
  | none => s
  | some w => match mfind s.launches w.launch with
    | some l =>
      let dead (s : State) : State :=
        let code := match (lanesIn w (· == .faulted)).head? with
          | some x => match (w.lane x).record with | some f => f.code | none => 0
          | none => 0
        fatal (s.modWarp core slot (fun w => { w with posted := true, retryAt := none })) w.launch 0 code
      if l.header.fltmbx = 0 then dead s
      else if commitWaits s core then s.modWarp core slot (fun w => { w with posted := true, retryAt := some s.time, retryWhy := r })
      else
        let s := releaseWide (s.modWarp core slot (fun w => { w with posted := true })) core
        let a := post s (.device l.part) l.header.fltmbx (some (handlerMsg s core slot w l r))
        if a.1 = 0 then a.2.modWarp core slot (fun w => { w with posted := true, retryAt := none })
        else if a.1 = 1 then s.modWarp core slot (fun w => { w with posted := true, retryAt := some (s.time + 1000), retryWhy := r })
        else dead s
    | none => s

/-- The post of a warp that has a reason for one (R344). -/
def handlerPost (s : State) (core slot : Nat) : State :=
  match s.warp? core slot with
  | none => s
  | some w => match postReason w with
    | some r => handlerPostAs s core slot r
    | none => s

/-! ## WAITM (06 R117) -/

/-- Fibres parked on a mask whose bit was cleared go on, and the mask is left (R117.4). -/
def freeCleared (s : State) (core slot k : Nat) : State :=
  match s.warp? core slot with
  | none => s
  | some w => match (waiters w k).filter (fun l => !bitOf (w.mask k).toNat l) with
    | [] => s
    | ls => endPark s core slot ls

/-- A mask releases when every counted lane is parked on it (R117.3). -/
def releaseMask (s : State) (core slot k : Nat) : State :=
  match s.warp? core slot with
  | none => s
  | some w =>
    if !(waiters w k).isEmpty && (countedLanes w k).all (waitsOn w k) then
      endPark (s.modWarp core slot (fun w => { w with m := mset w.m k 0 })) core slot (waiters w k)
    else s

/-- The checks that follow every change of a warp's masks or lane states (R117.5, R344). -/
def settleWarp (s : State) (core slot : Nat) : State :=
  let s := (upFrom 12 0).foldl (fun s k => releaseMask (freeCleared s core slot k) core slot k) s
  match s.warp? core slot with
  | none => s
  | some w => if w.posted || (postReason w).isNone then s else handlerPost s core slot

/-! ## The end of a fibre (06 R124) -/

/-- A lane's bit leaves all twelve masks. -/
def clearMaskBits (w : Warp) (l : Nat) : Warp :=
  { w with m := w.m.map (fun x => (x.1, x.2 &&& ~~~(BitVec.ofNat 32 (2 ^ l)))) }

/-- A lane's pending results are discarded. -/
def dropLaneResults (w : Warp) (l : Nat) : Warp :=
  { w with pend := (w.pend.map (fun r => { r with
      lanes := r.lanes &&& ~~~(BitVec.ofNat 32 (2 ^ l))
      effs := r.effs.filter (fun e => match e with | .g l' _ _ => l' != l | .p l' _ _ => l' != l | _ => true)
      acc := r.acc.filter (fun a => a.1 != l) })).filter (fun r =>
        r.lanes != 0 || r.op.isSome || !r.effs.isEmpty || !r.acc.isEmpty) }

/-- An EMPTY lane: its registers are discarded; its fault count and latest record stay (17_faults.md R340, Table 17-9). -/
def Lane.exited (x : Lane) : Lane := { state := .empty, fseq := x.fseq, record := x.record }

/-- A fibre at home ends: ENDED keeps its registers, EMPTY discards them. -/
def endLane (s : State) (core slot l : Nat) (keep : Bool) : State :=
  s.modWarp core slot (fun w =>
    (dropLaneResults (clearMaskBits w l) l).modLane l (fun x =>
      if keep then { x with state := .ended, park := .none, hints := [], tag := 0, counted := false, owed := [] } else x.exited))

/-! ## Departures home (14 R285, R288, R291) -/

/-- The registers of a MIGSET snapshot, by ascending number, at most sixteen. -/
def migRegs (ms : DWord) : List Nat := (maskLanesFrom 64 0 ms.toNat).take 16

/-- The lowest register of a lane's MIGSET that carries a poison mark (R285, step 2). -/
def Warp.migPoison (w : Warp) (l : Nat) : Option Nat :=
  let x := w.lane l
  let ms := match x.guest with | some g => g.migset | none => w.migset
  (migRegs ms).find? (fun i => i != 0 && (mfind x.poison (x.wbase + i)).isSome)

def migPoison (s : State) (l : Nat) : Option Nat := s.curWarp.migPoison l

/-- The values that a fibre carries: registers by their number. -/
def carryRegs (w : Warp) (l : Nat) (ms : DWord) : PMap Word :=
  (migRegs ms).map (fun i => (i, if i = 0 then 0 else mget (w.lane l).regs ((w.lane l).wbase + i) 0))

/-- A guest warp that holds no fibre ends (14 R289). -/
def reapGuestWarp (s : State) (core slot : Nat) : State :=
  match s.warp? core slot with
  | none => s
  | some w => if w.isGuest && (lanesIn w (· != .empty)).isEmpty then
      s.modSt core (fun k => { k with warps := mdel k.warps slot }) else s

/-- The homeward shuttle of a guest (R286, R288). The marks of registers do not travel (log 84). -/
def homeShuttle (core slot gtag : Nat) (w : Warp) (pc : DWord) (why : HomeWhy) (id l : Nat) (g : Guest) : Shuttle :=
  { id := id, fromCore := core, fromSlot := slot, fromLane := l, target := g.origin, pc := pc,
    sp := (w.lane l).sp, pw := (w.lane l).pw, safecnt := (w.lane l).safecnt, workid := (w.lane l).workid,
    g := { g with hops := min (g.hops + 1) 255, seq := g.seq + 1, gtag := gtag }
    homeward := true, recalled := why.recalled, fault := why.fault.isSome, ended := why.ended, exited := why.exited
    fcode := match why.fault with | some r => r.code | none => 0
    faddr := match why.fault with | some r => r.addr | none => 0
    frec := why.fault
    regs := if why.ended || why.exited then [] else carryRegs w l g.migset }

/-- The guests of some lanes, with where they come from and why they leave. -/
def guestsAt (w : Warp) (xs : List (Nat × HomeWhy)) : List (Nat × Guest × HomeWhy) :=
  xs.filterMap (fun x => ((w.lane x.1).guest).map (fun g => (x.1, g, x.2)))

/-- A homeward departure of guests of one origin: their lanes are left, with one group tag, one trace entry, one release and
one persist point, and their shuttles are in transit (R285, R288). -/
def sendGroup (s : State) (core slot : Nat) (gs : List (Nat × Guest × HomeWhy)) (pc : DWord) : State :=
  match s.warp? core slot, gs with
  | some w, (l, g, _) :: _ =>
    let t := s.fresh
    let shs := ((upFrom gs.length (t + 1)).zip gs).map (fun x => homeShuttle core slot t w pc x.2.2.2 x.1 x.2.1 x.2.2.1)
    let s := { s with fresh := t + 1 + gs.length }
    let s := traceAdd s core 7 true slot l (g.origin * 2 ^ 72 + bits pc.toNat 0 57)
    let s := countEvent s core 0x09 gs.length
    let s := reapGuestWarp (s.modWarp core slot (fun w => gs.foldl (fun w x => w.modLane x.1 (fun _ => {})) w)) core slot
    let s := releaseWide s core
    { s with transit := s.transit ++ shs }
  | _, _ => s

/-- A fibre that ends leaves without its registers. -/
def HomeWhy.ends (y : HomeWhy) : Bool := y.ended || y.exited

/-- Guests of one batch depart homeward, each with its reason: their results are written, or dropped when they end, and those of one
origin leave together. A departure that the core's commit delays (08_memories.md R169) is made when the commit can be. -/
def sendEach (s : State) (core slot : Nat) (xs : List (Nat × HomeWhy)) (pc : DWord) : State :=
  let s := (xs.filter (fun x => x.2.ends)).foldl (fun s x => s.modWarp core slot (fun w => dropLaneResults w x.1)) s
  let s := deliverWarp s core slot (fun r => r.touches (lanesMask ((xs.filter (fun x => !x.2.ends)).map (·.1))))
  match s.warp? core slot with
  | none => s
  | some w =>
    let gs := guestsAt w xs
    if commitWaits s core then
      gs.foldl (fun s x => s.modLane core slot x.1 (fun y => { y with
        state := .parked, park := .leaving, tag := s.fresh, homeDue := some (pc, x.2.2) })) { s with fresh := s.fresh + 1 }
    else ((gs.map (fun x => x.2.1.origin)).eraseDups).foldl (fun s o => sendGroup s core slot (gs.filter (fun x => x.2.1.origin == o)) pc) s

/-- Guests of one batch depart homeward for one reason. -/
def sendAll (s : State) (core slot : Nat) (ls : List Nat) (pc : DWord) (why : HomeWhy) : State :=
  sendEach s core slot (ls.map (fun l => (l, why))) pc

/-- The guests of a departure that waits for the commit, each with its reason: those of a lane's tag. -/
def dueMates (w : Warp) (l : Nat) : List (Nat × HomeWhy) :=
  (upFrom 32 0).filterMap (fun k =>
    if (w.lane k).park = .leaving ∧ (w.lane k).tag = (w.lane l).tag then (w.lane k).homeDue.map (fun d => (k, d.2)) else none)

/-- The departure of a lane that waited for the commit is made (R285). -/
def leaveDue (s : State) (core slot l : Nat) : State :=
  match s.warp? core slot with
  | none => s
  | some w => match (w.lane l).park, (w.lane l).homeDue with
    | .leaving, some (pc, _) => if commitWaits s core then s else sendEach s core slot (dueMates w l) pc
    | _, _ => s

/-- One lane's fault: at home it enters FAULTED; a guest's is traced, and the guest stands at the instruction, to be sent home. -/
def markFault (s : State) (core slot l : Nat) (tpl : FaultRec) : State :=
  match s.warp? core slot with
  | none => s
  | some w => match (w.lane l).guest with
    | none => traceFault (enterFault s core slot l tpl) core slot l false tpl.code tpl.addr.toNat
    | some _ => (traceFault s core slot l true tpl.code tpl.addr.toNat).modLane core slot l (fun x =>
        { x with safecnt := 0, hints := [], tag := 0, counted := false, owed := [] })

/-- The faults of one batch, in lane order: members at home enter FAULTED, guests are sent home with their faults in one departure
(R341, R285, R291). -/
def faultLanes (s : State) (core slot : Nat) (fs : List (Nat × FaultRec)) (pc : DWord) : State :=
  match s.warp? core slot with
  | none => s
  | some w =>
    let s := fs.foldl (fun s x => markFault s core slot x.1 x.2) s
    let away := fs.filter (fun x => (w.lane x.1).guest.isSome)
    if away.isEmpty then s else sendEach s core slot (away.map (fun x => (x.1, { fault := some { x.2 with guest := true } }))) pc

/-- A fault of one lane. -/
def faultLane (s : State) (core slot l : Nat) (tpl : FaultRec) : State := faultLanes s core slot [(l, tpl)] tpl.pc

/-! ## Return from a fault (06 R129) -/

/-- The home lane that a handle names: a FAULTED fibre whose FSEQ is the handle's (R129, R340). -/
def handleLane (s : State) (h : DWord) : Option (Nat × Nat × Nat) :=
  let core := bits h.toNat 56 8
  let slot := bits h.toNat 50 6
  let l := bits h.toNat 45 5
  match s.warp? core slot with
  | none => none
  | some w =>
    if !w.isGuest && (w.lane l).state == .faulted && h.toNat == handleOf core slot l (w.lane l).fseq then some (core, slot, l) else none

/-- The ways of TRET. -/
inductive TretKind where
  | resume | skip | ended
  deriving DecidableEq, Repr

/-- A FAULTED lane as TRET .resume or .skip leaves it: READY, at its faulting instruction or after it; TRAP and BRK go
on after it under both. -/
def tretLane (k : TretKind) (x : Lane) : Lane :=
  match x.record with
  | none => { x with state := .ready }
  | some r =>
    { x with state := .ready, pc := if k = .skip ∨ r.code = fcTrap ∨ r.code = fcBrk then r.after else r.pc }

/-- TRET on a FAULTED lane of a resident warp: the handler may be posted to again (R344). -/
def tretAct (s : State) (core slot l : Nat) (k : TretKind) : State :=
  let s := match k with
    | .ended => endLane s core slot l false
    | k => s.modLane core slot l (tretLane k)
  settleWarp (s.modWarp core slot (fun w => { w with posted := false, retryAt := none })) core slot

/-- The issuing launch serves the handler mailbox of another launch (R129). -/
def serves (s : State) (issuer target : Nat) : Bool :=
  match mfind s.launches issuer, mfind s.launches target with
  | some i, some t => t.header.fltmbx != 0 && i.part == t.part && i.window == t.header.fltmbx
  | _, _ => false

end Sys2Proof.Machine
end

