-- ==== Sys2Proof/Machine/Issue.lean ====
section
/-! DEFINITION. The issue of an instruction: safe-point distance (06_control_state.md R126), energy (15_counters.md R315,
R316), the faults found before it is performed (03_instruction_words.md R51, R54, R58, R59, R63; 04_fibre_registers.md
R69, R74; 14_shuttles.md R289, R290), parking at issue (09_consistency.md R191), the advance of the members (06 R111),
the fault records in lane order (17_faults.md R341) and the S park (R52); the same for a word of a stream (R64). -/

namespace Sys2Proof.Machine

/-- What an instruction does once nothing stops its issue: a reason to park the batch at issue, the faults that its
members meet, and its effect on the members left, which may itself meet faults. -/
structure Act where
  wait : State → List Nat → Option Park := fun _ _ => none
  check : State → List Nat → List (Nat × Flt) := fun _ _ => []
  run : State → List Nat → State × List (Nat × Flt)

/-- An effect that meets no fault. -/
def Act.pure (f : State → List Nat → State) : Act := { run := fun s ls => (f s ls, []) }

/-- A check made lane by lane. -/
def eachCheck (f : State → Nat → Option Flt) (s : State) (ls : List Nat) : List (Nat × Flt) :=
  ls.filterMap (fun l => (f s l).map (fun x => (l, x)))

/-- A check made for the leader, whose fault every member takes (R63). -/
def leaderCheck (f : State → Nat → Option Flt) (s : State) (ls : List Nat) : List (Nat × Flt) :=
  match ls with
  | [] => []
  | l :: _ => match f s l with
    | some x => ls.map (fun k => (k, x))
    | none => []

/-! ## Energy (15 R315, R316) -/

/-- Cores that host fibres of a context. -/
def hostsOf (s : State) (core launch : Nat) : List Nat :=
  s.cores.filterMap (fun c => if c.2.st.warps.any (fun w => w.2.isGuest && w.2.lanes.any (fun l => match l.2.guest with
    | some g => g.origin == core && g.launch == launch
    | none => false)) then some c.1 else none)

/-- Metering is off for a context. -/
def meteringOff (c : Ctx) : Bool := c.ebrate == 0xFFFFFFFF

/-- A change of EBUDGET between positive and not positive is reported to the cores that host fibres of the context; with metering off
it stalls no guest. -/
def budgetReport (s : State) (core launch : Nat) : State :=
  match (s.core core).st.ctx? launch with
  | none => s
  | some c =>
    let pos := meteringOff c || decide (0 < sint c.ebudget)
    if pos = c.reported then s
    else
      let s := s.modCtx core launch (fun c => { c with reported := pos })
      { s with reports := s.reports ++ (hostsOf s core launch).map (fun h => (core, launch, h, pos)) }

/-- A debit of a context, saturating at -2^31. -/
def debit (s : State) (core launch units : Nat) : State :=
  budgetReport (s.modCtx core launch (fun c =>
    if meteringOff c then c else { c with ebudget := wordOfInt (saturate (sint c.ebudget - units) (-(2 ^ 31)) (2 ^ 31 - 1)) })) core launch

/-- The debit of the instruction in progress: its own context, or a forwarded debit of a guest's home context. -/
def debitIssue (s : State) (f : Form) (leader : Nat) : State :=
  let units := s.ecostOf (s.eclass f) * f.mult
  match (s.curWarp.lane leader).guest with
  | some g => { s with debits := s.debits ++ [(g.origin, g.launch, units)] }
  | none => debit s s.cur.core s.curWarp.launch units

/-! ## Faults before the effect -/

/-- The template of a fault record of the instruction in progress (R340). -/
def curRecord (s : State) (f : Form) (leader : Nat) (x : Flt) : FaultRec :=
  { FaultRec.blank with
    code := x.code, pc := s.cur.hpc, addr := BitVec.ofNat 64 x.addr, batch := s.cur.lanes, insn := s.cur.word,
    leader := f.uniform && x.code != fcSafeGap, leadlane := if f.uniform && x.code != fcSafeGap then leader else 0,
    split := x.split, hinted := !s.cur.hints.isEmpty, stream := s.cur.stream, after := nextPc s.cur.pc }

/-- HAZCHK is effective: HALT of the core's partition (R140). -/
def hazOn (s : State) (core : Nat) : Bool :=
  (s.core core).hazchk && (match s.partOfCore core with | some p => (s.part p).debug == 2 | none => false)

/-- Registers outside the window, or past g63 (R56, R69). -/
def Form.inWindow (f : Form) (s : State) : Bool := (f.srcs s ++ f.lead ++ f.dst).all (fun i => decide (i < s.curWarp.window))

/-- The encoding, the hints and the registers are legal. -/
def Form.legal (f : Form) (s : State) : Bool := f.ok && f.hintsOk s.cur.hints && f.inWindow s

/-- A guest may not name a register (14 R289). -/
def guestLacks (x : Lane) (i : Nat) : Bool :=
  match x.guest with
  | none => false
  | some g => i != 0 && !bitOf g.migset.toNat i

/-- A pending shape register of the warp. -/
def isPendSh (ps : List PRes) (n : Nat) : Bool :=
  ps.any (fun p => p.effs.any (fun e => match e with | .shape k _ => k == n | .shapeField k _ _ _ => k == n | _ => false))

/-- The source of a lane that HAZARD names, the guard apart (R54). -/
def hazardSrc (s : State) (f : Form) (l : Nat) : Option Nat :=
  let w := s.curWarp
  match (f.srcs s).find? (fun i => i != 0 && isPendG w.pend l ((w.lane l).wbase + i)) with
  | some i => some i
  | none => match (f.psrcs s).find? (fun k => !(pendP w.pend l k).isEmpty) with
    | some k => some k
    | none => match f.ssrc.find? (fun r => !(pendS w.pend r).isEmpty) with
      | some r => some r
      | none => f.shsrc.find? (isPendSh w.pend)

/-- The fault of a lane's sources and registers (R54, R74, R289). -/
def srcFault (s : State) (f : Form) (l : Nat) : Option Flt :=
  let w := s.curWarp
  let x := w.lane l
  match (if hazOn s s.cur.core then hazardSrc s f l else none) with
  | some i => some ⟨fcHazard, i, false⟩
  | none => match (f.srcs s).find? (fun i => i != 0 && (mfind x.poison (x.wbase + i)).isSome) with
    | some i => some ⟨fcPoisonRead, i, false⟩
    | none => match (f.srcs s ++ f.lead ++ f.dst).find? (guestLacks x) with
      | some i => some ⟨fcMigReg, i, false⟩
      | none => none

/-- The faults of the members' sources where some registers are read for the leader alone, the lowest member without a fault
(05_float_registers.md R102). -/
def leadFaults (s : State) (f : Form) : List Nat → List (Nat × Flt)
  | [] => []
  | l :: ls => match srcFault s { f with src := f.src ++ f.lead } l with
    | some x => (l, x) :: leadFaults s f ls
    | none => eachCheck (fun s l => srcFault s f l) s ls

/-- The guard of a lane is pending under HAZCHK (R54). -/
def guardHazard (s : State) (f : Form) (l : Nat) : Bool :=
  hazOn s s.cur.core && f.h.gp.toNat != 0 && !(pendP s.curWarp.pend l f.h.gp.toNat).isEmpty

/-- Members whose count would pass 2,048 (06 R126). -/
def gapLanes (s : State) (f : Form) : List Nat :=
  s.members.filter (fun l =>
    !(s.curLane l).counted && !(f.isSafe && s.guard f.h l) && decide ((s.curLane l).safecnt + 1 + s.cur.hints.length > 2048))

/-- The faults found before the effect for the members whose guard is true. A guard that is pending under HAZCHK is met first: until
it is read, the lane does not perform even a word that is illegal (log 18). -/
def preFaults (s : State) (f : Form) (ls : List Nat) : List (Nat × Flt) :=
  let act := ls.filter (fun l => guardHazard s f l || s.guard f.h l)
  let hz := (act.filter (guardHazard s f)).map (fun l => (l, (⟨fcHazard, f.h.gp.toNat, false⟩ : Flt)))
  let go := act.filter (fun l => !guardHazard s f l)
  hz ++ (if !f.legal s then go.map (fun l => (l, (⟨fcIllegalOp, 0, false⟩ : Flt)))
    else if s.curWarp.isGuest && !f.guestOk then go.map (fun l => (l, (⟨fcMigReg, 0, false⟩ : Flt)))
    else if f.uniform then leaderCheck (fun s l => srcFault s f l) s go
    else if !f.lead.isEmpty then leadFaults s f go
    else eachCheck (fun s l => srcFault s f l) s go)

/-- Faults in ascending lane order. -/
def sortFaults (fs : List (Nat × Flt)) : List (Nat × Flt) :=
  (upFrom 32 0).filterMap (fun l => fs.find? (fun x => x.1 == l))

def raiseAll (s : State) (f : Form) (leader : Nat) (fs : List (Nat × Flt)) : State :=
  faultLanes s s.cur.core s.cur.slot ((sortFaults fs).map (fun x => (x.1, curRecord s f leader x.2))) s.cur.hpc

/-- The lanes of a list that have no fault. -/
def without (ls : List Nat) (fs : List (Nat × Flt)) : List Nat := ls.filter (fun l => !(fs.any (fun x => x.1 == l)))

/-! ## Issue for a batch -/

/-- The instruction and its hints are counted for the members that no earlier attempt has counted, and it is debited, for the
leader's account: the lowest member's (R126, R315, R316). -/
def charge (s : State) (f : Form) (ms : List Nat) : State :=
  if s.cur.counted then s
  else
    let s := debitIssue s f (s.members.headD 0)
    ms.foldl (fun s l => s.modCurLane l (fun x => { x with safecnt := if x.counted then x.safecnt else x.safecnt + 1 + s.cur.hints.length })) s

/-- The members stand at the next instruction, with no hint (R111, R58). -/
def advance (s : State) (ms : List Nat) : State :=
  ms.foldl (fun s l => s.modCurLane l (fun x => { x with pc := nextPc s.cur.pc, hints := [], hpc := 0, tag := 0, counted := false })) s

/-- A batch may not yet perform a persist point (R191). -/
def persistWaits (s : State) (f : Form) (run : List Nat) : Bool :=
  f.persist && !run.isEmpty && (pendingPersist s.curWarp (lanesMask run) || commitWaits s s.cur.core)

/-- The end of an issue: late faults, the checks of masks and handler posts, and the S park. Results may be written at
any moment (R53), so that the checks fall either before the S park or into it (log 20). -/
def finish (s : State) (f : Form) (leader : Nat) (ms : List Nat) (late : List (Nat × Flt)) : State :=
  let s := raiseAll s f leader late
  if !f.h.s then settleWarp s s.cur.core s.cur.slot
  else if Config.free s.free 8300 % 2 = 0 then sPark (settleWarp s s.cur.core s.cur.slot) s.cur.core s.cur.slot ms
  else settleWarp (sPark s s.cur.core s.cur.slot ms) s.cur.core s.cur.slot

/-- An instruction issues for its batch. The members that it faults stand at it until its effect is done; then the records of all its
faults are formed in ascending lane order (R341). -/
def issueBatch (f : Form) (s : State) (a : Act) : State :=
  let ms := s.members
  let gap := gapLanes s f
  let rest := ms.filter (fun l => !gap.contains l)
  let pre := preFaults s f rest
  let run := without (rest.filter (s.guard f.h)) pre
  let lead := ((rest.filter (s.guard f.h)).filter (fun l => !guardHazard s f l)).headD 0
  let gapF := gap.map (fun l => (l, (⟨fcSafeGap, 0, false⟩ : Flt)))
  let s1 := charge s f rest
  match (if persistWaits s f run then some Park.persist else if run.isEmpty then none else a.wait s1 run) with
  | some why => settleWarp (parkAtIssue (raiseAll s1 f lead gapF) rest why) s.cur.core s.cur.slot
  | none =>
    let chk := if run.isEmpty then [] else a.check s1 run
    let bad := gapF ++ pre ++ chk
    let s2 := advance s1 (without rest bad)
    let go := without run chk
    let r := if go.isEmpty then (s2, []) else a.run s2 go
    finish r.1 f lead rest (bad ++ r.2)

/-! ## Issue for a stream (R64, R276) -/

def State.modCurStream (s : State) (f : Stream → Stream) : State :=
  s.modCurWarp (fun w => { w with stream := w.stream.map f })

/-- Every register field of a stream word names s0 to s31 and every predicate destination is p0 (R64). -/
def Form.streamLegal (f : Form) (s : State) : Bool :=
  f.ok && f.streamOk && f.hintsOk s.cur.hints && f.h.gp == 0 && !f.h.gn &&
  (f.src ++ f.dst).all (fun i => decide (i ≤ 31)) && f.pdst.all (fun k => k == 0)

/-- A fault ends the stream and queues its record, which names the leader at EFORK (R64, R277, R340). -/
def streamFault (s : State) (f : Form) (x : Flt) : State :=
  let st := s.curStream
  let ms := masksOf s.curWarp st.leader
  let rec_ := { curRecord s f st.leader x with
    core := s.cur.core, warp := s.cur.slot, lane := st.leader
    msnap := BitVec.ofNat 12 (ms.foldl (fun a k => a + 2 ^ k) 0), mvals := (ms.take 6).map s.curWarp.mask }
  let s := s.modCurStream (fun t => { t with ended := true, park := .none, hints := [], status := BitVec.ofNat 32 (x.code + t.idx * 256) })
  let s := ringPlace s s.curPart (faultqOf s s.cur.core s.curWarp.launch) (recordBytes rec_)
  let s := traceFault s s.cur.core s.cur.slot st.leader false x.code x.addr
  wake s s.cur.core (fun p => p == .stream)

/-- The stream stands at its next word (R276). -/
def streamNext (s : State) : State :=
  s.modCurStream (fun t => { t with idx := t.idx + 1, hints := [], counted := false })

/-- After a word: the S park of a marked one, and the end after the last. -/
def streamAdvance (s : State) (mark : Bool) : State :=
  let waits := mark && !s.curStream.pend.isEmpty
  let s := (if waits then countEvent s s.cur.core 0x04 1 else s).modCurStream (fun t => { t with
    ended := decide (t.count ≤ t.idx), park := if waits then .results else .none })
  if s.curStream.ended then wake s s.cur.core (fun p => p == .stream) else s

/-- An instruction issues as a word of its stream. -/
def issueStream (f : Form) (s : State) (a : Act) : State :=
  let l := s.curStream.leader
  let s1 := if s.cur.counted then s else debit s s.cur.core s.curWarp.launch (s.ecostOf (s.eclass f) * f.mult)
  if !f.streamLegal s then streamFault s1 f ⟨fcIllegalOp, 0, false⟩
  else
    match (if f.persist && commitWaits s s.cur.core then some Park.persist else a.wait s1 [l]) with
    | some why => s1.modCurStream (fun t => { t with counted := true, park := match why with
        | .cwait a t => .cwait a t
        | .lbarv g n => .lbarv g n
        | _ => .retry })
    | none => match a.check s1 [l] with
      | x :: _ => streamFault s1 f x.2
      | [] =>
        let r := a.run (streamNext s1) [l]
        match r.2 with
        | x :: _ => streamFault (r.1.modCurStream (fun t => { t with idx := t.idx - 1 })) f x.2
        | [] => streamAdvance r.1 f.h.s

/-- An instruction issues for its batch or for its stream: always a next state. -/
def issue (f : Form) (s : State) (a : Act) : Host.Outcome State Fault Refusal :=
  .next (if s.cur.stream then issueStream f s a else issueBatch f s a)

/-! ## Effects of the common shapes -/

/-- The physical destination registers of a lane's result; g0 is none. -/
def physDests (s : State) (l d n : Nat) : List Nat :=
  (regsOf d n).filterMap (fun r => if r = 0 then none else some ((s.curLane l).wbase + r))

/-- Each member writes one register in class Z. -/
def actZ (d : Nat) (val : State → Nat → Word) : Act :=
  .pure (fun s ls => s.eachLane ls (fun s l => s.setG l d (val s l)))

/-- Each member writes a pair in class Z. -/
def actZd (d : Nat) (val : State → Nat → DWord) : Act :=
  .pure (fun s ls => s.eachLane ls (fun s l => s.setGd l d (val s l)))

/-- Each member writes one predicate in class Z. -/
def actZp (q : Nat) (val : State → Nat → Bool) : Act :=
  .pure (fun s ls => s.eachLane ls (fun s l => s.setP l q (val s l)))

/-- Each member has one class-D register result, with its flags. -/
def actD (d : Nat) (val : State → Nat → Word × OpFlags) : Act :=
  .pure (fun s ls => s.eachLane ls (fun s l => let r := val s l; s.addLane l (effG s.curWarp l d r.1) r.2))

/-- A member parks at the instruction itself until it is completed from outside (BWWAIT, LBWAIT, REGRP, ERDV). -/
def parkHere (s : State) (h : Hdr) (ls : List Nat) (why : Park) : State :=
  let t := s.fresh
  let s := { s with fresh := s.fresh + 1 }
  ls.foldl (fun s l => s.modCurLane l (fun x =>
    { x with state := .parked, park := why, pc := s.cur.hpc, hints := s.cur.hints, hpc := s.cur.hpc, tag := t, counted := true
             owed := if h.s then [(s.cur.lanes, t)] else [] })) s

end Sys2Proof.Machine
end

