-- ==== Sys2Proof/Machine/Pager.lean ====
section
/-! DEFINITION. Requests to a partition's pager (10_memory_instructions.md R211, Table 10-3; 08_memories.md R160, R164;
06_control_state.md R122), stops at safe points (06 R127, 14_shuttles.md R295) and memory samples (15_counters.md R320). -/

namespace Sys2Proof.Machine

/-- The pager message of Table 10-3. -/
def pagerMsg (s : State) (va taskid core kind lane : Nat) : List Byte :=
  bytesLE 8 (va / 65536 * 65536) ++ bytesLE 4 taskid ++ bytesLE 2 core ++ bytesLE 1 kind ++ bytesLE 1 lane ++
  bytesLE 8 s.time ++ bytesLE 8 0

/-- A post to the partition's pager mailbox, with its status. -/
def pagerPost (s : State) (p va taskid core kind lane : Nat) : Nat × State :=
  post s (.device p) (s.part p).pgmbx.toNat (some (pagerMsg s va taskid core kind lane))

/-- TASKID of a lane's own task (07_shape_system.md R141). -/
def taskidOf (s : State) (core slot l : Nat) : Nat :=
  match s.warp? core slot with
  | none => 0
  | some w => match (w.lane l).guest with
    | some g => g.taskid.toNat
    | none => match (s.core core).st.ctx? w.launch with
      | some c => c.taskid.toNat
      | none => 0

/-- A page of a partition's address space, as the motifs list those asked for. -/
def pageKey (p va : Nat) : Nat := p * 2 ^ 48 + va / 65536

/-- The page that a parked lane waits for, as its partition and address. -/
def waitedPage (x : Lane) : Option (Nat × Nat) :=
  match x.state, x.park with
  | .parked, .fetch k => some (k / 2 ^ 48, k % 2 ^ 48 * 65536)
  | .parked, .stackPage k => some (k / 2 ^ 48, k % 2 ^ 48 * 65536)
  | _, _ => none

/-- The page is no longer mapped without being resident. -/
def pageSettled (s : State) (k : Nat × Nat) : Bool :=
  match walk s k.1 k.2 with
  | some l => l.resident
  | none => true

/-- The kind of the request for the page that a lane waits for (10_memory_instructions.md Table 10-3). -/
def waitKind (x : Lane) : Nat := match x.park with | .stackPage _ => 2 | _ => 1

/-- A frame of a lane has a register in the stack cache alone whose place lies in a page. -/
def spillsTo (x : Lane) (page : Nat) : Bool :=
  x.frames.any (fun f => (upFrom f.count 0).any (fun i => !f.spilled.contains i && (f.slot.toNat + 4 * i) / 65536 == page))

/-- A fetch (KIND 1), or a link record, a spill or a fill (KIND 2), of a warp waits on a page. -/
def Warp.waitsOn (w : Warp) (p kind key : Nat) : Bool :=
  w.lanes.any (fun x => (match waitedPage x.2 with
    | some k => waitKind x.2 == kind && pageKey k.1 k.2 == key
    | none => false) || (kind == 2 && p == key / 2 ^ 48 && spillsTo x.2 (key % 2 ^ 48))) ||
  (kind == 1 && (match w.stream with
    | some t => !t.ended && pageKey p (t.base.toNat + 4 * t.idx) == key
    | none => false))

/-- Something on a motif's cores still waits on a page (08 R160, R164). -/
def pageWanted (s : State) (motif kind key : Nat) : Bool :=
  s.cores.any (fun c => c.1 / 8 == motif && c.2.st.warps.any (fun w => w.2.waitsOn (s.launchPart w.2.launch) kind key))

/-- A request for a page, as a motif keeps it: the page and the kind. -/
def pageAsk (key kind : Nat) : Nat := 4 * key + kind

/-- Requests for pages that have settled, or on which nothing waits any longer, are forgotten (R160). -/
def settlePages (s : State) (motif : Nat) : State :=
  s.modMotif motif (fun m => { m with paged := m.paged.filter (fun a =>
    !pageSettled s (a / 4 / 2 ^ 48, a / 4 % 2 ^ 48 * 65536) && pageWanted s motif (a % 4) (a / 4)) })

/-- What waited on a page has gone on: its request is forgotten. -/
def forgetPage (s : State) (core p va kind : Nat) : State :=
  if (s.motif (core / 8)).paged.contains (pageAsk (pageKey p va) kind) then settlePages s (core / 8) else s

/-- The motif posts once per page and kind while something waits on it; a full mailbox leaves the page to the next attempt. -/
def notePage (s : State) (core p va kind l slot : Nat) : State :=
  if (s.motif (core / 8)).paged.contains (pageAsk (pageKey p va) kind) then s
  else
    let r := pagerPost s p va (taskidOf s core slot l) core kind l
    if r.1 = 0 then r.2.modMotif (core / 8) (fun m => { m with paged := pageAsk (pageKey p va) kind :: m.paged }) else s

/-- A stop at a safe point is pending for a lane: a pre-emption of its home group, or the gating of its host core. -/
def stopPending (s : State) (core slot l : Nat) : Bool :=
  match s.warp? core slot with
  | none => false
  | some w => match (w.lane l).guest with
    | none => (match mfind (s.core core).st.groups w.group with | some g => g.preempt | none => false)
    | some g => (s.core core).gateReq ||
      (match s.warp? g.origin g.homeSlot with
        | none => false
        | some h => match mfind (s.core g.origin).st.groups h.group with | some x => x.preempt | none => false)

/-- One memory access in 2^k is sampled into the trace ring; which one is a free choice (log 2). -/
def memSample (s : State) (ls : List Nat) (addr : Nat → Nat) (size : Nat) (store : Bool) : State :=
  if s.tracek = 0 ∨ Config.free s.free 7000 % 2 ^ s.tracek ≠ 0 then s
  else match ls with
    | [] => s
    | l :: _ => traceAdd s s.cur.core 5 (s.curLane l).guest.isSome s.cur.slot l
        (Nat.log2 size * 2 ^ 77 + b2n store * 2 ^ 76 + bits (addr l) 0 57)

end Sys2Proof.Machine
end

