-- ==== Sys2Proof/Machine/Slot.lean ====
section
/-! DEFINITION. The save slot of a group: its fields in the header, its place, the record of a lane (08_memories.md R163;
17_faults.md R348, Tables 17-5 and 17-9) and the change of a lane record by TRET (R350). -/

namespace Sys2Proof.Machine

/-- The number of a lane state (Table 6-1). -/
def LaneState.code : LaneState → Nat
  | .empty => 0
  | .ready => 1
  | .parked => 2
  | .napping => 3
  | .away => 4
  | .faulted => 5
  | .ended => 6

/-- The LIVE blocks of a stopped lane: those that its SAFE named where it parked at it, else all (04_fibre_registers.md R73; 06_control_state.md R127). -/
def Lane.liveMask (x : Lane) : BitVec 16 := if x.state = .parked ∧ x.park = .safePoint then x.live else 0xFFFF

/-- The number, counted from the fibre's first window, of the register that stands in physical register `p` of its lane slot: the window and the
windows before it lie in the NREG registers modulo NREG, and what a deeper window has left lies above (04_fibre_registers.md R69 hides the
placement: DESIGN CHOICE, log 109). -/
def Lane.physAt (x : Lane) (nreg p : Nat) : Nat :=
  let top := x.wbase + min nreg 64
  if top ≤ p then p else top - 1 - (top - 1 - p) % nreg

/-- A physical register of a lane slot, and its poison mark. -/
def Lane.physReg (x : Lane) (nreg p : Nat) : Word := if p < nreg then mget x.regs (x.physAt nreg p) 0 else 0
def Lane.physMark (x : Lane) (nreg p : Nat) : Bool := decide (p < nreg) && mget x.poison (x.physAt nreg p) false

/-- The poison marks of a lane slot, one bit for each physical register. -/
def Lane.markImage (x : Lane) (nreg : Nat) : List Byte := bytesLE 16 ((upFrom 128 0).foldl (fun a p => a + b2n (x.physMark nreg p) * 2 ^ p) 0)

/-- The 128 bytes of a lane record (Table 17-9). -/
def laneImage (nreg : Nat) (x : Lane) : List Byte :=
  [BitVec.ofNat 8 x.state.code, 0] ++ bytesLE 2 x.safecnt ++ bytesLE 2 x.pw.toNat ++ bytesLE 2 x.liveMask.toNat ++ bytesLE 8 (if x.hints.isEmpty then x.pc else x.hpc).toNat ++
  bytesLE 8 x.sp.toNat ++ bytesLE 8 x.lk.toNat ++ bytesLE 4 x.wbase ++ bytesLE 4 x.fseq.toNat ++
  x.markImage nreg ++
  bytesLE 8 (if x.state = .napping then x.wake else 0) ++
  (match x.record with | some r => recordBytes r | none => List.replicate 64 0)

/-! ## The save slot (R163, R348) -/

def Header.warps (h : Header) : Nat := h.field 104 1
def Header.nreg (h : Header) : Nat := h.field 105 1
def Header.span (h : Header) : Nat := h.field 106 1
def Header.cbanks (h : Header) : Nat := h.field 107 1
def Header.scratch (h : Header) : Nat := h.field 108 4
def Header.sbanks (h : Header) : Nat := h.field 112 1
def Header.cogrp (h : Header) : Nat := h.field 114 2
def Header.stklim (h : Header) : Word := BitVec.ofNat 32 (h.field 116 4)
def Header.priv (h : Header) : Nat := h.field 120 8
def Header.qdepth (h : Header) (n : Nat) : Nat := if 1 ≤ n ∧ n ≤ 3 then h.field (150 + 2 * n) 2 else 0
/-- STKLIM.SIZE in bytes. -/
def Header.stack (h : Header) : Nat := bits (h.field 116 4) 16 16 * 256
def Header.width (h : Header) (i : Nat) : Nat := h.field (48 + i) 1
/-- An extent of the task (Table 13-1: EXTM holds E[i] - 1). -/
def Header.extent (h : Header) (i : Nat) : Nat := h.field (56 + 8 * i) 8 + 1
def Header.stagePc (h : Header) (n : Nat) : Nat := h.field (16 + 8 * n) 8

/-- The groups of a launch: the product of the extents of the fields above field 0 (R22). -/
def Header.groups (h : Header) : Nat := (upFrom 5 1).foldl (fun a i => a * h.extent i) 1

/-- Bytes of the scratch run without and with the stage queues (R262, R268). -/
def Header.queueBytes (h : Header) : Nat := 16 * (h.qdepth 1 + h.qdepth 2 + h.qdepth 3)
def Header.runBytes (h : Header) : Nat := ceilDiv h.scratch 16 * 16 + h.queueBytes
def Header.runBanks (h : Header) : Nat := ceilDiv h.runBytes 131072
def Header.nbanks (h : Header) : Nat := h.runBanks + h.sbanks + h.cbanks

def roundUp (n k : Nat) : Nat := ceilDiv n k * k

/-- The address of the save slot of group `n`. -/
def Header.slotAt (h : Header) (n : Nat) : Nat :=
  h.priv + roundUp (h.groups * h.warps * 32 * h.stack) 65536 +
    n * roundUp (4096 + h.warps * 8192 + h.warps * 32 * h.nreg * 4 + h.nbanks * 147456) 65536

/-- Where the image of the group's bank of index `k` lies in the slot. -/
def Header.slotBank (h : Header) (k : Nat) : Nat := 4096 + h.warps * 8192 + h.warps * 32 * h.nreg * 4 + k * 147456

/-- The masks of a warp as its image holds them. -/
def masksImage (w : Warp) : List Byte := (upFrom 12 0).flatMap (fun k => bytesLE 4 (w.mask k).toNat)

/-- The record of a lane of a saved group, with its warp's masks, enters the group's slot (R350). A slot that cannot be written
keeps the old record (log 85). -/
def slotLaneWrite (s : State) (g : Saved) (slot l : Nat) : State :=
  match mfind s.launches g.launch, mfind g.warps slot with
  | some la, some w =>
    let at0 := la.header.slotAt g.number + 4096 + 8192 * w.index
    let s := match devWrite s la.part (at0 + 128 * l) (laneImage w.nreg (w.lane l)) with | .ok s => s | .error _ => s
    match devWrite s la.part (at0 + 4224) (masksImage w) with | .ok s => s | .error _ => s
  | _, _ => s

end Sys2Proof.Machine
end

