-- ==== Sys2Proof/Machine/Ctl.lean ====
section
/-! DEFINITION. Branches, calls, lane masks, fibre creation and ending, yielding, safe points, traps and resumption
(06_control_state.md R114 to R130). -/

namespace Sys2Proof.Machine

/-! ## Branches (R115) -/

/-- The trace entry of a taken branch, call or return: one per batch, for its lowest lane (15_counters.md R320). -/
def traceBranch (s : State) (kind : Nat) (ls : List Nat) (target : Nat → DWord) : State :=
  match ls with
  | [] => s
  | l :: _ => traceAdd s s.cur.core kind (s.curLane l).guest.isSome s.cur.slot l (branchLoc s.cur.hpc.toNat (target l).toNat)

def State.setPc (s : State) (l : Nat) (pc : DWord) : State := s.modCurLane l (fun x => { x with pc := pc })

/-- PC + 4 × SignExtend(OFF, n), in the bits that PC has (Table 6-2). -/
def relTarget (pc : DWord) (off n : Nat) : DWord := rpc (pc + dwordOfInt (4 * sext off n))

def execBra (h : Hdr) (o : BitVec 20) (s : State) : Host.Outcome State Fault Refusal :=
  issue { h := h } s
    (.pure (fun s ls =>
      let t := relTarget s.cur.pc o.toNat 20
      traceBranch (s.eachLane ls (fun s l => s.setPc l t)) 1 ls (fun _ => t)))

def execBrax (h : Hdr) (a : BitVec 6) (s : State) : Host.Outcome State Fault Refusal :=
  issue { h := h, ok := legal (.brax h a), src := regsOf a.toNat 2 } s
    { check := eachCheck (fun s l =>
        let t := (s.gd l a.toNat).toNat
        if t % 4 ≠ 0 then some ⟨fcMisalign, t, false⟩
        else if bits t 57 7 ≠ 0 then some ⟨fcAddrInvalid, t, false⟩
        else none)
      run := fun s ls =>
        let t := fun l => s.gd l a.toNat
        (traceBranch (s.eachLane ls (fun s' l => s'.setPc l (t l))) 1 ls t, []) }

/-! ## Windows and the fibre stack (R119 to R122) -/

def Warp.stackSize (w : Warp) : Nat := bits w.stklim.toNat 16 16 * 256
def Warp.frameSize (w : Warp) : Nat := bits w.stklim.toNat 4 12 * 16

/-- One past the top of a lane's fibre stack. -/
def Warp.stackTop (w : Warp) (l : Nat) : DWord := spField (spField w.stkbase - BitVec.ofNat 64 (l * w.stackSize))

/-- SP after a call of a lane with window advance 4W. -/
def callSp (w : Warp) (l wf : Nat) : Int := ((w.lane l).sp.toNat : Int) - w.frameSize - 16 * (wf + 1)

def addrOfInt (x : Int) : Nat := (dwordOfInt x).toNat

/-- The link record of a lane's call is stored at this address, or no call is made for this reason. -/
def callCheck (s : State) (wf : Nat) (target : Option Nat) (l : Nat) : Except Flt (List Half) :=
  let w := s.curWarp
  let nsp := callSp w l wf
  if 4 * wf ≥ w.window then .error ⟨fcIllegalOp, 0, false⟩
  else match target.filter (fun t => t % 4 != 0) with
    | some t => .error ⟨fcMisalign, t, false⟩
    | none =>
      if nsp - w.frameSize < ((w.stackTop l).toNat : Int) - w.stackSize ∨ (w.lane l).wbase + 4 * wf > 65532 then
        .error ⟨fcStackLimit, addrOfInt nsp, false⟩
      else accessCheck s (whoOf s s.cur.core s.cur.slot l) .store (addrOfInt nsp) 16 1

/-- What a check of an access to the fibre stack leads to: a page that is not resident parks the fibre. -/
def nonResident (r : Except Flt (List Half)) : Bool :=
  match r with
  | .error f => f.code == fcStoreNonres
  | .ok hs => !hs.all (fun h => h.spot.resident)

def stackFault (r : Except Flt (List Half)) : Option Flt :=
  match r with
  | .error f => if f.code = fcStoreNonres then none else some f
  | .ok _ => none

/-- The address of the first non-resident half of an access to the fibre stack. -/
def nonResAddr (r : Except Flt (List Half)) (va : Nat) : Nat :=
  match r with
  | .error f => f.addr
  | .ok hs => match hs.find? (fun h => !h.spot.resident) with
    | some h => h.va
    | none => va

/-- The egress entries that a store needs: one for each half that leaves through the buffer, and one for the WRITTEN bytes of its
line, which leave before it (09_consistency.md R176, R190). -/
def egressNeed (s : State) (w : Who) (cp : Nat) (nib : Bool) (hs : List Half) : Nat :=
  (hs.filter (viaEgress w cp nib)).foldl (fun n h => n + 1 + (match h.spot with
    | .glob pa _ => b2n ((s.core w.core).l1w.any (fun c => c.1 / 128 == pa / 128))
    | .bank _ _ _ => 0)) 0

/-- The egress buffer has room for a store. -/
def egressRoom (s : State) (w : Who) (cp : Nat) (nib : Bool) (hs : List Half) : Bool :=
  egressNeed s w cp nib hs == 0 || decide ((s.core w.core).egress.length + egressNeed s w cp nib hs ≤ 16)

/-- A wait of a batch for an access of its members: an owned line, or an egress entry (09_consistency.md R187, R190). -/
def accessWait (s : State) (isLoad egress : Bool) (cp : Nat) (nib : Bool) (halves : Nat → List Half) (ls : List Nat) : Option Park :=
  let who := fun l => whoOf s s.cur.core s.cur.slot l
  match ls.findSome? (fun l => (halves l).findSome? (halfWait s (who l) isLoad cp)) with
  | some p => some p
  | none => if egress && ls.any (fun l => !egressRoom s (who l) cp nib (halves l)) then some .egress else none

/-- Members store one after the other; those for which the egress buffer has no room are left, and all behind them that need room. -/
def storeEach (s : State) (cp : Nat) (nib : Bool) (halves : Nat → List Half) (store : State → Nat → State) (ls : List Nat) : State × List Nat :=
  ls.foldl (fun (r : State × List Nat) l =>
    let who := whoOf s s.cur.core s.cur.slot l
    if egressNeed r.1 who cp nib (halves l) != 0 && (!r.2.isEmpty || !egressRoom r.1 who cp nib (halves l)) then (r.1, r.2 ++ [l])
    else (store r.1 l, r.2)) (s, [])

/-- After a store: members left behind park at issue, and a full buffer, or one that a member waits for, commits and drains (09 R190). -/
def storesOut (r : State × List Nat) : State :=
  if r.2.isEmpty then egressSettle r.1 r.1.cur.core
  else
    let s := parkAtIssue r.1 r.2 .egress
    if commitWaits s s.cur.core then s else persistPoint s s.cur.core []

def okHalves (r : Except Flt (List Half)) : List Half :=
  match r with
  | .ok hs => hs
  | .error _ => []

/-- A store covers the last byte of a bound window: it posts a message when it reaches its home (13_queues.md R264). -/
def halvesPost (s : State) (hs : List Half) : Bool :=
  !(windowsHit s (hs.flatMap (fun h => match h.spot with
    | .glob pa _ => upFrom h.len pa
    | .bank _ _ _ => []))).isEmpty

/-- A store that posts is a persist point: the batch waits for its results (09 R191), -/
def postWait (s : State) (ls : List Nat) (hs : List Half) : Option Park :=
  if halvesPost s hs && (pendingPersist s.curWarp (lanesMask ls) || commitWaits s s.cur.core) then some .persist else none

/-- and the core commits. -/
def postCommit (s : State) (hs : List Half) : State := if halvesPost s hs then persistPoint s s.cur.core [] else s

/-- A fibre parks at its CALL or RET until a page of its stack is resident, with all its registers live (R127). -/
def parkStack (s : State) (l va : Nat) : State :=
  parkAtIssue (notePage s s.cur.core s.curPart va 2 l s.cur.slot) [l] (.stackPage (pageKey s.curPart va))

/-- The call of one lane (R120). -/
def callLane (s : State) (l wf : Nat) (target : DWord) (hs : List Half) : State :=
  let w := s.curWarp
  let x := w.lane l
  let nsp := spField (dwordOfInt (callSp w l wf))
  let s := writeHalves s (whoOf s s.cur.core s.cur.slot l) 0 hs (bytesLE 8 x.lk.toNat ++ bytesLE 8 wf)
  let s := s.modCurLane l (fun x => { x with
    lk := nextPc s.cur.pc, wbase := x.wbase + 4 * wf, sp := nsp, pc := rpc target,
    frames := if wf = 0 then x.frames else ⟨nsp + 16, 4 * wf, x.wbase, []⟩ :: x.frames })
  (upFrom (4 * wf) (w.window - 4 * wf)).foldl (fun s i => s.setG l i 0) s

/-- CALL and CALLX: `target` gives each lane's target, `check` the one whose alignment is checked. -/
def actCall (wf : Nat) (target : State → Nat → DWord) (check : State → Nat → Option Nat) : Act :=
  { wait := fun s ls =>
      let hs := fun l => okHalves (callCheck s wf (check s l) l)
      (postWait s ls (ls.flatMap hs)).or (accessWait s false true 0 false hs ls)
    check := eachCheck (fun s l => stackFault (callCheck s wf (check s l) l))
    run := fun s0 ls =>
      let chk := fun l => callCheck s0 wf (check s0 l) l
      let stay := ls.filter (fun l => nonResident (chk l))
      let s := s0.eachLane stay (fun s l => parkStack s l (nonResAddr (chk l) (addrOfInt (callSp s0.curWarp l wf))))
      let go := ls.filter (fun l => !stay.contains l)
      let s := postCommit s (go.flatMap (fun l => okHalves (chk l)))
      let r := storeEach s 0 false (fun l => okHalves (chk l)) (fun s l => callLane s l wf (target s0 l) (okHalves (chk l))) go
      (storesOut (traceBranch r.1 2 (go.filter (fun l => !r.2.contains l)) (target s0), r.2), []) }

def execCall (h : Hdr) (w : BitVec 4) (o : BitVec 16) (s : State) : Host.Outcome State Fault Refusal :=
  issue { h := h, guestOk := false } s
    (actCall w.toNat (fun s _ => relTarget s.cur.pc o.toNat 16) (fun _ _ => none))

def execCallx (h : Hdr) (a : BitVec 6) (w : BitVec 4) (s : State) : Host.Outcome State Fault Refusal :=
  issue { h := h, ok := legal (.callx h a w), src := regsOf a.toNat 2, guestOk := false } s
    (actCall w.toNat (fun s l => s.gd l a.toNat) (fun s l => some (s.gd l a.toNat).toNat))

/-- The load of a lane's link record. -/
def retLoad (s : State) (l : Nat) : Except Flt (List Half) :=
  let w := s.curWarp
  let sp := (w.lane l).sp
  if sp.toNat + 16 > (w.stackTop l).toNat then .error ⟨fcStackLimit, sp.toNat, false⟩
  else accessCheck s (whoOf s s.cur.core s.cur.slot l) .load sp.toNat 16 1

/-- The sixteen bytes of a lane's link record. -/
def linkRecord (s : State) (l : Nat) : Nat :=
  ofBytesLE (readHalves s (whoOf s s.cur.core s.cur.slot l) 0 (okHalves (retLoad s l)))

/-- The window count in a link record. -/
def linkW (s : State) (l : Nat) : Nat := bits (linkRecord s l) 64 64

/-- The registers of a lane's frames that its RET brings back from their slots: each with its frame, its number, and the check of
its four bytes (R122, 08_memories.md R164). -/
def retFills (s : State) (l : Nat) : List (Frame × Nat × Except Flt (List Half)) :=
  ((s.curLane l).frames.filter (fun f => decide ((s.curLane l).wbase ≤ f.wbase + 4 * linkW s l))).flatMap
    (fun f => f.spilled.map (fun i => (f, i, accessCheck s (whoOf s s.cur.core s.cur.slot l) .load (f.slot.toNat + 4 * i) 4 1)))

/-- The fault of a lane's RET. -/
def retFault (s : State) (l : Nat) : Option Flt :=
  match stackFault (retLoad s l) with
  | some f => some f
  | none =>
    if nonResident (retLoad s l) then none
    else if linkW s l > 15 ∨ 4 * linkW s l > (s.curLane l).wbase then some ⟨fcStackLimit, (s.curLane l).sp.toNat, false⟩
    else (retFills s l).findSome? (fun x => stackFault x.2.2)

/-- The page that a lane's RET waits for. -/
def retPage (s : State) (l : Nat) : Option Nat :=
  if nonResident (retLoad s l) then some (nonResAddr (retLoad s l) (s.curLane l).sp.toNat)
  else ((retFills s l).find? (fun x => nonResident x.2.2)).map (fun x => nonResAddr x.2.2 (x.1.slot.toNat + 4 * x.2.1))

/-- A spilled register comes back: it takes the word of its slot, or keeps its value at the CALL, which differ only where a
program has written the slot; either is permitted, by a free choice for each register (R122). -/
def fillReg (s : State) (l : Nat) (f : Frame) (i : Nat) (hs : List Half) : State :=
  if i = 0 ∨ Config.free s.free (71000 + 4096 * l + f.wbase + i) % 2 = 0 then s
  else
    let v : Word := BitVec.ofNat 32 (ofBytesLE (readHalves s (whoOf s s.cur.core s.cur.slot l) 0 hs))
    s.modCurLane l (fun x => { x with regs := mset x.regs (f.wbase + i) v })

/-- The return of one lane (R121). -/
def retLane (s : State) (l : Nat) : State :=
  let rec_ := linkRecord s l
  let wf := bits rec_ 64 64
  let s1 := (retFills s l).foldl (fun s x => fillReg s l x.1 x.2.1 (okHalves x.2.2)) s
  s1.modCurLane l (fun x => { x with
    pc := x.lk, lk := rpc (BitVec.ofNat 64 rec_), wbase := x.wbase - 4 * wf,
    sp := spField (x.sp + BitVec.ofNat 64 (16 * (wf + 1) + s.curWarp.frameSize)),
    frames := x.frames.filter (fun f => decide (f.wbase < x.wbase - 4 * wf)) })

def execRet (h : Hdr) (s : State) : Host.Outcome State Fault Refusal :=
  issue { h := h, guestOk := false } s
    { wait := fun s ls => accessWait s true false 0 false
        (fun l => okHalves (retLoad s l) ++ (retFills s l).flatMap (fun x => okHalves x.2.2)) ls
      check := eachCheck retFault
      run := fun s0 ls =>
        let go := ls.filter (fun l => (retPage s0 l).isNone)
        let s := s0.eachLane ls (fun s l => match retPage s0 l with
          | some va => parkStack s l va
          | none => readPast (retLane s l) (whoOf s0 s0.cur.core s0.cur.slot l) 0
              (okHalves (retLoad s0 l) ++ (retFills s0 l).flatMap (fun x => okHalves x.2.2)))
        (traceBranch s 3 go (fun l => (s0.curLane l).lk), []) }

/-! ## Lane masks (R116 to R118) -/

def State.setM (s : State) (k : Nat) (v : Word) : State := s.modCurWarp (fun w => w.writeM k v)

def execJoin (h : Hdr) (m : BitVec 4) (s : State) : Host.Outcome State Fault Refusal :=
  issue { h := h, ok := legal (.join h m), guestOk := false } s
    (.pure (fun s ls => s.setM m.toNat (s.curWarp.mask m.toNat ||| lanesMask ls)))

def execLeave (h : Hdr) (m : BitVec 4) (s : State) : Host.Outcome State Fault Refusal :=
  issue { h := h, ok := legal (.leave h m), guestOk := false } s
    (.pure (fun s ls => s.setM m.toNat (s.curWarp.mask m.toNat &&& ~~~(lanesMask ls))))

def execWaitm (h : Hdr) (m : BitVec 4) (s : State) : Host.Outcome State Fault Refusal :=
  issue { h := h, ok := legal (.waitm h m), guestOk := false } s
    (.pure (fun s ls => parkAfter s (ls.filter (fun l => bitOf (s.curWarp.mask m.toNat).toNat l)) (.waitm m.toNat)))

def execMopSet (h : Hdr) (m : BitVec 4) (r : BitVec 6) (s : State) : Host.Outcome State Fault Refusal :=
  issue { h := h, ok := legal (.mopSet h m r), src := [r.toNat], uniform := true, guestOk := false } s
    (.pure (fun s ls => s.setM m.toNat (s.g (ls.headD 0) r.toNat)))

def execMopAnd (h : Hdr) (m a b : BitVec 4) (s : State) : Host.Outcome State Fault Refusal :=
  issue { h := h, ok := legal (.mopAnd h m a b), uniform := true, guestOk := false } s
    (.pure (fun s _ => s.setM m.toNat (s.curWarp.mask a.toNat &&& s.curWarp.mask b.toNat)))

def execMopOr (h : Hdr) (m a b : BitVec 4) (s : State) : Host.Outcome State Fault Refusal :=
  issue { h := h, ok := legal (.mopOr h m a b), uniform := true, guestOk := false } s
    (.pure (fun s _ => s.setM m.toNat (s.curWarp.mask a.toNat ||| s.curWarp.mask b.toNat)))

def execMopAndn (h : Hdr) (m a b : BitVec 4) (s : State) : Host.Outcome State Fault Refusal :=
  issue { h := h, ok := legal (.mopAndn h m a b), uniform := true, guestOk := false } s
    (.pure (fun s _ => s.setM m.toNat (s.curWarp.mask a.toNat &&& ~~~(s.curWarp.mask b.toNat))))

def execMopBatch (h : Hdr) (m : BitVec 4) (s : State) : Host.Outcome State Fault Refusal :=
  issue { h := h, ok := legal (.mopBatch h m), uniform := true, guestOk := false } s
    (.pure (fun s ls => s.setM m.toNat (lanesMask ls)))

/-- MOP.ballot: under HAZCHK a member whose own predicate is pending raises HAZARD, and the others are balloted (03 R54; DESIGN CHOICE, log
114). -/
def execMopBallot (h : Hdr) (m a : BitVec 4) (s : State) : Host.Outcome State Fault Refusal :=
  issue { h := h, ok := legal (.mopBallot h m a), uniform := true, guestOk := false } s
    { check := eachCheck (fun s l => if hazOn s s.cur.core && !(pendP s.curWarp.pend l a.toNat).isEmpty then some ⟨fcHazard, a.toNat, false⟩ else none)
      run := fun s ls => (s.setM m.toNat (lanesMask (ls.filter (fun l => s.p l a.toNat))), []) }

/-! ## Fibre creation and ending (R123, R124) -/

/-- The width of work field 0 of a launch (W0 of its header). -/
def fieldWidth0 (s : State) (launch : Nat) : Nat :=
  match mfind s.launches launch with
  | some l => l.header.field 48 1
  | none => 0

/-- The lane that a spawn of the current warp takes, with the new fibre's field 0. -/
def spawnLane (s : State) : Option (Nat × Nat) :=
  let w := s.curWarp
  match (upFrom 32 0).find? (fun e => (w.lane e).state == .empty) with
  | none => none
  | some e => if 32 * w.index + e < 2 ^ fieldWidth0 s w.launch then some (e, 32 * w.index + e) else none

/-- The spawn of one member. -/
def spawnOne (q a b : Nat) (s0 s : State) (l : Nat) : State :=
  let t := s0.gd l a
  let arg := s0.g l b 1
  let s := s.setP l q false
  if (s.curLane l).guest.isSome then s
  else match spawnLane s with
    | none => s
    | some (e, idx) =>
      let w := s.curWarp
      let w0 := fieldWidth0 s w.launch
      let fresh : Lane := {
        state := .ready, pc := rpc t, regs := [(1, arg)], sp := w.stackTop e
        workid := BitVec.ofNat 64 (setBits (w.lane l).workid.toNat 0 w0 idx) }
      ((s.modCurWarp (fun w => clearMaskBits w e)).modCurLane e (fun _ => fresh)).setP l q true

def execFspawn (h : Hdr) (q : BitVec 4) (a b : BitVec 6) (s : State) : Host.Outcome State Fault Refusal :=
  issue { h := h, ok := legal (.fspawn h q a b), src := regsOf a.toNat 2 ++ [b.toNat], pdst := [q.toNat] } s
    { check := eachCheck (fun s l =>
        if (s.gd l a.toNat).toNat % 4 ≠ 0 then some ⟨fcMisalign, (s.gd l a.toNat).toNat, false⟩ else none)
      run := fun s ls => (s.eachLane ls (spawnOne q.toNat a.toNat b.toNat s), []) }

/-- The end of members: guests send an end shuttle, together (14_shuttles.md R285, R291). -/
def endMembers (keep : Bool) (s : State) (ls : List Nat) : State :=
  let away := ls.filter (fun l => (s.curLane l).guest.isSome)
  let s1 := s.eachLane (ls.filter (fun l => (s.curLane l).guest.isNone)) (fun s l => endLane s s.cur.core s.cur.slot l keep)
  if away.isEmpty then s1 else sendAll s1 s1.cur.core s1.cur.slot away (nextPc s1.cur.pc) { ended := keep, exited := !keep }

/-- The end of the members: a guest whose MIGSET names a poisoned register raises POISON_READ and stays, once its pending results have
been written (14_shuttles.md R285, steps 1 and 2; log 106). -/
def actEnd (keep : Bool) : Act :=
  { wait := fun s ls =>
      let go := ls.filter (fun l => (s.curLane l).guest.isSome && (migPoison s l).isSome)
      if !go.isEmpty && pendingPersist s.curWarp (lanesMask go) then some .persist else none
    check := eachCheck (fun s l => if (s.curLane l).guest.isSome then (migPoison s l).map (fun i => ⟨fcPoisonRead, i, false⟩) else none)
    run := fun s ls => (endMembers keep s ls, []) }

def execFend (h : Hdr) (s : State) : Host.Outcome State Fault Refusal :=
  issue { h := h } s (actEnd true)

def execExit (h : Hdr) (s : State) : Host.Outcome State Fault Refusal :=
  issue { h := h } s (actEnd false)

/-! ## Yielding, napping, safe points (R125 to R127) -/

def execYield (h : Hdr) (s : State) : Host.Outcome State Fault Refusal :=
  issue { h := h } s
    (.pure (fun s _ => s.eachLane s.members (fun s l => s.modCurLane l (fun x =>
      if x.state = .ready then { x with defer := 16 } else x))))

def execNap (h : Hdr) (a : BitVec 6) (s : State) : Host.Outcome State Fault Refusal :=
  issue { h := h, src := [a.toNat] } s
    (.pure (fun s ls => s.eachLane ls (fun s l =>
      let d := min (s.g l a.toNat).toNat 1048576
      if d = 0 then s
      else s.modCurLane l (fun x => { x with
        state := .napping, wake := s.time + d + Config.free s.free (6000 + l) % 65 }))))

/-- SAFE of one member: the count restarts, and under a pending stop a fibre at home parks. -/
def safeLane (live : BitVec 16) (s : State) (l : Nat) : State :=
  let s := s.modCurLane l (fun x => { x with safecnt := 0, live := live })
  if stopPending s s.cur.core s.cur.slot l && (s.curLane l).guest.isNone then parkAfter s [l] .safePoint else s

/-- The recall that a guest's SAFE meets: a poisoned register of its MIGSET keeps it from departing, once its pending results have
been written (14_shuttles.md R285, R295). -/
def safeRecall (s : State) (l : Nat) : Option (Option Nat) :=
  if (s.curLane l).guest.isSome && stopPending s s.cur.core s.cur.slot l then some (migPoison s l) else none

def execSafe (h : Hdr) (l : BitVec 16) (s : State) : Host.Outcome State Fault Refusal :=
  issue { h := h, isSafe := true } s
    { wait := fun s ls =>
        let go := ls.filter (fun k => (safeRecall s k).isSome)
        if !go.isEmpty && (pendingPersist s.curWarp (lanesMask go) || commitWaits s s.cur.core) then some .persist else none
      check := eachCheck (fun s k => (safeRecall s k).bind (fun p => p.map (fun i => ⟨fcPoisonRead, i, false⟩)))
      run := fun s ls =>
        let go := ls.filter (fun k => (safeRecall s k).isSome)
        let s := s.eachLane ls (safeLane l)
        (if go.isEmpty then s else sendAll s s.cur.core s.cur.slot go (nextPc s.cur.pc) { recalled := true }, []) }

/-! ## Traps, breakpoints and resumption (R128, R129) -/

def execTrap (h : Hdr) (c : BitVec 16) (s : State) : Host.Outcome State Fault Refusal :=
  issue { h := h } s { run := fun s ls => (s, ls.map (fun l => (l, (⟨fcTrap, c.toNat, false⟩ : Flt)))) }

/-- Debug state HALT of the partition of a core (16_tables.md R337). -/
def inHalt (s : State) (core : Nat) : Bool :=
  match s.partOfCore core with
  | some p => (s.part p).debug == 2
  | none => false

def execBrk (_u : BitVec 1) (_v : BitVec 4) (c : BitVec 16) (s : State) : Host.Outcome State Fault Refusal :=
  issue { h := ⟨false, false, 0⟩ } s
    { run := fun s ls =>
        if inHalt s s.cur.core then (s.modCore s.cur.core (fun k => { k with stopped := true }), [])
        else (s, ls.map (fun l => (l, (⟨fcBrk, c.toNat, false⟩ : Flt)))) }

/-- The lane of a saved group that a fault handle names (17_faults.md R350): the group's key, the slot and the lane. -/
def savedLane (s : State) (h : DWord) : Option (Nat × Nat × Nat) :=
  let core := bits h.toNat 56 8
  let slot := bits h.toNat 50 6
  let l := bits h.toNat 45 5
  s.saved.findSome? (fun x => if x.2.core = core then
    match mfind x.2.warps slot with
    | some w => if (w.lane l).state == .faulted && h.toNat == handleOf core slot l (w.lane l).fseq then some (x.1, slot, l) else none
    | none => none
    else none)

/-- TRET on a lane of a saved group: the lane changes as that of a resident fibre, and the handler may be posted to again
(R344, 17_faults.md R350). -/
def tretSaved (k : TretKind) (w : Warp) (l : Nat) : Warp :=
  let w := match k with
    | .ended => (dropLaneResults (clearMaskBits w l) l).modLane l Lane.exited
    | k => w.modLane l (tretLane k)
  { w with posted := false, retryAt := none }

/-- The launch that a lane's instruction is judged by (R290). -/
def issuerLaunch (s : State) (l : Nat) : Nat :=
  match (s.curLane l).guest with
  | some g => g.launch
  | none => s.curWarp.launch

/-- TRET of one member: the named fibre's return, or ILLEGAL_OP for the member. -/
def tretOne (k : TretKind) (hnd : Nat → DWord) (r : State × List (Nat × Flt)) (l : Nat) : State × List (Nat × Flt) :=
  let s := r.1
  let bad := (s, r.2 ++ [(l, (⟨fcIllegalOp, 0, false⟩ : Flt))])
  match handleLane s (hnd l) with
  | some (core, slot, t) =>
    (match s.warp? core slot with
      | none => bad
      | some w => if serves s (issuerLaunch s l) w.launch then (tretAct s core slot t k, r.2) else bad)
  | none => match savedLane s (hnd l) with
    | none => bad
    | some (key, slot, t) => match mfind s.saved key with
      | none => bad
      | some g =>
        if serves s (issuerLaunch s l) g.launch then
          let g' := { g with warps := mmod g.warps slot (fun w => tretSaved k w t) }
          (slotLaneWrite { s with saved := mset s.saved key g' } g' slot t, r.2)
        else bad

def actTret (a : BitVec 6) (k : TretKind) : Act :=
  { wait := fun s ls => (ls.find? (fun l => (s.core (bits (s.gd l a.toNat).toNat 56 8)).resuming)).map
      (fun l => .resuming (bits (s.gd l a.toNat).toNat 56 8))
    run := fun s ls =>
      let hnd := fun l => s.gd l a.toNat
      ls.foldl (tretOne k hnd) (s, []) }

def execTretResume (h : Hdr) (a : BitVec 6) (s : State) : Host.Outcome State Fault Refusal :=
  issue { h := h, ok := legal (.tretResume h a), src := regsOf a.toNat 2 } s (actTret a .resume)

def execTretSkip (h : Hdr) (a : BitVec 6) (s : State) : Host.Outcome State Fault Refusal :=
  issue { h := h, ok := legal (.tretSkip h a), src := regsOf a.toNat 2 } s (actTret a .skip)

def execTretEnd (h : Hdr) (a : BitVec 6) (s : State) : Host.Outcome State Fault Refusal :=
  issue { h := h, ok := legal (.tretEnd h a), src := regsOf a.toNat 2 } s (actTret a .ended)

end Sys2Proof.Machine
end

