-- ==== Sys2Proof/Machine/Depart.lean ====
section
/-! DEFINITION. Thread migration: homes, targets, acceptance, departures (14_shuttles.md R282 to R287, R293), and the
grouping of a batch's members into departures. -/

namespace Sys2Proof.Machine

/-- Where a migrating access takes a fibre. -/
inductive MigDest where
  | stay
  | home
  | away (core : Nat)
  deriving DecidableEq, Repr

/-- The fibre's home core when it runs as a guest. -/
def guestHome (s : State) (l : Nat) : Option Nat := (s.curLane l).guest.map (·.origin)

/-- The target of a migration to an address located there (R282, R283). -/
def migTarget (s : State) (l : Nat) (sp : Spot) : MigDest :=
  match sp with
  | .bank _ _ none => .stay
  | .bank _ _ (some c) => if c = s.cur.core ∨ guestHome s l = some c then .stay else .away c
  | .glob pa _ => match paTarget pa with
    | .hbm =>
      if s.cur.core / 32 = stackOf pa then .stay
      else if guestHome s l = some (targetCore pa) then .home
      else .away (targetCore pa)
    | _ => .stay

/-- Shuttle-queue entries of a core in use or reserved by shuttles on their way (R285, R287). -/
def queueUsed (s : State) (core : Nat) : Nat :=
  (s.core core).st.shuttles.length + (s.transit.filter (fun x => !x.homeward && x.target == core && !x.settled)).length

/-- The target accepts a departure of `n` fibres of a partition (R287). -/
def migAccepts (s : State) (target part n : Nat) : Bool :=
  let k := s.core target
  decide (queueUsed s target + n ≤ 256) && k.power == .active && !k.gateReq && !k.resuming && s.partOfCore target == some part

/-- The members bound for each target, in order of their lowest lane. -/
def migGroups (dest : Nat → MigDest) (ls : List Nat) : List (Nat × List Nat) :=
  ls.foldl (fun (gs : List (Nat × List Nat)) l => match dest l with
    | .away t =>
      if gs.any (fun g => g.1 == t) then gs.map (fun g => if g.1 = t then (t, g.2 ++ [l]) else g) else gs ++ [(t, [l])]
    | _ => gs) []

/-- Members whose departure is accepted, and those whose departure is refused, a bounced one included. -/
def migDecide (s : State) (part : Nat) (dest : Nat → MigDest) (ls : List Nat) : List (Nat × List Nat) × List Nat :=
  let free := ls.filter (fun l => !(s.curLane l).bounced)
  let gs := migGroups dest free
  let ok := gs.filter (fun g => migAccepts s g.1 part g.2.length)
  (ok, ls.filter (fun l => (match dest l with | .away _ => true | _ => false) && !ok.any (fun g => g.2.contains l)))

/-- What a fibre's shuttle carries about it. -/
def guestOf (s : State) (l gtag : Nat) : Guest :=
  let w := s.curWarp
  let x := w.lane l
  match x.guest with
  | some g => { g with hops := min (g.hops + 1) 255, seq := g.seq + 1, gtag := gtag }
  | none =>
    { origin := s.cur.core, homeSlot := s.cur.slot, lane := l, hops := 1, taskid := BitVec.ofNat 32 (taskidOf s s.cur.core s.cur.slot l)
      launch := w.launch, seq := x.seq + 1, gtag := gtag
      prio := match (s.core s.cur.core).st.ctx? w.launch with | some c => c.prio | none => 0
      gfl := 0, migset := w.migset }

/-- The shuttle of one departing member. -/
def shuttleOf (s : State) (l id gtag target mode : Nat) (pc : DWord) : Shuttle :=
  let w := s.curWarp
  let x := w.lane l
  let g := guestOf s l gtag
  { id := id, fromCore := s.cur.core, fromSlot := s.cur.slot, fromLane := l, target := target, pc := pc, sp := x.sp, pw := x.pw
    safecnt := x.safecnt, workid := x.workid, g := g, mode := mode, regs := carryRegs w l g.migset }

/-- One shuttle per departing member. -/
def shuttlesOf (s : State) (gtag target mode : Nat) (pc : DWord) : Nat → List Nat → List Shuttle
  | _, [] => []
  | id, l :: ls => shuttleOf s l id gtag target mode pc :: shuttlesOf s gtag target mode pc (id + 1) ls

/-- A departing fibre's home lane enters AWAY (R285); a guest's lane is free, its state being kept with its shuttle (R289). -/
def awayLane (pc : DWord) (x : Lane) : Lane :=
  if x.guest.isSome then {}
  else { x with state := .away, park := .none, pc := pc, hints := [], tag := 0, counted := false, seq := x.seq + 1 }

/-- An accepted departure: the members leave, the phase end and the commit come before their shuttles are sent (R285); a guest
warp ends with its last fibre's departure (R289). -/
def depart (s : State) (ls : List Nat) (target mode : Nat) (pc : DWord) : State :=
  let gtag := s.fresh
  let shs := shuttlesOf s gtag target mode pc (gtag + 1) ls
  let s := { s with fresh := gtag + 1 + ls.length }
  let s := match ls with
    | [] => s
    | l :: _ => traceAdd s s.cur.core 7 (s.curLane l).guest.isSome s.cur.slot l (target * 2 ^ 72 + bits pc.toNat 0 57)
  let s := reapGuestWarp (s.eachLane ls (fun s l => s.modCurLane l (awayLane pc))) s.cur.core s.cur.slot
  let s := countEvent s s.cur.core 0x09 ls.length
  let s := releaseWide s s.cur.core
  { s with transit := s.transit ++ shs }

/-- Departing members stand at the migrating instruction until they leave. -/
def standBack (s : State) (ls : List Nat) : State :=
  s.eachLane ls (fun s l => s.modCurLane l (fun x => { x with pc := s.cur.hpc }))

/-- MIGFALLBACK of the current core counts refused fibres (R287). -/
def countFallback (s : State) (n : Nat) : State :=
  s.modSt s.cur.core (fun k => { k with migfallback := k.migfallback + BitVec.ofNat 64 n })

/-- Members whose departure the batch must park for: their results are pending (R285, step 1). -/
def migWaits (s : State) (dest : Nat → MigDest) (ls : List Nat) : Bool :=
  let go := ls.filter (fun l => dest l != .stay && !(s.curLane l).bounced)
  !go.isEmpty && (pendingPersist s.curWarp (lanesMask go) || commitWaits s s.cur.core)

def clearBounced (s : State) (ls : List Nat) : State :=
  s.eachLane ls (fun s l => s.modCurLane l (fun x => { x with bounced := false }))

/-- The departures of a migrating instruction: homeward returns and accepted groups. -/
def departAll (s : State) (mode : Nat) (pc : DWord) (homes : List Nat) (groups : List (Nat × List Nat)) : State :=
  let s := if homes.isEmpty then s else sendAll s s.cur.core s.cur.slot homes pc {}
  groups.foldl (fun s g => depart s g.2 g.1 mode pc) s

/-! ## MIGTO, MIGRET, REGRP (R292, R293) -/

/-- Where MIGTO takes a member: the address is checked by check 2 alone. -/
def migtoDest (s : State) (a : Nat) (l : Nat) : MigDest :=
  match locate s (whoOf s s.cur.core s.cur.slot l) (s.gd l a).toNat with
  | none => .stay
  | some sp => migTarget s l sp

def execMigto (h : Hdr) (a : BitVec 6) (s : State) : Host.Outcome State Fault Refusal :=
  issue { h := h, ok := legal (.migto h a), src := regsOf a.toNat 2 } s
    { wait := fun s ls => if migWaits s (migtoDest s a.toNat) ls then some .persist else none
      check := eachCheck (fun s l =>
        let va := (s.gd l a.toNat).toNat
        if (locate s (whoOf s s.cur.core s.cur.slot l) va).isNone then some ⟨fcAddrInvalid, va, false⟩
        else match migtoDest s a.toNat l with
          | .stay => none
          | _ => (migPoison s l).map (fun i => ⟨fcPoisonRead, i, false⟩))
      run := fun s ls =>
        let dest := migtoDest s a.toNat
        let d := migDecide s s.curPart dest ls
        let homes := ls.filter (fun l => dest l == .home)
        let s := clearBounced (countFallback s d.2.length) ls
        let s := standBack s (homes ++ d.1.flatMap (·.2))
        (departAll s 2 (nextPc s.cur.pc) homes d.1, []) }

def execMigret (h : Hdr) (s : State) : Host.Outcome State Fault Refusal :=
  issue { h := h } s
    { wait := fun s ls => if migWaits s (fun l => if (s.curLane l).guest.isSome then .home else .stay) ls then some .persist else none
      check := eachCheck (fun s l => if (s.curLane l).guest.isSome then (migPoison s l).map (fun i => ⟨fcPoisonRead, i, false⟩) else none)
      run := fun s ls => (departAll s 2 (nextPc s.cur.pc) (ls.filter (fun l => (s.curLane l).guest.isSome)) [], []) }

/-- No lane of a mask is AWAY. -/
def regrouped (w : Warp) (k : Nat) : Bool := (maskLanes (w.mask k)).all (fun l => (w.lane l).state != .away)

def execRegrp (h : Hdr) (m : BitVec 4) (s : State) : Host.Outcome State Fault Refusal :=
  issue { h := h, ok := legal (.regrp h m), uniform := true, guestOk := false } s
    (.pure (fun s ls => if regrouped s.curWarp m.toNat then s
      else parkHere s h (s.members.filter (fun l => ls.contains l || (s.curLane l).state == .ready)) (.regrp m.toNat)))

end Sys2Proof.Machine
end

