-- ==== Sys2Proof/Machine/LoadStore.lean ====
section
/-! DEFINITION. Loads, stores and STN (10_memory_instructions.md R194 to R200), with the frame of a thread access that
the atomics share: the checks of Table 10-1, migration (14_shuttles.md R284) and the access of the members that stay. -/

namespace Sys2Proof.Machine

/-- A thread memory instruction: what it checks and where it goes. -/
structure MemForm where
  kind : AccKind
  size : Nat
  align : Nat
  addr : State → Nat → Nat
  /-- Migration mode: 0 none, 1 .mg, 2 .mgq. -/
  mode : State → Nat
  /-- The register that a POISON_READ of a lost line names (12_stacks.md R253). -/
  reg : Nat
  nib : Bool := false

def MemForm.check (m : MemForm) (s : State) (l : Nat) : Except Flt (List Half) :=
  accessCheck s (whoOf s s.cur.core s.cur.slot l) m.kind (m.addr s l) m.size m.align

def MemForm.halves (m : MemForm) (s : State) (l : Nat) : List Half := okHalves (m.check s l)

/-- The mode in force: the instruction's, or .mg for a page with MIGRATE (R284). -/
def MemForm.modeAt (m : MemForm) (s : State) (hs : List Half) : Nat :=
  if m.mode s ≠ 0 then m.mode s
  else match hs with
    | ⟨_, _, .glob _ leaf⟩ :: _ => if leaf.migrate then 1 else 0
    | _ => 0

/-- Where the access of a member is performed. -/
def MemForm.dest (m : MemForm) (s : State) (l : Nat) : MigDest :=
  match m.halves s l with
  | [] => .stay
  | h :: hs => if m.modeAt s (h :: hs) = 0 then .stay else migTarget s l h.spot

/-- The members that perform here, in ascending order, with the refused ones of .mg. -/
def MemForm.here (m : MemForm) (s : State) (ls refused : List Nat) : List Nat :=
  ls.filter (fun l => m.dest s l == .stay || (refused.contains l && m.modeAt s (m.halves s l) == 1))

/-- A member's access meets a line with a reserved tag, which is then rewritten (12_stacks.md R253). -/
def MemForm.lost (m : MemForm) (s : State) (l : Nat) : Bool :=
  (m.halves s l).any (meetsBadTag s (whoOf s s.cur.core s.cur.slot l) s.modrCp)

def clearLost (s : State) (hs : List Half) : State :=
  hs.foldl (fun s h => match h.spot with
    | .glob pa _ => if tagReserved s pa then clearTagged s pa else s
    | .bank _ _ _ => s) s

/-- A store of a member covers the last byte of a bound window: it posts a message when it reaches its home (13 R264); an atomic is a
persist point in any case. -/
def MemForm.posts (m : MemForm) (s : State) (ls : List Nat) : Bool :=
  m.kind != .load && m.kind != .atomic && halvesPost s (ls.flatMap (m.halves s))

/-- The members that perform at the present state of the targets (R284, R287). -/
def MemForm.stays (m : MemForm) (s : State) (ls : List Nat) : List Nat := m.here s ls (migDecide s s.curPart (m.dest s) ls).2

/-- The meaning of a thread access: `perform` acts for the members that perform here, in ascending order, and answers those for
which the egress buffer has no room. A store that posts is a persist point (09 R191). -/
def memAct (m : MemForm) (egress : Bool) (reads : Bool) (perform : State → List Nat → State × List Nat) : Act :=
  { wait := fun s ls =>
      if migWaits s (m.dest s) ls then some .persist
      else if m.posts s (m.stays s ls) && (pendingPersist s.curWarp (lanesMask ls) || commitWaits s s.cur.core) then some .persist
      else accessWait s (m.kind == .load) egress s.modrCp m.nib (m.halves s) (m.stays s ls)
    check := eachCheck (fun s l => match m.check s l with
      | .error f => some f
      | .ok _ => if m.dest s l == .stay then none
        else if (s.curLane l).bounced then none
        else (migPoison s l).map (fun i => ⟨fcPoisonRead, i, false⟩))
    run := fun s0 ls =>
      let d := migDecide s0 s0.curPart (m.dest s0) ls
      let homes := ls.filter (fun l => m.dest s0 l == .home)
      let here := m.here s0 ls d.2
      let mgq := d.2.filter (fun l => !here.contains l)
      let bad := if reads then here.filter (m.lost s0) else []
      let go := here.filter (fun l => !bad.contains l)
      let s := clearBounced (countFallback s0 (d.2.length - mgq.length)) ls
      let s := standBack s (homes ++ d.1.flatMap (·.2))
      let s := if m.posts s0 go then persistPoint s s.cur.core [] else s
      let r := perform s go
      let s := memSample r.1 (go.filter (fun l => !r.2.contains l)) (m.addr s0) m.size (m.kind != .load)
      let s := bad.foldl (fun s l => clearLost s (m.halves s0 l)) s
      let s := departAll (if egress then storesOut (s, r.2) else s) 0 s.cur.hpc homes d.1
      (s, mgq.map (fun l => (l, (⟨fcMigRefused, m.addr s0 l, false⟩ : Flt))) ++
          bad.map (fun l => (l, (⟨fcPoisonRead, m.reg, false⟩ : Flt)))) }

/-- The effective address of an FM form (R194). -/
def fmAddr (a : BitVec 6) (i : BitVec 5) (scale : Nat) (s : State) (l : Nat) : Nat :=
  let off := match s.imm with | some v => v | none => i.toInt * scale
  (s.gd l a.toNat + dwordOfInt off).toNat

/-! ## Loads (R198) -/

def formLoad (h : Hdr) (d a : BitVec 6) (i : BitVec 5) (ok : Bool) (words : Nat) (r : BitVec 3) : Form :=
  { h := h, ok := ok, acc := { imm1 := true, imm2 := true, cp := true, mg := true }, immZero := i == 0,
    src := regsOf a.toNat 2, dst := regsOf d.toNat words, pdst := [8 + r.toNat] }

def memLoad (a : BitVec 6) (i : BitVec 5) (d : BitVec 6) (n : Nat) : MemForm :=
  { kind := .load, size := n, align := 1, addr := fmAddr a i n, mode := fun s => s.modrMg, reg := d.toNat }

/-- The destination words of a loaded value. -/
def effWords (w : Warp) (l d v : Nat) : Nat → List Eff
  | 0 => []
  | n + 1 => effG w l d (BitVec.ofNat 32 v) ++ effWords w l (d + 1) (v / 2 ^ 32) n

/-- The load of one member: its value and its residency predicate, and what it leaves in the L1. -/
def loadLane (m : MemForm) (words d r : Nat) (s0 s : State) (l : Nat) : State :=
  let hs := m.halves s0 l
  let who := whoOf s0 s0.cur.core s0.cur.slot l
  let v := ofBytesLE (readHalves s who s0.modrCp hs)
  readPast (s.addLane l (effWords s.curWarp l d v words ++ effP l (8 + r) (hs.all (fun h => h.spot.resident))) 0) who s0.modrCp hs

/-- The loads of a batch, one member after the other (R195). -/
def loadEach (m : MemForm) (words d r : Nat) (s : State) (ls : List Nat) : State := s.eachLane ls (loadLane m words d r s)

def actLoad (d a : BitVec 6) (r : BitVec 3) (i : BitVec 5) (n words : Nat) : Act :=
  memAct (memLoad a i d n) false true (fun s ls => (loadEach (memLoad a i d n) words d.toNat r.toNat s ls, []))

def execLdb (h : Hdr) (d a : BitVec 6) (r : BitVec 3) (i : BitVec 5) (s : State) : Host.Outcome State Fault Refusal :=
  issue (formLoad h d a i (legal (.ldb h d a r i)) 1 r) s (actLoad d a r i 1 1)

def execLdh (h : Hdr) (d a : BitVec 6) (r : BitVec 3) (i : BitVec 5) (s : State) : Host.Outcome State Fault Refusal :=
  issue (formLoad h d a i (legal (.ldh h d a r i)) 1 r) s (actLoad d a r i 2 1)

def execLdw (h : Hdr) (d a : BitVec 6) (r : BitVec 3) (i : BitVec 5) (s : State) : Host.Outcome State Fault Refusal :=
  issue (formLoad h d a i (legal (.ldw h d a r i)) 1 r) s (actLoad d a r i 4 1)

def execLdd (h : Hdr) (d a : BitVec 6) (r : BitVec 3) (i : BitVec 5) (s : State) : Host.Outcome State Fault Refusal :=
  issue (formLoad h d a i (legal (.ldd h d a r i)) 2 r) s (actLoad d a r i 8 2)

def execLdq (h : Hdr) (d a : BitVec 6) (r : BitVec 3) (i : BitVec 5) (s : State) : Host.Outcome State Fault Refusal :=
  issue (formLoad h d a i (legal (.ldq h d a r i)) 4 r) s (actLoad d a r i 16 4)

/-! ## Stores (R199, R200) -/

def formStore (h : Hdr) (d a : BitVec 6) (i : BitVec 5) (ok : Bool) (words : Nat) : Form :=
  { h := h, ok := ok, acc := { imm1 := true, imm2 := true, cp := true }, immZero := i == 0,
    src := regsOf a.toNat 2 ++ regsOf d.toNat words }

def memStore (a : BitVec 6) (i : BitVec 5) (n mode : Nat) : MemForm :=
  { kind := .store, size := n, align := 1, addr := fmAddr a i n, mode := fun _ => mode, reg := 0 }

/-- The store of one member. -/
def storeLane (m : MemForm) (data : Nat → Nat) (s0 s : State) (l : Nat) : State :=
  writeHalves s (whoOf s0 s0.cur.core s0.cur.slot l) s0.modrCp (m.halves s0 l) (bytesLE m.size (data l))

/-- The stores of a batch. -/
def storesAct (m : MemForm) (data : State → Nat → Nat) (s : State) (ls : List Nat) : State × List Nat :=
  storeEach s s.modrCp m.nib (m.halves s) (storeLane m (data s) s) ls

def actStore (a : BitVec 6) (i : BitVec 5) (n mode : Nat) (data : State → Nat → Nat) : Act :=
  memAct (memStore a i n mode) true false (storesAct (memStore a i n mode) data)

def execStb (h : Hdr) (d a : BitVec 6) (r : BitVec 3) (i : BitVec 5) (s : State) : Host.Outcome State Fault Refusal :=
  issue (formStore h d a i (legal (.stb h d a r i)) 1) s (actStore a i 1 r.toNat (fun s l => (s.g l d.toNat 2).toNat))

def execSth (h : Hdr) (d a : BitVec 6) (r : BitVec 3) (i : BitVec 5) (s : State) : Host.Outcome State Fault Refusal :=
  issue (formStore h d a i (legal (.sth h d a r i)) 1) s (actStore a i 2 r.toNat (fun s l => (s.g l d.toNat 2).toNat))

def execStw (h : Hdr) (d a : BitVec 6) (r : BitVec 3) (i : BitVec 5) (s : State) : Host.Outcome State Fault Refusal :=
  issue (formStore h d a i (legal (.stw h d a r i)) 1) s (actStore a i 4 r.toNat (fun s l => (s.g l d.toNat 2).toNat))

def execStd (h : Hdr) (d a : BitVec 6) (r : BitVec 3) (i : BitVec 5) (s : State) : Host.Outcome State Fault Refusal :=
  issue (formStore h d a i (legal (.std h d a r i)) 2) s (actStore a i 8 r.toNat (fun s l => (s.gd l d.toNat 2).toNat))

def execStq (h : Hdr) (d a : BitVec 6) (r : BitVec 3) (i : BitVec 5) (s : State) : Host.Outcome State Fault Refusal :=
  issue (formStore h d a i (legal (.stq h d a r i)) 4) s (actStore a i 16 r.toNat (fun s l => s.gq l d.toNat 2))

def memStn (a : BitVec 6) (i : BitVec 5) (mode : Nat) : MemForm :=
  { kind := .stn, size := 1, align := 1, addr := fmAddr a i 1, mode := fun _ => mode, reg := 0, nib := true }

/-- The masked merge of one member: at the bank, or through the egress buffer to the home slice (09_consistency.md R179). -/
def stnLane (m : MemForm) (hi : Bool) (data : Nat → Nat) (s0 s : State) (l : Nat) : State :=
  let who := whoOf s0 s0.cur.core s0.cur.slot l
  match m.halves s0 l with
  | h :: _ =>
    (match h.spot with
      | .bank c o _ =>
        if c = who.core then scratchWrite s c o [setNibble hi (data l % 16) (memRead (s.core c).st.scratch o)]
        else egressPush s who.core (remoteStore who h (.scratchNib c o hi (data l % 16))) none
      | .glob pa leaf =>
        egressPush s who.core { kind := .nibble pa hi (data l % 16), comp := leaf.comp, vaddr := h.va, part := who.part } (some (pa / 128)))
  | [] => s

def execStn (h : Hdr) (d a : BitVec 6) (hf : BitVec 1) (r : BitVec 2) (i : BitVec 5) (s : State) : Host.Outcome State Fault Refusal :=
  issue (formStore h d a i (legal (.stn h d a hf r i)) 1) s
    (memAct (memStn a i r.toNat) true false
      (fun s ls => storeEach s s.modrCp true ((memStn a i r.toNat).halves s)
        (stnLane (memStn a i r.toNat) (hf == 1) (fun l => (s.g l d.toNat 2).toNat) s) ls))

end Sys2Proof.Machine
end

