-- ==== Sys2Proof/Machine/Atomic.lean ====
section
/-! DEFINITION. Atomics (10_memory_instructions.md R201 to R205; 09_consistency.md R186, R191; 08_memories.md R169). -/

namespace Sys2Proof.Machine

/-- The scope of an atomic or a phase: 0 takes .pkg (R174). -/
def scopeOf (c : Nat) : Nat := if c = 0 then 4 else c

/-- The new value of a 32- or 64-bit operation OP of type T (R202). -/
def atomNew (o t old v : Nat) : Nat :=
  let w := if t ≤ 1 then 32 else 64
  let sg := t == 0 || t == 2
  let le : Bool := if sg then decide (sext old w ≤ sext v w) else decide (old ≤ v)
  match o with
  | 0 => (old + v) % 2 ^ w
  | 1 => v
  | 2 => if le then old else v
  | 3 => if le then v else old
  | 4 => old &&& v
  | 5 => old ||| v
  | _ => old ^^^ v

/-- The new value and the flags of an .f32 operation (R203). -/
def atomfNew (o old v : Nat) : Nat × OpFlags :=
  match o with
  | 0 => f32Add .rn old v
  | 1 => FFmt.f32.minMax false old v
  | _ => FFmt.f32.minMax true old v

/-- The peer ports have acknowledged every write sent (R207, at .sys). -/
def acknowledgePeers (s : State) : State := { s with peers := s.peers.map (fun x => (x.1, { x.2 with sent := [] })) }

/-- The value at the home or the bank as the issuing core holds it exclusively. -/
def atomRead (s : State) (who : Who) (n : Nat) : Spot → Nat
  | .bank c o _ => ofBytesLE (memReads (s.core c).st.scratch o n)
  | .glob pa _ => ofBytesLE ((upFrom n pa).map (coreByte s who.core false))

/-- The line's WRITTEN bytes reach their home before the core's L1 takes the line exclusively (09 R186), and no older copy stays. -/
def takeLine (s : State) (who : Who) : Spot → State
  | .bank _ _ _ => s
  | .glob pa _ => dropShared (publishWritten s who.core (fun a => a / 128 == pa / 128)) who.core (pa / 128)

/-- The new value written in the same step: at the bank, or at the home slice. -/
def atomWrite (s : State) (who : Who) (n v : Nat) : Spot → State
  | .bank c o _ => scratchWrite s c o (bytesLE n v)
  | .glob pa leaf =>
    let t := cellsWrite s (who.core + 1) leaf.comp ((upFrom n pa).zip (bytesLE n v))
    storesArrive t t who.part (upFrom n pa)

/-- What an atomic does with the old value: the new value, if one is written, and its flags. -/
abbrev AtomFn := State → Nat → Nat → Option Nat × OpFlags

/-- An atomic instruction. -/
structure AtomForm where
  size : Nat
  addr : Nat
  /-- The destination register and its words; none for RED. -/
  dst : Nat
  words : Nat

def AtomForm.mem (f : AtomForm) : MemForm :=
  { kind := .atomic, size := f.size, align := f.size, addr := fun s l => (s.gd l f.addr).toNat, mode := fun s => s.modrMg, reg := f.dst }

/-- The intent record of one member (08 Table 8-6). -/
def AtomForm.intent (f : AtomForm) (s : State) (l : Nat) : Intent :=
  .atomic s.cur.slot l (physDests s l f.dst f.words)
    { FaultRec.blank with
      code := fcResumeLost, pc := s.cur.hpc, addr := s.gd l f.addr, batch := s.cur.lanes, insn := s.cur.word
      guest := (s.curLane l).guest.isSome, hinted := !s.cur.hints.isEmpty, after := nextPc s.cur.pc }

/-- TARGET of the records of an atomic: lane, warp and destination register (08 Table 8-6; the places of the three are open, log 16). -/
def atomTarget (slot l dest : Nat) : Nat := slot * 2 ^ 13 + l * 2 ^ 8 + dest

/-- The atomic of one member: read, write and result in one step; its result record waits for the next commit. -/
def AtomForm.lane (f : AtomForm) (fn : AtomFn) (s0 s : State) (l : Nat) : State :=
  match f.mem.halves s0 l with
  | [] => s
  | h :: _ =>
    let who := whoOf s0 s0.cur.core s0.cur.slot l
    let s := takeLine s who h.spot
    let old := atomRead s who f.size h.spot
    let r := fn s0 l old
    let s := match r.1 with
      | some v => atomWrite s who f.size v h.spot
      | none => s
    (s.addLane l (effWords s.curWarp l f.dst old f.words) r.2).modCore s0.cur.core (fun k => { k with
      returned := k.returned ++ [(atomTarget s0.cur.slot l ((physDests s0 l f.dst f.words).headD 0), bytesLE (4 * f.words) old)] })

/-- The atomics of a batch (R201): the phase end of .rel, the commit with the intents, the members in ascending lane
order, the phase start of .acq. Where the core is to lose power once it has committed, no request leaves it (20 R392). -/
def AtomForm.perform (f : AtomForm) (fn : AtomFn) (s : State) (ls : List Nat) : State :=
  if ls.isEmpty then s
  else if (s.core s.cur.core).cut = .armed then
    (commitCore s s.cur.core 0 (ls.map (f.intent s))).modCore s.cur.core (fun k => { k with cut := .due })
  else
    let ord := s.modrOrd
    let rel := (ord == 2 || ord == 3) && decide (scopeOf s.modrSc ≥ 3)
    let s1 := persistPoint s s.cur.core (ls.map (f.intent s))
    let s1 := if rel then publishWritten s1 s1.cur.core (fun _ => true) else s1
    let s1 := if rel && s.modrSc == 5 then acknowledgePeers s1 else s1
    let s2 := s1.eachLane ls (f.lane fn s)
    let s3 := countEvent s2 s2.cur.core 0x07 ls.length
    if ord == 1 || ord == 3 then acquire s3 s3.cur.core else s3

def AtomForm.act (f : AtomForm) (fn : AtomFn) : Act := memAct f.mem false true (fun s ls => (f.perform fn s ls, []))

def formAtom (h : Hdr) (ok : Bool) (src dst : List Nat) : Form :=
  { h := h, ok := ok, acc := { cp := true, scord := true, mg := true }, src := src, dst := dst, persist := true }

def wideT (t : BitVec 2) : Nat := if t.toNat ≤ 1 then 1 else 2

/-- The operand register or pair of a lane. -/
def State.operandT (s : State) (t : BitVec 2) (l r : Nat) : Nat :=
  if t.toNat ≤ 1 then (s.g l r 2).toNat else (s.gd l r 2).toNat

def execAtom (h : Hdr) (d a : BitVec 6) (o : BitVec 3) (t : BitVec 2) (s : State) : Host.Outcome State Fault Refusal :=
  issue (formAtom h (legal (.atom h d a o t)) (regsOf a.toNat 2 ++ regsOf d.toNat (wideT t)) (regsOf d.toNat (wideT t))) s
    (AtomForm.act { size := 4 * wideT t, addr := a.toNat, dst := d.toNat, words := wideT t }
      (fun s l old => (some (atomNew o.toNat t.toNat old (s.operandT t l d.toNat)), 0)))

def execAtomf (h : Hdr) (d a : BitVec 6) (o : BitVec 3) (s : State) : Host.Outcome State Fault Refusal :=
  issue (formAtom h (legal (.atomf h d a o)) (regsOf a.toNat 2 ++ [d.toNat]) [d.toNat]) s
    (AtomForm.act { size := 4, addr := a.toNat, dst := d.toNat, words := 1 }
      (fun s l old => let r := atomfNew o.toNat old (s.g l d.toNat 2).toNat; (some r.1, r.2)))

/-- Compare and swap of `n` words (R204). -/
def casForm (h : Hdr) (d a b : BitVec 6) (n : Nat) (ok : Bool) : Form :=
  formAtom h ok (regsOf a.toNat 2 ++ regsOf d.toNat n ++ regsOf b.toNat n) (regsOf d.toNat n)

def casAct (d a b : BitVec 6) (n : Nat) (val : State → Nat → Nat → Nat → Nat) : Act :=
  AtomForm.act { size := 4 * n, addr := a.toNat, dst := d.toNat, words := n }
    (fun s l old => (if old = val s l d.toNat 2 then some (val s l b.toNat 1) else none, 0))

def execCas (h : Hdr) (d a b : BitVec 6) (s : State) : Host.Outcome State Fault Refusal :=
  issue (casForm h d a b 1 (legal (.cas h d a b))) s (casAct d a b 1 (fun s l r k => (s.g l r k).toNat))

def execCasD (h : Hdr) (d a b : BitVec 6) (s : State) : Host.Outcome State Fault Refusal :=
  issue (casForm h d a b 2 (legal (.casD h d a b))) s (casAct d a b 2 (fun s l r k => (s.gd l r k).toNat))

def execCasQ (h : Hdr) (d a b : BitVec 6) (s : State) : Host.Outcome State Fault Refusal :=
  issue (casForm h d a b 4 (legal (.casQ h d a b))) s (casAct d a b 4 (fun s l r k => s.gq l r k))

def execRed (h : Hdr) (o : BitVec 3) (t : BitVec 2) (a b : BitVec 6) (s : State) : Host.Outcome State Fault Refusal :=
  issue (formAtom h (legal (.red h o t a b)) (regsOf a.toNat 2 ++ regsOf b.toNat (wideT t)) []) s
    (AtomForm.act { size := 4 * wideT t, addr := a.toNat, dst := 0, words := 0 }
      (fun s l old => (some (atomNew o.toNat t.toNat old (s.operandT t l b.toNat)), 0)))

end Sys2Proof.Machine
end

