-- ==== Sys2Proof/Machine/Lanes.lean ====
section
/-! DEFINITION. Conversion, block quantisation, lane exchange and warp reductions (05_float_registers.md R99 to R109;
02_number_formats.md R39 to R43, R47, R48). -/

namespace Sys2Proof.Machine

/-! ## R99 to R101 -/

/-- The element kind of a CVT type code. -/
def cvtKind (c : Nat) : EKind := (EKind.ofCode c).getD (.int true 32)

/-- The registers of an element: a pair for a 64-bit type. -/
def elemRegs (r c : Nat) : List Nat := regsOf r (if (cvtKind c).width = 64 then 2 else 1)

/-- The value of a narrow result in its register: signed integers are sign-extended, the others zero-extended. -/
def placeElem (k : EKind) (code : Nat) : Nat :=
  match k with
  | .int true w => wrapInt (sext code w) 64
  | _ => code

def execCvt (h : Hdr) (d a : BitVec 6) (st dt : BitVec 5) (s : State) : Host.Outcome State Fault Refusal :=
  issue { h := h, ok := legal (.cvt h d a st dt), acc := { rnd := true, sat := true },
          src := elemRegs a.toNat st.toNat, dst := elemRegs d.toNat dt.toNat } s
    (.pure (fun s ls => s.eachLane ls (fun s l =>
      let src := if (cvtKind st.toNat).width = 64 then (s.gd l a.toNat).toNat else (s.g l a.toNat).toNat
      let r := convert (cvtKind st.toNat) (cvtKind dt.toNat) s.rmode s.sat src
      let v := placeElem (cvtKind dt.toNat) r.1
      s.addLane l (if (cvtKind dt.toNat).width = 64 then effGd s.curWarp l d.toNat (BitVec.ofNat 64 v)
        else effG s.curWarp l d.toNat (BitVec.ofNat 32 v)) r.2)))

def execFrnd (h : Hdr) (d a : BitVec 6) (m : BitVec 2) (s : State) : Host.Outcome State Fault Refusal :=
  issue { h := h, src := [a.toNat], dst := [d.toNat] } s
    (actD d.toNat (fun s l =>
      let x := s.g l a.toNat
      match FFmt.f32.decode x.toNat with
      | .nan _ sg => (BitVec.ofNat 32 FFmt.f32.nanCode, OpFlags.when sg .nv)
      | .inf _ => (x, 0)
      | .fin n mant e =>
        let r := roundToInt (RMode.ofCode m.toNat) n mant e
        (BitVec.ofNat 32 (FFmt.f32.round .rn false (.fin n r.1.natAbs 0)).1, OpFlags.when r.2 .nx)))

/-- PACK: four 6-bit elements from byte lanes to 24 dense bits. -/
def pack6 (x : Nat) : Nat := bits x 0 6 + bits x 8 6 * 2 ^ 6 + bits x 16 6 * 2 ^ 12 + bits x 24 6 * 2 ^ 18

/-- UNPK: 24 dense bits to four byte lanes. -/
def unpk6 (x : Nat) : Nat := bits x 0 6 + bits x 6 6 * 2 ^ 8 + bits x 12 6 * 2 ^ 16 + bits x 18 6 * 2 ^ 24

def execPack (h : Hdr) (d a : BitVec 6) (s : State) : Host.Outcome State Fault Refusal :=
  issue { h := h, src := [a.toNat], dst := [d.toNat] } s
    (actD d.toNat (fun s l => (BitVec.ofNat 32 (pack6 (s.g l a.toNat).toNat), 0)))

def execUnpk (h : Hdr) (d a : BitVec 6) (s : State) : Host.Outcome State Fault Refusal :=
  issue { h := h, src := [a.toNat], dst := [d.toNat] } s
    (actD d.toNat (fun s l => (BitVec.ofNat 32 (unpk6 (s.g l a.toNat).toNat), 0)))

/-! ## Shape registers as sources (07_shape_system.md R137) -/

/-- The values that a shape register may show a warp: its contents, and its contents after each of the warp's own
pending writes in order. -/
def shapeAfter (ps : List PRes) (n : Nat) (v : BitVec 512) : List (BitVec 512) :=
  (ps.flatMap (fun p => p.effs)).foldl (fun (acc : List (BitVec 512)) e => match e with
    | .shape k x => if k = n then acc ++ [x] else acc
    | .shapeField k lo len x =>
      if k = n then acc ++ [BitVec.ofNat 512 (setBits (acc.getLastD v).toNat lo len x)] else acc
    | _ => acc) []

/-- A read of a shape register of the context of the instruction in progress. -/
def State.shape (s : State) (n : Nat) : BitVec 512 :=
  let v := match (s.core s.cur.core).st.ctx? s.curWarp.launch with
    | some c => mget c.sh n 0
    | none => 0
  choose (Config.free s.free (8300 + n)) v (shapeAfter s.curWarp.pend n v)

/-! ## R103 to R105 -/

def mxOf (f : BitVec 3) : MxFmt := (MxFmt.ofCode f.toNat).getD .int8

/-- The codes of a block: a member's gA, and +0 for the other lanes. -/
def blockCodes (s : State) (ls : List Nat) (a : Nat) : List Nat :=
  (upFrom 32 0).map (fun l => if ls.contains l then (s.g l a).toNat else 0)

/-- The flags of a member's element (R103). -/
def quantFlags (x : Nat) (e : Nat × Bool × Bool) : OpFlags :=
  OpFlags.when ((FFmt.f32.decode x).isNan || (FFmt.f32.decode x).isInf) .nv ||| OpFlags.when e.2.1 .ovf ||| OpFlags.when e.2.2 .nx

/-- Each member receives its element and the scale of the block. -/
def deliverBlock (s : State) (ls : List Nat) (d : Nat) (src : List Nat) (q : Nat × List (Nat × Bool × Bool))
    (more : Nat → List Eff) (fl : OpFlags) : State :=
  s.eachLane ls (fun s l =>
    let e := q.2.getD l (0, false, false)
    s.addLane l (effG s.curWarp l d (BitVec.ofNat 32 e.1) ++ effG s.curWarp l (d + 1) (BitVec.ofNat 32 q.1) ++ more l)
      (quantFlags (src.getD l 0) e ||| fl))

def execQblk (h : Hdr) (d a : BitVec 6) (f : BitVec 3) (s : State) : Host.Outcome State Fault Refusal :=
  issue { h := h, ok := legal (.qblk h d a f), src := [a.toNat], dst := regsOf d.toNat 2 } s
    (.pure (fun s ls =>
      let src := blockCodes s ls a.toNat
      deliverBlock s ls d.toNat src (quantBlock (mxOf f) (src.map FFmt.f32.decode)) (fun _ => []) 0))

/-- The FP32 value of 1/√32 that QHAD folds into the scale (R43). -/
def hadScale : FVal := FFmt.f32.decode 0x3E3504F3

/-- The rotated block of R43: the exact products, and whether a rounding of the transform was inexact. -/
def rotateBlock (signs : List Bool) (src : List Nat) : List FVal × Bool :=
  let u := (upFrom 32 0).map (fun l => if signs.getD l false then src.getD l 0 ^^^ 0x80000000 else src.getD l 0)
  let y := wht u
  (y.1.map (fun c => (mulExact (FFmt.f32.decode c) hadScale).v), y.2)

def execQhad (h : Hdr) (d a : BitVec 6) (f hf : BitVec 3) (s : State) : Host.Outcome State Fault Refusal :=
  issue { h := h, ok := legal (.qhad h d a f hf), acc := { opndPDst := true, opndNeed := true },
          src := [a.toNat], lead := [a.toNat + 1], dst := regsOf d.toNat 2, shsrc := [hf.toNat] } s
    (.pure (fun s ls =>
      let seed := BitVec.ofNat 64 (bits (s.shape hf.toNat).toNat 128 64)
      let block := BitVec.ofNat 64 (s.g (ls.headD 0) (a.toNat + 1)).toNat
      let signs := hadamardSigns seed block
      let src := blockCodes s ls a.toNat
      let y := rotateBlock signs src
      deliverBlock s ls d.toNat src (quantBlock (mxOf f) y.1)
        (fun l => effP l (s.opndP.getD 0) (signs.getD l false)) (OpFlags.when y.2 .nx)))

def execDqblk (h : Hdr) (d a : BitVec 6) (f : BitVec 3) (s : State) : Host.Outcome State Fault Refusal :=
  issue { h := h, ok := legal (.dqblk h d a f), src := regsOf a.toNat 2, dst := [d.toNat] } s
    (actD d.toNat (fun s l =>
      let r := dequant (mxOf f) (s.g l a.toNat).toNat (s.g l (a.toNat + 1)).toNat
      (BitVec.ofNat 32 r.1, r.2)))

/-! ## R106 -/

/-- The form of SHFL: gB or an IMMX gives the segment code and the distance. -/
def formShfl (h : Hdr) (d a b : BitVec 6) (s : State) : Form :=
  { h := h, acc := { imm1 := true }, immZero := b == 0,
    src := [a.toNat] ++ (if s.immxs.isEmpty then [b.toNat] else []), dst := [d.toNat] }

/-- The segment width that n names. -/
def segWidth (n : Nat) : Nat := 32 / 2 ^ min (bits n 8 3) 5

/-- Each member receives gA of its source lane, or its own when that lane is no member. -/
def actShfl (d a b : BitVec 6) (source : Nat → Nat → Nat) : Act :=
  .pure (fun s0 ls => s0.eachLane ls (fun s l =>
    let from_ := source (s0.gOrImm l b.toNat).toNat l
    s.addLane l (effG s.curWarp l d.toNat (s0.g (if ls.contains from_ then from_ else l) a.toNat)) 0))

def srcLane (n l : Nat) : Nat := l / segWidth n * segWidth n + bits n 0 5 % segWidth n
def srcRot (n l : Nat) : Nat :=
  l / segWidth n * segWidth n + ((((l % segWidth n : Nat) : Int) + sext n 5) % (segWidth n : Int)).toNat
def srcMirr (n l : Nat) : Nat := l / segWidth n * segWidth n + (segWidth n - 1 - l % segWidth n)
def srcBfly (n l : Nat) : Nat := l ^^^ bits n 0 5 % segWidth n

def execShflLane (h : Hdr) (d a b : BitVec 6) (s : State) : Host.Outcome State Fault Refusal :=
  issue (formShfl h d a b s) s (actShfl d a b srcLane)

def execShflRot (h : Hdr) (d a b : BitVec 6) (s : State) : Host.Outcome State Fault Refusal :=
  issue (formShfl h d a b s) s (actShfl d a b srcRot)

def execShflMirr (h : Hdr) (d a b : BitVec 6) (s : State) : Host.Outcome State Fault Refusal :=
  issue (formShfl h d a b s) s (actShfl d a b srcMirr)

def execShflBfly (h : Hdr) (d a b : BitVec 6) (s : State) : Host.Outcome State Fault Refusal :=
  issue (formShfl h d a b s) s (actShfl d a b srcBfly)

/-! ## R107 -/

/-- Every member receives one predicate formed from the members' pA. -/
def actVote (q a : BitVec 4) (f : List Bool → Bool) : Act :=
  .pure (fun s ls =>
    let v := f (ls.map (fun l => s.p l a.toNat))
    s.eachLane ls (fun s l => s.addLane l (effP l q.toNat v) 0))

def formVote (h : Hdr) (q a : BitVec 4) : Form := { h := h, psrc := [a.toNat], pdst := [q.toNat] }

def execVoteEvery (h : Hdr) (q a : BitVec 4) (s : State) : Host.Outcome State Fault Refusal :=
  issue (formVote h q a) s (actVote q a (fun vs => vs.all id))

def execVoteSome (h : Hdr) (q a : BitVec 4) (s : State) : Host.Outcome State Fault Refusal :=
  issue (formVote h q a) s (actVote q a (fun vs => vs.any id))

def execVoteSame (h : Hdr) (q a : BitVec 4) (s : State) : Host.Outcome State Fault Refusal :=
  issue (formVote h q a) s (actVote q a (fun vs => vs.all id || vs.all (fun v => !v)))

def execVoteOdd (h : Hdr) (q a : BitVec 4) (s : State) : Host.Outcome State Fault Refusal :=
  issue (formVote h q a) s (actVote q a (fun vs => (vs.filter id).length % 2 == 1))

def execBallot (h : Hdr) (d : BitVec 6) (a : BitVec 4) (s : State) : Host.Outcome State Fault Refusal :=
  issue { h := h, psrc := [a.toNat], dst := [d.toNat] } s
    (.pure (fun s ls =>
      let v := lanesMask (ls.filter (fun l => s.p l a.toNat))
      s.eachLane ls (fun s l => s.addLane l (effG s.curWarp l d.toNat v) 0)))

def execMatchPeers (h : Hdr) (d a : BitVec 6) (s : State) : Host.Outcome State Fault Refusal :=
  issue { h := h, src := [a.toNat], dst := [d.toNat] } s
    (.pure (fun s0 ls => s0.eachLane ls (fun s l =>
      s.addLane l (effG s.curWarp l d.toNat (lanesMask (ls.filter (fun k => s0.g k a.toNat == s0.g l a.toNat)))) 0)))

def execMatchWhole (h : Hdr) (d a : BitVec 6) (s : State) : Host.Outcome State Fault Refusal :=
  issue { h := h, src := [a.toNat], dst := [d.toNat] } s
    (.pure (fun s ls =>
      let v := if ls.all (fun k => s.g k a.toNat == s.g (ls.headD 0) a.toNat) then lanesMask ls else 0
      s.eachLane ls (fun s l => s.addLane l (effG s.curWarp l d.toNat v) 0)))

/-! ## R108 (R47, R48) -/

/-- One operation of a reduction on codes: OP, T. -/
def redOp (o t a b : Nat) : Nat × OpFlags :=
  let w := if t ≥ 3 then 64 else 32
  let sg := t == 0 || t == 3
  let le : Bool := if sg then decide (sext a w ≤ sext b w) else decide (a ≤ b)
  if t = 2 then
    (match o with
      | 0 => f32Add .rn a b
      | 1 => FFmt.f32.minMax false a b
      | _ => FFmt.f32.minMax true a b)
  else
    (match o with
      | 0 => ((a + b) % 2 ^ w, 0)
      | 1 => (if le then a else b, 0)
      | 2 => (if le then b else a, 0)
      | 3 => (a &&& b, 0)
      | 4 => (a ||| b, 0)
      | _ => (a ^^^ b, 0))

/-- The identity of an operation (R48). -/
def redIdentity (o t : Nat) : Nat :=
  let w := if t ≥ 3 then 64 else 32
  let sg := t == 0 || t == 3
  if t = 2 then
    (match o with
      | 0 => 0
      | 1 => FFmt.f32.infCode
      | _ => FFmt.f32.signBit true + FFmt.f32.infCode)
  else
    (match o with
      | 1 => if sg then 2 ^ (w - 1) - 1 else 2 ^ w - 1
      | 2 => if sg then 2 ^ (w - 1) else 0
      | 3 => 2 ^ w - 1
      | _ => 0)

/-- Node(a, b) of R47, with the flags so far; an absent value is `none`. -/
def redNode (f : Nat → Nat → Nat × OpFlags) : Option (Nat × OpFlags) → Option (Nat × OpFlags) → Option (Nat × OpFlags)
  | none, b => b
  | a, none => a
  | some a, some b => let r := f a.1 b.1; some (r.1, a.2 ||| b.2 ||| r.2)

/-- One level of the tree: adjacent values are combined. -/
def redLevel (f : Nat → Nat → Nat × OpFlags) : List (Option (Nat × OpFlags)) → List (Option (Nat × OpFlags))
  | a :: b :: rest => redNode f a b :: redLevel f rest
  | rest => rest

/-- Tree(v) of R47 for 32 values. -/
def redTree (f : Nat → Nat → Nat × OpFlags) (v : List (Option (Nat × OpFlags))) : Option (Nat × OpFlags) :=
  (redLevel f (redLevel f (redLevel f (redLevel f (redLevel f v))))).headD none

/-- The value that a member supplies: a .f32 NaN is read as the canonical one, and sets NV if it signals, alone in its tree or
not (02_number_formats.md R29; log 83). -/
def redLeaf (t v : Nat) : Nat × OpFlags :=
  if t = 2 then (FFmt.f32.canonical v, OpFlags.when (FFmt.f32.decode v).isSnan .nv) else (v, 0)

/-- The 32 values of a reduction: those of the members that satisfy a test. -/
def redVals (s : State) (ls : List Nat) (a t : Nat) (test : Nat → Bool) : List (Option (Nat × OpFlags)) :=
  (upFrom 32 0).map (fun l =>
    if ls.contains l && test l then some (redLeaf t (if t ≥ 3 then (s.gd l a).toNat else (s.g l a).toNat)) else none)

def redRegs (r t : Nat) : List Nat := regsOf r (if t ≥ 3 then 2 else 1)

/-- Each member receives the tree's value over the members that it names. -/
def actRed (d a : BitVec 6) (o t : BitVec 3) (test : Nat → Nat → Bool) : Act :=
  .pure (fun s0 ls => s0.eachLane ls (fun s l =>
    let r := (redTree (redOp o.toNat t.toNat) (redVals s0 ls a.toNat t.toNat (test l))).getD (redIdentity o.toNat t.toNat, 0)
    s.addLane l (if t.toNat ≥ 3 then effGd s.curWarp l d.toNat (BitVec.ofNat 64 r.1)
      else effG s.curWarp l d.toNat (BitVec.ofNat 32 r.1)) r.2))

def execRedw (h : Hdr) (d a : BitVec 6) (o t : BitVec 3) (s : State) : Host.Outcome State Fault Refusal :=
  issue { h := h, ok := legal (.redw h d a o t), src := redRegs a.toNat t.toNat, dst := redRegs d.toNat t.toNat } s
    (actRed d a o t (fun _ _ => true))

def execScanw (h : Hdr) (d a : BitVec 6) (o t : BitVec 3) (s : State) : Host.Outcome State Fault Refusal :=
  issue { h := h, ok := legal (.scanw h d a o t), src := redRegs a.toNat t.toNat, dst := redRegs d.toNat t.toNat } s
    (actRed d a o t (fun l k => decide (k ≤ l)))

def execScanwExcl (h : Hdr) (d a : BitVec 6) (o t : BitVec 3) (s : State) : Host.Outcome State Fault Refusal :=
  issue { h := h, ok := legal (.scanwExcl h d a o t), src := redRegs a.toNat t.toNat, dst := redRegs d.toNat t.toNat } s
    (actRed d a o t (fun l k => decide (k < l)))

/-! ## R109 -/

def execSmovS (h : Hdr) (d a : BitVec 6) (s : State) : Host.Outcome State Fault Refusal :=
  issue { h := h, ok := legal (.smovS h d a), src := [a.toNat], uniform := true, guestOk := false } s
    (.pure (fun s ls => s.addRes (lanesMask ls) [.s d.toNat (s.g (ls.headD 0) a.toNat)] 0))

def execSmovG (h : Hdr) (d a : BitVec 6) (s : State) : Host.Outcome State Fault Refusal :=
  issue { h := h, ok := legal (.smovG h d a), dst := [d.toNat], ssrc := [a.toNat], uniform := true, guestOk := false } s
    (.pure (fun s ls =>
      let v := s.sr a.toNat
      s.eachLane ls (fun s l => s.addLane l (effG s.curWarp l d.toNat v) 0)))

end Sys2Proof.Machine
end

