-- ==== Sys2Proof/Machine/Shape.lean ====
section
/-! DEFINITION. Tensors in compute banks (11_banks_matrix.md R224, R225). -/

namespace Sys2Proof.Machine

/-! ## Panels (R224) -/

/-- Weights of a column that a bank of plane count P holds (Table 11-1). -/
def kbOf (p : Nat) : Nat := 1024 / (if p = 0 then 8 else p) / 32 * 32

/-- The bank, the column and the first row of the weight at a panel position. -/
def panelSpot (sh : BitVec 512) (k n : Nat) : Nat × Nat × Nat :=
  let kb := kbOf (shPlanes sh)
  (shFirst sh + n / 1024 * shKb sh + k / kb, n % 1024, k % kb * shPlanes sh)

/-- The bit of a bank at a row and a column (R223). -/
def bankBit (m : Memory) (bank row col : Nat) : Bool :=
  bitOf (memRead m (bank * 131072 + 128 * row + col / 8)).toNat (col % 8)

/-- The code of `n` planes from a row upwards. -/
def bankCode (m : Memory) (bank row col : Nat) : Nat → Nat
  | 0 => 0
  | n + 1 => b2n (bankBit m bank row col) + 2 * bankCode m bank (row + 1) col n

/-- Planes written from a row upwards. -/
def bankSetCode (m : Memory) (bank row col code : Nat) : Nat → Memory
  | 0 => m
  | n + 1 =>
    let a := bank * 131072 + 128 * row + col / 8
    bankSetCode (memWrite m a (BitVec.ofNat 8 (setBits (memRead m a).toNat (col % 8) 1 (code % 2)))) bank (row + 1) col (code / 2) n

def columnSum (m : Memory) (bank col p : Nat) : Nat → Nat
  | 0 => 0
  | k + 1 => bankCode m bank (k * p) col p + columnSum m bank col p k

/-- The known sum of a column, as the bits and the scale store stand (R225). -/
def knownSum (k : CoreSt) (bank col : Nat) : Nat :=
  let b := k.bank bank
  let p := if b.planes = 0 then 8 else b.planes
  columnSum k.scratch bank col p (kbOf p) + (upFrom 8 0).foldl (fun a i => a + (mget b.scale (col * 8 + i) 0).toNat) 0

/-- The bank's check register takes the sums of columns as they stand. -/
def CoreSt.resum (k : CoreSt) (bank : Nat) (cols : List Nat) : CoreSt :=
  k.modBank bank (fun b => { b with check := cols.foldl (fun (m : PMap Nat) c => mset m c (knownSum k bank c)) b.check })

end Sys2Proof.Machine
end

