-- ==== Sys2Proof/Machine/Engine.lean ====
section
/-! DEFINITION. What all engines share: their reads and writes (09_consistency.md R187, R188), the checks at issue
(10_memory_instructions.md R214, 15_counters.md R297, R304), slots, holds (11_banks_matrix.md R228), intents, completion
and failure (R215, R216). -/

namespace Sys2Proof.Machine

/-! ## Bytes -/

/-- The physical byte that an engine reaches, through a translation that it has kept (16_tables.md R328) or anew; code 0 stands for a home slice that has no power yet, for which the engine
waits (08_memories.md R172). -/
def engPa (s : State) (p : Nat) (kept : PMap Nat) (wr : Bool) (a : Nat) : Except (Nat × Nat) Nat :=
  let found : Except Nat Nat := match mfind kept (pageSlot wr a) with
    | some g => .ok (g * 65536 + a % 65536)
    | none => if regionOf a == .global && !walkServes s p a then .error 0 else devPa s p wr a
  match found with
  | .error c => .error (c, a)
  | .ok pa => if paTarget pa == .hbm && !homeServes s pa then .error (0, a) else .ok pa

/-- A byte as the agent of an identity reads it at its home: stores that wait there since before its issue are seen, later ones are not
(09 R188; 12_stacks.md R251). -/
def byteAt (s : State) (id pa : Nat) : Byte := if paTarget pa == .hbm then homeByteAt s id pa else farByte s pa

/-- A source byte, or the code of Table 10-4 and the address met. -/
def engRead (s : State) (p core id : Nat) (kept : PMap Nat) (b : EByte) : Except (Nat × Nat) Byte :=
  match b.resolve s core with
  | .bank c o => .ok (memRead (s.core c).st.scratch o)
  | .va a => match engPa s p kept false a with
    | .error x => .error x
    | .ok pa => if lostByte s pa then .error (9, a) else .ok (byteAt s id pa)

/-- A destination byte as it stands, for a merge of part of it. -/
def engOld (s : State) (p core : Nat) (kept : PMap Nat) (b : EByte) : Except (Nat × Nat) Byte :=
  match b.resolve s core with
  | .bank c o => .ok (memRead (s.core c).st.scratch o)
  | .va a => match engPa s p kept true a with
    | .error x => .error x
    | .ok pa => .ok (sliceByte s pa)

/-- A destination byte written at its home or its bank. -/
def engWrite (s : State) (p core : Nat) (kept : PMap Nat) (b : EByte) (v : Byte) : Except (Nat × Nat) State :=
  match b.resolve s core with
  | .bank c o => .ok (scratchWrite s c o [v])
  | .va a => match engPa s p kept true a with
    | .error x => .error x
    | .ok pa => .ok (noteComp (paWrite s pa v) pa (match walk s p a with | some l => l.comp | none => mget s.l2comp (pa / 128) false))

def engReads (rd : EByte → Except (Nat × Nat) Byte) : List EByte → Except (Nat × Nat) (List Byte)
  | [] => .ok []
  | b :: bs => match rd b with
    | .error e => .error e
    | .ok x => match engReads rd bs with
      | .error e => .error e
      | .ok xs => .ok (x :: xs)

def engWrites (s : State) (p core : Nat) (kept : PMap Nat) : List (EByte × Byte) → Except (Nat × Nat) State
  | [] => .ok s
  | (b, v) :: bs => match engWrite s p core kept b v with
    | .error e => .error e
    | .ok s => engWrites s p core kept bs

/-- Steps that may fail, in order. -/
def foldE {α : Type} (f : State → α → Except (Nat × Nat) State) (s : State) : List α → Except (Nat × Nat) State
  | [] => .ok s
  | a :: as => match f s a with
    | .error e => .error e
    | .ok s => foldE f s as

/-! ## Elements -/

/-- The bytes of an element of a destination tensor outside compute banks that lie in a sector, with the bits of the element
merged into them at their home (09 R177, R179). -/
def writeElem (s : State) (x : Engine) (core : Nat) (sh : BitVec 512) (e code u : Nat) : Except (Nat × Nat) State :=
  let os := elemOffs sh e
  let here (o : Nat) : Bool := (elemLead sh + o) / 32 == u
  let old := engReads (fun b => if shWidth sh % 8 = 0 then .ok 0 else engOld s x.part core x.pages b) ((os.1.filter here).map (tensorByte core sh))
  match old with
  | .error y => .error y
  | .ok bs =>
    let before := (os.1.takeWhile (fun o => !here o)).map (fun _ => (0 : Byte))
    let vs := bytesLE os.1.length (setBits (ofBytesLE (before ++ bs)) os.2 (shWidth sh) code)
    engWrites s x.part core x.pages (((os.1.zip vs).filter (fun y => here y.1)).map (fun y => (tensorByte core sh y.1, y.2)))

/-- An element of a panel (11 R224, R234). -/
def writePanel (s : State) (core : Nat) (sh : BitVec 512) (idx : List Nat) (code : Nat) : State :=
  let sp := panelSpot sh (idx.getD 0 0) (idx.getD 1 0)
  s.modSt core (fun k => { k with
    scratch := bankSetCode k.scratch sp.1 sp.2.2 sp.2.1 code (shPlanes sh), rows := k.rowsWith (upFrom (shPlanes sh) (1024 * sp.1 + sp.2.2)) })

/-- The scale of an element's block in a panel. -/
def writePanelScale (s : State) (core : Nat) (sh : BitVec 512) (idx : List Nat) (v : Byte) : State :=
  let k := idx.getD 0 0
  let sp := panelSpot sh k (idx.getD 1 0)
  s.modBank core sp.1 (fun b => { b with scale := mset b.scale (sp.2.1 * 8 + k % kbOf (shPlanes sh) / 32) v })

/-- The part of an element that a unit of the work writes, wherever the tensor lies. -/
def writeCode (s : State) (x : Engine) (core : Nat) (sh : BitVec 512) (idx : List Nat) (code u : Nat) : Except (Nat × Nat) State :=
  if shPlace sh = 3 then .ok (writePanel s core sh idx code) else writeElem s x core sh (shElem sh idx) code u

def writeScale (s : State) (x : Engine) (core : Nat) (sh : BitVec 512) (idx : List Nat) (v : Byte) : Except (Nat × Nat) State :=
  if shPlace sh = 3 then .ok (writePanelScale s core sh idx v) else engWrite s x.part core x.pages (scaleByte sh (shElem sh idx)) v

/-- An exact value in an element type under .rn, as CVT delivers it (R99). -/
def encodeVal (k : EKind) (v : FVal) : Nat :=
  match k with
  | .int sg w => (roundInteger sg w .rn v).1
  | .flt f => (f.round .rn false v).1
  | .tap w => (roundTapered w v).1
  | _ => 0

/-- The value of an element under its E8M0 scale (02_number_formats.md R32). -/
def scaledVal (k : EKind) (code scale : Nat) : FVal :=
  if scale = 0xFF then .nan false false else (k.value code).scale ((scale : Int) - 127)

/-! ## Sources (09 R188)

A sector of a source is read whole, the first time that a byte of it is wanted, and kept: it is read once. -/

/-- What has been read, with the sector of a byte that is not there yet. -/
def captureByte (s : State) (e : Engine) (rd : EByte → Except (Nat × Nat) Byte) (seen : PMap Byte) (b : EByte) : Except (Nat × Nat) (PMap Byte) :=
  let r := b.resolve s e.core
  if (mfind seen r.key).isSome then .ok seen
  else match rd r with
    | .error x => .error x
    | .ok _ => .ok (r.sector.foldl (fun (m : PMap Byte) x => match rd x with
      | .ok v => if (mfind m x.key).isSome then m else mset m x.key v
      | .error _ => m) seen)

def captureBytes (s : State) (e : Engine) (rd : EByte → Except (Nat × Nat) Byte) : PMap Byte → List EByte → Except (Nat × Nat) (PMap Byte)
  | seen, [] => .ok seen
  | seen, b :: bs => match captureByte s e rd seen b with
    | .error x => .error x
    | .ok m => captureBytes s e rd m bs

/-- An engine keeps the translations of the pages in which addresses lie. -/
def keepPages (s : State) (p : Nat) (wr : Bool) (kept : PMap Nat) (vas : List Nat) : PMap Nat :=
  vas.foldl (fun (m : PMap Nat) a =>
    if (mfind m (pageSlot wr a)).isSome then m
    else match devPa s p wr a with
      | .ok pa => mset m (pageSlot wr a) (pa / 65536)
      | .error _ => m) kept

/-- The engine after it has read the sectors of source bytes. -/
def capture (s : State) (e : Engine) (bs : List EByte) : Except (Nat × Nat) Engine :=
  match captureBytes s e (engRead s e.part e.core e.id e.pages) e.seen bs with
  | .error x => .error x
  | .ok m => .ok { e with
    seen := m, pages := keepPages s e.part false e.pages (bs.filterMap (fun b => match b.resolve s e.core with | .va a => some a | _ => none)) }

/-- A byte as the engine has read it, and the code of an element. -/
def Engine.byte (s : State) (e : Engine) (b : EByte) : Byte := mget e.seen (b.resolve s e.core).key 0
def Engine.code (s : State) (e : Engine) (sh : BitVec 512) (n : Nat) : Nat :=
  bits (ofBytesLE ((elemBytes e.core sh n).1.map (e.byte s))) (elemBytes e.core sh n).2 (shWidth sh)

/-- The state keeps what the engine has read. -/
def keepSeen (s : State) (e : Engine) : State := s.modEngine e.id (fun x => { x with seen := e.seen, read := e.read, pages := e.pages })

/-! ## Units of the work (log 8) -/

def Engine.sh (e : Engine) (i : Nat) : BitVec 512 := e.shapes.getD i 0

def EngKind.isRow : EngKind → Bool
  | .rcopy | .rfill _ | .rbit _ => true
  | _ => false

/-- The units not yet performed. -/
def Engine.rest (e : Engine) : List Nat :=
  if e.kind.isRow then upFrom (e.total - e.next) e.next else (upFrom e.total 0).filter (fun u => !e.done.contains u)

/-- One virtual address in each line that a unit writes. -/
def Engine.unitVas (e : Engine) (u : Nat) : List Nat :=
  let d := e.sh 0
  if e.dhi < e.dlo ∧ e.shi < e.slo then []
  else match e.kind with
    | .acpy | .acpym _ | .afill _ | .agthr | .accst _ | .nmx _ _ _ _ =>
      if u < elemSectors d then (if e.dlo ≤ e.dhi then [(shBase d / 32 + u) * 32] else [])
      else if e.slo ≤ e.shi then [(shScale d / 32 + (u - elemSectors d)) * 32] else []
    | .channel _ _ _ _ _ _ => [(e.dlo / 32 + u) * 32]
    | .rcopy | .rfill _ | .rbit _ => upFrom (min 393216 (e.dhi + 1 - (e.dlo + u * 393216)) / 128) 0 |>.map (fun i => e.dlo + u * 393216 + 128 * i)
    | _ => (upFrom (e.dhi / 128 - e.dlo / 128 + 1) (e.dlo / 128)).map (fun l => l * 128)

/-- A store that waits for a line reached it before an engine was issued. -/
def heldBefore (s : State) (id pa : Nat) : Bool :=
  s.held.any (fun h => decide (h.arrived ≤ id) && (match h.cells with | x :: _ => x / 128 == pa / 128 | [] => false))

/-- An earlier engine still owns a line that a unit writes, under whatever address it writes it (10 R214, step 5), or an earlier store
waits for it. -/
def unitBlocked (s : State) (e : Engine) (u : Nat) : Bool :=
  (e.unitVas u).any (fun va => match e.paOf s true va with
    | some pa => heldBefore s e.id pa || s.engines.any (fun x => decide (x.1 < e.id) && x.2.ownsPa s pa)
    | none => false)

/-! ## Holds (11 R228) -/

/-- Two requests exclude each other. -/
def Hold.conflicts (a b : Hold) : Bool :=
  ((a.excl || b.excl) && a.banks.any (fun x => b.banks.contains x)) ||
  ((a.exclEntries || b.exclEntries) && a.entries.any (fun x => b.entries.any (fun y =>
    decide (x.1 < y.1 + y.2) && decide (y.1 < x.1 + x.2))))

/-- A request meets no earlier one that excludes it. -/
def holdFree (before : List Hold) (h : Hold) : Bool := before.all (fun b => !b.conflicts h)

/-- The domains of a motif that stand still while a step relocks them: the front end's, and the lanes' and banks' (18_power_host.md
R358, R360). A step of LRATIO relocks the one whose clock it changes. -/
def Motif.relocks (m : Motif) : Bool × Bool :=
  match m.step with
  | none => (false, false)
  | some st =>
    if st.isRatio then (max m.lratio st.target == 2, max m.lratio st.target == 1)
    else
      let both := if st.target < m.opl then st.phase == 2 else st.phase == 1
      (both, both)

/-- The clock of an operating point's faster domain, in units of 10 MHz (16_tables.md Table 16-8). -/
def pointClock (opl : Nat) : Nat := [270, 243, 216, 189, 162, 135, 108, 81].getD opl 81

/-- The clock of the lanes and banks of a motif, in units of 5 MHz (18_power_host.md R358): none while they relock or have no power. -/
def Motif.laneClock (m : Motif) : Nat :=
  if m.relocks.2 || !m.powered then 0 else if m.lratio = 0 then pointClock m.opl else 2 * pointClock m.opl

/-- The lane cycles up to a TIME, two hundred units a cycle: the sum over each stretch at one clock (18 R362, R388). -/
def Motif.laneUnits (m : Motif) (time : Nat) : Nat := m.laneWork + m.laneClock * (time - m.laneSince)

/-- The stretch that ends at a TIME is counted, before the clock of the lanes changes. -/
def Motif.counted (m : Motif) (time : Nat) : Motif := { m with laneWork := m.laneUnits time, laneSince := time }

/-- The lanes and banks of a core stand still while a step relocks them: no request is granted (18 R360). -/
def banksStop (s : State) (core : Nat) : Bool := (s.motif (core / 8)).relocks.2

/-- A request reaches a core's banks; it is granted unless it must wait, for an earlier request, for its turn or for the clock. -/
def addHold (s : State) (core : Nat) (h : Hold) (turn : Bool := true) : State :=
  (askBanks s core h.banks).modCore core (fun k => { k with holds := k.holds ++ [{ h with granted := turn && !banksStop s core && holdFree k.holds h }] })

/-- The holds of an operation end, and accesses that waited for them issue again, whatever their core. -/
def dropHolds (s : State) (op : Nat) : State :=
  if s.cores.any (fun c => c.2.holds.any (fun h => h.op == some op)) then
    wakeAll { s with cores := s.cores.map (fun (c : Nat × Core) => (c.1, { c.2 with holds := c.2.holds.filter (fun h => h.op != some op) })) }
      (fun p => p == .owned)
  else s

/-- Every hold of an operation is granted. -/
def holdsGranted (s : State) (op : Nat) : Bool :=
  s.cores.all (fun c => c.2.holds.all (fun h => h.op != some op || h.granted))

/-! ## Order between engines (09 R187, 10 R214) -/

/-- A bank that an engine holds or reads is still restoring (17_faults.md R351). -/
def engRestoring (s : State) (e : Engine) : Bool :=
  s.cores.any (fun c => !c.2.restoring.isEmpty &&
    (c.2.holds.any (fun h => h.op == some e.id && h.banks.any (fun b => c.2.restoring.contains b)) ||
     e.stamps.any (fun x => x.1 == c.1 && c.2.restoring.contains x.2.1)))

/-- An engine of a stopped domain pauses (18 R360): loops and the bank operations with the lanes and banks, copies with the front
end; the base dies and the channels are in neither (log 91). -/
def engPaused (s : State) (e : Engine) : Bool :=
  let r := (s.motif (e.core / 8)).relocks
  match e.kind with
  | .acpy | .acpym _ | .afill _ | .agthr | .accst _ => r.1
  | .mloop _ _ _ _ _ | .bchk _ | .bfree _ _ | .bmode _ _ _ | .accld _ _ _ | .accclr _ _ => r.2
  | _ => false

/-- A store waits for a bank that an engine holds or reads, and reached it before the engine was issued (09 R187, R188). -/
def engBehind (s : State) (e : Engine) : Bool :=
  s.held.any (fun h => decide (h.arrived ≤ e.id) && (match h.bank with
    | none => false
    | some x => e.stamps.any (fun y => y.1 == x.1 && y.2.1 == x.2) ||
        (s.core x.1).holds.any (fun y => y.op == some e.id && y.banks.contains x.2)))

/-- An engine may act: its holds are granted, its banks reloaded, its domain runs, and no earlier store waits for its banks. -/
def engMay (s : State) (e : Engine) : Bool := holdsGranted s e.id && !engRestoring s e && !engPaused s e && !engBehind s e

/-- It may perform a unit of its work: no earlier engine owns the unit's lines. -/
def unitReady (s : State) (e : Engine) (u : Nat) : Bool := engMay s e && !unitBlocked s e u

/-- It may perform all that is left of its work. -/
def engReady (s : State) (e : Engine) : Bool := engMay s e && e.rest.all (fun u => !unitBlocked s e u)

/-- Kinds that take one of the core's 48 copy slots (10 R214, 12_stacks.md R245). -/
def EngKind.slotted : EngKind → Bool
  | .acpy | .acpym _ | .afill _ | .agthr | .accst _ => true
  | .rcopy | .rfill _ | .rbit _ | .nmx _ _ _ _ | .nseg _ _ => true
  | _ => false

def slotsUsed (s : State) (core : Nat) : Nat :=
  (s.engines.filter (fun e => e.2.core == core && e.2.kind.slotted)).length

/-! ## Checks at issue (R214, step 1) -/

/-- Whoever issues engines acts for its own group. -/
def engWho (s : State) : Who :=
  { core := s.cur.core, part := s.curPart, launch := s.curWarp.launch, gid := s.curWarp.group, home := s.cur.core }

/-- A bank as R149 judges it: allocated, to the own group or to a group of the task, in the mode asked for. -/
def bankJudge (s : State) (w : Who) (core bank : Nat) (own compute : Bool) : Option Nat :=
  let b := (s.core core).st.bank bank
  match b.owner with
  | none => some fcBankOwner
  | some g =>
    if (own ∧ g ≠ w.gid) ∨ (¬ own ∧ bankLaunch s core bank ≠ some w.launch) then some fcBankOwner
    else if b.compute ≠ compute then some fcBankMode
    else none

/-- The banks of a scratchpad span; `base` is the window address of offset 0. -/
def banksFault (s : State) (w : Who) (core lo hi base : Nat) (own compute : Bool) : Option Flt :=
  if hi ≥ scratchSize then some ⟨fcAddrInvalid, base + max lo scratchSize, false⟩
  else (upFrom (hi / 131072 - lo / 131072 + 1) (lo / 131072)).findSome? (fun b =>
    (bankJudge s w core b own compute).map (fun c => ⟨c, base + max lo (b * 131072), false⟩))

/-- The offset of the first live barrier word that a span covers (15 R304). -/
def liveIn (s : State) (core lo hi : Nat) : Option Nat :=
  (upFrom (min 64 (hi / 131072 + 1) - lo / 131072) (lo / 131072)).findSome? (fun b =>
    ((s.core core).st.bank b).live.findSome? (fun x =>
      if x.2 && decide (b * 131072 + x.1 * 16 ≤ hi) && decide (lo ≤ b * 131072 + x.1 * 16 + 15) then some (b * 131072 + x.1 * 16) else none))

/-- The core, the offsets, the window base and the kind of window of a span in a scratchpad. -/
def Span.bankOf (s : State) (core : Nat) : Span → Option (Nat × Nat × Nat × Nat × Bool)
  | .bank c lo hi => some (c, lo, hi, localBase, true)
  | .va lo hi => match regionOf lo with
    | .scratch c o => some (bankHome s c (o / 131072), o, o + (hi - lo), lo - o, false)
    | .localWin o => some (core, o, o + (hi - lo), localBase, true)
    | _ => none

/-- The fault of an operand's span: check 2 on its lowest and highest byte, or the checks of its banks. -/
def spanFault (s : State) (w : Who) (compute : Bool) (sp : Span) : Option Flt :=
  match sp.bankOf s w.core with
  | some (c, lo, hi, base, own) => banksFault s w c lo hi base own compute
  | none => match sp with
    | .va lo hi =>
      if (locate s w lo).isNone then some ⟨fcAddrInvalid, lo, false⟩
      else if (locate s w hi).isNone then some ⟨fcAddrInvalid, hi, false⟩
      else none
    | _ => none

/-- A destination that covers a live barrier word. -/
def clobberFault (s : State) (core : Nat) (sp : Span) : Option Flt :=
  match sp.bankOf s core with
  | some (c, lo, hi, base, _) => (liveIn s c lo hi).map (fun o => ⟨fcBarrierClobber, base + max lo o, false⟩)
  | none => none

/-- The spans of a tensor: its elements and its scales. -/
def tensorSpans (core : Nat) (sh : BitVec 512) : List Span := elemSpan core sh :: scaleSpan sh

/-- The first byte that a range has in each of its pages. -/
def rangePages (lo hi : Nat) : List Nat := (upFrom (hi / 65536 - lo / 65536 + 1) (lo / 65536)).map (fun pg => max lo (pg * 65536))

/-- A destination with elements of part of a byte lies, in some page, in a peer's window, where no merge is performed (09 R179). -/
def peerMerge (s : State) (w : Who) (sh : BitVec 512) : Bool :=
  shWidth sh % 8 != 0 && shPlace sh == 0 && (rangePages (shBase sh) (shBase sh + (shMax sh * shWidth sh + shWidth sh - 1) / 8)).any (fun a =>
    match regionOf a, locate s w a with
    | .global, some (.glob pa _) => (match paTarget pa with | .peer _ _ => true | _ => false)
    | _, _ => false)

/-- The fault of a captured source or destination tensor's memory. -/
def tensorFault (s : State) (w : Who) (sh : BitVec 512) (dest : Bool) : Option Flt :=
  match (tensorSpans w.core sh).findSome? (spanFault s w (shPlace sh == 3)) with
  | some f => some f
  | none => if dest then (tensorSpans w.core sh).findSome? (clobberFault s w.core) else none

/-- The first fault of a list of checks. -/
def firstOf (cs : List (Unit → Option Flt)) : Option Flt := cs.findSome? (fun c => c ())

/-- ENGINE with a value in the address field, when a condition fails. -/
def engineUnless (ok : Bool) (addr : Nat) : Unit → Option Flt := fun _ => if ok then none else some ⟨fcEngine, addr, false⟩

/-- The completion address named by s30 and s31. -/
def State.engTarget (s : State) : Nat := (pairVal (s.sr 30) (s.sr 31)).toNat

/-- A counter address, checked for a store or a load: checks 2, 3 and 5 of Table 10-1 (15 R297), and its bank in a scratchpad
window (R149). -/
def counterFault (s : State) (w : Who) (a : Nat) (k : AccKind) : Option Flt :=
  match locate s w a with
  | none => some ⟨fcAddrInvalid, a, false⟩
  | some sp =>
    if a % 8 ≠ 0 ∨ a % 128 > 112 then some ⟨fcMisalign, a, false⟩
    else if permOk k sp then (bankFault s w sp).map (fun c => ⟨c, a, false⟩) else some ⟨fcAddrPerm, a, false⟩

/-- The core whose bank a scratchpad address names: the bank may have moved (14_shuttles.md R296). -/
def bankCore (s : State) (c o : Nat) : Nat := bankHome s c (o / 131072)

/-- The scratchpad offset that an address of the own core's scratchpad names, through either window. -/
def ownOffset (s : State) (core va : Nat) : Option Nat :=
  match regionOf va with
  | .scratch c o => if bankCore s c o = core then some o else none
  | .localWin o => some o
  | _ => none

/-- A .bw target is a live barrier word of the issuing core, in a bank as R149 wants it. -/
def bwTargetFault (s : State) (core a : Nat) : Option Flt :=
  match ownOffset s core a with
  | some o =>
    if o % 16 = 0 ∧ isLive s core o then
      (bankJudge s (engWho s) core (o / 131072) (match regionOf a with | .localWin _ => true | _ => false) false).map (fun c => ⟨c, a, false⟩)
    else some ⟨fcBarrierState, a, false⟩
  | none => some ⟨fcBarrierState, a, false⟩

/-- The completion target of an engine. -/
def targetFault (s : State) (bw : Bool) : Option Flt :=
  if bw then bwTargetFault s s.cur.core s.engTarget else counterFault s (engWho s) s.engTarget .store

/-! ## Issue (R214, steps 2 to 5) -/

/-- The scratchpad banks that a source tensor lies in, with their stamps. -/
def tensorStamps (s : State) (core : Nat) (sh : BitVec 512) : List (Nat × Nat × Nat × Nat) :=
  (tensorSpans core sh).flatMap (fun sp => match sp.bankOf s core with
    | some (c, lo, hi, base, _) => (upFrom (hi / 131072 - lo / 131072 + 1) (lo / 131072)).map (fun b =>
        (c, b, ((s.core c).st.bank b).stamp, base + max lo (b * 131072)))
    | none => [])

/-- A source bank was freed, reallocated or switched since issue: its window address (R216). -/
def staleBank (s : State) (e : Engine) : Option Nat :=
  e.stamps.findSome? (fun x => if ((s.core x.1).st.bank x.2.1).stamp = x.2.2.1 then none else some x.2.2.2)

/-- The banks that a destination tensor lies in, by core. -/
def tensorBanks (s : State) (core : Nat) (sh : BitVec 512) : List (Nat × Nat) :=
  (tensorSpans core sh).flatMap (fun sp => match sp.bankOf s core with
    | some (c, lo, hi, _, _) => (upFrom (hi / 131072 - lo / 131072 + 1) (lo / 131072)).map (fun b => (c, b))
    | none => [])

/-- Global virtual ranges of a tensor. -/
def tensorRanges (core : Nat) (sh : BitVec 512) : List (Nat × Nat) :=
  (tensorSpans core sh).filterMap (fun sp => match sp.place core with
    | .va lo hi => some (lo, hi)
    | _ => none)

/-- A physical byte lies in a virtual range of a partition. -/
def paInRange (s : State) (p : Nat) (r : Nat × Nat) (pa : Nat) : Bool :=
  (upFrom (r.2 / 65536 - r.1 / 65536 + 1) (r.1 / 65536)).any (fun pg => match walk s p (pg * 65536) with
    | some l => l.pa (pg * 65536) == pa / 65536 * 65536 && decide (r.1 ≤ pg * 65536 + pa % 65536) && decide (pg * 65536 + pa % 65536 ≤ r.2)
    | none => false)

/-- The stores that wait in the egress buffer leave, and WRITTEN bytes of the core's L1 in source ranges pass to their homes (R214,
step 3). -/
def publishRanges (s : State) (core p : Nat) (rs : List (Nat × Nat)) : State :=
  let test := fun pa => rs.any (fun r => paInRange s p r pa)
  if (s.core core).l1w.any (fun c => test c.1) then publishWritten (persistPoint s core []) core test
  else if (s.core core).egress.isEmpty then s else persistPoint s core []

/-- An engine begins: earlier stores performed and sources published, requests for holds made, intent committed, lines owned (R214). -/
def startEngine (s : State) (e : Engine) (sources : List (Nat × Nat)) (holds : List (Nat × Hold)) : State :=
  let c := s.cur.core
  let s := publishRanges s c s.curPart sources
  let id := s.fresh
  let e : Engine := { e with
    id := id, core := c, slot := s.cur.slot, gid := s.curWarp.group, launch := s.curWarp.launch, part := s.curPart
    stream := s.cur.stream, members := s.cur.lanes, pc := s.cur.hpc, ipc := s.cur.pc, word := s.cur.word, batch := s.cur.lanes
    hold := if holds.isEmpty then none else some (id + 1) }
  let s := { s with fresh := id + 2, engines := mset s.engines id e }
  let s := e.stamps.foldl (fun s x => askBanks s x.1 [x.2.1]) s
  let s := holds.foldl (fun s x => addHold s x.1 { x.2 with id := id + 1, op := some id }) s
  persistPoint s c [.engine id]

/-- The identity that the next engine takes. -/
def lastEngine (s : State) : Nat := s.fresh - 2

/-- The lines that an engine will own: those of the global spans of its destination. -/
def Engine.owning (e : Engine) (core : Nat) (sh : BitVec 512) : Engine :=
  let el : Nat × Nat := match (elemSpan core sh).place core with | .va lo hi => (lo, hi) | _ => (1, 0)
  let sc : Nat × Nat := match (scaleSpan sh).head?.map (Span.place core) with | some (.va lo hi) => (lo, hi) | _ => (1, 0)
  { e with dlo := el.1, dhi := el.2, slo := sc.1, shi := sc.2 }

/-- Exclusive holds on the banks of a destination, core by core. -/
def destHolds (s : State) (core : Nat) (sh : BitVec 512) : List (Nat × Hold) :=
  let bs := tensorBanks s core sh
  ((bs.map (·.1)).eraseDups).map (fun c =>
    (c, { id := 0, banks := (bs.filter (fun x => x.1 == c)).map (·.2), entries := [], excl := true, exclEntries := false, op := none }))

/-- Slots are all in use, of an operation that would otherwise issue. -/
def slotWait (s : State) (faults : Bool) : Option Park :=
  if !faults && decide (48 ≤ slotsUsed s s.cur.core) then some .copySlot else none

/-- The act of a slotted engine: its checks by the leader, its slot, its start. -/
def engAct (chk : State → Option Flt) (go : State → State) : Act :=
  { wait := fun s _ => slotWait s (chk s).isSome
    check := fun s ls => leaderCheck (fun s _ => chk s) s ls
    run := fun s _ => (go s, []) }

/-! ## The end of a unit (09 R187, 11 R228) -/

/-- The cores whose memory an engine writes (R218). -/
def Engine.targets (e : Engine) : List Nat :=
  match e.kind with
  | .acpym m => (maskLanesFrom 8 0 m).map (fun b => e.core / 8 * 8 + b)
  | _ => [e.core]

/-- The banks that a unit writes, by core. -/
def unitBanks (s : State) (e : Engine) (u : Nat) : List (Nat × Nat) :=
  let d := e.sh 0
  e.targets.flatMap (fun t =>
    if shPlace d = 3 then (unitIdx d u).map (fun i => (t, (panelSpot d (i.headD 0) (i.getD 1 0)).1))
    else if (unitElems d u ++ unitScales d u).isEmpty then []
    else
      let b := if u < elemSectors d then tensorByte t d (32 * u - elemLead d) else .va (shScale d + (32 * (u - elemSectors d) - scaleLead d))
      match b.resolve s t with
      | .bank c o => [(c, o / 131072)]
      | .va _ => [])

/-- The accumulator entry of an index of a region (11 R227). -/
def accEntry (c : BitVec 512) (idx : List Nat) : Nat := bits (shBase c) 0 16 + idx.getD 1 0 * shStr c 1 + idx.getD 0 0

/-- The accumulator entries that an ACCST has still to read. -/
def Engine.owedEntries (e : Engine) : List Nat :=
  ((e.rest.flatMap (unitElems (e.sh 0))).map (accEntry (e.sh 1))).filter (fun n => (mfind e.read n).isNone)

/-- A copy's holds after a unit: those of banks and of entries that it has still to reach (11 R228). -/
def trimHolds (s : State) (e : Engine) : State :=
  let banks := e.rest.flatMap (unitBanks s e)
  let entries := e.owedEntries.map (fun n => (n, 1))
  { s with cores := s.cores.map (fun (c : Nat × Core) => (c.1, { c.2 with holds := c.2.holds.map (fun h =>
      if h.op = some e.id then
        { h with banks := h.banks.filter (fun b => banks.contains (c.1, b)), entries := if h.entries.isEmpty then [] else entries }
      else h) })) }

/-! ## Fills of compute banks (11 R234) -/

/-- Banks and columns that a list of units writes in a panel. -/
def panelColumns (d : BitVec 512) (units : List Nat) : List (Nat × Nat) :=
  units.flatMap (fun u => (unitIdx d u).map (fun idx => let sp := panelSpot d (idx.getD 0 0) (idx.getD 1 0); (sp.1, sp.2.1)))

/-- Every column and every weight row of a bank lies in the fill. -/
def wholeBank (d : BitVec 512) (bank : Nat) : Bool :=
  let q := bank - shFirst d
  decide ((q % shKb d + 1) * kbOf (shPlanes d) ≤ shExt d 0) && decide ((q / shKb d + 1) * 1024 ≤ shExt d 1)

/-- The fill record, FAILS and the known sums after a fill of the panel, or the sums alone after a failure. -/
def settlePanel (s : State) (e : Engine) (units : List Nat) (ok : Bool) : State :=
  let d := e.sh 0
  if shPlace d ≠ 3 then s
  else
    let cs := (panelColumns d units).eraseDups
    let banks := (cs.map (·.1)).eraseDups
    e.targets.foldl (fun s t => s.modSt t (fun k =>
      banks.foldl (fun k b =>
        let k := if ok then k.modBank b (fun x => { x with
            fmt := shFmt d, planes := shPlanes d, fails := if wholeBank d b then 0 else x.fails }) else k
        k.resum b ((cs.filter (fun c => c.1 == b)).map (·.2))) k)) s

/-- The bank of a panel in which the elements of a unit lie. -/
def unitPanelBank (d : BitVec 512) (u : Nat) : Nat :=
  match unitIdx d u with
  | i :: _ => (panelSpot d (i.headD 0) (i.getD 1 0)).1
  | [] => 0

/-- Before it releases a bank of a panel, a copy settles it. -/
def settleBank (s : State) (e : Engine) (u : Nat) : State :=
  let d := e.sh 0
  let b := unitPanelBank d u
  if shPlace d ≠ 3 ∨ e.rest.any (fun v => unitPanelBank d v == b) then s
  else settlePanel s e ((upFrom e.total 0).filter (fun v => unitPanelBank d v == b)) true

/-- A copy that fails settles the sums of the banks that it has not released. -/
def settleFailed (s : State) (e : Engine) : State :=
  let d := e.sh 0
  if shPlace d ≠ 3 then s
  else settlePanel s e (e.done.filter (fun u => e.rest.any (fun v => unitPanelBank d v == unitPanelBank d u))) false

/-- A unit has been performed: its lines and its banks are released where no unit left needs them, and what waits issues again. -/
def unitDone (s : State) (op u : Nat) : State :=
  let s := s.modEngine op (fun e => { e with done := u :: e.done, pages := keepPages s e.part true e.pages (e.unitVas u) })
  match mfind s.engines op with
  | none => s
  | some e => wakeAll (if e.hold.isSome then trimHolds (settleBank s e u) e else s) (fun p => p == .owned)

/-- The units of a list performed one after another, each with what the engine has read before. -/
def unitsE (f : State → Engine → Nat → Except (Nat × Nat) State) (op : Nat) (s : State) (us : List Nat) : Except (Nat × Nat) State :=
  foldE (fun s u => match mfind s.engines op with
    | none => .ok s
    | some e => match f s e u with
      | .error x => .error x
      | .ok s => .ok (unitDone s op u)) s us

/-! ## Completion and failure (R215, R216) -/

/-- An engine ends: slot, ownership and holds are released. -/
def endEngine (s : State) (e : Engine) : State :=
  let s := dropHolds { s with engines := mdel s.engines e.id } e.id
  let s := if e.kind.slotted then wake s e.core (fun p => p == .copySlot) else s
  if decide (e.dlo ≤ e.dhi) || decide (e.slo ≤ e.shi) then wakeAll s (fun p => p == .owned) else s

/-- The completion or the failure of an engine reaches its counter or its barrier word. -/
def reportEngine (s : State) (e : Engine) (add code info : Nat) : State :=
  if e.bw then
    match ownOffset s e.core e.ctr with
    | some o => bwWrite s e.core o (bwDone (bwRead s e.core o) code)
    | none => s
  else match e.kind with
    | .channel _ _ _ _ _ _ => namedUpdate s e.part e.core e.ctr add code info e.path
    | _ => counterUpdate s e.part e.core e.ctr add code info e.path

/-- INFO of a failing address (15 Table 15-2). -/
def infoOf (addr : Nat) : Nat := bits addr 7 50

/-- An engine operation fails with a code; nothing is added. -/
def failEngine (s : State) (e : Engine) (code info : Nat) : State := reportEngine (endEngine s e) e 0 code info

/-- The units of an engine that it may perform now. -/
def Engine.free (s : State) (e : Engine) : List Nat := e.rest.filter (fun u => unitReady s e u)

/-- A failure at an address; a line with a reserved tag is rewritten (12 R253). -/
def failAt (s : State) (e : Engine) (code addr : Nat) : State :=
  let s := if code = 9 then (match devPa s e.part false addr with | .ok pa => clearTagged s pa | .error _ => s) else s
  failEngine s e code (infoOf addr)

/-- An engine operation completes with its count and the status it met. -/
def completeEngine (s : State) (e : Engine) : State := reportEngine (endEngine s e) e e.count e.status e.info

end Sys2Proof.Machine
end

