-- ==== Sys2Proof/Machine/Copy.lean ====
section
/-! DEFINITION. The asynchronous copies ACPY, ACPYM, AFILL and AGTHR, and the package copy channels' CHAIN
(10_memory_instructions.md R213 to R221; 11_banks_matrix.md R234 for compute-bank destinations). -/

namespace Sys2Proof.Machine

/-! ## The work of a copy -/

/-- Elements and scales go together (R217, rule 3). -/
def withScales (d b : BitVec 512) : Bool := shFmt d == shFmt b && shSblk d == 1 && shSblk b == 1

/-- The source bytes of a unit of ACPY or ACPYM. -/
def copySources (e : Engine) (u : Nat) : List EByte :=
  let d := e.sh 0
  let b := e.sh 1
  ((unitElems d u).filter (shInside b)).flatMap (fun i =>
    (elemBytes e.core b (shElem b i)).1 ++ (if shSblk b = 1 ∧ shSblk d = 0 then [scaleByte b (shElem b i)] else [])) ++
  (if withScales d b then ((unitScales d u).filter (shInside b)).map (fun i => scaleByte b (shElem b i)) else [])

/-- The destination code of an element of ACPY: moved, converted, or converted from its scaled value (R217, rule 3). -/
def copyCode (s : State) (e : Engine) (idx : List Nat) : Nat :=
  let d := e.sh 0
  let b := e.sh 1
  if !shInside b idx then (convert (shKind b) (shKind d) .rn false 0).1
  else
    let c := e.code s b (shElem b idx)
    if shSblk b = 1 ∧ shSblk d = 0 then encodeVal (shKind d) (scaledVal (shKind b) c (e.byte s (scaleByte b (shElem b idx))).toNat)
    else if shFmt b = shFmt d then c
    else (convert (shKind b) (shKind d) .rn false c).1

/-- The scale that travels with the first element of a block. -/
def copyScale (s : State) (e : Engine) (idx : List Nat) : Byte :=
  if shInside (e.sh 1) idx then e.byte s (scaleByte (e.sh 1) (shElem (e.sh 1) idx)) else 0

/-- A unit of ACPY or ACPYM, on every target. -/
def copyPart (s : State) (e : Engine) (u : Nat) : Except (Nat × Nat) State :=
  let d := e.sh 0
  match capture s e (copySources e u) with
  | .error x => .error x
  | .ok e => match foldE (fun s idx => foldE (fun s t => writeCode s e t d idx (copyCode s e idx) u) s e.targets) (keepSeen s e) (unitElems d u) with
    | .error x => .error x
    | .ok s =>
      if withScales d (e.sh 1) then foldE (fun s idx => foldE (fun s t => writeScale s e t d idx (copyScale s e idx)) s e.targets) s (unitScales d u)
      else .ok s

/-- The lowest failing entry of an index list, with its code (15 Table 15-2). -/
def noteEntry (s : State) (id code entry : Nat) : State :=
  s.modEngine id (fun e => if e.status = 0 ∨ entry < e.info then { e with status := code, info := entry } else e)

/-- The bytes of an entry of a list, which are read at once: a misaligned list is read whole, since its entries cross sectors (R220). -/
def listBytes (e : Engine) (sh : BitVec 512) (r : Nat) : List EByte :=
  if shBase sh % 4 = 0 then (elemBytes e.core sh r).1 else (upFrom (shExt sh 0) 0).flatMap (fun i => (elemBytes e.core sh i).1)

/-- The source bytes of the elements of a unit of AGTHR, once the index entries of its rows have been read. -/
def gatherSources (s : State) (e : Engine) (u : Nat) : List EByte :=
  (unitElems (e.sh 0) u).flatMap (fun idx =>
    let x := e.code s (e.sh 2) (idx.getD 1 0)
    if x < shExt (e.sh 1) 1 then (elemBytes e.core (e.sh 1) (shElem (e.sh 1) [idx.headD 0, x])).1 else [])

/-- An element of AGTHR (R220). -/
def gatherElem (s : State) (e : Engine) (u : Nat) (idx : List Nat) : Except (Nat × Nat) State :=
  let d := e.sh 0
  let r := idx.getD 1 0
  let x := e.code s (e.sh 2) r
  if x < shExt (e.sh 1) 1 then writeCode s e e.core d idx (e.code s (e.sh 1) (shElem (e.sh 1) [idx.headD 0, x])) u
  else if x = 0xFFFFFFFF then .ok s
  else writeCode (noteEntry s e.id 4 r) e e.core d idx 0 u

/-- A unit of AGTHR: each index entry is read once. -/
def gatherPart (s : State) (e : Engine) (u : Nat) : Except (Nat × Nat) State :=
  match capture s e ((unitElems (e.sh 0) u).flatMap (fun idx => listBytes e (e.sh 2) (idx.getD 1 0))) with
  | .error x => .error x
  | .ok e => match capture s e (gatherSources s e u) with
    | .error x => .error x
    | .ok e => foldE (fun s idx => gatherElem s e u idx) (keepSeen s e) (unitElems (e.sh 0) u)

/-- ACCST reads an entry once, and clears it under .clr (11 R243). -/
def accTake (s : State) (e : Engine) (clr : Bool) (en : Nat) : State × Engine :=
  if (mfind e.read en).isSome then (s, e)
  else (if clr then s.modSt e.core (fun k => { k with acc := mset k.acc en 0 }) else s,
    { e with read := mset e.read en (mget (s.core e.core).st.acc en 0) })

/-- A unit of ACCST: entries of the region as destination codes (11 R243). -/
def accstPart (s : State) (e : Engine) (clr : Bool) (u : Nat) : Except (Nat × Nat) State :=
  let c := e.sh 1
  let es := unitElems (e.sh 0) u
  let r := es.foldl (fun (r : State × Engine) idx => accTake r.1 r.2 clr (accEntry c idx)) (s, e)
  foldE (fun s idx => writeCode s e e.core (e.sh 0) idx
    (convert (shKind c) (shKind (e.sh 0)) .rn false (mget r.2.read (accEntry c idx) 0).toNat).1 u) (keepSeen r.1 r.2) es

/-- One unit of a copy's work (log 8). -/
def copyUnit (s : State) (e : Engine) (u : Nat) : Except (Nat × Nat) State :=
  match e.kind with
  | .agthr => gatherPart s e u
  | .afill p => foldE (fun s idx => writeCode s e e.core (e.sh 0) idx p u) s (unitElems (e.sh 0) u)
  | .accst clr => accstPart s e clr u
  | _ => copyPart s e u

/-! ## Checks at issue -/

/-- Elements and scales of a fill record's count: bytes of R215, without the multicast. -/
def tensorCount (d : BitVec 512) (scales : Bool) : Nat :=
  ceilDiv (shCount d * shWidth d) 8 + (if scales then shCount d / shExt d 0 * ceilDiv (shExt d 0) 32 else 0)

/-- A destination shape (Table 7-2, RO) and a source shape. -/
def destOk (s : State) (x : Nat) : Unit → Option Flt := engineUnless (shapeOk (s.shape x) && !shRo (s.shape x)) x
def srcOk (s : State) (x : Nat) : Unit → Option Flt := engineUnless (shapeOk (s.shape x)) x

/-- Source extents reach the destination's, or ZPAD is set (R217, rule 1). -/
def extentsOk (d b : BitVec 512) : Bool := shZpad b || (upFrom (shRank d) 0).all (fun i => decide (shExt d i ≤ shExt b i))

/-- A compute-bank destination (11 R234). -/
def panelFillOk (d b : BitVec 512) : Bool :=
  shPlace d != 3 || (shRank d == 2 && shBase d == 0 && decide (shExt d 0 ≤ shKb d * kbOf (shPlanes d)) &&
    decide (shExt d 1 ≤ shNb d * 1024) && shExt b 0 == shExt d 0 && shExt b 1 == shExt d 1)

/-- No byte of the elements is both source and destination. -/
def apart (core : Nat) (targets : List Nat) (d b : BitVec 512) : Bool :=
  targets.all (fun t => !((elemSpan core b).place core).meets ((elemSpan t d).place core))

/-- No destination element is part of a byte of a peer's window (09 R179). -/
def noPeerMerge (s : State) (x : Nat) : Unit → Option Flt := fun _ => engineUnless (!peerMerge s (engWho s) (s.shape x)) x ()

/-- The conditions of R217 on captured shapes. -/
def acpyShapes (s : State) (x y : Nat) (targets : List Nat) : List (Unit → Option Flt) :=
  let d := s.shape x
  let b := s.shape y
  [destOk s x, srcOk s y, engineUnless (shRank b == shRank d && extentsOk d b && shPlace b != 3) y,
   engineUnless (shFmt d == shFmt b || (!fmtMx (shFmt d) && !fmtMx (shFmt b))) y,
   engineUnless (shSblk d == 0 || withScales d b) x, engineUnless (panelFillOk d b) x, engineUnless (apart s.cur.core targets d b) x]

def acpyFault (s : State) (x y : Nat) (bw : Bool) : Option Flt :=
  firstOf (acpyShapes s x y [s.cur.core] ++
    [fun _ => targetFault s bw, fun _ => tensorFault s (engWho s) (s.shape y) false, fun _ => tensorFault s (engWho s) (s.shape x) true,
     noPeerMerge s x])

/-- The multicast's target cores and banks, judged for a group of the issuing task (R218). -/
def mcastCores (core mask : Nat) : List Nat := (maskLanesFrom 8 0 mask).map (fun b => core / 8 * 8 + b)

/-- The fault of a span of a multicast's destination on a core: its banks there, those of its scales in LOCALBASE among them. -/
def mcastSpan (s : State) (c : Nat) (compute : Bool) (sp : Span) : Option Flt :=
  match sp with
  | .bank k lo hi => banksFault s (engWho s) k lo hi (scratchBase + k * 0x1000000) false compute
  | .va lo _ => match regionOf lo, sp.bankOf s c with
    | .localWin _, some (k, l, h, base, _) => banksFault s (engWho s) k l h base false false
    | _, _ => spanFault s (engWho s) false sp

def mcastFault (s : State) (x mask : Nat) : Option Flt :=
  (mcastCores s.cur.core mask).findSome? (fun c =>
    (tensorSpans c (s.shape x)).findSome? (fun sp => match mcastSpan s c (shPlace (s.shape x) == 3) sp with
      | some f => some f
      | none => clobberFault s c sp))

def acpymFault (s : State) (x y : Nat) (bw : Bool) : Option Flt :=
  let mask := bits (s.sr 29).toNat 0 8
  firstOf (acpyShapes s x y (mcastCores s.cur.core mask) ++
    [engineUnless (mask != 0 && shPlace (s.shape x) != 0) x, fun _ => targetFault s bw,
     fun _ => tensorFault s (engWho s) (s.shape y) false, fun _ => mcastFault s x mask])

def afillFault (s : State) (x : Nat) (bw : Bool) : Option Flt :=
  firstOf [destOk s x, engineUnless (shPlace (s.shape x) != 3 && !fmtMx (shFmt (s.shape x))) x,
    fun _ => targetFault s bw, fun _ => tensorFault s (engWho s) (s.shape x) true, noPeerMerge s x]

def agthrFault (s : State) (x y z : Nat) (bw : Bool) : Option Flt :=
  let d := s.shape x
  let b := s.shape y
  let i := s.shape z
  firstOf [destOk s x, srcOk s y, srcOk s z,
    engineUnless (shRank i == 1 && shFmt i == 0x06) z,
    engineUnless (shRank b == 2 && shPlace b != 3 && shFmt b == shFmt d && !fmtMx (shFmt b)) y,
    engineUnless (shRank d == 2 && shPlace d != 3 && shExt d 0 == shExt b 0 && shExt d 1 == shExt i 0) x,
    fun _ => targetFault s bw, fun _ => tensorFault s (engWho s) b false, fun _ => tensorFault s (engWho s) i false,
    fun _ => tensorFault s (engWho s) d true, noPeerMerge s x]

/-! ## Issue -/

/-- The form of an engine instruction of format FE. -/
def formEng (h : Hdr) (ec : BitVec 4) (ok : Bool) (mult : Nat) (ss shs : List Nat) : Form :=
  { h := h, ok := ok, acc := { ecls := false }, uniform := true, guestOk := false, streamOk := true, persist := true,
    fe := some ec.toNat, mult := mult, ssrc := ss, shsrc := shs }

/-- A copy engine's record before it starts. -/
def State.copyEngine (s : State) (kind : EngKind) (shapes : List (BitVec 512)) (bw : Bool) (total count : Nat)
    (srcs : List (BitVec 512)) : Engine :=
  { id := 0, kind := kind, core := s.cur.core, slot := 0, gid := 0, launch := 0, part := 0, shapes := shapes, ctr := s.engTarget, bw := bw
    total := total, count := count, stamps := srcs.flatMap (tensorStamps s s.cur.core) }

/-- Starts a copy from sources into one destination. -/
def startCopy (s : State) (e : Engine) (srcs : List (BitVec 512)) (d : BitVec 512) : State :=
  startEngine s (e.owning s.cur.core d) (srcs.flatMap (tensorRanges s.cur.core)) (destHolds s s.cur.core d)

def execAcpy (h : Hdr) (x y : BitVec 4) (ec : BitVec 4) (f : BitVec 1) (s : State) : Host.Outcome State Fault Refusal :=
  let d := s.shape x.toNat
  let b := s.shape y.toNat
  let n := tensorCount d (withScales d b)
  issue (formEng h ec (legal (.acpy h x y ec f)) (ceilDiv n 4096) [30, 31] [x.toNat, y.toNat]) s
    (engAct (fun s => acpyFault s x.toNat y.toNat (f == 1)) (fun s =>
      startCopy s (s.copyEngine .acpy [d, b] (f == 1) (shUnits d (withScales d b)) n [b]) [b] d))

def execAcpym (h : Hdr) (x y : BitVec 4) (ec : BitVec 4) (f : BitVec 1) (s : State) : Host.Outcome State Fault Refusal :=
  let d := s.shape x.toNat
  let b := s.shape y.toNat
  let mask := bits (s.sr 29).toNat 0 8
  let n := tensorCount d (withScales d b) * popcount 8 mask
  issue (formEng h ec (legal (.acpym h x y ec f)) (ceilDiv n 4096) [29, 30, 31] [x.toNat, y.toNat]) s
    (engAct (fun s => acpymFault s x.toNat y.toNat (f == 1)) (fun s =>
      startEngine s ((s.copyEngine (.acpym mask) [d, b] (f == 1) (shUnits d (withScales d b)) n [b]).owning s.cur.core d) (tensorRanges s.cur.core b)
        ((mcastCores s.cur.core mask).flatMap (fun c => destHolds s c d))))

def execAfill (h : Hdr) (x : BitVec 4) (ec : BitVec 4) (f : BitVec 1) (s : State) : Host.Outcome State Fault Refusal :=
  let d := s.shape x.toNat
  let wide := decide (shWidth d = 64)
  let pat := (if wide then (pairVal (s.sr 28) (s.sr 29)).toNat else (s.sr 28).toNat) % 2 ^ shWidth d
  let n := tensorCount d false
  issue (formEng h ec (legal (.afill h x ec f)) (ceilDiv n 4096) ([28, 30, 31] ++ (if wide then [29] else [])) [x.toNat]) s
    (engAct (fun s => afillFault s x.toNat (f == 1)) (fun s =>
      startCopy s (s.copyEngine (.afill pat) [d] (f == 1) (shUnits d false) n []) [] d))

def execAgthr (h : Hdr) (x y z : BitVec 4) (ec : BitVec 4) (f : BitVec 1) (s : State) : Host.Outcome State Fault Refusal :=
  let d := s.shape x.toNat
  let b := s.shape y.toNat
  let i := s.shape z.toNat
  let n := tensorCount d false
  issue (formEng h ec (legal (.agthr h x y z ec f)) (ceilDiv n 4096) [30, 31] [x.toNat, y.toNat, z.toNat]) s
    (engAct (fun s => agthrFault s x.toNat y.toNat z.toNat (f == 1)) (fun s =>
      startCopy s (s.copyEngine .agthr [d, b, i] (f == 1) (shUnits d false) n [b, i]) [b, i] d))

/-! ## CHAIN (R221) -/

def chainFault (s : State) (ch head : Nat) : Option Flt :=
  if ch > 15 then some ⟨fcEngine, ch, false⟩
  else if !bitOf (s.part s.curPart).chgrant ch then some ⟨fcAddrPerm, head, false⟩
  else if head % 64 ≠ 0 then some ⟨fcMisalign, head, false⟩
  else none

/-- The partition that holds the grant of a channel (16_tables.md Table 16-9). -/
def chanPart (s : State) (ch : Nat) : Option Nat := (upFrom 16 0).find? (fun p => bitOf (s.part p).chgrant ch)

/-- A channel starts to walk at a record, for the partition that holds its grant (13_queues.md R279, R281). -/
def startChannel (s : State) (ch head : Nat) : State :=
  s.modChannel ch (fun c => { c with head := BitVec.ofNat 64 (bits head 6 51 * 64), busy := true, part := chanPart s ch })

def execChain (h : Hdr) (a b : BitVec 6) (s : State) : Host.Outcome State Fault Refusal :=
  issue { h := h, ok := legal (.chain h a b), src := a.toNat :: regsOf b.toNat 2, uniform := true, guestOk := false, streamOk := true, persist := true } s
    { wait := fun s ls =>
        let ch := (s.g (ls.headD 0) a.toNat).toNat
        let head := (s.gd (ls.headD 0) b.toNat 1).toNat
        if head ≠ 0 ∧ (chainFault s ch head).isNone ∧ (s.channel ch).busy then some (.channel ch) else none
      check := leaderCheck (fun s l => chainFault s (s.g l a.toNat).toNat (s.gd l b.toNat 1).toNat)
      run := fun s ls =>
        let head := (s.gd (ls.headD 0) b.toNat 1).toNat
        if head = 0 then (s, [])
        else
          let ch := (s.g (ls.headD 0) a.toNat).toNat
          (startChannel (persistPoint s s.cur.core [.chain ch head s.cur.word]) ch head, []) }

/-! ## Completion and failure events (R215, R216) -/

/-- The engine numbered `op`, when it is a copy that may act and whose source banks are as at issue. -/
def copyReady (s : State) (op : Nat) : Option Engine :=
  match mfind s.engines op with
  | some e => if e.kind.isCopy && engMay s e && (staleBank s e).isNone then some e else none
  | none => none

/-- A copy performs one unit of its work. -/
def copyAdvance (s : State) (op u : Nat) : State :=
  match copyReady s op with
  | none => s
  | some e =>
    if e.total ≤ u ∨ e.done.contains u ∨ unitBlocked s e u then s
    else match copyUnit s e u with
      | .error _ => s
      | .ok s => unitDone s op u

/-- COPY_COMPLETION: the rest of the work, the settlement of a panel, and the completion. -/
def execCopyCompletion (op : Nat) (s : State) : Host.Outcome State Fault Refusal :=
  .next (match copyReady s op with
    | none => s
    | some e =>
      if !engReady s e then s
      else match unitsE copyUnit op s e.rest with
        | .error _ => s
        | .ok s1 =>
          completeEngine s1 ((mfind s1.engines op).getD e))

end Sys2Proof.Machine
end

