-- ==== Sys2Proof/Machine/Image.lean ====
section
/-! DEFINITION. The images of warps and banks in save slots and dumps (17_faults.md R348, Tables 17-5 and 17-9; R353,
Table 17-8). Where the spec names the contents of a part without its layout, the model chooses one (log 15). -/

namespace Sys2Proof.Machine

/-- `n` free bytes, for use `u`. -/
def freeBytes (s : State) (u n : Nat) : List Byte := (upFrom n 0).map (fun i => BitVec.ofNat 8 (Config.free s.free (u + i)))

/-- The 136 bytes of a stream's state. -/
def streamImage (t : Option Stream) : List Byte :=
  match t with
  | some t => bytesLE 8 t.idx ++ (upFrom 32 0).flatMap (fun r => bytesLE 4 (mget t.s r 0).toNat)
  | none => List.replicate 136 0

/-- The registers that a warp's stack cache holds, by lane and number: lanes ascending, frames newest first (DESIGN CHOICE, log 15). -/
def Warp.cached (w : Warp) : List (Nat × Nat) :=
  (upFrom 32 0).flatMap (fun l => (w.lane l).frames.flatMap (fun f =>
    ((upFrom f.count 0).filter (fun i => !f.spilled.contains i)).map (fun i => (l, f.wbase + i))))

/-- The 2 KiB of a warp's stack cache. -/
def cacheImage (w : Warp) : List Byte := fitBytes (w.cached.flatMap (fun x => bytesLE 4 (mget (w.lane x.1).regs x.2 0).toNat)) 2048

/-- The 8 KiB of a warp image (Table 17-5). -/
def warpImage (w : Warp) : List Byte :=
  fitBytes ((upFrom 32 0).flatMap (fun l => laneImage w.nreg (w.lane l)) ++
    fitBytes ((upFrom 32 0).flatMap (fun r => bytesLE 4 (mget w.s r 0).toNat) ++ masksImage w ++
      bytesLE 8 w.migset.toNat ++ bytesLE 8 w.stkbase.toNat ++ bytesLE 4 w.stklim.toNat ++ bytesLE 4 w.stage) 256 ++
    streamImage w.stream) 6144 ++ cacheImage w

/-- A lane's physical register in a save slot: one of the window whose block is not LIVE is zero (06_control_state.md R127). -/
def savedReg (x : Lane) (nreg p : Nat) : Word :=
  let v := x.physAt nreg p
  if x.wbase ≤ v ∧ v < x.wbase + 64 ∧ !x.liveMask.getLsbD ((v - x.wbase) / 4) then 0 else x.physReg nreg p

/-- The register file of a warp, by lane and physical register. -/
def regImage (reg : Lane → Nat → Nat → Word) (w : Warp) : List Byte :=
  (upFrom 32 0).flatMap (fun l => (upFrom w.nreg 0).flatMap (fun p => bytesLE 4 (reg (w.lane l) w.nreg p).toNat))

/-- The 1 KiB of a bank's live tags, one bit for each unit of 16 bytes. -/
def liveImage (b : Bank) : List Byte :=
  (upFrom 1024 0).map (fun i => BitVec.ofNat 8 ((upFrom 8 0).foldl (fun a j => a + (if mget b.live (8 * i + j) false then 2 ^ j else 0)) 0))

/-- Accumulator entries, scale store and check register of a bank. -/
def sideImage (acc : PMap Word) (b : Bank) (n : Nat) : List Byte :=
  (upFrom 1024 (1024 * n)).flatMap (fun i => bytesLE 4 (mget acc i 0).toNat) ++ (upFrom 8192 0).map (fun i => mget b.scale i 0) ++
  (upFrom 1024 0).flatMap (fun i => bytesLE 3 (mget b.check i 0))

/-- The 144 KiB of a bank (Table 17-5). -/
def bankImage (scratch : Memory) (acc : PMap Word) (b : Bank) (n : Nat) : List Byte :=
  memReads scratch (131072 * n) 131072 ++ sideImage acc b n ++ liveImage b

/-- The sixteen shape registers of a context. -/
def shapeImage (c : Ctx) : List Byte := (upFrom 16 0).flatMap (fun i => bytesLE 64 (mget c.sh i 0).toNat)

/-- The task-level system registers of a context and EBMAX, 8 bytes each, by rising register number (log 15). -/
def sysImage (c : Ctx) : List Byte :=
  fitBytes ([c.taskid.toNat, c.prio, b2n c.persistOff, c.faultq.toNat, c.opf.toNat, c.accsat.toNat, c.dlrem.toNat, c.ebudget.toNat,
    c.ebrate.toNat, (wordOfInt c.ebmax).toNat].flatMap (fun v => bytesLE 8 v)) 1024

/-- The status word of Table 11-3, of a bank held so. -/
def Bank.status (x : Bank) (gid : Nat) (excl shared : Bool) : Nat :=
  x.fails % 4 * 2 ^ 22 + b2n x.chkerr * 2 ^ 21 + b2n x.clearing * 2 ^ 20 + b2n excl * 2 ^ 19 +
  b2n shared * 2 ^ 18 + x.fmt % 32 * 2 ^ 13 + x.planes % 32 * 2 ^ 8 + b2n x.compute * 2 ^ 7 +
  b2n (x.owner == some gid) * 2 ^ 6 + b2n x.owner.isSome * 2 ^ 5

/-- The 8 bytes of a bank in a context image: mode, type and planes of its fill, fault history, one byte each, and the word that BSTAT reads
(their order is a DESIGN CHOICE, log 15). -/
def bankWord (b : Bank) (status : Nat) : List Byte :=
  bytesLE 1 (b2n b.compute) ++ bytesLE 1 b.fmt ++ bytesLE 1 b.planes ++ bytesLE 1 b.fails ++ bytesLE 4 status

/-- The 4 KiB of a context image, with the words of the banks that it covers. -/
def ctxImage (c : Ctx) (words : List Byte) : List Byte := fitBytes (shapeImage c ++ sysImage c ++ words) 4096

/-- The 128 bytes of a shuttle (14_shuttles.md R286, Table 14-1). -/
def shuttleImage (x : Shuttle) : List Byte :=
  fitBytes (bytesLE 8 x.pc.toNat ++ bytesLE 8 x.sp.toNat ++ bytesLE 2 x.pw.toNat ++ bytesLE 2 (x.safecnt % 4096 + x.g.prio % 8 * 4096) ++
    [BitVec.ofNat 8 x.g.lane, BitVec.ofNat 8 x.g.hops] ++ bytesLE 2 x.g.origin ++ bytesLE 4 x.g.taskid.toNat ++ bytesLE 4 x.g.seq.toNat ++
    bytesLE 4 x.g.gtag ++
    [BitVec.ofNat 8 (b2n x.homeward + 2 * b2n x.recalled + 4 * b2n x.fault + 8 * b2n x.ended + 16 * b2n x.exited), BitVec.ofNat 8 x.fcode] ++
    bytesLE 2 x.g.gfl.toNat ++ bytesLE 8 x.g.migset.toNat ++ bytesLE 8 x.workid.toNat ++ bytesLE 8 x.faddr.toNat ++
    x.regs.flatMap (fun r => bytesLE 4 r.2.toNat)) 128

/-! ## Writing the save slot (R163, R348) -/

/-- Pieces of an image written at their places by a device agent, all or none. -/
def writePieces (s : State) (p : Nat) : List (Nat × List Byte) → Except (Nat × Nat) State
  | [] => .ok s
  | (a, bs) :: rest => match devWrite s p a bs with
    | .error e => .error e
    | .ok s => writePieces s p rest

/-- The image of one bank of a saved group enters its save slot, unless the slot cannot be written. -/
def slotBankWrite (s : State) (launch group : Nat) (k : Nat) (image : List Byte) : Option State :=
  match mfind s.launches launch with
  | none => some s
  | some l => match devWrite s l.part (l.header.slotAt group + l.header.slotBank k) image with
    | .ok s => some s
    | .error _ => none

end Sys2Proof.Machine
end

