-- ==== Sys2Proof/Machine/Banks.lean ====
section
/-! DEFINITION. Banks: allocation, freeing, modes, status, clearing and checks (11_banks_matrix.md R222, R223, R231 to
R236; 08_memories.md R152; 15_counters.md R304), and the grant of holds (11 R228). -/

namespace Sys2Proof.Machine

/-! ## Span sets and runs -/

/-- The span set of a core (R240). -/
def spanSet (core span : Nat) : List Nat :=
  if span ≤ 1 then [core] else (upFrom span (core / 8 * 8 + core % 8 / span * span))

/-- The group of the instruction in progress. -/
def State.curGroup (s : State) : Option Group := mfind (s.core s.cur.core).st.groups s.curWarp.group

/-- The cores to which a bank instruction of the group applies. -/
def State.curSpan (s : State) : List Nat := spanSet s.cur.core (match s.curGroup with | some g => g.span | none => 1)

/-- The save slot for which a group holds its banks in place, wherever the group is resident. -/
def heldFor (s : State) (gid : Nat) : Option Nat := s.cores.findSome? (fun c => (mfind c.2.st.groups gid).bind (·.lazyOf))

/-- The bytes of a bank leave a core's scratchpad, and its entries its accumulators. -/
def CoreSt.wipe (k : CoreSt) (b : Nat) : CoreSt :=
  { k with
    scratch := k.scratch.filter (fun x => x.1 / 131072 != b)
    acc := k.acc.filter (fun x => x.1 / 1024 != b) }

/-- A bank of core `t` of a span set, with its bytes and entries, joins what is kept of a saved group. -/
def Saved.take (x : Saved) (k : CoreSt) (t b : Nat) : Saved :=
  { x with
    scratch := (k.scratch.filter (fun (y : Host.Cell) => y.1 / 131072 == b)).foldl
      (fun (m : Memory) (y : Host.Cell) => memWrite m (t * scratchSize + y.1) y.2) x.scratch
    acc := (k.acc.filter (fun (y : Nat × Word) => y.1 / 1024 == b)).foldl
      (fun (m : PMap Word) (y : Nat × Word) => mset m (t * 65536 + y.1) y.2) x.acc
    banks := mset x.banks (64 * t + b) (k.bank b)
    lazyBanks := x.lazyBanks.filter (· != 64 * t + b) }

/-- A saved group's bank still on the core is saved with its entries, and left (17 R349); none when its slot cannot be written.
The slot has room for the banks of one core of a span set, the first (R348). -/
def saveLazyBank (s : State) (core b : Nat) : Option State :=
  match ((s.core core).st.bank b).owner.bind (heldFor s) with
  | none => some s
  | some sv => match mfind s.saved sv with
    | none => some s
    | some x =>
      let k := (s.core core).st
      let t := (spanSet x.core x.group.span).findIdx (fun (c : Nat) => c == core)
      (if t = 0 then
          slotBankWrite s x.launch x.number ((x.banks.map (fun (y : Nat × Bank) => y.1)).findIdx (fun (y : Nat) => y == b))
            (bankImage k.scratch k.acc (k.bank b) b)
        else some s).map (fun s =>
          { s with saved := mset s.saved sv (x.take k t b) }.modSt core (fun k => { CoreSt.wipe k b with banks := mset k.banks b {} }))

/-- A bank is unallocated, being cleared, or left in place by a saved group, whose slot takes it (R231, 17_faults.md R349). -/
def bankOpen (s : State) (core b : Nat) : Bool :=
  match ((s.core core).st.bank b).owner with
  | none => true
  | some g => (heldFor s g).isSome && (saveLazyBank s core b).isSome

/-- The lowest run of `n` open banks on every core of a set. -/
def findRun (s : State) (cores : List Nat) (n : Nat) : Option Nat :=
  (upFrom (65 - n) 0).find? (fun b => cores.all (fun c => (upFrom n b).all (bankOpen s c)))

/-- A bank that a saved group has left in place. -/
def lazyLeft (s : State) (core b : Nat) : Bool := (((s.core core).st.bank b).owner.bind (heldFor s)).isSome

/-- A bank left in place is still restoring: it cannot be saved before it is reloaded (17 R351). -/
def lazyRestoring (s : State) (core b : Nat) : Bool := lazyLeft s core b && (s.core core).restoring.contains b

/-- A bank left in place cannot be saved yet: a request for it or for its entries is not over (R228), or it is restoring. -/
def lazyBusy (s : State) (core b : Nat) : Bool :=
  lazyRestoring s core b || (lazyLeft s core b && (s.core core).holds.any (fun h => h.banks.contains b ||
    h.entries.any (fun x => decide (x.1 < 1024 * (b + 1)) && decide (1024 * b < x.1 + x.2))))

/-- A bank comes to a group, zero (R152, R231). -/
def giveBank (s : State) (gid : Nat) (compute : Bool) (core b : Nat) : State :=
  let s := (saveLazyBank s core b).getD s
  let t := s.fresh
  { s with fresh := s.fresh + 1 }.modSt core (fun k =>
    { k.wipe b with banks := mset k.banks b { owner := some gid, compute := compute, stamp := t } })

def giveBanks (s : State) (gid : Nat) (compute : Bool) (cores banks : List Nat) : State :=
  cores.foldl (fun s c => banks.foldl (fun s b => giveBank s gid compute c b) s) s

/-! ## BALLOC (R231) -/

/-- The run that BALLOC takes. -/
def ballocRun (s : State) (a l : Nat) : Option (Nat × Nat) :=
  let n := bits (s.g l a).toNat 0 7
  if n = 0 ∨ n > 64 then none else (findRun s s.curSpan n).map (fun b => (b, n))

def execBalloc (h : Hdr) (d a : BitVec 6) (s : State) : Host.Outcome State Fault Refusal :=
  issue { h := h, ok := legal (.balloc h d a), src := [a.toNat], dst := [d.toNat], uniform := true, guestOk := false, persist := true } s
    { wait := fun s ls => match ballocRun s a.toNat (ls.headD 0) with
        | some r =>
          let any (f : Nat → Nat → Bool) : Bool := s.curSpan.any (fun c => (upFrom r.2 r.1).any (f c))
          if any (fun c b => ((s.core c).st.bank b).clearing) then some .clearing
          else match (s.curSpan.flatMap (fun c => (upFrom r.2 r.1).map (fun b => (c, b)))).find? (fun x => lazyRestoring s x.1 x.2) with
            | some x => some (.restoring x.1 x.2)
            | none => if any (lazyBusy s) then some .owned else if s.curSpan.any (commitWaits s) then some .persist else none
        | none => none
      run := fun s ls =>
        let mode := bitOf (s.g (ls.headD 0) a.toNat).toNat 8
        let r := ballocRun s a.toNat (ls.headD 0)
        let v : Word := match r with | some r => BitVec.ofNat 32 r.1 | none => 0xFFFFFFFF
        let s := match r with
          | some r => giveBanks s s.curWarp.group mode s.curSpan (upFrom r.2 r.1)
          | none => s
        let s := s.eachLane ls (fun s l => s.addLane l (effG s.curWarp l d.toNat v) 0)
        ((if r.isSome then s.curSpan else [s.cur.core]).foldl (fun s c => persistPoint s c []) s, []) }

/-! ## Runs (R232) -/

def runFirst (w : Word) : Nat := bits w.toNat 0 6
def runCount (w : Word) : Nat := bits w.toNat 8 7

/-- A run of banks that the issuing group holds on every core of its span set. -/
def runFault (s : State) (w : Word) : Option Flt :=
  if runCount w = 0 ∨ runFirst w + runCount w > 64 ∨
      !(s.curSpan.all (fun c => (upFrom (runCount w) (runFirst w)).all (fun b => ((s.core c).st.bank b).owner == some s.curWarp.group)))
  then some ⟨fcBankOwner, w.toNat, false⟩ else none

/-- A fibre of the core is parked on the barrier word at an offset, or a .bw completion names it (15 R304, R306). -/
def wordInUse (s : State) (core off : Nat) : Bool :=
  (s.core core).st.warps.any (fun x => x.2.lanes.any (fun y => y.2.state == .parked &&
    (match y.2.park with | .bwwait o _ => o == off | _ => false))) ||
  s.engines.any (fun e => e.2.bw && e.2.core == core && ownOffset s core e.2.ctr == some off)

/-- A live word in use in a run. -/
def runBusyWord (s : State) (w : Word) : Option Flt :=
  s.curSpan.findSome? (fun c => (upFrom (runCount w) (runFirst w)).findSome? (fun b =>
    ((s.core c).st.bank b).live.findSome? (fun x =>
      if x.2 && wordInUse s c (b * 131072 + x.1 * 16) then some ⟨fcBarrierState, localBase + b * 131072 + x.1 * 16, false⟩ else none)))

/-- An operation of the banks begins: its requests are made, and no intent is committed. The check of many banks asks for each at
once, but holds only the one that it checks (R228, R235). -/
def addEngine (s : State) (e : Engine) (holds : List (Nat × Hold)) (inTurn : Bool := false) : State :=
  let id := s.fresh
  let e : Engine := { e with
    id := id, core := s.cur.core, slot := s.cur.slot, gid := s.curWarp.group, launch := s.curWarp.launch, part := s.curPart
    stream := s.cur.stream, members := s.cur.lanes, pc := s.cur.hpc, ipc := s.cur.pc, word := s.cur.word, batch := s.cur.lanes, hold := some (id + 1) }
  let s := { s with fresh := id + 2, engines := mset s.engines id e }
  (holds.zip (upFrom holds.length 0)).foldl (fun s x => addHold s x.1.1 { x.1.2 with id := id + 1 + x.2, op := some id } (!inTurn || x.2 == 0))
    { s with fresh := id + 2 + holds.length }

/-- Exclusive holds on a run, on every core of the span. -/
def runHolds (s : State) (w : Word) : List (Nat × Hold) :=
  s.curSpan.map (fun c => (c, { id := 0, banks := upFrom (runCount w) (runFirst w), entries := [], excl := true, exclEntries := false, op := none }))

/-- An operation of a core on its own banks before it starts. -/
def State.bankEngine (s : State) (kind : EngKind) (leader : Nat) : Engine :=
  { id := 0, kind := kind, core := s.cur.core, slot := 0, gid := 0, launch := 0, part := 0, leader := leader, span := s.curSpan.length }

def execBfree (h : Hdr) (a : BitVec 6) (s : State) : Host.Outcome State Fault Refusal :=
  issue { h := h, ok := legal (.bfree h a), src := [a.toNat], uniform := true, guestOk := false, persist := true } s
    { check := leaderCheck (fun s l => match runFault s (s.g l a.toNat) with
        | some f => some f
        | none => runBusyWord s (s.g l a.toNat))
      run := fun s ls =>
        let w := s.g (ls.headD 0) a.toNat
        (addEngine s (s.bankEngine (.bfree (runFirst w) (runCount w)) (ls.headD 0)) (runHolds s w), []) }

def execBmode (h : Hdr) (a b : BitVec 6) (s : State) : Host.Outcome State Fault Refusal :=
  issue { h := h, ok := legal (.bmode h a b), src := [a.toNat, b.toNat], uniform := true, guestOk := false, persist := true } s
    { check := leaderCheck (fun s l => runFault s (s.g l a.toNat))
      run := fun s ls =>
        let w := s.g (ls.headD 0) a.toNat
        (addEngine s (s.bankEngine (.bmode (runFirst w) (runCount w) (bitOf (s.g (ls.headD 0) b.toNat 1).toNat 0)) (ls.headD 0)) (runHolds s w), []) }

/-- A bank is freed; it is cleared afterwards (R152, R232). -/
def Bank.freed (b : Bank) (t : Nat) : Bank := { b with owner := none, clearing := true, stamp := t }

/-- A bank's mode is set (R223, R232). -/
def setMode (t : Nat) (compute : Bool) (k : CoreSt) (b : Nat) : CoreSt :=
  let k := k.modBank b (fun x => { x with compute := compute, scale := [], fails := 0, stamp := if x.compute = compute then x.stamp else t })
  if compute then k.resum b (upFrom 1024 0) else k

/-- BANK_RUN_COMPLETE: BFREE or BMODE makes its change, committed on each core (09_consistency.md R191). -/
def execBankRunComplete (op : Nat) (s : State) : Host.Outcome State Fault Refusal :=
  .next (match mfind s.engines op with
    | none => s
    | some e =>
      let cores := spanSet e.core e.span
      if !engMay s e || cores.any (commitWaits s) then s
      else
        let t := s.fresh
        let s1 := { s with fresh := s.fresh + 1 }
        match e.kind with
        | .bfree first n =>
          let s1 := cores.foldl (fun s c => s.modSt c (fun k => (upFrom n first).foldl (fun k b => k.modBank b (·.freed t)) k)) s1
          endEngine (cores.foldl (fun s c => persistPoint s c []) s1) e
        | .bmode first n compute =>
          let s1 := cores.foldl (fun s c => s.modSt c (fun k => (upFrom n first).foldl (setMode t compute) k)) s1
          endEngine (cores.foldl (fun s c => persistPoint s c []) s1) e
        | _ => s)

/-- BANK_CLEAR_DONE: a freed bank reads zero, with its side stores, entries and live tags (R152, R222). -/
def execBankClearDone (core bank : Nat) (s : State) : Host.Outcome State Fault Refusal :=
  .next (let b := (s.core core).st.bank bank
    if b.clearing then
      wakeAll (s.modSt core (fun k => { k.wipe bank with banks := mset k.banks bank { stamp := b.stamp, forward := b.forward } }))
        (fun p => p == .clearing)
    else s)

/-! ## BSTAT (R233) -/

/-- A running hold of a kind covers a bank. -/
def bankHeld (s : State) (core b : Nat) (excl : Bool) : Bool :=
  (s.core core).holds.any (fun h => h.granted && h.excl == excl && h.banks.contains b)

def bankStatus (s : State) (core gid b : Nat) : Nat :=
  ((s.core core).st.bank b).status gid (bankHeld s core b true) (bankHeld s core b false)

def execBstat (h : Hdr) (d a : BitVec 6) (s : State) : Host.Outcome State Fault Refusal :=
  issue { h := h, ok := legal (.bstat h d a), src := [a.toNat], dst := [d.toNat], uniform := true, guestOk := false } s
    (.pure (fun s ls =>
      let v := BitVec.ofNat 32 (bankStatus s s.cur.core s.curWarp.group (bits (s.g (ls.headD 0) a.toNat).toNat 0 6))
      s.eachLane ls (fun s l => s.addLane l (effG s.curWarp l d.toNat v) 0)))

/-! ## BCHK (R235, R236) -/

/-- The banks that a mask names. -/
def maskBanks (m : Nat) : List Nat := maskLanesFrom 64 0 m

def bchkFault (s : State) (m : Nat) : Option Flt :=
  if m = 0 ∨ !((maskBanks m).all (fun b => ((s.core s.cur.core).st.bank b).owner == some s.curWarp.group)) then some ⟨fcBankOwner, m, false⟩
  else if !((maskBanks m).all (fun b => ((s.core s.cur.core).st.bank b).compute)) then some ⟨fcBankMode, m, false⟩
  else none

/-- The requests of a check, bank by bank. -/
def bchkHolds (core m : Nat) : List (Nat × Hold) :=
  (maskBanks m).map (fun b => (core, { id := 0, banks := [b], entries := [], excl := true, exclEntries := false, op := none }))

/-- The members park until the check ends. -/
def execBchk (h : Hdr) (a : BitVec 6) (s : State) : Host.Outcome State Fault Refusal :=
  let m0 := (s.gd (s.leader h) a.toNat).toNat
  issue { h := h, ok := legal (.bchk h a), src := regsOf a.toNat 2, uniform := true, guestOk := false, persist := true, mult := popcount 64 m0 } s
    { check := leaderCheck (fun s l => bchkFault s (s.gd l a.toNat).toNat)
      run := fun s ls =>
        let m := (s.gd (ls.headD 0) a.toNat).toNat
        let s0 := if (s.core s.cur.core).egress.isEmpty then s else persistPoint s s.cur.core []
        let s1 := parkHere s0 h ls (.bankCheck (s0.fresh + 1))
        let s2 := addEngine s1 (s1.bankEngine (.bchk m) (ls.headD 0)) (bchkHolds s.cur.core m) true
        (persistPoint s2 s.cur.core [.engine (s0.fresh + 1)], []) }

/-- The sums of a bank match its check register. -/
def bankSumsOk (k : CoreSt) (b : Nat) : Bool := (upFrom 1024 0).all (fun c => knownSum k b c == mget (k.bank b).check c 0)

/-- The fault record of an engine operation's instruction. -/
def engRecord (e : Engine) (hinted : Bool) (code addr : Nat) (after : DWord) : FaultRec :=
  { FaultRec.blank with
    code := code, pc := e.pc, addr := BitVec.ofNat 64 addr, batch := e.batch, insn := e.word, leader := true, leadlane := e.leader
    hinted := hinted, after := after }

/-- One bank's outcome; a repeated mismatch asks the motif's controller for a step (R236). -/
def checkBank (s : State) (core b : Nat) : State × Bool :=
  let x := (s.core core).st.bank b
  if bankSumsOk (s.core core).st b then (s.modBank core b (fun x => { x with chkerr := false }), false)
  else
    let s := s.modBank core b (fun x => { x with chkerr := true, fails := min 3 (x.fails + 1) })
    (if x.fails ≥ 1 then s.modMotif (core / 8) (fun m => { m with checkReqs := m.checkReqs + 1 }) else s, true)

/-- A request of an operation may be granted: a check holds one bank at a time, in ascending order (R235). -/
def holdTurn (s : State) (h : Hold) : Bool :=
  match h.op.bind (mfind s.engines) with
  | none => true
  | some e => match e.kind with
    | .bchk m => h.banks == [(maskBanks m).getD e.next 64]
    | _ => true

/-- A check checks its next bank, when it may hold it, and releases it; INFO gathers the mask of the banks that mismatch. -/
def bchkAdvance (s : State) (op : Nat) : State :=
  match mfind s.engines op with
  | none => s
  | some e => match e.kind with
    | .bchk m => match (maskBanks m)[e.next]? with
      | none => s
      | some b =>
        let hs := (s.core e.core).holds
        if (s.core e.core).restoring.contains b || engPaused s e || !hs.any (fun h => h.op == some op && h.banks == [b] &&
            (h.granted || holdFree (hs.takeWhile (fun x => x.id != h.id)) h)) then s
        else
          let r := checkBank s e.core b
          let s := r.1.modCore e.core (fun k => { k with holds := k.holds.filter (fun h => !(h.op == some op && h.banks == [b])) })
          wakeAll (s.modEngine op (fun x => { x with next := x.next + 1, info := if r.2 then x.info + 2 ^ b else x.info })) (fun p => p == .owned)
    | _ => s

/-- The banks that a check may hold one after another. -/
def bchkRest (s : State) (op : Nat) : State := (upFrom 64 0).foldl (fun s _ => bchkAdvance s op) s

/-- The end of a check: its members go on, or fault at its address with the mask of the banks that mismatch. -/
def endCheck (s : State) (e : Engine) : State :=
  let s := endEngine s e
  match s.warp? e.core e.slot with
  | none => s
  | some w =>
    let ls := (upFrom 32 0).filter (fun l => (w.lane l).state == .parked && (w.lane l).park == .bankCheck e.id)
    if e.info = 0 then settleWarp (goOn s e.core e.slot ls) e.core e.slot
    else settleWarp (ls.foldl (fun s l =>
      let x := w.lane l
      faultLane s e.core e.slot l (engRecord e (!x.hints.isEmpty) fcBankCheck e.info (pcAfter x.hpc (x.hints.length + 1)))) s) e.core e.slot

/-- BCHK_COMPLETION: the rest of the banks, as their holds come, and the end after the last, which the core commits, so that a loss of power
neither repeats it nor leaves its members parked (R244; log 16). -/
def execBchkCompletion (op : Nat) (s : State) : Host.Outcome State Fault Refusal :=
  .next (
    let s1 := bchkRest s op
    match mfind s1.engines op with
    | none => s
    | some e => match e.kind with
      | .bchk m => if e.next < (maskBanks m).length || commitWaits s1 e.core then s1 else commitCore (endCheck s1 e) e.core 0 []
      | _ => s)

end Sys2Proof.Machine
end

