-- ==== Sys2Proof/Machine/Channel.lean ====
section
/-! DEFINITION. The package copy channels: records, copies and completions (13_queues.md R279 to R281). -/

namespace Sys2Proof.Machine

/-- The partition for which a channel walks, while it is ACTIVE. -/
def chanActive (s : State) (ch : Nat) : Option Nat := (s.channel ch).part.filter (fun p => (s.part p).state == 1)

/-- A walk stops; batches and streams that wait for the channel issue again. -/
def stopChannel (s : State) (ch : Nat) (code : Option Nat) : State :=
  wakeAll (s.modChannel ch (fun c => { c with busy := false, code := code.getD c.code, record := [] })) (fun p => p == .channel ch)

/-- A field of a record (Table 13-9). -/
def recField (r : List Byte) (off n : Nat) : Nat := ofBytesLE ((r.drop off).take n)

/-- Two ranges of addresses meet. -/
def rangesMeet (a n b m : Nat) : Bool := decide (a < b + m) && decide (b < a + n)

/-- A counter address that a channel may name: none, a bound window, or a counter in global memory (15_counters.md R297). -/
def chanCtrOk (s : State) (a : Nat) : Bool :=
  a == 0 || (a % 8 == 0 && (match regionOf a with | .scratch _ _ | .localWin _ => false | _ => true) &&
    ((findBind s a).isSome || decide (a % 128 ≤ 112)))

/-- A record is valid (R281). -/
def recordOk (s : State) (r : List Byte) : Bool :=
  let len := recField r 24 8
  len != 0 && decide (len ≤ 2 ^ 40) && bits (recField r 40 1) 2 6 == 0 && recField r 41 23 == 0 &&
  recField r 0 8 % 64 == 0 && chanCtrOk s (recField r 32 8) && !rangesMeet (recField r 8 8) len (recField r 16 8) len

/-- The engine operation of a record's copy. It has no issuing core. -/
def chanEngine (p ch : Nat) (addr : Nat) (r : List Byte) (id : Nat) : Engine :=
  let src := recField r 8 8
  let dst := recField r 16 8
  let len := recField r 24 8
  { id := id, kind := .channel ch src dst len addr (recField r 32 8), core := 256, slot := 0, gid := 0, launch := 0, part := p
    ctr := recField r 32 8, total := (dst % 32 + len - 1) / 32 + 1, count := len, dlo := dst, dhi := dst + len - 1 }

/-- The record at an address, read by an engine; a line with a reserved tag fails it and is rewritten (12_stacks.md R253). -/
def chanRead (s : State) (p : Nat) (c : Channel) (addr : Nat) : Except (Nat × Nat) (List Byte) :=
  if c.record.isEmpty then engReads (engRead s p 256 s.fresh []) ((upFrom 64 addr).map .va) else .ok c.record

/-- CHANNEL_RECORD: a walking channel reads the record at CHHEAD and starts its copy, waits for its fence, or stops; at the end of a chain the
walk ends, and copies that have started go on. -/
def execChannelRecord (ch : Nat) (s : State) : Host.Outcome State Fault Refusal :=
  .next (
    let c := s.channel ch
    let addr := c.head.toNat
    if !c.busy then s
    else if addr = 0 then stopChannel s ch none
    else match chanActive s ch with
      | none => if c.ops.isEmpty then stopChannel s ch (some 8) else s
      | some p => match chanRead s p c addr with
        | .error x =>
          if x.1 = 0 then s
          else stopChannel (if x.1 = 9 then (match devPa s p false x.2 with | .ok pa => clearTagged s pa | .error _ => s) else s) ch (some x.1)
        | .ok r =>
          let fl := recField r 40 1
          if !bitOf fl 0 then stopChannel s ch none
          else if !recordOk s r then stopChannel s ch (some 7)
          else if bitOf fl 1 && !c.ops.isEmpty then s.modChannel ch (fun c => { c with record := r })
          else
            let id := s.fresh
            let s := { s with fresh := id + 1, engines := mset s.engines id (chanEngine p ch addr r id) }
            s.modChannel ch (fun c => { c with head := BitVec.ofNat 64 (bits (recField r 0 8) 6 51 * 64), ops := c.ops ++ [id], record := [] }))

/-- The bytes of a copy, counted from its start, that unit `u` moves: those of a 32-byte sector of the destination. -/
def chanOffs (dst len u : Nat) : List Nat :=
  let lo := 32 * u - dst % 32
  upFrom (min len (32 * (u + 1) - dst % 32) - lo) lo

/-- One unit of a channel's copy: the source's sectors are read once (09_consistency.md R188). -/
def chanUnit (s : State) (e : Engine) (u : Nat) : Except (Nat × Nat) State :=
  match e.kind with
  | .channel _ src dst len _ _ =>
    let outside := ((chanOffs dst len u).flatMap (fun i => [src + i, dst + i])).find? (fun a => regionOf a != .global)
    let got : Except (Nat × Nat) Engine := match outside with
      | some a => .error (1, a)
      | none => capture s e ((chanOffs dst len u).map (fun i => .va (src + i)))
    (match got with
      | .error x => .error x
      | .ok e => engWrites (keepSeen s e) e.part e.core e.pages ((chanOffs dst len u).map (fun i => (.va (dst + i), e.byte s (.va (src + i))))))
  | _ => .ok s

/-- A channel's copy performs one unit of its work. -/
def chanAdvance (s : State) (op u : Nat) : State :=
  match mfind s.engines op with
  | none => s
  | some e =>
    if !unitReady s e u || decide (e.total ≤ u) || e.done.contains u then s
    else match chanUnit s e u with
      | .error _ => s
      | .ok s => unitDone s op u

/-- The copy of a record has failed: its code goes to its counter and to CHSTAT, OWN stays, CHHEAD names it, and later
records of the chain whose copies have started are given up. -/
def chanFail (s : State) (ch : Nat) (e : Engine) (addr : Nat) (x : Nat × Nat) : State :=
  let later := (s.channel ch).ops.filter (· != e.id)
  let s := failAt s e x.1 x.2
  let s := later.foldl (fun s i => match mfind s.engines i with | some y => endEngine s y | none => s) s
  stopChannel (s.modChannel ch (fun c => { c with head := BitVec.ofNat 64 addr, ops := [] })) ch (some x.1)

/-- The completion of a record, at its counter if it names one; where the counter is a bound window and the post is refused, the channel's own
status says so (R265). -/
def chanReport (s : State) (ch : Nat) (e : Engine) : State :=
  if e.ctr = 0 then endEngine s e
  else
    let r := counterPost (endEngine s e) e.part e.core e.ctr e.count e.status e.info e.path
    if r.1 = 0 then r.2 else r.2.modChannel ch (fun c => { c with code := 0x12 })

/-- The copy of a record has completed: its counter advances, then OWN is cleared. -/
def chanDone (s : State) (ch : Nat) (e : Engine) (addr : Nat) : State :=
  let s := chanReport s ch e
  let s := match devRead s e.part (addr + 40) 1 with
    | .error _ => s
    | .ok b => match devWrite s e.part (addr + 40) (bytesLE 1 (ofBytesLE b / 2 * 2)) with
      | .error _ => s
      | .ok s => s
  s.modChannel ch (fun c => { c with ops := c.ops.filter (· != e.id) })

/-- CHANNEL_COPY_COMPLETION: the oldest record of the chain does the rest of its copy, and completes or fails. -/
def execChannelCopyCompletion (ch : Nat) (s : State) : Host.Outcome State Fault Refusal :=
  .next (match (s.channel ch).ops with
    | [] => s
    | op :: _ => match mfind s.engines op with
      | none => s
      | some e => match e.kind with
        | .channel _ _ _ _ addr _ =>
          if !engReady s e then s
          else (match unitsE chanUnit op s e.rest with
            | .error x => if x.1 = 0 then s else chanFail s ch e addr x
            | .ok s1 => chanDone s1 ch e addr)
        | _ => s)

/-- A master may write the registers of a channel (18_power_host.md Table 18-4). -/
def chanMaster (s : State) (master ch : Nat) : Bool :=
  s.owner == master || (match chanPart s ch with | some p => (s.part p).master == master | none => false)

/-- A permitted write of CHHEAD (R279). -/
def writeChhead (s : State) (ch v : Nat) : State :=
  if (s.channel ch).busy then s.modChannel ch (fun c => { c with lost := true })
  else if bits v 6 51 = 0 then s.modChannel ch (fun c => { c with head := 0 })
  else startChannel s ch v

/-- CHHEAD_WRITE: a master writes a channel's head register; a master without the right writes nothing. -/
def execChheadWrite (master ch : Nat) (v : BitVec 64) (s : State) : Host.Outcome State Fault Refusal :=
  .next (if chanMaster s master ch ∧ ch < 16 then writeChhead s ch v.toNat else s)

end Sys2Proof.Machine
end

