-- ==== Sys2Proof/Machine/Special.lean ====
section
/-! DEFINITION. The special functions (05_float_registers.md R97, Table 5-2). The exact function is computed in fixed
point with 512 fraction bits; a source outside the special cases delivers the module's own bits (log 5) where they lie
within the bound, else the rounded exact function, so that every permitted value, and none beyond the bound, can occur. -/

namespace Sys2Proof.Machine

/-! ## Fixed point -/

/-- One in fixed point. -/
def fxOne : Int := 2 ^ 512

/-- A finite value in fixed point; the exponent of a .f32 value is at least -149, so that it is exact. -/
def fxOf (neg : Bool) (m : Nat) (e : Int) : Int := alignTo neg m e (-512)

/-- The sum of `t / q^(2k+1) / (2k+1)` over `n` terms, alternating when `alt`. -/
def invSeries (alt : Bool) (q2 : Nat) : Nat → Nat → Int → Int
  | 0, _, _ => 0
  | n + 1, k, t => t / (2 * k + 1 : Int) + (if alt then -1 else 1) * invSeries alt q2 n (k + 1) (t / (q2 : Int))

/-- ln 2 = 2 atanh(1/3). -/
def fxLn2 : Int := 2 * invSeries false 9 180 0 (fxOne / 3)

/-- π with 1,024 fraction bits, by Machin's formula. -/
def pi1024 : Int := 16 * invSeries true 25 240 0 (2 ^ 1024 / 5) - 4 * invSeries true 57121 240 0 (2 ^ 1024 / 239)

/-- The sum of `r^k / k!` from a term onwards, over `n` terms. -/
def expSeries (r : Int) : Nat → Nat → Int → Int
  | 0, _, _ => 0
  | n + 1, k, t => t + expSeries r n (k + 1) (t * r / fxOne / (k + 1 : Int))

/-- e^y of a fixed-point argument: 2^k times the exponential of a remainder. -/
def fxExp (y : Int) : Int :=
  let k := y / fxLn2
  let v := expSeries (y - k * fxLn2) 110 0 fxOne
  if 0 ≤ k then v * 2 ^ k.toNat else v / 2 ^ (-k).toNat

/-- The sum of `t^(2k+1) / (2k+1)` from a power onwards. -/
def atanhSeries (t2 : Int) : Nat → Nat → Int → Int
  | 0, _, _ => 0
  | n + 1, k, p => p / (2 * k + 1 : Int) + atanhSeries t2 n (k + 1) (p * t2 / fxOne)

/-- The sum of `(-1)^k r^(2k+i) / (2k+i)!` from a term onwards, where `j = 2k + i`. -/
def trigSeries (r2 : Int) : Nat → Nat → Int → Int
  | 0, _, _ => 0
  | n + 1, j, t => t + trigSeries r2 n (j + 2) (-(t * r2 / fxOne) / ((j + 1 : Int) * (j + 2 : Int)))

/-! ## The exact functions -/

/-- 1/√x of a positive value. -/
def fxRsqrt (m : Nat) (e : Int) : Int := (isqrt (2 ^ (1024 - e).toNat / m) : Nat)

/-- 2^x of a value below 128 in magnitude or down to -150. -/
def fxPow2 (neg : Bool) (m : Nat) (e : Int) : Int := fxExp (fxOf neg m e * fxLn2 / fxOne)

/-- log2 x of a positive value. -/
def fxLog2 (m : Nat) (e : Int) : Int :=
  let lead := floorLog2 m e
  let f := alignTo false m (e - lead) (-512)
  let t := (f - fxOne) * fxOne / (f + fxOne)
  lead * fxOne + 2 * atanhSeries (t * t / fxOne) 180 0 t * fxOne / fxLn2

/-- The sine (`c = false`) or the cosine of a value. -/
def fxTrig (c neg : Bool) (m : Nat) (e : Int) : Int :=
  let y := alignTo false m e (-1024)
  let n := (2 * y + pi1024 / 2) / pi1024
  let r := (y - n * pi1024 / 2) / 2 ^ 512
  let r2 := r * r / fxOne
  let sn := trigSeries r2 60 1 r
  let cs := trigSeries r2 60 0 fxOne
  let q := (n + (if c then 1 else 0)) % 4
  let v := if q = 0 then sn else if q = 1 then cs else if q = 2 then -sn else -cs
  if neg && !c then -v else v

/-- tanh x of a value below 9.5 in magnitude. -/
def fxTanh (neg : Bool) (m : Nat) (e : Int) : Int :=
  let x := fxExp (2 * fxOf false m e)
  let v := (x - fxOne) * fxOne / (x + fxOne)
  if neg then -v else v

/-! ## Bounds -/

/-- A fixed-point value as an exact number. -/
def fxVal (x : Int) : FVal := .fin (decide (x < 0)) x.natAbs (-512)

/-- The error of a fixed-point function with this value is below this. No special function of a .f32 source comes this
close to the edge of its bound, but for one that is exact. -/
def fxSlack (x : Int) : Int := 2 ^ 56 + (x.natAbs / 2 ^ 440 : Nat)

/-- A code is finite and within an absolute bound of a fixed-point value that is known within `slack`. -/
def fxWithin (code : Nat) (x bound slack : Int) : Bool :=
  match FFmt.f32.decode code with
  | .fin n m e => decide (((fxOf n m e - x).natAbs : Int) + slack ≤ bound)
  | _ => false

/-- `u` ulps at the binade of a fixed-point value. -/
def fxUlps (x : Int) (u : Int) : Int :=
  let lead : Int := max ((bitLen x.natAbs : Int) - 513) (-126)
  u * 2 ^ (lead - 23 + 512).toNat

/-- The delivered code: the module's own bits within the bound, else the exact function rounded. -/
def deliverSpecial (fn : Nat) (src : Nat) (x bound slack : Int) : Nat :=
  let v := Config.special fn src % 2 ^ 32
  if fxWithin v x bound slack then v else (FFmt.f32.round .rn false (fxVal x)).1

/-- A magnitude below the smallest normal of .f32. -/
def fxTiny (x : Int) : Bool := decide (x.natAbs < 2 ^ 386)

end Sys2Proof.Machine
end

