-- ==== Sys2Proof/Machine/Float.lean ====
section
/-! DEFINITION. Floating-point arithmetic, special functions and packed pairs (05_float_registers.md R91 to R98). -/

namespace Sys2Proof.Machine

/-- A form of two float sources; `rnd` when MODR rounding is accepted. -/
def formF (h : Hdr) (d a b : BitVec 6) (rnd : Bool) : Form :=
  { h := h, acc := { rnd := rnd }, src := [a.toNat, b.toNat], dst := [d.toNat] }

def formF1 (h : Hdr) (d a : BitVec 6) (rnd : Bool) : Form :=
  { h := h, acc := { rnd := rnd }, src := [a.toNat], dst := [d.toNat] }

/-- The exact value of a .f32 code. -/
def f32v (w : Word) : FVal := FFmt.f32.decode w.toNat

/-- An exact result rounded to .f32. -/
def f32out (md : RMode) (x : XRes) : Word × OpFlags :=
  let r := FFmt.f32.finish md false x
  (BitVec.ofNat 32 r.1, r.2)

/-! ## R93 -/

def execFadd (h : Hdr) (d a b : BitVec 6) (s : State) : Host.Outcome State Fault Refusal :=
  issue (formF h d a b true) s
    (actD d.toNat (fun s l => f32out s.rmode (addExact s.rmode (f32v (s.g l a.toNat)) (f32v (s.g l b.toNat 1)))))

def execFsub (h : Hdr) (d a b : BitVec 6) (s : State) : Host.Outcome State Fault Refusal :=
  issue (formF h d a b true) s
    (actD d.toNat (fun s l => f32out s.rmode (addExact s.rmode (f32v (s.g l a.toNat)) (f32v (s.g l b.toNat 1)).negate)))

def execFmul (h : Hdr) (d a b : BitVec 6) (s : State) : Host.Outcome State Fault Refusal :=
  issue (formF h d a b true) s
    (actD d.toNat (fun s l => f32out s.rmode (mulExact (f32v (s.g l a.toNat)) (f32v (s.g l b.toNat 1)))))

def execFfma (h : Hdr) (d a b : BitVec 6) (s : State) : Host.Outcome State Fault Refusal :=
  issue { h := h, acc := { opndG := true, rnd := true },
          src := [a.toNat, b.toNat] ++ (if s.opnd.isSome then [] else [d.toNat]), dst := [d.toNat] } s
    (actD d.toNat (fun s l => f32out s.rmode
      (fmaExact s.rmode (f32v (s.g l a.toNat)) (f32v (s.g l b.toNat 1)) (f32v (s.gThird l d.toNat)))))

/-! ## R94, R95 -/

def execFmin (h : Hdr) (d a b : BitVec 6) (s : State) : Host.Outcome State Fault Refusal :=
  issue (formF h d a b true) s
    (actD d.toNat (fun s l => let r := FFmt.f32.minMax false (s.g l a.toNat).toNat (s.g l b.toNat 1).toNat; (BitVec.ofNat 32 r.1, r.2)))

def execFmax (h : Hdr) (d a b : BitVec 6) (s : State) : Host.Outcome State Fault Refusal :=
  issue (formF h d a b true) s
    (actD d.toNat (fun s l => let r := FFmt.f32.minMax true (s.g l a.toNat).toNat (s.g l b.toNat 1).toNat; (BitVec.ofNat 32 r.1, r.2)))

/-- A sign operation: a NaN gives the canonical NaN, with NV if it signals. -/
def signOp (x : Word) (f : Word → Word) : Word × OpFlags :=
  if (f32v x).isNan then (BitVec.ofNat 32 FFmt.f32.nanCode, OpFlags.when (f32v x).isSnan .nv) else (f x, 0)

def execFmov (h : Hdr) (d a : BitVec 6) (s : State) : Host.Outcome State Fault Refusal :=
  issue (formF1 h d a false) s (actD d.toNat (fun s l => (s.g l a.toNat, 0)))

def execFmovAbs (h : Hdr) (d a : BitVec 6) (s : State) : Host.Outcome State Fault Refusal :=
  issue (formF1 h d a false) s (actD d.toNat (fun s l => signOp (s.g l a.toNat) (fun x => x &&& 0x7FFFFFFF)))

def execFmovNeg (h : Hdr) (d a : BitVec 6) (s : State) : Host.Outcome State Fault Refusal :=
  issue (formF1 h d a false) s (actD d.toNat (fun s l => signOp (s.g l a.toNat) (fun x => x ^^^ 0x80000000)))

def execFmovCpsgn (h : Hdr) (d a b : BitVec 6) (s : State) : Host.Outcome State Fault Refusal :=
  issue (formF h d a b false) s
    (actD d.toNat (fun s l => signOp (s.g l a.toNat) (fun x => (x &&& 0x7FFFFFFF) ||| (s.g l b.toNat 1 &&& 0x80000000))))

/-! ## R96 -/

def execFcmp (h : Hdr) (q : BitVec 4) (a b : BitVec 6) (c : BitVec 4) (s : State) : Host.Outcome State Fault Refusal :=
  issue { h := h, ok := legal (.fcmp h q a b c), src := [a.toNat, b.toNat], pdst := [q.toNat] } s
    (.pure (fun s ls => s.eachLane ls (fun s l =>
      let x := s.g l a.toNat
      let y := s.g l b.toNat 1
      s.addLane l (effP l q.toNat ((floatCond c.toNat x.toNat y.toNat).getD false))
        (OpFlags.when ((f32v x).isSnan || (f32v y).isSnan) .nv))))

/-! ## R97 -/

def f32inf (neg : Bool) : Word := BitVec.ofNat 32 (FFmt.f32.signBit neg + FFmt.f32.infCode)
def f32nan : Word := BitVec.ofNat 32 FFmt.f32.nanCode

/-- 1/x correctly rounded. -/
def frcp (md : RMode) (x : Word) : Word × OpFlags :=
  match f32v x with
  | .nan _ sg => (f32nan, OpFlags.when sg .nv)
  | .inf n => (BitVec.ofNat 32 (FFmt.f32.signBit n), 0)
  | .fin n m e =>
    if m = 0 then (f32inf n, .dz)
    else
      let q := recipMag m e
      f32out md ⟨.fin n q.1 q.2, false⟩

/-- √x correctly rounded. -/
def fsqrt (md : RMode) (x : Word) : Word × OpFlags :=
  match f32v x with
  | .nan _ sg => (f32nan, OpFlags.when sg .nv)
  | .inf n => if n then (f32nan, .nv) else (f32inf false, 0)
  | .fin n m e =>
    if m = 0 then (x, 0)
    else if n then (f32nan, .nv)
    else
      let q := sqrtMag m e
      f32out md ⟨.fin false q.1 q.2, false⟩

/-- The result of a special function within its bound (Table 5-2), with NX, and UF when it is tiny. -/
def approx (fn : Nat) (x : Word) (v bound : Int) : Word × OpFlags :=
  (BitVec.ofNat 32 (deliverSpecial fn x.toNat v bound (fxSlack v)), OpFlags.nx ||| OpFlags.when (fxTiny v) .udf)

/-- An exact value in .f32, with no flag. -/
def exactF (v : FVal) : Word × OpFlags := ((f32out .rn ⟨v, false⟩).1, 0)

/-- The exponent of an exact power of two. -/
def powTwo (m : Nat) (e : Int) : Option Int := if m = 2 ^ (bitLen m - 1) then some (e + (bitLen m : Int) - 1) else none

def frsq (x : Word) : Word × OpFlags :=
  match f32v x with
  | .nan _ sg => (f32nan, OpFlags.when sg .nv)
  | .inf n => if n then (f32nan, .nv) else (0, 0)
  | .fin n m e =>
    let v := fxRsqrt m e
    if m = 0 then (f32inf n, .dz)
    else if n then (f32nan, .nv)
    else match powTwo m e with
      | some k => if k % 2 = 0 then exactF (.fin false 1 (-(k / 2))) else approx 0 x v (fxUlps v 1)
      | none => approx 0 x v (fxUlps v 1)

/-- The integer that a finite value equals, if any. -/
def integralOf (n : Bool) (m : Nat) (e : Int) : Option Int :=
  let r := roundToInt .rz n m e
  if r.2 then none else some r.1

def fex2 (x : Word) : Word × OpFlags :=
  match f32v x with
  | .nan _ sg => (f32nan, OpFlags.when sg .nv)
  | .inf n => if n then (0, 0) else (f32inf false, 0)
  | .fin n m e =>
    if cmpVal (.fin n m e) (.fin false 128 0) != .lt then (f32inf false, OpFlags.ovf ||| OpFlags.nx)
    else if cmpVal (.fin n m e) (.fin true 149 0) == .lt then (0, OpFlags.udf ||| OpFlags.nx)
    else
      let v := fxPow2 n m e
      match integralOf n m e with
      | some k =>
        if -126 ≤ k then exactF (.fin false 1 k)
        else
          let c := deliverSpecial 1 x.toNat (2 ^ (k + 512).toNat) (fxUlps v 2) 0
          if c = (FFmt.f32.round .rn false (.fin false 1 k)).1 then (BitVec.ofNat 32 c, 0)
          else (BitVec.ofNat 32 c, OpFlags.nx ||| OpFlags.udf)
      | none => approx 1 x v (fxUlps v 2)

def flg2 (x : Word) : Word × OpFlags :=
  match f32v x with
  | .nan _ sg => (f32nan, OpFlags.when sg .nv)
  | .inf n => if n then (f32nan, .nv) else (f32inf false, 0)
  | .fin n m e =>
    if m = 0 then (f32inf true, 0)
    else if n then (f32nan, .nv)
    else match powTwo m e with
      | some k => exactF (.ofInt k)
      | none =>
        let v := fxLog2 m e
        let near := cmpVal (.fin n m e) (.fin false 1 (-1)) != .lt && cmpVal (.fin n m e) (.fin false 2 0) != .gt
        approx 2 x v (if near then 2 ^ 490 else fxUlps v 2)

def fsin (x : Word) : Word × OpFlags :=
  match f32v x with
  | .nan _ sg => (f32nan, OpFlags.when sg .nv)
  | .inf _ => (f32nan, .nv)
  | .fin n m e => if m = 0 then (x, 0) else approx 3 x (fxTrig false n m e) (2 ^ 491)

def fcos (x : Word) : Word × OpFlags :=
  match f32v x with
  | .nan _ sg => (f32nan, OpFlags.when sg .nv)
  | .inf _ => (f32nan, .nv)
  | .fin n m e => if m = 0 then (0x3F800000, 0) else approx 4 x (fxTrig true n m e) (2 ^ 491)

/-- |x| ≥ 9.5 gives ±1.0 as a special case, which sets no flag (R97). -/
def ftanh (x : Word) : Word × OpFlags :=
  match f32v x with
  | .nan _ sg => (f32nan, OpFlags.when sg .nv)
  | .inf n => (BitVec.ofNat 32 (FFmt.f32.signBit n + 0x3F800000), 0)
  | .fin n m e =>
    if m = 0 then (x, 0)
    else if cmpVal (.fin false m e) (.fin false 19 (-1)) != .lt then (BitVec.ofNat 32 (FFmt.f32.signBit n + 0x3F800000), 0)
    else
      let v := fxTanh n m e
      approx 5 x v (fxUlps v 2)

def execFrcp (h : Hdr) (d a : BitVec 6) (s : State) : Host.Outcome State Fault Refusal :=
  issue (formF1 h d a true) s (actD d.toNat (fun s l => frcp s.rmode (s.g l a.toNat)))

def execFrsq (h : Hdr) (d a : BitVec 6) (s : State) : Host.Outcome State Fault Refusal :=
  issue (formF1 h d a true) s (actD d.toNat (fun s l => frsq (s.g l a.toNat)))

def execFsqrt (h : Hdr) (d a : BitVec 6) (s : State) : Host.Outcome State Fault Refusal :=
  issue (formF1 h d a true) s (actD d.toNat (fun s l => fsqrt s.rmode (s.g l a.toNat)))

def execFex2 (h : Hdr) (d a : BitVec 6) (s : State) : Host.Outcome State Fault Refusal :=
  issue (formF1 h d a true) s (actD d.toNat (fun s l => fex2 (s.g l a.toNat)))

def execFlg2 (h : Hdr) (d a : BitVec 6) (s : State) : Host.Outcome State Fault Refusal :=
  issue (formF1 h d a true) s (actD d.toNat (fun s l => flg2 (s.g l a.toNat)))

def execFsin (h : Hdr) (d a : BitVec 6) (s : State) : Host.Outcome State Fault Refusal :=
  issue (formF1 h d a true) s (actD d.toNat (fun s l => fsin (s.g l a.toNat)))

def execFcos (h : Hdr) (d a : BitVec 6) (s : State) : Host.Outcome State Fault Refusal :=
  issue (formF1 h d a true) s (actD d.toNat (fun s l => fcos (s.g l a.toNat)))

def execFtanh (h : Hdr) (d a : BitVec 6) (s : State) : Host.Outcome State Fault Refusal :=
  issue (formF1 h d a true) s (actD d.toNat (fun s l => ftanh (s.g l a.toNat)))

/-! ## R98 -/

/-- One element of a packed result: .sat replaces an infinity that an overflow made. -/
def pkElem (f : FFmt) (md : RMode) (sat : Bool) (x : XRes) : Nat × OpFlags := f.finish md sat x

/-- A packed result of two elements. -/
def pkWord (f : FFmt) (md : RMode) (sat : Bool) (op : Nat → XRes) : Word × OpFlags :=
  let lo := pkElem f md sat (op 0)
  let hi := pkElem f md sat (op 1)
  (BitVec.ofNat 32 (lo.1 + hi.1 * 2 ^ 16), lo.2 ||| hi.2)

/-- Element `i` of a packed register. -/
def pkGet (f : FFmt) (w : Word) (i : Nat) : FVal := f.decode (bits w.toNat (16 * i) 16)

def formPk (h : Hdr) (d a b : BitVec 6) : Form :=
  { h := h, acc := { rnd := true, sat := true }, src := [a.toNat, b.toNat], dst := [d.toNat] }

def actPkAdd (f : FFmt) (d a b : BitVec 6) : Act :=
  actD d.toNat (fun s l => pkWord f s.rmode s.sat (fun i =>
    addExact s.rmode (pkGet f (s.g l a.toNat) i) (pkGet f (s.g l b.toNat 1) i)))

def actPkMul (f : FFmt) (d a b : BitVec 6) : Act :=
  actD d.toNat (fun s l => pkWord f s.rmode s.sat (fun i =>
    mulExact (pkGet f (s.g l a.toNat) i) (pkGet f (s.g l b.toNat 1) i)))

def actPkFma (f : FFmt) (d a b : BitVec 6) : Act :=
  actD d.toNat (fun s l => pkWord f s.rmode s.sat (fun i =>
    fmaExact s.rmode (pkGet f (s.g l a.toNat) i) (pkGet f (s.g l b.toNat 1) i) (pkGet f (s.gThird l d.toNat) i)))

def formPkFma (h : Hdr) (d a b : BitVec 6) (s : State) : Form :=
  { formPk h d a b with
    acc := { opndG := true, rnd := true, sat := true }
    src := [a.toNat, b.toNat] ++ (if s.opnd.isSome then [] else [d.toNat]) }

def execPkaddF16 (h : Hdr) (d a b : BitVec 6) (s : State) : Host.Outcome State Fault Refusal :=
  issue (formPk h d a b) s (actPkAdd .f16 d a b)

def execPkmulF16 (h : Hdr) (d a b : BitVec 6) (s : State) : Host.Outcome State Fault Refusal :=
  issue (formPk h d a b) s (actPkMul .f16 d a b)

def execPkaddBf16 (h : Hdr) (d a b : BitVec 6) (s : State) : Host.Outcome State Fault Refusal :=
  issue (formPk h d a b) s (actPkAdd .bf16 d a b)

def execPkmulBf16 (h : Hdr) (d a b : BitVec 6) (s : State) : Host.Outcome State Fault Refusal :=
  issue (formPk h d a b) s (actPkMul .bf16 d a b)

def execPkfmaF16 (h : Hdr) (d a b : BitVec 6) (s : State) : Host.Outcome State Fault Refusal :=
  issue (formPkFma h d a b s) s (actPkFma .f16 d a b)

def execPkfmaBf16 (h : Hdr) (d a b : BitVec 6) (s : State) : Host.Outcome State Fault Refusal :=
  issue (formPkFma h d a b s) s (actPkFma .bf16 d a b)

end Sys2Proof.Machine
end

