-- ==== Sys2Proof/Machine/Matrix.lean ====
section
/-! DEFINITION. Accumulator entries, the matrix loop and the accumulator instructions (11_banks_matrix.md R226 to R228,
R237 to R243; 02_number_formats.md R44 to R46). -/

namespace Sys2Proof.Machine

/-! ## Accumulator entries (R226, R227) -/

/-- The entries of a region by rows: first entry and count. -/
def regionRuns (c : BitVec 512) : List (Nat × Nat) :=
  (upFrom (shExt c 1) 0).map (fun m => (bits (shBase c) 0 16 + m * shStr c 1, shExt c 0))

/-- The first entry of a run that does not exist, or that a group does not hold on a core (R226). -/
def runEntryFault (s : State) (core gid : Nat) (r : Nat × Nat) : Option Flt :=
  if r.1 + r.2 > 65536 then some ⟨fcAddrInvalid, max r.1 65536, false⟩
  else (upFrom ((r.1 + r.2 - 1) / 1024 - r.1 / 1024 + 1) (r.1 / 1024)).findSome? (fun b =>
    if ((s.core core).st.bank b).owner = some gid then none else some ⟨fcBankOwner, max r.1 (b * 1024), false⟩)

/-- Entries of rows: out of range first, then not held. -/
def regionFault (s : State) (cores : List Nat) (rs : List (Nat × Nat)) : Option Flt :=
  match rs.find? (fun r => decide (r.1 + r.2 > 65536)) with
  | some r => some ⟨fcAddrInvalid, max r.1 65536, false⟩
  | none => cores.findSome? (fun c => rs.findSome? (runEntryFault s c s.curWarp.group))

/-- An accumulator descriptor (R227). -/
def descriptorOk (c : BitVec 512) : Bool :=
  shapeOk c && (shFmt c == 0x08 || shFmt c == 0x02) && shRank c == 2 && shPlace c == 0 && decide (shBase c < 65536) &&
  decide (shExt c 0 ≤ shStr c 1)

/-! ## MLOOP: issue (R237) -/

/-- The count: IMMX sign-extended, or an s register unsigned. -/
def mloopCount (s : State) : Option Int :=
  match s.imm with
  | some v => some v
  | none => s.opnd.map (fun r => ((s.sr r).toNat : Int))

/-- The span of the loop: the group's under .span, else one core. -/
def mloopCores (s : State) (spanned : Bool) : List Nat := if spanned then s.curSpan else [s.cur.core]

/-- The banks of a bank set. -/
def setBanks (sh : BitVec 512) : List Nat := upFrom (shKb sh * shNb sh) (shFirst sh)

def fmtInt8 (c : Nat) : Bool := c == 0x00 || c == 0x04

def aTileOk (s : State) (a c : BitVec 512) (n : Int) (span : Nat) : Bool :=
  shapeOk a && shPlace a == 2 && (setBanks a).all (fun b => bankJudge s (engWho s) s.cur.core b true false == none) &&
  shRank a == 2 && decide (span * shExt c 1 ≤ shExt a 1) && decide ((n - 1) * shStep a + 32 ≤ shExt a 0) &&
  decide (0 < shStep a) && shStep a % 32 == 0 && decide (shWidth a ≤ 16) &&
  (shSblk a != 1 || decide (shScale a < shKb a * shNb a * 131072))

def panelOk (w c : BitVec 512) (n : Int) : Bool :=
  shapeOk w && shPlace w == 3 && shRank w == 2 && decide ((n - 1) * shStep w + 32 ≤ shExt w 0) &&
  decide (shExt w 0 ≤ shKb w * kbOf (shPlanes w)) && decide (0 < shStep w) && shStep w % 32 == 0 && decide (shExt c 0 ≤ shExt w 1)

def regionOk (w c : BitVec 512) : Bool :=
  descriptorOk c && decide (1 ≤ shExt c 1) && decide (shExt c 1 ≤ 64) && decide (shExt c 0 ≤ shNb w * 1024) &&
  decide (shExt c 1 * shExt c 0 ≤ 65536)

/-- Integer mode takes .i8 and .n8 on both sides, and float mode neither (02 R45). -/
def modesOk (a w c : BitVec 512) : Bool :=
  if shFmt c = 0x02 then fmtInt8 (shFmt a) && fmtInt8 (shFmt w) else !fmtInt8 (shFmt a) && !fmtInt8 (shFmt w)

def panelBanksFault (s : State) (w : BitVec 512) (cores : List Nat) : Option Flt :=
  cores.findSome? (fun c => (setBanks w).findSome? (fun b =>
    (bankJudge s (engWho s) c b true true).map (fun k => ⟨k, localBase + b * 131072, false⟩)))

def mloopFault (s : State) (x y z : Nat) (spanned : Bool) : Option Flt :=
  let a := s.shape x
  let w := s.shape y
  let c := s.shape z
  let cores := mloopCores s spanned
  match mloopCount s with
  | none => some ⟨fcIllegalOp, 0, false⟩
  | some n => firstOf
      [engineUnless (decide (1 ≤ n)) (wrapInt n 64), engineUnless (shapeOk a) x, engineUnless (shapeOk w) y, engineUnless (regionOk w c) z,
       engineUnless (aTileOk s a c n cores.length) x, engineUnless (panelOk w c n) y, engineUnless (modesOk a w c) z,
       fun _ => panelBanksFault s w cores, fun _ => regionFault s cores (regionRuns c)]

/-- A pending completion of the instruction in progress: of the batch, or of its stream. -/
def addPending (s : State) (r : PRes) (op : Nat) : State :=
  if s.cur.stream then s.modCurStream (fun t => { t with pend := t.pend ++ [op] })
  else { s with fresh := s.fresh + 1 }.modCurWarp (fun w => { w with pend := w.pend ++ [{ r with id := s.fresh }] })

/-- The holds of a loop: A and panel banks shared, the region exclusive (R228). -/
def mloopHolds (core : Nat) (cores : List Nat) (a w c : BitVec 512) : List (Nat × Hold) :=
  cores.map (fun k => (k, { id := 0, banks := (if k = core then setBanks a else []) ++ setBanks w, entries := regionRuns c, excl := false,
                            exclEntries := true, op := none }))

def execMloop (h : Hdr) (x y z : BitVec 4) (ec : BitVec 4) (f : BitVec 4) (s : State) : Host.Outcome State Fault Refusal :=
  let n := ((mloopCount s).getD 0).toNat
  let spanned := bitOf f.toNat 2
  issue { formEng h ec (legal (.mloop h x y z ec f)) n (match s.imm with | some _ => [] | none => s.opnd.toList) [x.toNat, y.toNat, z.toNat] with
          acc := { ecls := false, imm1 := true, imm2 := true, opndS := true } } s
    { check := leaderCheck (fun s _ => mloopFault s x.toNat y.toNat z.toNat spanned)
      run := fun s ls =>
        let a := s.shape x.toNat
        let w := s.shape y.toNat
        let c := s.shape z.toNat
        let cores := mloopCores s spanned
        let op := s.fresh + 1
        let s1 := addPending { s with fresh := if s.cur.stream then s.fresh + 1 else s.fresh }
          { id := 0, lanes := lanesMask ls, effs := [], op := some op } op
        (startEngine s1 { s1.bankEngine (.mloop n (bitOf f.toNat 0) (bitOf f.toNat 1) spanned (bitOf f.toNat 3)) (ls.headD 0) with
            shapes := [a, w, c], span := cores.length, total := n, pathSeg := cores.map (fun _ => 0) } []
          (mloopHolds s.cur.core cores a w c), []) }

/-! ## The loop (R238 to R240; 02 R44, R45) -/

/-- The exact sum of a block's products; a zero sum is +0. -/
def blockSum (xs vs : List FVal) : FVal :=
  match (xs.zip vs).foldl (fun a p => (addExact .rn a (mulExact p.1 p.2).v).v) FVal.zero with
  | .fin _ 0 _ => FVal.zero
  | v => v

/-- The exact integer sum of a block. -/
def blockInt (xs vs : List Int) : Int := (xs.zip vs).foldl (fun a p => a + p.1 * p.2) 0

/-- An infinite f32 code becomes the greatest finite one of its sign, with whether it did. -/
def satF32 (c : Nat) : Nat × Bool :=
  if c % 2 ^ 31 = 0x7F800000 then (c / 2 ^ 31 * 2 ^ 31 + 0x7F7FFFFF, true) else (c, false)

/-- FloatAccumulate under .f32 or .f32s, with the saturation bit (02_number_formats.md R45). An infinite t is replaced, and sets the bit, also
where C is a NaN (DESIGN CHOICE, log 111). -/
def floatAcc (sat : Bool) (c t : Nat) : Nat × Bool :=
  if sat then
    let t' := satF32 t
    let r := satF32 (f32Add .rn c t'.1).1
    (r.1, t'.2 || r.2)
  else ((f32Add .rn c t).1, false)

/-- IntAccumulate under .i32 or .i32s. -/
def intAcc (sat : Bool) (c : Word) (x : Int) : Word × Bool :=
  let v := sint c + x
  if sat then (wordOfInt (saturate v (-(2 ^ 31)) (2 ^ 31 - 1)), v < -(2 ^ 31) || v > 2 ^ 31 - 1) else (wordOfInt v, false)

/-- The byte of the A tile's scale of an element: SCALE is an offset in the tile's bank set (R237; 07_shape_system.md R134). -/
def aScaleByte (core : Nat) (a : BitVec 512) (n : Nat) : EByte := .bank core (shFirst a * 131072 + shScale a + n / 32)

/-- The exponent of an E8M0 scale; `none` for 0xFF. -/
def scaleExp (on : Bool) (v : Nat) : Option Int := if !on then some 0 else if v = 0xFF then none else some ((v : Int) - 127)

def aScale (s : State) (e : Engine) (k m : Nat) : Option Int :=
  scaleExp (shSblk (e.sh 0) == 1) (e.byte s (aScaleByte e.core (e.sh 0) (shElem (e.sh 0) [k, m]))).toNat

/-- The bytes of the A tile that a step reads on the `t`-th core. -/
def aSources (e : Engine) (t step : Nat) : List EByte :=
  let a := e.sh 0
  let ka := step * (shStep a).toNat
  (upFrom (shExt (e.sh 2) 1) (t * shExt (e.sh 2) 1)).flatMap (fun m =>
    (upFrom 32 0).flatMap (fun j => (elemBytes e.core a (shElem a [ka + j, m])).1) ++
    (if shSblk a = 1 then [aScaleByte e.core a (shElem a [ka, m])] else []))

/-- The code of a weight of a core's panel, and the scale of its block. -/
def wCode (k : CoreSt) (w : BitVec 512) (kk n : Nat) : Nat :=
  let sp := panelSpot w kk n
  bankCode k.scratch sp.1 sp.2.2 sp.2.1 (shPlanes w)

def wScale (k : CoreSt) (w : BitVec 512) (kk n : Nat) : Option Int :=
  let sp := panelSpot w kk n
  scaleExp (shSblk w == 1) (mget (k.bank sp.1).scale (sp.2.1 * 8 + kk % kbOf (shPlanes w) / 32) 0).toNat

/-- The integer that a code of .i8 or .n8 holds. -/
def int8Of (fmt code : Nat) : Int := if fmt = 0 then sext code 8 else ((code % 256 : Nat) : Int)

/-- Block(ACC, x, v, scales) for one entry, with the saturation bit. -/
def mloopBlock (s : State) (e : Engine) (core row arow col step : Nat) (clr sat flex : Bool) : Word × Bool :=
  let a := e.sh 0
  let w := e.sh 1
  let c := e.sh 2
  let k := (s.core core).st
  let ka := step * (shStep a).toNat
  let kw := step * (shStep w).toNat
  let old : Word := if clr && step == 0 then 0 else mget k.acc (accEntry c [col, row]) 0
  let xs := (upFrom 32 0).map (fun j => e.code s a (shElem a [ka + j, arow]))
  let vs := (upFrom 32 0).map (fun j => let v := wCode k w (kw + j) col; if flex then v / 4 * 4 else v)
  if shFmt c = 0x02 then intAcc sat old (blockInt (xs.map (int8Of (shFmt a))) (vs.map (int8Of (shFmt w))))
  else
    let sum := match aScale s e ka arow, wScale k w kw col with
      | some p, some q => (blockSum (xs.map (shKind a).value) (vs.map (shKind w).value)).scale (p + q)
      | _, _ => .nan false false
    let r := floatAcc sat old.toNat (FFmt.f32.round .rn false sum).1
    (BitVec.ofNat 32 r.1, r.2)

/-- FlexStep: .flex on .i8, .n8 or .mxint8 weights while EBUDGET is not positive (R239). -/
def flexStep (s : State) (e : Engine) (flex : Bool) : Bool :=
  flex && (fmtInt8 (shFmt (e.sh 1)) || shFmt (e.sh 1) == 0x13) &&
  (match (s.core e.core).st.ctx? e.launch with | some c => decide (sint c.ebudget ≤ 0) | none => false)

/-- ACCSAT bits of the issuing context are set: FLEX 1, SAT 0. -/
def setAccsat (s : State) (e : Engine) (sat flex : Bool) : State :=
  if sat || flex then s.modCtx e.core e.launch (fun c => { c with accsat := c.accsat ||| BitVec.ofNat 2 (b2n flex * 2 + b2n sat) }) else s

/-- The region's entries on a core before the loop, kept for commits and for a roll-back (R244). -/
def keepBefore (s : State) (op core : Nat) (c : BitVec 512) : State :=
  let acc := (s.core core).st.acc
  s.modEngine op (fun e => { e with before := (regionRuns c).foldl (fun (m : PMap Word) (r : Nat × Nat) =>
    (upFrom r.2 r.1).foldl (fun (m : PMap Word) i => mset m (core * 65536 + i) (mget acc i 0)) m) e.before })

/-- The banks stacked in K of a panel hold its K blocks in order: the one that holds a step's block (R224, R241). -/
def stepBank (w : BitVec 512) (step : Nat) : Nat := step * (shStep w).toNat / kbOf (shPlanes w)

/-- The key under which a loop keeps whether a step flexes on a core. -/
def flexKey (span t step : Nat) : Nat := step * span + t

/-- A step starts on the `t`-th core: its block begins in the panel banks that hold it, and FlexStep is decided (R239). Those banks
work their blocks in order; banks stacked in K start theirs together (R241). -/
def mloopBegin (s : State) (e : Engine) (t step : Nat) (flex : Bool) : State :=
  let core := (spanSet e.core e.span).getD t e.core
  let fx := flexStep s e flex
  let s := if step = 0 then keepBefore s e.id core (e.sh 2) else s
  setAccsat (s.modEngine e.id (fun x => { x with read := mset x.read (flexKey e.span t step) (if fx then 1 else 0) })) e false fx

/-- The steps of a loop that the `q`-th bank in K has not started on the `t`-th core, the next one first. -/
def stepsLeft (e : Engine) (t n q : Nat) : List Nat :=
  (upFrom n 0).filter (fun k => stepBank (e.sh 1) k == q && (mfind e.read (flexKey e.span t k)).isNone)

/-- The `q`-th bank in K starts its next step on the `t`-th core. -/
def mloopStart (s : State) (op t q : Nat) : State :=
  match mfind s.engines op with
  | none => s
  | some e => match e.kind with
    | .mloop n _ _ _ flex => match stepsLeft e t n q with
      | k :: _ => mloopBegin s e t k flex
      | [] => s
    | _ => s

/-- The block sums of a step join the entries of the `t`-th core, once the step has started and those before it have been added;
the A tile's sectors are read once (09_consistency.md R188). -/
def mloopStepAt (s : State) (e : Engine) (t step : Nat) (clr sat : Bool) : State :=
  match capture s e (aSources e t step) with
  | .error _ => s
  | .ok e =>
    let core := (spanSet e.core e.span).getD t e.core
    let c := e.sh 2
    let fx := mget e.read (flexKey e.span t step) 0 == 1
    let es := (upFrom (shExt c 1) 0).flatMap (fun m => (upFrom (shExt c 0) 0).map (fun col => (m, col)))
    let vals := es.map (fun x => (accEntry c [x.2, x.1], mloopBlock s e core x.1 (t * shExt c 1 + x.1) x.2 step clr sat fx))
    let s := (keepSeen s e).modSt core (fun k => { k with acc := vals.foldl (fun (m : PMap Word) v => mset m v.1 v.2.1) k.acc })
    (setAccsat s e (vals.any (fun v => v.2.2)) false).modEngine e.id (fun x => { x with pathSeg := x.pathSeg.set t (step + 1) })

/-- The next step to be added on the `t`-th core, if one is left; it starts now if it has not. -/
def mloopStep (s : State) (op t : Nat) : State :=
  match mfind s.engines op with
  | none => s
  | some e => match e.kind with
    | .mloop n clr sat _ flex =>
      let step := e.pathSeg.getD t n
      if step ≥ n then s
      else
        let s := if (mfind e.read (flexKey e.span t step)).isSome then s else mloopBegin s e t step flex
        mloopStepAt s ((mfind s.engines op).getD e) t step clr sat
    | _ => s

/-- The steps left, core by core. -/
def mloopRest (s : State) (op n : Nat) : State :=
  match mfind s.engines op with
  | none => s
  | some e => (upFrom e.span 0).foldl (fun s t => (upFrom (n - e.pathSeg.getD t n) 0).foldl (fun s _ => mloopStep s op t) s) s

/-- A completion is no longer pending in a warp or its stream. -/
def Warp.donePending (w : Warp) (op : Nat) : Warp :=
  { w with
    pend := w.pend.filter (fun r => r.op != some op)
    stream := w.stream.map (fun t =>
      let p := t.pend.filter (· != op)
      { t with pend := p, park := if t.park = .results ∧ p.isEmpty then .none else t.park }) }

def donePending (s : State) (e : Engine) : State := s.modWarp e.core e.slot (·.donePending e.id)

/-- What a core's journal takes when a loop completes: the state of its last commit with the loop's entries written and, on the
issuing core, its completion signalled (R244). -/
def Core.loopEpoch (k : Core) (core : Nat) (e : Engine) : Epoch :=
  let p := k.lastEpoch
  let acc := e.before.foldl (fun (m : PMap Word) (x : Nat × Word) =>
    if x.1 / 65536 = core then mset m (x.1 % 65536) (mget k.st.acc (x.1 % 65536) 0) else m) p.snap.acc
  { p with
    snap := { p.snap with
      acc := acc, rows := []
      warps := if core = e.core then p.snap.warps.map (fun (x : Nat × Warp) => (x.1, if x.1 = e.slot then x.2.donePending e.id else x.2)) else p.snap.warps }
    seq := k.epochNext, results := [], prior := p.snap, buf := k.journalBuf }

/-- The writes of a loop that is complete are journalled on every core of its span (R244). -/
def journalLoop (s : State) (e : Engine) : State :=
  (spanSet e.core e.span).foldl (fun s c => s.modCore c (fun k => k.journalled (k.loopEpoch c e))) s

/-- An operation that steps of the schedule may advance: a loop whose holds are granted. -/
def loopReady (s : State) (op : Nat) : Bool :=
  match mfind s.engines op with
  | some e => (match e.kind with | .mloop _ _ _ _ _ => engMay s e | _ => false)
  | none => false

/-- MLOOP_COMPLETION: the last entry is written on every core and journalled, the holds end (R238, R244). -/
def execMloopCompletion (op : Nat) (s : State) : Host.Outcome State Fault Refusal :=
  .next (if loopReady s op then
    (match mfind s.engines op with
      | some e => (match e.kind with
        | .mloop n _ _ _ _ =>
          let t := mloopRest s op n
          donePending (endEngine (journalLoop t ((mfind t.engines op).getD e)) e) e
        | _ => s)
      | none => s)
    else s)

/-! ## ACCRD, ACCLD, ACCCLR (R242) -/

/-- The entries of an ACCRD are read: its pending result takes its values. -/
def readAccRes (acc : PMap Word) (hold : Nat) (r : PRes) : PRes :=
  if r.hold = some hold ∧ !r.acc.isEmpty then
    { r with effs := r.effs ++ r.acc.map (fun a => .g a.1 a.2.1 (mget acc a.2.2 0)), acc := [], hold := none }
  else r

/-- The entries that ACCLD or ACCCLR writes. -/
def accWrite (s : State) (e : Engine) : State :=
  match e.kind with
  | .accld off first n =>
    s.modSt e.core (fun k => { k with acc := (upFrom n 0).foldl (fun (m : PMap Word) i =>
      mset m (first + i) (BitVec.ofNat 32 (ofBytesLE (memReads k.scratch (off + 4 * i) 4)))) k.acc })
  | .accclr first n =>
    s.modSt e.core (fun k => { k with acc := (upFrom n 0).foldl (fun (m : PMap Word) i => mset m (first + i) 0) k.acc })
  | _ => s

/-- What follows a grant: an ACCRD reads, an ACCLD or ACCCLR writes, and their holds end; others work on. -/
def afterGrant (s : State) (core : Nat) (h : Hold) : State :=
  match h.op with
  | none =>
    s.modCore core (fun k => { k with
      st := { k.st with warps := k.st.warps.map (fun x => (x.1, { x.2 with pend := x.2.pend.map (readAccRes k.st.acc h.id) })) }
      holds := k.holds.filter (fun x => x.id != h.id) })
  | some op => match mfind s.engines op with
    | none => s
    | some e => match e.kind with
      | .accld _ _ _ | .accclr _ _ =>
        (endEngine (accWrite s e) e).modWarp e.core e.slot (fun w => { w with
          pend := w.pend.map (fun r => if r.hold = some h.id then { r with hold := none } else r) })
      | _ => s

/-- A request that waits for nothing is granted at once. -/
def grantNew (s : State) (core hold : Nat) : State :=
  match (s.core core).holds.find? (fun h => h.id == hold && h.granted) with
  | some h => afterGrant s core h
  | none => s

/-- HOLD_GRANT: the first request that no earlier one excludes is granted (R228), unless the banks stand still (18 R360). -/
def execHoldGrant (core hold : Nat) (s : State) : Host.Outcome State Fault Refusal :=
  .next (let hs := (s.core core).holds
    let before := hs.takeWhile (fun h => h.id != hold)
    match hs.find? (fun h => h.id == hold) with
    | none => s
    | some h =>
      if h.granted || banksStop s core || !holdFree before h || !holdTurn s h then s
      else afterGrant (s.modCore core (fun k => { k with holds := k.holds.map (fun x => if x.id = hold then { x with granted := true } else x) }))
        core { h with granted := true })

def execAccrd (h : Hdr) (d a : BitVec 6) (s : State) : Host.Outcome State Fault Refusal :=
  issue { h := h, ok := legal (.accrd h d a), src := [a.toNat], dst := [d.toNat], guestOk := false } s
    { check := eachCheck (fun s l => runEntryFault s s.cur.core s.curWarp.group ((s.g l a.toNat).toNat, 1))
      run := fun s ls =>
        if d = 0 then (s, [])
        else
          let hid := s.fresh
          let es := ls.map (fun l => (l, (s.curLane l).wbase + d.toNat, (s.g l a.toNat).toNat))
          let r : PRes := { id := hid + 1, lanes := lanesMask ls, effs := [], acc := es, hold := some hid }
          let s1 := { s with fresh := hid + 2 }.modCurWarp (fun w => { w with pend := w.pend ++ [r] })
          let s1 := addHold s1 s.cur.core { id := hid, banks := [], entries := es.map (fun x => (x.2.2, 1)), excl := false, exclEntries := false, op := none }
          (grantNew s1 s.cur.core hid, []) }

/-- First entry and count of a range word (R242). -/
def rangeFirst (w : Word) : Nat := bits w.toNat 0 16
def rangeCount (w : Word) : Nat := if bits w.toNat 16 16 = 0 then 65536 else bits w.toNat 16 16

def rangeFault (s : State) (w : Word) : Option Flt := runEntryFault s s.cur.core s.curWarp.group (rangeFirst w, rangeCount w)

/-- An operation on a range of entries, whose completion is a result of the batch. -/
def startRange (s : State) (ls : List Nat) (kind : EngKind) (first n : Nat) : State :=
  let id := s.fresh + 1
  let r : PRes := { id := s.fresh, lanes := lanesMask ls, effs := [], hold := some (id + 1) }
  let s1 := { s with fresh := s.fresh + 1 }.modCurWarp (fun w => { w with pend := w.pend ++ [r] })
  let s1 := addEngine s1 (s1.bankEngine kind (ls.headD 0))
    [(s.cur.core, { id := 0, banks := [], entries := [(first, n)], excl := false, exclEntries := true, op := none })]
  grantNew s1 s.cur.core (id + 1)

def accldFault (s : State) (off : Nat) (w : Word) : Option Flt :=
  firstOf [fun _ => rangeFault s w,
    fun _ => if off % 4 ≠ 0 then some ⟨fcMisalign, localBase + off, false⟩ else none,
    fun _ => banksFault s (engWho s) s.cur.core off (off + 4 * rangeCount w - 1) localBase true false]

def execAccld (h : Hdr) (a b : BitVec 6) (s : State) : Host.Outcome State Fault Refusal :=
  issue { h := h, ok := legal (.accld h a b), src := [a.toNat, b.toNat], uniform := true, guestOk := false } s
    { check := leaderCheck (fun s l => accldFault s (s.g l a.toNat).toNat (s.g l b.toNat 1))
      run := fun s ls =>
        let off := (s.g (ls.headD 0) a.toNat).toNat
        let w := s.g (ls.headD 0) b.toNat 1
        (startRange s ls (.accld off (rangeFirst w) (rangeCount w)) (rangeFirst w) (rangeCount w), []) }

def execAccclr (h : Hdr) (a : BitVec 6) (s : State) : Host.Outcome State Fault Refusal :=
  issue { h := h, ok := legal (.accclr h a), src := [a.toNat], uniform := true, guestOk := false } s
    { check := leaderCheck (fun s l => rangeFault s (s.g l a.toNat))
      run := fun s ls =>
        let w := s.g (ls.headD 0) a.toNat
        (startRange s ls (.accclr (rangeFirst w) (rangeCount w)) (rangeFirst w) (rangeCount w), []) }

/-! ## ACCST (R243) -/

def accstFault (s : State) (x y : Nat) (bw : Bool) : Option Flt :=
  let d := s.shape x
  let c := s.shape y
  firstOf [destOk s x, engineUnless (descriptorOk c) y,
    engineUnless (shRank d == 2 && (shPlace d == 1 || shPlace d == 2) && shExt d 0 == shExt c 0 && shExt d 1 == shExt c 1 && !fmtMx (shFmt d)) x,
    fun _ => regionFault s [s.cur.core] (regionRuns c), fun _ => targetFault s bw, fun _ => tensorFault s (engWho s) d true, noPeerMerge s x]

def execAccst (h : Hdr) (x y : BitVec 4) (ec : BitVec 4) (f : BitVec 2) (s : State) : Host.Outcome State Fault Refusal :=
  let d := s.shape x.toNat
  let c := s.shape y.toNat
  let n := tensorCount d false
  let bw := bitOf f.toNat 0
  let clr := bitOf f.toNat 1
  issue { formEng h ec (legal (.accst h x y ec f)) (ceilDiv n 4096) [30, 31] [x.toNat, y.toNat] with streamOk := false } s
    (engAct (fun s => accstFault s x.toNat y.toNat bw) (fun s =>
      startEngine s ((s.copyEngine (.accst clr) [d, c] bw (shUnits d false) n []).owning s.cur.core d) []
        ((destHolds s s.cur.core d).map (fun k => (k.1, { k.2 with entries := regionRuns c, exclEntries := clr })))))

end Sys2Proof.Machine
end

