-- ==== Sys2Proof/Machine/Stack.lean ====
section
/-! DEFINITION. The engines of the base dies: row operations, NMX and NSEG, with refresh and the write-back of lines
(12_stacks.md R245 to R260), and the failure of any engine (10_memory_instructions.md R216). -/

namespace Sys2Proof.Machine

/-! ## Operands (R246, R247) -/

/-- A byte translates to local HBM. -/
def inHbm (s : State) (va : Nat) : Bool :=
  match locate s (engWho s) va with
  | some (.glob pa _) => paTarget pa == .hbm
  | _ => false

/-- PLACE 0, in local HBM from the lowest to the highest byte (R246). -/
def hbmShape (s : State) (sh : BitVec 512) : Bool :=
  shPlace sh == 0 && (tensorSpans s.cur.core sh).all (fun sp => match sp with
    | .va lo hi => inHbm s lo && inHbm s hi
    | _ => false)

def stackShape (s : State) (x : Nat) : List (Unit → Option Flt) :=
  [srcOk s x, fun _ => if hbmShape s (s.shape x) then none else some ⟨fcEngine, x, false⟩]

/-- The bytes of a row operand. -/
def rowLen (sh : BitVec 512) : Nat := shExt sh 0 * (if shRank sh = 2 then shExt sh 1 else 1) * shWidth sh / 8

def rowShapeOk (sh : BitVec 512) : Bool :=
  (shFmt sh == 0x04 || shFmt sh == 0x07) && decide (shRank sh ≤ 2) && (shRank sh != 2 || shStr sh 1 == shExt sh 0)

def segBytes : Nat := 393216
def rowSegs (sh : BitVec 512) : Nat := ceilDiv (rowLen sh) segBytes

def rowAlign (s : State) (x : Nat) : Unit → Option Flt := fun _ =>
  let sh := s.shape x
  if shBase sh % 128 ≠ 0 ∨ rowLen sh % 128 ≠ 0 then some ⟨fcRowopAlign, shBase sh, false⟩ else none

/-- Two ranges are the same, or disjoint. -/
def sameOrApart (a b n : Nat) : Bool := a == b || decide (a + n ≤ b) || decide (b + n ≤ a)

/-- The checks of a row operation on its destination and sources (R246, R247). -/
def rowFault (s : State) (xs : List Nat) : Option Flt :=
  let d := s.shape (xs.headD 0)
  firstOf (xs.flatMap (stackShape s) ++ [engineUnless (!shRo d) (xs.headD 0)] ++
    xs.map (fun x => engineUnless (rowShapeOk (s.shape x)) x) ++ xs.map (rowAlign s) ++
    (xs.drop 1).map (fun x => engineUnless (rowLen (s.shape x) == rowLen d && sameOrApart (shBase (s.shape x)) (shBase d) (rowLen d)) x) ++
    [fun _ => targetFault s false])

/-- The bank that a line's commands reach: its stack, its channel, and a bank of the channel that the spec does not name (log 14). -/
def refreshKey (s : State) (line : Nat) : Nat :=
  stackOf (line * 128) * 2 ^ 20 + line * 128 % 2 ^ 36 / 1024 % 384 * 2 ^ 8 + Config.free s.free 31 % 256

/-- A dirty line is written back before anything else happens to it: behind the commands that its bank has queued, which are replayed
in arrival order (R252). -/
def flushLine (s : State) (line : Nat) : State :=
  let keys := (s.refresh.filter (fun x => x.2.contains line || x.1 == refreshKey s line)).map (·.1)
  writeBackLine { (keys.flatMap (fun k => mget s.refresh k [])).foldl writeBackLine s with refresh := keys.foldl mdel s.refresh } line

/-- A virtual range's lines that hold dirty L2 bytes are written back and left by the slice (R251). -/
def flushRange (s : State) (p : Nat) (r : Nat × Nat) : State :=
  ((((s.l2 ++ s.l2shadow).filter (fun c => paInRange s p r c.1)).map (fun c => c.1 / 128)).eraseDups).foldl flushLine s

/-- A stack engine starts; a row operation's lines leave the slices once the core's bytes of the sources have reached them. -/
def startStack (s : State) (kind : EngKind) (shapes srcs : List (BitVec 512)) (total count : Nat) (flush : Bool) : State :=
  let d := shapes.headD 0
  let s0 := publishRanges s s.cur.core s.curPart (srcs.flatMap (tensorRanges s.cur.core))
  let s1 := if flush then (shapes.flatMap (tensorRanges s.cur.core)).foldl (fun s r => flushRange s s.curPart r) s0 else s0
  startEngine s1 ((s1.copyEngine kind shapes false total count []).owning s.cur.core d) (srcs.flatMap (tensorRanges s.cur.core)) []

/-- The sources of a row operation: for .maj3 the destination too (Table 12-1). -/
def rowSources (kind : EngKind) (shs : List (BitVec 512)) : List (BitVec 512) := if kind = .rbit 2 then shs else shs.drop 1

/-- A row operation's form and act. -/
def rowIssue (h : Hdr) (ec : BitVec 4) (ok : Bool) (kind : EngKind) (xs : List Nat) (s : State) : Host.Outcome State Fault Refusal :=
  let shs := xs.map s.shape
  let d := s.shape (xs.headD 0)
  issue (formEng h ec ok (rowSegs d) [30, 31] xs) s
    (engAct (fun s => rowFault s xs) (fun s => startStack s kind shs (rowSources kind shs) (rowSegs d) (rowLen d) true))

def execRcopy (h : Hdr) (x y : BitVec 4) (ec : BitVec 4) (s : State) : Host.Outcome State Fault Refusal :=
  rowIssue h ec (legal (.rcopy h x y ec)) .rcopy [x.toNat, y.toNat] s

def execRfill (h : Hdr) (x : BitVec 4) (ec : BitVec 4) (f : BitVec 1) (s : State) : Host.Outcome State Fault Refusal :=
  rowIssue h ec (legal (.rfill h x ec f)) (.rfill (f == 1)) [x.toNat] s

def execRbitAnd (h : Hdr) (x y z : BitVec 4) (ec : BitVec 4) (s : State) : Host.Outcome State Fault Refusal :=
  rowIssue h ec (legal (.rbitAnd h x y z ec)) (.rbit 0) [x.toNat, y.toNat, z.toNat] s

def execRbitOr (h : Hdr) (x y z : BitVec 4) (ec : BitVec 4) (s : State) : Host.Outcome State Fault Refusal :=
  rowIssue h ec (legal (.rbitOr h x y z ec)) (.rbit 1) [x.toNat, y.toNat, z.toNat] s

def execRbitMaj3 (h : Hdr) (x y z : BitVec 4) (ec : BitVec 4) (s : State) : Host.Outcome State Fault Refusal :=
  rowIssue h ec (legal (.rbitMaj3 h x y z ec)) (.rbit 2) [x.toNat, y.toNat, z.toNat] s

def execRbitNot (h : Hdr) (x y : BitVec 4) (ec : BitVec 4) (s : State) : Host.Outcome State Fault Refusal :=
  rowIssue h ec (legal (.rbitNot h x y ec)) (.rbit 3) [x.toNat, y.toNat] s

def execRbitXor (h : Hdr) (x y z : BitVec 4) (ec : BitVec 4) (s : State) : Host.Outcome State Fault Refusal :=
  rowIssue h ec (legal (.rbitXor h x y z ec)) (.rbit 4) [x.toNat, y.toNat, z.toNat] s

/-! ## Segments (R248, R249, R254) -/

/-- A page of an operand carries COMP. -/
def rangeComp (s : State) (p va n : Nat) : Bool :=
  (upFrom ((va + n - 1) / 65536 - va / 65536 + 1) (va / 65536)).any (fun g => match walk s p (g * 65536) with | some k => k.comp | none => false)

/-- The whole stripe that a segment of an operand translates to: stack and row (R154, R248.1). -/
def segStripe (s : State) (p va : Nat) : Option (Nat × Nat) :=
  match walk s p va with
  | none => none
  | some l =>
    let pa := l.pa va
    let pages := (upFrom ((va + segBytes - 1) / 65536 - va / 65536) (va / 65536 + 1)).map (fun g => g * 65536)
    let whole := pages.all (fun a => match walk s p a with | some k => k.pa a == pa + (a - va) | none => false)
    let o := pa % 2 ^ 36
    if whole && paTarget pa == .hbm && o % segBytes == 0 && decide (o / segBytes < 174762) then some (stackOf pa, o / segBytes) else none

/-- Conditions 1 to 4 of R248. -/
def inArray (s : State) (e : Engine) (k : Nat) : Bool :=
  let bases := e.shapes.map (fun sh => shBase sh + k * segBytes)
  let full := decide (rowLen (e.sh 0) - k * segBytes ≥ segBytes)
  let st := bases.map (segStripe s e.part)
  let same := match st.headD none with
    | some f => st.all (fun x => match x with
        | some y => y.1 == f.1 && y.2 / 512 == f.2 / 512
        | none => false)
    | none => false
  let raw := match e.kind with
    | .rbit _ => bases.all (fun b => (upFrom (segBytes / 128) 0).all (fun i => match walk s e.part (b + 128 * i) with
        | some l => s.tagOf (l.pa (b + 128 * i) / 128) == 0
        | none => false))
    | _ => true
  full && same && raw && e.shapes.all (fun sh => !rangeComp s e.part (shBase sh) (rowLen (e.sh 0)))

/-- A byte of an operation over bytes of D, X and Y. -/
def rbitByte (op : Nat) (d x y : Byte) : Byte :=
  match op with
  | 0 => x &&& y
  | 1 => x ||| y
  | 2 => (d &&& x) ||| (d &&& y) ||| (x &&& y)
  | 3 => ~~~x
  | _ => x ^^^ y

def zip3 (op : Nat) : List Byte → List Byte → List Byte → List Byte
  | d :: ds, x :: xs, y :: ys => rbitByte op d x y :: zip3 op ds xs ys
  | _, _, _ => []

/-- A line of an operand. -/
def lineBytes (s : State) (e : Engine) (i off : Nat) : Except (Nat × Nat) (List Byte) :=
  engReads (engRead s e.part e.core e.id e.pages) ((upFrom 128 (shBase (e.sh i) + off)).map EByte.va)

/-- The new bytes of a destination line (Table 12-2). -/
def rowLine (s : State) (e : Engine) (off : Nat) : Except (Nat × Nat) (List Byte) :=
  match e.kind with
  | .rfill one => .ok (List.replicate 128 (if one then 0xFF else 0))
  | .rbit op =>
    match lineBytes s e 1 off with
    | .error x => .error x
    | .ok xs =>
      if op = 3 then .ok (xs.map (fun b => ~~~b))
      else match lineBytes s e 2 off with
        | .error x => .error x
        | .ok ys =>
          if op = 2 then
            (match lineBytes s e 0 off with
              | .error x => .error x
              | .ok ds => .ok (zip3 2 ds xs ys))
          else .ok (zip3 op xs xs ys)
  | _ => lineBytes s e 1 off

/-- A destination line written to DRAM; an in-array copy keeps the source line's tag. -/
def writeRowLine (s : State) (e : Engine) (arr : Bool) (off : Nat) (bytes : List Byte) : Except (Nat × Nat) State :=
  let va := shBase (e.sh 0) + off
  match engPa s e.part e.pages true va with
  | .error x => .error x
  | .ok pa =>
    let comp := match walk s e.part va with | some l => l.comp | none => false
    let s1 := dramLine (dropLine s (pa / 128)) (pa / 128) bytes comp
    match e.kind, arr with
    | .rcopy, true => match devPa s e.part false (shBase (e.sh 1) + off) with
      | .ok src => .ok { s1 with tags := mset s1.tags (pa / 128) (s.tagOf (src / 128)) }
      | .error _ => .ok s1
    | _, _ => .ok s1

/-- The path of segment `k`: that chosen at its start, which is now if none of its lines is written (R248). -/
def Engine.arr (s : State) (e : Engine) (k : Nat) : Bool := e.segPath.getD (inArray s e k)

/-- The lines of segment `k`. -/
def segLines (e : Engine) (k : Nat) : Nat := min segBytes (rowLen (e.sh 0) - k * segBytes) / 128

/-- Line `i` of segment `k`: its sources are read and its destination is written. -/
def rowLineAt (s : State) (e : Engine) (arr : Bool) (k i : Nat) : Except (Nat × Nat) State :=
  match rowLine s e (k * segBytes + i * 128) with
  | .error x => .error x
  | .ok bs => writeRowLine s e arr (k * segBytes + i * 128) bs

/-- What is left of segment `k` of a row operation, on its path. -/
def rowSegment (s : State) (e : Engine) (k : Nat) : Except (Nat × Nat) State :=
  let arr := e.arr s k
  foldE (fun s i => rowLineAt s e arr k i) s ((upFrom (segLines e k) 0).filter (fun i => !e.lines.contains i))

/-- The translations that a row operation keeps once it has reached its next segment (16_tables.md R328). -/
def rowPages (s : State) (e : Engine) : PMap Nat :=
  (e.shapes.drop 1).foldl (fun m sh => keepPages s e.part false m ((e.unitVas e.next).map (fun a => a - e.dlo + shBase sh)))
    (keepPages s e.part true e.pages (e.unitVas e.next))

/-- The row operation numbered `op`, when its next segment may run. -/
def rowReady (s : State) (op : Nat) : Option Engine :=
  match mfind s.engines op with
  | some e => if e.kind.isRow && decide (e.next < e.total) && unitReady s e e.next then some e else none
  | none => none

/-- A row operation writes one line of its segment, ahead of the rest: each sector of a destination holds its old bytes or the new ones
until the segment ends (20_programs_memory_power.md R386). -/
def rowAdvance (s : State) (op i : Nat) : State :=
  match rowReady s op with
  | none => s
  | some e =>
    if segLines e e.next ≤ i ∨ e.lines.contains i then s
    else match rowLineAt s e (e.arr s e.next) e.next i with
      | .error _ => s
      | .ok s1 =>
        wakeAll (s1.modEngine op (fun x => { x with lines := i :: x.lines, segPath := some (e.arr s e.next), pages := rowPages s e })) (fun p => p == .owned)

/-- ROW_SEGMENT: the rest of the next segment of a row operation runs, and its path is noted (R248). -/
def execRowSegment (op : Nat) (s : State) : Host.Outcome State Fault Refusal :=
  .next (match rowReady s op with
    | none => s
    | some e => match rowSegment s e e.next with
      | .error _ => s
      | .ok s1 =>
        wakeAll (s1.modEngine op (fun x => { x with
          next := x.next + 1, lines := [], segPath := none, pages := rowPages s e
          path := x.path ||| (if e.arr s e.next then 1 else 2) })) (fun p => p == .owned))

/-! ## NMX (R256, R257) -/

/-- The program bytes in s24 to s29. -/
def nmxProg (s : State) : List Nat :=
  (upFrom (bits (s.sr 23).toNat 8 5) 0).map (fun j => bits (s.sr (24 + j / 4)).toNat (8 * (j % 4)) 8)

/-- Values popped and pushed by an operator (Table 12-5). -/
def nmxArity (op : Nat) : Nat × Nat :=
  if decide (1 ≤ op) && decide (op ≤ 5) then (0, 1)
  else if op = 6 then (1, 2)
  else if op = 7 then (2, 2)
  else if op = 8 then (1, 0)
  else if op = 0x0C ∨ op = 0x18 ∨ op = 0x1F then (3, 1)
  else if op = 9 ∨ op = 0xA ∨ op = 0xB ∨ op = 0xD ∨ op = 0xE ∨ op = 0x19 ∨ op = 0x1A then (2, 1)
  else if decide (0x1B ≤ op) && decide (op ≤ 0x1E) then (0, 1)
  else (1, 1)

/-- The position of the byte that fails the checks of R257; the one at which the program ends with a wrong depth. -/
def nmxBad (useC : Bool) : List Nat → Nat → Nat → Option Nat
  | [], i, depth => if depth = 1 then none else some (i - 1)
  | op :: ops, i, depth =>
    if op ≥ 0x20 then some i
    else if op = 0 then (if depth = 1 then (match ops.findIdx? (fun b => decide (b ≥ 0x20)) with | some k => some (i + 1 + k) | none => none) else some i)
    else if op = 3 ∧ !useC then some i
    else
      let a := nmxArity op
      if depth < a.1 ∨ 4 < depth - a.1 + a.2 then some i else nmxBad useC ops (i + 1) (depth - a.1 + a.2)

/-- A float or integer type of 32 bits or fewer that is not MX. The tapered formats are taken as float types, and an output whose shape names
scales is taken, its codes being values of their format and its scales left as they are (DESIGN CHOICE, log 97). -/
def nmxType (f w : Nat) : Bool := !fmtMx f && decide (w ≤ 32)

/-- An input is the output tensor exactly. -/
def sameTensor (a b : BitVec 512) : Bool :=
  shBase a == shBase b && shFmt a == shFmt b && shExts a == shExts b && (upFrom (shRank a) 0).all (fun d => shStr a d == shStr b d)

/-- An input equals the output exactly or is disjoint from it: tensors are compared from their lowest to their highest byte (DESIGN CHOICE,
log 97). -/
def nmxInput (s : State) (d : BitVec 512) (x : Nat) : List (Unit → Option Flt) :=
  let b := s.shape x
  stackShape s x ++
  [engineUnless (nmxType (shFmt b) (shWidth b) && shRank b == shRank d && extentsOk d b &&
    (sameTensor b d || !(elemSpan 0 b).meets (elemSpan 0 d))) x]

def nmxFault (s : State) (x y z : Nat) : Option Flt :=
  let d := s.shape x
  let ctl := (s.sr 23).toNat
  let useC := bitOf ctl 4
  let len := bits ctl 8 5
  firstOf (stackShape s x ++ [engineUnless (!shRo d && nmxType (shFmt d) (shWidth d)) x] ++ nmxInput s d y ++ nmxInput s d z ++
    (if useC then nmxInput s d (bits ctl 0 4) else []) ++
    [engineUnless (decide (1 ≤ len) && decide (len ≤ 24)) 0x100,
     fun _ => (nmxBad useC (nmxProg s) 0 0).map (fun i => ⟨fcEngine, 0x100 + i, false⟩), fun _ => targetFault s false])

def execNmx (h : Hdr) (x y z : BitVec 4) (ec : BitVec 4) (s : State) : Host.Outcome State Fault Refusal :=
  let d := s.shape x.toNat
  let ctl := (s.sr 23).toNat
  let xs := [x.toNat, y.toNat, z.toNat] ++ (if bitOf ctl 4 then [bits ctl 0 4] else [])
  let shs := xs.map s.shape
  issue (formEng h ec (legal (.nmx h x y z ec)) (ceilDiv (shCount d) 1024) (upFrom 9 21 ++ [30, 31]) xs) s
    (engAct (fun s => nmxFault s x.toNat y.toNat z.toNat) (fun s =>
      startStack s (.nmx (nmxProg s) (s.sr 21) (s.sr 22) (bitOf ctl 4)) shs (shs.drop 1) (shUnits d false) (tensorCount d false) false))

/-- The bytes that an element's value rests on: its own, and its block's scale where the shape names one. -/
def valueBytes (core : Nat) (sh : BitVec 512) (n : Nat) : List EByte :=
  (elemBytes core sh n).1 ++ (if shSblk sh = 1 then [scaleByte sh n] else [])

/-- The value of an element that has been read, as .f32: under its block's scale where the shape names one (02_number_formats.md R32). -/
def Engine.f32 (s : State) (e : Engine) (sh : BitVec 512) (n : Nat) : Nat :=
  let c := e.code s sh n
  if shSblk sh = 1 then encodeVal (.flt .f32) (scaledVal (shKind sh) c (e.byte s (scaleByte sh n)).toNat)
  else (convert (shKind sh) (.flt .f32) .rn false c).1

/-- An element of an input as .f32; beyond an extent it is zero. -/
def nmxLoad (s : State) (e : Engine) (i : Nat) (idx : List Nat) : Nat :=
  let b := e.sh i
  if !shInside b idx then 0 else e.f32 s b (shElem b idx)

/-- The output element before it is written, as .f32. -/
def nmxOut (s : State) (e : Engine) (idx : List Nat) : Nat := e.f32 s (e.sh 0) (shElem (e.sh 0) idx)

/-- The values that a program may push for an element. -/
structure NmxIn where
  a : Nat
  b : Nat
  c : Nat
  out : Nat
  i0 : Nat
  k1 : Nat
  k2 : Nat
  deriving DecidableEq, Repr

def f32Bin (f : FVal → FVal → XRes) (a b : Nat) : Nat := (FFmt.f32.finish .rn false (f (FFmt.f32.decode a) (FFmt.f32.decode b))).1

/-- a > b or the like; false for a NaN. -/
def f32Rel (k : Nat) (a b : Nat) : Bool :=
  let x := FFmt.f32.decode a
  let y := FFmt.f32.decode b
  !x.isNan && !y.isNan && floatRel k (cmpVal x y)

def f32One : Nat := 0x3F800000

/-- An operator applied to a stack, the top first (Table 12-5). -/
def nmxOp (v : NmxIn) (op : Nat) (st : List Nat) : List Nat :=
  match op, st with
  | 0x01, st => v.a :: st
  | 0x02, st => v.b :: st
  | 0x03, st => v.c :: st
  | 0x04, st => v.out :: st
  | 0x05, st => (FFmt.f32.round .rn false (FVal.ofInt v.i0)).1 :: st
  | 0x06, b :: st => b :: b :: st
  | 0x07, b :: a :: st => a :: b :: st
  | 0x08, _ :: st => st
  | 0x09, b :: a :: st => f32Bin (addExact .rn) a b :: st
  | 0x0A, b :: a :: st => f32Bin (fun x y => addExact .rn x y.negate) a b :: st
  | 0x0B, b :: a :: st => f32Bin mulExact a b :: st
  | 0x0C, b :: a :: c :: st =>
    (FFmt.f32.finish .rn false (fmaExact .rn (FFmt.f32.decode a) (FFmt.f32.decode b) (FFmt.f32.decode c))).1 :: st
  | 0x0D, b :: a :: st => (FFmt.f32.minMax false a b).1 :: st
  | 0x0E, b :: a :: st => (FFmt.f32.minMax true a b).1 :: st
  | 0x0F, b :: st => (signOp (BitVec.ofNat 32 b) (fun x => x ^^^ 0x80000000)).1.toNat :: st
  | 0x10, b :: st => (signOp (BitVec.ofNat 32 b) (fun x => x &&& 0x7FFFFFFF)).1.toNat :: st
  | 0x11, b :: st => (frcp .rn (BitVec.ofNat 32 b)).1.toNat :: st
  | 0x12, b :: st => (frsq (BitVec.ofNat 32 b)).1.toNat :: st
  | 0x13, b :: st => (fsqrt .rn (BitVec.ofNat 32 b)).1.toNat :: st
  | 0x14, b :: st => (fex2 (BitVec.ofNat 32 b)).1.toNat :: st
  | 0x15, b :: st => (flg2 (BitVec.ofNat 32 b)).1.toNat :: st
  | 0x16, b :: st => (ftanh (BitVec.ofNat 32 b)).1.toNat :: st
  | 0x17, b :: st => (FFmt.f32.minMax true b 0).1 :: st
  | 0x18, b :: a :: c :: st => (if f32Rel 4 b 0 then c else a) :: st
  | 0x19, b :: a :: st => (if f32Rel 2 a b then f32One else 0) :: st
  | 0x1A, b :: a :: st => (if f32Rel 0 a b then f32One else 0) :: st
  | 0x1B, st => 0 :: st
  | 0x1C, st => f32One :: st
  | 0x1D, st => v.k2 :: st
  | 0x1E, st => v.k1 :: st
  | 0x1F, b :: a :: c :: st => (FFmt.f32.minMax false (FFmt.f32.minMax true c a).1 b).1 :: st
  | _, st => st

/-- The program until its end or its first END. -/
def nmxRun (v : NmxIn) : List Nat → List Nat → List Nat
  | [], st => st
  | op :: ops, st => if op = 0 then st else nmxRun v ops (nmxOp v op st)

/-- The output element of an index. -/
def nmxElem (s : State) (e : Engine) (prog : List Nat) (k1 k2 : Word) (useC : Bool) (idx : List Nat) : Nat :=
  (nmxRun ⟨nmxLoad s e 1 idx, nmxLoad s e 2 idx, if useC then nmxLoad s e 3 idx else 0, if prog.contains 4 then nmxOut s e idx else 0,
    idx.headD 0, k1.toNat, k2.toNat⟩ prog []).headD 0

/-- The input bytes of a unit of NMX. -/
def nmxSources (e : Engine) (useC : Bool) (u : Nat) : List EByte :=
  (e.shapes.take (if useC then 4 else 3)).tail.flatMap (fun b =>
    ((unitElems (e.sh 0) u).filter (shInside b)).flatMap (fun i => valueBytes e.core b (shElem b i)))

/-- A unit of NMX: its inputs are read, and the output as it was, before the output is written. -/
def nmxPart (s : State) (e : Engine) (prog : List Nat) (k1 k2 : Word) (useC : Bool) (u : Nat) : Except (Nat × Nat) State :=
  let d := e.sh 0
  let es := unitElems d u
  match capture s e (nmxSources e useC u) with
  | .error x => .error x
  | .ok e => match (if prog.contains 4 then captureBytes s e (engOld s e.part e.core e.pages) e.seen (es.flatMap (fun i => valueBytes e.core d (shElem d i)))
      else .ok e.seen) with
    | .error x => .error x
    | .ok m =>
      let e := { e with seen := m }
      foldE (fun s idx => writeElem s e e.core d (shElem d idx) (convert (.flt .f32) (shKind d) .rn false (nmxElem s e prog k1 k2 useC idx)).1 u)
        (keepSeen s e) es

/-! ## NSEG (R258 to R260) -/

def nsegFault (s : State) (x y z : Nat) : Option Flt :=
  let d := s.shape x
  let b := s.shape y
  let i := s.shape z
  let g := bits (s.sr 23).toNat 0 4
  let q := s.shape g
  let list (c : BitVec 512) : Bool := shRank c == 1 && shFmt c == 0x06
  firstOf (stackShape s x ++ stackShape s y ++ stackShape s z ++ stackShape s g ++
    [engineUnless (shRank b == 2 && fmtFloat (shFmt b)) y, engineUnless (list i) z, engineUnless (list q && shExt q 0 == shExt i 0) g,
     engineUnless (!shRo d && shRank d == 2 && fmtFloat (shFmt d) && shExt d 0 == shExt b 0 &&
       [b, i, q].all (fun c => !(elemSpan 0 c).meets (elemSpan 0 d))) x, fun _ => targetFault s false])

def execNseg (h : Hdr) (x y z : BitVec 4) (ec : BitVec 4) (f : BitVec 1) (m : BitVec 2) (s : State) : Host.Outcome State Fault Refusal :=
  let d := s.shape x.toNat
  let g := bits (s.sr 23).toNat 0 4
  let xs := [x.toNat, y.toNat, z.toNat, g]
  let shs := xs.map s.shape
  issue (formEng h ec (legal (.nseg h x y z ec f m)) (ceilDiv (shExt (s.shape z.toNat) 0) 32) [23, 30, 31] xs) s
    (engAct (fun s => nsegFault s x.toNat y.toNat z.toNat) (fun s =>
      startStack s (.nseg m.toNat (f == 1)) shs (shs.drop 1) 1 (tensorCount d false) false))

/-- Entry `r` of the index list (which = 2) or of the segment list (which = 3), as it has been read (R259). -/
def nsegEntry (s : State) (e : Engine) (which r : Nat) : Nat := e.code s (e.sh which) r

/-- The rows that a bag counts: table rows, or a row of zeros (Table 12-6). -/
def bagRows (es : List (Nat × Nat)) (bag rows : Nat) : List (Option Nat) :=
  (es.filter (fun x => x.2 == bag && x.1 != 0xFFFFFFFF)).map (fun x => if x.1 < rows then some x.1 else none)

/-- The first status code in entry order, with the entry's index. -/
def nsegStatus (es : List (Nat × Nat)) (bags rows : Nat) : Nat × Nat :=
  match (es.zip (upFrom es.length 0)).find? (fun x => x.1.1 != 0xFFFFFFFF && (decide (bags ≤ x.1.2) || decide (rows ≤ x.1.1))) with
  | some x => (if bags ≤ x.1.2 then 6 else 4, x.2)
  | none => (0, 0)

/-- The value of a table row at a column, widened to .f32; a row of zeros for none. -/
def bagValue (s : State) (e : Engine) (j : Nat) (r : Option Nat) : Nat :=
  match r with
  | none => 0
  | some x => e.f32 s (e.sh 1) (shElem (e.sh 1) [j, x])

/-- One sequence of pairwise additions, chosen freely (R260, .fast): two values of the list at a time, `n` times. -/
def fastSum (fr : Nat) : Nat → List Nat → Nat
  | 0, vs => vs.headD 0
  | n + 1, vs =>
    let i := Config.free fr (20000 + 2 * n) % vs.length
    let rest := vs.eraseIdx i
    let j := Config.free fr (20001 + 2 * n) % rest.length
    fastSum fr n ((f32Add .rn (vs.getD i 0) (rest.getD j 0)).1 :: rest.eraseIdx j)

/-- The quotient of a value by a positive count, rounded to .f32. -/
def f32DivNat (a c : Nat) : Nat :=
  match FFmt.f32.decode a with
  | .fin n m e =>
    if m = 0 then a
    else
      let k := 64 + bitLen c
      let q := m * 2 ^ k / c
      (FFmt.f32.round .rn false (.fin n (2 * q + b2n (m * 2 ^ k % c != 0)) (e - k - 1))).1
  | .inf _ => a
  | .nan _ _ => FFmt.f32.nanCode

/-- The reduction of a bag's values at a column (R260). -/
def nsegReduce (fr mode : Nat) (fast : Bool) (vs : List Nat) : Nat :=
  match vs with
  | [] => 0
  | v :: rest =>
    if mode = 2 then FFmt.f32.canonical (rest.foldl (fun a b => (FFmt.f32.minMax true a b).1) v)
    else
      let sum := if fast then fastSum fr vs.length (0 :: vs) else vs.foldl (fun a b => (f32Add .rn a b).1) 0
      if mode = 1 then f32DivNat sum vs.length else sum

/-- The entries of the lists, once they have been read. -/
def nsegEntries (s : State) (e : Engine) : List (Nat × Nat) := (upFrom (shExt (e.sh 2) 0) 0).map (fun r => (nsegEntry s e 2 r, nsegEntry s e 3 r))

/-- The table bytes that a reduction reads. -/
def nsegSources (e : Engine) (es : List (Nat × Nat)) : List EByte :=
  let d := e.sh 0
  (es.filter (fun x => decide (x.1 < shExt (e.sh 1) 1) && decide (x.2 < shExt d 1))).flatMap (fun x =>
    (upFrom (shExt d 0) 0).flatMap (fun j => valueBytes e.core (e.sh 1) (shElem (e.sh 1) [j, x.1])))

/-- The output elements of a reduction, sector by sector. -/
def nsegWrite (s : State) (e : Engine) (mode : Nat) (fast : Bool) (es : List (Nat × Nat)) : Except (Nat × Nat) State :=
  let d := e.sh 0
  let cells := (upFrom (shExt d 1) 0).flatMap (fun b => (upFrom (shExt d 0) 0).map (fun j => (j, b)))
  foldE (fun s x =>
    let n := shElem d [x.1, x.2]
    let v := nsegReduce (s.free + 100000 * x.1 + 1000 * x.2) mode fast ((bagRows es x.2 (shExt (e.sh 1) 1)).map (bagValue s e x.1))
    foldE (fun s u => writeElem s e e.core d n (convert (.flt .f32) (shKind d) .rn false v).1 u) s
      (((elemOffs d n).1.map (fun o => (elemLead d + o) / 32)).eraseDups)) s cells

/-- The whole reduction: the lists and the rows that they name are read, and the output is written. -/
def nsegAll (s : State) (e : Engine) (mode : Nat) (fast : Bool) : Except (Nat × Nat) State :=
  match capture s e ([e.sh 2, e.sh 3].flatMap (fun q => (upFrom (shExt q 0) 0).flatMap (fun i => (elemBytes e.core q i).1))) with
  | .error x => .error x
  | .ok e =>
    let es := nsegEntries s e
    match capture s e (nsegSources e es) with
    | .error x => .error x
    | .ok e =>
      let st := nsegStatus es (shExt (e.sh 0) 1) (shExt (e.sh 1) 1)
      nsegWrite ((keepSeen s e).modEngine e.id (fun x => if st.1 = 0 then x else { x with status := st.1, info := st.2 })) e mode fast es

/-- NSEG reads ahead of the rest: the sector of one entry of its lists, or of one element of its table. -/
def nsegRead (s : State) (op k : Nat) : State :=
  match mfind s.engines op with
  | none => s
  | some e => match e.kind with
    | .nseg _ _ =>
      let n := shExt (e.sh 2) 0
      let t := e.sh 1
      let want := if k < 2 * n then listBytes e (e.sh (2 + k % 2)) (k / 2)
        else if k - 2 * n < shExt t 0 * shExt t 1 then valueBytes e.core t (shElem t [(k - 2 * n) % shExt t 0, (k - 2 * n) / shExt t 0])
        else []
      (match capture s e want with
        | .error _ => s
        | .ok e => keepSeen s e)
    | _ => s

/-! ## Work, completion and failure -/

/-- One unit of any engine that fails by status code. -/
def engUnit (s : State) (e : Engine) (u : Nat) : Except (Nat × Nat) State :=
  match e.kind with
  | .nmx prog k1 k2 useC => nmxPart s e prog k1 k2 useC u
  | .nseg mode fast => nsegAll s e mode fast
  | _ => copyUnit s e u

def EngKind.isNear : EngKind → Bool
  | .nmx _ _ _ _ | .nseg _ _ => true
  | _ => false

/-- NMX performs one unit of its work. -/
def nmxAdvance (s : State) (op u : Nat) : State :=
  match mfind s.engines op with
  | none => s
  | some e =>
    (match e.kind with
      | .nmx _ _ _ _ =>
        if !unitReady s e u || decide (e.total ≤ u) || e.done.contains u then s
        else (match engUnit s e u with
          | .error _ => s
          | .ok s => unitDone s op u)
      | _ => s)

/-- STACK_ENGINE_COMPLETION: a row operation whose segments have all run, or NMX or NSEG with the rest of its work,
completes into its counter (R246, R248). -/
def execStackEngineCompletion (op : Nat) (s : State) : Host.Outcome State Fault Refusal :=
  .next (match mfind s.engines op with
    | none => s
    | some e =>
      if !engReady s e then s
      else if e.kind.isRow then (if e.total ≤ e.next then completeEngine s e else s)
      else if e.kind.isNear then
        (match unitsE engUnit op s e.rest with
          | .error _ => s
          | .ok s1 => completeEngine s1 ((mfind s1.engines op).getD e))
      else s)

/-- The failure of a unit, if any; code 0 is none, but a wait for power. -/
def unitFailure (s : State) (e : Engine) (u : Nat) : Option (Nat × Nat) :=
  match (if e.kind.isRow then rowSegment s e u else engUnit s e u) with
  | .error x => if x.1 = 0 then none else some x
  | .ok _ => none

/-- The failure that an engine meets next, if any: its code and address. -/
def engFailure (s : State) (e : Engine) : Option (Nat × Nat) :=
  match staleBank s e with
  | some a => some (10, a)
  | none =>
    if e.kind.isRow then (e.rest.head?.filter (unitReady s e)).bind (unitFailure s e)
    else if e.kind.isCopy || e.kind.isNear then (e.rest.filter (unitReady s e)).findSome? (unitFailure s e)
    else none

/-- COPY_FAILURE: the code and the address met are reported, slot and ownership end; a panel's sums match its bits. -/
def execCopyFailure (op : Nat) (s : State) : Host.Outcome State Fault Refusal :=
  .next (match mfind s.engines op with
    | none => s
    | some e =>
      if !engMay s e then s
      else match engFailure s e with
        | none => s
        | some x => failAt (settleFailed s e) e x.1 x.2)

/-! ## Lines and refresh (R252, R255) -/

/-- A line has dirty bytes in a slice that serves requests. -/
def lineDirty (s : State) (line : Nat) : Bool :=
  homeServes s (line * 128) && (upFrom 128 (line * 128)).any (fun a => (dirtyByte s a).isSome)

/-- The write-back of a dirty line reaches the base die (R255). A bank under refresh, which is a free choice, queues it, behind what is
queued already; a line that finds 16 commands there waits at the sequencer (R252). Reads and the commands of bursts need no place in
the queue: whatever defers them, they find the bytes that they would have found (R252, Results). -/
def sendLine (s : State) (line : Nat) : State :=
  let key := refreshKey s line
  let q := mget s.refresh key []
  if !lineDirty s line || s.refresh.any (fun x => x.2.contains line) then s
  else if Config.free s.free 30 % 2 = 1 ∨ !q.isEmpty then (if q.length < 16 then { s with refresh := mset s.refresh key (q ++ [line]) } else s)
  else writeBackLine s line

/-- LINE_WRITEBACK. -/
def execLineWriteback (line : Nat) (s : State) : Host.Outcome State Fault Refusal := .next (sendLine s line)

/-- DRAM_REFRESH: after the refresh a bank replays its catch-up queue in arrival order. -/
def execDramRefresh (stack channel bank : Nat) (s : State) : Host.Outcome State Fault Refusal :=
  .next (let key := stack * 2 ^ 20 + channel * 2 ^ 8 + bank
    { (mget s.refresh key []).foldl writeBackLine s with refresh := mdel s.refresh key })

/-- REFRESH_BOUND_EXPIRY: the oldest waiting request's commands issue before the burst's next one. -/
def execRefreshBoundExpiry (stack channel bank : Nat) (s : State) : Host.Outcome State Fault Refusal :=
  .next (let key := stack * 2 ^ 20 + channel * 2 ^ 8 + bank
    match mget s.refresh key [] with
    | [] => s
    | l :: q => { writeBackLine s l with refresh := if q.isEmpty then mdel s.refresh key else mset s.refresh key q })

end Sys2Proof.Machine
end

