-- ==== Sys2Proof/Machine/Dump.lean ====
section
/-! DEFINITION. Groups at safe points (17_faults.md R347; 06_control_state.md R127), dumps (17 R353 to R355) and the
instructions DUMP and TMARK (17 R356). -/

namespace Sys2Proof.Machine

/-! ## Groups at rest (R347) -/

/-- A fibre at a safe point, or none (06 R127). -/
def Lane.atSafe (x : Lane) : Bool :=
  match x.state with
  | .empty | .napping | .faulted | .ended => true
  | .parked => x.park != .switchMark
  | .ready | .away => false

/-- A warp's results wait for a hold. -/
def Warp.holdsResult (w : Warp) : Bool := w.pend.any (fun r => r.hold.isSome)

/-- Every engine operation issued by a group has completed or failed (10 R216, 11 R244, 13 R278). -/
def groupIdle (s : State) (gid : Nat) : Bool := !s.engines.any (fun e => e.2.gid == gid)

/-- Every fibre of a group stands at a safe point, and no engine, stream word or hold of the group is in progress. -/
def groupStopped (s : State) (core gid : Nat) : Bool :=
  match mfind (s.core core).st.groups gid with
  | none => true
  | some g => groupIdle s gid && g.warps.all (fun slot => match s.warp? core slot with
    | some w => !w.holdsResult && (upFrom 32 0).all (fun l => (w.lane l).atSafe)
    | none => true)

/-- The resident groups of a launch, by core and identity. -/
def groupsOf (s : State) (launch : Nat) : List (Nat × Nat) :=
  s.cores.flatMap (fun c => (c.2.st.groups.filter (fun g => g.2.launch == launch && g.2.lazyOf.isNone)).map (fun g => (c.1, g.1)))

/-- A stop at safe points is asked of groups, or is over. -/
def askStop (s : State) (gs : List (Nat × Nat)) (on : Bool) : State :=
  gs.foldl (fun s g => s.modGroup g.1 g.2 (fun x => { x with preempt := on })) s

/-- Fibres of a group parked at SAFE for a stop go on (06 R127). -/
def endStops (s : State) (core gid : Nat) : State :=
  match mfind (s.core core).st.groups gid with
  | none => s
  | some g => g.warps.foldl (fun s slot => match s.warp? core slot with
    | none => s
    | some w => match (upFrom 32 0).filter (fun l => (w.lane l).state == .parked && (w.lane l).park == .safePoint) with
      | [] => s
      | ls => endPark s core slot ls) s

/-! ## The sections of a dump (Table 17-8) -/

/-- The groups of a context that are saved (R353 covers every context). -/
def savedOn (s : State) (core launch : Nat) : List Saved :=
  (s.saved.filter (fun x => x.2.core == core && x.2.launch == launch)).map (·.2)

/-- The home warps of a context, those of its saved groups included. -/
def ctxWarps (s : State) (core launch : Nat) : List Warp :=
  ((s.core core).st.warps.filter (fun x => !x.2.isGuest && x.2.launch == launch)).map (·.2) ++
  (savedOn s core launch).flatMap (fun x => x.warps.map (·.2))

/-- A bank as a dump shows it: bits and entries with the bank's place among them, its other contents, and its status word. -/
structure CtxBank where
  scratch : Memory
  acc : PMap Word
  index : Nat
  bank : Bank
  status : Nat

/-- The banks that the groups of a context hold, and those that its saved groups have left with their images. -/
def ctxBanks (s : State) (core launch : Nat) : List CtxBank :=
  let k := (s.core core).st
  (k.banks.filter (fun b => match b.2.owner with | some g => groupLaunch s g == some launch | none => false)).map
    (fun b => ⟨k.scratch, k.acc, b.1, b.2, bankStatus s core (b.2.owner.getD 0) b.1⟩) ++
  (savedOn s core launch).flatMap (fun x => (x.banks.filter (fun b => !x.lazyBanks.contains b.1)).map
    (fun b => ⟨x.scratch, x.acc, b.1, b.2, b.2.status x.gid false false⟩))

/-- The context of a launch on a core, resident or saved. -/
def ctxAt (s : State) (core launch : Nat) : Ctx :=
  match (s.core core).st.ctx? launch with
  | some c => c
  | none => match savedOn s core launch with
    | x :: _ => x.ctx
    | [] => {}

/-- Sixteen bytes of a counter; a counter that cannot be reached is zero. -/
def counterBytes (s : State) (p core va : Nat) : List Byte :=
  if va = 0 then [] else match ctrSpot s p core va with
    | some sp => bytesLE 16 (ctrRead s sp)
    | none => List.replicate 16 0

/-- The counters of section 6. -/
def ctxCounters (s : State) (core launch : Nat) : List Byte :=
  match mfind s.launches launch with
  | none => []
  | some l => ([l.header.field 160 8, l.header.cmpctr, l.header.field 216 8] ++
      (s.engines.filter (fun e => e.2.core == core && e.2.launch == launch && !e.2.bw)).map (fun e => e.2.ctr)).flatMap
        (counterBytes s l.part core)

/-- The records of section 7: each lane's latest, then the ring's control block and its records not yet read. -/
def ctxRecords (s : State) (core launch : Nat) : List Byte :=
  let fq := (faultqOf s core launch).toNat
  let base := bits fq 12 45 * 4096
  let n := 2 ^ (bits fq 0 4 + 4)
  let p := s.launchPart launch
  let ctl := windowBytes s p base 64
  let wr := ofBytesLE (ctl.take 8)
  let rd := ofBytesLE ((ctl.drop 8).take 8)
  (ctxWarps s core launch).flatMap (fun w => (upFrom 32 0).flatMap (fun l =>
    match (w.lane l).record with | some r => recordBytes r | none => List.replicate 64 0)) ++
  (if base = 0 then [] else ctl ++ (upFrom (min n ((wr + 2 ^ 64 - rd) % 2 ^ 64)) 0).flatMap (fun i =>
    windowBytes s p (base + 64 + 64 * ((rd + i) % n)) 64))

/-- A trace entry (15_counters.md Table 15-11). -/
def TraceEntry.image (t : TraceEntry) : List Byte :=
  bytesLE 4 t.ts ++ bytesLE 2 (t.kind * 4096 + b2n t.guest * 2048 + t.warp * 32 + t.lane) ++ bytesLE 10 t.loc

/-- A core's trace ring, oldest entry first, with its entry count. -/
def traceImage (k : CoreSt) : List Byte :=
  (upFrom 256 0).flatMap (fun i =>
    match mfind k.trace ((if k.traceCount ≤ 256 then i else k.traceCount + i) % 256) with
    | some t => t.image
    | none => List.replicate 16 0) ++ bytesLE 8 k.traceCount

/-- The sensitivity and event counters of a core. -/
def countersImage (k : Core) : List Byte :=
  [k.cycf, k.issu, k.mstl, k.lbsy].flatMap (fun v => bytesLE 8 v.toNat) ++
  (upFrom 16 0).flatMap (fun i => bytesLE 8 (mget k.evc i 0).toNat) ++ (upFrom 16 0).flatMap (fun i => bytesLE 4 (mget k.evsel i 0).toNat)

/-- The section of a type for a context of a core. -/
def dumpSection (s : State) (core launch type : Nat) : List Byte :=
  let k := s.core core
  let ws := ctxWarps s core launch
  match type with
  | 1 => ws.flatMap warpImage
  | 2 => ws.flatMap (fun w => regImage Lane.physReg w ++ (upFrom 32 0).flatMap (fun l => (w.lane l).markImage w.nreg))
  | 3 => shapeImage (ctxAt s core launch) ++ sysImage (ctxAt s core launch)
  | 4 => (ctxBanks s core launch).flatMap (fun b => memReads b.scratch (131072 * b.index) 131072 ++ liveImage b.bank)
  | 5 => (ctxBanks s core launch).flatMap (fun b => sideImage b.acc b.bank b.index ++ bytesLE 4 b.status)
  | 6 => ctxCounters s core launch
  | 7 => ctxRecords s core launch
  | 8 => traceImage k.st
  | 9 => countersImage k
  | _ => k.st.shuttles.flatMap shuttleImage ++ (k.st.warps.filter (fun x => x.2.isGuest)).flatMap (fun x => warpImage x.2)

/-- The contexts that a dump covers, in core order: those of the partition, or those of one task, resident or saved. -/
def dumpCtxs (s : State) (part : Nat) (only : Option Nat) : List (Nat × Nat) :=
  (s.cores.flatMap (fun c => (c.2.st.ctxs.map (·.1) ++ (s.saved.filter (fun x => x.2.core == c.1)).map (fun x => x.2.launch)).eraseDups.map
    (fun x => (c.1, x)))).filter (fun x => s.launchPart x.2 == part && (only.isNone || only == some x.2))

/-- The sections in table order: their type, core and bytes. -/
def dumpSections (s : State) (part : Nat) (only : Option Nat) : List (Nat × Nat × List Byte) :=
  (upFrom 10 1).flatMap (fun t => (dumpCtxs s part only).map (fun c => (t, c.1, dumpSection s c.1 c.2 t)))

/-- The entries of the section table, from an offset on. -/
def sectionTable : Nat → List (Nat × Nat × List Byte) → List Byte
  | _, [] => []
  | off, (t, c, bs) :: rest =>
    bytesLE 1 t ++ [0] ++ bytesLE 2 c ++ bytesLE 4 0 ++ bytesLE 8 off ++ bytesLE 8 bs.length ++ bytesLE 8 0 ++ sectionTable (off + bs.length) rest

/-! ## The dump (R353 to R355) -/

/-- The signatures are used up (R354). -/
def leavesDone (s : State) : Bool := decide (2 ^ 20 ≤ s.leaf)

/-- No signature is made: they are used up, or the attestation keys are erased (16_tables.md R336). -/
def unsigned (s : State) : Bool := leavesDone s || s.security == .retired

/-- The counter after it has advanced for a signature, whose leaf index it is; none advances it once the signatures are
used up (R354) or the attestation keys erased (16_tables.md R336). -/
def signLeaf (s : State) : Nat := if unsigned s then s.leaf else s.leaf + 1

/-- What a dump says of itself. -/
structure DumpHead where
  part : Nat
  cause : Nat
  code : Nat
  taskid : Word
  length : Nat
  nsect : Nat
  trunc : Bool
  enc : Bool
  tenant : Word
  leaf : Nat
  deriving DecidableEq, Repr

/-- Bytes 0 to 47 of the header. -/
def DumpHead.front (s : State) (d : DumpHead) : List Byte :=
  bytesLE 4 0x444D594E ++ bytesLE 2 1 ++ bytesLE 2 (b2n d.trunc + 2 * b2n d.enc + 4 * b2n (leavesDone s)) ++
  bytesLE 1 d.cause ++ bytesLE 1 d.code ++ bytesLE 1 d.part ++ [0] ++ bytesLE 4 d.taskid.toNat ++
  bytesLE 8 s.time ++ bytesLE 8 s.time ++ bytesLE 8 d.length ++ bytesLE 4 d.nsect ++ bytesLE 4 d.leaf

/-- The credential that a partition's dumps are wrapped for (R355; 16_tables.md Table 16-12). -/
def dumpKek (s : State) (p : Part) : List Byte := if s.security = .tenant ∧ p.tenant ≠ 0 then p.tenantKek else s.ownerKek

/-- Header, signature and body of a dump whose plain body is given; without a signature its bytes are zero (log 88). -/
def dumpBytes (s : State) (d : DumpHead) (plain : List Byte) : List Byte :=
  let front := d.front s
  let nonce := freeBytes s 80100 12
  let ct := Config.encrypt (Config.free s.free 80000) nonce front plain
  let body := if d.enc then fitBytes (ct.drop 16) plain.length else plain
  let keys := if d.enc then
      bytesLE 4 d.tenant.toNat ++ bytesLE 4 0 ++ fitBytes (Config.wrapKey (Config.free s.free 80000) (dumpKek s (s.part d.part))) 40 ++
        nonce ++ fitBytes (ct.take 16) 16
    else bytesLE 4 d.tenant.toNat
  let head := fitBytes (front ++ fitBytes (Config.sha256 Config.deviceKey) 32 ++ fitBytes (Config.sha256 body) 32 ++ keys) 256
  let sig := if unsigned s then List.replicate 2828 0 else fitBytes (Config.sign d.leaf head) 2828
  fitBytes (head ++ sig) 4096 ++ body

/-- The summary in MRAM: bytes 0 to 47 of the header, the region offset, and zeros. -/
def addSummary (s : State) (front : List Byte) (off : Nat) : State :=
  { s with summaries := s.summaries ++ [fitBytes (front ++ bytesLE 8 off) 64] }

/-- The dump of a partition for a cause is written at DUMPBASE + DUMPUSED. -/
def writeDump (s : State) (part cause code : Nat) (taskid : Word) (only : Option Nat) : State :=
  let p := s.part part
  let secs := dumpSections s part only
  let plain := sectionTable (4096 + 32 * secs.length) secs ++ secs.flatMap (fun x => x.2.2)
  let room := p.dumpsize - p.dumpused
  let cut := decide (room < 4096 + plain.length)
  let plain := if cut then plain.take (room - 4096) else plain
  let d : DumpHead := { part := part, cause := cause, code := code, taskid := taskid, length := 4096 + plain.length, nsect := secs.length
                        trunc := cut, enc := s.security != .manufacture
                        tenant := if s.security = .manufacture then 0 else p.tenant
                        leaf := if room < 8192 then s.leaf else signLeaf s }
  if room < 8192 then addSummary s (d.front s) p.dumpused
  else
    let s1 := homeWrites (addSummary s (d.front s) p.dumpused) (p.dumpbase + p.dumpused) (dumpBytes s d plain)
    { s1.modPart part (fun p => { p with dumpused := p.dumpused + roundUp d.length 4096 }) with leaf := signLeaf s }

/-! ## DUMP_WRITE -/

/-- Nothing hinders the dump asked for: engines of the partition have ended, or the task's groups stand still. -/
def dumpReady (s : State) (part cause launch : Nat) : Bool :=
  if cause = 2 then (groupsOf s launch).all (fun g => groupStopped s g.1 g.2)
  else !s.engines.any (fun e => e.2.part == part)

/-- Batches parked at DUMP: the one whose dump is written goes on, others issue again. -/
def releaseDump (s : State) (part : Nat) : State :=
  s.cores.foldl (fun s c => c.2.st.warps.foldl (fun s x =>
    let ls := (upFrom 32 0).filter (fun l => (x.2.lane l).state == .parked && (x.2.lane l).park == .dump && s.launchPart x.2.launch == part)
    let again := ls.filter (fun l => (x.2.lane l).counted)
    let s := again.foldl (fun s l => s.modLane c.1 x.1 l Lane.released) s
    if ls.length = again.length then s else endPark s c.1 x.1 (ls.filter (fun l => !again.contains l))) s) s

/-- The dump that a partition waits for is written, if nothing hinders it; after a DUMP the task's groups and the batch go on. -/
def dumpNow (s : State) (part : Nat) : State :=
  match (s.part part).dumpReq with
  | none => s
  | some (cause, code, taskid, launch) =>
    if !dumpReady s part cause launch then s
    else
      let s := writeDump s part cause code taskid (if cause = 2 then some launch else none)
      let s := s.modPart part (fun p => { p with dumpReq := none })
      if cause ≠ 2 then s
      else
        let gs := groupsOf s launch
        gs.foldl (fun s g => endStops s g.1 g.2) (askStop (releaseDump s part) gs false)

/-- DUMP_WRITE. -/
def execDumpWrite (part : Nat) (s : State) : Host.Outcome State Fault Refusal := .next (dumpNow s part)

/-! ## DUMP and TMARK (R356) -/

def execDump (h : Hdr) (s : State) : Host.Outcome State Fault Refusal :=
  issue { h := h, uniform := true, guestOk := false } s
    { wait := fun s _ => if (s.part s.curPart).dumpReq.isSome then some .dump else none
      run := fun s ls =>
        let l := s.curWarp.launch
        let s1 := parkAfter s (s.members.filter (fun k => ls.contains k || (s.curLane k).state == .ready)) .dump
        let s2 := askStop s1 (groupsOf s1 l) true
        (s2.modPart s.curPart (fun p => { p with
          dumpReq := some (2, 0, BitVec.ofNat 32 (taskidOf s s.cur.core s.cur.slot (ls.headD 0)), l) }), []) }

def execTmark (h : Hdr) (c : BitVec 16) (s : State) : Host.Outcome State Fault Refusal :=
  issue { h := h, uniform := true } s
    (.pure (fun s ls =>
      let l := ls.headD 0
      traceAdd s s.cur.core 6 (s.curLane l).guest.isSome s.cur.slot l (c.toNat * 2 ^ 64 + bits s.cur.hpc.toNat 0 57)))

end Sys2Proof.Machine
end

