-- ==== Sys2Proof/Decode.lean ====
section
/-! DEFINITION. Decoding and encoding of instruction words (03_instruction_words.md R50, R55 to R60, Tables 3-1 to 3-6).
The decoder is total: it answers an instruction or names why the word is none (R59). Values of coded operand fields that
an entry reserves, odd pairs and the like are decoded; the instruction's meaning raises its ILLEGAL_OP (R56, R60). -/

namespace Sys2Proof

open Sys2Proof.Machine (bits b2n)

/-- Why a word is no instruction (R59, Table 3-5). -/
inductive DecodeError where
  /-- A major marked as unassigned in the opcode map. -/
  | unassignedMajor
  /-- A reserved minor. -/
  | reservedMinor
  /-- A non-zero res0 bit. -/
  | nonzeroRes0
  /-- The guard that is never true: GN = 1 with GP = 0. -/
  | neverGuard
  /-- A hint word with S = 1 or a reserved selector (R57). -/
  | badHint
  /-- Fewer than four bytes. -/
  | truncated
  deriving DecidableEq, Repr

/-- The header fields of a word (Table 3-1). -/
def hdrOf (w : Nat) : Hdr := ⟨bits w 31 1 == 1, bits w 23 1 == 1, BitVec.ofNat 3 (bits w 20 3)⟩

/-- The field `[lo + len - 1 : lo]` of a word. -/
def fld (w lo len : Nat) : BitVec len := BitVec.ofNat len (bits w lo len)

/-- An instruction, if the bits that it does not use are zero (R55). -/
def res0 (zero : Bool) (i : Instr) : Except DecodeError Instr := if zero then .ok i else .error .nonzeroRes0

/-- Major 0x00. -/
def decode00 (w : Nat) : Except DecodeError Instr :=
  match bits w 0 2 with
  | 0 => .ok (.iadd (hdrOf w) (fld w 14 6) (fld w 8 6) (fld w 2 6))
  | 1 => .ok (.isub (hdrOf w) (fld w 14 6) (fld w 8 6) (fld w 2 6))
  | 2 => res0 (bits w 2 6 == 0) (.ineg (hdrOf w) (fld w 14 6) (fld w 8 6))
  | 3 => res0 (bits w 2 6 == 0) (.iabs (hdrOf w) (fld w 14 6) (fld w 8 6))
  | _ => .error .reservedMinor

/-- Major 0x01. -/
def decode01 (w : Nat) : Except DecodeError Instr :=
  .ok (.iaddi (hdrOf w) (fld w 14 6) (fld w 8 6) (fld w 0 8))

/-- Major 0x02. -/
def decode02 (w : Nat) : Except DecodeError Instr :=
  match bits w 0 2 with
  | 0 => .ok (.imul (hdrOf w) (fld w 14 6) (fld w 8 6) (fld w 2 6))
  | 1 => .ok (.imulhI32 (hdrOf w) (fld w 14 6) (fld w 8 6) (fld w 2 6))
  | 2 => .ok (.imulhN32 (hdrOf w) (fld w 14 6) (fld w 8 6) (fld w 2 6))
  | _ => .error .reservedMinor

/-- Major 0x03. -/
def decode03 (w : Nat) : Except DecodeError Instr :=
  match bits w 0 2 with
  | 0 => .ok (.imad (hdrOf w) (fld w 14 6) (fld w 8 6) (fld w 2 6))
  | _ => .error .reservedMinor

/-- Major 0x04. -/
def decode04 (w : Nat) : Except DecodeError Instr :=
  match bits w 0 2 with
  | 0 => .ok (.iminI32 (hdrOf w) (fld w 14 6) (fld w 8 6) (fld w 2 6))
  | 1 => .ok (.iminN32 (hdrOf w) (fld w 14 6) (fld w 8 6) (fld w 2 6))
  | 2 => .ok (.imaxI32 (hdrOf w) (fld w 14 6) (fld w 8 6) (fld w 2 6))
  | 3 => .ok (.imaxN32 (hdrOf w) (fld w 14 6) (fld w 8 6) (fld w 2 6))
  | _ => .error .reservedMinor

/-- Major 0x05. -/
def decode05 (w : Nat) : Except DecodeError Instr :=
  match bits w 0 2 with
  | 0 => .ok (.and (hdrOf w) (fld w 14 6) (fld w 8 6) (fld w 2 6))
  | 1 => .ok (.or (hdrOf w) (fld w 14 6) (fld w 8 6) (fld w 2 6))
  | 2 => .ok (.xor (hdrOf w) (fld w 14 6) (fld w 8 6) (fld w 2 6))
  | 3 => .ok (.andn (hdrOf w) (fld w 14 6) (fld w 8 6) (fld w 2 6))
  | _ => .error .reservedMinor

/-- Major 0x06. -/
def decode06 (w : Nat) : Except DecodeError Instr :=
  match bits w 0 2 with
  | 0 => .ok (.orn (hdrOf w) (fld w 14 6) (fld w 8 6) (fld w 2 6))
  | 1 => res0 (bits w 2 6 == 0) (.popc (hdrOf w) (fld w 14 6) (fld w 8 6))
  | 2 => res0 (bits w 2 6 == 0) (.clz (hdrOf w) (fld w 14 6) (fld w 8 6))
  | 3 => res0 (bits w 2 6 == 0) (.brev (hdrOf w) (fld w 14 6) (fld w 8 6))
  | _ => .error .reservedMinor

/-- Major 0x07. -/
def decode07 (w : Nat) : Except DecodeError Instr :=
  match bits w 0 2 with
  | 0 => .ok (.shl (hdrOf w) (fld w 14 6) (fld w 8 6) (fld w 2 6))
  | 1 => .ok (.shr (hdrOf w) (fld w 14 6) (fld w 8 6) (fld w 2 6))
  | 2 => .ok (.sar (hdrOf w) (fld w 14 6) (fld w 8 6) (fld w 2 6))
  | 3 => .ok (.rol (hdrOf w) (fld w 14 6) (fld w 8 6) (fld w 2 6))
  | _ => .error .reservedMinor

/-- Major 0x08. -/
def decode08 (w : Nat) : Except DecodeError Instr :=
  match bits w 0 2 with
  | 0 => .ok (.bfxN32 (hdrOf w) (fld w 14 6) (fld w 8 6) (fld w 2 6))
  | 1 => .ok (.bfxI32 (hdrOf w) (fld w 14 6) (fld w 8 6) (fld w 2 6))
  | 2 => .ok (.bfi (hdrOf w) (fld w 14 6) (fld w 8 6) (fld w 2 6))
  | _ => .error .reservedMinor

/-- Major 0x09. -/
def decode09 (w : Nat) : Except DecodeError Instr :=
  match bits w 0 2 with
  | 0 => .ok (.perm (hdrOf w) (fld w 14 6) (fld w 8 6) (fld w 2 6))
  | _ => .error .reservedMinor

/-- Major 0x0A. -/
def decode0A (w : Nat) : Except DecodeError Instr :=
  .ok (.lea (hdrOf w) (fld w 14 6) (fld w 8 6) (fld w 2 6) (fld w 0 2))

/-- Major 0x0B. -/
def decode0B (w : Nat) : Except DecodeError Instr :=
  match bits w 0 2 with
  | 0 => .ok (.iadd64 (hdrOf w) (fld w 14 6) (fld w 8 6) (fld w 2 6))
  | 1 => .ok (.isub64 (hdrOf w) (fld w 14 6) (fld w 8 6) (fld w 2 6))
  | 2 => .ok (.addc (hdrOf w) (fld w 14 6) (fld w 8 6) (fld w 2 6))
  | _ => .error .reservedMinor

/-- Major 0x10. -/
def decode10 (w : Nat) : Except DecodeError Instr :=
  match bits w 0 2 with
  | 0 => .ok (.sopAdd (hdrOf w) (fld w 14 6) (fld w 8 6) (fld w 2 6))
  | 1 => .ok (.sopSub (hdrOf w) (fld w 14 6) (fld w 8 6) (fld w 2 6))
  | 2 => .ok (.sopMul (hdrOf w) (fld w 14 6) (fld w 8 6) (fld w 2 6))
  | 3 => .ok (.sopAnd (hdrOf w) (fld w 14 6) (fld w 8 6) (fld w 2 6))
  | _ => .error .reservedMinor

/-- Major 0x11. -/
def decode11 (w : Nat) : Except DecodeError Instr :=
  match bits w 0 2 with
  | 0 => .ok (.sopOr (hdrOf w) (fld w 14 6) (fld w 8 6) (fld w 2 6))
  | 1 => .ok (.sopXor (hdrOf w) (fld w 14 6) (fld w 8 6) (fld w 2 6))
  | 2 => .ok (.sopShl (hdrOf w) (fld w 14 6) (fld w 8 6) (fld w 2 6))
  | 3 => .ok (.sopShr (hdrOf w) (fld w 14 6) (fld w 8 6) (fld w 2 6))
  | _ => .error .reservedMinor

/-- Major 0x12. -/
def decode12 (w : Nat) : Except DecodeError Instr :=
  res0 (bits w 9 1 == 0 && bits w 15 1 == 0) (.scmp (hdrOf w) (fld w 16 4) (fld w 10 5) (fld w 4 5) (fld w 0 4))

/-- Major 0x18. -/
def decode18 (w : Nat) : Except DecodeError Instr :=
  res0 (bits w 14 2 == 0) (.icmp (hdrOf w) (fld w 16 4) (fld w 10 4) (fld w 4 6) (fld w 0 4))

/-- Major 0x19. -/
def decode19 (w : Nat) : Except DecodeError Instr :=
  .ok (.icmpi (hdrOf w) (fld w 16 4) (fld w 10 6) (fld w 4 6) (fld w 0 4))

/-- Major 0x1A. -/
def decode1A (w : Nat) : Except DecodeError Instr :=
  match bits w 0 2 with
  | 0 => res0 (bits w 2 6 == 0) (.mov (hdrOf w) (fld w 14 6) (fld w 8 6))
  | _ => .error .reservedMinor

/-- Major 0x1B. -/
def decode1B (w : Nat) : Except DecodeError Instr :=
  .ok (.movi (hdrOf w) (fld w 14 6) (fld w 0 14))

/-- Major 0x1C. -/
def decode1C (w : Nat) : Except DecodeError Instr :=
  match bits w 0 2 with
  | 0 => .ok (.isel (hdrOf w) (fld w 14 6) (fld w 8 6) (fld w 2 6))
  | _ => .error .reservedMinor

/-- Major 0x1D. -/
def decode1D (w : Nat) : Except DecodeError Instr :=
  res0 (bits w 8 2 == 0 && bits w 14 2 == 0) (.plop (hdrOf w) (fld w 16 4) (fld w 10 4) (fld w 4 4) (fld w 0 4))

/-- Major 0x1E. -/
def decode1E (w : Nat) : Except DecodeError Instr :=
  match bits w 0 2 with
  | 0 => res0 (bits w 2 12 == 0) (.pmovFromPw (hdrOf w) (fld w 14 6))
  | 1 => res0 (bits w 2 6 == 0 && bits w 14 6 == 0) (.pmovToPw (hdrOf w) (fld w 8 6))
  | _ => .error .reservedMinor

/-- Major 0x20. -/
def decode20 (w : Nat) : Except DecodeError Instr :=
  match bits w 0 2 with
  | 0 => .ok (.fadd (hdrOf w) (fld w 14 6) (fld w 8 6) (fld w 2 6))
  | 1 => .ok (.fsub (hdrOf w) (fld w 14 6) (fld w 8 6) (fld w 2 6))
  | 2 => .ok (.fmul (hdrOf w) (fld w 14 6) (fld w 8 6) (fld w 2 6))
  | _ => .error .reservedMinor

/-- Major 0x21. -/
def decode21 (w : Nat) : Except DecodeError Instr :=
  match bits w 0 2 with
  | 0 => .ok (.ffma (hdrOf w) (fld w 14 6) (fld w 8 6) (fld w 2 6))
  | _ => .error .reservedMinor

/-- Major 0x22. -/
def decode22 (w : Nat) : Except DecodeError Instr :=
  match bits w 0 2 with
  | 0 => .ok (.fmin (hdrOf w) (fld w 14 6) (fld w 8 6) (fld w 2 6))
  | 1 => .ok (.fmax (hdrOf w) (fld w 14 6) (fld w 8 6) (fld w 2 6))
  | _ => .error .reservedMinor

/-- Major 0x23. -/
def decode23 (w : Nat) : Except DecodeError Instr :=
  match bits w 0 2 with
  | 0 => res0 (bits w 2 6 == 0) (.fmov (hdrOf w) (fld w 14 6) (fld w 8 6))
  | 1 => res0 (bits w 2 6 == 0) (.fmovAbs (hdrOf w) (fld w 14 6) (fld w 8 6))
  | 2 => res0 (bits w 2 6 == 0) (.fmovNeg (hdrOf w) (fld w 14 6) (fld w 8 6))
  | 3 => .ok (.fmovCpsgn (hdrOf w) (fld w 14 6) (fld w 8 6) (fld w 2 6))
  | _ => .error .reservedMinor

/-- Major 0x24. -/
def decode24 (w : Nat) : Except DecodeError Instr :=
  .ok (.fcmp (hdrOf w) (fld w 16 4) (fld w 10 6) (fld w 4 6) (fld w 0 4))

/-- Major 0x25. -/
def decode25 (w : Nat) : Except DecodeError Instr :=
  match bits w 0 2 with
  | 0 => res0 (bits w 2 6 == 0) (.frcp (hdrOf w) (fld w 14 6) (fld w 8 6))
  | 1 => res0 (bits w 2 6 == 0) (.frsq (hdrOf w) (fld w 14 6) (fld w 8 6))
  | 2 => res0 (bits w 2 6 == 0) (.fsqrt (hdrOf w) (fld w 14 6) (fld w 8 6))
  | 3 => res0 (bits w 2 6 == 0) (.fex2 (hdrOf w) (fld w 14 6) (fld w 8 6))
  | _ => .error .reservedMinor

/-- Major 0x26. -/
def decode26 (w : Nat) : Except DecodeError Instr :=
  match bits w 0 2 with
  | 0 => res0 (bits w 2 6 == 0) (.flg2 (hdrOf w) (fld w 14 6) (fld w 8 6))
  | 1 => res0 (bits w 2 6 == 0) (.fsin (hdrOf w) (fld w 14 6) (fld w 8 6))
  | 2 => res0 (bits w 2 6 == 0) (.fcos (hdrOf w) (fld w 14 6) (fld w 8 6))
  | 3 => res0 (bits w 2 6 == 0) (.ftanh (hdrOf w) (fld w 14 6) (fld w 8 6))
  | _ => .error .reservedMinor

/-- Major 0x27. -/
def decode27 (w : Nat) : Except DecodeError Instr :=
  match bits w 0 2 with
  | 0 => .ok (.pkaddF16 (hdrOf w) (fld w 14 6) (fld w 8 6) (fld w 2 6))
  | 1 => .ok (.pkmulF16 (hdrOf w) (fld w 14 6) (fld w 8 6) (fld w 2 6))
  | 2 => .ok (.pkaddBf16 (hdrOf w) (fld w 14 6) (fld w 8 6) (fld w 2 6))
  | 3 => .ok (.pkmulBf16 (hdrOf w) (fld w 14 6) (fld w 8 6) (fld w 2 6))
  | _ => .error .reservedMinor

/-- Major 0x28. -/
def decode28 (w : Nat) : Except DecodeError Instr :=
  match bits w 0 2 with
  | 0 => .ok (.pkfmaF16 (hdrOf w) (fld w 14 6) (fld w 8 6) (fld w 2 6))
  | 1 => .ok (.pkfmaBf16 (hdrOf w) (fld w 14 6) (fld w 8 6) (fld w 2 6))
  | _ => .error .reservedMinor

/-- Major 0x30. -/
def decode30 (w : Nat) : Except DecodeError Instr :=
  .ok (.cvt (hdrOf w) (fld w 14 6) (fld w 8 6) (fld w 3 5) (BitVec.ofNat 5 (bits w 24 2 * 8 + bits w 0 3)))

/-- Major 0x31. -/
def decode31 (w : Nat) : Except DecodeError Instr :=
  .ok (.cvt (hdrOf w) (fld w 14 6) (fld w 8 6) (fld w 3 5) (BitVec.ofNat 5 (bits w 24 2 * 8 + bits w 0 3)))

/-- Major 0x32. -/
def decode32 (w : Nat) : Except DecodeError Instr :=
  .ok (.cvt (hdrOf w) (fld w 14 6) (fld w 8 6) (fld w 3 5) (BitVec.ofNat 5 (bits w 24 2 * 8 + bits w 0 3)))

/-- Major 0x33. -/
def decode33 (w : Nat) : Except DecodeError Instr :=
  .ok (.cvt (hdrOf w) (fld w 14 6) (fld w 8 6) (fld w 3 5) (BitVec.ofNat 5 (bits w 24 2 * 8 + bits w 0 3)))

/-- Major 0x34. -/
def decode34 (w : Nat) : Except DecodeError Instr :=
  match bits w 0 2 with
  | 0 => res0 (bits w 2 6 == 0) (.pack (hdrOf w) (fld w 14 6) (fld w 8 6))
  | _ => .error .reservedMinor

/-- Major 0x35. -/
def decode35 (w : Nat) : Except DecodeError Instr :=
  match bits w 0 2 with
  | 0 => res0 (bits w 2 6 == 0) (.unpk (hdrOf w) (fld w 14 6) (fld w 8 6))
  | _ => .error .reservedMinor

/-- Major 0x36. -/
def decode36 (w : Nat) : Except DecodeError Instr :=
  res0 (bits w 2 6 == 0) (.frnd (hdrOf w) (fld w 14 6) (fld w 8 6) (fld w 0 2))

/-- Major 0x37. -/
def decode37 (w : Nat) : Except DecodeError Instr :=
  match bits w 0 2 with
  | 0 => res0 (bits w 2 3 == 0) (.qblk (hdrOf w) (fld w 14 6) (fld w 8 6) (fld w 5 3))
  | 1 => .ok (.qhad (hdrOf w) (fld w 14 6) (fld w 8 6) (fld w 5 3) (fld w 2 3))
  | 2 => res0 (bits w 2 3 == 0) (.dqblk (hdrOf w) (fld w 14 6) (fld w 8 6) (fld w 5 3))
  | _ => .error .reservedMinor

/-- Major 0x38. -/
def decode38 (w : Nat) : Except DecodeError Instr :=
  match bits w 0 2 with
  | 0 => .ok (.shflLane (hdrOf w) (fld w 14 6) (fld w 8 6) (fld w 2 6))
  | 1 => .ok (.shflRot (hdrOf w) (fld w 14 6) (fld w 8 6) (fld w 2 6))
  | 2 => .ok (.shflMirr (hdrOf w) (fld w 14 6) (fld w 8 6) (fld w 2 6))
  | 3 => .ok (.shflBfly (hdrOf w) (fld w 14 6) (fld w 8 6) (fld w 2 6))
  | _ => .error .reservedMinor

/-- Major 0x39. -/
def decode39 (w : Nat) : Except DecodeError Instr :=
  match bits w 0 4 with
  | 0 => res0 (bits w 4 6 == 0 && bits w 14 2 == 0) (.voteEvery (hdrOf w) (fld w 16 4) (fld w 10 4))
  | 1 => res0 (bits w 4 6 == 0 && bits w 14 2 == 0) (.voteSome (hdrOf w) (fld w 16 4) (fld w 10 4))
  | 2 => res0 (bits w 4 6 == 0 && bits w 14 2 == 0) (.voteSame (hdrOf w) (fld w 16 4) (fld w 10 4))
  | 3 => res0 (bits w 4 6 == 0 && bits w 14 2 == 0) (.voteOdd (hdrOf w) (fld w 16 4) (fld w 10 4))
  | _ => .error .reservedMinor

/-- Major 0x3A. -/
def decode3A (w : Nat) : Except DecodeError Instr :=
  res0 (bits w 0 8 == 0 && bits w 12 2 == 0) (.ballot (hdrOf w) (fld w 14 6) (fld w 8 4))

/-- Major 0x3B. -/
def decode3B (w : Nat) : Except DecodeError Instr :=
  match bits w 0 2 with
  | 0 => res0 (bits w 2 6 == 0) (.matchPeers (hdrOf w) (fld w 14 6) (fld w 8 6))
  | 1 => res0 (bits w 2 6 == 0) (.matchWhole (hdrOf w) (fld w 14 6) (fld w 8 6))
  | _ => .error .reservedMinor

/-- Major 0x3C. -/
def decode3C (w : Nat) : Except DecodeError Instr :=
  res0 (bits w 0 2 == 0) (.redw (hdrOf w) (fld w 14 6) (fld w 8 6) (fld w 5 3) (fld w 2 3))

/-- Major 0x3D. -/
def decode3D (w : Nat) : Except DecodeError Instr :=
  match bits w 0 2 with
  | 0 => .ok (.scanw (hdrOf w) (fld w 14 6) (fld w 8 6) (fld w 5 3) (fld w 2 3))
  | 1 => .ok (.scanwExcl (hdrOf w) (fld w 14 6) (fld w 8 6) (fld w 5 3) (fld w 2 3))
  | _ => .error .reservedMinor

/-- Major 0x3E. -/
def decode3E (w : Nat) : Except DecodeError Instr :=
  match bits w 0 2 with
  | 0 => res0 (bits w 2 6 == 0) (.smovS (hdrOf w) (fld w 14 6) (fld w 8 6))
  | 1 => res0 (bits w 2 6 == 0) (.smovG (hdrOf w) (fld w 14 6) (fld w 8 6))
  | _ => .error .reservedMinor

/-- Major 0x40. -/
def decode40 (w : Nat) : Except DecodeError Instr :=
  .ok (.bra (hdrOf w) (fld w 0 20))

/-- Major 0x41. -/
def decode41 (w : Nat) : Except DecodeError Instr :=
  .ok (.call (hdrOf w) (fld w 16 4) (fld w 0 16))

/-- Major 0x42. -/
def decode42 (w : Nat) : Except DecodeError Instr :=
  match bits w 0 2 with
  | 0 => res0 (bits w 2 6 == 0 && bits w 14 6 == 0) (.brax (hdrOf w) (fld w 8 6))
  | 1 => res0 (bits w 6 2 == 0 && bits w 14 6 == 0) (.callx (hdrOf w) (fld w 8 6) (fld w 2 4))
  | 2 => res0 (bits w 2 18 == 0) (.ret (hdrOf w))
  | _ => .error .reservedMinor

/-- Major 0x43. -/
def decode43 (w : Nat) : Except DecodeError Instr :=
  match bits w 0 2 with
  | 0 => res0 (bits w 2 14 == 0) (.join (hdrOf w) (fld w 16 4))
  | 1 => res0 (bits w 2 14 == 0) (.leave (hdrOf w) (fld w 16 4))
  | 2 => res0 (bits w 2 14 == 0) (.waitm (hdrOf w) (fld w 16 4))
  | _ => .error .reservedMinor

/-- Major 0x44. -/
def decode44 (w : Nat) : Except DecodeError Instr :=
  match bits w 13 3 with
  | 0 => res0 (bits w 0 6 == 0 && bits w 12 1 == 0) (.mopSet (hdrOf w) (fld w 16 4) (fld w 6 6))
  | 1 => res0 (bits w 0 4 == 0 && bits w 12 1 == 0) (.mopAnd (hdrOf w) (fld w 16 4) (fld w 8 4) (fld w 4 4))
  | 2 => res0 (bits w 0 4 == 0 && bits w 12 1 == 0) (.mopOr (hdrOf w) (fld w 16 4) (fld w 8 4) (fld w 4 4))
  | 3 => res0 (bits w 0 4 == 0 && bits w 12 1 == 0) (.mopAndn (hdrOf w) (fld w 16 4) (fld w 8 4) (fld w 4 4))
  | 4 => res0 (bits w 0 13 == 0) (.mopBatch (hdrOf w) (fld w 16 4))
  | 5 => res0 (bits w 0 8 == 0 && bits w 12 1 == 0) (.mopBallot (hdrOf w) (fld w 16 4) (fld w 8 4))
  | _ => .error .reservedMinor

/-- Major 0x45. -/
def decode45 (w : Nat) : Except DecodeError Instr :=
  res0 (bits w 0 4 == 0) (.fspawn (hdrOf w) (fld w 16 4) (fld w 10 6) (fld w 4 6))

/-- Major 0x46. -/
def decode46 (w : Nat) : Except DecodeError Instr :=
  match bits w 0 2 with
  | 0 => res0 (bits w 2 18 == 0) (.fend (hdrOf w))
  | 1 => res0 (bits w 2 18 == 0) (.exit (hdrOf w))
  | 2 => res0 (bits w 2 18 == 0) (.yield (hdrOf w))
  | 3 => res0 (bits w 2 6 == 0 && bits w 14 6 == 0) (.nap (hdrOf w) (fld w 8 6))
  | _ => .error .reservedMinor

/-- Major 0x47. -/
def decode47 (w : Nat) : Except DecodeError Instr :=
  res0 (bits w 16 4 == 0) (.safe (hdrOf w) (fld w 0 16))

/-- Major 0x48. -/
def decode48 (w : Nat) : Except DecodeError Instr :=
  res0 (bits w 16 4 == 0) (.trap (hdrOf w) (fld w 0 16))

/-- Major 0x49. -/
def decode49 (w : Nat) : Except DecodeError Instr :=
  match bits w 0 2 with
  | 0 => res0 (bits w 2 6 == 0 && bits w 14 6 == 0) (.tretResume (hdrOf w) (fld w 8 6))
  | 1 => res0 (bits w 2 6 == 0 && bits w 14 6 == 0) (.tretSkip (hdrOf w) (fld w 8 6))
  | 2 => res0 (bits w 2 6 == 0 && bits w 14 6 == 0) (.tretEnd (hdrOf w) (fld w 8 6))
  | _ => .error .reservedMinor

/-- Major 0x50. -/
def decode50 (w : Nat) : Except DecodeError Instr :=
  .ok (.ldb (hdrOf w) (fld w 14 6) (fld w 8 6) (fld w 5 3) (fld w 0 5))

/-- Major 0x51. -/
def decode51 (w : Nat) : Except DecodeError Instr :=
  .ok (.ldh (hdrOf w) (fld w 14 6) (fld w 8 6) (fld w 5 3) (fld w 0 5))

/-- Major 0x52. -/
def decode52 (w : Nat) : Except DecodeError Instr :=
  .ok (.ldw (hdrOf w) (fld w 14 6) (fld w 8 6) (fld w 5 3) (fld w 0 5))

/-- Major 0x53. -/
def decode53 (w : Nat) : Except DecodeError Instr :=
  .ok (.ldd (hdrOf w) (fld w 14 6) (fld w 8 6) (fld w 5 3) (fld w 0 5))

/-- Major 0x54. -/
def decode54 (w : Nat) : Except DecodeError Instr :=
  .ok (.ldq (hdrOf w) (fld w 14 6) (fld w 8 6) (fld w 5 3) (fld w 0 5))

/-- Major 0x55. -/
def decode55 (w : Nat) : Except DecodeError Instr :=
  .ok (.stb (hdrOf w) (fld w 14 6) (fld w 8 6) (fld w 5 3) (fld w 0 5))

/-- Major 0x56. -/
def decode56 (w : Nat) : Except DecodeError Instr :=
  .ok (.sth (hdrOf w) (fld w 14 6) (fld w 8 6) (fld w 5 3) (fld w 0 5))

/-- Major 0x57. -/
def decode57 (w : Nat) : Except DecodeError Instr :=
  .ok (.stw (hdrOf w) (fld w 14 6) (fld w 8 6) (fld w 5 3) (fld w 0 5))

/-- Major 0x58. -/
def decode58 (w : Nat) : Except DecodeError Instr :=
  .ok (.std (hdrOf w) (fld w 14 6) (fld w 8 6) (fld w 5 3) (fld w 0 5))

/-- Major 0x59. -/
def decode59 (w : Nat) : Except DecodeError Instr :=
  .ok (.stq (hdrOf w) (fld w 14 6) (fld w 8 6) (fld w 5 3) (fld w 0 5))

/-- Major 0x5A. -/
def decode5A (w : Nat) : Except DecodeError Instr :=
  .ok (.stn (hdrOf w) (fld w 14 6) (fld w 8 6) (fld w 7 1) (fld w 5 2) (fld w 0 5))

/-- Major 0x5B. -/
def decode5B (w : Nat) : Except DecodeError Instr :=
  res0 (bits w 0 3 == 0) (.atom (hdrOf w) (fld w 14 6) (fld w 8 6) (fld w 5 3) (fld w 3 2))

/-- Major 0x5C. -/
def decode5C (w : Nat) : Except DecodeError Instr :=
  res0 (bits w 0 5 == 0) (.atomf (hdrOf w) (fld w 14 6) (fld w 8 6) (fld w 5 3))

/-- Major 0x5D. -/
def decode5D (w : Nat) : Except DecodeError Instr :=
  match bits w 0 2 with
  | 0 => .ok (.cas (hdrOf w) (fld w 14 6) (fld w 8 6) (fld w 2 6))
  | 1 => .ok (.casD (hdrOf w) (fld w 14 6) (fld w 8 6) (fld w 2 6))
  | 2 => .ok (.casQ (hdrOf w) (fld w 14 6) (fld w 8 6) (fld w 2 6))
  | _ => .error .reservedMinor

/-- Major 0x5E. -/
def decode5E (w : Nat) : Except DecodeError Instr :=
  res0 (bits w 0 2 == 0 && bits w 14 1 == 0) (.red (hdrOf w) (fld w 17 3) (fld w 15 2) (fld w 8 6) (fld w 2 6))

/-- Major 0x5F. -/
def decode5F (w : Nat) : Except DecodeError Instr :=
  match bits w 16 4 with
  | 0 => res0 (bits w 0 11 == 0) (.phase (hdrOf w) (fld w 14 2) (fld w 11 3))
  | 1 => res0 (bits w 0 11 == 0 && bits w 14 2 == 0) (.pfence (hdrOf w) (fld w 11 3))
  | 2 => res0 (bits w 0 8 == 0 && bits w 14 2 == 0) (.cwb (hdrOf w) (fld w 8 6))
  | 3 => res0 (bits w 0 8 == 0 && bits w 14 2 == 0) (.cinv (hdrOf w) (fld w 8 6))
  | 4 => res0 (bits w 0 8 == 0 && bits w 14 2 == 0) (.zline (hdrOf w) (fld w 8 6))
  | 5 => res0 (bits w 2 6 == 0 && bits w 14 2 == 0) (.pref (hdrOf w) (fld w 8 6) (fld w 0 2))
  | 6 => res0 (bits w 0 8 == 0 && bits w 14 2 == 0) (.pgreq (hdrOf w) (fld w 8 6))
  | 7 => res0 (bits w 0 4 == 0 && bits w 14 2 == 0) (.pgprobe (hdrOf w) (fld w 8 6) (fld w 4 4))
  | _ => .error .reservedMinor

/-- Major 0x60. -/
def decode60 (w : Nat) : Except DecodeError Instr :=
  res0 (bits w 1 3 == 0 && bits w 8 4 == 0) (.acpy (hdrOf w) (fld w 16 4) (fld w 12 4) (fld w 4 4) (fld w 0 1))

/-- Major 0x61. -/
def decode61 (w : Nat) : Except DecodeError Instr :=
  res0 (bits w 1 3 == 0 && bits w 8 4 == 0) (.acpym (hdrOf w) (fld w 16 4) (fld w 12 4) (fld w 4 4) (fld w 0 1))

/-- Major 0x62. -/
def decode62 (w : Nat) : Except DecodeError Instr :=
  res0 (bits w 1 3 == 0 && bits w 8 8 == 0) (.afill (hdrOf w) (fld w 16 4) (fld w 4 4) (fld w 0 1))

/-- Major 0x63. -/
def decode63 (w : Nat) : Except DecodeError Instr :=
  res0 (bits w 1 3 == 0) (.agthr (hdrOf w) (fld w 16 4) (fld w 12 4) (fld w 8 4) (fld w 4 4) (fld w 0 1))

/-- Major 0x64. -/
def decode64 (w : Nat) : Except DecodeError Instr :=
  match bits w 0 2 with
  | 0 => res0 (bits w 14 6 == 0) (.chain (hdrOf w) (fld w 8 6) (fld w 2 6))
  | _ => .error .reservedMinor

/-- Major 0x68. -/
def decode68 (w : Nat) : Except DecodeError Instr :=
  match bits w 0 2 with
  | 0 => res0 (bits w 2 6 == 0) (.balloc (hdrOf w) (fld w 14 6) (fld w 8 6))
  | 1 => res0 (bits w 2 6 == 0 && bits w 14 6 == 0) (.bfree (hdrOf w) (fld w 8 6))
  | 2 => res0 (bits w 14 6 == 0) (.bmode (hdrOf w) (fld w 8 6) (fld w 2 6))
  | 3 => res0 (bits w 2 6 == 0) (.bstat (hdrOf w) (fld w 14 6) (fld w 8 6))
  | _ => .error .reservedMinor

/-- Major 0x69. -/
def decode69 (w : Nat) : Except DecodeError Instr :=
  .ok (.mloop (hdrOf w) (fld w 16 4) (fld w 12 4) (fld w 8 4) (fld w 4 4) (fld w 0 4))

/-- Major 0x6A. -/
def decode6A (w : Nat) : Except DecodeError Instr :=
  match bits w 0 2 with
  | 0 => res0 (bits w 2 6 == 0) (.accrd (hdrOf w) (fld w 14 6) (fld w 8 6))
  | 1 => res0 (bits w 14 6 == 0) (.accld (hdrOf w) (fld w 8 6) (fld w 2 6))
  | 2 => res0 (bits w 2 6 == 0 && bits w 14 6 == 0) (.accclr (hdrOf w) (fld w 8 6))
  | _ => .error .reservedMinor

/-- Major 0x6B. -/
def decode6B (w : Nat) : Except DecodeError Instr :=
  res0 (bits w 2 2 == 0 && bits w 8 4 == 0) (.accst (hdrOf w) (fld w 16 4) (fld w 12 4) (fld w 4 4) (fld w 0 2))

/-- Major 0x6C. -/
def decode6C (w : Nat) : Except DecodeError Instr :=
  match bits w 0 2 with
  | 0 => res0 (bits w 2 6 == 0 && bits w 14 6 == 0) (.bchk (hdrOf w) (fld w 8 6))
  | _ => .error .reservedMinor

/-- Major 0x70. -/
def decode70 (w : Nat) : Except DecodeError Instr :=
  res0 (bits w 0 4 == 0 && bits w 8 4 == 0) (.rcopy (hdrOf w) (fld w 16 4) (fld w 12 4) (fld w 4 4))

/-- Major 0x71. -/
def decode71 (w : Nat) : Except DecodeError Instr :=
  match bits w 0 4 with
  | 8 => .ok (.rbitAnd (hdrOf w) (fld w 16 4) (fld w 12 4) (fld w 8 4) (fld w 4 4))
  | 9 => .ok (.rbitOr (hdrOf w) (fld w 16 4) (fld w 12 4) (fld w 8 4) (fld w 4 4))
  | 10 => .ok (.rbitMaj3 (hdrOf w) (fld w 16 4) (fld w 12 4) (fld w 8 4) (fld w 4 4))
  | 11 => res0 (bits w 8 4 == 0) (.rbitNot (hdrOf w) (fld w 16 4) (fld w 12 4) (fld w 4 4))
  | 12 => .ok (.rbitXor (hdrOf w) (fld w 16 4) (fld w 12 4) (fld w 8 4) (fld w 4 4))
  | 13 => .error .reservedMinor
  | 14 => .error .reservedMinor
  | 15 => .error .reservedMinor
  | _ => res0 (bits w 1 2 == 0 && bits w 8 8 == 0) (.rfill (hdrOf w) (fld w 16 4) (fld w 4 4) (fld w 0 1))

/-- Major 0x72. -/
def decode72 (w : Nat) : Except DecodeError Instr :=
  res0 (bits w 0 4 == 0) (.nmx (hdrOf w) (fld w 16 4) (fld w 12 4) (fld w 8 4) (fld w 4 4))

/-- Major 0x73. -/
def decode73 (w : Nat) : Except DecodeError Instr :=
  res0 (bits w 3 1 == 0) (.nseg (hdrOf w) (fld w 16 4) (fld w 12 4) (fld w 8 4) (fld w 4 4) (fld w 2 1) (fld w 0 2))

/-- Major 0x74. -/
def decode74 (w : Nat) : Except DecodeError Instr :=
  match bits w 0 2 with
  | 0 => .ok (.mbbind (hdrOf w) (fld w 14 6) (fld w 8 6) (fld w 2 6))
  | 1 => res0 (bits w 2 6 == 0) (.mbfree (hdrOf w) (fld w 14 6) (fld w 8 6))
  | 2 => .ok (.mbpost (hdrOf w) (fld w 14 6) (fld w 8 6) (fld w 2 6))
  | _ => .error .reservedMinor

/-- Major 0x75. -/
def decode75 (w : Nat) : Except DecodeError Instr :=
  match bits w 0 2 with
  | 0 => res0 (bits w 14 6 == 0) (.qput (hdrOf w) (fld w 8 6) (fld w 2 6))
  | 1 => .ok (.qtake (hdrOf w) (fld w 14 6) (fld w 8 6) (fld w 2 6))
  | 2 => res0 (bits w 8 6 == 0) (.qstat (hdrOf w) (fld w 14 6) (fld w 2 6))
  | _ => .error .reservedMinor

/-- Major 0x76. -/
def decode76 (w : Nat) : Except DecodeError Instr :=
  .ok (.efork (hdrOf w) (fld w 14 6) (fld w 0 14))

/-- Major 0x77. -/
def decode77 (w : Nat) : Except DecodeError Instr :=
  res0 (bits w 0 20 == 0) (.erdv (hdrOf w))

/-- Major 0x78. -/
def decode78 (w : Nat) : Except DecodeError Instr :=
  match bits w 0 1 with
  | 0 => res0 (bits w 1 3 == 0) (.cwait (hdrOf w) (fld w 16 4) (fld w 10 6) (fld w 4 6))
  | 1 => res0 (bits w 1 3 == 0) (.ctest (hdrOf w) (fld w 16 4) (fld w 10 6) (fld w 4 6))
  | _ => .error .reservedMinor

/-- Major 0x79. -/
def decode79 (w : Nat) : Except DecodeError Instr :=
  match bits w 17 3 with
  | 0 => res0 (bits w 0 2 == 0 && bits w 14 3 == 0) (.bwinit (hdrOf w) (fld w 8 6) (fld w 2 6))
  | 1 => res0 (bits w 0 2 == 0 && bits w 14 3 == 0) (.bwarr (hdrOf w) (fld w 8 6) (fld w 2 6))
  | 2 => res0 (bits w 0 2 == 0 && bits w 14 3 == 0) (.bwwait (hdrOf w) (fld w 8 6) (fld w 2 6))
  | 3 => res0 (bits w 0 2 == 0) (.bwtest (hdrOf w) (fld w 14 3) (fld w 8 6) (fld w 2 6))
  | 4 => res0 (bits w 0 8 == 0 && bits w 14 3 == 0) (.bwdrop (hdrOf w) (fld w 8 6))
  | _ => .error .reservedMinor

/-- Major 0x7A. -/
def decode7A (w : Nat) : Except DecodeError Instr :=
  match bits w 18 2 with
  | 0 => res0 (bits w 0 12 == 0) (.lbarv (hdrOf w) (fld w 12 6))
  | 1 => res0 (bits w 0 12 == 0) (.lbwait (hdrOf w) (fld w 12 6))
  | 2 => res0 (bits w 0 6 == 0) (.lbset (hdrOf w) (fld w 12 6) (fld w 6 6))
  | _ => .error .reservedMinor

/-- Major 0x7B. -/
def decode7B (w : Nat) : Except DecodeError Instr :=
  match bits w 0 2 with
  | 0 => res0 (bits w 2 6 == 0 && bits w 14 6 == 0) (.migto (hdrOf w) (fld w 8 6))
  | 1 => res0 (bits w 2 18 == 0) (.migret (hdrOf w))
  | 2 => res0 (bits w 2 14 == 0) (.regrp (hdrOf w) (fld w 16 4))
  | _ => .error .reservedMinor

/-- Major 0x7C. -/
def decode7C (w : Nat) : Except DecodeError Instr :=
  match bits w 0 2 with
  | 0 => res0 (bits w 2 6 == 0 && bits w 14 2 == 0) (.shld (hdrOf w) (fld w 16 4) (fld w 8 6))
  | 1 => res0 (bits w 2 6 == 0 && bits w 14 2 == 0) (.shst (hdrOf w) (fld w 16 4) (fld w 8 6))
  | 2 => res0 (bits w 14 2 == 0) (.shget (hdrOf w) (fld w 16 4) (fld w 8 6) (fld w 2 6))
  | 3 => res0 (bits w 14 2 == 0) (.shset (hdrOf w) (fld w 16 4) (fld w 8 6) (fld w 2 6))
  | _ => .error .reservedMinor

/-- Major 0x7D. -/
def decode7D (w : Nat) : Except DecodeError Instr :=
  match bits w 0 2 with
  | 0 => .ok (.csrr (hdrOf w) (fld w 14 6) (fld w 2 12))
  | 1 => .ok (.csrw (hdrOf w) (fld w 14 6) (fld w 2 12))
  | 2 => .ok (.csrs (hdrOf w) (fld w 14 6) (fld w 2 12))
  | 3 => .ok (.csrc (hdrOf w) (fld w 14 6) (fld w 2 12))
  | _ => .error .reservedMinor

/-- Major 0x7E. -/
def decode7E (w : Nat) : Except DecodeError Instr :=
  if bits w 31 1 == 1 then .error .badHint else
  match bits w 20 4 with
  | 0 => .ok (.immx (fld w 0 20))
  | 1 => if bits w 19 1 == 0 then res0 (bits w 6 13 == 0) (.opndReg (fld w 0 6)) else res0 (bits w 4 15 == 0) (.opndPred (fld w 0 4))
  | 2 => res0 (bits w 0 6 == 0) (.modr (fld w 19 1) (fld w 17 2) (fld w 16 1) (fld w 13 3) (fld w 10 3) (fld w 8 2) (fld w 6 2))
  | 3 => res0 (bits w 0 16 == 0) (.schd (fld w 19 1) (fld w 16 3))
  | 4 => res0 (bits w 4 16 == 0) (.ecls (fld w 0 4))
  | _ => .error .badHint

/-- Major 0x7F. -/
def decode7F (w : Nat) : Except DecodeError Instr :=
  match bits w 16 4 with
  | 0 => res0 (bits w 0 16 == 0) (.dump (hdrOf w))
  | 1 => .ok (.tmark (hdrOf w) (fld w 0 16))
  | 15 => .ok (.brk (fld w 31 1) (fld w 20 4) (fld w 0 16))
  | _ => .error .reservedMinor

/-- The major opcode map (Table 3-6). -/
def decodeMajor (w : Nat) : Except DecodeError Instr :=
  match bits w 24 7 with
  | 0 => decode00 w
  | 1 => decode01 w
  | 2 => decode02 w
  | 3 => decode03 w
  | 4 => decode04 w
  | 5 => decode05 w
  | 6 => decode06 w
  | 7 => decode07 w
  | 8 => decode08 w
  | 9 => decode09 w
  | 10 => decode0A w
  | 11 => decode0B w
  | 16 => decode10 w
  | 17 => decode11 w
  | 18 => decode12 w
  | 24 => decode18 w
  | 25 => decode19 w
  | 26 => decode1A w
  | 27 => decode1B w
  | 28 => decode1C w
  | 29 => decode1D w
  | 30 => decode1E w
  | 32 => decode20 w
  | 33 => decode21 w
  | 34 => decode22 w
  | 35 => decode23 w
  | 36 => decode24 w
  | 37 => decode25 w
  | 38 => decode26 w
  | 39 => decode27 w
  | 40 => decode28 w
  | 48 => decode30 w
  | 49 => decode31 w
  | 50 => decode32 w
  | 51 => decode33 w
  | 52 => decode34 w
  | 53 => decode35 w
  | 54 => decode36 w
  | 55 => decode37 w
  | 56 => decode38 w
  | 57 => decode39 w
  | 58 => decode3A w
  | 59 => decode3B w
  | 60 => decode3C w
  | 61 => decode3D w
  | 62 => decode3E w
  | 64 => decode40 w
  | 65 => decode41 w
  | 66 => decode42 w
  | 67 => decode43 w
  | 68 => decode44 w
  | 69 => decode45 w
  | 70 => decode46 w
  | 71 => decode47 w
  | 72 => decode48 w
  | 73 => decode49 w
  | 80 => decode50 w
  | 81 => decode51 w
  | 82 => decode52 w
  | 83 => decode53 w
  | 84 => decode54 w
  | 85 => decode55 w
  | 86 => decode56 w
  | 87 => decode57 w
  | 88 => decode58 w
  | 89 => decode59 w
  | 90 => decode5A w
  | 91 => decode5B w
  | 92 => decode5C w
  | 93 => decode5D w
  | 94 => decode5E w
  | 95 => decode5F w
  | 96 => decode60 w
  | 97 => decode61 w
  | 98 => decode62 w
  | 99 => decode63 w
  | 100 => decode64 w
  | 104 => decode68 w
  | 105 => decode69 w
  | 106 => decode6A w
  | 107 => decode6B w
  | 108 => decode6C w
  | 112 => decode70 w
  | 113 => decode71 w
  | 114 => decode72 w
  | 115 => decode73 w
  | 116 => decode74 w
  | 117 => decode75 w
  | 118 => decode76 w
  | 119 => decode77 w
  | 120 => decode78 w
  | 121 => decode79 w
  | 122 => decode7A w
  | 123 => decode7B w
  | 124 => decode7C w
  | 125 => decode7D w
  | 126 => decode7E w
  | 127 => decode7F w
  | _ => .error .unassignedMajor

/-- Whether a word carries a guard: every word but a hint and the BRK form (R50, R59). -/
def guarded (w : Nat) : Bool := bits w 24 7 != 0x7E && !(bits w 24 7 == 0x7F && bits w 16 4 == 15)

/-- The instruction that a word encodes, or why it encodes none. -/
def decodeNat (w : Nat) : Except DecodeError Instr :=
  if guarded w && bits w 23 1 == 1 && bits w 20 3 == 0 then .error .neverGuard else decodeMajor w

/-- The instruction of a 32-bit word. -/
def decode (w : Word) : Except DecodeError Instr := decodeNat w.toNat

/-- Decoding of a byte stream: the instruction of the first four bytes, little-endian (R7), and the bytes after it. -/
def decodeBytes (bs : List Byte) : Except DecodeError (Instr × List Byte) :=
  match bs with
  | b0 :: b1 :: b2 :: b3 :: rest =>
    match decodeNat (b0.toNat + 256 * b1.toNat + 65536 * b2.toNat + 16777216 * b3.toNat) with
    | .ok i => .ok (i, rest)
    | .error e => .error e
  | _ => .error .truncated

/-- The instruction that the decoder reads from a word numbered as the table numbers it, laid out as the hardware stores it
(one 32-bit word, little-endian, R7). -/
def decodeTableWord (_nbits w : Nat) : Option Instr :=
  match decodeBytes (Sys2Proof.Machine.bytesLE 4 w) with
  | .ok (i, _) => some i
  | .error _ => none

/-! ## Encoding -/

/-- The header bits of a word (Table 3-1). -/
def Hdr.enc (h : Hdr) : Nat := b2n h.s * 2147483648 + b2n h.gn * 8388608 + h.gp.toNat * 1048576

/-- The word of an instruction as a number; `none` for the events and commands, which have no word. -/
def encodeNat : Instr → Option Nat
  | .iadd h d a b => some (h.enc + d.toNat * 16384 + a.toNat * 256 + b.toNat * 4)
  | .isub h d a b => some (h.enc + 1 + d.toNat * 16384 + a.toNat * 256 + b.toNat * 4)
  | .ineg h d a => some (h.enc + 2 + d.toNat * 16384 + a.toNat * 256)
  | .iabs h d a => some (h.enc + 3 + d.toNat * 16384 + a.toNat * 256)
  | .iaddi h d a i => some (h.enc + 16777216 + d.toNat * 16384 + a.toNat * 256 + i.toNat)
  | .imul h d a b => some (h.enc + 33554432 + d.toNat * 16384 + a.toNat * 256 + b.toNat * 4)
  | .imulhI32 h d a b => some (h.enc + 33554433 + d.toNat * 16384 + a.toNat * 256 + b.toNat * 4)
  | .imulhN32 h d a b => some (h.enc + 33554434 + d.toNat * 16384 + a.toNat * 256 + b.toNat * 4)
  | .imad h d a b => some (h.enc + 50331648 + d.toNat * 16384 + a.toNat * 256 + b.toNat * 4)
  | .iminI32 h d a b => some (h.enc + 67108864 + d.toNat * 16384 + a.toNat * 256 + b.toNat * 4)
  | .iminN32 h d a b => some (h.enc + 67108865 + d.toNat * 16384 + a.toNat * 256 + b.toNat * 4)
  | .imaxI32 h d a b => some (h.enc + 67108866 + d.toNat * 16384 + a.toNat * 256 + b.toNat * 4)
  | .imaxN32 h d a b => some (h.enc + 67108867 + d.toNat * 16384 + a.toNat * 256 + b.toNat * 4)
  | .and h d a b => some (h.enc + 83886080 + d.toNat * 16384 + a.toNat * 256 + b.toNat * 4)
  | .or h d a b => some (h.enc + 83886081 + d.toNat * 16384 + a.toNat * 256 + b.toNat * 4)
  | .xor h d a b => some (h.enc + 83886082 + d.toNat * 16384 + a.toNat * 256 + b.toNat * 4)
  | .andn h d a b => some (h.enc + 83886083 + d.toNat * 16384 + a.toNat * 256 + b.toNat * 4)
  | .orn h d a b => some (h.enc + 100663296 + d.toNat * 16384 + a.toNat * 256 + b.toNat * 4)
  | .popc h d a => some (h.enc + 100663297 + d.toNat * 16384 + a.toNat * 256)
  | .clz h d a => some (h.enc + 100663298 + d.toNat * 16384 + a.toNat * 256)
  | .brev h d a => some (h.enc + 100663299 + d.toNat * 16384 + a.toNat * 256)
  | .shl h d a b => some (h.enc + 117440512 + d.toNat * 16384 + a.toNat * 256 + b.toNat * 4)
  | .shr h d a b => some (h.enc + 117440513 + d.toNat * 16384 + a.toNat * 256 + b.toNat * 4)
  | .sar h d a b => some (h.enc + 117440514 + d.toNat * 16384 + a.toNat * 256 + b.toNat * 4)
  | .rol h d a b => some (h.enc + 117440515 + d.toNat * 16384 + a.toNat * 256 + b.toNat * 4)
  | .bfxN32 h d a b => some (h.enc + 134217728 + d.toNat * 16384 + a.toNat * 256 + b.toNat * 4)
  | .bfxI32 h d a b => some (h.enc + 134217729 + d.toNat * 16384 + a.toNat * 256 + b.toNat * 4)
  | .bfi h d a b => some (h.enc + 134217730 + d.toNat * 16384 + a.toNat * 256 + b.toNat * 4)
  | .perm h d a b => some (h.enc + 150994944 + d.toNat * 16384 + a.toNat * 256 + b.toNat * 4)
  | .lea h d a b hf => some (h.enc + 167772160 + d.toNat * 16384 + a.toNat * 256 + b.toNat * 4 + hf.toNat)
  | .iadd64 h d a b => some (h.enc + 184549376 + d.toNat * 16384 + a.toNat * 256 + b.toNat * 4)
  | .isub64 h d a b => some (h.enc + 184549377 + d.toNat * 16384 + a.toNat * 256 + b.toNat * 4)
  | .addc h d a b => some (h.enc + 184549378 + d.toNat * 16384 + a.toNat * 256 + b.toNat * 4)
  | .sopAdd h d a b => some (h.enc + 268435456 + d.toNat * 16384 + a.toNat * 256 + b.toNat * 4)
  | .sopSub h d a b => some (h.enc + 268435457 + d.toNat * 16384 + a.toNat * 256 + b.toNat * 4)
  | .sopMul h d a b => some (h.enc + 268435458 + d.toNat * 16384 + a.toNat * 256 + b.toNat * 4)
  | .sopAnd h d a b => some (h.enc + 268435459 + d.toNat * 16384 + a.toNat * 256 + b.toNat * 4)
  | .sopOr h d a b => some (h.enc + 285212672 + d.toNat * 16384 + a.toNat * 256 + b.toNat * 4)
  | .sopXor h d a b => some (h.enc + 285212673 + d.toNat * 16384 + a.toNat * 256 + b.toNat * 4)
  | .sopShl h d a b => some (h.enc + 285212674 + d.toNat * 16384 + a.toNat * 256 + b.toNat * 4)
  | .sopShr h d a b => some (h.enc + 285212675 + d.toNat * 16384 + a.toNat * 256 + b.toNat * 4)
  | .scmp h q a b c => some (h.enc + 301989888 + q.toNat * 65536 + a.toNat * 1024 + b.toNat * 16 + c.toNat)
  | .icmp h q a b c => some (h.enc + 402653184 + q.toNat * 65536 + a.toNat * 1024 + b.toNat * 16 + c.toNat)
  | .icmpi h q a i c => some (h.enc + 419430400 + q.toNat * 65536 + a.toNat * 1024 + i.toNat * 16 + c.toNat)
  | .mov h d a => some (h.enc + 436207616 + d.toNat * 16384 + a.toNat * 256)
  | .movi h d i => some (h.enc + 452984832 + d.toNat * 16384 + i.toNat)
  | .isel h d a b => some (h.enc + 469762048 + d.toNat * 16384 + a.toNat * 256 + b.toNat * 4)
  | .plop h q a b c => some (h.enc + 486539264 + q.toNat * 65536 + a.toNat * 1024 + b.toNat * 16 + c.toNat)
  | .pmovFromPw h d => some (h.enc + 503316480 + d.toNat * 16384)
  | .pmovToPw h a => some (h.enc + 503316481 + a.toNat * 256)
  | .fadd h d a b => some (h.enc + 536870912 + d.toNat * 16384 + a.toNat * 256 + b.toNat * 4)
  | .fsub h d a b => some (h.enc + 536870913 + d.toNat * 16384 + a.toNat * 256 + b.toNat * 4)
  | .fmul h d a b => some (h.enc + 536870914 + d.toNat * 16384 + a.toNat * 256 + b.toNat * 4)
  | .ffma h d a b => some (h.enc + 553648128 + d.toNat * 16384 + a.toNat * 256 + b.toNat * 4)
  | .fmin h d a b => some (h.enc + 570425344 + d.toNat * 16384 + a.toNat * 256 + b.toNat * 4)
  | .fmax h d a b => some (h.enc + 570425345 + d.toNat * 16384 + a.toNat * 256 + b.toNat * 4)
  | .fmov h d a => some (h.enc + 587202560 + d.toNat * 16384 + a.toNat * 256)
  | .fmovAbs h d a => some (h.enc + 587202561 + d.toNat * 16384 + a.toNat * 256)
  | .fmovNeg h d a => some (h.enc + 587202562 + d.toNat * 16384 + a.toNat * 256)
  | .fmovCpsgn h d a b => some (h.enc + 587202563 + d.toNat * 16384 + a.toNat * 256 + b.toNat * 4)
  | .fcmp h q a b c => some (h.enc + 603979776 + q.toNat * 65536 + a.toNat * 1024 + b.toNat * 16 + c.toNat)
  | .frcp h d a => some (h.enc + 620756992 + d.toNat * 16384 + a.toNat * 256)
  | .frsq h d a => some (h.enc + 620756993 + d.toNat * 16384 + a.toNat * 256)
  | .fsqrt h d a => some (h.enc + 620756994 + d.toNat * 16384 + a.toNat * 256)
  | .fex2 h d a => some (h.enc + 620756995 + d.toNat * 16384 + a.toNat * 256)
  | .flg2 h d a => some (h.enc + 637534208 + d.toNat * 16384 + a.toNat * 256)
  | .fsin h d a => some (h.enc + 637534209 + d.toNat * 16384 + a.toNat * 256)
  | .fcos h d a => some (h.enc + 637534210 + d.toNat * 16384 + a.toNat * 256)
  | .ftanh h d a => some (h.enc + 637534211 + d.toNat * 16384 + a.toNat * 256)
  | .pkaddF16 h d a b => some (h.enc + 654311424 + d.toNat * 16384 + a.toNat * 256 + b.toNat * 4)
  | .pkmulF16 h d a b => some (h.enc + 654311425 + d.toNat * 16384 + a.toNat * 256 + b.toNat * 4)
  | .pkaddBf16 h d a b => some (h.enc + 654311426 + d.toNat * 16384 + a.toNat * 256 + b.toNat * 4)
  | .pkmulBf16 h d a b => some (h.enc + 654311427 + d.toNat * 16384 + a.toNat * 256 + b.toNat * 4)
  | .pkfmaF16 h d a b => some (h.enc + 671088640 + d.toNat * 16384 + a.toNat * 256 + b.toNat * 4)
  | .pkfmaBf16 h d a b => some (h.enc + 671088641 + d.toNat * 16384 + a.toNat * 256 + b.toNat * 4)
  | .cvt h d a st dt => some (h.enc + 805306368 + dt.toNat / 8 * 16777216 + d.toNat * 16384 + a.toNat * 256 + st.toNat * 8 + dt.toNat % 8)
  | .pack h d a => some (h.enc + 872415232 + d.toNat * 16384 + a.toNat * 256)
  | .unpk h d a => some (h.enc + 889192448 + d.toNat * 16384 + a.toNat * 256)
  | .frnd h d a m => some (h.enc + 905969664 + d.toNat * 16384 + a.toNat * 256 + m.toNat)
  | .qblk h d a f => some (h.enc + 922746880 + d.toNat * 16384 + a.toNat * 256 + f.toNat * 32)
  | .qhad h d a f hf => some (h.enc + 922746881 + d.toNat * 16384 + a.toNat * 256 + f.toNat * 32 + hf.toNat * 4)
  | .dqblk h d a f => some (h.enc + 922746882 + d.toNat * 16384 + a.toNat * 256 + f.toNat * 32)
  | .shflLane h d a b => some (h.enc + 939524096 + d.toNat * 16384 + a.toNat * 256 + b.toNat * 4)
  | .shflRot h d a b => some (h.enc + 939524097 + d.toNat * 16384 + a.toNat * 256 + b.toNat * 4)
  | .shflMirr h d a b => some (h.enc + 939524098 + d.toNat * 16384 + a.toNat * 256 + b.toNat * 4)
  | .shflBfly h d a b => some (h.enc + 939524099 + d.toNat * 16384 + a.toNat * 256 + b.toNat * 4)
  | .voteEvery h q a => some (h.enc + 956301312 + q.toNat * 65536 + a.toNat * 1024)
  | .voteSome h q a => some (h.enc + 956301313 + q.toNat * 65536 + a.toNat * 1024)
  | .voteSame h q a => some (h.enc + 956301314 + q.toNat * 65536 + a.toNat * 1024)
  | .voteOdd h q a => some (h.enc + 956301315 + q.toNat * 65536 + a.toNat * 1024)
  | .ballot h d a => some (h.enc + 973078528 + d.toNat * 16384 + a.toNat * 256)
  | .matchPeers h d a => some (h.enc + 989855744 + d.toNat * 16384 + a.toNat * 256)
  | .matchWhole h d a => some (h.enc + 989855745 + d.toNat * 16384 + a.toNat * 256)
  | .redw h d a o t => some (h.enc + 1006632960 + d.toNat * 16384 + a.toNat * 256 + o.toNat * 32 + t.toNat * 4)
  | .scanw h d a o t => some (h.enc + 1023410176 + d.toNat * 16384 + a.toNat * 256 + o.toNat * 32 + t.toNat * 4)
  | .scanwExcl h d a o t => some (h.enc + 1023410177 + d.toNat * 16384 + a.toNat * 256 + o.toNat * 32 + t.toNat * 4)
  | .smovS h d a => some (h.enc + 1040187392 + d.toNat * 16384 + a.toNat * 256)
  | .smovG h d a => some (h.enc + 1040187393 + d.toNat * 16384 + a.toNat * 256)
  | .bra h o => some (h.enc + 1073741824 + o.toNat)
  | .call h w o => some (h.enc + 1090519040 + w.toNat * 65536 + o.toNat)
  | .brax h a => some (h.enc + 1107296256 + a.toNat * 256)
  | .callx h a w => some (h.enc + 1107296257 + a.toNat * 256 + w.toNat * 4)
  | .ret h => some (h.enc + 1107296258)
  | .join h m => some (h.enc + 1124073472 + m.toNat * 65536)
  | .leave h m => some (h.enc + 1124073473 + m.toNat * 65536)
  | .waitm h m => some (h.enc + 1124073474 + m.toNat * 65536)
  | .mopSet h m r => some (h.enc + 1140850688 + m.toNat * 65536 + r.toNat * 64)
  | .mopAnd h m a b => some (h.enc + 1140858880 + m.toNat * 65536 + a.toNat * 256 + b.toNat * 16)
  | .mopOr h m a b => some (h.enc + 1140867072 + m.toNat * 65536 + a.toNat * 256 + b.toNat * 16)
  | .mopAndn h m a b => some (h.enc + 1140875264 + m.toNat * 65536 + a.toNat * 256 + b.toNat * 16)
  | .mopBatch h m => some (h.enc + 1140883456 + m.toNat * 65536)
  | .mopBallot h m a => some (h.enc + 1140891648 + m.toNat * 65536 + a.toNat * 256)
  | .fspawn h q a b => some (h.enc + 1157627904 + q.toNat * 65536 + a.toNat * 1024 + b.toNat * 16)
  | .fend h => some (h.enc + 1174405120)
  | .exit h => some (h.enc + 1174405121)
  | .yield h => some (h.enc + 1174405122)
  | .nap h a => some (h.enc + 1174405123 + a.toNat * 256)
  | .safe h l => some (h.enc + 1191182336 + l.toNat)
  | .trap h c => some (h.enc + 1207959552 + c.toNat)
  | .tretResume h a => some (h.enc + 1224736768 + a.toNat * 256)
  | .tretSkip h a => some (h.enc + 1224736769 + a.toNat * 256)
  | .tretEnd h a => some (h.enc + 1224736770 + a.toNat * 256)
  | .ldb h d a r i => some (h.enc + 1342177280 + d.toNat * 16384 + a.toNat * 256 + r.toNat * 32 + i.toNat)
  | .ldh h d a r i => some (h.enc + 1358954496 + d.toNat * 16384 + a.toNat * 256 + r.toNat * 32 + i.toNat)
  | .ldw h d a r i => some (h.enc + 1375731712 + d.toNat * 16384 + a.toNat * 256 + r.toNat * 32 + i.toNat)
  | .ldd h d a r i => some (h.enc + 1392508928 + d.toNat * 16384 + a.toNat * 256 + r.toNat * 32 + i.toNat)
  | .ldq h d a r i => some (h.enc + 1409286144 + d.toNat * 16384 + a.toNat * 256 + r.toNat * 32 + i.toNat)
  | .stb h d a r i => some (h.enc + 1426063360 + d.toNat * 16384 + a.toNat * 256 + r.toNat * 32 + i.toNat)
  | .sth h d a r i => some (h.enc + 1442840576 + d.toNat * 16384 + a.toNat * 256 + r.toNat * 32 + i.toNat)
  | .stw h d a r i => some (h.enc + 1459617792 + d.toNat * 16384 + a.toNat * 256 + r.toNat * 32 + i.toNat)
  | .std h d a r i => some (h.enc + 1476395008 + d.toNat * 16384 + a.toNat * 256 + r.toNat * 32 + i.toNat)
  | .stq h d a r i => some (h.enc + 1493172224 + d.toNat * 16384 + a.toNat * 256 + r.toNat * 32 + i.toNat)
  | .stn h d a hf r i => some (h.enc + 1509949440 + d.toNat * 16384 + a.toNat * 256 + hf.toNat * 128 + r.toNat * 32 + i.toNat)
  | .atom h d a o t => some (h.enc + 1526726656 + d.toNat * 16384 + a.toNat * 256 + o.toNat * 32 + t.toNat * 8)
  | .atomf h d a o => some (h.enc + 1543503872 + d.toNat * 16384 + a.toNat * 256 + o.toNat * 32)
  | .cas h d a b => some (h.enc + 1560281088 + d.toNat * 16384 + a.toNat * 256 + b.toNat * 4)
  | .casD h d a b => some (h.enc + 1560281089 + d.toNat * 16384 + a.toNat * 256 + b.toNat * 4)
  | .casQ h d a b => some (h.enc + 1560281090 + d.toNat * 16384 + a.toNat * 256 + b.toNat * 4)
  | .red h o t a b => some (h.enc + 1577058304 + o.toNat * 131072 + t.toNat * 32768 + a.toNat * 256 + b.toNat * 4)
  | .phase h k c => some (h.enc + 1593835520 + k.toNat * 16384 + c.toNat * 2048)
  | .pfence h c => some (h.enc + 1593901056 + c.toNat * 2048)
  | .cwb h a => some (h.enc + 1593966592 + a.toNat * 256)
  | .cinv h a => some (h.enc + 1594032128 + a.toNat * 256)
  | .zline h a => some (h.enc + 1594097664 + a.toNat * 256)
  | .pref h a l => some (h.enc + 1594163200 + a.toNat * 256 + l.toNat)
  | .pgreq h a => some (h.enc + 1594228736 + a.toNat * 256)
  | .pgprobe h a q => some (h.enc + 1594294272 + a.toNat * 256 + q.toNat * 16)
  | .acpy h x y e f => some (h.enc + 1610612736 + x.toNat * 65536 + y.toNat * 4096 + e.toNat * 16 + f.toNat)
  | .acpym h x y e f => some (h.enc + 1627389952 + x.toNat * 65536 + y.toNat * 4096 + e.toNat * 16 + f.toNat)
  | .afill h x e f => some (h.enc + 1644167168 + x.toNat * 65536 + e.toNat * 16 + f.toNat)
  | .agthr h x y z e f => some (h.enc + 1660944384 + x.toNat * 65536 + y.toNat * 4096 + z.toNat * 256 + e.toNat * 16 + f.toNat)
  | .chain h a b => some (h.enc + 1677721600 + a.toNat * 256 + b.toNat * 4)
  | .balloc h d a => some (h.enc + 1744830464 + d.toNat * 16384 + a.toNat * 256)
  | .bfree h a => some (h.enc + 1744830465 + a.toNat * 256)
  | .bmode h a b => some (h.enc + 1744830466 + a.toNat * 256 + b.toNat * 4)
  | .bstat h d a => some (h.enc + 1744830467 + d.toNat * 16384 + a.toNat * 256)
  | .mloop h x y z e f => some (h.enc + 1761607680 + x.toNat * 65536 + y.toNat * 4096 + z.toNat * 256 + e.toNat * 16 + f.toNat)
  | .accrd h d a => some (h.enc + 1778384896 + d.toNat * 16384 + a.toNat * 256)
  | .accld h a b => some (h.enc + 1778384897 + a.toNat * 256 + b.toNat * 4)
  | .accclr h a => some (h.enc + 1778384898 + a.toNat * 256)
  | .accst h x y e f => some (h.enc + 1795162112 + x.toNat * 65536 + y.toNat * 4096 + e.toNat * 16 + f.toNat)
  | .bchk h a => some (h.enc + 1811939328 + a.toNat * 256)
  | .rcopy h x y e => some (h.enc + 1879048192 + x.toNat * 65536 + y.toNat * 4096 + e.toNat * 16)
  | .rfill h x e f => some (h.enc + 1895825408 + x.toNat * 65536 + e.toNat * 16 + f.toNat)
  | .rbitAnd h x y z e => some (h.enc + 1895825416 + x.toNat * 65536 + y.toNat * 4096 + z.toNat * 256 + e.toNat * 16)
  | .rbitOr h x y z e => some (h.enc + 1895825417 + x.toNat * 65536 + y.toNat * 4096 + z.toNat * 256 + e.toNat * 16)
  | .rbitMaj3 h x y z e => some (h.enc + 1895825418 + x.toNat * 65536 + y.toNat * 4096 + z.toNat * 256 + e.toNat * 16)
  | .rbitNot h x y e => some (h.enc + 1895825419 + x.toNat * 65536 + y.toNat * 4096 + e.toNat * 16)
  | .rbitXor h x y z e => some (h.enc + 1895825420 + x.toNat * 65536 + y.toNat * 4096 + z.toNat * 256 + e.toNat * 16)
  | .nmx h x y z e => some (h.enc + 1912602624 + x.toNat * 65536 + y.toNat * 4096 + z.toNat * 256 + e.toNat * 16)
  | .nseg h x y z e f m => some (h.enc + 1929379840 + x.toNat * 65536 + y.toNat * 4096 + z.toNat * 256 + e.toNat * 16 + f.toNat * 4 + m.toNat)
  | .mbbind h d a b => some (h.enc + 1946157056 + d.toNat * 16384 + a.toNat * 256 + b.toNat * 4)
  | .mbfree h d a => some (h.enc + 1946157057 + d.toNat * 16384 + a.toNat * 256)
  | .mbpost h d a b => some (h.enc + 1946157058 + d.toNat * 16384 + a.toNat * 256 + b.toNat * 4)
  | .qput h a b => some (h.enc + 1962934272 + a.toNat * 256 + b.toNat * 4)
  | .qtake h d a b => some (h.enc + 1962934273 + d.toNat * 16384 + a.toNat * 256 + b.toNat * 4)
  | .qstat h d b => some (h.enc + 1962934274 + d.toNat * 16384 + b.toNat * 4)
  | .efork h c o => some (h.enc + 1979711488 + c.toNat * 16384 + o.toNat)
  | .erdv h => some (h.enc + 1996488704)
  | .cwait h q a b => some (h.enc + 2013265920 + q.toNat * 65536 + a.toNat * 1024 + b.toNat * 16)
  | .ctest h q a b => some (h.enc + 2013265921 + q.toNat * 65536 + a.toNat * 1024 + b.toNat * 16)
  | .bwinit h a b => some (h.enc + 2030043136 + a.toNat * 256 + b.toNat * 4)
  | .bwarr h a b => some (h.enc + 2030174208 + a.toNat * 256 + b.toNat * 4)
  | .bwwait h a b => some (h.enc + 2030305280 + a.toNat * 256 + b.toNat * 4)
  | .bwtest h q a b => some (h.enc + 2030436352 + q.toNat * 16384 + a.toNat * 256 + b.toNat * 4)
  | .bwdrop h a => some (h.enc + 2030567424 + a.toNat * 256)
  | .lbarv h l => some (h.enc + 2046820352 + l.toNat * 4096)
  | .lbwait h l => some (h.enc + 2047082496 + l.toNat * 4096)
  | .lbset h l a => some (h.enc + 2047344640 + l.toNat * 4096 + a.toNat * 64)
  | .migto h a => some (h.enc + 2063597568 + a.toNat * 256)
  | .migret h => some (h.enc + 2063597569)
  | .regrp h m => some (h.enc + 2063597570 + m.toNat * 65536)
  | .shld h hf a => some (h.enc + 2080374784 + hf.toNat * 65536 + a.toNat * 256)
  | .shst h hf a => some (h.enc + 2080374785 + hf.toNat * 65536 + a.toNat * 256)
  | .shget h hf a f => some (h.enc + 2080374786 + hf.toNat * 65536 + a.toNat * 256 + f.toNat * 4)
  | .shset h hf a f => some (h.enc + 2080374787 + hf.toNat * 65536 + a.toNat * 256 + f.toNat * 4)
  | .csrr h d c => some (h.enc + 2097152000 + d.toNat * 16384 + c.toNat * 4)
  | .csrw h d c => some (h.enc + 2097152001 + d.toNat * 16384 + c.toNat * 4)
  | .csrs h d c => some (h.enc + 2097152002 + d.toNat * 16384 + c.toNat * 4)
  | .csrc h d c => some (h.enc + 2097152003 + d.toNat * 16384 + c.toNat * 4)
  | .immx i => some (2113929216 + i.toNat)
  | .opndReg r => some (2114977792 + r.toNat)
  | .opndPred p => some (2115502080 + p.toNat)
  | .modr v m t c k o w => some (2116026368 + v.toNat * 524288 + m.toNat * 131072 + t.toNat * 65536 + c.toNat * 8192 + k.toNat * 1024 + o.toNat * 256 + w.toNat * 64)
  | .schd y u => some (2117074944 + y.toNat * 524288 + u.toNat * 65536)
  | .ecls e => some (2118123520 + e.toNat)
  | .dump h => some (h.enc + 2130706432)
  | .tmark h c => some (h.enc + 2130771968 + c.toNat)
  | .brk u v c => some (2131689472 + u.toNat * 2147483648 + v.toNat * 1048576 + c.toNat)
  | .moduleReset => none
  | .firmwareBoot => none
  | .imageWrite _ _ _ _ => none
  | .modulePowerLoss => none
  | .corePowerLoss _ => none
  | .motifPowerLoss _ => none
  | .motifRestore _ => none
  | .coreResume _ => none
  | .bankReload _ _ => none
  | .coreGate _ => none
  | .hostAccess _ _ _ _ _ => none
  | .peerAccess _ _ _ _ => none
  | .storePost _ _ => none
  | .dependencyMet _ => none
  | .groupPlacement _ => none
  | .preemptionSave _ _ => none
  | .groupEnd _ _ => none
  | .sParkRelease _ _ _ => none
  | .cwaitRelease _ _ _ => none
  | .lbwaitRelease _ _ => none
  | .queueParkRelease _ _ _ => none
  | .stageReassign _ _ => none
  | .napWake _ _ _ => none
  | .yieldExpiry _ _ => none
  | .holdGrant _ _ => none
  | .bankClearDone _ _ => none
  | .bankRunComplete _ => none
  | .copyCompletion _ => none
  | .copyFailure _ => none
  | .mloopCompletion _ => none
  | .bchkCompletion _ => none
  | .rowSegment _ => none
  | .stackEngineCompletion _ => none
  | .lineWriteback _ => none
  | .dramRefresh _ _ _ => none
  | .refreshBoundExpiry _ _ _ => none
  | .streamWord _ _ => none
  | .chheadWrite _ _ _ => none
  | .channelRecord _ => none
  | .channelCopyCompletion _ => none
  | .shuttleArrival _ => none
  | .guestPlacement _ => none
  | .shuttleBounce _ _ => none
  | .homeArrival _ => none
  | .shuttleResend _ => none
  | .groupMove _ _ _ => none
  | .egressDrain _ => none
  | .journalApply _ => none
  | .stackSpill _ _ _ => none
  | .fetchRetry _ _ => none
  | .fetchRewalk _ => none
  | .deadlineExpiry _ _ => none
  | .dumpWrite _ => none
  | .energyRefill _ _ => none
  | .guestDebit _ => none
  | .ebudgetReport _ => none
  | .handlerPostRetry _ _ => none
  | .currentAlarm _ => none
  | .sensitivityWindow _ => none
  | .controlInterval _ _ _ => none
  | .stepPhaseEnd _ => none
  | .hostLinkChange _ _ => none
  | .bmcPoll _ => none
  | .ownerTimeout => none
  | .peerLinkDown _ => none
  | .debugTokenExpiry _ => none
  | .shootdown _ _ _ => none
  | .shootdownDone _ => none
  | .aperrRead _ _ => none
  | .debugWindowAccess _ _ _ _ => none
  | .mmioWrite _ _ _ => none
  | .cmdRead _ => none
  | .cmdClaim _ => none
  | .cmdHandover _ _ => none
  | .cmdGrant _ _ _ => none
  | .cmdPset _ _ _ _ => none
  | .cmdErase _ _ => none
  | .cmdTbind _ _ _ => none
  | .cmdTunbind _ _ => none
  | .cmdDebug _ _ _ => none
  | .cmdDstop _ _ => none
  | .cmdDresume _ _ => none
  | .cmdTraceread _ _ => none
  | .cmdDumpread _ _ _ => none
  | .cmdChallenge _ => none
  | .cmdProvision _ => none
  | .cmdRetire _ => none
  | .cmdAttest _ _ => none
  | .classDResult _ _ _ => none
  | .illegalOpWord _ => none
  | .peerLinkUp _ => none

/-- The word of an instruction (03_instruction_words.md Tables 3-1, 3-2, 3-3, 3-6). -/
def encode (i : Instr) : Option Word := (encodeNat i).map (BitVec.ofNat 32)

end Sys2Proof
end

