-- ==== Sys2Proof/Machine/Phase.lean ====
section
/-! DEFINITION. Phases, persist fences, line operations and pages (10_memory_instructions.md R206 to R212). -/

namespace Sys2Proof.Machine

/-! ## R206 to R208 -/

/-- A phase end at a scope: at .motif and wider it publishes through the egress buffer, at .sys with the acknowledgement of the
peer ports (R207). -/
def phaseEnd (s : State) (core scope : Nat) : State :=
  if scope < 3 then s
  else if scope = 5 then acknowledgePeers (releaseWide s core)
  else releaseOut s core

def execPhase (h : Hdr) (k : BitVec 2) (c : BitVec 3) (s : State) : Host.Outcome State Fault Refusal :=
  let rel := k == 1 || k == 2
  issue { h := h, ok := legal (.phase h k c), persist := rel && decide (scopeOf c.toNat ≥ 3) } s
    (.pure (fun s _ =>
      let s := if rel then phaseEnd s s.cur.core (scopeOf c.toNat) else s
      if k == 1 then s else acquire s s.cur.core))

/-- The dirty lines of a motif's slice reach the L2 shadow (08 R162). -/
def mirrorMotif (s : State) (motif : Nat) : State :=
  ((s.unmirrored.map (·.1)).filter (fun ln => homeMotif (128 * ln) == motif)).foldl mirrorLine s

/-- The fence: a commit of cause 1 (Table 8-7), and at .motif the mirroring of the motif's slice. -/
def execPfence (h : Hdr) (c : BitVec 3) (s : State) : Host.Outcome State Fault Refusal :=
  issue { h := h, ok := legal (.pfence h c), persist := true } s
    (.pure (fun s _ =>
      let s := commitCore s s.cur.core 1 []
      if c == 3 then mirrorMotif s (s.cur.core / 8) else s))

/-! ## R209, R210 -/

def formLine (h : Hdr) (a : BitVec 6) (ok : Bool) : Form := { h := h, ok := ok, src := regsOf a.toNat 2 }

/-- The resident global line of local HBM that a member names, with its leaf. -/
def lineOf (s : State) (a : Nat) (l : Nat) : Option (Nat × Leaf) :=
  match locate s (whoOf s s.cur.core s.cur.slot l) (s.gd l a).toNat with
  | some (.glob pa leaf) => if leaf.resident && paTarget pa == .hbm then some (pa / 128, leaf) else none
  | _ => none

/-- A core holds WRITTEN bytes of a line. -/
def holdsWritten (s : State) (core line : Nat) : Bool := (s.core core).l1w.any (fun c => c.1 / 128 == line)

/-- CWB and CINV for each member; one for whose line the egress buffer has no entry is left behind. -/
def lineBackEach (a : BitVec 6) (keep : Bool) (s : State) (ls : List Nat) : State × List Nat :=
  ls.foldl (fun (r : State × List Nat) l => match lineOf s a.toNat l with
    | some x =>
      if holdsWritten r.1 s.cur.core x.1 && (!r.2.isEmpty || egressFull r.1 s.cur.core) then (r.1, r.2 ++ [l])
      else (lineBack r.1 s.cur.core x.1 (whoOf s s.cur.core s.cur.slot l).part keep, r.2)
    | none => r) (s, [])

def actLineBack (a : BitVec 6) (keep : Bool) : Act :=
  { wait := fun s ls =>
      if egressFull s s.cur.core && ls.any (fun l => match lineOf s a.toNat l with
        | some x => holdsWritten s s.cur.core x.1
        | none => false) then some .egress else none
    run := fun s ls => (storesOut (lineBackEach a keep s ls), []) }

def execCwb (h : Hdr) (a : BitVec 6) (s : State) : Host.Outcome State Fault Refusal :=
  issue (formLine h a (legal (.cwb h a))) s (actLineBack a true)

def execCinv (h : Hdr) (a : BitVec 6) (s : State) : Host.Outcome State Fault Refusal :=
  issue (formLine h a (legal (.cinv h a))) s (actLineBack a false)

def memZline (a : BitVec 6) : MemForm :=
  { kind := .zline, size := 128, align := 128, addr := fun s l => (s.gd l a.toNat).toNat, mode := fun _ => 0, reg := 0 }

def execZline (h : Hdr) (a : BitVec 6) (s : State) : Host.Outcome State Fault Refusal :=
  issue (formLine h a (legal (.zline h a))) s
    (memAct (memZline a) true false (storesAct (memZline a) (fun _ _ => 0)))

/-- PREF fills the L1 where a load would be performed; a prefetch into the home L2 changes no state (08 R161). -/
def execPref (h : Hdr) (a : BitVec 6) (l : BitVec 2) (s : State) : Host.Outcome State Fault Refusal :=
  issue (formLine h a (legal (.pref h a l))) s
    (.pure (fun s ls => if l != 0 then s else s.eachLane ls (fun s k =>
      match lineOf s a.toNat k with
      | some (line, leaf) =>
        if leaf.canRead && leaf.ca == 0 && !tagReserved s (line * 128) && !lineBusy s (line * 128) then
          fillSectors s s.cur.core (line * 128) 128
        else s
      | none => s)))

/-! ## R211, R212 -/

/-- The 64 KiB region that a member's PGREQ posts: that of a page that is mapped, readable and not resident. -/
def pgRegion (s : State) (a l : Nat) : Option Nat :=
  let va := (s.gd l a).toNat
  match locate s (whoOf s s.cur.core s.cur.slot l) va with
  | some (.glob _ leaf) => if leaf.resident then none else some (va / 65536)
  | _ => none

/-- The regions that a batch posts, each with the lowest member that names it. -/
def pgPosts (s : State) (a : Nat) (ls : List Nat) : List (Nat × Nat) :=
  ls.foldl (fun (acc : List (Nat × Nat)) l => match pgRegion s a l with
    | some r => if acc.any (fun x => x.1 == r) then acc else acc ++ [(r, l)]
    | none => acc) []

/-- The partition has a pager mailbox that takes its posts. -/
def hasPager (s : State) (p : Nat) : Bool :=
  match findBind s (s.part p).pgmbx.toNat with
  | some (q, _, _) => mayPost s (.device p) q
  | none => false

def pgCheck (s : State) (a l : Nat) : Option Flt :=
  let va := (s.gd l a).toNat
  match locate s (whoOf s s.cur.core s.cur.slot l) va with
  | none => some ⟨fcAddrInvalid, va, false⟩
  | some sp =>
    if !permOk .load sp then some ⟨fcAddrPerm, va, false⟩
    else if (pgRegion s a l).isSome && !hasPager s s.curPart then some ⟨fcEngine, va / 65536 * 65536, false⟩
    else none

/-- The posts in order; the regions whose post finds the mailbox full. -/
def pgSend (s : State) (ps : List (Nat × Nat)) : State × List Nat :=
  ps.foldl (fun (r : State × List Nat) x =>
    let a := pagerPost r.1 r.1.curPart (x.1 * 65536) (taskidOf r.1 r.1.cur.core r.1.cur.slot x.2) r.1.cur.core 0 x.2
    if a.1 = 0 then (a.2, r.2) else (r.1, r.2 ++ [x.1])) (s, [])

/-- Members whose posts are all accepted go on together with those that waited for the others, once none of them waits. -/
def pgRelease (s : State) : State :=
  let w := s.curWarp
  let waits := w.lanes.any (fun x => x.2.state == .parked && x.2.park == .pager && x.2.pc == s.cur.hpc)
  if waits then s
  else endPark s s.cur.core s.cur.slot ((w.lanes.filter (fun x =>
    x.2.state == .parked && x.2.park == .pagerDone s.cur.hpc)).map (·.1))

def execPgreq (h : Hdr) (a : BitVec 6) (s : State) : Host.Outcome State Fault Refusal :=
  issue { formLine h a (legal (.pgreq h a)) with persist := true } s
    { check := eachCheck (fun s l => pgCheck s a.toNat l)
      run := fun s0 ls =>
        let ps := pgPosts s0 a.toNat ls
        if ps.isEmpty then (pgRelease s0, [])
        else
          let full := (pgSend s0 ps).2
          if full.isEmpty then (pgRelease (pgSend (persistPoint s0 s0.cur.core []) ps).1, [])
          else
            let late := ls.filter (fun l => match pgRegion s0 a.toNat l with | some g => full.contains g | none => false)
            let s := parkAtIssue (parkAfter s0 (ls.filter (fun l => !late.contains l)) (.pagerDone s0.cur.hpc)) late .pager
            ((pgSend (persistPoint s s.cur.core []) ps).1, []) }

def execPgprobe (h : Hdr) (a : BitVec 6) (q : BitVec 4) (s : State) : Host.Outcome State Fault Refusal :=
  issue { formLine h a (legal (.pgprobe h a q)) with pdst := [q.toNat] } s
    (.pure (fun s0 ls => s0.eachLane ls (fun s l =>
      let ok := match accessCheck s0 (whoOf s0 s0.cur.core s0.cur.slot l) .load (s0.gd l a.toNat).toNat 1 1 with
        | .ok hs => hs.all (fun x => x.spot.resident)
        | .error _ => false
      s.addLane l (effP l q.toNat ok) 0)))

end Sys2Proof.Machine
end

