-- ==== Sys2Proof/Machine/Queue.lean ====
section
/-! DEFINITION. Mailbox instructions, stage queues, and the forking and joining of engine streams (13_queues.md R263,
R265, R272 to R277). -/

namespace Sys2Proof.Machine

/-- The header of the launch of the instruction in progress. -/
def State.curHeader (s : State) : Header := match mfind s.launches s.curWarp.launch with | some l => l.header | none => ⟨[]⟩

def Header.nstage (h : Header) : Nat := h.field 55 1

/-- Each member receives a value in a register as one class-D result. -/
def giveAll (s : State) (ls : List Nat) (d : Nat) (v : Word) : State :=
  s.eachLane ls (fun s l => s.addLane l (effG s.curWarp l d v) 0)

/-! ## Mailbox instructions (R275, Table 13-6) -/

/-- A range of bytes lies in global memory. -/
def globalRange (a n : Nat) : Bool := decide (a + n ≤ scratchBase)

/-- The parameters of a binding are in range and aligned (R263). -/
def bindOk (a hd z q : Nat) : Bool :=
  a != 0 && a % 64 == 0 && globalRange a z && decide (16 ≤ z) && decide (z ≤ 256) && z % 16 == 0 &&
  decide (1 ≤ q) && decide (q ≤ 1024) && hd % 256 == 0 && globalRange hd 256

/-- Two windows overlap. -/
def windowsMeet (a z a' z' : Nat) : Bool := decide (a < a' + z') && decide (a' < a + z)

/-- Checks 2 and 5 on the first and last byte of a range. -/
def rangeOk (s : State) (w : Who) (k : AccKind) (a n : Nat) : Bool :=
  [a, a + n - 1].all (fun va => match locate s w va with | some sp => permOk k sp | none => false)

/-- The lowest free entry of a partition's bind table (16_tables.md R329). -/
def freeEntry (s : State) (p : Nat) : Option Nat := (upFrom 4096 0).find? (fun i => (mfind (s.part p).binds i).isNone)

/-- The status of MBBIND. -/
def bindStatus (s : State) (a hd z q : Nat) : Nat :=
  if !bindOk a hd z q then 3
  else if !(rangeOk s (engWho s) .store a z && rangeOk s (engWho s) .load hd 256) then 4
  else if s.parts.any (fun p => p.2.binds.any (fun b => windowsMeet a z b.2.window b.2.size)) then 1
  else if (freeEntry s s.curPart).isNone then 2
  else 0

/-- A binding joins the table (R263). -/
def addBind (s : State) (p a hd z q : Nat) : State :=
  match freeEntry s p with
  | none => s
  | some i => s.modPart p (fun x => { x with binds := mset x.binds i { window := a, header := hd, size := z, depth := q } })

def execMbbind (h : Hdr) (d a b : BitVec 6) (s : State) : Host.Outcome State Fault Refusal :=
  issue { h := h, ok := legal (.mbbind h d a b), src := d.toNat :: regsOf a.toNat 2 ++ regsOf b.toNat 2, dst := [d.toNat]
          uniform := true, guestOk := false } s
    (.pure (fun s ls =>
      let l := ls.headD 0
      let w := (s.gd l a.toNat).toNat
      let hd := (s.gd l b.toNat 1).toNat
      let z := bits (s.g l d.toNat 2).toNat 0 9
      let q := bits (s.g l d.toNat 2).toNat 16 11
      let st := bindStatus s w hd z q
      giveAll (if st = 0 then addBind s s.curPart w hd z q else s) ls d.toNat (BitVec.ofNat 32 st)))

/-- A launch whose message is still to be discarded with its binding: nothing placed, and not past ORDERED. -/
def Launch.waiting (l : Launch) : Bool :=
  (l.state == .header || l.state == .waitdep || l.state == .ordered) && l.next == 0 && l.replace.isEmpty

/-- A launch whose message a freed binding discards. -/
def Launch.discards (l : Launch) (p window : Nat) : Bool := l.part == p && l.window == window && !l.unbound && l.waiting

/-- A binding is freed: its waiting launches are discarded and counted, the others go on without it. -/
def freeBind (s : State) (p i window : Nat) : State :=
  { s.modPart p (fun x => { x with
      binds := mdel x.binds i, discarded := x.discarded + (s.launches.filter (fun y => y.2.discards p window)).length }) with
    launches := (s.launches.filter (fun x => !x.2.discards p window)).map
      (fun x => (x.1, if x.2.part = p ∧ x.2.window = window then { x.2 with unbound := true } else x.2)) }

def execMbfree (h : Hdr) (d a : BitVec 6) (s : State) : Host.Outcome State Fault Refusal :=
  issue { h := h, ok := legal (.mbfree h d a), src := regsOf a.toNat 2, dst := [d.toNat], uniform := true, guestOk := false } s
    (.pure (fun s ls =>
      let w := (s.gd (ls.headD 0) a.toNat).toNat
      match findBind s w with
      | some (p, i, _) =>
        if p = s.curPart then giveAll (freeBind s p i w) ls d.toNat 0 else giveAll s ls d.toNat 1
      | none => giveAll s ls d.toNat 1))

/-- The fault of MBPOST's offset, over the z bytes of the window named. -/
def offsetFault (s : State) (window off : Nat) : Option Flt :=
  if off % 16 ≠ 0 then some ⟨fcMisalign, localBase + off, false⟩
  else match findBind s window with
    | none => none
    | some (_, _, b) =>
      if off + b.size > scratchSize then some ⟨fcBankOwner, localBase + off, false⟩
      else banksFault s (engWho s) s.cur.core off (off + b.size - 1) localBase true false

def execMbpost (h : Hdr) (d a b : BitVec 6) (s : State) : Host.Outcome State Fault Refusal :=
  issue { h := h, ok := legal (.mbpost h d a b), src := regsOf a.toNat 2 ++ [b.toNat], dst := [d.toNat], uniform := true, guestOk := false
          persist := true } s
    { check := leaderCheck (fun s l => offsetFault s (s.gd l a.toNat).toNat (s.g l b.toNat 1).toNat)
      run := fun s0 ls =>
        let w := (s0.gd (ls.headD 0) a.toNat).toNat
        let off := (s0.g (ls.headD 0) b.toNat 1).toNat
        let s := releaseWide s0 s0.cur.core
        let z := match findBind s w with | some (_, _, x) => x.size | none => 0
        let r := post s (.device s.curPart) w (some (memReads (s.core s.cur.core).st.scratch off z))
        (giveAll r.2 ls d.toNat (BitVec.ofNat 32 r.1), []) }

/-! ## Stage queues (R272 to R274) -/

/-- A warp whose lanes are all EMPTY or ENDED (R272). -/
def Warp.idle (w : Warp) : Bool := (lanesIn w (fun x => x != .empty && x != .ended)).isEmpty

def Group.occ (g : Group) (n : Nat) : Nat := match mfind g.queues n with | some q => q.occ | none => 0

/-- A queue that can receive no further entries (R273). -/
def queueClosed (s : State) (core : Nat) (g : Group) (n : Nat) : Bool :=
  (upFrom n 1).all (fun i => g.occ i == 0) &&
  g.warps.all (fun slot => match s.warp? core slot with
    | some w => w.idle || decide (n ≤ w.stage)
    | none => true)

def State.curQueue (s : State) (n : Nat) : Queue :=
  match s.curGroup with
  | some g => (mfind g.queues n).getD { base := 0, depth := 0 }
  | none => { base := 0, depth := 0 }

def State.modCurQueue (s : State) (n : Nat) (f : Queue → Queue) : State :=
  s.modGroup s.cur.core s.curWarp.group (fun g => { g with queues := mmod g.queues n f })

def State.curClosed (s : State) (n : Nat) : Bool :=
  match s.curGroup with | some g => queueClosed s s.cur.core g n | none => true

/-- The bank of an entry of a queue is held or still restoring (09_consistency.md R187, 17_faults.md R351). -/
def queueBusy (s : State) (n slot : Nat) : Option Park :=
  let b := ((s.curQueue n).base + 16 * slot) / 131072
  if !bankBusy s s.cur.core b then none
  else some (if (s.core s.cur.core).restoring.contains b then .restoring s.cur.core b else .owned)

/-- The form of a queue instruction: its queue belongs to the task. -/
def formQueue (s : State) (h : Hdr) (ok : Bool) (n : BitVec 6) : Form :=
  { h := h, ok := ok && decide (n.toNat < s.curHeader.nstage), uniform := true, guestOk := false }

/-- An entry joins the tail of a queue (R274). -/
def putEntry (s : State) (n v : Nat) : State :=
  let q := s.curQueue n
  (scratchWrite s s.cur.core (q.base + 16 * q.tail) (bytesLE 16 v)).modCurQueue n (fun q =>
    { q with tail := (q.tail + 1) % q.depth, occ := q.occ + 1 })

def execQput (h : Hdr) (a b : BitVec 6) (s : State) : Host.Outcome State Fault Refusal :=
  issue { formQueue s h (legal (.qput h a b)) b with src := regsOf a.toNat 4 } s
    { wait := fun s _ =>
        if (s.curQueue b.toNat).occ ≥ (s.curQueue b.toNat).depth then some (.queue b.toNat true) else queueBusy s b.toNat (s.curQueue b.toNat).tail
      run := fun s ls => (putEntry s b.toNat (s.gq (ls.headD 0) a.toNat), []) }

/-- The head entry of a queue. -/
def headEntry (s : State) (n : Nat) : Nat :=
  ofBytesLE (memReads (s.core s.cur.core).st.scratch ((s.curQueue n).base + 16 * (s.curQueue n).head) 16)

/-- The head entry leaves a queue. -/
def dropHead (s : State) (n : Nat) : State :=
  s.modCurQueue n (fun q => { q with head := (q.head + 1) % q.depth, occ := q.occ - 1 })

def execQtake (h : Hdr) (d a b : BitVec 6) (s : State) : Host.Outcome State Fault Refusal :=
  issue { formQueue s h (legal (.qtake h d a b)) b with dst := regsOf d.toNat 4 ++ [a.toNat] } s
    { wait := fun s _ =>
        if (s.curQueue b.toNat).occ = 0 then (if s.curClosed b.toNat then none else some (.queue b.toNat false))
        else queueBusy s b.toNat (s.curQueue b.toNat).head
      run := fun s ls =>
        if (s.curQueue b.toNat).occ = 0 then (giveAll s ls a.toNat 0, [])
        else
          let v := headEntry s b.toNat
          (acquire ((dropHead s b.toNat).eachLane ls (fun s l =>
            s.addLane l (effGq s.curWarp l d.toNat v ++ effG s.curWarp l a.toNat 1) 0)) s.cur.core, []) }

/-- The snapshot that QSTAT gives. -/
def queueStatus (s : State) (n : Nat) : Nat :=
  (s.curQueue n).occ % 8192 + (s.curQueue n).depth % 8192 * 2 ^ 16 + b2n (s.curClosed n) * 2 ^ 31

def execQstat (h : Hdr) (d b : BitVec 6) (s : State) : Host.Outcome State Fault Refusal :=
  issue { formQueue s h (legal (.qstat h d b)) b with dst := [d.toNat] } s
    (.pure (fun s ls => giveAll s ls d.toNat (BitVec.ofNat 32 (queueStatus s b.toNat))))

/-! ## Streams (R276, R277) -/

/-- The warp's stream has not ended. -/
def Warp.streams (w : Warp) : Bool := match w.stream with | some t => !t.ended | none => false

/-- Streams of a core that have not ended. -/
def streamsRunning (s : State) (core : Nat) : Nat := ((s.core core).st.warps.filter (fun x => x.2.streams)).length

/-- The warp's stream has not ended. -/
def streamRuns (s : State) : Bool := s.curWarp.streams

def execEfork (h : Hdr) (c : BitVec 6) (o : BitVec 14) (s : State) : Host.Outcome State Fault Refusal :=
  issue { h := h, ok := legal (.efork h c o), ssrc := upFrom 32 0, uniform := true, guestOk := false } s
    { wait := fun s _ => if streamRuns s || decide (16 ≤ streamsRunning s s.cur.core) then some .stream else none
      run := fun s ls =>
        let copy : PMap Word := (upFrom 32 0).map (fun r => (r, s.sr r))
        (s.modCurWarp (fun w => { w with stream := some {
          base := relTarget s.cur.pc o.toNat 14, count := c.toNat + 1, s := copy, leader := ls.headD 0 } }), []) }

/-- What the join writes: s15 and the stream's s16 to s31. -/
def joinEffs (t : Stream) : List Eff :=
  Eff.s 15 t.status :: (upFrom 16 16).map (fun r => Eff.s r (mget t.s r 0))

def execErdv (h : Hdr) (s : State) : Host.Outcome State Fault Refusal :=
  issue { h := h, ok := legal (.erdv h), uniform := true, guestOk := false } s
    { wait := fun s _ => if streamRuns s then some .stream else none
      run := fun s ls => match s.curWarp.stream with
        | none => (s, [])
        | some t => ((s.modCurWarp (fun w => { w with stream := none })).addRes (lanesMask ls) (joinEffs t) 0, []) }

end Sys2Proof.Machine
end

