-- ==== Sys2Proof/Machine/Counter.lean ====
section
/-! DEFINITION. Waits on completion counters, barrier words and the lacing network (15_counters.md R297 to R312). -/

namespace Sys2Proof.Machine

/-! ## CWAIT and CTEST (R300, R301) -/

/-- The checks of a counter address: 2, 3, 5 and 6 of Table 10-1, and residency. -/
def waitFault (s : State) (a : Nat) : Option Flt :=
  match counterFault s (engWho s) a .load with
  | some f => some f
  | none => match locate s (engWho s) a with
    | none => some ⟨fcAddrInvalid, a, false⟩
    | some sp => match bankFault s (engWho s) sp with
      | some c => some ⟨c, a, false⟩
      | none => if sp.resident then none else some ⟨fcEngine, a, false⟩

/-- A counter's contents at its home. -/
def counterAt (s : State) (a : Nat) : Nat :=
  match ctrSpot s s.curPart s.cur.core a with
  | some sp => ctrRead s sp
  | none => 0

/-- An address lies in a bank that a resume still restores (17_faults.md R351), or its slice, or one that its walk reaches, has no
power yet (08_memories.md R172). -/
def restoringAt (s : State) (a : Nat) : Option Park :=
  match locate s (engWho s) a with
  | some (.bank c o _) => if (s.core c).restoring.contains (o / 131072) then some (.restoring c (o / 131072)) else none
  | some (.glob pa _) => if xlateWaits s s.cur.core s.curPart a || paTarget pa == .hbm && !homeServes s pa then some .owned else none
  | none => none

def formWait (h : Hdr) (q : BitVec 4) (a b : BitVec 6) (ok : Bool) : Form :=
  { h := h, ok := ok, src := regsOf a.toNat 2 ++ regsOf b.toNat 2, pdst := [q.toNat], uniform := true, guestOk := false, streamOk := true }

/-- The leader's counter address. -/
def waitAddr (a : BitVec 6) (s : State) (ls : List Nat) : Nat := (s.gd (ls.headD 0) a.toNat).toNat

/-- The leader's target. -/
def waitTarget (b : BitVec 6) (s : State) (ls : List Nat) : Nat := (s.gd (ls.headD 0) b.toNat 1).toNat

/-- The counter has reached the leader's target. -/
def reached (a b : BitVec 6) (s : State) (ls : List Nat) : Bool :=
  decide (waitTarget b s ls ≤ ctrValue (counterAt s (waitAddr a s ls)))

/-- The counter is in error (R299). -/
def inError (a : BitVec 6) (s : State) (ls : List Nat) : Bool := ctrCode (counterAt s (waitAddr a s ls)) != 0

/-- Each member's predicate as one class-D result. -/
def giveAllP (s : State) (ls : List Nat) (k : Nat) (v : Bool) : State := s.eachLane ls (fun s l => s.addLane l (effP l k v) 0)

/-- A CWAIT ends: each member learns whether the counter is in error, and the core acquires. -/
def cwaitDone (q : BitVec 4) (err : Bool) (s : State) (ls : List Nat) : State := acquire (giveAllP s ls q.toNat err) s.cur.core

/-- What the present contents of a counter are to a CWAIT of a core: none, or that it ends, in error or not. -/
def counterMet (s : State) (p core a t : Nat) : Option Bool :=
  match ctrSpot s p core a with
  | none => none
  | some sp =>
    let v := ctrRead s sp
    if ctrCode v ≠ 0 then some true else if t ≤ ctrValue v then some false else none

/-- A lane parked at CWAIT after a test of its counter. -/
def latchLane (s : State) (p core : Nat) (x : Lane) : Lane :=
  match x.park with
  | .cwait a t => (match counterMet s p core a t with | some e => { x with park := .cwaitMet e } | none => x)
  | _ => x

/-- The same for a stream. -/
def latchStream (s : State) (p core : Nat) (t : Stream) : Stream :=
  match t.park with
  | .cwait a v => (match counterMet s p core a v with | some e => { t with park := .cwaitMet e } | none => t)
  | _ => t

/-- Every parked CWAIT is tested, as each update of its counter tests it (R301): what has met it once releases it, whatever the
counter holds later. -/
def latchWaits (s : State) : State :=
  { s with cores := s.cores.map (fun (c : Nat × Core) => (c.1, { c.2 with st := { c.2.st with warps := c.2.st.warps.map (fun x =>
      (x.1, { x.2 with
        lanes := x.2.lanes.map (fun y => (y.1, latchLane s (s.launchPart x.2.launch) c.1 y.2))
        stream := x.2.stream.map (latchStream s (s.launchPart x.2.launch) c.1) })) } })) }

def execCwait (h : Hdr) (q : BitVec 4) (a b : BitVec 6) (s : State) : Host.Outcome State Fault Refusal :=
  issue (formWait h q a b (legal (.cwait h q a b))) s
    (match s.cur.met with
    | some e => .pure (cwaitDone q e)
    | none =>
    { wait := fun s ls =>
        if (waitFault s (waitAddr a s ls)).isSome then none
        else match restoringAt s (waitAddr a s ls) with
          | some p => some p
          | none => if reached a b s ls || inError a s ls then none else some (.cwait (waitAddr a s ls) (waitTarget b s ls))
      check := leaderCheck (fun s l => waitFault s (waitAddr a s [l]))
      run := fun s ls => (cwaitDone q (inError a s ls) s ls, []) })

def execCtest (h : Hdr) (q : BitVec 4) (a b : BitVec 6) (s : State) : Host.Outcome State Fault Refusal :=
  issue (formWait h q a b (legal (.ctest h q a b))) s
    { wait := fun s ls => restoringAt s (waitAddr a s ls)
      check := leaderCheck (fun s l => waitFault s (waitAddr a s [l]))
      run := fun s ls =>
        let ok := reached a b s ls && !inError a s ls
        (if ok then acquire (giveAllP s ls q.toNat ok) s.cur.core else giveAllP s ls q.toNat ok, []) }

/-! ## Barrier words (R305, R306) -/

/-- The first failing check of a barrier-word address; `live` is the state of the word that the form needs. -/
def wordFault (s : State) (live : Bool) (a : Nat) : Option Flt :=
  match locate s (engWho s) a with
  | none => some ⟨fcAddrInvalid, a, false⟩
  | some sp => match bankFault s (engWho s) sp with
    | some c => some ⟨c, a, false⟩
    | none => match ownOffset s s.cur.core a with
      | none => some ⟨fcBarrierState, a, false⟩
      | some o => if o % 16 = 0 ∧ isLive s s.cur.core o = live then none else some ⟨fcBarrierState, a, false⟩

/-- The offset of a checked barrier word. -/
def wordAt (s : State) (a : BitVec 6) (l : Nat) : Nat := (ownOffset s s.cur.core (s.gd l a.toNat).toNat).getD 0

def formWord (h : Hdr) (a b : BitVec 6) (ok uniform : Bool) : Form :=
  { h := h, ok := ok, src := regsOf a.toNat 2 ++ [b.toNat], uniform := uniform, guestOk := false }

/-- The live tag of a unit of 16 bytes. -/
def setLive (s : State) (core off : Nat) (v : Bool) : State :=
  s.modBank core (off / 131072) (fun b =>
    { b with live := if v then mset b.live (off % 131072 / 16) true else mdel b.live (off % 131072 / 16) })

/-- An engine owns bytes of a bank from its issue on, whether its hold runs already or not (R304; 10_memory_instructions.md R214). -/
def bankOwned (s : State) (core b : Nat) : Bool := (s.core core).holds.any (fun h => h.excl && h.banks.contains b)

def execBwinit (h : Hdr) (a b : BitVec 6) (s : State) : Host.Outcome State Fault Refusal :=
  issue (formWord h a b (legal (.bwinit h a b)) true) s
    { wait := fun s ls =>
        let o := wordAt s a (ls.headD 0)
        if (wordFault s false (waitAddr a s ls)).isSome then none
        else match restoringAt s (waitAddr a s ls) with
          | some p => some p
          | none => if bankOwned s s.cur.core (o / 131072) then some .owned else none
      check := leaderCheck (fun s l => match wordFault s false (s.gd l a.toNat).toNat with
        | some f => some f
        | none => if bits (s.g l b.toNat 1).toNat 0 12 = 0 then some ⟨fcBarrierState, (s.gd l a.toNat).toNat, false⟩ else none)
      run := fun s ls =>
        let o := wordAt s a (ls.headD 0)
        let n := bits (s.g (ls.headD 0) b.toNat 1).toNat 0 12
        (setLive (scratchWrite s s.cur.core o (bytesLE 16 (n * 65536 + n))) s.cur.core o true, []) }

/-- A member's word lies in a bank that a resume still restores. -/
def wordWait (a : BitVec 6) (s : State) (ls : List Nat) : Option Park :=
  ls.findSome? (fun l => restoringAt s (s.gd l a.toNat).toNat)

def execBwarr (h : Hdr) (a b : BitVec 6) (s : State) : Host.Outcome State Fault Refusal :=
  issue { formWord h a b (legal (.bwarr h a b)) false with streamOk := true } s
    { wait := wordWait a
      check := eachCheck (fun s l => wordFault s true (s.gd l a.toNat).toNat)
      run := fun s0 ls => ls.foldl (fun (r : State × List (Nat × Flt)) l =>
        let o := wordAt s0 a l
        match bwArrive (bwRead r.1 s0.cur.core o) (bits (s0.g l b.toNat 1).toNat 0 16) with
        | none => (r.1, r.2 ++ [(l, ⟨fcBarrierState, (s0.gd l a.toNat).toNat, false⟩)])
        | some v => (bwWrite r.1 s0.cur.core o v, r.2)) (s0, []) }

/-- The phase of a member's word differs from the parity that it names. -/
def phaseDone (s : State) (a b : BitVec 6) (l : Nat) : Bool :=
  bwPhase (bwRead s s.cur.core (wordAt s a l)) != (s.g l b.toNat 1).getLsbD 0

def execBwwait (h : Hdr) (a b : BitVec 6) (s : State) : Host.Outcome State Fault Refusal :=
  issue (formWord h a b (legal (.bwwait h a b)) false) s
    { wait := wordWait a
      check := eachCheck (fun s l => wordFault s true (s.gd l a.toNat).toNat)
      run := fun s0 ls =>
        let s := if ls.any (phaseDone s0 a b) then acquire s0 s0.cur.core else s0
        (s.eachLane (ls.filter (fun l => !phaseDone s0 a b l)) (fun s l =>
          parkHere s h [l] (.bwwait (wordAt s0 a l) ((s0.g l b.toNat 1).getLsbD 0))), []) }

def execBwtest (h : Hdr) (q : BitVec 3) (a b : BitVec 6) (s : State) : Host.Outcome State Fault Refusal :=
  issue { formWord h a b (legal (.bwtest h q a b)) false with pdst := [q.toNat] } s
    { wait := wordWait a
      check := eachCheck (fun s l => wordFault s true (s.gd l a.toNat).toNat)
      run := fun s0 ls =>
        let s := if ls.any (phaseDone s0 a b) then acquire s0 s0.cur.core else s0
        (s.eachLane ls (fun s l => s.addLane l (effP l q.toNat (phaseDone s0 a b l)) 0), []) }

def execBwdrop (h : Hdr) (a : BitVec 6) (s : State) : Host.Outcome State Fault Refusal :=
  issue { h := h, ok := legal (.bwdrop h a), src := regsOf a.toNat 2, uniform := true, guestOk := false } s
    { wait := wordWait a
      check := leaderCheck (fun s l =>
        let va := (s.gd l a.toNat).toNat
        match wordFault s true va with
        | some f => some f
        | none => if wordInUse s s.cur.core (wordAt s a l) then some ⟨fcBarrierState, va, false⟩ else none)
      run := fun s ls => (setLive s s.cur.core (wordAt s a (ls.headD 0)) false, []) }

/-! ## The lacing network (R307 to R312) -/

/-- The state of a lacing group of the issuing partition. -/
def State.lacing (s : State) (p g : Nat) : Lacing := mget (s.part p).lacing g {}

def State.setLacing (s : State) (p g : Nat) (x : Lacing) : State :=
  s.modPart p (fun y => { y with lacing := mset y.lacing g x })

/-- Every bit of a mask is set. -/
def covers (have_ mask : Nat) : Bool := (maskLanesFrom 256 0 mask).all (bitOf have_)

/-- A generation is complete (R308). -/
def Lacing.full (x : Lacing) : Bool := x.mask != 0 && covers x.arrived x.mask

/-- One completion of a generation. -/
def Lacing.turn (x : Lacing) : Lacing :=
  let m := if x.next ≠ 0 then x.next else x.mask
  { x with gen := (x.gen + 1) % 2 ^ 64, mask := m, next := 0, arrived := x.early &&& m, early := 0 }

/-- The test made again until no generation completes: after two completions nothing has arrived. -/
def Lacing.settle (x : Lacing) : Lacing :=
  if x.full then (if x.turn.full then x.turn.turn else x.turn) else x

/-- Batches and streams parked at LBARV on a group make their arrival again. -/
def wakeLacing (s : State) (p g : Nat) : State :=
  { s with cores := s.cores.map (fun c =>
      if bitOf (s.part p).cores c.1 then (c.1, { c.2 with st := { c.2.st with warps := c.2.st.warps.map (fun x => (x.1, { x.2 with
        lanes := x.2.lanes.map (fun y => (y.1,
          if y.2.state = .parked ∧ (match y.2.park with | .lbarv g' _ => g' == g | _ => false) = true then
            y.2.released else y.2))
        stream := x.2.stream.map (fun t => match t.park with
          | .lbarv g' _ => if g' = g then { t with park := .none } else t
          | _ => t) })) } })
      else c) }

/-- A lacing group takes a new state, and its generations complete. -/
def lacingStep (s : State) (p g : Nat) (x : Lacing) : State :=
  let y := x.settle
  let s := s.setLacing p g y
  if y.gen = x.gen then s else wakeLacing s p g

def formLace (h : Hdr) (ok stream : Bool) : Form := { h := h, ok := ok, uniform := true, guestOk := false, streamOk := stream }

/-- The arrival of a core, when it has one to make (R310). -/
def Lacing.arrive (x : Lacing) (core : Nat) : Option Lacing :=
  if !bitOf x.arrived core then some { x with arrived := x.arrived + 2 ^ core, tickets := mset x.tickets core x.gen }
  else if !bitOf x.early core then some { x with early := x.early + 2 ^ core, tickets := mset x.tickets core (x.gen + 1) }
  else none

def execLbarv (h : Hdr) (l : BitVec 6) (s : State) : Host.Outcome State Fault Refusal :=
  let member (s : State) : Bool := bitOf (s.lacing s.curPart l.toNat).mask s.cur.core
  issue { formLace h (legal (.lbarv h l)) true with persist := true } s
    { wait := fun s _ =>
        if member s && ((s.lacing s.curPart l.toNat).arrive s.cur.core).isNone then some (.lbarv l.toNat (s.lacing s.curPart l.toNat).gen) else none
      check := leaderCheck (fun s _ => if member s then none else some ⟨fcBarrierState, l.toNat, false⟩)
      run := fun s _ =>
        let s := releaseWide s s.cur.core
        match (s.lacing s.curPart l.toNat).arrive s.cur.core with
        | some x => (lacingStep s s.curPart l.toNat x, [])
        | none => (s, []) }

/-- The generation for which a core waits is over. -/
def laced (s : State) (p g : Nat) (ticket : Option Nat) : Bool :=
  match ticket with
  | none => true
  | some w => decide (w < (s.lacing p g).gen)

def execLbwait (h : Hdr) (l : BitVec 6) (s : State) : Host.Outcome State Fault Refusal :=
  issue (formLace h (legal (.lbwait h l)) false) s
    (.pure (fun s ls =>
      let t := mfind (s.lacing s.curPart l.toNat).tickets s.cur.core
      if laced s s.curPart l.toNat t then acquire s s.cur.core
      else parkHere (countEvent s s.cur.core 0x0E 1) h
        (s.members.filter (fun k => ls.contains k || (s.curLane k).state == .ready)) (.lbwait l.toNat (t.getD 0))))

/-- Where LBSET reads its mask. -/
def lbsetCheck (s : State) (a : Nat) : Except Flt (List Half) := accessCheck s (engWho s) .load a 32 32

/-- The mask as an engine reads it. -/
def lbsetMask (s : State) (a : Nat) : Nat :=
  match engReads (engRead s s.curPart s.cur.core s.fresh []) ((upFrom 32 a).map EByte.va) with
  | .ok bs => ofBytesLE bs
  | .error _ => 0

/-- The fault of an LBSET. -/
def lbsetFault (s : State) (a g : Nat) : Option Flt :=
  match lbsetCheck s a with
  | .error f => some f
  | .ok hs =>
    if !hs.all (fun x => x.spot.resident) then some ⟨fcEngine, a, false⟩
    else if lbsetMask s a = 0 || !covers (s.part s.curPart).cores (lbsetMask s a) then some ⟨fcBarrierState, g, false⟩
    else none

def execLbset (h : Hdr) (l a : BitVec 6) (s : State) : Host.Outcome State Fault Refusal :=
  issue { formLace h (legal (.lbset h l a)) false with src := regsOf a.toNat 2 } s
    { wait := fun s ls => restoringAt s (waitAddr a s ls)
      check := leaderCheck (fun s k => lbsetFault s (s.gd k a.toNat).toNat l.toNat)
      run := fun s ls =>
        let m := lbsetMask s (waitAddr a s ls)
        let x := s.lacing s.curPart l.toNat
        (lacingStep s s.curPart l.toNat
          (if x.mask = 0 then { x with mask := m, arrived := 0, early := 0 } else { x with next := m }), []) }

end Sys2Proof.Machine
end

