-- ==== Sys2Proof/Machine/System.lean ====
section
/-! DEFINITION. Shape instructions, system registers and hints (07_shape_system.md R133, R137 to R146; 03_instruction_words.md
R57, R58; 10_memory_instructions.md R194). -/

namespace Sys2Proof.Machine

/-! ## SHLD and SHST (R138) -/

/-- The checks of the leader's 64 bytes. -/
def shapeCheck (s : State) (k : AccKind) (va : Nat) : Except Flt (List Half) :=
  if va % 64 ≠ 0 then .error ⟨fcMisalign, va, false⟩ else accessCheck s (engWho s) k va 64 1

def errFault (r : Except Flt (List Half)) : Option Flt :=
  match r with
  | .error f => some f
  | .ok _ => none

def execShld (h : Hdr) (hf : BitVec 4) (a : BitVec 6) (s : State) : Host.Outcome State Fault Refusal :=
  issue { h := h, ok := legal (.shld h hf a), src := regsOf a.toNat 2, uniform := true, guestOk := false } s
    { wait := fun s ls => accessWait s true false 0 false (fun _ => okHalves (shapeCheck s .load (waitAddr a s ls))) [ls.headD 0]
      check := leaderCheck (fun s l => errFault (shapeCheck s .load (s.gd l a.toNat).toNat))
      run := fun s ls =>
        let hs := okHalves (shapeCheck s .load (waitAddr a s ls))
        if hs.any (meetsBadTag s (engWho s) 0) then
          (clearLost s hs, ls.map (fun l => (l, (⟨fcPoisonRead, hf.toNat, false⟩ : Flt))))
        else
          let v : BitVec 512 := BitVec.ofNat 512 (ofBytesLE (readHalves s (engWho s) 0 hs))
          (memSample (readPast (s.addRes (lanesMask ls) [.shape hf.toNat v] 0) (engWho s) 0 hs) [ls.headD 0] (fun _ => waitAddr a s ls) 64 false, []) }

def execShst (h : Hdr) (hf : BitVec 4) (a : BitVec 6) (s : State) : Host.Outcome State Fault Refusal :=
  issue { h := h, ok := legal (.shst h hf a), src := regsOf a.toNat 2, shsrc := [hf.toNat], uniform := true, guestOk := false } s
    { wait := fun s ls =>
        let hs := okHalves (shapeCheck s .store (waitAddr a s ls))
        (postWait s ls hs).or (accessWait s false true 0 false (fun _ => hs) [ls.headD 0])
      check := leaderCheck (fun s l => errFault (shapeCheck s .store (s.gd l a.toNat).toNat))
      run := fun s ls =>
        let hs := okHalves (shapeCheck s .store (waitAddr a s ls))
        let s1 := writeHalves (postCommit s hs) (engWho s) 0 hs (bytesLE 64 (s.shape hf.toNat).toNat)
        (egressSettle (memSample s1 [ls.headD 0] (fun _ => waitAddr a s ls) 64 true) s.cur.core, []) }

/-! ## SHGET and SHSET (R133, R138) -/

/-- The first bit of a field of Table 7-4. -/
def shapeLow (f : Nat) : Nat :=
  [0, 64, 128, 192, 224, 256, 276, 296, 320, 340, 360, 384, 416, 448, 480, 192, 197, 200, 202, 207, 209, 211, 212, 224, 230, 237].getD f 0

def execShget (h : Hdr) (hf : BitVec 4) (a f : BitVec 6) (s : State) : Host.Outcome State Fault Refusal :=
  let wide := shapeWidth f.toNat == 64
  issue { h := h, ok := legal (.shget h hf a f), dst := regsOf a.toNat (if wide then 2 else 1), shsrc := [hf.toNat], uniform := true
          guestOk := false } s
    (.pure (fun s0 ls =>
      let v := shF (s0.shape hf.toNat) (shapeLow f.toNat) (shapeWidth f.toNat)
      s0.eachLane ls (fun s l => s.addLane l
        (if wide then effGd s.curWarp l a.toNat (BitVec.ofNat 64 v) else effG s.curWarp l a.toNat (BitVec.ofNat 32 v)) 0)))

def execShset (h : Hdr) (hf : BitVec 4) (a f : BitVec 6) (s : State) : Host.Outcome State Fault Refusal :=
  let wide := shapeWidth f.toNat == 64
  issue { h := h, ok := legal (.shset h hf a f), src := regsOf a.toNat (if wide then 2 else 1), uniform := true, guestOk := false } s
    (.pure (fun s ls =>
      let l := ls.headD 0
      let v := (if wide then (s.gd l a.toNat).toNat else (s.g l a.toNat).toNat) % 2 ^ shapeWidth f.toNat
      s.addRes (lanesMask ls) [.shapeField hf.toNat (shapeLow f.toNat) (shapeWidth f.toNat) v] 0))

/-! ## System registers (R139 to R141, Tables 7-6 and 7-7) -/

/-- The register that a number names: its own number, or the even number of its pair. -/
def csrBase (c : Nat) : Nat := if c % 2 = 1 ∧ csrWide (c - 1) then c - 1 else c

/-- The context of the instruction in progress. -/
def State.curCtx (s : State) : Ctx := ((s.core s.cur.core).st.ctx? s.curWarp.launch).getD {}

/-- A priority: the context's, or the one that a guest carries. -/
def lanePrio (s : State) (l : Nat) : Nat := match (s.curLane l).guest with | some g => g.prio | none => s.curCtx.prio

/-- The value of a system register as a fibre sees it. -/
def csrValue (s : State) (l base : Nat) : Nat :=
  let k := s.core s.cur.core
  let m := s.motif (s.cur.core / 8)
  let w := s.curWarp
  let x := w.lane l
  let c := s.curCtx
  if base = 0x000 then s.time % 2 ^ 64
  else if base = 0x002 then s.cur.core
  else if base = 0x003 then taskidOf s s.cur.core s.cur.slot l
  else if base = 0x004 then x.workid.toNat
  else if base = 0x006 then lanePrio s l % 8
  else if base = 0x007 then b2n c.persistOff
  else if base = 0x008 then c.faultq.toNat
  else if base = 0x020 then x.sp.toNat
  else if base = 0x022 then x.lk.toNat
  else if base = 0x024 then x.wbase
  else if base = 0x025 then x.safecnt - 1
  else if base = 0x030 then s.cur.lanes.toNat
  else if base = 0x031 then w.stklim.toNat
  else if base = 0x032 then w.migset.toNat
  else if base = 0x034 then w.stkbase.toNat
  else if base = 0x040 then c.opf.toNat
  else if base = 0x041 then c.accsat.toNat
  else if base = 0x042 then c.dlrem.toNat
  else if base = 0x044 then c.ebudget.toNat
  else if base = 0x045 then c.ebrate.toNat
  else if base = 0x060 then m.passcnt
  else if base = 0x061 then m.lratio
  else if base = 0x062 then m.opl
  else if base = 0x063 then b2n k.hazchk
  else if base = 0x080 then k.cycf.toNat
  else if base = 0x082 then k.issu.toNat
  else if base = 0x084 then k.mstl.toNat
  else if base = 0x086 then k.lbsy.toNat
  else if base = 0x088 then k.st.migfallback.toNat
  else if 0x0A0 ≤ base ∧ base < 0x0C0 then (mget k.evc ((base - 0x0A0) / 2) 0).toNat
  else (mget k.evsel (base - 0x0C0) 0).toNat

/-- The registers that a guest may read. -/
def guestCsr (base : Nat) : Bool := [0x000, 0x002, 0x003, 0x004, 0x006].contains base

/-- MIG_REG of a guest's access, with the number in the address field. -/
def guestCsrFault (c : BitVec 12) (read : Bool) (s : State) (l : Nat) : Option Flt :=
  if (s.curLane l).guest.isSome && !(read && guestCsr (csrBase c.toNat)) then some ⟨fcMigReg, c.toNat, false⟩ else none

def execCsrr (h : Hdr) (d : BitVec 6) (c : BitVec 12) (s : State) : Host.Outcome State Fault Refusal :=
  let wide := csrWide c.toNat
  issue { h := h, ok := legal (.csrr h d c), dst := regsOf d.toNat (if wide then 2 else 1) } s
    { check := eachCheck (guestCsrFault c true)
      run := fun s0 ls => (s0.eachLane ls (fun s l =>
        let v := csrValue s0 l (csrBase c.toNat)
        s.addLane l (if wide then effGd s.curWarp l d.toNat (BitVec.ofNat 64 v) else effG s.curWarp l d.toNat (BitVec.ofNat 32 v)) 0), []) }

/-- Registers with no field that is writable at either level. -/
def csrFixed (base : Nat) : Bool := [0x000, 0x002, 0x003, 0x004, 0x006, 0x007, 0x030].contains base

/-- Registers that a task writes. -/
def csrTask (base : Nat) : Bool := [0x032, 0x040, 0x041].contains base

/-- The new value of a register whose low half alone is written through an odd number. -/
def csrNew (c : BitVec 12) (old v : Nat) (f : Nat → Nat → Nat) : Nat :=
  if csrWide c.toNat then f old v else old / 2 ^ 32 * 2 ^ 32 + f (old % 2 ^ 32) (v % 2 ^ 32) % 2 ^ 32

/-- The value that a write would leave. -/
def csrNext (s : State) (d : BitVec 6) (c : BitVec 12) (f : Nat → Nat → Nat) (l : Nat) : Nat :=
  csrNew c (csrValue s l (csrBase c.toNat)) (if csrWide c.toNat then (s.gd l d.toNat).toNat else (s.g l d.toNat).toNat) f

/-- The privilege and the limits of a write (R141). -/
def csrWriteFault (s : State) (d : BitVec 6) (c : BitVec 12) (f : Nat → Nat → Nat) (l : Nat) : Option Flt :=
  let b := csrBase c.toNat
  if csrTask b then
    (if b = 0x032 ∧ popcount 64 (csrNext s d c f l) > 16 then some ⟨fcIllegalOp, 0, false⟩ else none)
  else if b = 0x063 ∧ !inHalt s s.cur.core then none
  else if csrFixed b then some ⟨fcIllegalOp, 0, false⟩
  else some ⟨fcPriv, c.toNat, false⟩

/-- A write of a register that a task may write. -/
def csrStore (s : State) (base v : Nat) : State :=
  if base = 0x032 then s.modCurWarp (fun w => { w with migset := BitVec.ofNat 64 v })
  else if base = 0x040 then s.modCtx s.cur.core s.curWarp.launch (fun x => { x with opf := BitVec.ofNat 6 v })
  else if base = 0x041 then s.modCtx s.cur.core s.curWarp.launch (fun x => { x with accsat := BitVec.ofNat 2 v })
  else s

/-- CSRW, CSRS and CSRC differ in the new value. -/
def formCsr (h : Hdr) (d : BitVec 6) (c : BitVec 12) (ok : Bool) : Form :=
  { h := h, ok := ok, src := regsOf d.toNat (if csrWide c.toNat then 2 else 1), uniform := true }

def actCsr (d : BitVec 6) (c : BitVec 12) (f : Nat → Nat → Nat) : Act :=
  { check := leaderCheck (fun s l => match guestCsrFault c false s l with
      | some x => some x
      | none => csrWriteFault s d c f l)
    run := fun s ls => (csrStore s (csrBase c.toNat) (csrNext s d c f (ls.headD 0)), []) }

def execCsrw (h : Hdr) (d : BitVec 6) (c : BitVec 12) (s : State) : Host.Outcome State Fault Refusal :=
  issue (formCsr h d c (legal (.csrw h d c))) s (actCsr d c (fun _ v => v))

def execCsrs (h : Hdr) (d : BitVec 6) (c : BitVec 12) (s : State) : Host.Outcome State Fault Refusal :=
  issue (formCsr h d c (legal (.csrs h d c))) s (actCsr d c (fun r v => r ||| v))

def execCsrc (h : Hdr) (d : BitVec 6) (c : BitVec 12) (s : State) : Host.Outcome State Fault Refusal :=
  issue (formCsr h d c (legal (.csrc h d c))) s (actCsr d c (fun r v => r ^^^ (r &&& v)))

/-! ## Hints (R57, R58, R142 to R146) -/

/-- The instruction in progress with its own address and no hint: the frame of a hint that faults itself (R58). -/
def State.bareCur (s : State) : State := { s with cur := { s.cur with hints := [], hpc := s.cur.pc } }

def noForm : Form := { h := ⟨false, false, 0⟩ }

/-- The members hold a further hint. -/
def holdHint (s : State) (x : Hint) : State :=
  let t := s.fresh
  let first := if s.cur.hints.isEmpty then s.cur.pc else s.cur.hpc
  { s with fresh := t + 1 }.eachLane s.members (fun s l => s.modCurLane l (fun y =>
    { y with pc := nextPc s.cur.pc, hints := s.cur.hints ++ [x], hpc := first, tag := t }))

/-- A stream holds a further hint; after its last word it has ended. -/
def holdStreamHint (s : State) (x : Hint) : State :=
  let s := s.modCurStream (fun t => { t with idx := t.idx + 1, hints := t.hints ++ [x], ended := decide (t.count ≤ t.idx + 1) })
  if s.curStream.ended then wake s s.cur.core (fun p => p == .stream) else s

/-- A hint word faults itself: every member takes ILLEGAL_OP, or the stream ends with it (R58, R59). -/
def badHint (s : State) : State :=
  if s.cur.stream then streamFault s.bareCur noForm ⟨fcIllegalOp, 0, false⟩
  else settleWarp (raiseAll s.bareCur noForm 0 (s.members.map (fun l => (l, (⟨fcIllegalOp, 0, false⟩ : Flt))))) s.cur.core s.cur.slot

/-- A hint issues, under no guard: the next instruction of its batch takes it, or the hint faults itself. -/
def issueHint (s : State) (ok : Bool) (x : Hint) : Host.Outcome State Fault Refusal :=
  let good := ok && hintLimits (s.cur.hints ++ [x])
  .next (if !good then badHint s else if s.cur.stream then holdStreamHint s x else holdHint s x)

def execImmx (i : BitVec 20) (s : State) : Host.Outcome State Fault Refusal := issueHint s (legal (.immx i)) (.immx i)

def execOpndReg (r : BitVec 6) (s : State) : Host.Outcome State Fault Refusal :=
  issueHint s (legal (.opndReg r)) (.opndReg r.toNat)

def execOpndPred (p : BitVec 4) (s : State) : Host.Outcome State Fault Refusal :=
  issueHint s (legal (.opndPred p)) (.opndPred p.toNat)

def execModr (v : BitVec 1) (m : BitVec 2) (t : BitVec 1) (c k : BitVec 3) (o w : BitVec 2) (s : State) :
    Host.Outcome State Fault Refusal :=
  issueHint s (legal (.modr v m t c k o w)) (.modr (v == 1) m.toNat (t == 1) c.toNat k.toNat o.toNat w.toNat)

def execSchd (y : BitVec 1) (u : BitVec 3) (s : State) : Host.Outcome State Fault Refusal :=
  issueHint s (legal (.schd y u)) (.schd (y == 1) u.toNat)

def execEcls (e : BitVec 4) (s : State) : Host.Outcome State Fault Refusal :=
  issueHint s (legal (.ecls e)) (.ecls e.toNat)

end Sys2Proof.Machine
end

