-- ==== Sys2Proof/Machine/Select.lean ====
section
/-! DEFINITION. Batches, their selection and their fetch (06_control_state.md R111 to R113, R115, R125; 13_queues.md R271;
01_machine.md R24, R395; 08_memories.md R159, R160; 15_counters.md R315 to R318), words that are no instructions
(03_instruction_words.md R59). -/

namespace Sys2Proof.Machine

/-! ## Batches (R111) -/

/-- The address of the word at which a lane stands: after its hints when it holds some (R58). -/
def Lane.word (x : Lane) : DWord := if x.hints.isEmpty then x.pc else pcAfter x.hpc x.hints.length

/-- A batch: its lanes ascending, the address of its next word, its tag, its age count, and whether YIELD defers it. -/
structure Batch where
  lanes : List Nat
  pc : DWord
  tag : Nat
  age : Nat
  deferred : Bool
  deriving DecidableEq, Repr

/-- A READY lane joins the batch of its address, unless the batch may not merge. A batch of parts that YIELD has deferred and of parts that it
has not is not deferred (R125; DESIGN CHOICE, log 113). -/
def joinBatch (w : Warp) (bs : List Batch) (l : Nat) : List Batch :=
  let x := w.lane l
  if bs.any (fun b => b.pc == x.word && b.tag == x.tag) then
    bs.map (fun b => if b.pc = x.word ∧ b.tag = x.tag then
      { b with lanes := b.lanes ++ [l], age := max b.age x.age, deferred := b.deferred && decide (0 < x.defer) } else b)
  else bs ++ [⟨[l], x.word, x.tag, x.age, decide (0 < x.defer)⟩]

/-- The ready batches of a warp. -/
def Warp.batches (w : Warp) : List Batch := (lanesIn w (· == .ready)).foldl (joinBatch w) []

/-- Whether a batch issues before another (R112). -/
def Batch.before (a b : Batch) : Bool :=
  let ka := if a.age ≥ 1024 then a.age else 0
  let kb := if b.age ≥ 1024 then b.age else 0
  if ka ≠ kb then decide (kb < ka) else decide (a.pc.toNat < b.pc.toNat)

/-- The batch that issues (R112). Of two that tie in age and in PC, which only batches that may not merge can, the one with the lowest lane
(DESIGN CHOICE, log 113). -/
def bestBatch : List Batch → Option Batch
  | [] => none
  | b :: bs => match bestBatch bs with
    | none => some b
    | some c => if c.before b then some c else some b

/-! ## Fetch (R115, R159, R160; 16_tables.md R323) -/

/-- What a fetch gives. -/
inductive Fetched where
  | word (w : Word)
  | fault (code : Nat)
  /-- The page is mapped and not resident. -/
  | absent
  /-- A slice that the fetch or its walk reaches has no power yet (08 R172). -/
  | waits
  deriving DecidableEq, Repr

/-- The bytes of an instruction word at its home. -/
def homeWord (s : State) (pa : Nat) : Word := BitVec.ofNat 32 (ofBytesLE (homeBytes s pa 4))

/-- The fetch of a word past the instruction cache. An address in a window whose offset is 8 MiB or more is no address of it: ADDR_INVALID, as
08 R148 says of any use, before the IFETCH_NX of 08 R147 (DESIGN CHOICE, log 115). -/
def fetchFar (s : State) (core p va : Nat) : Fetched :=
  match regionOf va with
  | .invalid => .fault fcAddrInvalid
  | .scratch _ _ => .fault fcIfetchNx
  | .localWin _ => .fault fcIfetchNx
  | .global =>
    if xlateWaits s core p va then .waits
    else match xlate s core p va with
    | none => .fault fcAddrInvalid
    | some l => match paTarget (l.pa va) with
      | .peer _ _ => .fault fcAddrPerm
      | _ =>
        if !l.canExec then .fault fcIfetchNx
        else if !l.resident then .absent
        else if !homeServes s (l.pa va) then .waits
        else .word (homeWord s (l.pa va))

/-- The fetch of a word by a core: a word of its instruction cache, or the word at the home. -/
def fetch (s : State) (core p va : Nat) : Fetched :=
  match mfind (s.core core).icache va with
  | some w => .word w
  | none => fetchFar s core p va

/-! ## Candidates (R271, R315, R316) -/

/-- A core issues: powered, not stopped, in a partition that runs (06, 16_tables.md R337, 17_faults.md R346). -/
def coreRuns (s : State) (core : Nat) : Bool :=
  let k := s.core core
  k.power == .active && !k.stopped && !k.resuming && !k.journalFull && !(s.motif (core / 8)).relocks.1 &&
  (match s.partOfCore core with | some p => (s.part p).state == 1 | none => false)

/-- The energy of a context stalls its instructions. -/
def ctxStalled (c : Ctx) : Bool := !meteringOff c && decide (sint c.ebudget ≤ 0)

/-- The energy of a batch's context, or of its leader's home context as last reported, stalls it. -/
def energyStall (s : State) (core : Nat) (w : Warp) (b : Batch) : Bool :=
  match (w.lane (b.lanes.headD 0)).guest with
  | some g => (s.core core).guestStalls.contains (g.origin, g.launch)
  | none => match (s.core core).st.ctx? w.launch with
    | some c => ctxStalled c
    | none => false

/-- The batches of a warp that may issue: their energy allows it and their fetch waits for no power; a YIELD deferral counts unless
it is ended (R125; 08 R172). -/
def openBatches (s : State) (core : Nat) (early : Bool) (w : Warp) : List Batch :=
  w.batches.filter (fun b => !energyStall s core w b && fetch s core (s.launchPart w.launch) b.pc.toNat != .waits &&
    (early || !b.deferred || decide (1024 ≤ b.age)))

/-- The scheduler of a warp slot. -/
def schedOf (slot : Nat) : Nat := slot / 16

/-- The warps of a scheduler with a batch to issue. -/
def candidates (s : State) (core sched : Nat) : List (Nat × Warp × Batch) :=
  let ws := (s.core core).st.warps.filter (fun x => schedOf x.1 == sched)
  let pick (early : Bool) := ws.filterMap (fun x => (bestBatch (openBatches s core early x.2)).map (fun b => (x.1, x.2, b)))
  if (pick false).isEmpty then pick true else pick false

/-- The priority of a warp's task (R271). -/
def warpPrio (s : State) (core : Nat) (w : Warp) (b : Batch) : Nat :=
  match (w.lane (b.lanes.headD 0)).guest with
  | some g => g.prio
  | none => match (s.core core).st.ctx? w.launch with | some c => c.prio | none => 0

/-- The stage pressure of a warp. -/
def pressure (s : State) (core : Nat) (w : Warp) : Nat :=
  if w.isGuest || w.stage == 0 then 0
  else match (mfind (s.core core).st.groups w.group).bind (fun g => mfind g.queues w.stage) with
    | some q => if q.depth = 0 then 0 else 4096 * q.occ / q.depth
    | none => 0

/-- The keys of R271, the larger winning. -/
def warpKeys (s : State) (core : Nat) (x : Nat × Warp × Batch) : List Nat :=
  [if x.2.1.waited ≥ 4096 then x.2.1.waited else 0, warpPrio s core x.2.1 x.2.2, pressure s core x.2.1,
    (s.core core).issues - x.2.1.lastIssue, 64 - x.1]

def keysLt : List Nat → List Nat → Bool
  | a :: as, b :: bs => if a = b then keysLt as bs else decide (a < b)
  | _, _ => false

/-- The warp and the batch that a scheduler selects. -/
def selectFrom (s : State) (core : Nat) : List (Nat × Warp × Batch) → Option (Nat × Warp × Batch)
  | [] => none
  | x :: xs => match selectFrom s core xs with
    | none => some x
    | some y => if keysLt (warpKeys s core x) (warpKeys s core y) then some y else some x

def select (s : State) (core sched : Nat) : Option (Nat × Warp × Batch) :=
  if coreRuns s core then selectFrom s core (candidates s core sched) else none

/-! ## Instructions -/

/-- The instruction that a word stands for: a word that is none raises ILLEGAL_OP when it issues (R59). -/
def instrOf (w : Word) : Instr :=
  match decode w with
  | .ok i => i
  | .error _ => .illegalOpWord w

/-! ## The instruction in progress -/

/-- A batch's next word becomes the instruction in progress. -/
def State.setCur (s : State) (core slot : Nat) (w : Warp) (b : Batch) (word : Word) : State :=
  let x := w.lane (b.lanes.headD 0)
  { s with cur := {
      core := core, slot := slot, lanes := lanesMask b.lanes, pc := b.pc, word := word, stream := false, hints := x.hints
      hpc := if x.hints.isEmpty then b.pc else x.hpc, counted := b.lanes.all (fun l => (w.lane l).counted) } }

/-- The fault of a fetch, for every member; the record holds no instruction word. -/
def fetchFault (s : State) (code : Nat) : State :=
  settleWarp (faultLanes s s.cur.core s.cur.slot (s.members.map (fun l => (l, curRecord s noForm 0 ⟨code, s.cur.pc.toNat, false⟩))) s.cur.hpc)
    s.cur.core s.cur.slot

/-- The members park until the page of their next word is resident. -/
def fetchPark (s : State) : State :=
  let p := s.curPart
  let s := s.eachLane s.members (fun s l => s.modCurLane l (fun x => { x with
    state := .parked, park := .fetch (pageKey p s.cur.pc.toNat) }))
  settleWarp (notePage s s.cur.core p s.cur.pc.toNat 1 (s.members.headD 0) s.cur.slot) s.cur.core s.cur.slot

/-! ## Words that are no instructions (R59) -/

/-- The header of a word: its guard and its switch marker; a hint word and a never-guard word have none. -/
def wordHdr (w : Word) : Hdr :=
  let h := hdrOf w.toNat
  if !guarded w.toNat || (h.gn && h.gp == 0) then ⟨false, false, 0⟩ else h

def isHintWord (w : Nat) : Bool := bits w 24 7 == 0x7E

/-- A word of the hints' major that is no hint faults as a hint does; any other word issues and is illegal (R58, R59). -/
def execIllegalOpWord (w : BitVec 32) (s : State) : Host.Outcome State Fault Refusal :=
  if isHintWord w.toNat then .next (badHint s) else issue { h := wordHdr w, ok := false } s (.pure (fun s _ => s))

/-! ## Counting (R317, R318; R112) -/

/-- The instructions of Table 1-8 that need the lanes. -/
def needsLanes (w : Nat) : Bool :=
  let m := bits w 24 7
  decide (m ≤ 0x0B) || (decide (0x18 ≤ m) && decide (m ≤ 0x1C)) || m == 0x1E || (decide (0x20 ≤ m) && decide (m ≤ 0x3D)) ||
  (m == 0x3E && bits w 0 2 == 1) || (decide (0x50 ≤ m) && decide (m ≤ 0x5E)) || (m == 0x5F && decide (2 ≤ bits w 16 4)) ||
  (m == 0x6A && bits w 0 2 == 0) || (m == 0x79 && decide (1 ≤ bits w 17 3) && decide (bits w 17 3 ≤ 3)) ||
  (m == 0x7B && bits w 0 2 == 0) || (m == 0x7D && bits w 0 2 == 0)

/-- A front-end cycle of a core. -/
def cycle (s : State) (core : Nat) : State :=
  if (s.core core).power = .active then
    let s := s.modCore core (fun k => { k with cycf := k.cycf + 1 })
    let s := countEvent s core 0x01 1
    let copies := (s.core core).st.warps.any (fun x => x.2.lanes.any (fun y => y.2.state == .parked && y.2.park == .copySlot))
    if copies then countEvent s core 0x08 1 else s
  else s

/-- A lane parked on memory: at an S park that a load, an atomic or a residency test holds, at a fetch, an egress park or a CWAIT
(R317). -/
def memPark (w : Warp) (l : Nat) : Bool :=
  (w.lane l).state == .parked && (match (w.lane l).park with
    | .fetch _ | .egress | .cwait _ _ | .cwaitMet _ => true
    | .switchMark => (w.lane l).owed.any (fun x => w.pend.any (fun r => r.mem && r.touches x.1 && decide (r.id < x.2)))
    | _ => false)

/-- A cycle of a scheduler that issues nothing (MSTL, event 0x0B). -/
def idleCycle (s : State) (core sched : Nat) : State :=
  let k := s.core core
  if k.power != .active then s
  else
    let mem := k.st.warps.any (fun x => (upFrom 32 0).any (memPark x.2))
    let stall := k.st.warps.any (fun x => schedOf x.1 == sched && x.2.batches.any (energyStall s core x.2))
    let s := if mem then s.modCore core (fun k => { k with mstl := k.mstl + 1 }) else s
    if stall then countEvent s core 0x0B 1 else s

/-- The age counts, the waits and the deferrals after a selection: every selection takes an issue slot (log 87), and ends the
deferral of the batch that it takes (R125). -/
def noteSelected (s : State) (core sched slot : Nat) (b : Batch) (cands : List Nat) : State :=
  s.modCore core (fun k =>
    let n := k.issues + 1
    { k with
      issues := n
      st := { k.st with warps := k.st.warps.map (fun x =>
        if schedOf x.1 ≠ sched then x
        else (x.1, { x.2 with
          waited := if x.1 = slot then 0 else if cands.contains x.1 then x.2.waited + 1 else 0
          lastIssue := if x.1 = slot then n else x.2.lastIssue
          lanes := x.2.lanes.map (fun y => (y.1, { y.2 with
            defer := if x.1 = slot && b.lanes.contains y.1 then 0 else y.2.defer - 1
            age := if x.1 ≠ slot then y.2.age else if b.lanes.contains y.1 then 0
              else if y.2.state = .ready then y.2.age + 1 else y.2.age })) })) } })

/-- An issue counts (ISSU, LBSY, events 0x02 and 0x03); the sequencer's is no scheduler's (R317). -/
def noteIssue (s : State) (core : Nat) (w : Nat) (stream : Bool) : State :=
  if isHintWord w then countEvent s core 0x03 1
  else if stream then countEvent s core 0x02 1
  else
    let passes := 2 ^ min (s.motif (core / 8)).passcnt 2
    countEvent (s.modCore core (fun k => { k with
      issu := k.issu + 1, lbsy := if needsLanes w then k.lbsy + BitVec.ofNat 64 passes else k.lbsy })) core 0x02 1

end Sys2Proof.Machine
end

