-- ==== Sys2Proof/Machine/Release.lean ====
section
/-! DEFINITION. The ends of waits and the passing of set times: results and parks (03_instruction_words.md R52, R53;
06_control_state.md R125), counters, lacing, stage queues (15_counters.md R301, R308, R311; 13_queues.md R272, R274), fetch and
stack pages (08_memories.md R160, R164; 16_tables.md R328), egress (09_consistency.md R190), energy and deadlines
(15 R313, R315, R316) and handler posts (17_faults.md R345). -/

namespace Sys2Proof.Machine

/-! ## Results and S parks -/

/-- CLASS_D_RESULT: a pending result that nothing delays is written (R53). -/
def execClassDResult (core slot res : Nat) (s : State) : Host.Outcome State Fault Refusal :=
  .next (deliverId s core slot res)

/-- The pager mailbox of a partition would not turn a post away as full. -/
def pagerRoom (s : State) (p : Nat) : Bool :=
  match findBind s (s.part p).pgmbx.toNat with
  | some (_, _, b) => decide (b.queued < b.depth)
  | none => true

/-- Members of a PGREQ at an address whose posts have not been accepted: parked, or about to issue it again. -/
def pagerLate (w : Warp) (pc : DWord) : Bool :=
  w.lanes.any (fun x => x.2.pc == pc && ((x.2.state == .parked && x.2.park == .pager) || (x.2.state == .ready && x.2.counted)))

/-- A PGREQ goes on (10_memory_instructions.md R211): members that found the mailbox full issue it again when there is room, and those
whose posts were accepted go on when no other member waits. -/
def pagerDue (s : State) (core slot l : Nat) : State :=
  match s.warp? core slot with
  | none => s
  | some w =>
    if (w.lane l).state != .parked then s
    else match (w.lane l).park with
      | .pager => if pagerRoom s (s.launchPart w.launch) then (parkMates w l).foldl (fun s k => s.modLane core slot k Lane.released) s else s
      | .pagerDone pc => if pagerLate w pc then s else endPark s core slot (parkMates w l)
      | _ => s

/-- S_PARK_RELEASE: the park of the lanes named ends when it is over (R52); guests whose departure waited for the commit leave
(14_shuttles.md R285). -/
def execSParkRelease (core slot : Nat) (lanes : BitVec 32) (s : State) : Host.Outcome State Fault Refusal :=
  .next ((maskLanes lanes).foldl (fun s l => pagerDue (leaveDue (releasePark s core slot l) core slot l) core slot l) s)

/-- A nap is over at a TIME. -/
def Lane.wakes (t : Nat) (x : Lane) : Bool := x.state == .napping && decide (x.wake ≤ t)

/-- A lane whose nap is over at a TIME is READY (R125), or enters the S park that its NAP owes (R52). -/
def Lane.woken (w : Warp) (t : Nat) (x : Lane) : Lane :=
  if x.wakes t then
    if owedHeld w x.owed then { x with state := .parked, park := .switchMark, wake := 0 } else { x with state := .ready, wake := 0, owed := [] }
  else x

/-- The naps of a warp that are over end. -/
def Warp.woken (t : Nat) (w : Warp) : Warp := { w with lanes := w.lanes.map (fun x => (x.1, x.2.woken w t)) }

/-- The S parks that the ends of a warp's naps enter (15 R318). -/
def Warp.napParks (t : Nat) (w : Warp) : Nat :=
  (((w.lanes.filter (fun x => x.2.wakes t && owedHeld w x.2.owed)).map (fun x => x.2.owed)).eraseDups).length

/-- The naps of a core that are over end. -/
def Core.woken (t : Nat) (k : Core) : Core :=
  let n := k.st.warps.foldl (fun a x => a + x.2.napParks t) 0
  { k with
    evc := if n = 0 then k.evc else k.counted 0x04 n
    st := { k.st with warps := k.st.warps.map (fun x => (x.1, x.2.woken t)) } }

def wakeWarp (s : State) (core slot : Nat) : State := s.modWarp core slot (Warp.woken s.time)

/-- NAP_WAKE: a napping fibre whose time has come is READY (R125). -/
def execNapWake (core slot lane : Nat) (s : State) : Host.Outcome State Fault Refusal :=
  .next (match s.warp? core slot with
    | none => s
    | some w =>
      if (w.lane lane).wakes s.time then
        (if owedHeld w (w.lane lane).owed then countEvent s core 0x04 1 else s).modLane core slot lane (Lane.woken w s.time)
      else s)

/-- YIELD_EXPIRY: the deferral of a warp's batches ends early when no other batch of the scheduler is ready (R125). -/
def execYieldExpiry (core slot : Nat) (s : State) : Host.Outcome State Fault Refusal :=
  .next (
    let others := (s.core core).st.warps.any (fun x => schedOf x.1 == schedOf slot && !(openBatches s core false x.2).isEmpty)
    if others then s
    else s.modWarp core slot (fun w => { w with lanes := w.lanes.map (fun x => (x.1, { x.2 with defer := 0 })) }))

/-! ## Parked instructions that issue again -/

/-- The lanes of a warp parked with a tag for a reason. -/
def taggedLanes (w : Warp) (tag : Nat) (why : Park → Bool) : List Nat :=
  (upFrom 32 0).filter (fun l => (w.lane l).state == .parked && (w.lane l).tag == tag && why (w.lane l).park)

/-- Parked lanes are READY and their word is the instruction in progress. -/
def reissue (s : State) (core slot : Nat) (ls : List Nat) (word : Word) : State :=
  let met := match ((s.warp? core slot).map (fun w => (w.lane (ls.headD 0)).park)).getD .none with | .cwaitMet e => some e | _ => none
  let s := ls.foldl (fun s l => s.modLane core slot l Lane.released) s
  match s.warp? core slot with
  | none => s
  | some w =>
    let t := s.setCur core slot w ⟨ls, (w.lane (ls.headD 0)).word, (w.lane (ls.headD 0)).tag, 0, false⟩ word
    { t with cur := { t.cur with met := met } }

/-- The word at which parked lanes wait. -/
def parkedWord (s : State) (core : Nat) (w : Warp) (ls : List Nat) : Fetched :=
  fetch s core (s.launchPart w.launch) (w.lane (ls.headD 0)).word.toNat

/-- Parked lanes issue their instruction again through its own meaning; one whose word has changed meanwhile is READY. -/
def again (s : State) (core slot tag : Nat) (why : Park → Bool)
    (go : Instr → State → Option (Host.Outcome State Fault Refusal)) : Host.Outcome State Fault Refusal :=
  match s.warp? core slot with
  | none => .next s
  | some w =>
    let ls := taggedLanes w tag why
    if ls.isEmpty || !coreRuns s core then .next s
    else match parkedWord s core w ls with
      | .word x => (go (instrOf x) (reissue s core slot ls x)).getD (.next (reissue s core slot ls x))
      | .waits => .next s
      | _ => .next (reissue s core slot ls 0)

/-- A park at CWAIT. -/
def Park.isCwait (p : Park) : Bool :=
  match p with
  | .cwait _ _ | .cwaitMet _ => true
  | _ => false

/-- CWAIT_RELEASE: a parked CWAIT whose counter has reached its target, or is in error, or has been since it parked, is performed
(R301). -/
def execCwaitRelease (core slot tag : Nat) (s : State) : Host.Outcome State Fault Refusal :=
  again s core slot tag Park.isCwait (fun i s1 => match i with
    | .cwait h q a b =>
      let ls := s1.active h
      if s1.cur.met.isSome || (waitFault s1 (waitAddr a s1 ls)).isSome || reached a b s1 ls || inError a s1 ls then
        some (Sys2Proof.Machine.execCwait h q a b s1)
      else some (.next s)
    | _ => none)

/-- QUEUE_PARK_RELEASE: a QPUT finds room, a QTAKE an entry or a closed queue (R274). -/
def execQueueParkRelease (core slot tag : Nat) (s : State) : Host.Outcome State Fault Refusal :=
  again s core slot tag (fun p => match p with | .queue _ _ => true | _ => false) (fun i s1 => match i with
    | .qput h a b =>
      if (s1.curQueue b.toNat).occ < (s1.curQueue b.toNat).depth then some (Sys2Proof.Machine.execQput h a b s1) else some (.next s)
    | .qtake h d a b =>
      if (s1.curQueue b.toNat).occ > 0 || s1.curClosed b.toNat then some (Sys2Proof.Machine.execQtake h d a b s1) else some (.next s)
    | _ => none)

/-- LBWAIT_RELEASE: fibres of a core whose generation is over go on, with an acquire (R308, R311). -/
def execLbwaitRelease (core lgroup : Nat) (s : State) : Host.Outcome State Fault Refusal :=
  .next (match s.partOfCore core with
    | none => s
    | some p => (s.core core).st.warps.foldl (fun s x =>
        let ls := (upFrom 32 0).filter (fun l => (x.2.lane l).state == .parked && (match (x.2.lane l).park with
          | .lbwait g t => g == lgroup && laced s p g (some t)
          | _ => false))
        if ls.isEmpty then s else acquire (goOn s core x.1 ls) core) s)

/-! ## Stages (R272) -/

/-- The highest stage with an entry in its input queue. -/
def stageWithWork (g : Group) : Option Nat := [3, 2, 1].find? (fun n => decide (0 < g.occ n))

/-- A fibre as the launch creates it (06 Table 4-6). -/
def newFibre (w : Warp) (l : Nat) (pc workid : DWord) : Lane :=
  { state := .ready, pc := pc, sp := w.stackTop l, workid := workid }

/-- The work identifier of a fibre: its index, and the group's coordinates (01_machine.md R20, R22). -/
def workId (h : Header) (f : Nat) (coords : List Nat) : DWord :=
  BitVec.ofNat 64 (((upFrom 6 0).foldl (fun (r : Nat × Nat) i =>
    (r.1 + (if i = 0 then f else coords.getD (i - 1) 0) * 2 ^ r.2, r.2 + h.width i)) (0, 0)).1)

/-- The lanes of a warp of a group with their fibres. -/
def freshLanes (h : Header) (coords : List Nat) (w : Warp) (pc : DWord) : PMap Lane :=
  (upFrom 32 0).map (fun l =>
    (l, if 32 * w.index + l < h.extent 0 then newFibre w l pc (workId h (32 * w.index + l) coords)
      else { fseq := (w.lane l).fseq, record := (w.lane l).record }))

/-- STAGE_REASSIGN: an idle warp takes the most downstream stage with work. -/
def execStageReassign (core slot : Nat) (s : State) : Host.Outcome State Fault Refusal :=
  .next (match s.warp? core slot with
    | none => s
    | some w => match mfind (s.core core).st.groups w.group, mfind s.launches w.launch with
      | some g, some l =>
        if w.isGuest || !w.idle then s
        else match stageWithWork g with
          | none => s
          | some n => s.modWarp core slot (fun w => { w with
              stage := n, m := [], lanes := freshLanes l.header g.coords w (BitVec.ofNat 64 (l.header.stagePc n)) })
      | _, _ => s)

/-! ## Pages that fetches and stacks wait for (08 R160, R164; 16 R328) -/

/-- Lanes of a warp whose page has settled attempt their access again; a page whose request met a full mailbox is asked for
again (R160). -/
def retryPages (s : State) (core slot : Nat) : State :=
  match s.warp? core slot with
  | none => s
  | some w => (upFrom 32 0).foldl (fun s l => match waitedPage (w.lane l) with
    | none => s
    | some k =>
      if pageSettled s k then s.modLane core slot l Lane.released
      else notePage s core k.1 k.2 (waitKind (w.lane l)) l slot) (settlePages s (core / 8))

/-- FETCH_RETRY: a change of a page's translation reaches the motif. -/
def execFetchRetry (core slot : Nat) (s : State) : Host.Outcome State Fault Refusal := .next (retryPages s core slot)

/-- FETCH_REWALK: the parked fetches of a motif walk again. -/
def execFetchRewalk (motif : Nat) (s : State) : Host.Outcome State Fault Refusal :=
  .next (s.cores.foldl (fun s c => if c.1 / 8 = motif then
    c.2.st.warps.foldl (fun s x => retryPages s c.1 x.1) s else s) (settlePages s motif))

/-- The registers of a lane's frames that the stack cache holds alone: each with its frame and its number; one that a pending
result still writes stays in the cache. -/
def cachedRegs (w : Warp) (l : Nat) : List (Frame × Nat) :=
  (w.lane l).frames.flatMap (fun f => ((upFrom f.count 0).filter (fun i =>
    !f.spilled.contains i && !isPendG w.pend l (f.wbase + i))).map (fun i => (f, i)))

/-- The word that a register's place in a spill slot receives; slot 0 holds the zero of g0. -/
def spillWord (w : Warp) (l : Nat) (f : Frame) (i : Nat) : Word := if i = 0 then 0 else mget (w.lane l).regs (f.wbase + i) 0

/-- One byte of a spilled register is stored as the fibre's store. -/
def spillByte (s : State) (core slot l : Nat) (w : Warp) (f : Frame) (i j : Nat) : State :=
  match accessCheck s (whoOf s core slot l) .store (f.slot.toNat + 4 * i + j) 1 1 with
  | .error _ => s
  | .ok hs => writeHalves s (whoOf s core slot l) 0 hs (((bytesLE 4 (spillWord w l f i).toNat).drop j).take 1)

/-- A register's place is written, whole, or in some of its bytes by a free choice (R122, 08_memories.md R164). -/
def spillReg (s : State) (core slot l : Nat) (w : Warp) (f : Frame) (i : Nat) (hs : List Half) : State :=
  let m := Config.free s.free 72001 % 16
  if m = 0 then
    (writeHalves s (whoOf s core slot l) 0 hs (bytesLE 4 (spillWord w l f i).toNat)).modLane core slot l (fun x => { x with
      frames := x.frames.map (fun y => if y.slot = f.slot then { y with spilled := i :: y.spilled } else y) })
  else (maskLanesFrom 4 0 m).foldl (fun s j => spillByte s core slot l w f i j) s

/-- A spill has been made: no request for its page stands for it any longer (08 R164). -/
def spillDone (s : State) (core : Nat) (w : Warp) (va : Nat) : State := forgetPage s core (s.launchPart w.launch) va 2

/-- STACK_SPILL: a register of some frame in the stack cache is written to the fibre stack; a page that is not resident is asked
for, and a place that an engine owns or a full egress buffer leaves it to a later time. -/
def execStackSpill (core slot lane : Nat) (s : State) : Host.Outcome State Fault Refusal :=
  .next (match s.warp? core slot with
    | none => s
    | some w => match (cachedRegs w lane)[Config.free s.free 72000 % (cachedRegs w lane).length]? with
      | none => s
      | some (f, i) =>
        let va := f.slot.toNat + 4 * i
        let who := whoOf s core slot lane
        let r := accessCheck s who .store va 4 1
        if nonResident r then notePage s core (s.launchPart w.launch) (nonResAddr r va) 2 lane slot
        else match r with
          | .error _ => s
          | .ok hs =>
            if hs.any (mustWait s who false 0) || !egressRoom s who 0 false hs then s
            else if !halvesPost s hs then spillDone (spillReg s core slot lane w f i hs) core w va
            else if pendingPersist w (lanesMask [lane]) || commitWaits s core then s
            else spillDone (spillReg (persistPoint s core []) core slot lane w f i hs) core w va)

/-! ## Egress (09 R190) -/

/-- EGRESS_DRAIN: what a release has pushed out leaves; where the buffer's oldest entry has waited 1 µs, or the buffer is full, the
core commits and drains. -/
def execEgressDrain (core : Nat) (s : State) : Host.Outcome State Fault Refusal :=
  .next (
    let s := releaseDue s core
    let k := s.core core
    let due := egressFull s core || (match k.egress with | e :: _ => decide (e.since + 1000 ≤ s.time) | [] => false)
    if due && !commitWaits s core && k.power == .active then persistPoint s core [] else s)

/-! ## Deadline and energy (15 R313 to R316) -/

/-- DLREM of a context counts down (R313). -/
def Ctx.tick (n : Nat) (c : Ctx) : Ctx :=
  if c.dlrem = 0xFFFFFFFFFFFFFFFF then c else { c with dlrem := BitVec.ofNat 64 (c.dlrem.toNat - n) }

/-- The contexts of a core after some nanoseconds. -/
def CoreSt.tick (k : CoreSt) (n : Nat) : CoreSt := { k with ctxs := k.ctxs.map (fun x => (x.1, x.2.tick n)) }

/-- DEADLINE_EXPIRY: a context whose time is over halts its partition (R313, R346). -/
def execDeadlineExpiry (core launch : Nat) (s : State) : Host.Outcome State Fault Refusal :=
  .next (match (s.core core).st.ctx? launch with
    | some c => if c.dlrem = 0 ∧ (s.part (s.launchPart launch)).state = 1 then fatal (taskFault s core launch fcDeadline) launch 1 fcDeadline else s
    | none => s)

/-- ENERGY_REFILL: the budget rises by EBRATE, up to EBMAX, once for each multiple of 1,000 ns that TIME has reached (R315). -/
def execEnergyRefill (core launch : Nat) (s : State) : Host.Outcome State Fault Refusal :=
  .next (match (s.core core).st.ctx? launch with
    | none => s
    | some c =>
      if c.refills = 0 then s
      else budgetReport (s.modCtx core launch (fun c => if meteringOff c then { c with refills := c.refills - 1 } else { c with
        refills := c.refills - 1
        ebudget := wordOfInt (saturate (sint c.ebudget + c.ebrate.toNat) (-(2 ^ 31)) c.ebmax) })) core launch)

/-- GUEST_DEBIT: a forwarded debit reaches the home context (R316). -/
def execGuestDebit (index : Nat) (s : State) : Host.Outcome State Fault Refusal :=
  .next (match s.debits[index]? with
    | none => s
    | some d => debit { s with debits := s.debits.eraseIdx index } d.1 d.2.1 d.2.2)

/-- EBUDGET_REPORT: a report reaches a host core, which stalls or frees the guests of the context; the reports of one
context to one core arrive in order (R316). -/
def execEbudgetReport (index : Nat) (s : State) : Host.Outcome State Fault Refusal :=
  .next (match s.reports[index]? with
    | none => s
    | some r =>
      if (s.reports.take index).any (fun q => q.1 == r.1 && q.2.1 == r.2.1 && q.2.2.1 == r.2.2.1) then s
      else { s with reports := s.reports.eraseIdx index }.modCore r.2.2.1 (fun k => { k with
        guestStalls := if r.2.2.2 then k.guestStalls.filter (· != (r.1, r.2.1))
          else if k.guestStalls.contains (r.1, r.2.1) then k.guestStalls else k.guestStalls ++ [(r.1, r.2.1)] }))

/-! ## Handler posts (17 R345) -/

/-- HANDLER_POST_RETRY: a post that met a full queue is made again until it is accepted; only a TRET for the warp cancels it. -/
def execHandlerPostRetry (core slot : Nat) (s : State) : Host.Outcome State Fault Refusal :=
  .next (match s.warp? core slot with
    | none => s
    | some w => match w.retryAt with
      | none => s
      | some t =>
        if s.time < t ∨ commitWaits s core = true then s else handlerPostAs s core slot ((postReason w).getD w.retryWhy))

end Sys2Proof.Machine
end

