-- ==== Sys2Proof/Machine/Launch.lean ====
section
/-! DEFINITION. The launch unit: headers and dependencies (13_queues.md R262, R266, R267), placement, pre-emption and
restore (13 R268, R269; 17_faults.md R347 to R349), the end of groups (06_control_state.md R124) and posts by store (13 R264). -/

namespace Sys2Proof.Machine

/-! ## Headers (R21, R262) -/

def Header.prio (h : Header) : Nat := h.field 2 1
def Header.flags (h : Header) : Nat := h.field 3 1
def Header.empty (h : Header) : Bool := bitOf h.flags 1
def Header.entry (h : Header) : Nat := h.field 8 8
def Header.loclvl (h : Header) : Nat := h.field 54 1
def Header.migset (h : Header) : DWord := BitVec.ofNat 64 (h.field 144 8)
def Header.depctr (h : Header) : Nat := h.field 160 8
def Header.faultq (h : Header) : Nat := h.field 224 8

/-- A field is zero or a global-memory address with an alignment. -/
def addrField (v align : Nat) : Bool := v % align == 0 && decide (v < scratchBase)

/-- A 4-aligned program counter with bits [63:57] zero. -/
def pcField (v : Nat) : Bool := v % 4 == 0 && decide (v < 2 ^ 57)

/-- Groups that the cores of a partition hold at once when empty (R262): in each span set that lies in the partition, the warp slots
of its cores bound them, and their banks, which each takes on every core of the set (11_banks_matrix.md R240). -/
def heldAtOnce (s : State) (p : Nat) (h : Header) : Nat :=
  let sets := (((maskLanesFrom 256 0 (s.part p).cores).map (fun c => spanSet c h.span)).eraseDups).filter (fun t => t.all (bitOf (s.part p).cores))
  let byWarps := max h.span 1 * (64 / max h.warps 1)
  sets.length * (if h.nbanks = 0 then byWarps else min byWarps (64 / h.nbanks))

/-- The conditions on a header, each with the offset of its field, by rising offset. -/
def headerChecks (s : State) (p : Nat) (h : Header) : List (Nat × Bool) :=
  let w := (upFrom 6 0).foldl (fun a i => a + h.width i) 0
  [(0, h.field 0 2 == 1), (2, decide (h.prio ≤ 7)), (3, decide (h.flags ≤ 3)), (8, pcField h.entry)] ++
  (upFrom 4 0).map (fun n => (16 + 8 * n, if n < h.nstage then pcField (h.stagePc n) else h.stagePc n == 0)) ++
  [(48, decide (w ≤ 64)), (54, decide (h.loclvl ≤ 5)), (55, decide (h.nstage ≤ 4))] ++
  (upFrom 6 0).map (fun i => (56 + 8 * i, decide (h.extent i ≤ 2 ^ h.width i) && (i != 0 || decide (h.extent 0 ≤ 32 * h.warps)))) ++
  [(104, decide (1 ≤ h.warps) && decide (h.warps ≤ 32)), (105, decide (8 ≤ h.nreg) && decide (h.nreg ≤ 128) && h.nreg % 8 == 0),
   (106, [1, 2, 4, 8].contains h.span), (107, decide (h.cbanks ≤ 64)),
   (108, decide (h.scratch ≤ scratchSize) && decide (h.nbanks ≤ 64)), (112, decide (h.sbanks ≤ 64)), (113, h.field 113 1 == 0),
   (114, h.cogrp == 0 || decide (h.cogrp ≤ heldAtOnce s p h)), (116, h.field 116 4 % 16 == 0), (128, h.field 128 8 != 0),
   (144, decide (popcount 64 (h.field 144 8) ≤ 16))] ++
  (upFrom 3 1).map (fun n => (150 + 2 * n, if n < h.nstage then decide (1 ≤ h.qdepth n) && decide (h.qdepth n ≤ 4096) else h.qdepth n == 0)) ++
  [(158, h.field 158 2 == 0), (160, addrField h.depctr 8), (176, addrField h.cmpctr 8), (192, addrField h.cmpmbx 64),
   (200, addrField h.fltmbx 64), (208, addrField h.shapeImg 64), (216, addrField (h.field 216 8) 8),
   (224, bits h.faultq 57 7 == 0 && bits h.faultq 4 8 == 0 && decide (bits h.faultq 0 4 ≤ 12)), (232, h.field 232 24 == 0)]

/-- The offset of the first failing field; an unreadable header fails at 0, unreadable images at SHAPEIMG (R131, R262). -/
def headerFault (s : State) (l : Launch) : Option Nat :=
  if l.header.bytes.isEmpty then some 0
  else match (headerChecks s l.part l.header).find? (fun c => !c.2) with
    | some c => some c.1
    | none => if l.images.isEmpty then some 208 else none

/-! ## Refusal and release (R266, R267) -/

/-- A launch leaves its binding's queue. -/
def leaveQueue (s : State) (l : Launch) : State :=
  if l.unbound then s
  else match findBind s l.window with
    | some (p, i, _) => s.modBind p i (fun b => { b with queued := b.queued - 1 })
    | none => s

/-- A launch is refused with a code and a header offset. -/
def refuseLaunch (s : State) (id : Nat) (l : Launch) (code off : Nat) : State :=
  let s := (leaveQueue s l).modLaunch id (fun x => { x with state := .refused })
  if l.header.cmpctr = 0 ∧ l.header.cmpmbx = 0 then countRefusal s l.window
  else reportLaunch s l 0 code off (code + off * 256)

/-- The release's report: CMPINC joins the counter, and the completion message is posted. -/
def reportRelease (s : State) (l : Launch) : State :=
  let s := namedUpdate s l.part 0 l.header.cmpctr l.header.cmpinc 0 0 0
  if l.header.cmpmbx = 0 then s
  else
    let r := post s (.device l.part) l.header.cmpmbx (some (completionMsg s l 0 (cmpctrValue s l)))
    if r.1 = 0 then r.2 else namedUpdate s l.part 0 l.header.cmpctr 0 0x12 0 0

/-- The active cores of a partition. -/
def partCores (s : State) (p : Nat) : List Nat := (maskLanesFrom 256 0 (s.part p).cores).filter (fun c => (s.core c).power == .active)

/-- No result delays a commit of the partition's cores. -/
def mayRelease (s : State) (p : Nat) : Bool := (partCores s p).all (fun c => !commitWaits s c)

/-- The release of a task: its fibres' stores are published, then it is reported. -/
def releaseLaunch (s : State) (id : Nat) (l : Launch) : State :=
  let s := (partCores s l.part).foldl releaseWide s
  (reportRelease s l).modLaunch id (fun x => { x with state := .done })

/-! ## DEPENDENCY_MET -/

/-- The dependency counter: none readable, or its contents (R266). -/
def depValue (s : State) (l : Launch) : Option Nat :=
  match devRead s l.part l.header.depctr 16 with
  | .ok bs => some (ofBytesLE bs)
  | .error _ => none

/-- A dependency is met: an empty task is released at once, another joins the order. -/
def metLaunch (s : State) (id : Nat) (l : Launch) : State :=
  if l.header.empty then (if mayRelease s l.part then releaseLaunch (leaveQueue s l) id l else s)
  else s.modLaunch id (fun x => { x with state := .ordered })

/-- DEPENDENCY_MET: a launch's header is checked, then its dependency (Table 13-2). -/
def execDependencyMet (launch : Nat) (s : State) : Host.Outcome State Fault Refusal :=
  .next (match mfind s.launches launch with
    | none => s
    | some l =>
      if (s.part l.part).state ≠ 1 then s
      else match l.state with
        | .header => (match headerFault s l with
          | some off => refuseLaunch s launch l 0x10 off
          | none => s.modLaunch launch (fun x => { x with state := .waitdep }))
        | .waitdep =>
          if l.header.depctr = 0 then metLaunch s launch l
          else (match depValue s l with
            | none => refuseLaunch s launch l 0x11 160
            | some v =>
              if ctrCode v ≠ 0 then refuseLaunch s launch l 0x11 160
              else if l.header.field 168 8 ≤ ctrValue v then metLaunch s launch l
              else s)
        | _ => s)

/-! ## Where a group fits (R269, R16) -/

/-- Register granules that the warps of a core hold (14_shuttles.md R289). -/
def granulesUsed (k : CoreSt) : Nat := k.warps.foldl (fun a w => a + (if w.2.isGuest then 2 else w.2.nreg / 8)) 0

/-- Free warp slots of a scheduler. -/
def freeSlots (k : CoreSt) (sched : Nat) : List Nat := (upFrom 16 (16 * sched)).filter (fun i => (mfind k.warps i).isNone)

/-- The slot of the next warp: on the scheduler with the most free slots, the lower of equals (R268). -/
def nextSlot (k : CoreSt) : Option Nat :=
  let best := (upFrom 4 0).foldl (fun b i => if (freeSlots k b).length < (freeSlots k i).length then i else b) 0
  (freeSlots k best).head?

/-- A core takes launches: powered, not being gated, in the partition. -/
def coreTakes (s : State) (p core : Nat) : Bool :=
  (s.core core).power == .active && !(s.core core).gateReq && !(s.core core).resuming && bitOf (s.part p).cores core

/-- Warps, granules and span set of a group on a core; its banks are judged apart. -/
def roomFor (s : State) (p core warps nreg span : Nat) : Bool :=
  let k := (s.core core).st
  (spanSet core span).all (coreTakes s p) && decide (k.warps.length + warps ≤ 64) &&
  decide (granulesUsed k + warps * (nreg / 8) ≤ 1024)

/-- A run of banks in a mode is given to a group on a set of cores. -/
def takeRun (s : State) (gid n : Nat) (compute : Bool) (cores : List Nat) : Option (State × Nat) :=
  if n = 0 then some (s, 0) else (findRun s cores n).map (fun b => (giveBanks s gid compute cores (upFrom n b), b))

/-- The three runs of a group: scratch, storage and compute banks, in this order (R268). -/
def takeBanks (s : State) (gid : Nat) (h : Header) (core : Nat) : Option (State × Nat) :=
  match takeRun s gid h.runBanks false (spanSet core h.span) with
  | none => none
  | some (s1, first) => match takeRun s1 gid h.sbanks false (spanSet core h.span) with
    | none => none
    | some (s2, _) => (takeRun s2 gid h.cbanks true (spanSet core h.span)).map (fun r => (r.1, first))

/-- A bank that a group has received is still being cleared, or is one left in place that cannot be saved yet (11 R228). -/
def stillClearing (before after : State) (gid : Nat) : Bool :=
  after.cores.any (fun c => c.2.st.banks.any (fun b => b.2.owner == some gid &&
    (((before.core c.1).st.bank b.1).clearing || lazyBusy before c.1 b.1)))

/-! ## The set-up of a group (R268) -/

/-- The coordinates of group `n`: field 1 varies fastest. -/
def groupCoords (h : Header) (n : Nat) : List Nat :=
  ((upFrom 5 1).foldl (fun (r : List Nat × Nat) i => (r.1 ++ [r.2 % h.extent i], r.2 / h.extent i)) ([], n)).1

/-- The scalar registers of Table 13-4; s8 of a group without a scratch run is free. -/
def launchRegs (s : State) (l : Launch) (first : Nat) : PMap Word :=
  (upFrom 8 0).map (fun i => (i, BitVec.ofNat 32 (ofBytesLE ((l.message.drop (4 * i)).take 4)))) ++
  [(8, if l.header.runBanks = 0 then BitVec.ofNat 32 (Config.free s.free 90000) else BitVec.ofNat 32 (131072 * first)),
   (9, BitVec.ofNat 32 l.message.length), (10, BitVec.ofNat 32 l.window), (11, BitVec.ofNat 32 (l.window / 2 ^ 32)), (12, l.seq)]

/-- The context that a launch's first group brings to a core (R131; 07_shape_system.md Table 7-6; 15_counters.md R314). -/
def launchCtx (l : Launch) : Ctx :=
  let b : Word := BitVec.ofNat 32 (l.header.field 136 4)
  let r : Word := BitVec.ofNat 32 (l.header.field 140 4)
  { sh := (upFrom 16 0).map (fun i => (i, l.images.getD i 0)), taskid := BitVec.ofNat 32 l.header.taskid, prio := bits l.header.prio 0 3
    persistOff := bitOf l.header.flags 0, faultq := BitVec.ofNat 64 l.header.faultq, dlrem := BitVec.ofNat 64 (l.header.field 128 8)
    ebudget := b, ebrate := r, ebmax := max (sint b) r.toNat, part := l.part, reported := decide (0 < sint b) }

/-- The stage queues at the end of a scratch run, queue 1 first. -/
def launchQueues (h : Header) (first : Nat) : PMap Queue :=
  let base := 131072 * first + h.runBytes - h.queueBytes
  ((upFrom 3 1).filter (fun n => decide (n < h.nstage))).map (fun n =>
    (n, { base := base + 16 * ((upFrom (n - 1) 1).foldl (fun a i => a + h.qdepth i) 0), depth := h.qdepth n }))

/-- A warp of a group as the launch creates it (R22, R163). -/
def launchWarp (s : State) (id : Nat) (l : Launch) (gid n first k : Nat) : Warp :=
  let h := l.header
  let w : Warp := {
    launch := id, group := gid, index := k, nreg := h.nreg, s := launchRegs s l first, migset := h.migset
    stkbase := spField (BitVec.ofNat 64 (h.priv + (n * h.warps + k + 1) * 32 * h.stack)), stklim := stklimField h.stklim }
  { w with lanes := freshLanes h (groupCoords h n) w (BitVec.ofNat 64 (if h.nstage = 0 then h.entry else h.stagePc 0)) }

/-- A warp takes the next slot of a core. -/
def addWarp (s : State) (core : Nat) (w : Warp) : State × Nat :=
  match nextSlot (s.core core).st with
  | some i => (s.modSt core (fun k => { k with warps := mset k.warps i w }), i)
  | none => (s, 64)

def addWarps (s : State) (core : Nat) (ws : List Warp) : State × List Nat :=
  ws.foldl (fun (r : State × List Nat) w => let a := addWarp r.1 core w; (a.1, r.2 ++ [a.2])) (s, [])

/-- The context of a launch on a core comes into being with its first group there. -/
def needCtx (s : State) (core id : Nat) (c : Ctx) : State :=
  s.modSt core (fun k => if (mfind k.ctxs id).isSome then k else { k with ctxs := mset k.ctxs id c })

/-- What the groups of one family of the header's locality level share (01_machine.md R23). -/
def familyKey (h : Header) (coords : List Nat) : List Nat := coords.drop (h.loclvl - 1)

/-- The first placed group of a family gives the family's motif. -/
def noteFamily (h : Header) (coords : List Nat) (core : Nat) (l : Launch) : Launch :=
  if h.loclvl = 0 ∨ l.families.any (fun f => f.1 == familyKey h coords) = true then l
  else { l with families := l.families ++ [(familyKey h coords, core / 8)] }

/-- Group `n` of a launch is set up on a core that has the room for it; its first instruction is the acquire of the post, or of
the release that its dependency waited for (09_consistency.md R180). -/
def setupGroup (s0 : State) (id : Nat) (l : Launch) (n core : Nat) : Option State :=
  let gid := s0.fresh
  let h := l.header
  if !roomFor s0 l.part core h.warps h.nreg h.span then none
  else match takeBanks { s0 with fresh := gid + 1 } gid h core with
    | none => none
    | some (s, first) =>
      let s := if l.message.length ≤ h.scratch then scratchWrite s core (131072 * first) l.message else s
      let r := addWarps (needCtx s core id (launchCtx l)) core ((upFrom h.warps 0).map (launchWarp s id l gid n first))
      let s := r.1.modSt core (fun k => { k with groups := mset k.groups gid {
        launch := id, coords := groupCoords h n, number := n, warps := r.2, scratchBank := first, scratchLen := h.runBytes
        span := h.span, queues := launchQueues h first } })
      some (acquire (s.modLaunch id (noteFamily h (groupCoords h n) core)) core)

/-! ## The choice of a core (R23, R269, rule 3) -/

/-- The motif of the first placed group of the same family. -/
def familyMotif (s : State) (id : Nat) (h : Header) (coords : List Nat) : Option Nat :=
  if h.loclvl = 0 then none
  else match mfind s.launches id with
    | none => none
    | some l => (l.families.find? (fun f => f.1 == familyKey h coords)).map (·.2)

/-- The least-loaded of some cores, the lower of equals. -/
def leastLoaded (s : State) : List Nat → Option Nat
  | [] => none
  | c :: cs => match leastLoaded s cs with
    | none => some c
    | some d => if (s.core d).st.warps.length < (s.core c).st.warps.length then some d else some c

/-- The core for a group among those that fit: of its family's motif when one does. -/
def chooseCore (s : State) (motif : Option Nat) (fit : List Nat) : Option Nat :=
  match leastLoaded s (fit.filter (fun c => motif == some (c / 8))) with
  | some c => some c
  | none => leastLoaded s fit

/-- Group `n` of a launch is placed on the core that the rules choose. -/
def placeGroup (s : State) (id : Nat) (l : Launch) (n : Nat) : Option State :=
  let fit := (maskLanesFrom 256 0 (s.part l.part).cores).filter (fun c => (setupGroup s id l n c).isSome)
  match chooseCore s (familyMotif s id l.header (groupCoords l.header n)) fit with
  | some c => setupGroup s id l n c
  | none => none

/-- Groups placed one after the other, all or none. -/
def placeAll (id : Nat) (l : Launch) : State → List Nat → Option State
  | s, [] => some s
  | s, n :: ns => match placeGroup s id l n with
    | some s => placeAll id l s ns
    | none => none

/-! ## Restore (17 R347 to R349) -/

/-- The banks of a saved group are free on a core and its span set, or still held there for it. -/
def banksFit (s : State) (x : Saved) (core : Nat) : Bool :=
  let set := spanSet core x.group.span
  (x.lazyBanks.isEmpty || core == x.core) && x.banks.all (fun b =>
    match set[b.1 / 64]? with
    | none => false
    | some c => x.lazyBanks.contains b.1 || (bankOpen s c (b.1 % 64) && !lazyBusy s c (b.1 % 64) && !((s.core c).st.bank (b.1 % 64)).clearing))

/-- A saved bank returns to its group. -/
def putBank (s : State) (x : Saved) (core : Nat) (b : Nat × Bank) : State :=
  if x.lazyBanks.contains b.1 then s
  else
    let c := (spanSet core x.group.span).getD (b.1 / 64) core
    let n := b.1 % 64
    let off := b.1 / 64 * scratchSize
    let eoff := b.1 / 64 * 65536
    let s := (saveLazyBank s c n).getD s
    let t := s.fresh
    { s with fresh := t + 1 }.modSt c (fun k =>
      let k := k.wipe n
      { k with
        banks := mset k.banks n { b.2 with owner := some x.gid, stamp := t }
        scratch := (x.scratch.filter (fun (y : Host.Cell) => y.1 / 131072 == b.1)).foldl
          (fun (m : Memory) (y : Host.Cell) => memWrite m (y.1 - off) y.2) k.scratch
        acc := (x.acc.filter (fun (y : Nat × Word) => y.1 / 1024 == b.1)).foldl
          (fun (m : PMap Word) (y : Nat × Word) => mset m (y.1 - eoff) y.2) k.acc })

/-- A saved group is restored on a core that has its warp slots, its banks and room for its streams (13_queues.md R276); fibres
parked for the stop go on, naps that are over end, and what TRET changed meanwhile is settled (06 R117, R129). -/
def restoreGroup (s : State) (key : Nat) (x : Saved) (core : Nat) : Option State :=
  let nreg := match x.warps with | (_, w) :: _ => w.nreg | [] => 8
  let streams := streamsRunning s core + (x.warps.filter (fun w => w.2.streams)).length
  if !(roomFor s (s.launchPart x.launch) core x.warps.length nreg x.group.span && banksFit s x core) || commitWaits s core ||
      decide (16 < streams) then none
  else
    let s := s.modSt x.core (fun k => { k with groups := mdel k.groups x.gid })
    let s := needCtx (x.banks.foldl (fun s b => putBank s x core b) s) core x.launch x.ctx
    let r := addWarps s core (x.warps.map (·.2))
    let s := r.1.modSt core (fun k => { k with groups := mset k.groups x.gid { x.group with warps := r.2, preempt := false } })
    let s := endStops { s with saved := mdel s.saved key } core x.gid
    some (commitCore (acquire (r.2.foldl (fun s i => settleWarp (wakeWarp s core i) core i) s) core) core 3 [])

/-- The core on which a saved group is restored. -/
def restorePlace (s : State) (key : Nat) (x : Saved) (l : Launch) : Option State :=
  let fit := (maskLanesFrom 256 0 (s.part l.part).cores).filter (fun c => (restoreGroup s key x c).isSome)
  match chooseCore s (familyMotif s x.launch l.header x.group.coords) fit with
  | some c => restoreGroup s key x c
  | none => none

/-! ## The order of launches (R269) -/

/-- The saved groups of a launch, by number. -/
def savedOf (s : State) (id : Nat) : List (Nat × Saved) := s.saved.filter (fun x => x.2.launch == id)

/-- A launch has groups for the launch unit to place. -/
def wantsPlace (s : State) (x : Nat × Launch) : Bool :=
  x.2.state == .ordered || (x.2.state == .placed && (!x.2.replace.isEmpty || !(savedOf s x.1).isEmpty))

/-- A launch comes before another in the order. -/
def launchBefore (a b : Launch) : Bool := keysLt [b.header.prio, a.time, a.window] [a.header.prio, b.time, b.window]

def firstLaunch : List (Nat × Launch) → Option (Nat × Launch)
  | [] => none
  | x :: xs => match firstLaunch xs with
    | none => some x
    | some y => if launchBefore y.2 x.2 then some y else some x

/-- The head of a partition's order. -/
def headLaunch (s : State) (p : Nat) : Option (Nat × Launch) :=
  firstLaunch (s.launches.filter (fun x => x.2.part == p && wantsPlace s x))

/-- The groups that the head places next: one to be placed again, a co-resident set, or the next one. -/
def nextGroups (l : Launch) : List Nat :=
  match l.replace with
  | n :: _ => [n]
  | [] => if l.next = 0 ∧ 0 < l.header.cogrp then upFrom (min l.header.cogrp l.header.groups) 0 else if l.next < l.header.groups then [l.next] else []

/-- The head's next placement, if it fits. -/
def placeNext (s : State) (x : Nat × Launch) : Option State :=
  match savedOf s x.1 with
  | (key, g) :: _ => restorePlace s key g x.2
  | [] => placeAll x.1 x.2 s (nextGroups x.2)

/-- A placement is noted: the launch leaves ORDERED when its last group is placed. -/
def notePlaced (s : State) (x : Nat × Launch) : State :=
  if !(savedOf s x.1).isEmpty then s
  else
    let l := x.2
    let l' := if l.replace.isEmpty then { l with next := l.next + (nextGroups l).length } else { l with replace := l.replace.drop 1 }
    let all := decide (l'.header.groups ≤ l'.next) && l.state == .ordered
    let s := if all then leaveQueue s l else s
    s.modLaunch x.1 (fun y => { y with next := l'.next, replace := l'.replace, state := if all then .placed else y.state })

/-! ## Pre-emption (R269, rule 4) -/

/-- A group that may be pre-empted, with its order: lowest priority, youngest launch, highest core number. -/
structure Victim where
  core : Nat
  gid : Nat
  key : List Nat
  deriving DecidableEq, Repr

def addVictim (v : Victim) : List Victim → List Victim
  | [] => [v]
  | w :: ws => if keysLt v.key w.key then v :: w :: ws else w :: addVictim v ws

/-- The groups of a partition with a priority below the head's, in the order of choice. -/
def victims (s : State) (p prio : Nat) : List Victim :=
  (s.cores.flatMap (fun c => (c.2.st.groups.filterMap (fun g =>
    match mfind s.launches g.2.launch with
    | none => none
    | some l =>
      if l.part = p ∧ l.header.prio < prio ∧ g.2.lazyOf.isNone ∧ !g.2.kept then some ⟨c.1, g.1, [l.header.prio, 2 ^ 64 - l.time, 256 - c.1, g.1]⟩
      else none)))).foldl (fun vs v => addVictim v vs) []

/-- The module as it would be without a group: its warps are gone and its banks open. -/
def withoutGroup (s : State) (v : Victim) : State :=
  match mfind (s.core v.core).st.groups v.gid with
  | none => s
  | some g =>
    let s := (spanSet v.core g.span).foldl (fun s c => s.modSt c (fun k => { k with
      banks := k.banks.map (fun b => (b.1, if b.2.owner = some v.gid then {} else b.2)) })) s
    s.modSt v.core (fun k => { k with groups := mdel k.groups v.gid, warps := g.warps.foldl mdel k.warps })

/-- The fewest victims, in order, without which the placement fits. -/
def fewest (x : Nat × Launch) : State → List Victim → List Victim → Option (List Victim)
  | _, _, [] => none
  | s, taken, v :: vs =>
    let s := withoutGroup s v
    if (placeNext s x).isSome then some (taken ++ [v]) else fewest x s (taken ++ [v]) vs

/-- Pre-emption of the groups that the head needs away is requested. -/
def requestVictims (s : State) (x : Nat × Launch) : State :=
  match fewest x s [] (victims s x.2.part x.2.header.prio) with
  | none => s
  | some vs => askStop s (vs.map (fun v => (v.core, v.gid))) true

/-- GROUP_PLACEMENT: the head of a partition's order places its next group, restores a saved one, or asks for room. A bank
still being cleared delays the placement (08_memories.md R152). -/
def execGroupPlacement (part : Nat) (s : State) : Host.Outcome State Fault Refusal :=
  .next (
    if (s.part part).state ≠ 1 then s
    else match headLaunch s part with
      | none => s
      | some x => match placeNext s x with
        | none => requestVictims s x
        | some s1 =>
          if (upFrom (s1.fresh - s.fresh) s.fresh).any (fun g => stillClearing s s1 g) then s
          else notePlaced s1 x)

/-! ## PREEMPTION_SAVE (17 R347 to R349) -/

/-- The banks of a group on a core set: index in the set and bank. -/
def groupBanks (s : State) (cores : List Nat) (gid : Nat) : List (Nat × Nat × Bank) :=
  (upFrom cores.length 0).flatMap (fun t =>
    ((s.core (cores.getD t 0)).st.banks.filter (fun b => b.2.owner == some gid)).map (fun b => (t, b.1, b.2)))

/-- A warp as it is saved: registers of blocks that are not LIVE are dropped (06 R127). -/
def Warp.saved (w : Warp) : Warp :=
  { w with lanes := w.lanes.map (fun x => (x.1, { x.2 with regs := x.2.regs.filter (fun r =>
      !(decide (x.2.wbase ≤ r.1) && decide (r.1 < x.2.wbase + 64) && !x.2.liveMask.getLsbD ((r.1 - x.2.wbase) / 4))) })) }

/-- The pieces of a save slot's image that are written at once: context, warps, registers and storage banks. -/
def slotPieces (l : Launch) (n : Nat) (c : Ctx) (ws : List Warp) (k : CoreSt) (banks : List (Nat × Bank)) : List (Nat × List Byte) :=
  let at0 := l.header.slotAt n
  (at0, ctxImage c (banks.flatMap (fun b => bankWord b.2 (b.2.status (b.2.owner.getD 0) false false)))) ::
  (at0 + 4096, ws.flatMap warpImage ++ ws.flatMap (regImage savedReg)) ::
  ((upFrom banks.length 0).zip banks).filterMap (fun b =>
    if b.2.2.compute || decide (l.header.nbanks ≤ b.1) then none
    else some (at0 + l.header.slotBank b.1, bankImage k.scratch k.acc b.2.2 b.2.1))

/-- A context leaves a core with its last resident group: groups of it that were saved there take it as it stands now, with the deadline and the
energy that have been counted since (15_counters.md R313, R315). -/
def leaveCtx (s : State) (core launch : Nat) : State :=
  match (s.core core).st.ctx? launch with
  | none => s
  | some c =>
    if (s.core core).st.groups.any (fun x => x.2.launch == launch && x.2.lazyOf.isNone) then s
    else { s with saved := s.saved.map (fun (x : Nat × Saved) => (x.1, if x.2.launch = launch ∧ x.2.core = core then { x.2 with ctx := c } else x.2)) }.modSt
      core (fun k => { k with ctxs := mdel k.ctxs launch })

/-- A group leaves its core: warps, storage banks, and the context with its last group. Compute banks stay, held for it. -/
def removeGroup (s : State) (core gid : Nat) (g : Group) (lazyKey : Option Nat) : State :=
  let s := (spanSet core g.span).foldl (fun s c => s.modSt c (fun k =>
    (k.banks.filter (fun b => b.2.owner == some gid && (lazyKey.isNone || !b.2.compute))).foldl (fun k b =>
      { k.wipe b.1 with banks := mdel k.banks b.1 }) k)) s
  leaveCtx (s.modSt core (fun k =>
    let groups := match lazyKey with
      | some key => mset k.groups gid { g with warps := [], preempt := false, lazyOf := some key }
      | none => mdel k.groups gid
    { k with warps := g.warps.foldl mdel k.warps, groups := groups })) core g.launch

/-- A stopped group is written into its save slot and leaves, or runs on when the slot cannot be written. -/
def saveGroup (s0 : State) (core gid : Nat) (g : Group) (l : Launch) : State :=
  let s := releaseWide (commitCore s0 core 3 []) core
  let k := (s.core core).st
  let cores := spanSet core g.span
  let bs := groupBanks s cores gid
  let ws := g.warps.filterMap (fun i => (mfind k.warps i).map (fun w => (i, w)))
  let c := (k.ctx? g.launch).getD {}
  match writePieces s l.part (slotPieces l g.number c (ws.map (·.2)) k ((bs.filter (fun b => b.1 == 0)).map (·.2))) with
  | .error _ => endStops (s.modGroup core gid (fun x => { x with preempt := false, kept := true })) core gid
  | .ok s =>
    let key := s.fresh
    let x0 : Saved := { launch := g.launch, number := g.number, core := core, gid := gid, ctx := c, group := g
                        warps := ws.map (fun w => (w.1, w.2.saved)), banks := [], scratch := [], acc := [], lazyBanks := [] }
    let x := bs.foldl (fun (x : Saved) b =>
      if b.2.2.compute then { x with banks := mset x.banks (64 * b.1 + b.2.1) b.2.2, lazyBanks := x.lazyBanks ++ [64 * b.1 + b.2.1] }
      else x.take (s.core (cores.getD b.1 0)).st b.1 b.2.1) x0
    let s := { s with fresh := key + 1, saved := mset s.saved key x }
    commitCore (removeGroup s core gid g (if x.lazyBanks.isEmpty then none else some key)) core 3 []

/-- Guests of a warp that stand at safe points (06 R127). -/
def idleGuests (w : Warp) (p : Guest → Bool) : List Nat :=
  (upFrom 32 0).filter (fun l => (w.lane l).atSafe && (w.lane l).park != .leaving && (match (w.lane l).state, (w.lane l).guest with
    | .parked, some g => p g
    | .napping, some g => p g
    | _, _ => false))

/-- The address at which a stopped fibre goes on. -/
def Lane.again (x : Lane) : DWord := if x.hints.isEmpty then x.pc else x.hpc

/-- POISON_READ of a recalled guest whose MIGSET names a poisoned register (14_shuttles.md R285, step 2). -/
def recallFault (x : Lane) (i : Nat) : FaultRec :=
  { FaultRec.blank with code := fcPoisonRead, addr := BitVec.ofNat 64 i, pc := x.again, hinted := !x.hints.isEmpty
                        after := pcAfter x.again (x.hints.length + 1) }

/-- The guests of a warp that a recall takes depart, those of one address together, after their results are written; one whose MIGSET
then names a poisoned register faults (14_shuttles.md R285). -/
def recallWarp (s : State) (core slot : Nat) (w : Warp) (ls : List Nat) : State :=
  let s := deliverWarp s core slot (fun r => r.touches (lanesMask ls))
  let v := (s.warp? core slot).getD w
  ((ls.map (fun l => (v.lane l).again)).eraseDups).foldl (fun s pc =>
    let at_ := ls.filter (fun l => (v.lane l).again == pc)
    let bad := at_.filterMap (fun l => (v.migPoison l).map (fun i => (l, recallFault (v.lane l) i)))
    let s := if bad.isEmpty then s else faultLanes s core slot bad pc
    let go := at_.filter (fun l => (v.migPoison l).isNone)
    if go.isEmpty then s else sendAll s core slot go pc { recalled := true }) s

/-- Guests that stand at safe points are recalled from a core; one at an instruction issues it again at home (R295). -/
def recallFrom (s : State) (core : Nat) (p : Guest → Bool) : State :=
  (s.core core).st.warps.foldl (fun s x => recallWarp s core x.1 x.2 (idleGuests x.2 p)) s

/-- The fibres of a group that are away at safe points are recalled. -/
def recallGroup (s : State) (core : Nat) (g : Group) : State :=
  if g.warps.all (fun i => match s.warp? core i with | some w => (lanesIn w (· == .away)).isEmpty | none => true) then s
  else s.cores.foldl (fun s c => if commitWaits s c.1 then s else
    recallFrom s c.1 (fun x => x.origin == core && g.warps.contains x.homeSlot)) s

/-- PREEMPTION_SAVE: a group asked to stop, whose fibres stand at safe points and whose engines have ended, is saved; a
stop for a DUMP saves nothing (R356). -/
def execPreemptionSave (core group : Nat) (s : State) : Host.Outcome State Fault Refusal :=
  .next (match mfind (s.core core).st.groups group with
    | none => s
    | some g => match mfind s.launches g.launch with
      | none => s
      | some l =>
        let dump := match (s.part l.part).dumpReq with | some (2, _, _, x) => x == g.launch | _ => false
        if g.preempt && !dump && g.lazyOf.isNone && groupStopped s core group && !commitWaits s core && (s.core core).power == .active then
          saveGroup s core group g l
        else if g.preempt && g.lazyOf.isNone then recallGroup s core g
        else s)

/-! ## GROUP_END (06 R124; 13 R267, R272) -/

/-- Every fibre of a group has ended, its queues are empty and its streams and engines are over. -/
def groupOver (s : State) (core gid : Nat) (g : Group) : Bool :=
  g.lazyOf.isNone && groupIdle s gid && g.queues.all (fun q => q.2.occ == 0) &&
  g.warps.all (fun i => match s.warp? core i with
    | some w => w.idle && (match w.stream with | some t => t.ended | none => true)
    | none => true)

/-- The cores on which a group holds banks: its span set, and a core that it has moved from (14_shuttles.md R296). -/
def bankCores (s : State) (gid : Nat) : List Nat :=
  (s.cores.filter (fun c => c.2.st.banks.any (fun b => b.2.owner == some gid))).map (·.1)

/-- The banks of an ended group are freed, to be cleared. -/
def freeGroupBanks (s : State) (gid : Nat) : State :=
  let t := s.fresh
  (bankCores s gid).foldl (fun s c => s.modSt c (fun k => { k with
    banks := k.banks.map (fun b => (b.1, if b.2.owner = some gid then { b.2.freed t with forward := none } else b.2)) })) { s with fresh := t + 1 }

/-- The last group of a launch has ended. -/
def launchOver (s : State) (id : Nat) (l : Launch) : Bool :=
  l.state == .placed && decide (l.header.groups ≤ l.ended) && l.replace.isEmpty && (savedOf s id).isEmpty

/-- GROUP_END: an ended group leaves its core; with the last group of the task the launch is released. -/
def execGroupEnd (core group : Nat) (s : State) : Host.Outcome State Fault Refusal :=
  .next (match mfind (s.core core).st.groups group with
    | none => s
    | some g =>
      let p := s.launchPart g.launch
      if !groupOver s core group g || !mayRelease s p || (s.core core).power != .active || (s.part p).state != 1 then s
      else
        let held := bankCores s group
        let s := removeGroup (freeGroupBanks (releaseWide s core) group) core group g none
        let s := ((core :: held).eraseDups).foldl (fun s c => commitCore s c 0 []) (s.modLaunch g.launch (fun l => { l with ended := l.ended + 1 }))
        match mfind s.launches g.launch with
        | some l => if launchOver s g.launch l then releaseLaunch s g.launch { l with state := .releasing } else s
        | none => s)

/-! ## Posts by store (R264, R265) -/

/-- STORE_POST: a store that covers the last byte of a bound window has reached its home: the message, the window's bytes as they
stood then, is posted, or the refusal counted. -/
def execStorePost (part window : Nat) (s : State) : Host.Outcome State Fault Refusal :=
  .next (match s.postsDue.find? (fun x => x.2.1 == part && x.2.2.1 == window) with
    | none => s
    | some d =>
      let s := { s with postsDue := s.postsDue.erase d }
      let r := post s (.device d.1) window (some d.2.2.2)
      if r.1 = 0 then r.2 else countRefusal s window)

end Sys2Proof.Machine
end

