-- ==== Sys2Proof/Machine/Shuttle.lean ====
section
/-! DEFINITION. Shuttles: arrivals, guests, bounces, returns home and their repetition (14_shuttles.md R285 to R292,
R295), and hot-spot group moves (R296). -/

namespace Sys2Proof.Machine

/-! ## What a receiver has seen (R295) -/

/-- The key of a departure: fibre, group tag and SEQ. -/
def Shuttle.key (x : Shuttle) : Nat × Nat × Nat × Word := (x.g.origin * 64 + x.g.homeSlot, x.g.lane, x.g.gtag, x.g.seq)

def CoreSt.noteSeen (k : CoreSt) (x : Shuttle) : CoreSt := { k with seen := k.seen ++ [x.key] }

/-- A shuttle has reached its receiver; the sender keeps it until the receiver commits. -/
def markReceived (s : State) (id : Nat) : State :=
  { s with transit := s.transit.map (fun x => if x.id = id then { x with settled := true } else x) }

/-- A core receives shuttles: powered and not resuming. -/
def receives (s : State) (core : Nat) : Bool := (s.core core).power == .active && !(s.core core).resuming

/-- SHUTTLE_ARRIVAL: the shuttles of one departure enter the target's queue together; one already received is discarded. -/
def execShuttleArrival (gtag : Nat) (s : State) : Host.Outcome State Fault Refusal :=
  .next (
    let xs := s.transit.filter (fun x => !x.homeward && x.g.gtag == gtag && !x.settled && receives s x.target)
    xs.foldl (fun s x =>
      let s := markReceived s x.id
      if (s.core x.target).st.seen.contains x.key then s
      else countEvent (s.modSt x.target (fun k => { k.noteSeen x with shuttles := k.shuttles ++ [{ x with queuedAt := s.time }] }))
        x.target 0x0A 1) s)

/-! ## Guests (R289) -/

/-- A guest warp that a shuttle may join: of its task, every fibre at its PC, with a free lane. -/
def joins (x : Shuttle) (w : Warp) : Bool :=
  w.isGuest && w.launch == x.g.launch && (lanesIn w (· == .empty)).length != 0 &&
  (lanesIn w (· != .empty)).all (fun l => (w.lane l).word == x.pc && (w.lane l).hints.isEmpty)

/-- The lane that a shuttle takes in a guest warp: its own number if free, otherwise the lowest free one. -/
def guestLane (x : Shuttle) (w : Warp) : Nat := if (w.lane x.g.lane).state = .empty then x.g.lane else (lanesIn w (· == .empty)).headD 0

/-- The fibre of a shuttle in its guest lane; one that came back acts there by its departure's mode (R287). -/
def arrivedLane (x : Shuttle) : Lane :=
  { state := .ready, pc := x.pc, sp := x.sp, pw := x.pw, safecnt := x.safecnt, workid := x.workid, regs := x.regs, seq := x.g.seq
    guest := some x.g, bounced := x.returned && x.mode != 2 }

/-- A new guest warp for a shuttle's task; its window is that of the fibre's home warp. -/
def guestWarp (s : State) (x : Shuttle) : Warp :=
  { isGuest := true, launch := x.g.launch, nreg := (match s.warp? x.g.origin x.g.homeSlot with | some w => w.nreg | none => 64)
    migset := x.g.migset }

/-- The slot of the guest warp that a shuttle enters, an existing or a new one. -/
def guestSlot (s : State) (core : Nat) (x : Shuttle) : Option (State × Nat) :=
  let k := (s.core core).st
  match k.warps.find? (fun w => joins x w.2) with
  | some w => some (s, w.1)
  | none =>
    if (k.warps.filter (fun w => w.2.isGuest)).length < 16 ∧ k.warps.length < 64 ∧ granulesUsed k + 2 ≤ 1024 then
      some (addWarp s core (guestWarp s x))
    else none

/-- A queued shuttle becomes a guest; its arrival is an acquire. -/
def placeGuest (s : State) (core : Nat) (x : Shuttle) (slot : Nat) : State :=
  let s := s.modSt core (fun k => { k with shuttles := k.shuttles.filter (fun y => y.id != x.id) })
  let s := s.modWarp core slot (fun w => w.modLane (guestLane x w) (fun _ => arrivedLane x))
  acquire s core

/-- GUEST_PLACEMENT: the oldest queued shuttle for which there is a place becomes a guest. -/
def execGuestPlacement (core : Nat) (s : State) : Host.Outcome State Fault Refusal :=
  .next (
    if !receives s core then s
    else match (s.core core).st.shuttles.findSome? (fun x => (guestSlot s core x).map (fun r => (x, r))) with
      | some (x, s1, slot) => placeGuest s1 core x slot
      | none => s)

/-! ## Bounces (R287, R289) -/

/-- Batches parked at REGRP whose mask is whole again go on (R292). -/
def regroup (s : State) (core slot : Nat) : State :=
  (upFrom 12 0).foldl (fun s k => match s.warp? core slot with
    | none => s
    | some w =>
      let ls := (upFrom 32 0).filter (fun l => (w.lane l).state == .parked && (w.lane l).park == .regrp k)
      if !ls.isEmpty && regrouped w k then goOn s core slot ls else s) s

/-- A refused departure comes back to the sending core: a home lane leaves AWAY and its fibre acts by its mode; a fibre that was
a guest there waits for a place as an arriving one does (log 86). -/
def bounceOne (s : State) (x : Shuttle) : State :=
  let s := { s with transit := s.transit.filter (fun y => y.id != x.id) }
  let s := if x.mode = 2 then s.modSt x.fromCore (fun k => { k with migfallback := k.migfallback + 1 }) else s
  if x.g.origin = x.fromCore then
    let s := s.modLane x.fromCore x.fromSlot x.fromLane (fun y =>
      if y.state = .away then { y with state := .ready, bounced := x.mode != 2 } else y)
    settleWarp (regroup s x.fromCore x.fromSlot) x.fromCore x.fromSlot
  else s.modSt x.fromCore (fun k => { k with shuttles := k.shuttles ++ [{ x with returned := true, target := x.fromCore }] })

/-- SHUTTLE_BOUNCE: the shuttles of a departure that have waited 10 µs in a core's queue return to their sender. Both
cores commit the return, so that it is made once (R295). -/
def execShuttleBounce (core gtag : Nat) (s : State) : Host.Outcome State Fault Refusal :=
  .next (
    let xs := (s.core core).st.shuttles.filter (fun x =>
      x.g.gtag == gtag && !x.returned && decide (x.queuedAt + 10000 ≤ s.time) && receives s x.fromCore)
    let cores := (core :: xs.map (fun x => x.fromCore)).eraseDups
    if !receives s core || xs.isEmpty || cores.any (commitWaits s) then s
    else
      let s := s.modSt core (fun k => { k with shuttles := k.shuttles.filter (fun y => !(xs.any (fun x => x.id == y.id))) })
      cores.foldl (fun s c => commitCore s c 0 []) (xs.foldl bounceOne s))

/-! ## Arrival home (R288) -/

/-- A stop of a home group is pending. -/
def groupStopping (s : State) (core slot : Nat) : Bool :=
  match s.warp? core slot with
  | none => false
  | some w => match mfind (s.core core).st.groups w.group with | some g => g.preempt | none => false

/-- What a homeward shuttle writes into its home lane. -/
def homeLane (x : Shuttle) (y : Lane) : Lane :=
  { y with
    state := .ready, park := .none, pc := x.pc, sp := x.sp, pw := x.pw, safecnt := x.safecnt, seq := x.g.seq, live := 0xFFFF
    hints := [], tag := 0, counted := false, bounced := false
    regs := x.regs.foldl (fun (m : PMap Word) (r : Nat × Word) => if r.1 = 0 then m else mset m (y.wbase + r.1) r.2) y.regs
    poison := x.regs.foldl (fun (m : PMap Bool) (r : Nat × Word) => if r.1 = 0 then m else mdel m (y.wbase + r.1)) y.poison }

/-- The lane enters the state that the shuttle's flags direct. -/
def homeState (s : State) (c slot l : Nat) (x : Shuttle) : State :=
  if x.fault then
    enterFault s c slot l { (x.frec.getD FaultRec.blank) with code := x.fcode, addr := x.faddr, pc := x.pc, guest := true }
  else if x.ended then endLane s c slot l true
  else if x.exited then endLane s c slot l false
  else if x.recalled && groupStopping s c slot then s.modLane c slot l (fun y => { y with state := .parked, park := .safePoint })
  else s

/-- HOME_ARRIVAL: a homeward shuttle reaches its lane, which leaves AWAY; the arrival is an acquire. -/
def execHomeArrival (shuttle : Nat) (s : State) : Host.Outcome State Fault Refusal :=
  .next (match s.transit.find? (fun x => x.homeward && x.id == shuttle && !x.settled) with
    | none => s
    | some x =>
      let c := x.g.origin
      let slot := x.g.homeSlot
      if !receives s c then s
      else
        let s := markReceived s x.id
        if (s.core c).st.seen.contains x.key then s
        else
          let s := countEvent (s.modSt c (fun k => k.noteSeen x)) c 0x0A 1
          let s := s.modCtx c x.g.launch (fun y => { y with opf := y.opf ||| x.g.gfl })
          let s := s.modLane c slot x.g.lane (homeLane x)
          settleWarp (regroup (acquire (homeState s c slot x.g.lane x) c) c slot) c slot)

/-- SHUTTLE_RESEND: a receiver that lost power has forgotten a shuttle that it had received and not committed: its sender
sends it again with the same SEQ (R295). -/
def execShuttleResend (shuttle : Nat) (s : State) : Host.Outcome State Fault Refusal :=
  .next { s with transit := s.transit.map (fun x =>
    if x.id = shuttle ∧ x.settled ∧ !((s.core x.target).st.seen.contains x.key) then { x with settled := false } else x) }

/-! ## Hot-spot moves (R296) -/

/-- A fibre of a warp waits on a barrier word. -/
def Warp.atWord (w : Warp) : Bool :=
  w.lanes.any (fun y => y.2.state == .parked && (match y.2.park with | .bwwait _ _ => true | _ => false))

/-- The conditions of a move. The group has its context to itself, and the destination has none of its task: no value that a program reads
changes. -/
def mayMove (s : State) (core gid dst : Nat) (g : Group) : Bool :=
  let p := s.launchPart g.launch
  let ws := g.warps.filterMap (fun i => s.warp? core i)
  let nreg := match ws with | w :: _ => w.nreg | [] => 8
  g.lazyOf.isNone && !g.preempt && core != dst && g.span == 1 && groupStopped s core gid && !(ws.any Warp.atWord) &&
  (s.part p).state == 1 && coreTakes s p core && roomFor s p dst ws.length nreg 1 &&
  decide (streamsRunning s dst + (ws.filter Warp.streams).length ≤ 16) && !commitWaits s core && !commitWaits s dst &&
  ((s.core dst).st.ctx? g.launch).isNone && !(s.core core).st.groups.any (fun x => x.1 != gid && x.2.launch == g.launch && x.2.lazyOf.isNone) &&
  !s.saved.any (fun x => x.2.launch == g.launch && x.2.core == core) &&
  (s.core core).st.banks.all (fun b => b.2.owner != some gid || (((s.core dst).st.bank b.1).owner.isNone && !((s.core dst).st.bank b.1).clearing))

/-- A bank goes to the destination with its bytes and entries; the one left behind forwards. -/
def moveBank (s : State) (core dst b : Nat) : State :=
  let k := (s.core core).st
  let t := s.fresh
  let s := { s with fresh := t + 1 }.modSt dst (fun d =>
    let d := d.wipe b
    { d with
      banks := mset d.banks b { k.bank b with stamp := t, forward := none }
      scratch := (k.scratch.filter (fun (y : Host.Cell) => y.1 / 131072 == b)).foldl (fun (m : Memory) (y : Host.Cell) => memWrite m y.1 y.2) d.scratch
      acc := (k.acc.filter (fun (y : Nat × Word) => y.1 / 1024 == b)).foldl (fun (m : PMap Word) (y : Nat × Word) => mset m y.1 y.2) d.acc })
  s.modSt core (fun k => { k.wipe b with banks := mset k.banks b { owner := (k.bank b).owner, stamp := t, forward := some dst } })

/-- A bank of a group that forwards to one core forwards to another from now on. -/
def Bank.redirect (b : Bank) (gid core dst : Nat) : Bank :=
  if b.owner = some gid ∧ b.forward = some core then { b with forward := some dst } else b

/-- The group's warps, context, banks and queues go to another core. -/
def moveGroup (s : State) (core gid dst : Nat) (g : Group) : State :=
  let s := releaseWide s core
  let k := (s.core core).st
  let ws := g.warps.filterMap (fun i => mfind k.warps i)
  let bs := (k.banks.filter (fun b => b.2.owner == some gid && b.2.forward.isNone)).map (·.1)
  let s := needCtx (bs.foldl (fun s b => moveBank s core dst b) s) dst g.launch ((k.ctx? g.launch).getD {})
  let s := s.modSt core (fun k =>
    let groups := mdel k.groups gid
    { k with
      warps := g.warps.foldl mdel k.warps, groups := groups
      ctxs := if groups.any (fun x => x.2.launch == g.launch && x.2.lazyOf.isNone) then k.ctxs else mdel k.ctxs g.launch })
  let s := s.cores.foldl (fun s c => s.modSt c.1 (fun k => { k with banks := k.banks.map (fun b => (b.1, b.2.redirect gid core dst)) })) s
  let s := { s with held := s.held.map (fun (e : Egress) => e.here s) }
  let r := addWarps s dst ws
  let s := r.1.modSt dst (fun k => { k with groups := mset k.groups gid { g with warps := r.2 } })
  acquire (commitCore (commitCore s core 0 []) dst 0 []) dst

/-- GROUP_MOVE: the power controller moves a group that stands still to another core of its partition. -/
def execGroupMove (core group dst : Nat) (s : State) : Host.Outcome State Fault Refusal :=
  .next (match mfind (s.core core).st.groups group with
    | none => s
    | some g => if mayMove s core group dst g then moveGroup s core group dst g else s)

end Sys2Proof.Machine
end

