-- ==== Sys2Proof/Machine/Journal.lean ====
section
/-! DEFINITION. The journal's images, power loss, gating and resume (08_memories.md R166 to R175; 17_faults.md R351, R352;
11_banks_matrix.md R244; 10_memory_instructions.md R216; 14_shuttles.md R295; 16_tables.md R335). -/

namespace Sys2Proof.Machine

/-! ## Images and epochs (R169, R170) -/

/-- JOURNAL_APPLY: the oldest committed epoch is applied to the images; a torn one is discarded whole. -/
def execJournalApply (core : Nat) (s : State) : Host.Outcome State Fault Refusal :=
  .next (match (s.core core).epochs with
    | [] => s
    | e :: rest =>
      let s := s.modCore core (fun k => { k with image := if e.intact then e else k.image, epochs := rest })
      if rest.isEmpty && (s.core core).journalFull then
        (let s := s.modCore core (fun k => { k with journalFull := false })
         if commitWaits s core then s else switchBuffer (commitCore s core 2 []) core)
      else s)

/-! ## Engines of a core that loses power -/

/-- An engine that the last commit of its core covers goes on after resume. -/
def Epoch.covers (p : Epoch) (e : Engine) : Bool := decide (e.id < p.fresh)

/-- An engine has a hold on a core's banks or entries. -/
def heldAt (s : State) (core op : Nat) : Bool := (s.core core).holds.any (fun h => h.op == some op)

/-- The entries that a loop has changed are as they were before it, on the cores other than one (R244). -/
def unloop (s : State) (e : Engine) (but : Nat) : State :=
  (spanSet e.core e.span).foldl (fun s c =>
    if c = but then s
    else s.modSt c (fun k => { k with acc := e.before.foldl (fun (m : PMap Word) (x : Nat × Word) =>
      if x.1 / 65536 = c then mset m (x.1 % 65536) x.2 else m) k.acc })) s

/-- A loop of the core starts again from its intent. -/
def restartLoop (s : State) (e : Engine) : State :=
  (unloop s e e.core).modEngine e.id (fun x => { x with before := [], pathSeg := x.pathSeg.map (fun _ => 0), seen := [], read := [] })

/-- A check of the core starts again from its first bank, in the place that its requests had. -/
def restartCheck (s : State) (core : Nat) (e : Engine) (m : Nat) : State :=
  let hs := ((bchkHolds core m).zip (upFrom (bchkHolds core m).length 0)).map (fun x => { x.1.2 with id := e.id + 1 + x.2, op := some e.id })
  (s.modEngine e.id (fun x => { x with next := 0, info := 0 })).modCore core (fun k =>
    { k with holds := k.holds.takeWhile (fun h => decide (h.id < e.id)) ++ hs ++ (k.holds.filter (fun h => h.op != some e.id)).dropWhile (fun h => decide (h.id < e.id)) })

/-- INFO of a loss: the failing address is one of the operation's, which the spec does not name further (10 R216; 15 Table 15-2). -/
def lossInfo (s : State) (e : Engine) : Nat := Config.free s.free (94000 + e.id) % 2 ^ 50

/-- The record of ENGINE for a loop that has lost a span partner. -/
def spanRecord (e : Engine) : FaultRec :=
  { engRecord e (e.pc != e.ipc) fcEngine 0 (e.ipc + 4) with detail := fcResumeLost, stream := e.stream }

/-- The stream of a failed loop ends with ENGINE. -/
def spanStream (s : State) (e : Engine) : State :=
  match (s.warp? e.core e.slot).bind (·.stream) with
  | none => s
  | some t =>
    let i := (e.ipc.toNat - t.base.toNat) / 4
    let w := (s.warp? e.core e.slot).getD { launch := 0 }
    let ms := masksOf w t.leader
    let s := s.modWarp e.core e.slot (fun w => { w with stream := w.stream.map (fun t =>
      { t with ended := true, park := .none, hints := [], status := BitVec.ofNat 32 (fcEngine + i * 256) }) })
    let s := ringPlace s e.part (faultqOf s e.core e.launch)
      (recordBytes { spanRecord e with
        core := e.core, warp := e.slot, lane := t.leader, msnap := BitVec.ofNat 12 (ms.foldl (fun a k => a + 2 ^ k) 0)
        mvals := (ms.take 6).map w.mask })
    wake (traceFault s e.core e.slot t.leader false fcEngine 0) e.core (fun p => p == .stream)

/-- The batch of a failed loop receives ENGINE. -/
def spanBatch (s : State) (e : Engine) : State :=
  match s.warp? e.core e.slot with
  | none => s
  | some w =>
    let ls := (maskLanes e.members).filter (fun l => match (w.lane l).state with
      | .ready | .parked | .napping => true
      | _ => false)
    settleWarp (faultLanes s e.core e.slot (ls.map (fun l => (l, spanRecord e))) (spanRecord e).pc) e.core e.slot

/-- A loop fails on every core of its span, one of them having lost power (R244). -/
def failSpan (s : State) (e : Engine) (lost : Nat) : State :=
  let s := donePending (endEngine (unloop s e lost) e) e
  if e.stream then spanStream s e else spanBatch s e

/-- What the loss of a core does to an engine (R216, R244, R352). -/
def engineLoss (s : State) (core : Nat) (p : Epoch) (e : Engine) : State :=
  if e.kind.isCopy then
    (if e.core = core ∨ heldAt s core e.id then failEngine (settleFailed s e) e 5 (lossInfo s e) else s)
  else match e.kind with
    | .mloop _ _ _ _ _ =>
      if e.core = core then (if p.covers e then restartLoop s e else endEngine (unloop s e core) e)
      else if heldAt s core e.id then failSpan s e core
      else s
    | .bchk m => if e.core = core then (if p.covers e then restartCheck s core e m else endEngine s e) else s
    | .bfree _ _ | .bmode _ _ _ | .accld _ _ _ | .accclr _ _ =>
      if e.core = core ∧ !p.covers e then endEngine s e else s
    | _ => s

/-! ## Groups set up since the last commit -/

/-- A group that the last commit does not know is placed anew; its banks are freed. -/
def regroupLost (s : State) (x : Nat × Group) : State :=
  (freeGroupBanks s x.1).modLaunch x.2.launch (fun l => { l with replace := l.replace ++ [x.2.number] })

/-! ## Loss of power (08 R167, R172) -/

/-- A counter or register of a core that its shadow does not cover has no value that the spec states after a loss. -/
def freeD (s : State) (core i : Nat) : DWord := BitVec.ofNat 64 (Config.free s.free (95000 + 100 * core + i))

/-- Banks that a group holds: those to be reloaded after resume (17 R351). -/
def bankedBanks (k : CoreSt) : List Nat := (k.banks.filter (fun b => b.2.owner.isSome)).map (·.1)

/-- The parts of a core that no shadow holds are lost; the core stands at its last commit, but for the deadlines, which have counted
since (15_counters.md R313). -/
def Core.rolledBack (k : Core) (p : Power) (time : Nat) : Core :=
  { k with
    st := { k.lastEpoch.snap.tick (time - k.lastEpoch.time) with rows := [] }, power := p, gateReq := false, resuming := true, restoring := bankedBanks k.lastEpoch.snap
    l1w := k.lastEpoch.dirty, l1va := k.lastEpoch.lines, l1s := [], icache := [], egress := k.lastEpoch.egress, guestStalls := []
    journalFull := false, returned := [], cut := .none, issues := 0
    holds := k.holds.filter (fun h => h.op.isSome) }

/-- Sensitivity and event counters, MIGFALLBACK and HAZCHK after a loss, which Table 8-3 does not list: free values. -/
def loseCounters (s : State) (core : Nat) : State :=
  s.modCore core (fun k => { k with
    st := { k.st with migfallback := freeD s core 5 }
    hazchk := (freeD s core 0).getLsbD 0, cycf := freeD s core 1, issu := freeD s core 2, mstl := freeD s core 3, lbsy := freeD s core 4
    evc := (upFrom 16 0).map (fun i => (i, freeD s core (10 + i)))
    evsel := (upFrom 16 0).map (fun i => (i, BitVec.ofNat 32 (bits (freeD s core (30 + i)).toNat 31 1 * 2 ^ 31 + bits (freeD s core (30 + i)).toNat 0 8 % 0x0F))) })

/-- A core loses power while the module keeps it. -/
def losePower (s : State) (core : Nat) (p : Power) : State :=
  let k := s.core core
  let ep := k.lastEpoch
  let gone := k.st.groups.filter (fun g => (mfind ep.snap.groups g.1).isNone && g.2.lazyOf.isNone)
  let s := loseCounters (s.modCore core (fun k => k.rolledBack p s.time)) core
  let s := s.engines.foldl (fun s e => match mfind s.engines e.1 with | some x => engineLoss s core ep x | none => s) s
  gone.foldl regroupLost s

/-- CORE_POWER_LOSS. -/
def execCorePowerLoss (core : Nat) (s : State) : Host.Outcome State Fault Refusal :=
  .next (if (s.core core).power = .active then losePower s core .coreGated else s)

/-- The cores of a motif. -/
def motifCores (m : Nat) : List Nat := upFrom 8 (8 * m)

/-- Every other motif is without power, and a partition is in HALT: the loss would enter STANDBY in HALT, a combination that cannot
occur, and the request is refused (16_tables.md R335, Table 16-12). -/
def standbyInHalt (s : State) (motif : Nat) : Bool :=
  (upFrom 32 0).all (fun m => m == motif || !(s.motif m).powered) && (upFrom 16 0).any (fun p => (s.part p).debug == 2)

/-- MOTIF_POWER_LOSS: its cores lose power, its slice its lines, its TLB its entries; the MRAM keeps the L2 shadow (R172), and the base
die the write-backs that it has queued (12_stacks.md R252). -/
def execMotifPowerLoss (motif : Nat) (s : State) : Host.Outcome State Fault Refusal :=
  .next (
    if standbyInHalt s motif then s
    else
    let s := (motifCores motif).foldl (fun s c =>
      if (s.core c).power = .active then losePower s c .motifGated else s.modCore c (fun k => { k with power := .motifGated })) s
    let mine := fun (ln : Nat) => homeMotif (128 * ln) == motif
    let s := (s.refresh.flatMap (fun x => x.2.filter mine)).foldl writeBackLine s
    { s with
      refresh := (s.refresh.map (fun (x : Nat × List Nat) => (x.1, x.2.filter (fun ln => !mine ln)))).filter (fun x => !x.2.isEmpty)
      l2 := s.l2.filter (fun (x : Nat × Byte) => homeMotif x.1 != motif)
      unmirrored := s.unmirrored.filter (fun (x : Nat × Nat) => homeMotif (128 * x.1) != motif) }.modMotif motif (fun m =>
      { m.counted s.time with powered := false, loaded := false, tlb := [], paged := [] }))

/-- MOTIF_RESTORE: a motif with power reloads its slice from its shadow and then serves requests (R172). -/
def execMotifRestore (motif : Nat) (s : State) : Host.Outcome State Fault Refusal :=
  .next (
    if (s.motif motif).loaded then s
    else
      let back := s.l2shadow.filter (fun (x : Nat × Byte) => homeMotif x.1 == motif)
      let s := { s with l2 := back.foldl (fun (m : PMap Byte) (x : Nat × Byte) => if (mfind m x.1).isSome then m else mset m x.1 x.2) s.l2 }
      let s := s.modMotif motif (fun m => { m.counted s.time with powered := true, loaded := true })
      wakeAll ((motifCores motif).foldl (fun s c => s.modCore c (fun k => { k with power := if k.power = .motifGated then .coreGated else k.power })) s)
        (fun p => p == .owned))

/-! ## Resume (17 R351, R352) -/

/-- A lane parked at an instruction that waits on another agent issues it again; a lane that held hints takes them
again (R169, R352). Age counts, and with them the deferral by YIELD, are not shadowed (Table 8-3). -/
def resumeLane (x : Lane) : Lane :=
  let again := match x.park with
    | .fetch _ | .stackPage _ => true
    | .cwait _ _ | .cwaitMet _ | .bwwait _ _ | .lbwait _ _ | .queue _ _ | .regrp _ | .stream | .copySlot | .owned | .restoring _ _ | .egress | .pager | .channel _ => true
    | .clearing | .lbarv _ _ | .resuming _ => true
    | .dump => x.counted
    | _ => false
  if x.state = .ready ∨ (x.state = .parked ∧ again = true) then
    { x with state := .ready, park := .none, owed := [], pc := if x.hints.isEmpty then x.pc else x.hpc, hints := [], tag := 0, age := 0, defer := 0 }
  else { x with age := 0, defer := 0 }

/-- A stream takes its hints again; one that has issued its last word has ended. -/
def resumeStream (t : Stream) : Stream :=
  { t with
    idx := t.idx - t.hints.length, hints := [], ended := t.ended || decide (t.count ≤ t.idx - t.hints.length)
    park := match t.park with | .results => .results | _ => .none }

def resumeWarp (w : Warp) : Warp :=
  { w with lanes := w.lanes.map (fun x => (x.1, resumeLane x.2)), stream := w.stream.map resumeStream, waited := 0, lastIssue := 0 }

/-- A lost atomic: its destinations are poisoned and a notice is queued (R352); a RED is only recorded. -/
def lostAtomic (s : State) (core slot l : Nat) (dests : List Nat) (r : FaultRec) : State :=
  let s := s.modLane core slot l (fun x => { x with poison := dests.foldl (fun (m : PMap Bool) d => mset m d true) x.poison })
  noticeFault s core slot l r

/-- The members of a marked loop wait for its completion. -/
def lostMark (s : State) (core op : Nat) : State :=
  match mfind s.engines op with
  | none => s
  | some e => match e.kind with
    | .mloop _ _ _ _ _ => if e.word.getLsbD 31 && !e.stream then sPark s core e.slot (maskLanes e.members) else s
    | _ => s

/-- An intent that the last commit left open is settled. -/
def settleIntent (core : Nat) (s : State) (i : Intent) : State :=
  match i with
  | .atomic slot l dests r => lostAtomic s core slot l dests r
  | .engine op => lostMark s core op
  | .chain _ _ _ => s

/-- A context with PERSIST off is not resumed: its task fails (R352). -/
def failOff (s : State) (core : Nat) : State :=
  (s.core core).st.ctxs.foldl (fun s x =>
    if x.2.persistOff then fatal (taskFault s core x.1 fcResumeImpossible) x.1 0 fcResumeImpossible else s) s

/-- The steps of Table 17-6 for a core that lost power; a core that was gated has nothing to settle. -/
def resumeCore (s : State) (core : Nat) : State :=
  let ep := (s.core core).lastEpoch
  let s := s.modCore core (fun k => { k with
    power := .active, resuming := false, image := ep, epochs := []
    st := { k.st with warps := k.st.warps.map (fun x => (x.1, resumeWarp x.2)) } })
  let s := ep.intents.foldl (settleIntent core) s
  let s := if ep.cause = 4 then s else failOff s core
  let s := (s.core core).st.warps.foldl (fun s x => settleWarp s core x.1) s
  commitCore (wakeAll s (fun p => p == .resuming core)) core 0 []

/-- CORE_RESUME: a core of a partition whose motif has power and its slice again resumes. -/
def execCoreResume (core : Nat) (s : State) : Host.Outcome State Fault Refusal :=
  .next (
    let m := s.motif (core / 8)
    let mine := match s.partOfCore core with | some p => (s.part p).state != 0 | none => false
    if s.powered && m.powered && m.loaded && mine && (s.core core).power != .active then resumeCore s core else s)

/-- BANK_RELOAD: a bank is reloaded from MRAM; accesses that waited for it issue again (R351). -/
def execBankReload (core bank : Nat) (s : State) : Host.Outcome State Fault Refusal :=
  .next (if (s.core core).restoring.head? == some bank && (s.core core).power == .active then
      wakeAll (s.modCore core (fun k => { k with restoring := k.restoring.filter (· != bank) })) (fun p => p == .restoring core bank)
    else s)

/-! ## Gating (14 R295, 16 R335) -/

/-- No guest is on a core and none is queued for it. -/
def guestFree (s : State) (core : Nat) : Bool :=
  !(s.core core).st.warps.any (fun x => x.2.isGuest) && (s.core core).st.shuttles.isEmpty &&
  !s.transit.any (fun x => !x.homeward && x.target == core)

/-- Nothing that a core has begun is in progress. -/
def coreQuiet (s : State) (core : Nat) : Bool :=
  !s.engines.any (fun e => e.2.core == core && (e.2.kind.isCopy || !e.2.kind.slotted)) && (s.core core).holds.isEmpty && !commitWaits s core

/-- A quiet core commits and is gated; its state is in the shadow, and what the shadow does not cover is lost (08 R167). -/
def gateCore (s : State) (core : Nat) : State :=
  let s := drainEgress (commitCore s core 4 []) core
  loseCounters (s.modCore core (fun k => k.rolledBack .coreGated s.time)) core

/-- CORE_GATE: gating is requested, guests are recalled, and the core is gated when none is left and it is quiet. -/
def execCoreGate (core : Nat) (s : State) : Host.Outcome State Fault Refusal :=
  .next (
    if (s.core core).power != .active then s
    else
      let s := s.modCore core (fun k => { k with gateReq := true })
      let s := if commitWaits s core then s else recallFrom s core (fun _ => true)
      if guestFree s core && coreQuiet s core then gateCore s core else s)

/-! ## Module power loss (08 R172, R175) -/

/-- What survives the loss of the module's power: MRAM, flash, fuses and the root of trust, the schedule, and the model's
own counters. -/
def State.keptOff (s : State) : State :=
  { State.reset with
    turns := s.turns, free := s.free, fresh := s.fresh, time := s.time, boot := s.boot, leaf := s.leaf, security := s.security
    ownerKey := s.ownerKey, ownerKek := s.ownerKek, flash := s.flash, fuse := s.fuse, cfgRecords := s.cfgRecords, summaries := s.summaries }

/-- MODULE_POWER_LOSS: HBM, caches and the state of every core are lost, until the module is reset. -/
def execModulePowerLoss (s : State) : Host.Outcome State Fault Refusal := .next { s.keptOff with powered := false }

end Sys2Proof.Machine
end

