-- ==== Sys2Proof/Machine/Power.lean ====
section
/-! DEFINITION. The power controllers of the motifs (18_power_host.md R357 to R365; 16_tables.md R331), module reset
(08_memories.md R165; 18 R371, R372) and the boot of the firmware (18 R370 to R372). What the sensors say and what the
controller's estimate allows are inputs (log 11). -/

namespace Sys2Proof.Machine

/-! ## The power log (R365) -/

/-- An entry joins the ring of 64. -/
def Motif.addLog (m : Motif) (e : PowerLog) : Motif :=
  { m with log := mset m.log (m.logCount % 64) e, logCount := m.logCount + 1 }

/-- An entry of a kind at a TIME: OPL before and after, the window that asked, 0 for an interval decision. -/
def Motif.note (m : Motif) (time kind before after window : Nat) : Motif :=
  m.addLog ⟨time, kind, before, after, m.passcnt, m.lratio, window⟩

/-- The 16 bytes of an entry. -/
def PowerLog.bytes (e : PowerLog) : List Byte :=
  bytesLE 8 e.time ++ bytesLE 1 e.kind ++ bytesLE 1 e.before ++ bytesLE 1 e.after ++ bytesLE 1 e.passcnt ++ bytesLE 1 e.lratio ++ bytesLE 3 e.window

/-! ## Alarms (R363, Current) -/

/-- A current alarm: PASSCNT rises by one code; at 2 the current ceiling falls instead. At OP7 no step is left, and the
denial is logged. -/
def Motif.alarmed (m : Motif) (time : Nat) : Motif :=
  let m := { m with alarm := true }
  if m.passcnt < 2 then { m with passcnt := m.passcnt + 1 }.note time 2 m.opl m.opl 0
  else
    let m := { m with cuc := min 7 (max m.cuc m.opl + 1) }
    if m.opl = 7 then m.note time 4 7 7 0 else m

/-- CURRENT_ALARM. -/
def execCurrentAlarm (motif : Nat) (s : State) : Host.Outcome State Fault Refusal :=
  .next (if s.powered && (s.motif motif).powered then s.modMotif motif (fun m => m.alarmed s.time) else s)

/-! ## Sensitivity windows (R362) -/

/-- Lane cycles of the window that ends at a TIME (R358, R360, R388). -/
def windowCycles (m : Motif) (time : Nat) : Nat := m.laneUnits time / 200

/-- What a window sums over the ACTIVE cores of a motif. -/
structure WinSums where
  cores : Nat
  cycf : Nat
  issu : Nat
  mstl : Nat
  lbsy : Nat
  lane : Nat
  deriving DecidableEq, Repr

/-- The class of a window (Table 18-2), compared exactly. -/
def WinSums.winClass (w : WinSums) : WinClass :=
  if w.cores = 0 ∨ w.cycf = 0 then .idle
  else if 4 * w.cycf ≤ 10 * w.mstl then .mem
  else if 3 * w.lane * w.cores ≤ 4 * w.lbsy then .lane
  else if 6 * w.cycf ≤ 10 * w.issu ∧ 2 * w.lbsy < w.lane * w.cores then .front
  else .balanced

/-- The four counters of the eight cores of a motif, in order. -/
def motifCounters (s : State) (motif : Nat) : List DWord :=
  (motifCores motif).flatMap (fun c => let k := s.core c; [k.cycf, k.issu, k.mstl, k.lbsy])

/-- The sums of the window that ends now. -/
def winSums (s : State) (motif : Nat) : WinSums :=
  let m := s.motif motif
  let now := motifCounters s motif
  let act := (upFrom 8 0).filter (fun j => (s.core (8 * motif + j)).power == .active)
  let sum (i : Nat) : Nat := act.foldl (fun a j => a + (now.getD (4 * j + i) 0 - m.winBase.getD (4 * j + i) 0).toNat) 0
  { cores := act.length, cycf := sum 0, issu := sum 1, mstl := sum 2, lbsy := sum 3, lane := windowCycles m s.time }

/-- A class that asks for steps. -/
def WinClass.asks : WinClass → Bool
  | .mem | .lane | .front => true
  | _ => false

/-- SENSITIVITY_WINDOW: at a multiple of 10,000 ns the window is classed; from the second of a run on it asks for a step. -/
def execSensitivityWindow (motif : Nat) (s : State) : Host.Outcome State Fault Refusal :=
  .next (
    if s.time % 10000 ≠ 0 || (s.motif motif).lastWin == s.time || !s.powered then s
    else
      let c := (winSums s motif).winClass
      s.modMotif motif (fun m =>
        let run := if c = m.winClass then m.winRun + 1 else 1
        { m with winClass := c, winRun := run, winBase := motifCounters s motif, lastWin := s.time, laneWork := 0, laneSince := s.time
                 request := if c.asks && decide (2 ≤ run) then some c else none }))

/-! ## Steps (R360, Table 18-1) -/

/-- A step of OPL begins: up ramps the voltage first, down relocks first. -/
def Motif.beginOp (m : Motif) (time target : Nat) : Motif :=
  { m.counted time with step := some ⟨false, target, 1, time + (if target < m.opl then 1000 else 250)⟩ }

/-- A step of LRATIO begins. -/
def Motif.beginRatio (m : Motif) (time target : Nat) : Motif :=
  { m.counted time with step := some ⟨true, target, 1, time + 250⟩ }

/-- A phase of the step in progress ends: the registers change with the relocking. -/
def Motif.phaseEnd (m : Motif) (time : Nat) : Motif :=
  match m.step with
  | none => m
  | some st =>
    let m := m.counted time
    if time < st.ends then m
    else if st.isRatio then { m with lratio := st.target, step := none }
    else if st.phase = 1 then
      if st.target < m.opl then { m with step := some { st with phase := 2, ends := st.ends + 250 } }
      else { m with opl := st.target, step := some { st with phase := 2, ends := st.ends + 1000 } }
    else { m with opl := st.target, step := none }

/-- STEP_PHASE_END. -/
def execStepPhaseEnd (motif : Nat) (s : State) : Host.Outcome State Fault Refusal :=
  .next (s.modMotif motif (fun m => m.phaseEnd s.time))

/-! ## The control interval (R363) -/

/-- The cores of a motif, or of the module, that a partition holds. -/
def coresOf (s : State) (p : Nat) (cs : List Nat) : Nat := (cs.filter (fun c => s.partOfCore c == some p)).length

/-- The power cap of a motif in W: the lesser of 62 and the shares of the partitions' budgets (R363, Budget; 16_tables.md Table 16-9). -/
def powerCap (s : State) (motif : Nat) : Rat :=
  min 62 ((s.parts.map (fun p => ((p.2.budget * coresOf s p.1 (motifCores motif) : Nat) : Rat) / (coresOf s p.1 (upFrom 256 0) : Nat))).sum)

/-- What an interval decides on: the junction's temperature in °C, the controller's estimates in mW of the motif's power as it runs
and after the step that is asked for, and the cap. -/
structure IvalIn where
  temp : Nat
  held : Nat
  step : Nat
  cap : Rat
  deriving DecidableEq, Repr

/-- The budget allows the step that is asked for. -/
def IvalIn.allows (x : IvalIn) : Bool := decide ((x.step : Rat) ≤ 1000 * x.cap)

/-- The budget allows what the motif runs at. -/
def IvalIn.keeps (x : IvalIn) : Bool := decide ((x.held : Rat) ≤ 1000 * x.cap)

/-- PASSCNT falls after ten intervals without an alarm, and CUC rises after ten more at PASSCNT 0. -/
def Motif.currentLimit (m : Motif) : Motif :=
  if m.alarm then { m with quiet := 0, cucQuiet := 0 }
  else if m.passcnt = 0 then
    if m.cucQuiet + 1 = 10 then { m with cuc := m.cuc - 1, cucQuiet := 0, quiet := 0 } else { m with cucQuiet := m.cucQuiet + 1, quiet := 0 }
  else if m.quiet + 1 = 10 then { m with passcnt := m.passcnt - 1, quiet := 0, cucQuiet := 0 }
  else { m with quiet := m.quiet + 1, cucQuiet := 0 }

/-- The thermal ceiling. -/
def Motif.thermalLimit (m : Motif) (temp : Nat) : Motif :=
  if 105 ≤ temp then { m with cool := 0, thc := if m.thc ≤ m.opl then min 7 (m.thc + 1) else m.thc }
  else if 95 ≤ temp then { m with cool := 0 }
  else if m.cool + 1 = 100 then { m with cool := 0, thc := m.thc - 1 }
  else { m with cool := m.cool + 1 }

/-- One request of a failed check (R236, R364). -/
def Motif.checkLimit (m : Motif) (time : Nat) : Motif :=
  let m := { m with chc := min 7 (max m.chc m.opl + 1) }
  if m.opl = 7 then m.note time 4 7 7 0 else m

/-- The requests of an interval. -/
def Motif.checkLimits (m : Motif) (time : Nat) : Motif :=
  (upFrom m.checkReqs 0).foldl (fun m _ => m.checkLimit time) { m with checkReqs := 0 }

/-- The slowest of the three ceilings. -/
def Motif.ceiling (m : Motif) : Nat := max m.thc (max m.chc m.cuc)

/-- The kind of a ceiling step. -/
def Motif.ceilingKind (m : Motif) : Nat := if m.opl < m.thc then 1 else if m.opl < m.cuc then 2 else 3

/-- The conditions under which a boost is granted or kept; whether the budget allows it is the argument. -/
def Motif.boostOk (m : Motif) (budget : Bool) : Bool := m.passcnt == 0 && m.ceiling == 0 && budget && !m.alarm

/-- The step that a class asks for (Table 18-2): of LRATIO, of OPL, or none. -/
inductive Ask where
  | ratio (target : Nat)
  | point (target : Nat)
  | boost
  /-- A step down from OP7 (R361). -/
  | floor
  | none
  deriving DecidableEq, Repr

/-- OP up, which ends at OP1 for the controller; LANE asks for a boost there. -/
def askUp (c : WinClass) (opl : Nat) : Ask :=
  if 2 ≤ opl then .point (opl - 1) else if opl = 1 ∧ c = .lane then .boost else .none

def Motif.ask (m : Motif) (c : WinClass) : Ask :=
  match c with
  | .mem => if m.lratio = 2 then .ratio 1 else if m.lratio = 1 then .ratio 0 else if m.opl = 7 then .floor else .point (m.opl + 1)
  | .lane => if m.lratio = 0 then .ratio 1 else askUp .lane m.opl
  | .front => if m.lratio = 2 then .ratio 1 else if m.lratio = 1 then .ratio 0 else askUp .front m.opl
  | _ => .none

/-- A request is decided when no ceiling step begins: a step up, of OPL or of LRATIO to 1, only within the budget. -/
def Motif.settle (m : Motif) (time win : Nat) (x : IvalIn) (a : Ask) : Motif :=
  match a with
  | .none => m
  | .floor => m.note time 4 m.opl m.opl win
  | .ratio t => if t = 1 ∧ !x.allows then m.note time 4 m.opl m.opl win else { m with lratio := t }.note time 0 m.opl m.opl win |> fun k => { k with lratio := m.lratio }.beginRatio time t
  | .point t =>
    if t < m.opl ∧ (t < m.ceiling ∨ !x.allows) then m.note time 4 m.opl m.opl win
    else (m.note time 0 m.opl t win).beginOp time t
  | .boost => if m.boostOk x.allows then (m.note time 0 1 0 win).beginOp time 0 else m.note time 5 m.opl m.opl win

/-- A request that meets a ceiling step is denied, a boost discarded (R363). -/
def Motif.denied (m : Motif) (time win : Nat) (a : Ask) : Motif :=
  match a with
  | .none => m
  | .boost => m.note time 5 m.opl m.opl win
  | _ => m.note time 4 m.opl m.opl win

/-- The request that falls due, as the step that it asks for. -/
def Motif.dueAsk (m : Motif) : Ask := match m.request with | some c => m.ask c | none => .none

/-- The decisions of an interval in which no step is in progress. -/
def Motif.choose (m : Motif) (time win : Nat) (x : IvalIn) : Motif :=
  let a := m.dueAsk
  let m := { m with request := none }
  if m.opl < m.ceiling then
    let k := (m.note time m.ceilingKind m.opl (m.opl + 1) 0)
    let k := if m.opl = 0 then k.note time 5 0 1 0 else k
    (k.denied time win a).beginOp time (m.opl + 1)
  else if m.opl = 0 ∧ !m.boostOk x.keeps then ((m.note time 5 0 1 0).denied time win a).beginOp time 1
  else m.settle time win x a

/-- One interval: the four limits, then at most one step; one still in progress delays the next. -/
def Motif.interval (m : Motif) (time : Nat) (x : IvalIn) : Motif :=
  let m := ((m.currentLimit).thermalLimit x.temp).checkLimits time
  let m := if m.step.isSome then m else m.choose time (time / 10000 % 2 ^ 24) x
  { m with alarm := false, lastIval := time }

/-- CONTROL_INTERVAL: once at each multiple of 1,000 ns; at the end of a window the window comes first. -/
def execControlInterval (motif temp : Nat) (estimate : Nat × Nat) (s : State) : Host.Outcome State Fault Refusal :=
  .next (
    let m := s.motif motif
    if s.time % 1000 ≠ 0 || m.lastIval == s.time || !s.powered || (s.time % 10000 == 0 && m.lastWin != s.time) then s
    else s.modMotif motif (fun m => m.interval s.time ⟨temp, estimate.1, estimate.2, powerCap s motif⟩))

/-! ## Configuration records (R371, Table 18-5) -/

/-- A field of a record. -/
def cfgField (r : List Byte) (off n : Nat) : Nat := ofBytesLE ((r.drop off).take n)

/-- The fuse counter that every image and record must reach: the higher of the two dies'. -/
def fuseFloor (s : State) : Nat := max (mget s.fuse 0 0) (mget s.fuse 1 0)

/-- A record verifies, is bound to this device, and holds no reserved value. -/
def cfgUsable (s : State) (r : List Byte) : Bool :=
  cfgField r 0 4 == 0x4643594E && cfgField r 4 2 == 1 && cfgField r 6 2 == 0 && cfgField r 12 4 == 256 &&
  decide (fuseFloor s ≤ cfgField r 8 4) && decide (cfgField r 24 1 ≤ 1) && decide (cfgField r 25 1 < 16) && cfgField r 26 2 == 0 &&
  cfgField r 60 4 == 0 && (upFrom 32 64).all (fun i => decide (1 ≤ cfgField r i 1) && decide (cfgField r i 1 ≤ 7)) &&
  (upFrom 32 96).all (fun i => decide (cfgField r i 1 ≤ 2)) && cfgField r 160 96 == 0 &&
  (r.drop 128).take 32 == Config.sha256 Config.deviceKey && Config.verify Config.fusedKey (r.take 256) (r.drop 256)

/-- The usable record with the highest SECVER. -/
def cfgChosen (s : State) : Option (List Byte) :=
  (s.cfgRecords.filter (cfgUsable s)).foldl (fun (b : Option (List Byte)) r => match b with
    | none => some r
    | some x => if cfgField x 8 4 < cfgField r 8 4 then some r else some x) none

/-- The registers that the record in use sets. -/
def applyCfg (s : State) (r : List Byte) : State :=
  { s with
    serial := cfgField r 16 8, linkcfg := cfgField r 24 1, tracek := cfgField r 25 1
    ecost := (upFrom 16 0).map (fun i => (i, cfgField r (28 + 2 * i) 2))
    motifs := (upFrom 32 0).map (fun m => (m, { opl := cfgField r (64 + m) 1, lratio := cfgField r (96 + m) 1 })) }

/-! ## Reset and boot (08 R165; R370, R372) -/

/-- MODULE_RESET: memories, caches and tables take their reset contents, registers those of the configuration record or
their defaults; the boot count advances (16_tables.md Table 16-14). -/
def execModuleReset (s : State) : Host.Outcome State Fault Refusal :=
  .next (
    let s1 := { s.keptOff with time := 0, boot := s.boot + 1 }
    match cfgChosen s1 with
    | some r => applyCfg s1 r
    | none => s1)

/-- A measurement register is extended with a digest. -/
def extendMeas (s : State) (i : Nat) (digest : List Byte) : State :=
  { s with meas := mset s.meas i (Config.sha256 (s.measReg i ++ digest)) }

/-- The image that a die accepts: of slot A, else of slot B. -/
def dieImage (s : State) (die : Nat) : Option (List Byte) :=
  [2 * die, 2 * die + 1].findSome? (fun k => match mfind s.flash k with
    | some img => if Config.verify Config.fusedKey img [] && decide (mget s.fuse die 0 ≤ Config.imageVersion img) then some img else none
    | none => none)

/-- An accepted image may advance a die's fuse counter: a free choice. -/
def advanceFuse (s : State) (die : Nat) (img : List Byte) : State :=
  if Config.free s.free (97000 + die) % 2 = 1 then { s with fuse := mset s.fuse die (max (mget s.fuse die 0) (Config.imageVersion img)) } else s

/-- FIRMWARE_BOOT: both dies verify their slots; the module is released when their images' digests agree. M2 measures the record that
the module reset has chosen, before the counters advance (R371). -/
def execFirmwareBoot (s : State) : Host.Outcome State Fault Refusal :=
  .next (
    if !s.powered || s.released then s
    else
      let used := cfgChosen s
      let s := { s with meas := s.meas.filter (fun x => x.1 == 3) }
      let s := extendMeas s 0 Config.romDigest
      match dieImage s 0, dieImage s 1 with
      | some a, some b =>
        if Config.sha256 a = Config.sha256 b then
          let s := extendMeas (advanceFuse (advanceFuse s 0 a) 1 b) 1 (Config.sha256 a)
          let s := extendMeas s 2 (match used with | some r => Config.sha256 r | none => List.replicate 32 0)
          { s with released := true, recovery := false, secver := Config.imageVersion a }
        else { s with recovery := true }
      | _, _ => { s with recovery := true })

/-- IMAGE_WRITE: while no image verifies, a master writes an image slot of a die, and M3 is extended with the image's digest: the one
firmware update that the spec describes (R370, R372, log 11). -/
def execImageWrite (master die slot : Nat) (image : List (BitVec 8)) (s : State) : Host.Outcome State Fault Refusal :=
  .next (if s.recovery && s.hasMaster master && decide (die ≤ 1) && decide (slot ≤ 1) then
      extendMeas { s with flash := mset s.flash (2 * die + slot) image } 3 (Config.sha256 image)
    else s)

end Sys2Proof.Machine
end

