-- ==== Sys2Proof/Machine/Host.lean ====
section
/-! DEFINITION. The host's and the peers' accesses (18_power_host.md R366 to R369; 13_queues.md R264, R265), links and the
owner's timeout (16_tables.md R333), shootdowns (16 R327, R328), the BAR0 registers (18 Table 18-4) and the debug window
(18 R368). -/

namespace Sys2Proof.Machine

/-! ## Accesses from outside (R367, R369) -/

/-- Posts of bound windows whose last byte an outside write has covered (R264); a refusal is counted. -/
def outsidePosts (s : State) (who : Poster) (pas : List Nat) : State :=
  (windowsHit s pas).foldl (fun s x =>
    let r := post s who x.2.window none
    if r.1 = 0 then r.2 else countRefusal s x.2.window) s

/-- A slice that an access at a virtual address reaches, itself or in its walk, has no power yet: a read waits, as a write does at its
home (08 R172). -/
def outsideWaits (s : State) (p va len : Nat) : Bool :=
  (rangePages va (va + len - 1)).any (fun a => regionOf a == .global && !walkServes s p a) ||
  (upFrom ((va + len - 1) / 128 - va / 128 + 1) (va / 128)).any (fun ln => match devPa s p false (max va (128 * ln)) with
    | .ok pa => paTarget pa == .hbm && !homeServes s pa
    | .error _ => false)

/-- An access at a virtual address in a partition, performed at the homes: the bytes read, or none when it fails. -/
def outsideAccess (s : State) (p va len : Nat) (write : Option (List Byte)) (who : Poster) : Option (List Byte × State) :=
  match write with
  | none => match devRead s p va len with
    | .ok bs => some (bs, clearRead s p va len)
    | .error _ => none
  | some bs => match devPas s p va bs.length with
    | .ok pas => some ([], outsidePosts (outsideWrite s (vaCells s p va pas bs)) who pas)
    | .error _ => none

/-- A failed access adds 1 to APERR. -/
def countAperr (s : State) (p : Nat) : State := s.modPart p (fun x => { x with aperr := (x.aperr + 1) % 2 ^ 64 })

/-- HOST_ACCESS: an access of a host endpoint at an offset of BAR2 slot `part`; a read that fails completes with
Completer Abort, and answers nothing. -/
def execHostAccess (master part off len : Nat) (write : Option (List (BitVec 8))) (s : State) : Host.Outcome State Fault Refusal :=
  .next (
    if !s.powered || !s.hasMaster master || master == 4 || decide (16 ≤ part) || decide (2 ^ 38 ≤ off) then s
    else if (s.part part).master ≠ master then (countAperr s part).modMaster master (fun m => { m with answer := [] })
    else if write.isNone && outsideWaits s part ((s.part part).apbase.toNat + off) len then s
    else match outsideAccess s part ((s.part part).apbase.toNat + off) len write (.master master) with
      | some r => r.2.modMaster master (fun m => { m with answer := r.1 })
      | none => (countAperr s part).modMaster master (fun m => { m with answer := [] }))

/-- PEER_ACCESS: an incoming access of a peer port, in the partition that receives the port. -/
def execPeerAccess (port off len : Nat) (write : Option (List (BitVec 8))) (s : State) : Host.Outcome State Fault Refusal :=
  .next (
    let q := s.peer port
    if !s.powered || !q.up || decide (8 ≤ port) || decide (16 ≤ q.part) || decide (2 ^ 40 ≤ off) then s
    else if write.isNone && outsideWaits s q.part (q.vbase.toNat + off) len then s
    else match outsideAccess s q.part (q.vbase.toNat + off) len write (.peer port) with
      | some r => r.2.modPeer port (fun x => { x with answer := r.1 })
      | none => (countAperr s q.part).modPeer port (fun x => { x with answer := [] }))

/-! ## Links and the owner (16 R333; R369) -/

/-- A master's link goes up or down. -/
def setLink (s : State) (master : Nat) (up : Bool) : State :=
  s.modMaster master (fun m => { m with link := up, downAt := if m.link && !up then s.time else m.downAt })

/-- HOST_LINK_CHANGE: endpoints 1 to 3 are present only when the link is bifurcated (Table 16-10). -/
def execHostLinkChange (master : Nat) (up : Bool) (s : State) : Host.Outcome State Fault Refusal :=
  .next (if s.powered && s.hasMaster master && master != 4 then setLink s master up else s)

/-- BMC_POLL: the board management controller's link is up while it answers. -/
def execBmcPoll (answered : Bool) (s : State) : Host.Outcome State Fault Refusal :=
  .next (if s.powered then setLink s 4 answered else s)

/-- OWNER_TIMEOUT: the owner's link has been down for 100 ms without a break. -/
def execOwnerTimeout (s : State) : Host.Outcome State Fault Refusal :=
  .next (if decide (s.owner ≤ 4) && !(s.master s.owner).link && decide ((s.master s.owner).downAt + 100000000 ≤ s.time) then
      { s with owner := 7 } else s)

/-- PEER_LINK_DOWN: accesses through the port fail; a release at .sys no longer waits for writes not acknowledged. -/
def execPeerLinkDown (port : Nat) (s : State) : Host.Outcome State Fault Refusal :=
  .next (if port < 8 then s.modPeer port (fun p => { p with up := false, sent := [] }) else s)

/-- PEER_LINK_UP. -/
def execPeerLinkUp (port : Nat) (s : State) : Host.Outcome State Fault Refusal :=
  .next (if s.powered && decide (port < 8) then s.modPeer port (fun p => { p with up := true }) else s)

/-! ## Rights of masters (Table 18-4) -/

/-- The owner, or the master granted a partition. -/
def ownerOrMaster (s : State) (master p : Nat) : Bool := s.hasMaster master && (s.owner == master || (s.part p).master == master)

/-! ## Shootdowns (16 R327, R328) -/

/-- SHOOTVA and SHOOTLEN as a range, in bytes. -/
def Part.shootRange (p : Part) : Nat × Nat := (bits p.shootva.toNat 16 41 * 65536, bits p.shootlen.toNat 16 41 * 65536)

/-- The range is empty or beyond 2^57. -/
def Part.shootBad (p : Part) : Bool := p.shootRange.2 == 0 || decide (2 ^ 57 < p.shootRange.1 + p.shootRange.2)

/-- The member cores of a partition. -/
def memberCores (s : State) (p : Nat) : List Nat := maskLanesFrom 256 0 (s.part p).cores

/-- A leaf covers a page of a range. -/
def Tlb.meets (t : Tlb) (lo len : Nat) : Bool :=
  decide (t.vpage * pageSize t.level < lo + len) && decide (lo < t.vpage * pageSize t.level + pageSize t.level)

/-- Step 1: translations of the ASID that cover a page of the range are dropped. -/
def shootTlb (s : State) (p lo len : Nat) : State :=
  ((memberCores s p).map (· / 8)).eraseDups.foldl (fun s m => s.modMotif m (fun k =>
    { k with tlb := k.tlb.filter (fun t => !(t.asid == (s.part p).asid && t.meets lo len)) })) s

/-- Step 2: the L1 data lines are dropped, WRITTEN bytes through the egress buffer. Lines are kept by physical address,
and a line outside the range may be evicted at any time: every line of the core leaves. -/
def shootLines (s : State) (p core : Nat) : State :=
  let lines := ((s.core core).l1w.map (fun (x : Nat × Byte) => x.1 / 128)).eraseDups
  (lines.foldl (fun s ln => lineBack (if egressFull s core then persistPoint s core [] else s) core ln p false) s).modCore core
    (fun k => { k with l1s := [] })

/-- The fetch blocks of a range in which a warp of a core issues, its next fetch not being at the block's boundary. -/
def midBlocks (s : State) (core lo len : Nat) : List Nat :=
  if !coreRuns s core then []
  else (s.core core).st.warps.flatMap (fun w => w.2.lanes.filterMap (fun x =>
    let pc := x.2.word.toNat
    if x.2.state == .ready && decide (lo ≤ pc) && decide (pc < lo + len) && pc % 128 != 0 then some (pc / 128) else none))

/-- Step 3: fetch blocks of the range are dropped, but for those in which a warp still runs on to the boundary; parked fetches walk
again. -/
def shootFetch (s : State) (core lo len : Nat) : State :=
  let mid := midBlocks s core lo len
  let s := s.modCore core (fun k => { k with icache := k.icache.filter (fun (x : Nat × Word) =>
    !(decide (lo ≤ x.1) && decide (x.1 < lo + len)) || mid.contains (x.1 / 128)) })
  (s.core core).st.warps.foldl (fun s x => retryPages s core x.1) s

/-- Engine operations that a shootdown waits for. -/
def shootEngines (s : State) (p : Nat) : List Nat :=
  (s.engines.filter (fun e => e.2.part == p && (e.2.kind.slotted || (match e.2.kind with | .channel _ _ _ _ _ _ => true | _ => false)))).map (·.1)

/-- Channels granted to a partition that walk. -/
def shootWalks (s : State) (p : Nat) : List Nat := (upFrom 16 0).filter (fun c => bitOf (s.part p).chgrant c && (s.channel c).busy)

/-- A shootdown starts: its steps up to the wait for engines. -/
def startShoot (s : State) (p : Nat) : State :=
  let r := (s.part p).shootRange
  let s := s.modPart p (fun x => { x with
    shootBusy := true, shootOps := shootEngines s p, shootChans := shootWalks s p, shootAt := s.time, shootSpan := r })
  (memberCores s p).foldl (fun s c => shootFetch (shootLines s p c) c r.1 r.2) (shootTlb s p r.1 r.2)

/-- A shootdown has completed. -/
def shootEnd (s : State) (p : Nat) (err : Bool) : State :=
  s.modPart p (fun x => { x with
    shootBusy := false, shootDone := (x.shootDone + 1) % 2 ^ 15, shootErr := x.shootErr || err, shootOps := [], shootChans := [] })

/-- Writes of SHOOTVA, SHOOTLEN and SHOOTSTAT (Tables 16-3 to 16-5). -/
def writeShootva (s : State) (p v : Nat) : State := s.modPart p (fun x => { x with shootva := BitVec.ofNat 64 (bits v 16 41 * 65536) })
def writeShootlen (s : State) (p v : Nat) : State := s.modPart p (fun x => { x with shootlen := BitVec.ofNat 64 (bits v 16 41 * 65536) })
def writeShootstat (s : State) (p v : Nat) : State :=
  s.modPart p (fun x => { x with shootErr := x.shootErr && !bitOf v 17, shootLost := x.shootLost && !bitOf v 16 })

/-- A write of SHOOTCMD. -/
def writeShootcmd (s : State) (p v : Nat) : State :=
  if !bitOf v 0 then s
  else if (s.part p).shootBusy then s.modPart p (fun x => { x with shootLost := true })
  else if (s.part p).shootBad then shootEnd s p true
  else startShoot s p

/-- SHOOTDOWN: the owner or the partition's granted master writes SHOOTCMD. -/
def execShootdown (master part : Nat) (value : BitVec 32) (s : State) : Host.Outcome State Fault Refusal :=
  .next (if decide (part < 16) && ownerOrMaster s master part then writeShootcmd s part value.toNat else s)

/-- Step 4 may follow: operations, walks and the egress of step 2 are over. -/
def shootOver (s : State) (p : Nat) : Bool :=
  let x := s.part p
  x.shootOps.all (fun i => (mfind s.engines i).isNone) && x.shootChans.all (fun c => !(s.channel c).busy) &&
  (memberCores s p).all (fun c => (s.core c).egress.all (fun e => decide (x.shootAt < e.since)) && (midBlocks s c x.shootSpan.1 x.shootSpan.2).isEmpty)

/-- The blocks in which warps have run on to their boundary are dropped too. -/
def shootBlocks (s : State) (p : Nat) : State :=
  let r := (s.part p).shootSpan
  (memberCores s p).foldl (fun s c => s.modCore c (fun k => { k with icache := k.icache.filter (fun (x : Nat × Word) =>
    !(decide (r.1 ≤ x.1) && decide (x.1 < r.1 + r.2)) || (midBlocks s c r.1 r.2).contains (x.1 / 128)) })) s

/-- SHOOTDOWN_DONE. -/
def execShootdownDone (part : Nat) (s : State) : Host.Outcome State Fault Refusal :=
  .next (if (s.part part).shootBusy then
    (let t := shootBlocks s part
     if shootOver t part then shootEnd t part false else t)
    else s)

/-! ## The debug window (R368) -/

/-- The fields of DBGSEL. -/
def dbgCore (v : Word) : Nat := bits v.toNat 0 8
def dbgRegion (v : Word) : Nat := bits v.toNat 8 2
def dbgWin (v : Word) : Nat := bits v.toNat 10 3

/-- The window answers a master: granted master of the core's partition, HALT, and the core stopped. -/
def debugOpen (s : State) (master core : Nat) : Bool :=
  (s.core core).stopped && (match s.partOfCore core with
    | some p => (s.part p).master == master && (s.part p).debug == 2
    | none => false)

/-- Byte `i` of a word. -/
def wordByte (v : Word) (i : Nat) : Byte := BitVec.ofNat 8 (bits v.toNat (8 * i) 8)

/-- A context joins a list by ascending TASKID. -/
def insCtx (x : Nat × Ctx) : List (Nat × Ctx) → List (Nat × Ctx)
  | [] => [x]
  | y :: ys => if x.2.taskid.toNat < y.2.taskid.toNat then x :: y :: ys else y :: insCtx x ys

/-- The resident contexts of a core, by TASKID. -/
def ctxsInOrder (k : CoreSt) : List (Nat × Ctx) := k.ctxs.foldl (fun l x => insCtx x l) []

/-- The image of a context of a core. -/
def residentImage (s : State) (core : Nat) (x : Nat × Ctx) : List Byte := ctxImage x.2 ((ctxBanks s core x.1).flatMap (fun b => bankWord b.bank b.status))

/-- The state image at an offset. -/
def stateByte (s : State) (core o : Nat) : Byte :=
  let k := (s.core core).st
  if o < 524288 then
    (match mfind k.warps (o / 8192) with | some w => (warpImage w).getD (o % 8192) 0 | none => 0)
  else match (ctxsInOrder k)[(o - 524288) / 4096]? with
    | some x => (residentImage s core x).getD ((o - 524288) % 4096) 0
    | none => 0

/-- The size of a region. -/
def regionSize (r : Nat) : Nat := [1048576, 8388608, 262144, 786432].getD r 0

/-- A byte of a region of a core. -/
def regionByte (s : State) (core r o : Nat) : Byte :=
  let k := (s.core core).st
  if regionSize r ≤ o then 0
  else match r with
    | 0 => (match mfind k.warps (o / 16384) with
      | some w => wordByte ((w.lane (o % 16384 / 512)).physReg w.nreg (o % 512 / 4)) (o % 4)
      | none => 0)
    | 1 => memRead k.scratch o
    | 2 => wordByte (mget k.acc (o / 4) 0) (o % 4)
    | _ => stateByte s core o

/-- A word with one of its bytes replaced. -/
def setByte (v : Word) (i : Nat) (b : Byte) : Word := BitVec.ofNat 32 (setBits v.toNat (8 * i) 8 b.toNat)

/-- A write to one byte of a region: scratchpad and accumulators at once, registers and the state image at resume. -/
def regionWrite (s : State) (core r : Nat) (x : Nat × Byte) : State :=
  if regionSize r ≤ x.1 then s
  else match r with
    | 1 => scratchWrite s core x.1 [x.2]
    | 2 => s.modSt core (fun k => { k with acc := mset k.acc (x.1 / 4) (setByte (mget k.acc (x.1 / 4) 0) (x.1 % 4) x.2) })
    | r => s.modCore core (fun k => { k with debugWrites := k.debugWrites ++ [(r * 2 ^ 23 + x.1, x.2)] })

/-- An access to the debug window at an offset. -/
def debugAccess (s : State) (master off len : Nat) (write : Option (List Byte)) : State :=
  let sel := (s.master master).dbgsel
  let core := dbgCore sel
  let base := dbgWin sel * 4194304 + off
  match write, debugOpen s master core with
  | none, true => s.modMaster master (fun m => { m with answer := (upFrom len base).map (regionByte s core (dbgRegion sel)) })
  | none, false => s.modMaster master (fun m => { m with answer := List.replicate len 0 })
  | some bs, true => ((upFrom bs.length base).zip bs).foldl (fun s x => regionWrite s core (dbgRegion sel) x) s
  | some _, false => s

/-- DEBUG_WINDOW_ACCESS, within the window's 4 MiB. -/
def execDebugWindowAccess (master off len : Nat) (write : Option (List (BitVec 8))) (s : State) : Host.Outcome State Fault Refusal :=
  .next (
    let n := match write with | some bs => bs.length | none => len
    if s.powered && s.hasMaster master && decide (off + n ≤ 4194304) then debugAccess s master off len write else s)

/-! ## Writes that wait for resume (R337, R368) -/

/-- The lane state of a number. -/
def laneStateOf (n : Nat) : Option LaneState :=
  [LaneState.empty, .ready, .parked, .napping, .away, .faulted, .ended][n]?

/-- A fault record from its 64 bytes (Table 17-2); what the bytes do not hold is kept. -/
def recordOf (old : FaultRec) (b : List Byte) : FaultRec :=
  let f (o n : Nat) : Nat := ofBytesLE ((b.drop o).take n)
  let hnd := f 24 8
  { old with
    code := f 7 1, pc := BitVec.ofNat 64 (bits (f 0 8) 0 55 * 4), addr := BitVec.ofNat 64 (f 8 8), batch := BitVec.ofNat 32 (f 16 4)
    insn := BitVec.ofNat 32 (f 20 4), core := bits hnd 56 8, warp := bits hnd 50 6, lane := bits hnd 45 5, fseq := BitVec.ofNat 32 hnd
    detail := f 32 1, taskwide := bitOf (f 33 1) 6, leader := bitOf (f 33 1) 4, split := bitOf (f 33 1) 3, guest := bitOf (f 33 1) 2
    stream := bitOf (f 33 1) 1, hinted := bitOf (f 33 1) 0, leadlane := f 34 1 % 32, msnap := BitVec.ofNat 12 (f 36 4)
    mvals := (upFrom 6 0).map (fun i => BitVec.ofNat 32 (f (40 + 4 * i) 4)) }

/-- A lane whose record has been written (Table 17-9): the fields that its registers have, and a reserved value leaves a field (R2, R8).
PC is among them: the write is made at firmware level (18 R368), above the level that Table 6-2 makes it RO for (log 107). -/
def laneOfImage (nreg : Nat) (x : Lane) (b : List Byte) : Lane :=
  let f (o n : Nat) : Nat := ofBytesLE ((b.drop o).take n)
  let st := (laneStateOf (f 0 1)).getD x.state
  let poison := f 40 16
  { x with
    state := st, park := if st = x.state then x.park else .none, safecnt := fwField 0x025 x.safecnt (f 2 2), pw := BitVec.ofNat 16 (f 4 2 / 2 * 2 + 1)
    live := BitVec.ofNat 16 (f 6 2), pc := BitVec.ofNat 64 (bits (f 8 8) 2 55 * 4), hints := [], hpc := 0, tag := 0, counted := false
    owed := if st = x.state then x.owed else [], sp := spField (BitVec.ofNat 64 (f 16 8))
    lk := rpc (BitVec.ofNat 64 (f 24 8)), wbase := fwField 0x024 x.wbase (f 32 4), fseq := BitVec.ofNat 32 (f 36 4)
    poison := (upFrom nreg 0).foldl (fun (m : PMap Bool) p => if bitOf poison p then mset m (x.physAt nreg p) true else mdel m (x.physAt nreg p)) x.poison
    wake := f 56 8
    record := if f 64 8 = 0 ∧ f 88 8 = 0 then none else some (recordOf (x.record.getD FaultRec.blank) (b.drop 64)) }

/-- The registers in a stack cache that has been written (log 15). -/
def cacheOfImage (w : Warp) (b : List Byte) : Warp :=
  (((upFrom w.cached.length 0).zip w.cached).filter (fun x => decide (x.1 < 512))).foldl (fun (v : Warp) x =>
    v.modLane x.2.1 (fun y => { y with regs := mset y.regs x.2.2 (BitVec.ofNat 32 (ofBytesLE ((b.drop (4 * x.1)).take 4))) })) w

/-- A warp whose image has been written: the lanes touched, and the registers behind the lane records (Table 17-5). -/
def warpOfImage (w : Warp) (b : List Byte) (touched : List Nat) : Warp :=
  let f (o n : Nat) : Nat := ofBytesLE ((b.drop (4096 + o)).take n)
  let w := if touched.any (fun o => decide (6144 ≤ o)) then cacheOfImage w (b.drop 6144) else w
  let lanes := ((touched.filter (· < 4096)).map (· / 128)).eraseDups
  let w := lanes.foldl (fun (w : Warp) l => w.modLane l (fun x => laneOfImage w.nreg x ((b.drop (128 * l)).take 128))) w
  if touched.any (fun o => decide (4096 ≤ o) && decide (o < 6144)) then
    { w with
      s := (upFrom 32 0).map (fun r => (r, BitVec.ofNat 32 (f (4 * r) 4))), m := (upFrom 12 0).map (fun k => (k, BitVec.ofNat 32 (f (128 + 4 * k) 4)))
      migset := BitVec.ofNat 64 (fwField 0x032 w.migset.toNat (f 176 8)), stkbase := spField (BitVec.ofNat 64 (f 184 8))
      stklim := stklimField (BitVec.ofNat 32 (f 192 4))
      stage := if f 196 4 ≤ 3 then f 196 4 else w.stage
      stream := w.stream.map (fun t => { t with idx := f 256 8, s := (upFrom 32 0).map (fun r => (r, BitVec.ofNat 32 (f (264 + 4 * r) 4))) }) }
  else w

/-- Bytes of an image replaced. -/
def patch (b : List Byte) (ws : List (Nat × Byte)) : List Byte := ws.foldl (fun b w => b.set w.1 w.2) b

/-- The writes to one warp's registers and image. -/
def applyWarpWrites (s : State) (core slot : Nat) (regs image : List (Nat × Byte)) : State :=
  match s.warp? core slot with
  | none => s
  | some w =>
    let w := if image.isEmpty then w else warpOfImage w (patch (warpImage w) image) (image.map (·.1))
    let w := regs.foldl (fun (w : Warp) (x : Nat × Byte) => w.modLane (x.1 / 512) (fun y =>
      let p := x.1 % 512 / 4
      if p < w.nreg then { y with regs := mset y.regs (y.physAt w.nreg p) (setByte (y.physReg w.nreg p) (x.1 % 4) x.2) } else y)) w
    s.modWarp core slot (fun _ => w)

/-- The writable system registers of a context from its image: FAULTQ, OPF, ACCSAT, DLREM, EBUDGET and EBRATE (07_shape_system.md
Table 7-6, R337), and EBMAX (log 15 for their places). -/
def sysOfImage (c : Ctx) (b : List Byte) : Ctx :=
  let f (i : Nat) : Nat := ofBytesLE ((b.drop (8 * i)).take 8)
  { c with
    faultq := BitVec.ofNat 64 (fwField 0x008 c.faultq.toNat (f 3)), opf := BitVec.ofNat 6 (f 4), accsat := BitVec.ofNat 2 (f 5)
    dlrem := BitVec.ofNat 64 (f 6), ebudget := BitVec.ofNat 32 (f 7), ebrate := BitVec.ofNat 32 (f 8)
    ebmax := sint (BitVec.ofNat 32 (f 9)) }

/-- A bank whose word in a context image has been written: mode, fill record, fault history and CHKERR; a reserved value leaves its field, and
the rest of the status is read from elsewhere (log 15). -/
def Bank.ofWord (b : Bank) (w : List Byte) : Bank :=
  let f (i : Nat) : Nat := (w.getD i 0).toNat
  { b with
    compute := if f 0 ≤ 1 then f 0 == 1 else b.compute, fmt := if f 1 < 32 then f 1 else b.fmt, planes := if f 2 < 32 then f 2 else b.planes
    fails := if f 3 ≤ 3 then f 3 else b.fails, chkerr := bitOf (ofBytesLE (w.drop 4)) 21 }

/-- A bank of a saved group takes a change. -/
def Saved.modBank (x : Saved) (i : Nat) (old new : Bank) : Saved :=
  if mfind x.banks i = some old then { x with banks := mset x.banks i new } else x

/-- The writes to the bank words of a context, bank by bank: of banks on the core and of those saved. -/
def applyBankWrites (s : State) (core launch : Nat) (ws : List (Nat × Byte)) : State :=
  let bs := ctxBanks s core launch
  (upFrom bs.length 0).foldl (fun s i =>
    match bs[i]?, ws.filter (fun x => x.1 / 8 == i) with
    | some b, y :: ys =>
      let new := b.bank.ofWord (patch (bankWord b.bank b.status) ((y :: ys).map (fun z => (z.1 % 8, z.2))))
      if ((s.core core).st.bank b.index).owner.any (fun g => groupLaunch s g == some launch) then s.modBank core b.index (fun _ => new)
      else { s with saved := s.saved.map (fun (x : Nat × Saved) =>
        (x.1, if x.2.launch = launch ∧ x.2.core = core then x.2.modBank b.index b.bank new else x.2)) }
    | _, _ => s) s

/-- The writes to the shape registers, the system registers and the bank words of a context. -/
def applyCtxWrites (s : State) (core launch : Nat) (ws : List (Nat × Byte)) : State :=
  let sys := (ws.filter (fun x => decide (1024 ≤ x.1) && decide (x.1 < 2048))).map (fun x => (x.1 - 1024, x.2))
  let s := budgetReport (s.modCtx core launch (fun c =>
    let c := { c with sh := ws.foldl (fun (m : PMap (BitVec 512)) (x : Nat × Byte) =>
      if x.1 < 1024 then mset m (x.1 / 64) (BitVec.ofNat 512 (setBits (mget m (x.1 / 64) 0).toNat (8 * (x.1 % 64)) 8 x.2.toNat)) else m) c.sh }
    if sys.isEmpty then c else sysOfImage c (patch (sysImage c) sys))) core launch
  applyBankWrites s core launch ((ws.filter (fun x => decide (2048 ≤ x.1))).map (fun x => (x.1 - 2048, x.2)))

/-- The writes of a region within a span, relative to its start. -/
def writesIn (ws : List (Nat × Byte)) (r lo n : Nat) : List (Nat × Byte) :=
  (ws.filter (fun x => x.1 / 2 ^ 23 == r && decide (lo ≤ x.1 % 2 ^ 23) && decide (x.1 % 2 ^ 23 < lo + n))).map (fun x => (x.1 % 2 ^ 23 - lo, x.2))

/-- A stopped core resumes issue: the writes that wait take effect, the oldest first. -/
def resumeStopped (s : State) (core : Nat) : State :=
  let ws := (s.core core).debugWrites
  let s := s.modCore core (fun k => { k with stopped := false, debugWrites := [] })
  if ws.isEmpty then s
  else
    let slots := ((s.core core).st.warps.map (·.1))
    let s := slots.foldl (fun s i => applyWarpWrites s core i (writesIn ws 0 (16384 * i) 16384) (writesIn ws 3 (8192 * i) 8192)) s
    let cs := ctxsInOrder (s.core core).st
    let s := (upFrom cs.length 0).foldl (fun s i =>
      applyCtxWrites s core ((cs.map (·.1)).getD i 0) (writesIn ws 3 (524288 + 4096 * i) 4096)) s
    slots.foldl (fun s i => settleWarp s core i) s

/-- DEBUG of a partition takes a value; leaving HALT resumes its stopped cores (R337). -/
def setDebug (s : State) (p d : Nat) : State :=
  let s1 := s.modPart p (fun x => { x with debug := d, tokenExpiry := if d = 0 then none else x.tokenExpiry })
  if (s.part p).debug = 2 ∧ d ≠ 2 then
    (memberCores s p).foldl (fun s c => if (s.core c).stopped then resumeStopped s c else s) s1
  else s1

/-- DEBUG_TOKEN_EXPIRY: TIME has reached the token's NOTAFTER (16 R336). -/
def execDebugTokenExpiry (part : Nat) (s : State) : Host.Outcome State Fault Refusal :=
  .next (match (s.part part).tokenExpiry with
    | some t => if t ≤ s.time then setDebug s part 0 else s
    | none => s)

/-! ## BAR0 as masters read it (Table 18-4) -/

/-- A bind-table entry (16 Table 16-6). -/
def Bind.bytes (b : Bind) : List Byte :=
  bytesLE 8 b.window ++ bytesLE 8 b.header ++ bytesLE 2 b.size ++ bytesLE 2 b.depth ++ bytesLE 2 b.queued ++ [0, 0] ++ bytesLE 4 b.seq.toNat ++
  bytesLE 4 b.refused

/-- CHSTAT (13_queues.md Table 13-8). -/
def Channel.stat (c : Channel) : Nat := b2n c.lost * 2 ^ 16 + c.code % 256 * 2 ^ 8 + b2n c.busy

/-- SHOOTSTAT (16 Table 16-5). -/
def Part.shootstat (p : Part) : Nat := b2n p.shootErr * 2 ^ 17 + b2n p.shootLost * 2 ^ 16 + p.shootDone % 2 ^ 15 * 2 + b2n p.shootBusy

/-- The registers of a partition's 256 bytes. -/
def partRegs (p : Part) : List Byte :=
  bytesLE 8 (p.shootRange.1) ++ bytesLE 8 (p.shootRange.2) ++ bytesLE 4 0 ++ bytesLE 4 p.shootstat ++ bytesLE 8 0 ++
  bytesLE 8 p.apbase.toNat ++ bytesLE 8 p.aperr ++ bytesLE 8 p.dumpused

/-- The byte of a master's command registers. -/
def masterByte (m : MasterRegs) (off : Nat) : Byte :=
  if off < 0x1040 then m.owncmd.getD (off - 0x1000) 0
  else if off < 0x1044 then (bytesLE 4 m.ownstat).getD (off - 0x1040) 0
  else if 0x3000 ≤ off ∧ off < 0x3004 then (bytesLE 4 m.dbgsel.toNat).getD (off - 0x3000) 0
  else if 0x4000 ≤ off ∧ off < 0x8000 then mget m.ownbuf (off - 0x4000) 0
  else 0

/-- APERR_READ: the count is returned and cleared. -/
def execAperrRead (master part : Nat) (s : State) : Host.Outcome State Fault Refusal :=
  .next (if decide (part < 16) && ownerOrMaster s master part then
      (s.modMaster master (fun m => { m with answer := bytesLE 8 (s.part part).aperr })).modPart part (fun p => { p with aperr := 0 })
    else s.modMaster master (fun m => { m with answer := List.replicate 8 0 }))

end Sys2Proof.Machine
end

