-- ==== Sys2Proof/Machine/Command.lean ====
section
/-! DEFINITION. The masters' commands (16_tables.md R332 to R338, Tables 16-9 to 16-14; 18_power_host.md R372) and the
writes of BAR0 registers (18 Table 18-4; 00_scope.md R9). -/

namespace Sys2Proof.Machine

/-! ## Commands and their statuses (R334) -/

/-- What a command leaves: its status and the state. -/
abbrev CmdRes := Nat × State

/-- The management controller performs a command of a master, whose OWNSTAT takes the status. It answers while released
firmware runs (18 R370). -/
def command (s : State) (master : Nat) (f : State → CmdRes) : State :=
  if s.powered && s.released && s.hasMaster master then
    let r := f s
    r.2.modMaster master (fun m => { m with ownstat := r.1 })
  else s

/-- A command of the owner alone. -/
def fromOwner (s : State) (master : Nat) (f : State → CmdRes) : CmdRes := if s.owner = master then f s else (1, s)

/-- Bytes placed in a buffer from an offset. -/
def putBytes (b : PMap Byte) (off : Nat) (bs : List Byte) : PMap Byte :=
  ((upFrom bs.length off).zip bs).foldl (fun (b : PMap Byte) (x : Nat × Byte) => mset b x.1 x.2) b

/-- Bytes are placed in a master's OWNBUF. -/
def toBuf (s : State) (master : Nat) (bs : List Byte) : State :=
  s.modMaster master (fun m => { m with ownbuf := putBytes m.ownbuf 0 bs })

/-- Bytes of the argument in a master's OWNBUF: none beyond the length that the command names (R338). -/
def fromBuf (s : State) (master off n : Nat) : List Byte :=
  ((upFrom n off).filter (fun i => decide (i < (s.master master).arglen))).map (fun i => mget (s.master master).ownbuf i 0)

/-- A result of at most 40 bytes stands in the value field of a master's OWNCMD block (R334). -/
def toValue (s : State) (master : Nat) (bs : List Byte) : State :=
  s.modMaster master (fun m => { m with owncmd := (fitBytes m.owncmd 64).take 8 ++ bs ++ (fitBytes m.owncmd 64).drop (8 + bs.length) })

/-- A command block (Table 18-4): command, two operand bytes, and the value. -/
def cmdBlock (code b1 b2 value : Nat) : List Byte :=
  bytesLE 1 code ++ bytesLE 1 b1 ++ bytesLE 1 b2 ++ List.replicate 5 0 ++ bytesLE 40 value ++ List.replicate 16 0

/-! ## Security states (R336) -/

/-- The security state changes: M3 is extended with a digest of the change, and every DEBUG returns to NONE. -/
def setSecurity (s : State) (x : Security) : State :=
  if s.security = x then s
  else (upFrom 16 0).foldl (fun s p => if (s.part p).debug = 0 then s else setDebug s p 0)
    (extendMeas { s with security := x } 3 (freeBytes s 98000 32))

/-- The device identity (17_faults.md Table 17-7). -/
def devId : List Byte := Config.sha256 Config.deviceKey

/-- Bytes of an LMS signature (17 R354). -/
def sigBytes : Nat := 2828

/-- The signature at an offset of a master's OWNBUF verifies; one cut short by the argument's length does not. -/
def sigOk (s : State) (master off : Nat) (key blk : List Byte) : Bool :=
  let g := fromBuf s master off sigBytes
  g.length == sigBytes && Config.verify key blk g

/-! ## READ, CLAIM, HANDOVER, GRANT -/

/-- The fields of a partition in the order of Table 16-9. -/
def Part.bytes (p : Part) : List Byte :=
  bytesLE 1 p.state ++ bytesLE 32 p.cores ++ bytesLE 1 p.master ++ bytesLE 2 p.asid ++ bytesLE 8 p.root ++ bytesLE 8 p.pgmbx.toNat ++
  bytesLE 2 p.budget ++ bytesLE 2 p.chgrant ++ bytesLE 1 p.peerpost ++ bytesLE 1 p.peerwin ++ bytesLE 8 p.dumpbase ++ bytesLE 8 p.dumpsize ++
  bytesLE 8 p.dumpused ++ bytesLE 4 p.tenant.toNat ++ bytesLE 1 p.debug

/-- The ownership table and the partition table. -/
def bothTables (s : State) : List Byte :=
  bytesLE 1 s.owner ++ (upFrom 5 0).map (fun m => BitVec.ofNat 8 (b2n (s.master m).link)) ++ (upFrom 16 0).flatMap (fun p => (s.part p).bytes)

/-- READ returns both tables, in OWNBUF (R338); the recovery firmware answers it too (18 R370). -/
def doRead (s : State) (master : Nat) : State :=
  if s.powered && (s.released || s.recovery) && s.hasMaster master then
    (toBuf s master (bothTables s)).modMaster master (fun m => { m with ownstat := 0 })
  else s

def doClaim (master : Nat) (s : State) : CmdRes := if s.owner = 7 then (0, { s with owner := master }) else (2, s)

def doHandover (succ : Nat) (s : State) : CmdRes :=
  if succ = 7 then (0, { s with owner := 7 })
  else if 4 < succ then (4, s)
  else if (s.master succ).link then (0, { s with owner := succ })
  else (3, s)

def doGrant (part grantee : Nat) (s : State) : CmdRes :=
  if part < 16 ∧ (grantee ≤ 4 ∨ grantee = 7) then (0, s.modPart part (fun p => { p with master := grantee })) else (4, s)

/-! ## PSET (R332, Table 16-9) -/

/-- The other partitions. -/
def otherParts (s : State) (part : Nat) : List Part := ((upFrom 16 0).filter (· != part)).map s.part

/-- Motifs with a core of a mask. -/
def motifsOf (cores : Nat) : Nat := ((upFrom 32 0).filter (fun m => bits cores (8 * m) 8 != 0)).length

/-- A partition's budget keeps its limits with a core mask. -/
def budgetOk (s : State) (part budget cores : Nat) : Bool :=
  decide (budget ≤ 62 * motifsOf cores) && decide (budget + (otherParts s part).foldl (fun a p => a + p.budget) 0 ≤ 1984)

/-- An ASID is unique among ACTIVE partitions. -/
def asidFree (s : State) (part asid : Nat) : Bool := (otherParts s part).all (fun p => p.state != 1 || p.asid != asid)

/-- A core holds a group of a partition: resident, or its compute banks. -/
def holdsGroup (s : State) (part core : Nat) : Bool := (s.core core).st.groups.any (fun g => s.launchPart g.2.launch == part)

/-- A core leaves its partition, or its partition is freed: it holds nothing and is gated. -/
def emptyCore (s : State) (core : Nat) : State :=
  let k := s.core core
  s.setCore core { ({} : Core) with
    st := { ({} : CoreSt) with trace := k.st.trace, traceCount := k.st.traceCount }, power := if k.power = .motifGated then .motifGated else .coreGated
    hazchk := k.hazchk, cycf := k.cycf, issu := k.issu, mstl := k.mstl, lbsy := k.lbsy, evc := k.evc, evsel := k.evsel }

/-- A core's last stores reach their homes before it leaves. -/
def flushCore (s : State) (core : Nat) : State := publishWritten (drainEgress s core) core (fun _ => true)

/-- A partition holds these channel grants from now on: a channel that walks for it without a grant starts no further record,
though the grant returns (R281). -/
def keepGrants (s : State) (part mask : Nat) : State :=
  (upFrom 16 0).foldl (fun s c =>
    if (s.channel c).part == some part && !bitOf mask c then s.modChannel c (fun x => { x with part := none }) else s) s

/-- A partition set FREE: its tasks, bindings, lacing groups and grants are discarded, and its cores gated. -/
def freePart (s : State) (part : Nat) : State :=
  let mine : List Nat := (s.launches.filter (fun x => x.2.part == part)).map (·.1)
  let s := keepGrants ((memberCores s part).foldl (fun s c => emptyCore (flushCore s c) c) s) part 0
  { s with
    launches := s.launches.filter (fun (x : Nat × Launch) => x.2.part != part)
    saved := s.saved.filter (fun (x : Nat × Saved) => !mine.contains x.2.launch)
    engines := s.engines.filter (fun (x : Nat × Engine) => x.2.part != part || x.2.kind.isRow || x.2.kind.isNear || x.2.core == 256)
    transit := s.transit.filter (fun x => !mine.contains x.g.launch), postsDue := s.postsDue.filter (fun x => x.2.1 != part)
    debits := s.debits.filter (fun x => !mine.contains x.2.1), reports := s.reports.filter (fun x => !mine.contains x.2.1)
    }.modPart part (fun p => { p with
      state := 0, binds := [], lacing := [], master := 7, chgrant := 0, peerpost := 0, peerwin := 0, dumpReq := none })

/-- A write of STATE: a FREE partition may become ACTIVE, and any may be set FREE once its dump is written. -/
def psetState (s : State) (part v : Nat) : CmdRes :=
  let p := s.part part
  if v = 0 then (if p.dumpReq.isSome then (4, s) else (0, freePart s part))
  else if v = 1 ∧ p.state = 1 then (0, s)
  else if v = 1 ∧ p.state = 0 ∧ asidFree s part p.asid then (0, s.modPart part (fun p => { p with state := 1 }))
  else (4, s)

/-- A write of CORES. -/
def psetCores (s : State) (part v : Nat) : CmdRes :=
  let p := s.part part
  let gone := (maskLanesFrom 256 0 p.cores).filter (fun c => !bitOf v c)
  if 2 ^ 256 ≤ v ∨ (otherParts s part).any (fun q => q.cores &&& v != 0) ∨ gone.any (holdsGroup s part) ∨ !budgetOk s part p.budget v then (4, s)
  else (0, (gone.foldl (fun s c => emptyCore (flushCore s c) c) s).modPart part (fun p => { p with cores := v }))

/-- A field is written when its limit holds. -/
def psetIf (s : State) (part : Nat) (ok : Bool) (f : Part → Part) : CmdRes := if ok then (0, s.modPart part f) else (4, s)

/-- The fields of Table 16-9, numbered in its order from 0. -/
def doPset (part field v : Nat) (s : State) : CmdRes :=
  if 16 ≤ part then (4, s)
  else
    let p := s.part part
    match field with
    | 0 => psetState s part v
    | 1 => psetCores s part v
    | 2 => psetIf s part (decide (v ≤ 4) || v == 7) (fun p => { p with master := v })
    | 3 => psetIf s part (decide (v < 2 ^ 16) && (p.state != 1 || asidFree s part v)) (fun p => { p with asid := v })
    | 4 => psetIf s part (decide (v < 2 ^ 52) && v % 4096 == 0 && paTarget v == .hbm) (fun p => { p with root := v })
    | 5 => psetIf s part (decide (v < 2 ^ 64)) (fun p => { p with pgmbx := BitVec.ofNat 64 v })
    | 6 => psetIf s part (decide (v < 2 ^ 16) && budgetOk s part v p.cores) (fun p => { p with budget := v })
    | 7 => let x := psetIf s part (decide (v < 2 ^ 16) && (otherParts s part).all (fun q => q.chgrant &&& v == 0)) (fun p => { p with chgrant := v })
           (x.1, if x.1 = 0 then keepGrants x.2 part v else x.2)
    | 8 => psetIf s part (decide (v < 2 ^ 8)) (fun p => { p with peerpost := v })
    | 9 => psetIf s part (decide (v < 2 ^ 8)) (fun p => { p with peerwin := v })
    | 10 => psetIf s part (v % 65536 == 0 && decide (v + p.dumpsize ≤ 2 ^ 39)) (fun p => { p with dumpbase := v })
    | 11 => psetIf s part (v % 65536 == 0 && decide (p.dumpbase + v ≤ 2 ^ 39)) (fun p => { p with dumpsize := v })
    | _ => (4, s)

/-! ## Dumps, traces and credentials (R335, R338, Table 16-12) -/

/-- The bytes of a partition's dump region read zero from now on, and DUMPUSED is 0. -/
def eraseDumps (s : State) (part : Nat) : State :=
  let p := s.part part
  let out (a : Nat) : Bool := decide (a < p.dumpbase) || decide (p.dumpbase + p.dumpsize ≤ a)
  { s with
    hbm := s.hbm.filter (fun (x : Host.Cell) => out x.1), l2 := s.l2.filter (fun (x : Nat × Byte) => out x.1)
    l2shadow := s.l2shadow.filter (fun (x : Nat × Byte) => out x.1), tags := s.tags.filter (fun (x : Nat × Nat) => out (128 * x.1))
    }.modPart part (fun p => { p with dumpused := 0 })

/-- The trace rings of a partition's cores are emptied, with their images. -/
def eraseTraces (s : State) (part : Nat) : State :=
  (memberCores s part).foldl (fun s c => s.modCore c (fun k =>
    { k with st := { k.st with trace := [], traceCount := 0 } }.modEpochs (fun e => { e with snap := { e.snap with trace := [], traceCount := 0 } }))) s

def doErase (part : Nat) (s : State) : CmdRes :=
  if 16 ≤ part then (4, s)
  else if s.security = .manufacture then (5, s)
  else (0, eraseDumps (dumpNow s part) part)

/-- A partition's dumps belong to its tenant. -/
def tenantOwned (s : State) (part : Nat) : Bool := s.security == .tenant && (s.part part).tenant != 0

/-- A credential's signature in OWNBUF over the issuer's nonce and the command block. -/
def proofOk (s : State) (master : Nat) (key blk : List Byte) : Bool :=
  match (s.master master).nonce with
  | none => false
  | some n => sigOk s master 0 key (n ++ blk)

/-- A nonce serves one command. -/
def useNonce (s : State) (master : Nat) : State := s.modMaster master (fun m => { m with nonce := none })

/-- The right to read a partition's dumps or traces: the status that denies it, else the state after the proof. The owner proves nothing in
MANUFACTURE, nor where the partition's DEBUG is TRACE or HALT (Table 16-12, "Owner; live traces too"). -/
def readRight (s : State) (master part : Nat) (blk : List Byte) : CmdRes :=
  if s.security = .retired then (5, s)
  else if tenantOwned s part then (if proofOk s master (s.part part).tenantKey blk then (0, useNonce s master) else (8, s))
  else if s.owner ≠ master then (1, s)
  else if s.security = .manufacture ∨ (s.part part).debug ≠ 0 then (0, s)
  else if proofOk s master s.ownerKey blk then (0, useNonce s master)
  else (8, s)

/-- TRACEREAD: at DEBUG NONE the ring of a running partition is not read. -/
def doTraceread (master core : Nat) (blk : List Byte) (s : State) : CmdRes :=
  match (if core < 256 then s.partOfCore core else none) with
  | none => (4, s)
  | some p =>
    let r := readRight s master p blk
    if r.1 ≠ 0 then r
    else if (s.part p).debug = 0 ∧ (s.part p).state = 1 then (5, s)
    else (0, toBuf r.2 master (traceImage (s.core core).st))

/-- DUMPREAD of 16 KiB of the dump region. -/
def doDumpread (master part off : Nat) (blk : List Byte) (s : State) : CmdRes :=
  if 16 ≤ part ∨ (s.part part).dumpsize < off + 16384 then (4, s)
  else
    let r := readRight s master part blk
    if r.1 ≠ 0 then r else (0, toBuf r.2 master (homeBytes s ((s.part part).dumpbase + off) 16384))

/-- The key-encryption key carried at an offset of OWNBUF: ciphertext and wrapped key. -/
def carriedKek (s : State) (master off : Nat) : List Byte :=
  let b := fromBuf s master off 1608
  if b.length = 1608 then Config.unwrap b else []

/-- TBIND. -/
def doTbind (master part : Nat) (handle : Word) (s : State) : CmdRes :=
  if 16 ≤ part ∨ handle = 0 then (4, s)
  else if s.security ≠ .secured ∧ s.security ≠ .tenant then (5, s)
  else if (s.part part).tenant ≠ 0 then (6, s)
  else
    let kek := carriedKek s master 56
    if kek.length ≠ 32 then (7, s)
    else (0, setSecurity (s.modPart part (fun p => { p with tenant := handle, tenantKey := fromBuf s master 0 56, tenantKek := kek })) .tenant)

/-- TUNBIND. -/
def doTunbind (part : Nat) (s : State) : CmdRes :=
  if 16 ≤ part ∨ (s.part part).tenant = 0 then (4, s)
  else
    let s := (eraseTraces (eraseDumps (dumpNow s part) part) part).modPart part (fun p => { p with tenant := 0, tenantKey := [], tenantKek := [] })
    (0, if s.security = .tenant ∧ (upFrom 16 0).all (fun p => (s.part p).tenant == 0) then setSecurity s .secured else s)

/-! ## Debug (R336, R337, Table 16-14) -/

/-- A debug token in OWNBUF allows a state of a partition. -/
def tokenOk (s : State) (master part d : Nat) : Bool :=
  let t := fromBuf s master 0 64
  let f (o n : Nat) : Nat := ofBytesLE ((t.drop o).take n)
  f 0 4 == 0x4B44594E && f 4 2 == 1 && (f 6 1 == 1 || f 6 1 == 2) && decide (d ≤ f 6 1) && (f 7 1 == part || f 7 1 == 0xFF) &&
  (t.drop 8).take 32 == devId && f 40 4 == s.boot && decide (s.time < f 44 8) && f 52 12 == 0 &&
  sigOk s master 64 Config.fusedKey t

def tokenEnd (s : State) (master : Nat) : Nat := ofBytesLE (fromBuf s master 44 8)

/-- The tenant's consent after the token. -/
def consentOk (s : State) (master part d : Nat) : Bool :=
  match (s.master master).nonce with
  | none => false
  | some n => sigOk s master (64 + sigBytes) (s.part part).tenantKey
      (Config.sha256 (fromBuf s master 0 (64 + sigBytes) ++ n ++ bytesLE 1 part ++ bytesLE 1 d))

/-- Every motif is without power (R335, STANDBY). -/
def inStandby (s : State) : Bool := (upFrom 32 0).all (fun m => !(s.motif m).powered)

/-- DEBUG p, d. -/
def doDebug (master part d : Nat) (s : State) : CmdRes :=
  if 16 ≤ part ∨ 2 < d then (4, s)
  else if (s.part part).master ≠ master then (1, s)
  else if d = 0 then (0, setDebug s part 0)
  else if s.security = .retired ∨ (d = 2 ∧ inStandby s) then (5, s)
  else if !tokenOk s master part d then (7, s)
  else if tenantOwned s part && !consentOk s master part d then (8, s)
  else
    let s1 := if tenantOwned s part then useNonce s master else s
    (0, (setDebug s1 part d).modPart part (fun p => { p with tokenExpiry := some (tokenEnd s master) }))

/-- DSTOP and DRESUME act on a core of a partition in HALT. -/
def onHalted (s : State) (master core : Nat) (f : State → State) : CmdRes :=
  if 256 ≤ core then (4, s)
  else match s.partOfCore core with
    | none => (4, s)
    | some p =>
      if (s.part p).master ≠ master then (1, s)
      else if (s.part p).debug ≠ 2 then (5, s)
      else (0, f s)

/-! ## CHALLENGE, PROVISION, RETIRE, ATTEST (R338; 18 R372) -/

/-- A fresh nonce in the value field, and the device's encapsulation key once it has one. -/
def doChallenge (master : Nat) (s : State) : CmdRes :=
  if s.security = .retired then (5, s)
  else
    let n := freeBytes s 98100 32
    let s := if s.security = .manufacture then s else toBuf s master (fitBytes Config.encapKey 1568)
    (0, (toValue s master n).modMaster master (fun m => { m with nonce := some n }))

/-- The provisioning record: identity, the owner's key, and its key-encryption key carried as for TBIND, signed. -/
def doProvision (master : Nat) (s : State) : CmdRes :=
  if s.security ≠ .manufacture then (5, s)
  else
    let rec_ := fromBuf s master 0 1696
    let kek := carriedKek s master 88
    if rec_.take 32 ≠ devId ∨ kek.length ≠ 32 ∨ sigOk s master 1696 Config.fusedKey rec_ = false then (7, s)
    else
      let s := { s with ownerKey := (rec_.drop 32).take 56, ownerKek := kek }
      (0, setSecurity (extendMeas s 3 (Config.sha256 Config.encapKey)) .secured)

/-- The retire token: identity and boot count, signed. The tenants' keys are erased. -/
def doRetire (master : Nat) (s : State) : CmdRes :=
  let t := fromBuf s master 0 36
  if t.take 32 ≠ devId ∨ ofBytesLE (t.drop 32) ≠ s.boot ∨ sigOk s master 36 Config.fusedKey t = false then (7, s)
  else
    let s := (upFrom 16 0).foldl (fun s p => if (s.part p).tenant = 0 then s
      else s.modPart p (fun x => { x with tenantKey := [], tenantKek := [] })) s
    (0, setSecurity s .retired)

/-- The 196 bytes of an attestation report. -/
def attestReport (s : State) (nonce : List Byte) : List Byte :=
  fitBytes nonce 32 ++ fitBytes devId 32 ++ (upFrom 4 0).flatMap (fun i => fitBytes (s.measReg i) 32) ++ bytesLE 4 s.secver

def doAttest (master : Nat) (nonce : List Byte) (s : State) : CmdRes :=
  if s.security = .retired then (5, s)
  else if leavesDone s then (9, s)
  else
    let r := attestReport s nonce
    (0, { toBuf s master (r ++ fitBytes (Config.sign (signLeaf s) r) sigBytes) with leaf := signLeaf s })

/-! ## The commands as rows of the table -/

def execCmdRead (master : Nat) (s : State) : Host.Outcome State Fault Refusal := .next (doRead s master)
def execCmdClaim (master : Nat) (s : State) : Host.Outcome State Fault Refusal := .next (command s master (doClaim master))
def execCmdHandover (master succ : Nat) (s : State) : Host.Outcome State Fault Refusal :=
  .next (command s master (fun s => fromOwner s master (doHandover succ)))
def execCmdGrant (master part grantee : Nat) (s : State) : Host.Outcome State Fault Refusal :=
  .next (command s master (fun s => fromOwner s master (doGrant part grantee)))
def execCmdPset (master part field value : Nat) (s : State) : Host.Outcome State Fault Refusal :=
  .next (command s master (fun s => fromOwner s master (doPset part field value)))
def execCmdErase (master part : Nat) (s : State) : Host.Outcome State Fault Refusal :=
  .next (command s master (fun s => fromOwner s master (doErase part)))
def execCmdTbind (master part : Nat) (handle : BitVec 32) (s : State) : Host.Outcome State Fault Refusal :=
  .next (command s master (fun s => fromOwner s master (doTbind master part handle)))
def execCmdTunbind (master part : Nat) (s : State) : Host.Outcome State Fault Refusal :=
  .next (command s master (fun s => fromOwner s master (doTunbind part)))
def execCmdDebug (master part state : Nat) (s : State) : Host.Outcome State Fault Refusal :=
  .next (command s master (doDebug master part state))
def execCmdDstop (master core : Nat) (s : State) : Host.Outcome State Fault Refusal :=
  .next (command s master (fun s => onHalted s master core (fun s => s.modCore core (fun k => { k with stopped := true }))))
def execCmdDresume (master core : Nat) (s : State) : Host.Outcome State Fault Refusal :=
  .next (command s master (fun s => onHalted s master core (fun s => resumeStopped s core)))
def execCmdTraceread (master core : Nat) (s : State) : Host.Outcome State Fault Refusal :=
  .next (command s master (doTraceread master core (cmdBlock 11 core 0 0)))
def execCmdDumpread (master part off : Nat) (s : State) : Host.Outcome State Fault Refusal :=
  .next (command s master (doDumpread master part off (cmdBlock 12 part 0 off)))
def execCmdChallenge (master : Nat) (s : State) : Host.Outcome State Fault Refusal := .next (command s master (doChallenge master))
def execCmdProvision (master : Nat) (s : State) : Host.Outcome State Fault Refusal :=
  .next (command s master (fun s => fromOwner s master (doProvision master)))
def execCmdRetire (master : Nat) (s : State) : Host.Outcome State Fault Refusal :=
  .next (command s master (fun s => fromOwner s master (doRetire master)))
def execCmdAttest (master : Nat) (nonce : List (BitVec 8)) (s : State) : Host.Outcome State Fault Refusal :=
  .next (command s master (doAttest master nonce))

/-! ## The OWNCMD block (Table 18-4) -/

/-- A block is the command that its bytes name; other command bytes name none. -/
def perform (s : State) (master : Nat) : State :=
  let b := (s.master master).owncmd
  let f (o n : Nat) : Nat := ofBytesLE ((b.drop o).take n)
  let own (g : State → CmdRes) : State := command s master (fun s => fromOwner s master g)
  match f 0 1 with
  | 0 => doRead s master
  | 1 => command s master (doClaim master)
  | 2 => own (doHandover (f 2 1))
  | 3 => own (doGrant (f 1 1) (f 2 1))
  | 4 => own (doPset (f 1 1) (f 2 1) (f 8 40))
  | 5 => own (doErase (f 1 1))
  | 6 => own (doTbind master (f 1 1) (BitVec.ofNat 32 (f 8 4)))
  | 7 => own (doTunbind (f 1 1))
  | 8 => command s master (doDebug master (f 1 1) (f 2 1))
  | 9 => command s master (fun s => onHalted s master (f 1 1) (fun s => s.modCore (f 1 1) (fun k => { k with stopped := true })))
  | 10 => command s master (fun s => onHalted s master (f 1 1) (fun s => resumeStopped s (f 1 1)))
  | 11 => command s master (doTraceread master (f 1 1) b)
  | 12 => command s master (doDumpread master (f 1 1) (f 8 40) b)
  | 13 => command s master (doChallenge master)
  | 14 => own (doProvision master)
  | 15 => own (doRetire master)
  | 16 => command s master (doAttest master ((b.drop 8).take 32))
  | _ => command s master (fun s => (4, s))

/-- A submitted block is performed with the argument whose length it names (R338). -/
def submit (s : State) (master : Nat) : State :=
  let arg (s : State) (n : Nat) : State := s.modMaster master (fun m => { m with arglen := n })
  arg (perform (arg s (ofBytesLE (((s.master master).owncmd.drop 48).take 4))) master) 16384

/-! ## MMIO_WRITE (R9, Table 18-4) -/

/-- A write touches a register of `n` bytes. -/
def touches (reg n off : Nat) (bs : List Byte) : Bool := decide (off < reg + n) && decide (reg < off + bs.length)

/-- The bytes that a write gives a register, over what it would keep. -/
def written (reg n off : Nat) (bs : List Byte) (keep : Nat) : Nat :=
  ofBytesLE ((upFrom n 0).map (fun i =>
    if off ≤ reg + i ∧ reg + i < off + bs.length then bs.getD (reg + i - off) 0 else BitVec.ofNat 8 (bits keep (8 * i) 8)))

/-- Writes into a master's own command registers. -/
def writeMaster (s : State) (master off : Nat) (bs : List Byte) : State :=
  let m := s.master master
  if touches 0x1000 64 off bs then
    let s := s.modMaster master (fun m => { m with owncmd := bytesLE 64 (written 0x1000 64 off bs (ofBytesLE (fitBytes m.owncmd 64))) })
    if touches 0x103F 1 off bs then submit s master else s
  else if touches 0x3000 4 off bs then
    s.modMaster master (fun m => { m with dbgsel := BitVec.ofNat 32 (written 0x3000 4 off bs m.dbgsel.toNat % 2 ^ 13) })
  else if 0x4000 ≤ off ∧ off + bs.length ≤ 0x8000 then
    s.modMaster master (fun _ => { m with ownbuf := putBytes m.ownbuf (off - 0x4000) bs })
  else s

/-- Writes into a channel's registers: CHHEAD, and LOST of CHSTAT. -/
def writeChan (s : State) (master off : Nat) (bs : List Byte) : State :=
  let ch := (off - 0x100000) / 0x40
  let r := 0x100000 + 0x40 * ch
  if !(ch < 16 && chanMaster s master ch) then s
  else
    let s := if touches r 8 off bs then writeChhead s ch (written r 8 off bs (s.channel ch).head.toNat) else s
    if bitOf (written (r + 8) 4 off bs 0) 16 then s.modChannel ch (fun c => { c with lost := false }) else s

/-- Writes into a partition's registers. -/
def writePart (s : State) (master off : Nat) (bs : List Byte) : State :=
  let p := (off - 0x200000) / 0x100
  let r := 0x200000 + 0x100 * p
  if !(p < 16 && ownerOrMaster s master p) then s
  else
    let s := if touches r 8 off bs then writeShootva s p (written r 8 off bs (s.part p).shootva.toNat) else s
    let s := if touches (r + 8) 8 off bs then writeShootlen s p (written (r + 8) 8 off bs (s.part p).shootlen.toNat) else s
    let s := if touches (r + 0x10) 4 off bs then writeShootcmd s p (written (r + 0x10) 4 off bs 0) else s
    let s := if touches (r + 0x14) 4 off bs then writeShootstat s p (written (r + 0x14) 4 off bs 0) else s
    if touches (r + 0x20) 8 off bs then s.modPart p (fun x => { x with apbase := BitVec.ofNat 64 (written (r + 0x20) 8 off bs x.apbase.toNat / 2 ^ 38 * 2 ^ 38) }) else s

/-- Writes into a peer port's registers. -/
def writePeer (s : State) (master off : Nat) (bs : List Byte) : State :=
  let i := (off - 0x300000) / 0x40
  let r := 0x300000 + 0x40 * i
  if !(i < 8 && s.owner == master) then s
  else
    let s := if touches r 8 off bs then
        let v := written r 8 off bs (s.peer i).part
        s.modPeer i (fun x => { x with part := if v < 16 ∨ v = 0xFF then v else x.part }) else s
    if touches (r + 8) 8 off bs then s.modPeer i (fun x => { x with vbase := BitVec.ofNat 64 (written (r + 8) 8 off bs x.vbase.toNat / 2 ^ 40 * 2 ^ 40) }) else s

/-- MMIO_WRITE: a master writes bytes at an offset of BAR0; what Table 18-4 does not permit is ignored. -/
def execMmioWrite (master off : Nat) (bytes : List (BitVec 8)) (s : State) : Host.Outcome State Fault Refusal :=
  .next (
    if !s.powered || !s.hasMaster master then s
    else if off < 0x100000 then writeMaster s master off bytes
    else if off < 0x200000 then writeChan s master off bytes
    else if off < 0x300000 then writePart s master off bytes
    else if off < 0x400000 then writePeer s master off bytes
    else if 0xC00000 ≤ off ∧ off + bytes.length ≤ 0x1000000 then debugAccess s master (off - 0xC00000) 0 (some bytes)
    else s)

/-! ## Reads of BAR0 (18 Table 18-4) -/

/-- A master may read a motif's power log as it may read the traces of every partition with a core in the motif (R365; 16_tables.md Table
16-12). Where the table asks for a credential, the master's OWNBUF holds the signature of Table 16-13 over its nonce and its command block: a
read of a register brings no proof of its own (DESIGN CHOICE, log 110). -/
def logRight (s : State) (master m : Nat) : Bool :=
  let blk := (upFrom 64 0).map (fun i => (s.master master).owncmd.getD i 0)
  let mine := (upFrom 16 0).filter (fun p => bits (s.part p).cores (8 * m) 8 != 0)
  s.security != .retired &&
  if mine.isEmpty then s.owner == master && (s.security == .manufacture || proofOk s master s.ownerKey blk)
  else mine.all (fun p => (readRight s master p blk).1 == 0)

/-- The byte that a master reads at an offset of BAR0, APERR's clearing and the debug window apart. -/
def bar0Byte (s : State) (master off : Nat) : Byte :=
  if off < 0x1000 then (bytesLE 8 s.serial ++ bytesLE 4 1).getD off 0
  else if off < 0x100000 then masterByte (s.master master) off
  else if off < 0x200000 then
    let ch := (off - 0x100000) / 0x40
    if ch < 16 ∧ chanMaster s master ch then (bytesLE 8 (s.channel ch).head.toNat ++ bytesLE 4 (s.channel ch).stat).getD (off % 0x40) 0 else 0
  else if off < 0x300000 then
    let p := (off - 0x200000) / 0x100
    if p < 16 ∧ ownerOrMaster s master p then (partRegs (s.part p)).getD (off % 0x100) 0 else 0
  else if off < 0x400000 then
    let i := (off - 0x300000) / 0x40
    if i < 8 ∧ s.owner = master then
      (bytesLE 8 (s.peer i).part ++ bytesLE 8 (s.peer i).vbase.toNat ++ bytesLE 8 (b2n (s.peer i).up)).getD (off % 0x40) 0 else 0
  else if off < 0x600000 then
    let p := (off - 0x400000) / 0x20000
    if ownerOrMaster s master p then
      (match mfind (s.part p).binds (off % 0x20000 / 32) with | some b => b.bytes.getD (off % 32) 0 | none => 0) else 0
  else if 0x800000 ≤ off ∧ off < 0x808000 then
    let m := (off - 0x800000) / 0x400
    if logRight s master m then
      (match mfind (s.motif m).log (off % 0x400 / 16) with | some e => e.bytes.getD (off % 16) 0 | none => 0) else 0
  else 0

end Sys2Proof.Machine
end

