-- ==== Sys2Proof/Machine/Int.lean ====
section
/-! DEFINITION. Integer, address, move, compare and predicate instructions (04_fibre_registers.md R75 to R88). -/

namespace Sys2Proof.Machine

/-- The form of a two-source word instruction that takes one IMMX in place of gB (R75, Table 3-4). -/
def formInt (h : Hdr) (d a b : BitVec 6) : Form :=
  { h := h, acc := { imm1 := true }, immZero := b == 0, src := [a.toNat, b.toNat], dst := [d.toNat] }

/-- The form of a one-source word instruction. -/
def formInt1 (h : Hdr) (d a : BitVec 6) : Form := { h := h, src := [a.toNat], dst := [d.toNat] }

/-- A word operation of gA and gB or the immediate. -/
def binZ (d a b : BitVec 6) (f : Word → Word → Word) : Act :=
  actZ d.toNat (fun s l => f (s.g l a.toNat) (s.gOrImm l b.toNat))

/-- A word operation of gA. -/
def unZ (d a : BitVec 6) (f : Word → Word) : Act := actZ d.toNat (fun s l => f (s.g l a.toNat))

/-- A sum or difference, saturated to .i32 under .sat (R77). -/
def satWord (sat : Bool) (x : Int) : Word := wordOfInt (if sat then saturate x (-(2 ^ 31)) (2 ^ 31 - 1) else x)

/-! ## R77 -/

def execIadd (h : Hdr) (d a b : BitVec 6) (s : State) : Host.Outcome State Fault Refusal :=
  issue { formInt h d a b with acc := { imm1 := true, sat := true } } s
    (actZ d.toNat (fun s l => satWord s.sat (sint (s.g l a.toNat) + sint (s.gOrImm l b.toNat))))

def execIsub (h : Hdr) (d a b : BitVec 6) (s : State) : Host.Outcome State Fault Refusal :=
  issue { formInt h d a b with acc := { imm1 := true, sat := true } } s
    (actZ d.toNat (fun s l => satWord s.sat (sint (s.g l a.toNat) - sint (s.gOrImm l b.toNat))))

def execIneg (h : Hdr) (d a : BitVec 6) (s : State) : Host.Outcome State Fault Refusal :=
  issue (formInt1 h d a) s (unZ d a (fun x => wordOfInt (0 - sint x)))

def execIabs (h : Hdr) (d a : BitVec 6) (s : State) : Host.Outcome State Fault Refusal :=
  issue (formInt1 h d a) s (unZ d a (fun x => wordOfInt (if sint x < 0 then 0 - sint x else sint x)))

def execIaddi (h : Hdr) (d a : BitVec 6) (i : BitVec 8) (s : State) : Host.Outcome State Fault Refusal :=
  issue { formInt1 h d a with acc := { imm1 := true, sat := true }, immZero := i == 0 } s
    (actZ d.toNat (fun s l => satWord s.sat (sint (s.g l a.toNat) + (match s.imm with | some v => v | none => i.toInt))))

/-! ## R78 -/

def execImul (h : Hdr) (d a b : BitVec 6) (s : State) : Host.Outcome State Fault Refusal :=
  issue (formInt h d a b) s (binZ d a b (fun x y => x * y))

def execImulhI32 (h : Hdr) (d a b : BitVec 6) (s : State) : Host.Outcome State Fault Refusal :=
  issue (formInt h d a b) s (binZ d a b (fun x y => wordOfInt (sint x * sint y / 2 ^ 32)))

def execImulhN32 (h : Hdr) (d a b : BitVec 6) (s : State) : Host.Outcome State Fault Refusal :=
  issue (formInt h d a b) s (binZ d a b (fun x y => BitVec.ofNat 32 (x.toNat * y.toNat / 2 ^ 32)))

/-- The form of an FC instruction: gD is read unless an OPND names another register. -/
def formFC (h : Hdr) (d a b : BitVec 6) (s : State) : Form :=
  { h := h, acc := { opndG := true }, src := [a.toNat, b.toNat] ++ (if s.opnd.isSome then [] else [d.toNat]), dst := [d.toNat] }

def execImad (h : Hdr) (d a b : BitVec 6) (s : State) : Host.Outcome State Fault Refusal :=
  issue (formFC h d a b s) s
    (actZ d.toNat (fun s l => s.g l a.toNat * s.g l b.toNat 1 + s.gThird l d.toNat))

/-! ## R79 -/

def execIminI32 (h : Hdr) (d a b : BitVec 6) (s : State) : Host.Outcome State Fault Refusal :=
  issue (formInt h d a b) s (binZ d a b (fun x y => if sint x ≤ sint y then x else y))

def execIminN32 (h : Hdr) (d a b : BitVec 6) (s : State) : Host.Outcome State Fault Refusal :=
  issue (formInt h d a b) s (binZ d a b (fun x y => if x.toNat ≤ y.toNat then x else y))

def execImaxI32 (h : Hdr) (d a b : BitVec 6) (s : State) : Host.Outcome State Fault Refusal :=
  issue (formInt h d a b) s (binZ d a b (fun x y => if sint x ≤ sint y then y else x))

def execImaxN32 (h : Hdr) (d a b : BitVec 6) (s : State) : Host.Outcome State Fault Refusal :=
  issue (formInt h d a b) s (binZ d a b (fun x y => if x.toNat ≤ y.toNat then y else x))

def execAnd (h : Hdr) (d a b : BitVec 6) (s : State) : Host.Outcome State Fault Refusal :=
  issue (formInt h d a b) s (binZ d a b (fun x y => x &&& y))

def execOr (h : Hdr) (d a b : BitVec 6) (s : State) : Host.Outcome State Fault Refusal :=
  issue (formInt h d a b) s (binZ d a b (fun x y => x ||| y))

def execXor (h : Hdr) (d a b : BitVec 6) (s : State) : Host.Outcome State Fault Refusal :=
  issue (formInt h d a b) s (binZ d a b (fun x y => x ^^^ y))

def execAndn (h : Hdr) (d a b : BitVec 6) (s : State) : Host.Outcome State Fault Refusal :=
  issue (formInt h d a b) s (binZ d a b (fun x y => x &&& ~~~y))

def execOrn (h : Hdr) (d a b : BitVec 6) (s : State) : Host.Outcome State Fault Refusal :=
  issue (formInt h d a b) s (binZ d a b (fun x y => x ||| ~~~y))

def execPopc (h : Hdr) (d a : BitVec 6) (s : State) : Host.Outcome State Fault Refusal :=
  issue (formInt1 h d a) s (unZ d a (fun x => BitVec.ofNat 32 (popcount 32 x.toNat)))

def execClz (h : Hdr) (d a : BitVec 6) (s : State) : Host.Outcome State Fault Refusal :=
  issue (formInt1 h d a) s (unZ d a (fun x => BitVec.ofNat 32 (32 - bitLen x.toNat)))

def execBrev (h : Hdr) (d a : BitVec 6) (s : State) : Host.Outcome State Fault Refusal :=
  issue (formInt1 h d a) s (unZ d a (fun x => BitVec.ofNat 32 (bitRev 32 x.toNat)))

/-! ## R80 -/

def execShl (h : Hdr) (d a b : BitVec 6) (s : State) : Host.Outcome State Fault Refusal :=
  issue (formInt h d a b) s (binZ d a b (fun x n => if n.toNat < 32 then x <<< n.toNat else 0))

def execShr (h : Hdr) (d a b : BitVec 6) (s : State) : Host.Outcome State Fault Refusal :=
  issue (formInt h d a b) s (binZ d a b (fun x n => if n.toNat < 32 then x >>> n.toNat else 0))

def execSar (h : Hdr) (d a b : BitVec 6) (s : State) : Host.Outcome State Fault Refusal :=
  issue (formInt h d a b) s (binZ d a b (fun x n =>
    if n.toNat < 32 then x.sshiftRight n.toNat else if x.msb then 0xFFFFFFFF else 0))

def execRol (h : Hdr) (d a b : BitVec 6) (s : State) : Host.Outcome State Fault Refusal :=
  issue (formInt h d a b) s (binZ d a b (fun x n => x.rotateLeft (n.toNat % 32)))

/-! ## R81 -/

/-- Position, and length cut at bit 31. -/
def bfPos (b : Word) : Nat := bits b.toNat 0 5
def bfLen (b : Word) : Nat := min (bits b.toNat 8 6) (32 - bfPos b)

def execBfxN32 (h : Hdr) (d a b : BitVec 6) (s : State) : Host.Outcome State Fault Refusal :=
  issue (formInt h d a b) s (binZ d a b (fun x y => BitVec.ofNat 32 (bits x.toNat (bfPos y) (bfLen y))))

def execBfxI32 (h : Hdr) (d a b : BitVec 6) (s : State) : Host.Outcome State Fault Refusal :=
  issue (formInt h d a b) s (binZ d a b (fun x y =>
    if bfLen y = 0 then 0 else wordOfInt (sext (bits x.toNat (bfPos y) (bfLen y)) (bfLen y))))

def execBfi (h : Hdr) (d a b : BitVec 6) (s : State) : Host.Outcome State Fault Refusal :=
  issue { formInt h d a b with src := [a.toNat, b.toNat, d.toNat] } s
    (actZ d.toNat (fun s l => let y := s.gOrImm l b.toNat
      BitVec.ofNat 32 (setBits (s.g l d.toNat 2).toNat (bfPos y) (bfLen y) (s.g l a.toNat).toNat)))

/-! ## R82 -/

/-- One byte that PERM chooses by a selector nibble. -/
def permByte (src : Nat) (nib : Nat) : Nat :=
  let b := bits src (8 * (nib % 8)) 8
  if nib / 8 % 2 = 1 then (if b / 128 = 1 then 0xFF else 0) else b

def permWord (x y sel : Word) : Word :=
  let src := x.toNat + y.toNat * 2 ^ 32
  BitVec.ofNat 32 ((upFrom 4 0).foldl (fun r i => r + permByte src (bits sel.toNat (4 * i) 4) * 2 ^ (8 * i)) 0)

def execPerm (h : Hdr) (d a b : BitVec 6) (s : State) : Host.Outcome State Fault Refusal :=
  issue (formFC h d a b s) s
    (actZ d.toNat (fun s l => permWord (s.g l a.toNat) (s.g l b.toNat 1) (s.gThird l d.toNat)))

/-! ## R83 -/

/-- The second operand of a 64-bit form: the pair, or the immediate sign-extended. -/
def State.gdOrImm (s : State) (l b : Nat) : DWord :=
  match s.imm with
  | some v => dwordOfInt v
  | none => s.gd l b 1

def execLea (h : Hdr) (d a b : BitVec 6) (hf : BitVec 2) (s : State) : Host.Outcome State Fault Refusal :=
  issue { h := h, ok := legal (.lea h d a b hf), acc := { imm1 := true, imm2 := true }, immZero := b == 0,
          src := regsOf a.toNat 2 ++ [b.toNat], dst := regsOf d.toNat 2 } s
    (actZd d.toNat (fun s l =>
      let idx : Int := match s.imm with | some v => v | none => sint (s.g l b.toNat 1)
      s.gd l a.toNat + dwordOfInt (idx * 2 ^ ([0, 2, 3, 4].getD hf.toNat 0))))

/-- The form of a 64-bit sum or difference: an IMMX takes the place of the pair gB (R142). -/
def formPair (h : Hdr) (d a b : BitVec 6) (ok : Bool) (s : State) : Form :=
  { h := h, ok := ok, acc := { imm1 := true, imm2 := true }, immZero := b == 0,
    src := regsOf a.toNat 2 ++ (if s.imm.isSome then [] else regsOf b.toNat 2), dst := regsOf d.toNat 2 }

def execIadd64 (h : Hdr) (d a b : BitVec 6) (s : State) : Host.Outcome State Fault Refusal :=
  issue (formPair h d a b (legal (.iadd64 h d a b)) s) s (actZd d.toNat (fun s l => s.gd l a.toNat + s.gdOrImm l b.toNat))

def execIsub64 (h : Hdr) (d a b : BitVec 6) (s : State) : Host.Outcome State Fault Refusal :=
  issue (formPair h d a b (legal (.isub64 h d a b)) s) s (actZd d.toNat (fun s l => s.gd l a.toNat - s.gdOrImm l b.toNat))

/-- ADDC accepts IMMX as the other F3 forms of its majors do (Table 3-4). -/
def execAddc (h : Hdr) (d a b : BitVec 6) (s : State) : Host.Outcome State Fault Refusal :=
  issue { formInt h d a b with acc := { imm1 := true, opndP := true, opndNeed := true } } s
    (.pure (fun s ls => s.eachLane ls (fun s l =>
      let k := s.opndP.getD 0
      let x := (s.g l a.toNat).toNat + (s.gOrImm l b.toNat).toNat + b2n (s.p l k)
      (s.setG l d.toNat (BitVec.ofNat 32 x)).setP l k (decide (2 ^ 32 ≤ x)))))

/-! ## R84 -/

def execMov (h : Hdr) (d a : BitVec 6) (s : State) : Host.Outcome State Fault Refusal :=
  issue (formInt1 h d a) s (unZ d a (fun x => x))

def execMovi (h : Hdr) (d : BitVec 6) (i : BitVec 14) (s : State) : Host.Outcome State Fault Refusal :=
  issue { h := h, acc := { imm1 := true, imm2 := true }, immZero := i == 0, dst := [d.toNat] } s
    (actZ d.toNat (fun s _ => wordOfInt (match s.imm with | some v => v | none => i.toInt)))

def execIsel (h : Hdr) (d a b : BitVec 6) (s : State) : Host.Outcome State Fault Refusal :=
  issue { formInt h d a b with acc := { imm1 := true, opndP := true, opndNeed := true } } s
    (actZ d.toNat (fun s l => if s.p l (s.opndP.getD 0) then s.g l a.toNat else s.gOrImm l b.toNat))

/-! ## R85, R86 -/

def execIcmp (h : Hdr) (q : BitVec 4) (a : BitVec 4) (b : BitVec 6) (c : BitVec 4) (s : State) : Host.Outcome State Fault Refusal :=
  issue { h := h, ok := legal (.icmp h q a b c), acc := { imm1 := true }, immZero := b == 0, src := [a.toNat, b.toNat], pdst := [q.toNat] } s
    (actZp q.toNat (fun s l => (intCond c.toNat (s.g l a.toNat) (s.gOrImm l b.toNat)).getD false))

def execIcmpi (h : Hdr) (q : BitVec 4) (a : BitVec 6) (i : BitVec 6) (c : BitVec 4) (s : State) : Host.Outcome State Fault Refusal :=
  issue { h := h, ok := legal (.icmpi h q a i c), acc := { imm1 := true }, immZero := i == 0, src := [a.toNat], pdst := [q.toNat] } s
    (actZp q.toNat (fun s l =>
      (intCond c.toNat (s.g l a.toNat) (wordOfInt (match s.imm with | some v => v | none => i.toInt))).getD false))

/-! ## R87, R88 -/

def execPlop (h : Hdr) (q a b c : BitVec 4) (s : State) : Host.Outcome State Fault Refusal :=
  issue { h := h, psrc := [a.toNat, b.toNat], pdst := [q.toNat] } s
    (actZp q.toNat (fun s l => bitOf c.toNat (2 * b2n (s.p l a.toNat) + b2n (s.p l b.toNat 2))))

def execPmovFromPw (h : Hdr) (d : BitVec 6) (s : State) : Host.Outcome State Fault Refusal :=
  issue { h := h, psrc := upFrom 15 1, dst := [d.toNat] } s
    (actZ d.toNat (fun s l => BitVec.ofNat 32 (readPW s.free s.curWarp l 1)))

def execPmovToPw (h : Hdr) (a : BitVec 6) (s : State) : Host.Outcome State Fault Refusal :=
  issue { h := h, src := [a.toNat], pdst := upFrom 15 1 } s
    (.pure (fun s ls => s.eachLane ls (fun s l =>
      let v := (s.g l a.toNat).toNat
      (upFrom 15 1).foldl (fun s k => s.setP l k (bitOf v k)) s)))

end Sys2Proof.Machine
end

