-- ==== Sys2Proof/Machine/Scalar.lean ====
section
/-! DEFINITION. Scalar operations (04_fibre_registers.md R72, R89, R90), performed once per batch or on a stream's copy. -/

namespace Sys2Proof.Machine

/-- The form of SOP: s registers only, legal in streams; IMMX replaces s[B]. -/
def formSop (h : Hdr) (a b : BitVec 6) (ok : Bool) (s : State) : Form :=
  { h := h, ok := ok, acc := { imm1 := true }, immZero := b == 0, uniform := true, streamOk := true,
    ssrc := [a.toNat] ++ (if s.immxs.isEmpty then [b.toNat] else []) }

/-- The second scalar operand. -/
def State.srOrImm (s : State) (b : Nat) : Word :=
  match s.imm with
  | some v => wordOfInt v
  | none => s.sr b 1

def actSop (d a b : BitVec 6) (f : Word → Word → Word) : Act :=
  .pure (fun s _ => s.setS d.toNat (f (s.sr a.toNat) (s.srOrImm b.toNat)))

def execSopAdd (h : Hdr) (d a b : BitVec 6) (s : State) : Host.Outcome State Fault Refusal :=
  issue (formSop h a b (legal (.sopAdd h d a b)) s) s (actSop d a b (fun x y => x + y))

def execSopSub (h : Hdr) (d a b : BitVec 6) (s : State) : Host.Outcome State Fault Refusal :=
  issue (formSop h a b (legal (.sopSub h d a b)) s) s (actSop d a b (fun x y => x - y))

def execSopMul (h : Hdr) (d a b : BitVec 6) (s : State) : Host.Outcome State Fault Refusal :=
  issue (formSop h a b (legal (.sopMul h d a b)) s) s (actSop d a b (fun x y => x * y))

def execSopAnd (h : Hdr) (d a b : BitVec 6) (s : State) : Host.Outcome State Fault Refusal :=
  issue (formSop h a b (legal (.sopAnd h d a b)) s) s (actSop d a b (fun x y => x &&& y))

def execSopOr (h : Hdr) (d a b : BitVec 6) (s : State) : Host.Outcome State Fault Refusal :=
  issue (formSop h a b (legal (.sopOr h d a b)) s) s (actSop d a b (fun x y => x ||| y))

def execSopXor (h : Hdr) (d a b : BitVec 6) (s : State) : Host.Outcome State Fault Refusal :=
  issue (formSop h a b (legal (.sopXor h d a b)) s) s (actSop d a b (fun x y => x ^^^ y))

def execSopShl (h : Hdr) (d a b : BitVec 6) (s : State) : Host.Outcome State Fault Refusal :=
  issue (formSop h a b (legal (.sopShl h d a b)) s) s
    (actSop d a b (fun x n => if n.toNat < 32 then x <<< n.toNat else 0))

def execSopShr (h : Hdr) (d a b : BitVec 6) (s : State) : Host.Outcome State Fault Refusal :=
  issue (formSop h a b (legal (.sopShr h d a b)) s) s
    (actSop d a b (fun x n => if n.toNat < 32 then x >>> n.toNat else 0))

def execScmp (h : Hdr) (q : BitVec 4) (a b : BitVec 5) (c : BitVec 4) (s : State) : Host.Outcome State Fault Refusal :=
  issue { h := h, ok := legal (.scmp h q a b c), acc := { imm1 := true }, immZero := b == 0, uniform := true, pdst := [q.toNat],
          ssrc := [a.toNat] ++ (if s.immxs.isEmpty then [b.toNat] else []) } s
    (.pure (fun s ls =>
      let r := (intCond c.toNat (s.sr a.toNat) (s.srOrImm b.toNat)).getD false
      s.eachLane ls (fun s l => s.setP l q.toNat r)))

end Sys2Proof.Machine
end

