-- ==== Sys2Proof/Machine/Stream.lean ====
section
/-! DEFINITION. The engine sequencer: the words of a stream (03_instruction_words.md R64; 13_queues.md R276 to R278). -/

namespace Sys2Proof.Machine

/-- A stream whose next word may issue: not ended, not before its own pending results, its core powered, its partition
ACTIVE, its group not being saved (R278), and its context not stalled by its energy (15_counters.md R315). -/
def streamOpen (s : State) (core : Nat) (w : Warp) (t : Stream) : Bool :=
  let k := s.core core
  !t.ended && decide (t.idx < t.count) && !(t.park == .results && !t.pend.isEmpty) && k.power == .active && !k.resuming &&
  !k.journalFull && !(s.motif (core / 8)).relocks.1 &&
  (s.part (s.launchPart w.launch)).state == 1 &&
  !(match mfind k.st.groups w.group with | some g => g.preempt | none => false) &&
  !(match k.st.ctx? w.launch with | some c => ctxStalled c | none => false)

/-- The address of a stream's next word. -/
def Stream.pc (t : Stream) : DWord := pcAfter t.base t.idx

/-- A stream's next word becomes the instruction in progress. -/
def State.setStreamCur (s : State) (core slot : Nat) (t : Stream) (word : Word) : State :=
  let s := { s with cur := {
      core := core, slot := slot, lanes := lanesMask [t.leader], pc := t.pc, word := word, stream := true, hints := t.hints
      hpc := t.pc - BitVec.ofNat 64 (4 * t.hints.length), counted := t.counted
      met := match t.park with | .cwaitMet e => some e | _ => none } }
  s.modCurStream (fun t => { t with park := .none })

/-- A word that no stream may hold is debited and ends it (R64, rule 1; 15_counters.md R315); a word of the hints' major has no
debit. -/
def streamUnfit (s : State) : Host.Outcome State Fault Refusal :=
  .next (if isHintWord s.cur.word.toNat then badHint s
    else streamFault (debit s s.cur.core s.curWarp.launch (s.ecostOf (s.eclass noForm))) noForm ⟨fcIllegalOp, 0, false⟩)

/-- The words that a stream may hold, and the illegal ones whose debit is not that of their class alone, each with its own meaning
(R64, rule 1). -/
def execStreamInstr (i : Instr) (s : State) : Host.Outcome State Fault Refusal :=
  match i with
  | .sopAdd h d a b => execSopAdd h d a b s
  | .sopSub h d a b => execSopSub h d a b s
  | .sopMul h d a b => execSopMul h d a b s
  | .sopAnd h d a b => execSopAnd h d a b s
  | .sopOr h d a b => execSopOr h d a b s
  | .sopXor h d a b => execSopXor h d a b s
  | .sopShl h d a b => execSopShl h d a b s
  | .sopShr h d a b => execSopShr h d a b s
  | .acpy h x y e f => execAcpy h x y e f s
  | .acpym h x y e f => execAcpym h x y e f s
  | .afill h x e f => execAfill h x e f s
  | .agthr h x y z e f => execAgthr h x y z e f s
  | .chain h a b => execChain h a b s
  | .mloop h x y z e f => execMloop h x y z e f s
  | .rcopy h x y e => execRcopy h x y e s
  | .rfill h x e f => execRfill h x e f s
  | .rbitAnd h x y z e => execRbitAnd h x y z e s
  | .rbitOr h x y z e => execRbitOr h x y z e s
  | .rbitMaj3 h x y z e => execRbitMaj3 h x y z e s
  | .rbitNot h x y e => execRbitNot h x y e s
  | .rbitXor h x y z e => execRbitXor h x y z e s
  | .nmx h x y z e => execNmx h x y z e s
  | .nseg h x y z e f m => execNseg h x y z e f m s
  | .cwait h q a b => execCwait h q a b s
  | .ctest h q a b => execCtest h q a b s
  | .bwarr h a b => execBwarr h a b s
  | .lbarv h l => execLbarv h l s
  | .accst h x y e f => execAccst h x y e f s
  | .bchk h a => execBchk h a s
  | .immx v => execImmx v s
  | .opndReg r => execOpndReg r s
  | .opndPred p => execOpndPred p s
  | .modr v m t c k o w => execModr v m t c k o w s
  | .schd y u => execSchd y u s
  | .ecls e => execEcls e s
  | _ => streamUnfit s

/-- STREAM_WORD: the sequencer fetches and issues the next word of a warp's stream. A page that is not resident is asked
for, and the word is fetched again later (08_memories.md R160). -/
def execStreamWord (core slot : Nat) (s : State) : Host.Outcome State Fault Refusal :=
  match s.warp? core slot with
  | none => .next s
  | some w => match w.stream with
    | none => .next s
    | some t =>
      if !streamOpen s core w t then .next s
      else match fetch s core (s.launchPart w.launch) t.pc.toNat with
        | .word x =>
          let s := forgetPage s core (s.launchPart w.launch) t.pc.toNat 1
          let s1 := if t.counted then s else noteIssue s core x.toNat true
          execStreamInstr (instrOf x) (s1.setStreamCur core slot t x)
        | .fault c => .next (streamFault (s.setStreamCur core slot t 0) noForm ⟨c, t.pc.toNat, false⟩)
        | .waits => .next s
        | .absent => .next (notePage s core (s.launchPart w.launch) t.pc.toNat 1 t.leader slot)

end Sys2Proof.Machine
end

