-- ==== Sys2Proof/Machine/Dispatch.lean ====
section
/-! DEFINITION. The meaning of every row of the opcode table: one arm for each constructor of Instr. -/

namespace Sys2Proof.Machine

def exec (i : Instr) (s : State) : Host.Outcome State Fault Refusal :=
  match i with
  | .iadd h d a b => Sys2Proof.Machine.execIadd h d a b s
  | .isub h d a b => Sys2Proof.Machine.execIsub h d a b s
  | .ineg h d a => Sys2Proof.Machine.execIneg h d a s
  | .iabs h d a => Sys2Proof.Machine.execIabs h d a s
  | .iaddi h d a i_ => Sys2Proof.Machine.execIaddi h d a i_ s
  | .imul h d a b => Sys2Proof.Machine.execImul h d a b s
  | .imulhI32 h d a b => Sys2Proof.Machine.execImulhI32 h d a b s
  | .imulhN32 h d a b => Sys2Proof.Machine.execImulhN32 h d a b s
  | .imad h d a b => Sys2Proof.Machine.execImad h d a b s
  | .iminI32 h d a b => Sys2Proof.Machine.execIminI32 h d a b s
  | .iminN32 h d a b => Sys2Proof.Machine.execIminN32 h d a b s
  | .imaxI32 h d a b => Sys2Proof.Machine.execImaxI32 h d a b s
  | .imaxN32 h d a b => Sys2Proof.Machine.execImaxN32 h d a b s
  | .and h d a b => Sys2Proof.Machine.execAnd h d a b s
  | .or h d a b => Sys2Proof.Machine.execOr h d a b s
  | .xor h d a b => Sys2Proof.Machine.execXor h d a b s
  | .andn h d a b => Sys2Proof.Machine.execAndn h d a b s
  | .orn h d a b => Sys2Proof.Machine.execOrn h d a b s
  | .popc h d a => Sys2Proof.Machine.execPopc h d a s
  | .clz h d a => Sys2Proof.Machine.execClz h d a s
  | .brev h d a => Sys2Proof.Machine.execBrev h d a s
  | .shl h d a b => Sys2Proof.Machine.execShl h d a b s
  | .shr h d a b => Sys2Proof.Machine.execShr h d a b s
  | .sar h d a b => Sys2Proof.Machine.execSar h d a b s
  | .rol h d a b => Sys2Proof.Machine.execRol h d a b s
  | .bfxN32 h d a b => Sys2Proof.Machine.execBfxN32 h d a b s
  | .bfxI32 h d a b => Sys2Proof.Machine.execBfxI32 h d a b s
  | .bfi h d a b => Sys2Proof.Machine.execBfi h d a b s
  | .perm h d a b => Sys2Proof.Machine.execPerm h d a b s
  | .lea h d a b hf => Sys2Proof.Machine.execLea h d a b hf s
  | .iadd64 h d a b => Sys2Proof.Machine.execIadd64 h d a b s
  | .isub64 h d a b => Sys2Proof.Machine.execIsub64 h d a b s
  | .addc h d a b => Sys2Proof.Machine.execAddc h d a b s
  | .sopAdd h d a b => Sys2Proof.Machine.execSopAdd h d a b s
  | .sopSub h d a b => Sys2Proof.Machine.execSopSub h d a b s
  | .sopMul h d a b => Sys2Proof.Machine.execSopMul h d a b s
  | .sopAnd h d a b => Sys2Proof.Machine.execSopAnd h d a b s
  | .sopOr h d a b => Sys2Proof.Machine.execSopOr h d a b s
  | .sopXor h d a b => Sys2Proof.Machine.execSopXor h d a b s
  | .sopShl h d a b => Sys2Proof.Machine.execSopShl h d a b s
  | .sopShr h d a b => Sys2Proof.Machine.execSopShr h d a b s
  | .scmp h q a b c => Sys2Proof.Machine.execScmp h q a b c s
  | .icmp h q a b c => Sys2Proof.Machine.execIcmp h q a b c s
  | .icmpi h q a i_ c => Sys2Proof.Machine.execIcmpi h q a i_ c s
  | .mov h d a => Sys2Proof.Machine.execMov h d a s
  | .movi h d i_ => Sys2Proof.Machine.execMovi h d i_ s
  | .isel h d a b => Sys2Proof.Machine.execIsel h d a b s
  | .plop h q a b c => Sys2Proof.Machine.execPlop h q a b c s
  | .pmovFromPw h d => Sys2Proof.Machine.execPmovFromPw h d s
  | .pmovToPw h a => Sys2Proof.Machine.execPmovToPw h a s
  | .fadd h d a b => Sys2Proof.Machine.execFadd h d a b s
  | .fsub h d a b => Sys2Proof.Machine.execFsub h d a b s
  | .fmul h d a b => Sys2Proof.Machine.execFmul h d a b s
  | .ffma h d a b => Sys2Proof.Machine.execFfma h d a b s
  | .fmin h d a b => Sys2Proof.Machine.execFmin h d a b s
  | .fmax h d a b => Sys2Proof.Machine.execFmax h d a b s
  | .fmov h d a => Sys2Proof.Machine.execFmov h d a s
  | .fmovAbs h d a => Sys2Proof.Machine.execFmovAbs h d a s
  | .fmovNeg h d a => Sys2Proof.Machine.execFmovNeg h d a s
  | .fmovCpsgn h d a b => Sys2Proof.Machine.execFmovCpsgn h d a b s
  | .fcmp h q a b c => Sys2Proof.Machine.execFcmp h q a b c s
  | .frcp h d a => Sys2Proof.Machine.execFrcp h d a s
  | .frsq h d a => Sys2Proof.Machine.execFrsq h d a s
  | .fsqrt h d a => Sys2Proof.Machine.execFsqrt h d a s
  | .fex2 h d a => Sys2Proof.Machine.execFex2 h d a s
  | .flg2 h d a => Sys2Proof.Machine.execFlg2 h d a s
  | .fsin h d a => Sys2Proof.Machine.execFsin h d a s
  | .fcos h d a => Sys2Proof.Machine.execFcos h d a s
  | .ftanh h d a => Sys2Proof.Machine.execFtanh h d a s
  | .pkaddF16 h d a b => Sys2Proof.Machine.execPkaddF16 h d a b s
  | .pkmulF16 h d a b => Sys2Proof.Machine.execPkmulF16 h d a b s
  | .pkaddBf16 h d a b => Sys2Proof.Machine.execPkaddBf16 h d a b s
  | .pkmulBf16 h d a b => Sys2Proof.Machine.execPkmulBf16 h d a b s
  | .pkfmaF16 h d a b => Sys2Proof.Machine.execPkfmaF16 h d a b s
  | .pkfmaBf16 h d a b => Sys2Proof.Machine.execPkfmaBf16 h d a b s
  | .cvt h d a st dt => Sys2Proof.Machine.execCvt h d a st dt s
  | .pack h d a => Sys2Proof.Machine.execPack h d a s
  | .unpk h d a => Sys2Proof.Machine.execUnpk h d a s
  | .frnd h d a m => Sys2Proof.Machine.execFrnd h d a m s
  | .qblk h d a f => Sys2Proof.Machine.execQblk h d a f s
  | .qhad h d a f hf => Sys2Proof.Machine.execQhad h d a f hf s
  | .dqblk h d a f => Sys2Proof.Machine.execDqblk h d a f s
  | .shflLane h d a b => Sys2Proof.Machine.execShflLane h d a b s
  | .shflRot h d a b => Sys2Proof.Machine.execShflRot h d a b s
  | .shflMirr h d a b => Sys2Proof.Machine.execShflMirr h d a b s
  | .shflBfly h d a b => Sys2Proof.Machine.execShflBfly h d a b s
  | .voteEvery h q a => Sys2Proof.Machine.execVoteEvery h q a s
  | .voteSome h q a => Sys2Proof.Machine.execVoteSome h q a s
  | .voteSame h q a => Sys2Proof.Machine.execVoteSame h q a s
  | .voteOdd h q a => Sys2Proof.Machine.execVoteOdd h q a s
  | .ballot h d a => Sys2Proof.Machine.execBallot h d a s
  | .matchPeers h d a => Sys2Proof.Machine.execMatchPeers h d a s
  | .matchWhole h d a => Sys2Proof.Machine.execMatchWhole h d a s
  | .redw h d a o t => Sys2Proof.Machine.execRedw h d a o t s
  | .scanw h d a o t => Sys2Proof.Machine.execScanw h d a o t s
  | .scanwExcl h d a o t => Sys2Proof.Machine.execScanwExcl h d a o t s
  | .smovS h d a => Sys2Proof.Machine.execSmovS h d a s
  | .smovG h d a => Sys2Proof.Machine.execSmovG h d a s
  | .bra h o => Sys2Proof.Machine.execBra h o s
  | .call h w o => Sys2Proof.Machine.execCall h w o s
  | .brax h a => Sys2Proof.Machine.execBrax h a s
  | .callx h a w => Sys2Proof.Machine.execCallx h a w s
  | .ret h => Sys2Proof.Machine.execRet h s
  | .join h m => Sys2Proof.Machine.execJoin h m s
  | .leave h m => Sys2Proof.Machine.execLeave h m s
  | .waitm h m => Sys2Proof.Machine.execWaitm h m s
  | .mopSet h m r => Sys2Proof.Machine.execMopSet h m r s
  | .mopAnd h m a b => Sys2Proof.Machine.execMopAnd h m a b s
  | .mopOr h m a b => Sys2Proof.Machine.execMopOr h m a b s
  | .mopAndn h m a b => Sys2Proof.Machine.execMopAndn h m a b s
  | .mopBatch h m => Sys2Proof.Machine.execMopBatch h m s
  | .mopBallot h m a => Sys2Proof.Machine.execMopBallot h m a s
  | .fspawn h q a b => Sys2Proof.Machine.execFspawn h q a b s
  | .fend h => Sys2Proof.Machine.execFend h s
  | .exit h => Sys2Proof.Machine.execExit h s
  | .yield h => Sys2Proof.Machine.execYield h s
  | .nap h a => Sys2Proof.Machine.execNap h a s
  | .safe h l => Sys2Proof.Machine.execSafe h l s
  | .trap h c => Sys2Proof.Machine.execTrap h c s
  | .tretResume h a => Sys2Proof.Machine.execTretResume h a s
  | .tretSkip h a => Sys2Proof.Machine.execTretSkip h a s
  | .tretEnd h a => Sys2Proof.Machine.execTretEnd h a s
  | .ldb h d a r i_ => Sys2Proof.Machine.execLdb h d a r i_ s
  | .ldh h d a r i_ => Sys2Proof.Machine.execLdh h d a r i_ s
  | .ldw h d a r i_ => Sys2Proof.Machine.execLdw h d a r i_ s
  | .ldd h d a r i_ => Sys2Proof.Machine.execLdd h d a r i_ s
  | .ldq h d a r i_ => Sys2Proof.Machine.execLdq h d a r i_ s
  | .stb h d a r i_ => Sys2Proof.Machine.execStb h d a r i_ s
  | .sth h d a r i_ => Sys2Proof.Machine.execSth h d a r i_ s
  | .stw h d a r i_ => Sys2Proof.Machine.execStw h d a r i_ s
  | .std h d a r i_ => Sys2Proof.Machine.execStd h d a r i_ s
  | .stq h d a r i_ => Sys2Proof.Machine.execStq h d a r i_ s
  | .stn h d a hf r i_ => Sys2Proof.Machine.execStn h d a hf r i_ s
  | .atom h d a o t => Sys2Proof.Machine.execAtom h d a o t s
  | .atomf h d a o => Sys2Proof.Machine.execAtomf h d a o s
  | .cas h d a b => Sys2Proof.Machine.execCas h d a b s
  | .casD h d a b => Sys2Proof.Machine.execCasD h d a b s
  | .casQ h d a b => Sys2Proof.Machine.execCasQ h d a b s
  | .red h o t a b => Sys2Proof.Machine.execRed h o t a b s
  | .phase h k c => Sys2Proof.Machine.execPhase h k c s
  | .pfence h c => Sys2Proof.Machine.execPfence h c s
  | .cwb h a => Sys2Proof.Machine.execCwb h a s
  | .cinv h a => Sys2Proof.Machine.execCinv h a s
  | .zline h a => Sys2Proof.Machine.execZline h a s
  | .pref h a l => Sys2Proof.Machine.execPref h a l s
  | .pgreq h a => Sys2Proof.Machine.execPgreq h a s
  | .pgprobe h a q => Sys2Proof.Machine.execPgprobe h a q s
  | .acpy h x y e f => Sys2Proof.Machine.execAcpy h x y e f s
  | .acpym h x y e f => Sys2Proof.Machine.execAcpym h x y e f s
  | .afill h x e f => Sys2Proof.Machine.execAfill h x e f s
  | .agthr h x y z e f => Sys2Proof.Machine.execAgthr h x y z e f s
  | .chain h a b => Sys2Proof.Machine.execChain h a b s
  | .balloc h d a => Sys2Proof.Machine.execBalloc h d a s
  | .bfree h a => Sys2Proof.Machine.execBfree h a s
  | .bmode h a b => Sys2Proof.Machine.execBmode h a b s
  | .bstat h d a => Sys2Proof.Machine.execBstat h d a s
  | .mloop h x y z e f => Sys2Proof.Machine.execMloop h x y z e f s
  | .accrd h d a => Sys2Proof.Machine.execAccrd h d a s
  | .accld h a b => Sys2Proof.Machine.execAccld h a b s
  | .accclr h a => Sys2Proof.Machine.execAccclr h a s
  | .accst h x y e f => Sys2Proof.Machine.execAccst h x y e f s
  | .bchk h a => Sys2Proof.Machine.execBchk h a s
  | .rcopy h x y e => Sys2Proof.Machine.execRcopy h x y e s
  | .rfill h x e f => Sys2Proof.Machine.execRfill h x e f s
  | .rbitAnd h x y z e => Sys2Proof.Machine.execRbitAnd h x y z e s
  | .rbitOr h x y z e => Sys2Proof.Machine.execRbitOr h x y z e s
  | .rbitMaj3 h x y z e => Sys2Proof.Machine.execRbitMaj3 h x y z e s
  | .rbitNot h x y e => Sys2Proof.Machine.execRbitNot h x y e s
  | .rbitXor h x y z e => Sys2Proof.Machine.execRbitXor h x y z e s
  | .nmx h x y z e => Sys2Proof.Machine.execNmx h x y z e s
  | .nseg h x y z e f m => Sys2Proof.Machine.execNseg h x y z e f m s
  | .mbbind h d a b => Sys2Proof.Machine.execMbbind h d a b s
  | .mbfree h d a => Sys2Proof.Machine.execMbfree h d a s
  | .mbpost h d a b => Sys2Proof.Machine.execMbpost h d a b s
  | .qput h a b => Sys2Proof.Machine.execQput h a b s
  | .qtake h d a b => Sys2Proof.Machine.execQtake h d a b s
  | .qstat h d b => Sys2Proof.Machine.execQstat h d b s
  | .efork h c o => Sys2Proof.Machine.execEfork h c o s
  | .erdv h => Sys2Proof.Machine.execErdv h s
  | .cwait h q a b => Sys2Proof.Machine.execCwait h q a b s
  | .ctest h q a b => Sys2Proof.Machine.execCtest h q a b s
  | .bwinit h a b => Sys2Proof.Machine.execBwinit h a b s
  | .bwarr h a b => Sys2Proof.Machine.execBwarr h a b s
  | .bwwait h a b => Sys2Proof.Machine.execBwwait h a b s
  | .bwtest h q a b => Sys2Proof.Machine.execBwtest h q a b s
  | .bwdrop h a => Sys2Proof.Machine.execBwdrop h a s
  | .lbarv h l => Sys2Proof.Machine.execLbarv h l s
  | .lbwait h l => Sys2Proof.Machine.execLbwait h l s
  | .lbset h l a => Sys2Proof.Machine.execLbset h l a s
  | .migto h a => Sys2Proof.Machine.execMigto h a s
  | .migret h => Sys2Proof.Machine.execMigret h s
  | .regrp h m => Sys2Proof.Machine.execRegrp h m s
  | .shld h hf a => Sys2Proof.Machine.execShld h hf a s
  | .shst h hf a => Sys2Proof.Machine.execShst h hf a s
  | .shget h hf a f => Sys2Proof.Machine.execShget h hf a f s
  | .shset h hf a f => Sys2Proof.Machine.execShset h hf a f s
  | .csrr h d c => Sys2Proof.Machine.execCsrr h d c s
  | .csrw h d c => Sys2Proof.Machine.execCsrw h d c s
  | .csrs h d c => Sys2Proof.Machine.execCsrs h d c s
  | .csrc h d c => Sys2Proof.Machine.execCsrc h d c s
  | .immx i_ => Sys2Proof.Machine.execImmx i_ s
  | .opndReg r => Sys2Proof.Machine.execOpndReg r s
  | .opndPred p => Sys2Proof.Machine.execOpndPred p s
  | .modr v m t c k o w => Sys2Proof.Machine.execModr v m t c k o w s
  | .schd y u => Sys2Proof.Machine.execSchd y u s
  | .ecls e => Sys2Proof.Machine.execEcls e s
  | .dump h => Sys2Proof.Machine.execDump h s
  | .tmark h c => Sys2Proof.Machine.execTmark h c s
  | .brk u v c => Sys2Proof.Machine.execBrk u v c s
  | .moduleReset => Sys2Proof.Machine.execModuleReset s
  | .firmwareBoot => Sys2Proof.Machine.execFirmwareBoot s
  | .imageWrite master die slot image => Sys2Proof.Machine.execImageWrite master die slot image s
  | .modulePowerLoss => Sys2Proof.Machine.execModulePowerLoss s
  | .corePowerLoss core => Sys2Proof.Machine.execCorePowerLoss core s
  | .motifPowerLoss motif => Sys2Proof.Machine.execMotifPowerLoss motif s
  | .motifRestore motif => Sys2Proof.Machine.execMotifRestore motif s
  | .coreResume core => Sys2Proof.Machine.execCoreResume core s
  | .bankReload core bank => Sys2Proof.Machine.execBankReload core bank s
  | .coreGate core => Sys2Proof.Machine.execCoreGate core s
  | .hostAccess master part off len write => Sys2Proof.Machine.execHostAccess master part off len write s
  | .peerAccess port off len write => Sys2Proof.Machine.execPeerAccess port off len write s
  | .storePost part window => Sys2Proof.Machine.execStorePost part window s
  | .dependencyMet launch => Sys2Proof.Machine.execDependencyMet launch s
  | .groupPlacement part => Sys2Proof.Machine.execGroupPlacement part s
  | .preemptionSave core group => Sys2Proof.Machine.execPreemptionSave core group s
  | .groupEnd core group => Sys2Proof.Machine.execGroupEnd core group s
  | .sParkRelease core slot lanes => Sys2Proof.Machine.execSParkRelease core slot lanes s
  | .cwaitRelease core slot tag => Sys2Proof.Machine.execCwaitRelease core slot tag s
  | .lbwaitRelease core lgroup => Sys2Proof.Machine.execLbwaitRelease core lgroup s
  | .queueParkRelease core slot tag => Sys2Proof.Machine.execQueueParkRelease core slot tag s
  | .stageReassign core slot => Sys2Proof.Machine.execStageReassign core slot s
  | .napWake core slot lane => Sys2Proof.Machine.execNapWake core slot lane s
  | .yieldExpiry core slot => Sys2Proof.Machine.execYieldExpiry core slot s
  | .holdGrant core hold => Sys2Proof.Machine.execHoldGrant core hold s
  | .bankClearDone core bank => Sys2Proof.Machine.execBankClearDone core bank s
  | .bankRunComplete op_ => Sys2Proof.Machine.execBankRunComplete op_ s
  | .copyCompletion op_ => Sys2Proof.Machine.execCopyCompletion op_ s
  | .copyFailure op_ => Sys2Proof.Machine.execCopyFailure op_ s
  | .mloopCompletion op_ => Sys2Proof.Machine.execMloopCompletion op_ s
  | .bchkCompletion op_ => Sys2Proof.Machine.execBchkCompletion op_ s
  | .rowSegment op_ => Sys2Proof.Machine.execRowSegment op_ s
  | .stackEngineCompletion op_ => Sys2Proof.Machine.execStackEngineCompletion op_ s
  | .lineWriteback line => Sys2Proof.Machine.execLineWriteback line s
  | .dramRefresh stack channel bank => Sys2Proof.Machine.execDramRefresh stack channel bank s
  | .refreshBoundExpiry stack channel bank => Sys2Proof.Machine.execRefreshBoundExpiry stack channel bank s
  | .streamWord core slot => Sys2Proof.Machine.execStreamWord core slot s
  | .chheadWrite master ch v => Sys2Proof.Machine.execChheadWrite master ch v s
  | .channelRecord ch => Sys2Proof.Machine.execChannelRecord ch s
  | .channelCopyCompletion ch => Sys2Proof.Machine.execChannelCopyCompletion ch s
  | .shuttleArrival gtag => Sys2Proof.Machine.execShuttleArrival gtag s
  | .guestPlacement core => Sys2Proof.Machine.execGuestPlacement core s
  | .shuttleBounce core gtag => Sys2Proof.Machine.execShuttleBounce core gtag s
  | .homeArrival shuttle => Sys2Proof.Machine.execHomeArrival shuttle s
  | .shuttleResend shuttle => Sys2Proof.Machine.execShuttleResend shuttle s
  | .groupMove core group dst => Sys2Proof.Machine.execGroupMove core group dst s
  | .egressDrain core => Sys2Proof.Machine.execEgressDrain core s
  | .journalApply core => Sys2Proof.Machine.execJournalApply core s
  | .stackSpill core slot lane => Sys2Proof.Machine.execStackSpill core slot lane s
  | .fetchRetry core slot => Sys2Proof.Machine.execFetchRetry core slot s
  | .fetchRewalk motif => Sys2Proof.Machine.execFetchRewalk motif s
  | .deadlineExpiry core launch => Sys2Proof.Machine.execDeadlineExpiry core launch s
  | .dumpWrite part => Sys2Proof.Machine.execDumpWrite part s
  | .energyRefill core launch => Sys2Proof.Machine.execEnergyRefill core launch s
  | .guestDebit index => Sys2Proof.Machine.execGuestDebit index s
  | .ebudgetReport index => Sys2Proof.Machine.execEbudgetReport index s
  | .handlerPostRetry core slot => Sys2Proof.Machine.execHandlerPostRetry core slot s
  | .currentAlarm motif => Sys2Proof.Machine.execCurrentAlarm motif s
  | .sensitivityWindow motif => Sys2Proof.Machine.execSensitivityWindow motif s
  | .controlInterval motif temp estimate => Sys2Proof.Machine.execControlInterval motif temp estimate s
  | .stepPhaseEnd motif => Sys2Proof.Machine.execStepPhaseEnd motif s
  | .hostLinkChange master up => Sys2Proof.Machine.execHostLinkChange master up s
  | .bmcPoll answered => Sys2Proof.Machine.execBmcPoll answered s
  | .ownerTimeout => Sys2Proof.Machine.execOwnerTimeout s
  | .peerLinkDown port => Sys2Proof.Machine.execPeerLinkDown port s
  | .debugTokenExpiry part => Sys2Proof.Machine.execDebugTokenExpiry part s
  | .shootdown master part value => Sys2Proof.Machine.execShootdown master part value s
  | .shootdownDone part => Sys2Proof.Machine.execShootdownDone part s
  | .aperrRead master part => Sys2Proof.Machine.execAperrRead master part s
  | .debugWindowAccess master off len write => Sys2Proof.Machine.execDebugWindowAccess master off len write s
  | .mmioWrite master off bytes => Sys2Proof.Machine.execMmioWrite master off bytes s
  | .cmdRead master => Sys2Proof.Machine.execCmdRead master s
  | .cmdClaim master => Sys2Proof.Machine.execCmdClaim master s
  | .cmdHandover master succ => Sys2Proof.Machine.execCmdHandover master succ s
  | .cmdGrant master part grantee => Sys2Proof.Machine.execCmdGrant master part grantee s
  | .cmdPset master part field value => Sys2Proof.Machine.execCmdPset master part field value s
  | .cmdErase master part => Sys2Proof.Machine.execCmdErase master part s
  | .cmdTbind master part handle => Sys2Proof.Machine.execCmdTbind master part handle s
  | .cmdTunbind master part => Sys2Proof.Machine.execCmdTunbind master part s
  | .cmdDebug master part state => Sys2Proof.Machine.execCmdDebug master part state s
  | .cmdDstop master core => Sys2Proof.Machine.execCmdDstop master core s
  | .cmdDresume master core => Sys2Proof.Machine.execCmdDresume master core s
  | .cmdTraceread master core => Sys2Proof.Machine.execCmdTraceread master core s
  | .cmdDumpread master part off => Sys2Proof.Machine.execCmdDumpread master part off s
  | .cmdChallenge master => Sys2Proof.Machine.execCmdChallenge master s
  | .cmdProvision master => Sys2Proof.Machine.execCmdProvision master s
  | .cmdRetire master => Sys2Proof.Machine.execCmdRetire master s
  | .cmdAttest master nonce => Sys2Proof.Machine.execCmdAttest master nonce s
  | .classDResult core slot res => Sys2Proof.Machine.execClassDResult core slot res s
  | .illegalOpWord word => Sys2Proof.Machine.execIllegalOpWord word s
  | .peerLinkUp port => Sys2Proof.Machine.execPeerLinkUp port s

end Sys2Proof.Machine
end

