-- ==== Sys2Proof/Machine/Firmware.lean ====
section
/-! DEFINITION. Writes at firmware level (00_scope.md R9; 07_shape_system.md R139 to R141, Table 7-6): by firmware, by the power
controller and by the debug agent. Reserved values leave a field as it was (00 R2), res0 bits are dropped (00 R8). -/

namespace Sys2Proof.Machine

/-- Registers of Table 7-6 with a field that firmware writes. -/
def fwWritable (base : Nat) : Bool :=
  [0x008, 0x020, 0x022, 0x024, 0x025, 0x031, 0x032, 0x034, 0x040, 0x041, 0x042, 0x044, 0x045, 0x060, 0x061, 0x062, 0x063, 0x080, 0x082, 0x084,
    0x086, 0x088].contains base || (decide (0x0A0 ≤ base) && decide (base < 0x0D0))

/-- A firmware register of a fibre. -/
def Lane.fwWrite (x : Lane) (base v : Nat) : Lane :=
  if base = 0x020 then { x with sp := BitVec.ofNat 64 (fwField base x.sp.toNat v) }
  else if base = 0x022 then { x with lk := BitVec.ofNat 64 (fwField base x.lk.toNat v) }
  else if base = 0x024 then { x with wbase := fwField base x.wbase v }
  else if base = 0x025 then { x with safecnt := fwField base x.safecnt v }
  else x

/-- A firmware register of a warp. -/
def Warp.fwWrite (w : Warp) (base v : Nat) : Warp :=
  if base = 0x031 then { w with stklim := BitVec.ofNat 32 (fwField base w.stklim.toNat v) }
  else if base = 0x032 then { w with migset := BitVec.ofNat 64 (fwField base w.migset.toNat v) }
  else if base = 0x034 then { w with stkbase := BitVec.ofNat 64 (fwField base w.stkbase.toNat v) }
  else w

/-- The low half of a 64-bit register, when its odd number is written. -/
def fwWord (num old v : Nat) : Nat := if csrBase num = num then v else old / 2 ^ 32 * 2 ^ 32 + v % 2 ^ 32

/-- A firmware register of a context. -/
def Ctx.fwWrite (c : Ctx) (num v : Nat) : Ctx :=
  let base := csrBase num
  if base = 0x008 then { c with faultq := BitVec.ofNat 64 (fwField base c.faultq.toNat (fwWord num c.faultq.toNat v)) }
  else if base = 0x040 then { c with opf := BitVec.ofNat 6 v }
  else if base = 0x041 then { c with accsat := BitVec.ofNat 2 v }
  else if base = 0x042 then { c with dlrem := BitVec.ofNat 64 (fwWord num c.dlrem.toNat v) }
  else if base = 0x044 then { c with ebudget := BitVec.ofNat 32 v }
  else if base = 0x045 then { c with ebrate := BitVec.ofNat 32 v }
  else c

/-- A firmware register of a motif. -/
def Motif.fwWrite (m : Motif) (base v : Nat) : Motif :=
  if base = 0x060 then { m with passcnt := fwField base m.passcnt v }
  else if base = 0x061 then { m with lratio := fwField base m.lratio v }
  else if base = 0x062 then { m with opl := fwField base m.opl v }
  else m

/-- A firmware register of a core, HAZCHK apart. -/
def Core.fwWrite (k : Core) (num v : Nat) : Core :=
  let base := csrBase num
  let d (old : DWord) : DWord := BitVec.ofNat 64 (fwWord num old.toNat v)
  if base = 0x080 then { k with cycf := d k.cycf }
  else if base = 0x082 then { k with issu := d k.issu }
  else if base = 0x084 then { k with mstl := d k.mstl }
  else if base = 0x086 then { k with lbsy := d k.lbsy }
  else if base = 0x088 then { k with st := { k.st with migfallback := d k.st.migfallback } }
  else if 0x0A0 ≤ base ∧ base < 0x0C0 then { k with evc := mset k.evc ((base - 0x0A0) / 2) (d (mget k.evc ((base - 0x0A0) / 2) 0)) }
  else if 0x0C0 ≤ base ∧ base < 0x0D0 then
    { k with evsel := mset k.evsel (base - 0x0C0) (BitVec.ofNat 32 (fwField base (mget k.evsel (base - 0x0C0) 0).toNat v)) }
  else k

/-- A system register is written at firmware level: a fibre's, a warp's, a context's, a motif's or a core's. A write of HAZCHK outside
HALT is ignored (R141); a change of EBUDGET is reported as a debit's is (15_counters.md R316). -/
def fwCsr (s : State) (core slot lane num v : Nat) : State :=
  let base := csrBase num
  match s.warp? core slot with
  | some w =>
    let x := w.lane lane
    let v' := if base = 0x020 then fwWord num x.sp.toNat v else if base = 0x022 then fwWord num x.lk.toNat v
      else if base = 0x032 then fwWord num w.migset.toNat v else if base = 0x034 then fwWord num w.stkbase.toNat v else v
    let s := s.modWarp core slot (fun w => if (mfind w.lanes lane).isSome then (w.modLane lane (fun x => x.fwWrite base v')).fwWrite base v' else w.fwWrite base v')
    budgetReport (s.modCtx core w.launch (fun c => c.fwWrite num v)) core w.launch
  | none => s

/-- A register of the core or of its motif. -/
def fwCore (s : State) (core num v : Nat) : State :=
  if num = 0x063 then (if inHalt s core then s.modCore core (fun k => { k with hazchk := v % 2 = 1 }) else s)
  else if 0x060 ≤ num ∧ num ≤ 0x062 then s.modMotif (core / 8) (fun m => (m.counted s.time).fwWrite num v)
  else s.modCore core (fun k => k.fwWrite num v)

/-- A write at firmware level. -/
def firmwareTurn (s : State) (r : FwReg) (v : DWord) : State :=
  if !s.powered then s
  else match r with
    | .csr core slot lane num =>
      if 256 ≤ core ∨ fwWritable (csrBase num) = false then s
      else if num < 0x060 then fwCsr s core slot lane num v.toNat
      else fwCore s core num v.toNat
    | .shootva p => if p < 16 then writeShootva s p v.toNat else s
    | .shootlen p => if p < 16 then writeShootlen s p v.toNat else s
    | .shootcmd p => if p < 16 then writeShootcmd s p v.toNat else s
    | .shootstat p => if p < 16 then writeShootstat s p v.toNat else s
    | .ecost c => if c < 16 then { s with ecost := mset s.ecost c (v.toNat % 65536) } else s

end Sys2Proof.Machine
end

