-- ==== Sys2Proof/Machine/Turns.lean ====
section
/-! DEFINITION. The turns of the schedule that are no row of the table, and what the machine does when the schedule is
empty (log 1): a selection (13_queues.md R271), an engine's element (09_consistency.md R188), fills and evictions of the
caches (08_memories.md R156, R159, R161; 16_tables.md R324), soft errors (11_banks_matrix.md R225, 12_stacks.md R253), a
torn commit (08 R170), a peer's acknowledgement (10_memory_instructions.md R207), and the passing of TIME (15_counters.md R313). -/

namespace Sys2Proof.Machine

/-! ## Selection -/

/-- A word of a load: majors 0x50 to 0x54 (10_memory_instructions.md R198). -/
def isLoadWord (w : Word) : Bool := decide (0x50 ≤ bits w.toNat 24 7) && decide (bits w.toNat 24 7 ≤ 0x54)

/-- What a release has pushed out leaves the core before it issues anything but a load (10 R207). -/
def releaseSeen (s : State) (core : Nat) (w : Word) : State := if isLoadWord w then s else releaseDue s core

/-- The reads of a page walk, and of a block of instruction words, that meet a reserved tag rewrite the line (12_stacks.md R253, R255). -/
def clearReads (s : State) (pas : List Nat) : State := pas.foldl (fun s pa => if lostByte s pa then clearTagged s pa else s) s

def clearWalk (s : State) (p va : Nat) : State := clearReads s ((walkReads s va (s.part p).root walkLevels).flatMap (upFrom 8))

def clearFetched (s : State) (core p va : Nat) : State :=
  match xlate s core p va with
  | some l => clearReads s (upFrom 128 (l.pa va))
  | none => s

/-- The words of a fetch block enter an instruction cache. -/
def ifillTurn (s : State) (core va : Nat) : State :=
  match s.partOfCore core with
  | none => s
  | some p =>
    let b := va / 128 * 128
    match fetchFar s core p b with
    | .word _ => (clearFetched s core p b).modCore core (fun k => { k with
        icache := (upFrom 32 0).foldl (fun (m : PMap Word) i => match fetchFar s core p (b + 4 * i) with
          | .word w => if (mfind m (b + 4 * i)).isSome then m else mset m (b + 4 * i) w
          | _ => m) k.icache })
    | _ => s

/-- A fetch that reads memory fills its block (08 R159). -/
def fetchRead (s : State) (core pc : Nat) : State :=
  if (mfind (s.core core).icache pc).isSome then s else ifillTurn s core pc

/-- A selected batch's next word is fetched: the instruction to perform, or the fault or the park of the fetch; a cycle in which the
batch parks for its page issues nothing (15 R317). -/
def fetchBatch (s : State) (core sched slot : Nat) (w : Warp) (b : Batch) : State × Option Instr :=
  let s1 := noteSelected s core sched slot b ((candidates s core sched).map (·.1))
  match fetch s core (s.launchPart w.launch) b.pc.toNat with
  | .word x =>
    let s2 := (releaseSeen (fetchRead s1 core b.pc.toNat) core x).setCur core slot w b x
    (if s2.cur.counted then s2 else noteIssue s2 core x.toNat false, some (instrOf x))
  | .fault c => (fetchFault (s1.setCur core slot w b 0) c, none)
  | .absent => (idleCycle (fetchPark (s1.setCur core slot w b 0)) core sched, none)
  | .waits => (idleCycle s core sched, none)

/-- A scheduler's cycle: the batch that it selects, and the instruction that the batch issues. -/
def selectTurn (s : State) (core sched : Nat) : State × Option Instr :=
  match select s core sched with
  | none => (if coreRuns s core then idleCycle (cycle s core) core sched else s, none)
  | some (slot, w, b) => fetchBatch (cycle s core) core sched slot w b

/-- The first scheduler with a batch to issue. -/
def firstReady (s : State) : Option (Nat × Nat) :=
  s.cores.findSome? (fun c => (upFrom 4 0).findSome? (fun k => if (select s c.1 k).isSome then some (c.1, k) else none))

/-! ## Time -/

/-- A core after TIME has passed to `t`: deadlines have counted, naps that are over end, and the multiples of 1,000 that TIME has
reached are due as refills (R313, R315; 06_control_state.md R125). -/
def Core.passed (t n : Nat) (k : Core) : Core :=
  let k := k.woken t
  let st := k.st.tick n
  { k with st := { st with
      ctxs := st.ctxs.map (fun x => (x.1, { x.2 with refills := x.2.refills + (t / 1000 - (t - n) / 1000) })) } }

/-- TIME passes. -/
def passTime (s : State) (n : Nat) : State :=
  { s with time := s.time + n, cores := s.cores.map (fun (c : Nat × Core) => (c.1, c.2.passed (s.time + n) n)) }

/-- The first refill that is due (R315). -/
def firstRefill (s : State) : Option (Nat × Nat) :=
  s.cores.findSome? (fun c => (c.2.st.ctxs.find? (fun x => x.2.refills != 0)).map (fun x => (c.1, x.1)))

/-! ## Engines -/

/-- An engine performs one element of its work, as its kind does; a row operation one line of its segment. -/
def engineTurn (s : State) (op elem : Nat) : State :=
  match mfind s.engines op with
  | none => s
  | some e => match e.kind with
    | .mloop _ _ _ _ _ =>
      if !loopReady s op then s
      else if elem < e.span then mloopStep s op elem
      else mloopStart s op ((elem - e.span) % e.span) ((elem - e.span) / e.span)
    | .bchk _ => bchkAdvance s op
    | .nmx _ _ _ _ => nmxAdvance s op elem
    | .rcopy | .rfill _ | .rbit _ => rowAdvance s op elem
    | .nseg _ _ => nsegRead s op elem
    | .channel _ _ _ _ _ _ => chanAdvance s op elem
    | _ => copyAdvance s op elem

/-! ## Caches and errors -/

/-- A sector fill of a line of local HBM that the partition can read. -/
def fillTurn (s : State) (core pa n : Nat) : State :=
  if paTarget pa == .hbm && decide (pa % 128 + n ≤ 128) && !tagReserved s pa && !lineBusy s pa && (s.core core).power == .active then
    fillSectors s core pa n
  else s

/-- A line leaves the L1; its WRITTEN bytes pass through the egress buffer (R190). -/
def evictTurn (s : State) (core pa : Nat) : State :=
  if egressFull s core then s
  else lineBack s core (pa / 128) ((s.partOfCore core).getD 0) false

def idropTurn (s : State) (core va : Nat) : State :=
  s.modCore core (fun k => { k with icache := k.icache.filter (fun (x : Nat × Word) => x.1 / 128 != va / 128) })

/-- A miss of a core walks the tables, and brings a leaf into its motif's TLB (R324). -/
def tlbFillTurn (s : State) (core va : Nat) : State :=
  match s.partOfCore core with
  | none => s
  | some p =>
    if !walkServes s p va || (tlbFind s (core / 8) p va).isSome then s
    else match walk s p va with
      | some l => countEvent (tlbNote (clearWalk s p va) core p va l) core 0x06 1
      | none => clearWalk s p va

/-- A soft error flips one bit of a bank, or of its scale store: the rows above its 1,024 are the bits of a column's eight bytes
(11 R222, R225). -/
def softErrorTurn (s : State) (core bank row col : Nat) : State :=
  if 64 ≤ bank ∨ 1024 ≤ col then s
  else if row < 1024 then
    let a := bank * 131072 + row * 128 + col / 8
    scratchWrite s core a [memRead (s.core core).st.scratch a ^^^ BitVec.ofNat 8 (2 ^ (col % 8))]
  else if row < 1088 then
    s.modBank core bank (fun b =>
      let i := col * 8 + (row - 1024) / 8
      { b with scale := mset b.scale i (mget b.scale i 0 ^^^ BitVec.ofNat 8 (2 ^ ((row - 1024) % 8))) })
  else s

/-- A soft error gives a line a reserved tag; the bytes that it destroys are zero from then on, but for the L2's (12 R253, R255). -/
def softTagTurn (s : State) (line tag : Nat) : State :=
  if 8 ≤ tag % 16 then
    { s with hbm := memWrites s.hbm (128 * line) (List.replicate 128 0), tags := mset s.tags line (tag % 16) }
  else s

/-- A torn commit leaves an epoch that resume discards (08 R170). -/
def tearTurn (s : State) (core : Nat) : State :=
  s.modCore core (fun k => k.journalled { epochNow s core 0 [] with intact := false })

/-- The core's next atomic loses power between its commit and its request (20_programs_memory_power.md R392). -/
def cutTurn (s : State) (core : Nat) : State :=
  if (s.core core).power = .active then s.modCore core (fun k => { k with cut := .armed }) else s

/-- A full journal buffer makes its core commit, and the journal goes on in the other one; until what that one holds has been
applied, the core issues nothing (R169, R170). -/
def journalFullTurn (s : State) (core : Nat) : State :=
  if (s.core core).power != .active then s
  else if (s.core core).epochs.isEmpty then (if commitWaits s core then s else switchBuffer (commitCore s core 2 []) core)
  else s.modCore core (fun k => { k with journalFull := true })

/-- A mirror write of a dirty line whose slice has power (R162). -/
def mirrorTurn (s : State) (line : Nat) : State :=
  if (mfind s.unmirrored line).isSome && homeServes s (128 * line) then mirrorLine s line else s

end Sys2Proof.Machine
end

