-- ==== Sys2Proof/Machine/Load.lean ====
section
/-! DEFINITION. A program brought in from outside: the state in which the next step fetches a given word (log 3). Where a
batch is about to issue, the word stands in the instruction cache at its address; else the loader places a task of one fibre. -/

namespace Sys2Proof.Machine

/-- Bytes of DRAM written by the loader. -/
def loadBytes (m : Memory) (a n v : Nat) : Memory := memWrites m a (bytesLE n v)

/-- The loader's page table: virtual addresses below 1 GiB translate to physical addresses from 1 GiB on, with every right. -/
def loadTables (m : Memory) : Memory :=
  loadBytes (loadBytes (loadBytes m 0x10000 8 0x11001) 0x11000 8 0x12001) 0x12000 8 0x4000003F

/-- The loader's task header: one warp, 64 registers, span 1. -/
def loadHeader : Header := ⟨List.replicate 104 0 ++ [1, 64, 1] ++ List.replicate 149 0⟩

def loadLaunch (s : State) : Launch :=
  { part := 0, state := .placed, header := loadHeader, images := [], message := [], window := 0, seq := 0, time := s.time, next := 1 }

/-- The loader's warp: lane 0 is READY at its address. -/
def loadWarp (launch group : Nat) : Warp := { launch := launch, group := group, nreg := 64, lanes := [(0, { state := .ready, pc := 0x1000 })] }

/-- The loader's core: one context without metering or deadline, one group, one warp. -/
def loadCore (k : Core) (launch group : Nat) : Core :=
  { k with
    power := .active, stopped := false, resuming := false, gateReq := false
    st := { k.st with
      warps := [(0, loadWarp launch group)]
      ctxs := [(launch, { dlrem := 0xFFFFFFFFFFFFFFFF, ebrate := 0xFFFFFFFF })]
      groups := [(group, { launch := launch, coords := [0, 0, 0, 0, 0], number := 0, warps := [0] })] } }

/-- The task of the loader, with a word as its first instruction. -/
def loadTask (s : State) (w : Nat) : State :=
  let l := s.fresh
  { s with
    fresh := l + 2, released := true
    hbm := loadBytes (loadTables s.hbm) 0x40001000 4 w
    parts := mset s.parts 0 { s.part 0 with state := 1, cores := 1, asid := 1, root := 0x10000 }
    launches := mset s.launches l (loadLaunch s)
    cores := mset s.cores 0 (loadCore (s.core 0) l (l + 1)) }

/-- The address from which a core's scheduler is about to fetch, with the core and the scheduler. -/
def nextFetch (s : State) : Option (Nat × Nat × Nat) :=
  match firstReady s with
  | none => none
  | some (c, k) => (select s c k).map (fun x => (c, k, x.2.2.pc.toNat))

/-- Nothing is due before the next turn. -/
def State.undue (s : State) : State :=
  { s with postsDue := [], held := [], cores := s.cores.map (fun (c : Nat × Core) =>
      (c.1, { c.2 with journalFull := false, st := { c.2.st with ctxs := c.2.st.ctxs.map (fun x => (x.1, { x.2 with refills := 0 })) } })) }

/-- The state whose next step fetches the word `w` (its bits numbered as the table numbers them) and runs it. -/
def State.placeWord (s : State) (w : Nat) : State :=
  let s := s.undue
  match nextFetch s with
  | some (c, k, pc) => { s.modCore c (fun x => { x with icache := mset x.icache pc (BitVec.ofNat 32 w) }) with turns := [.select c k] }
  | none => { loadTask s w with turns := [.select 0 0] }

end Sys2Proof.Machine
end

