-- ==== Sys2Proof/Machine/Round.lean ====
section
/-! DEFINITION. What the machine does by itself when its schedule is empty: a round in which every scheduler with a batch issues,
and everything that the module does unasked has its turn, so that the promises of 01_machine.md R25 are kept (log 1). -/

namespace Sys2Proof.Machine

/-- The schedulers with a batch to issue. -/
def roundSelects (s : State) : List Turn :=
  s.cores.flatMap (fun c => (upFrom 4 0).filterMap (fun k => if (select s c.1 k).isSome then some (.select c.1 k) else none))

/-- The event that ends a lane's wait, where the module brings it about. -/
def roundLane (core slot : Nat) (x : Lane) : List Own :=
  if x.state != .parked then []
  else match x.park with
    | .switchMark | .persist | .leaving | .pager | .pagerDone _ => [.parks core slot]
    | .cwait _ _ | .cwaitMet _ => [.cwait core slot x.tag]
    | .queue _ _ => [.queue core slot x.tag]
    | .lbwait g _ => [.lacing core g]
    | .fetch _ | .stackPage _ => [.page core slot]
    | _ => []

/-- What a warp waits for: results, parks, its stream, its handler, a stage. -/
def roundWarp (core slot : Nat) (w : Warp) : List Own :=
  w.pend.map (fun r => .result core slot r.id) ++ w.lanes.flatMap (fun x => roundLane core slot x.2) ++
  (if w.stream.isSome then [.stream core slot] else []) ++ (if w.retryAt.isSome then [.handler core slot] else []) ++
  (if w.isGuest then [] else [.stage core slot])

/-- What happens on a core by itself. -/
def roundCore (c : Nat) (k : Core) : List Own :=
  k.st.warps.flatMap (fun w => roundWarp c w.1 w.2) ++
  k.st.groups.flatMap (fun g => [.save c g.1, .groupEnd c g.1]) ++
  k.st.ctxs.map (fun x => .deadline c x.1) ++
  k.holds.map (fun h => .hold c h.id) ++
  (k.st.banks.filter (fun b => b.2.clearing)).map (fun b => .clear c b.1) ++
  (k.restoring.take 1).map (fun b => .reload c b) ++
  (if k.egress.isEmpty then [] else [.drain c]) ++ (if k.epochs.isEmpty then [] else [.apply c]) ++
  (if k.st.shuttles.isEmpty then [] else .guest c :: k.st.shuttles.map (fun x => .bounce c x.g.gtag)) ++
  (if k.gateReq then [.gate c] else [])

/-- A gated core of an ACTIVE partition is needed: it holds groups or shuttles, a shuttle is on its way to it, or a launch of the
partition, a group to be placed again or a saved group waits for a core. -/
def coreWanted (s : State) (c : Nat) (k : Core) : Bool :=
  match s.partOfCore c with
  | none => false
  | some p => (s.part p).state == 1 &&
    (!k.st.groups.isEmpty || !k.st.shuttles.isEmpty || s.transit.any (fun x => x.target == c) ||
      s.launches.any (fun l => l.2.part == p && (l.2.state == .ordered || !l.2.replace.isEmpty)) ||
      s.saved.any (fun x => s.launchPart x.2.launch == p))

/-- The module is in STANDBY: every motif is gated (16_tables.md R335). -/
def allGated (s : State) : Bool := (upFrom 32 0).all (fun m => !(s.motif m).powered)

/-- Power comes back by itself: to a core that has lost it or that is needed, and, outside STANDBY, to a motif while a partition is
ACTIVE. The spec names no trigger for either (log 108). -/
def roundPower (s : State) : List Own :=
  ((upFrom 32 0).filter (fun m => !(s.motif m).loaded && !allGated s && s.parts.any (fun p => p.2.state == 1))).map .restore ++
  ((upFrom 256 0).filter (fun c => (s.core c).resuming || ((s.core c).power != .active && coreWanted s c (s.core c)))).map .resume

/-- The events of an engine operation. -/
def roundEngine (op : Nat) : List Own :=
  [.bankEnd op, .segment op, .copyFail op, .copyEnd op, .loopEnd op, .checkEnd op, .stackEnd op, .chanEnd op]

/-- What happens between cores by itself: shuttles, forwarded debits and reports, channels, launches, dumps, shootdowns. -/
def roundModule (s : State) : List Own :=
  s.engines.flatMap (fun e => roundEngine e.1) ++ (s.channels.filter (fun c => c.2.busy)).map (fun c => .channel c.1) ++
  s.transit.map (fun x => if x.settled then .resend x.id else if x.homeward then .home x.id else .arrive x.g.gtag) ++
  s.debits.map (fun _ => .debit) ++ s.reports.map (fun _ => .report) ++
  s.launches.map (fun l => .launch l.1) ++
  s.parts.flatMap (fun p => [.place p.1, .dump p.1, .shoot p.1, .token p.1]) ++
  s.motifs.flatMap (fun m => [.phase m.1, .window m.1])

/-- One round of the machine by itself; then TIME passes. -/
def round (s : State) : List Turn :=
  roundSelects s ++ s.unmirrored.map (fun x => .mirror x.1) ++ (roundPower s ++ s.cores.flatMap (fun c => roundCore c.1 c.2) ++ roundModule s).map (fun o => .own o) ++ [.pass 1]

end Sys2Proof.Machine
end

