-- ==== Sys2Proof/Machine/Step.lean ====
section
/-! DEFINITION. One step of the module (log 1): a post that a store has made due (13_queues.md R264), else a loss of power that falls inside an atomic (20 R392), else a refill that TIME has
made due (15_counters.md R315), else a store whose wait at its home has ended (09_consistency.md R187), else the next turn of the schedule, else a round of what the machine does by itself. -/

namespace Sys2Proof.Machine

/-- A row of the table that happens by itself: it has no encoding and is no word. -/
def isEvent (i : Instr) : Bool :=
  match i with
  | .illegalOpWord _ => false
  | i => (encodeNat i).isNone

/-- The instruction that a selection issues, if any. -/
def issued (r : State × Option Instr) : Host.Outcome State Fault Refusal :=
  match r.2 with
  | some i => exec i r.1
  | none => .next r.1

/-- What the module does by itself is done as its event of the table. -/
def runOwn (o : Own) (s : State) : Host.Outcome State Fault Refusal :=
  match o with
  | .result c w r => execClassDResult c w r s
  | .parks c w => execSParkRelease c w 0xFFFFFFFF s
  | .cwait c w t => execCwaitRelease c w t s
  | .queue c w t => execQueueParkRelease c w t s
  | .lacing c g => execLbwaitRelease c g s
  | .page c w => execFetchRetry c w s
  | .stream c w => execStreamWord c w s
  | .handler c w => execHandlerPostRetry c w s
  | .stage c w => execStageReassign c w s
  | .save c g => execPreemptionSave c g s
  | .groupEnd c g => execGroupEnd c g s
  | .deadline c l => execDeadlineExpiry c l s
  | .hold c h => execHoldGrant c h s
  | .clear c b => execBankClearDone c b s
  | .reload c b => execBankReload c b s
  | .drain c => execEgressDrain c s
  | .apply c => execJournalApply c s
  | .guest c => execGuestPlacement c s
  | .bounce c g => execShuttleBounce c g s
  | .gate c => execCoreGate c s
  | .resume c => execCoreResume c s
  | .restore m => execMotifRestore m s
  | .segment op => execRowSegment op s
  | .copyEnd op => execCopyCompletion op s
  | .copyFail op => execCopyFailure op s
  | .loopEnd op => execMloopCompletion op s
  | .checkEnd op => execBchkCompletion op s
  | .bankEnd op => execBankRunComplete op s
  | .stackEnd op => execStackEngineCompletion op s
  | .chanEnd op => execChannelCopyCompletion op s
  | .channel ch => execChannelRecord ch s
  | .arrive g => execShuttleArrival g s
  | .home i => execHomeArrival i s
  | .resend i => execShuttleResend i s
  | .debit => execGuestDebit 0 s
  | .report => execEbudgetReport 0 s
  | .launch l => execDependencyMet l s
  | .place p => execGroupPlacement p s
  | .dump p => execDumpWrite p s
  | .shoot p => execShootdownDone p s
  | .token p => execDebugTokenExpiry p s
  | .phase m => execStepPhaseEnd m s
  | .window m => execSensitivityWindow m s

/-- One turn. -/
def runTurn (t : Turn) (s : State) : Host.Outcome State Fault Refusal :=
  match t with
  | .own o => runOwn o s
  | .select core sched => issued (selectTurn s core sched)
  | .act i => if isEvent i then exec i s else .next s
  | .engine op e => .next (engineTurn s op e)
  | .fill c pa n => .next (fillTurn s c pa n)
  | .evict c pa => .next (evictTurn s c pa)
  | .evictL2 pa => .next (sendLine s (pa / 128))
  | .mirror ln => .next (mirrorTurn s ln)
  | .ifill c va => .next (ifillTurn s c va)
  | .idrop c va => .next (idropTurn s c va)
  | .tlbFill c va => .next (tlbFillTurn s c va)
  | .tlbDrop m i => .next (s.modMotif m (fun x => { x with tlb := x.tlb.eraseIdx i }))
  | .softError c b r k => .next (softErrorTurn s c b r k)
  | .softTag ln t => .next (softTagTurn s ln t)
  | .tear c => .next (tearTurn s c)
  | .cut c => .next (cutTurn s c)
  | .journalFull c => .next (journalFullTurn s c)
  | .peerAck p => .next (s.modPeer p (fun x => { x with sent := [] }))
  | .firmware r v => .next (firmwareTurn s r v)
  | .pass n => .next (passTime s n)

/-- Before anything but a selection or a turn of caches and of time, what releases have pushed out leaves its core (10_memory_instructions.md R207). -/
def Turn.seen : Turn → Bool
  | .own _ | .act _ | .engine _ _ | .tear _ | .journalFull _ | .firmware _ _ => true
  | _ => false

def beforeTurn (t : Turn) (s : State) : State :=
  if t.seen then s.cores.foldl (fun s c => releaseDue s c.1) s else s

/-- The next turn of a schedule; an empty one begins a round of the machine by itself. -/
def runNext (s : State) : Host.Outcome State Fault Refusal :=
  match s.turns with
  | t :: ts => runTurn t (beforeTurn t { s with turns := ts })
  | [] => match round s with
    | t :: ts => runTurn t (beforeTurn t { s with turns := ts })
    | [] => .next s

/-- Before a step, the free-value counter advances, and every parked CWAIT has seen the counters as they stand (15_counters.md R301). -/
def State.begun (s : State) : State := latchWaits { s with free := s.free + 1 }

/-- A core that loses power between the commit and the request of an atomic. -/
def State.cutDue (s : State) : Option Nat := (s.cores.find? (fun c => c.2.cut == .due)).map (·.1)

/-- One step: the next thing happens. -/
def step (s : State) : Host.Outcome State Fault Refusal :=
  let s1 := s.begun
  match s.postsDue with
  | (_, p, w, _) :: _ => exec (.storePost p w) s1
  | [] => match s.cutDue with
    | some c => execCorePowerLoss c s1
    | none => match firstRefill s with
      | some (c, l) => execEnergyRefill c l s1
      | none => match heldDue s1 with
        | some i => .next (performHeld s1 i)
        | none => runNext s1

/-- The state in which that instruction is the next that `step` fetches (log 3): every instruction is one 32-bit word. -/
def State.withFetchWord (s : State) (_nbits w : Nat) : State := s.placeWord w

end Sys2Proof.Machine
end

