-- ==== Sys2Proof/WellFormed.lean ====
section
/-! DEFINITION. Well-formed instructions: those that a word of a program can hold and that raise no ILLEGAL_OP by their
encoding alone (03_instruction_words.md R55, R56, R59, R60). -/

namespace Sys2Proof

/-- What keeps an instruction from being well formed. -/
inductive WfError where
  /-- An event or a command: no word encodes it. -/
  | noWord
  /-- The guard that is never true (R59). -/
  | neverGuard
  /-- An encoded operand that is illegal (R56, R60): an odd pair, a mask above m11, a reserved value of a coded field. -/
  | illegalOperand
  deriving DecidableEq, Repr

/-- A word whose guard can never be true (R51, R59). -/
def neverGuarded (w : Nat) : Bool := guarded w && Machine.bits w 23 1 == 1 && Machine.bits w 20 3 == 0

/-- The first check that an instruction fails. -/
def wfError (i : Instr) : Option WfError :=
  match encodeNat i with
  | none => some .noWord
  | some w => if neverGuarded w then some .neverGuard else if Machine.legal i then none else some .illegalOperand

/-- An instruction is well formed. -/
def Instr.wf (i : Instr) : Bool := (wfError i).isNone

end Sys2Proof
end

