-- ==== Sys2Proof/Safety.lean ====
section
/-! DEFINITION. The terms in which claims speak: what a batch must meet for its instruction to be performed, what an
instruction leaves alone, and the invariant of the memories. The spec gives the machine no stop, so that a safe run is one
whose every step answers a next state. -/

namespace Sys2Proof.Machine

/-! ## The invariant of the memories (08_memories.md R165) -/

/-- DRAM is in its canonical form. -/
def State.dramOk (s : State) : Bool := Memory.wf s.hbm

/-- Every scratchpad, with its images in journals and save slots, is in its canonical form. -/
def Epoch.scratchOk (e : Epoch) : Bool := Memory.wf e.snap.scratch
def Core.scratchOk (k : Core) : Bool := Memory.wf k.st.scratch && k.image.scratchOk && k.epochs.all Epoch.scratchOk
def State.scratchOk (s : State) : Bool :=
  s.cores.all (fun c => c.2.scratchOk) && s.saved.all (fun x => Memory.wf x.2.scratch)

/-- Both memories are canonical: equal memories are equal data. -/
def State.memOk (s : State) : Bool := s.dramOk && s.scratchOk

/-! ## When an instruction is performed (03_instruction_words.md R51, R54, R58, R63; 06_control_state.md R126) -/

/-- A register that a lane reads is not poisoned (04_fibre_registers.md R74). -/
def unpoisoned (x : Lane) (i : Nat) : Bool := i == 0 || (mfind x.poison (x.wbase + i)).isNone

/-- The instruction in progress meets no fault before its effect: a batch of READY fibres, none of its warp FAULTED, some guard true,
encoding, hints and registers legal, hazard checks off, no source poisoned, nor one read for the leader alone (05_float_registers.md R102), the distance from its last safe point exhausted for no
member that an earlier attempt has not counted; a guest names registers that it carries, and an instruction that a guest may perform (14_shuttles.md R289, R290). -/
def performs (f : Form) (s : State) : Bool :=
  !s.cur.stream && (s.warp? s.cur.core s.cur.slot).isSome && (!s.curWarp.isGuest || f.guestOk) &&
  s.members.all (fun l => (s.curLane l).state == .ready &&
    ((f.isSafe && s.guard f.h l) || (s.curLane l).counted || decide ((s.curLane l).safecnt + 1 + s.cur.hints.length ≤ 2048))) &&
  (lanesIn s.curWarp (· == .faulted)).isEmpty && !(s.active f.h).isEmpty &&
  !hazOn s s.cur.core && f.legal s &&
  (s.active f.h).all (fun l => (f.srcs s).all (unpoisoned (s.curLane l)) && (f.srcs s ++ f.lead ++ f.dst).all (fun i => !guestLacks (s.curLane l) i)) &&
  f.lead.all (unpoisoned (s.curLane ((s.active f.h).headD 0)))

/-- No member of the batch is a guest. -/
def atHome (s : State) : Bool := s.members.all (fun l => (s.curLane l).guest.isNone)

/-- The same for a persist point (09_consistency.md R191): nothing that a commit waits for is outstanding. -/
def performsPersist (f : Form) (s : State) : Bool :=
  performs f s && !pendingPersist s.curWarp (lanesMask (s.active f.h)) && !commitWaits s s.cur.core

/-! ## Frames -/

/-- The warp of the instruction in progress is resident. -/
def Home (s : State) : Prop := (s.warp? s.cur.core s.cur.slot).isSome = true


/-- A context apart from its energy account (15_counters.md R315). -/
def Ctx.account (c : Ctx) : Ctx := { c with ebudget := 0, reported := true }

/-- A lane apart from its control state, its general registers and its predicates. -/
def Lane.rest (x : Lane) : Lane :=
  { x with state := .empty, park := .none, pc := 0, pw := 1, regs := [], poison := [], safecnt := 0, hints := [], hpc := 0,
           tag := 0, counted := false, bounced := false, owed := [], age := 0, defer := 0 }

/-- A warp apart from its lanes, its pending results and its masks. -/
def Warp.rest (w : Warp) : Warp := { w with lanes := [], pend := [], m := [] }

/-- From `s` to `t` only the issuing warp changes, with the energy account of its context, the event counters of its core
and the machine's counters of identities and of reports on their way. -/
structure OnlyWarp (s t : State) : Prop where
  rest : ∃ cs fr rep deb, t = { s with cores := cs, fresh := fr, reports := rep, debits := deb }
  others : ∀ c, c ≠ s.cur.core → mfind t.cores c = mfind s.cores c
  core : ∃ ws cx ev, t.core s.cur.core =
    { s.core s.cur.core with st := { (s.core s.cur.core).st with warps := ws, ctxs := cx }, evc := ev }
  warps : ∀ k, k ≠ s.cur.slot → t.warp? s.cur.core k = s.warp? s.cur.core k
  ctxs : ∀ k, ((t.core s.cur.core).st.ctx? k).map Ctx.account = ((s.core s.cur.core).st.ctx? k).map Ctx.account

/-- From `s` to `t` the issuing warp keeps its registers, its pending results, its scalar and group registers, and each lane
its stack, link and identity: only the control state of lanes changes (READY, parked, program counter, hints, safe-point
count), and a mask that releases is cleared (06_control_state.md R117). -/
structure Calm (s t : State) : Prop where
  out : OnlyWarp s t
  home : (t.warp? s.cur.core s.cur.slot).isSome = (s.warp? s.cur.core s.cur.slot).isSome
  warp : t.curWarp.rest = s.curWarp.rest
  lanes : ∀ l, (t.curLane l).rest = (s.curLane l).rest
  regs : ∀ l, (t.curLane l).regs = (s.curLane l).regs ∧ (t.curLane l).poison = (s.curLane l).poison ∧ (t.curLane l).pw = (s.curLane l).pw
  pend : t.curWarp.pend = s.curWarp.pend
  masks : ∀ k, t.curWarp.mask k = s.curWarp.mask k ∨ t.curWarp.mask k = 0
  /-- No lane enters FAULTED. -/
  sound : ∀ l, (t.curLane l).state = .faulted → (s.curLane l).state = .faulted

/-- The members stand at the instruction after the one in progress, and hold no hint (06_control_state.md R111;
03_instruction_words.md R58). -/
def AtNext (s t : State) : Prop :=
  ∀ l, l ∈ s.members → (t.curLane l).pc = nextPc s.cur.pc ∧ (t.curLane l).hints = []

/-- The instruction in progress is counted and debited and its members stand after it: the state on which its effect acts. -/
def Issued (s u : State) : Prop := Calm s u ∧ AtNext s u

/-- The state in which an instruction's own checks are made, and the state on which its effect acts. -/
def State.charged (s : State) (f : Form) : State := charge s f s.members
def State.issued (s : State) (f : Form) : State := advance (s.charged f) s.members

/-- The instruction in progress is performed: its effect acts on the state after issue, and the checks that follow every
instruction end it (`finish`: masks that release, R117; the S park, 03_instruction_words.md R52). -/
def Does (f : Form) (s t : State) (effect : State → State) : Prop :=
  t = finish (effect (s.issued f)) f ((s.active f.h).headD 0) s.members []

/-- Only registers, predicates and pending results of the issuing warp change beside the control state of its members. -/
structure Advanced (s t : State) : Prop where
  out : OnlyWarp s t
  warp : t.curWarp.rest = s.curWarp.rest
  lanes : ∀ l, (t.curLane l).rest = (s.curLane l).rest
  masks : ∀ k, t.curWarp.mask k = s.curWarp.mask k ∨ t.curWarp.mask k = 0
  next : AtNext s t

/-- Registers and predicates written at once (class Z, 03_instruction_words.md R52, R53), and no others; a register that is
written loses its poison mark (04_fibre_registers.md R74). -/
structure WritesZ (s t : State) (ls : List Nat) (g : Nat → Nat → Option Word) (p : Nat → Nat → Option Bool) : Prop where
  adv : Advanced s t
  regs : ∀ l i, 0 < i → t.g l i = if l ∈ ls then (g l i).getD (s.g l i) else s.g l i
  poison : ∀ l i, 0 < i → unpoisoned (t.curLane l) i = ((decide (l ∈ ls) && (g l i).isSome) || unpoisoned (s.curLane l) i)
  /-- The registers below the window. -/
  deep : ∀ l r, r ≤ (s.curLane l).wbase → mget (t.curLane l).regs r 0 = mget (s.curLane l).regs r 0
  preds : ∀ l k, 0 < k → t.p l k = if l ∈ ls then (p l k).getD (s.p l k) else s.p l k

/-- Each active member writes one word register. -/
def WritesWord (f : Form) (s t : State) (d : BitVec 6) (v : Nat → Word) : Prop :=
  WritesZ s t (s.active f.h) (fun l i => if i = d.toNat then some (v l) else none) (fun _ _ => none)

/-- Each active member writes a pair: the low word in the register named, the high word in the next (04 R69). -/
def WritesPair (f : Form) (s t : State) (d : BitVec 6) (v : Nat → DWord) : Prop :=
  WritesZ s t (s.active f.h)
    (fun l i => if i = d.toNat then some (loWord (v l)) else if i = d.toNat + 1 then some (hiWord (v l)) else none) (fun _ _ => none)

/-- Each active member writes one predicate. -/
def WritesPred (f : Form) (s t : State) (q : BitVec 4) (v : Nat → Bool) : Prop :=
  WritesZ s t (s.active f.h) (fun _ _ => none) (fun l k => if k = q.toNat then some (v l) else none)

/-- A branch: the members stand where `pc` says, at most one trace entry is written (15_counters.md R319, R320), and no register changes. -/
structure Jumps (s t : State) (pc : Nat → DWord) : Prop where
  rest : ∃ cs fr rep deb, t = { s with cores := cs, fresh := fr, reports := rep, debits := deb }
  others : ∀ c, c ≠ s.cur.core → mfind t.cores c = mfind s.cores c
  core : ∃ ws cx tr tc ta ev, t.core s.cur.core =
    { s.core s.cur.core with
      st := { (s.core s.cur.core).st with warps := ws, ctxs := cx, trace := tr, traceCount := tc, traceAt := ta }
      evc := ev } ∧
    (s.core s.cur.core).st.traceCount ≤ tc ∧ tc ≤ (s.core s.cur.core).st.traceCount + 1
  warps : ∀ k, k ≠ s.cur.slot → t.warp? s.cur.core k = s.warp? s.cur.core k
  warp : t.curWarp.rest = s.curWarp.rest
  lanes : ∀ l, (t.curLane l).rest = (s.curLane l).rest
  regs : ∀ l, (t.curLane l).regs = (s.curLane l).regs ∧ (t.curLane l).poison = (s.curLane l).poison ∧ (t.curLane l).pw = (s.curLane l).pw
  pend : t.curWarp.pend = s.curWarp.pend
  masks : ∀ k, t.curWarp.mask k = s.curWarp.mask k ∨ t.curWarp.mask k = 0
  pcs : ∀ l, l ∈ s.members → (t.curLane l).pc = pc l ∧ (t.curLane l).hints = []

/-- What a pending result will do. -/
def PRes.effect (r : PRes) : Word × List Eff × OpFlags := (r.lanes, r.effs, r.flags)

/-- The words that a stream may hold, hints included (03_instruction_words.md R64, rule 1). -/
def mayStream : Instr → Bool
  | .sopAdd _ _ _ _ | .sopSub _ _ _ _ | .sopMul _ _ _ _ | .sopAnd _ _ _ _ | .sopOr _ _ _ _ | .sopXor _ _ _ _ | .sopShl _ _ _ _ | .sopShr _ _ _ _ => true
  | .acpy _ _ _ _ _ | .acpym _ _ _ _ _ | .afill _ _ _ _ | .agthr _ _ _ _ _ _ | .chain _ _ _ | .mloop _ _ _ _ _ _ => true
  | .rcopy _ _ _ _ | .rfill _ _ _ _ | .rbitAnd _ _ _ _ _ | .rbitOr _ _ _ _ _ | .rbitMaj3 _ _ _ _ _ | .rbitNot _ _ _ _ | .rbitXor _ _ _ _ _ => true
  | .nmx _ _ _ _ _ | .nseg _ _ _ _ _ _ _ => true
  | .cwait _ _ _ _ | .ctest _ _ _ _ | .bwarr _ _ _ | .lbarv _ _ => true
  | .immx _ | .opndReg _ | .opndPred _ | .modr _ _ _ _ _ _ _ | .schd _ _ | .ecls _ => true
  | _ => false

/-- The bytes that the loads of some members see, one member after the other (10_memory_instructions.md R195): what one load leaves in the L1
the next finds there. The addresses are those found at issue. -/
def loadedBytes (m : MemForm) (u v : State) : List Nat → List (Nat × List Byte)
  | [] => []
  | l :: ls =>
    let w := whoOf u u.cur.core u.cur.slot l
    (l, readHalves v w u.modrCp (m.halves u l)) :: loadedBytes m u (readPast v w u.modrCp (m.halves u l)) ls

/-- Loads: results left pending, at most one trace entry, and nothing else changed; in particular no byte of memory. Of the copies that the
L1 holds SHARED some may be dropped, and others filled with what the core sees beneath them (08_memories.md R173; 09_consistency.md R176). -/
structure LoadsOnly (s t : State) (es : List (Word × List Eff × OpFlags)) : Prop where
  rest : ∃ cs fr rep deb, t = { s with cores := cs, fresh := fr, reports := rep, debits := deb }
  others : ∀ c, c ≠ s.cur.core → mfind t.cores c = mfind s.cores c
  core : ∃ ws cx tr tc ta ev sh, t.core s.cur.core =
    { s.core s.cur.core with
      st := { (s.core s.cur.core).st with warps := ws, ctxs := cx, trace := tr, traceCount := tc, traceAt := ta }
      evc := ev, l1s := sh } ∧
    (∀ a v, mfind sh a = some v → mfind (s.core s.cur.core).l1s a = some v ∨ v = coreByte s s.cur.core false a)
  warps : ∀ k, k ≠ s.cur.slot → t.warp? s.cur.core k = s.warp? s.cur.core k
  warp : t.curWarp.rest = s.curWarp.rest
  lanes : ∀ l, (t.curLane l).rest = (s.curLane l).rest
  regs : ∀ l, (t.curLane l).regs = (s.curLane l).regs ∧ (t.curLane l).poison = (s.curLane l).poison ∧ (t.curLane l).pw = (s.curLane l).pw
  masks : ∀ k, t.curWarp.mask k = s.curWarp.mask k ∨ t.curWarp.mask k = 0
  next : AtNext s t
  pend : ∃ rs, t.curWarp.pend = s.curWarp.pend ++ rs ∧ rs.map PRes.effect = es ∧ ∀ r, r ∈ rs → r.ready = true

/-- Every active member's access passes the checks of Table 10-1 and is performed where the batch runs: no migration, no wait
for an engine or the egress buffer, no line with a reserved tag (10_memory_instructions.md R196; 09_consistency.md R187,
R190; 12_stacks.md R253; 14_shuttles.md R284). -/
def accessesHere (m : MemForm) (egress reads : Bool) (f : Form) (s : State) : Bool :=
  [s.charged f, s.issued f].all (fun u => (s.active f.h).all (fun l =>
    (match m.check u l with | .ok _ => true | .error _ => false) && m.dest u l == .stay)) &&
  (accessWait (s.charged f) (m.kind == .load) egress s.modrCp m.nib (m.halves (s.charged f)) (s.active f.h)).isNone &&
  (!reads || (s.active f.h).all (fun l => !m.lost (s.issued f) l))

/-- The state in which the accesses of an instruction are made: none of its members is refused a shuttle. -/
def State.accessing (s : State) (f : Form) : State := clearBounced (countFallback (s.issued f) 0) (s.active f.h)

/-- Accesses as `perform` makes them; then a sample of the trace ring (15_counters.md R320). -/
def accessed (f : Form) (m : MemForm) (s : State) (perform : State → State) (u : State) : State :=
  let ls := s.active f.h
  memSample (perform (clearBounced (countFallback u 0) ls)) ls (m.addr u) m.size (m.kind != .load)

/-- The same for stores; one that posts a message is a persist point (13_queues.md R264; 09_consistency.md R191). -/
def storesHere (m : MemForm) (f : Form) (s : State) : Bool :=
  accessesHere m true false f s && (!m.posts (s.charged f) (s.active f.h) ||
    (!pendingPersist s.curWarp (lanesMask (s.active f.h)) && !commitWaits s s.cur.core))

/-- Stores as `perform` makes them, after the commit of one that posts a message; the members that find no room in the egress buffer
wait, and a buffer found full commits and drains (09_consistency.md R190). -/
def stored (f : Form) (m : MemForm) (s : State) (perform : State → State × List Nat) (u : State) : State :=
  let ls := s.active f.h
  let v := clearBounced (countFallback u 0) ls
  let r := perform (if m.posts u ls then persistPoint v v.cur.core [] else v)
  storesOut (memSample r.1 (ls.filter (fun l => !r.2.contains l)) (m.addr u) m.size true, r.2)

/-- A byte of global memory lies in a half of a store, or in the line that a store through the egress buffer takes out of the
L1 (09_consistency.md R176, R179). -/
def Half.touches (w : Who) (cp : Nat) (nib : Bool) (x : Half) (pa : Nat) : Bool :=
  match x.spot with
  | .glob p _ => if viaEgress w cp nib x then pa / 128 == p / 128 else decide (p ≤ pa ∧ pa < p + x.len)
  | .bank _ _ _ => false

/-- A byte of a scratchpad lies in a half of a store. -/
def Half.touchesBank (x : Half) (core off : Nat) : Bool :=
  match x.spot with
  | .glob _ _ => false
  | .bank c o _ => c == core && decide (o ≤ off ∧ off < o + x.len)

/-- Results left pending (class D), and nothing written before they are: for each its lanes, its effects and its flags. -/
structure PendsResults (s t : State) (es : List (Word × List Eff × OpFlags)) : Prop where
  adv : Advanced s t
  regs : ∀ l, (t.curLane l).regs = (s.curLane l).regs ∧ (t.curLane l).poison = (s.curLane l).poison ∧ (t.curLane l).pw = (s.curLane l).pw
  pend : ∃ rs, t.curWarp.pend = s.curWarp.pend ++ rs ∧ rs.map PRes.effect = es ∧ ∀ r, r ∈ rs → r.ready = true

/-- One result for each lane, with its flags; a result without destination and flags is none. -/
def Pends (s t : State) (ls : List Nat) (effs : Nat → List Eff) (fl : Nat → OpFlags) : Prop :=
  PendsResults s t ((ls.filter (fun l => !((effs l).isEmpty && fl l == 0))).map (fun l => (lanesMask [l], effs l, fl l)))

/-- One scalar register of the warp written at once (04_fibre_registers.md R72), and no other register. -/
structure WritesScalar (s t : State) (d : BitVec 6) (v : Word) : Prop where
  out : OnlyWarp s t
  warp : { t.curWarp.rest with s := [] } = { s.curWarp.rest with s := [] }
  lanes : ∀ l, (t.curLane l).rest = (s.curLane l).rest
  masks : ∀ k, t.curWarp.mask k = s.curWarp.mask k ∨ t.curWarp.mask k = 0
  next : AtNext s t
  regs : ∀ l i, t.g l i = s.g l i
  poison : ∀ l, (t.curLane l).poison = (s.curLane l).poison
  preds : ∀ l k, t.p l k = s.p l k
  scal : ∀ r, t.sr r = if r = d.toNat then v else s.sr r

/-- Each active member has one pending word, with the flags of its operation (07_shape_system.md R141). -/
def PendsWord (f : Form) (s t : State) (d : BitVec 6) (v : Nat → Word × OpFlags) : Prop :=
  Pends s t (s.active f.h) (fun l => effG s.curWarp l d.toNat (v l).1) (fun l => (v l).2)

/-- Each active member has one pending pair, with the flags of its operation. -/
def PendsPair (f : Form) (s t : State) (d : BitVec 6) (v : Nat → DWord × OpFlags) : Prop :=
  Pends s t (s.active f.h) (fun l => effGd s.curWarp l d.toNat (v l).1) (fun l => (v l).2)

/-- Each active member has one pending predicate, with the flags of its operation. -/
def PendsPred (f : Form) (s t : State) (q : BitVec 4) (v : Nat → Bool × OpFlags) : Prop :=
  Pends s t (s.active f.h) (fun l => effP l q.toNat (v l).1) (fun l => (v l).2)

/-! ## Values that the rules define -/

/-- The position, the length and the mask of a bit field (04_fibre_registers.md R81). -/
def fieldPos (y : Word) : Nat := (y.extractLsb' 0 5).toNat
def fieldLen (y : Word) : Nat := min (y.extractLsb' 8 6).toNat (32 - fieldPos y)
def fieldMask (y : Word) : Word := BitVec.ofNat 32 (2 ^ fieldLen y - 1)

/-- The byte that PERM takes from eight bytes by a selector nibble: bit 3 asks for its sign (04 R82). -/
def permutedByte (bytes : BitVec 64) (nib : BitVec 4) : Byte :=
  let b := bytes.extractLsb' (8 * (nib.toNat % 8)) 8
  if nib.msb then (if b.msb then 0xFF else 0) else b

/-- The integer condition codes of Table 3-7. -/
def condition (c : BitVec 4) (x y : Word) : Bool :=
  match c.toNat with
  | 0 => x == y
  | 1 => x != y
  | 2 => x.slt y
  | 3 => x.sle y
  | 4 => y.slt x
  | 5 => y.sle x
  | 6 => x.ult y
  | 7 => x.ule y
  | 8 => y.ult x
  | 9 => y.ule x
  | 10 => x &&& y != 0
  | _ => false

/-- The lesser or the greater of two .f32 codes: -0 lies below +0, and a NaN gives way (05_float_registers.md R94). -/
def lesserOrGreater (greater : Bool) (x y : Word) : Word × OpFlags :=
  let below := fun a b : Word => cmpVal (f32v a) (f32v b) == .lt || (cmpVal (f32v a) (f32v b) == .eq && a.msb && !b.msb)
  (if (f32v x).isNan && (f32v y).isNan then 0x7FC00000
    else if (f32v x).isNan then y
    else if (f32v y).isNan then x
    else if greater then (if below x y then y else x)
    else (if below y x then y else x),
    OpFlags.when ((f32v x).isSnan || (f32v y).isSnan) .nv)

/-- A .f32 code with the sign given; a NaN becomes the canonical NaN (05 R95). -/
def signed (x : Word) (negative : Bool) : Word × OpFlags :=
  if (f32v x).isNan then (0x7FC00000, OpFlags.when (f32v x).isSnan .nv)
  else ((x &&& 0x7FFFFFFF) ||| (if negative then 0x80000000 else 0), 0)

/-- A .f32 value rounded to an integral one; zeros and infinities stay (05 R100). -/
def integral (md : RMode) (x : Word) : Word × OpFlags :=
  match f32v x with
  | .nan _ signalling => (0x7FC00000, OpFlags.when signalling .nv)
  | .inf _ => (x, 0)
  | .fin n m e =>
    let r := roundToInt md n m e
    (BitVec.ofNat 32 (FFmt.f32.round .rn false (.fin n r.1.natAbs 0)).1, OpFlags.when r.2 .nx)

/-- The width of the segments that a SHFL operand names, and the first lane of a lane's segment (05 R106). -/
def segment (n : Nat) : Nat := 32 / 2 ^ min (n / 256 % 8) 5
def segmentBase (n l : Nat) : Nat := l - l % segment n

/-! ## Completion: an instruction whose issue meets `performs` answers a next state, and what that state holds -/

/-- The instruction `i` of form `f` completes with `P`. -/
def Completes (f : Form) (i : Instr) (s : State) (P : State → Prop) : Prop :=
  performs f s = true → ∃ t, exec i s = .next t ∧ P t

/-- It completes with one word in class Z for each active member. -/
def GivesWord (f : Form) (i : Instr) (s : State) (d : BitVec 6) (v : Nat → Word) : Prop :=
  Completes f i s (fun t => WritesWord f s t d v)
/-- It completes with one pair in class Z for each active member. -/
def GivesPair (f : Form) (i : Instr) (s : State) (d : BitVec 6) (v : Nat → DWord) : Prop :=
  Completes f i s (fun t => WritesPair f s t d v)
/-- It completes with one predicate in class Z for each active member. -/
def GivesPred (f : Form) (i : Instr) (s : State) (q : BitVec 4) (v : Nat → Bool) : Prop :=
  Completes f i s (fun t => WritesPred f s t q v)
/-- It completes with one scalar register. -/
def GivesScalar (f : Form) (i : Instr) (s : State) (d : BitVec 6) (v : Word) : Prop :=
  Completes f i s (fun t => WritesScalar s t d v)
/-- It completes with one pending word for each active member. -/
def LeavesWord (f : Form) (i : Instr) (s : State) (d : BitVec 6) (v : Nat → Word × OpFlags) : Prop :=
  Completes f i s (fun t => PendsWord f s t d v)
/-- It completes with one pending pair for each active member. -/
def LeavesPair (f : Form) (i : Instr) (s : State) (d : BitVec 6) (v : Nat → DWord × OpFlags) : Prop :=
  Completes f i s (fun t => PendsPair f s t d v)
/-- It completes with one pending predicate for each active member. -/
def LeavesPred (f : Form) (i : Instr) (s : State) (q : BitVec 4) (v : Nat → Bool × OpFlags) : Prop :=
  Completes f i s (fun t => PendsPred f s t q v)
/-- It completes with an effect on the state after issue, where the checks of its meaning find nothing. -/
def HasEffectIf (f : Form) (i : Instr) (s : State) (clear : Prop) (effect : State → State) : Prop :=
  clear → Completes f i s (fun t => Does f s t effect)
/-- The same for a persist point (09_consistency.md R191). -/
def PersistsIf (f : Form) (i : Instr) (s : State) (clear : Prop) (effect : State → State) : Prop :=
  clear → performsPersist f s = true → ∃ t, exec i s = .next t ∧ Does f s t effect
/-- It completes with an effect on the state after issue. -/
def HasEffect (f : Form) (i : Instr) (s : State) (effect : State → State) : Prop :=
  Completes f i s (fun t => Does f s t effect)

/-- An engine instruction starts its operation at a persist point, where its checks find no fault and one of the core's 48 slots is
free (10_memory_instructions.md R214). -/
def StartsIf (f : Form) (i : Instr) (s : State) (check : State → Option Flt) (start : State → State) : Prop :=
  PersistsIf f i s (check (s.charged f) = none ∧ slotsUsed (s.charged f) (s.charged f).cur.core < 48) start

/-- An event answers a next state. -/
def Happens (i : Instr) (s : State) (P : State → Prop) : Prop := ∃ t, exec i s = .next t ∧ P t

/-- The management controller answers a command of a master with a status (16_tables.md R334). -/
def Answers (i : Instr) (s : State) (master status : Nat) (P : State → Prop) : Prop :=
  s.powered = true → s.released = true → s.hasMaster master = true → Happens i s (fun t => (t.master master).ownstat = status ∧ P t)

end Sys2Proof.Machine
end

