-- ==== Sys2Proof/Certificates/Slice0/Obligations.lean ====
section
/-! DEFINITION. The statements for the provers. Each names the rule of spec/ that it formalises. -/

open Sys2Proof Sys2Proof.Machine

/-! ## Words (03_instruction_words.md) -/

/-- R50, R55, R60: no bit of an encoding is dropped: the decoder reads back every well-formed instruction from its word. -/
def Obligations.DecodeReadsEncode : Prop :=
  ∀ i : Instr, i.wf = true → ∃ n, encodeNat i = some n ∧ n < 2 ^ 32 ∧ decodeNat n = .ok i ∧ decode (BitVec.ofNat 32 n) = .ok i ∧
    decodeTableWord 32 n = some i

/-- R8, R55, R59: every word that decodes is the word of its instruction, so that no bit of a word is ignored, and the word has no guard that is never
true. -/
def Obligations.EncodeReadsDecode : Prop :=
  ∀ (n : Nat) (i : Instr), n < 2 ^ 32 → decodeNat n = .ok i → encodeNat i = some n ∧ neverGuarded n = false

/-- Words that the spec works out, of every family that it does so for, decode to what they stand for (03 Worked encodings, R59; 04, 05, 06, 10, 12, 20). -/
def Obligations.WorkedWords : Prop :=
  let p0 : Hdr := ⟨false, false, 0⟩
  decodeNat 0x00314518 = .ok (.iadd ⟨false, false, 3⟩ 5 5 6) ∧ decodeNat 0xD201C404 = .ok (.ldw ⟨true, false, 0⟩ 7 4 0 4) ∧
  decodeNat 0x7E012345 = .ok (.immx 0x12345) ∧ decodeNat 0x1B024000 = .ok (.movi p0 9 0) ∧ decodeNat 0x7E180003 = .ok (.opndPred 3) ∧
  decodeNat 0x18021462 = .ok (.icmp p0 2 5 6 2) ∧ decodeNat 0x2403515A = .ok (.fcmp p0 3 20 21 0xA) ∧
  decodeNat 0x36014602 = .ok (.frnd p0 5 6 2) ∧ decodeNat 0x3801461F = .ok (.shflBfly p0 5 6 7) ∧ decodeNat 0x39021403 = .ok (.voteOdd p0 2 5) ∧
  decodeNat 0x43000002 = .ok (.waitm p0 0) ∧ decodeNat 0x5701C402 = .ok (.stw p0 7 4 0 2) ∧ decodeNat 0x5B020408 = .ok (.atom p0 8 4 0 1) ∧
  decodeNat 0x5F006000 = .ok (.phase p0 1 4) ∧ decodeNat 0x60023010 = .ok (.acpy p0 2 3 1 0) ∧ decodeNat 0x64000518 = .ok (.chain p0 5 6) ∧
  decodeNat 0x73023405 = .ok (.nseg p0 2 3 4 0 1 1) ∧ decodeNat 0xF9078E00 = .ok (.bwtest ⟨true, false, 0⟩ 6 14 0) ∧
  decodeNat 0 = .ok (.iadd p0 0 0 0) ∧ decodeNat 0xFFFFFFFF = .ok (.brk 1 0xF 0xFFFF)

/-- R59, Table 3-5: the majors that the map leaves out, a guard that is never true, the bits that INEG and IABS leave unused and a hint of an unassigned
selector make a word no instruction; a word that is none issues as the word of its own number that raises ILLEGAL_OP. -/
def Obligations.FatesOfWords : Prop :=
  (∀ n : Nat, n < 2 ^ 32 →
    (n / 2 ^ 24 % 128 ∈ [12, 13, 14, 15, 19, 20, 21, 22, 23, 31, 41, 42, 43, 44, 45, 46, 47, 63, 74, 75, 76, 77, 78, 79, 101, 102, 103, 109, 110, 111] →
      ∃ e, decodeNat n = .error e) ∧
    (n / 2 ^ 24 % 128 ≠ 0x7E → ¬ (n / 2 ^ 24 % 128 = 0x7F ∧ n / 2 ^ 16 % 16 = 15) → n / 2 ^ 20 % 16 = 8 → decodeNat n = .error .neverGuard) ∧
    (n / 2 ^ 24 % 128 = 0x7E → 5 ≤ n / 2 ^ 20 % 16 → ∃ e, decodeNat n = .error e) ∧
    (n / 2 ^ 24 % 128 = 0 → 2 ≤ n % 4 → n / 4 % 64 ≠ 0 → ∃ e, decodeNat n = .error e) ∧
    ((∀ i, decodeNat n ≠ .ok i) → instrOf (BitVec.ofNat 32 n) = .illegalOpWord (BitVec.ofNat 32 n))) ∧
  decodeNat 0 = .ok (.iadd ⟨false, false, 0⟩ 0 0 0) ∧ decodeNat 0xFFFFFFFF = .ok (.brk 1 0xF 0xFFFF)

/-! ## Steps, reset and faults -/

/-- One step runs one instruction, before which every parked CWAIT has seen the counters as they stand (15_counters.md R301): where no post, loss, refill
or waiting store is due, the batch that a scheduler selects, by the schedule or in the machine's own round, issues the instruction that its word
decodes to, the front end having counted the cycle, the selection and the issue, read the word and set the instruction in progress; an event of the
schedule, something that the module does by itself, and a post, a loss or a refill that is due, are performed as themselves. A selected batch is of a
warp of the scheduler, its lanes READY at one address. Where the spec is open or read by inference this rests on assumption log 1 and 3. -/
def Obligations.StepRunsDecoded : Prop :=
  (∀ (s : State) (core sched slot : Nat) (ts : List Turn) (w : Warp) (b : Batch) (x : Word) (i : Instr),
    let s0 := s.begun
    s.postsDue = [] → s.cutDue = none → firstRefill s = none → heldDue s0 = none →
    s.turns = .select core sched :: ts ∨ (s.turns = [] ∧ round s0 = .select core sched :: ts) →
    let s1 := { s0 with turns := ts }
    let s2 := cycle s1 core
    select s1 core sched = some (slot, w, b) → fetch s2 core (s2.launchPart w.launch) b.pc.toNat = .word x → decode x = .ok i →
    let s3 := noteSelected s2 core sched slot b ((candidates s2 core sched).map (·.1))
    let s4 := (releaseSeen (fetchRead s3 core b.pc.toNat) core x).setCur core slot w b x
    step s = exec i (if s4.cur.counted then s4 else noteIssue s4 core x.toNat false)) ∧
  (∀ (s : State) (ts : List Turn), let s0 := s.begun
    s.postsDue = [] → s.cutDue = none → firstRefill s = none → heldDue s0 = none →
    (∀ i, s.turns = .act i :: ts → encodeNat i = none → (∀ v, i ≠ .illegalOpWord v) → step s = exec i (beforeTurn (.act i) { s0 with turns := ts })) ∧
    (∀ o, s.turns = .own o :: ts ∨ (s.turns = [] ∧ round s0 = .own o :: ts) → step s = runOwn o (beforeTurn (.own o) { s0 with turns := ts }))) ∧
  (∀ (s : State) (d : Nat × Nat × Nat × List Byte) (ds : List (Nat × Nat × Nat × List Byte)), s.postsDue = d :: ds →
    step s = exec (.storePost d.2.1 d.2.2.1) s.begun) ∧
  (∀ (s : State) (core : Nat), s.postsDue = [] → s.cutDue = some core → step s = exec (.corePowerLoss core) s.begun) ∧
  (∀ (s : State) (core launch : Nat), s.postsDue = [] → s.cutDue = none → firstRefill s = some (core, launch) →
    step s = exec (.energyRefill core launch) s.begun) ∧
  (∀ (s : State) (core l : Nat) (w : Warp) (slot a t : Nat), s.warp? core slot = some w → (mfind w.lanes l).isSome = true → (w.lane l).park = .cwait a t →
    ∃ w', s.begun.warp? core slot = some w' ∧ (w'.lane l).state = (w.lane l).state ∧
      (w'.lane l).park = (match counterMet { s with free := s.free + 1 } (s.launchPart w.launch) core a t with | some e => .cwaitMet e | none => .cwait a t)) ∧
  (∀ (s : State) (core sched slot : Nat) (w : Warp) (b : Batch), select s core sched = some (slot, w, b) →
    coreRuns s core = true ∧ (slot, w) ∈ (s.core core).st.warps ∧ slot / 16 = sched ∧ b.lanes ≠ [] ∧
    ∀ l ∈ b.lanes, l < 32 ∧ (w.lane l).state = .ready ∧ (w.lane l).word = b.pc ∧ (w.lane l).tag = b.tag)

/-- Every step leaves DRAM and every scratchpad, with their images in journals and save slots, in canonical form, so that equal memories are equal data. -/
def Obligations.StepsKeepMemoryCanonical : Prop :=
  ∀ s t : State, s.memOk = true → step s = .next t → t.memOk = true

/-- The same form holds at reset, and the memory of reset reads zero. -/
def Obligations.ResetMemoryCanonical : Prop :=
  State.reset.memOk = true ∧ ∀ pa, homeByte State.reset pa = 0

/-- R165: what the memories hold after module reset. -/
def Obligations.ResetContents : Prop :=
  ∀ s : State, Happens .moduleReset s (fun t =>
    (∀ pa, homeByte t pa = 0) ∧ (∀ line, mget t.tags line 1 = 1) ∧
    (∀ c, (∀ o, memRead (t.core c).st.scratch o = 0) ∧ (∀ e, mget (t.core c).st.acc e 0 = 0) ∧
      (t.core c).l1w = [] ∧ (t.core c).l1s = [] ∧ (t.core c).icache = [] ∧ (t.core c).st.warps = [] ∧
      (t.core c).epochs = [] ∧ (t.core c).image = {} ∧ (t.core c).power ≠ .active) ∧
    t.l2 = [] ∧ t.l2shadow = [] ∧ t.summaries = s.summaries ∧ t.cfgRecords = s.cfgRecords)

/-- R69, R70: g0 reads zero and p0 true, in a batch; writes to them are discarded, poison of other registers included. -/
def Obligations.HardwiredRegisters : Prop :=
  ∀ (s : State) (l : Nat) (v : Word) (b : Bool), s.cur.stream = false →
    s.g l 0 = 0 ∧ s.p l 0 = true ∧ (s.gd l 0).extractLsb' 0 32 = 0 ∧
    (∀ k, (s.setG l 0 v).g k 0 = 0 ∧ ∀ i, (s.setG l 0 v).g k i = s.g k i) ∧ (s.setG l 0 v).curWarp = s.curWarp ∧
    (∀ k, (s.setP l 0 b).p k 0 = true) ∧ (s.setP l 0 b).curWarp = s.curWarp ∧
    effG s.curWarp l 0 v = [] ∧ effP l 0 b = []

/-- R51, R74, R126, R12: a batch no member of which has a true guard goes on past the instruction with nothing performed; an illegal operand, and poison
read by every active member, fault all of these, and a passed safe-point distance every member, which then stands at the instruction; none of them
performs it. Where the spec is open or read by inference this rests on assumption log 18. -/
def Obligations.FaultsBeforeTheEffect : Prop :=
  ∀ (f : Form) (s : State) (a : Act), s.cur.stream = false → s.cur.counted = false → hazOn s s.cur.core = false → s.curWarp.isGuest = false →
    let ms := s.members
    let lead := (s.active f.h).headD 0
    let stop := fun (c : Nat) => (s.active f.h).map (fun l => (l, (⟨c, 0, false⟩ : Flt)))
    let near := ∀ l ∈ ms, (s.curLane l).safecnt + 1 + s.cur.hints.length ≤ 2048
    (near → s.active f.h = [] → issue f s a = .next (finish (s.issued f) f 0 ms [])) ∧
    (near → s.active f.h ≠ [] → f.legal s = false → issue f s a = .next (finish (raiseAll (s.issued f) f lead (stop fcIllegalOp)) f lead ms [])) ∧
    (near → s.active f.h ≠ [] → f.legal s = true → f.uniform = false → ∀ r, r ≠ 0 → (f.srcs s).find? (fun i => i != 0) = some r →
      (∀ l ∈ s.active f.h, unpoisoned (s.curLane l) r = false) →
      issue f s a = .next (finish (raiseAll (s.issued f) f lead ((s.active f.h).map (fun l => (l, (⟨fcPoisonRead, r, false⟩ : Flt))))) f lead ms [])) ∧
    (ms ≠ [] → f.isSafe = false → (∀ l ∈ ms, (s.curLane l).counted = false ∧ 2048 < (s.curLane l).safecnt + 1 + s.cur.hints.length) →
      issue f s a = .next (finish (raiseAll (advance (charge s f []) []) f 0 (ms.map (fun l => (l, (⟨fcSafeGap, 0, false⟩ : Flt))))) f 0 [] []))

/-- R12, R340, R341: what a fault leaves: the fibre FAULTED at the instruction with SAFECNT 0 and no hint, its FSEQ one more, its record kept with the
masks that hold it, the trace ring's last entry of KIND 4, its own or another of the same cycle (R319); the registers of the lane and every other lane
as they were. Where the spec is open or read by inference this rests on assumption log 23 and 24. -/
def Obligations.FaultEntry : Prop :=
  ∀ (s : State) (core slot l : Nat) (w : Warp) (tpl : FaultRec), s.warp? core slot = some w → (w.lane l).guest = none →
    let t := faultLane s core slot l tpl
    ∃ w' r, t.warp? core slot = some w' ∧ (w'.lane l).record = some r ∧
      (w'.lane l).state = .faulted ∧ (w'.lane l).pc = tpl.pc ∧ (w'.lane l).safecnt = 0 ∧ (w'.lane l).hints = [] ∧ (w'.lane l).fseq = (w.lane l).fseq + 1 ∧
      (w'.lane l).regs = (w.lane l).regs ∧ (w'.lane l).pw = (w.lane l).pw ∧ (w'.lane l).sp = (w.lane l).sp ∧ (w'.lane l).frames = (w.lane l).frames ∧
      r.code = tpl.code ∧ r.addr = tpl.addr ∧ r.insn = tpl.insn ∧ r.batch = tpl.batch ∧ r.core = core ∧ r.warp = slot ∧ r.lane = l ∧ r.fseq = (w.lane l).fseq + 1 ∧
      (∀ k, k < 12 → r.msnap.getLsbD k = (w.mask k).toNat.testBit l) ∧
      (∀ k, k ≠ l → w'.lane k = w.lane k) ∧ w'.pend = w.pend ∧ w'.s = w.s ∧ w'.m = w.m ∧
      (let n := (s.core core).st.traceCount
       let m := (t.core core).st.traceCount
       (m = n + 1 ∨ (m = n ∧ n ≠ 0 ∧ (s.core core).st.traceAt = s.time)) ∧
       ∃ e, mfind (t.core core).st.trace ((m - 1) % 256) = some e ∧ e.kind = 4 ∧ (m = n + 1 → e.warp = slot ∧ e.lane = l))

/-! ## Integer instructions and moves (04_fibre_registers.md) -/

/-- R77: IADD, ISUB, IADDI, INEG and IABS write gD, modulo 2^32 or saturated under .sat. R78: IMUL, IMULH and IMAD. -/
def Obligations.IntegerArithmetic : Prop :=
  (
  ∀ (h : Hdr) (d a b : BitVec 6) (i : BitVec 8) (s : State),
    GivesWord { formInt h d a b with acc := { imm1 := true, sat := true } } (.iadd h d a b) s d (fun l =>
      if s.sat then wordOfInt (saturate ((s.g l a.toNat).toInt + (s.gOrImm l b.toNat).toInt) (-(2 ^ 31)) (2 ^ 31 - 1))
      else s.g l a.toNat + s.gOrImm l b.toNat) ∧
    GivesWord { formInt h d a b with acc := { imm1 := true, sat := true } } (.isub h d a b) s d (fun l =>
      if s.sat then wordOfInt (saturate ((s.g l a.toNat).toInt - (s.gOrImm l b.toNat).toInt) (-(2 ^ 31)) (2 ^ 31 - 1))
      else s.g l a.toNat - s.gOrImm l b.toNat) ∧
    GivesWord { formInt1 h d a with acc := { imm1 := true, sat := true }, immZero := i == 0 } (.iaddi h d a i) s d (fun l =>
      let v := match s.imm with | some v => v | none => i.toInt
      if s.sat then wordOfInt (saturate ((s.g l a.toNat).toInt + v) (-(2 ^ 31)) (2 ^ 31 - 1))
      else s.g l a.toNat + wordOfInt v) ∧
    GivesWord (formInt1 h d a) (.ineg h d a) s d (fun l => - s.g l a.toNat) ∧
    GivesWord (formInt1 h d a) (.iabs h d a) s d (fun l =>
      if (s.g l a.toNat).toInt < 0 then - s.g l a.toNat else s.g l a.toNat)
  ) ∧ (
  ∀ (h : Hdr) (d a b : BitVec 6) (s : State),
    GivesWord (formInt h d a b) (.imul h d a b) s d (fun l => s.g l a.toNat * s.gOrImm l b.toNat) ∧
    GivesWord (formInt h d a b) (.imulhI32 h d a b) s d (fun l =>
      wordOfInt ((s.g l a.toNat).toInt * (s.gOrImm l b.toNat).toInt / 2 ^ 32)) ∧
    GivesWord (formInt h d a b) (.imulhN32 h d a b) s d (fun l =>
      BitVec.ofNat 32 ((s.g l a.toNat).toNat * (s.gOrImm l b.toNat).toNat / 2 ^ 32)) ∧
    GivesWord (formFC h d a b s) (.imad h d a b) s d (fun l =>
      s.g l a.toNat * s.g l b.toNat 1 + s.g l (match s.opnd with | some c => c | none => d.toNat) 2)
  )

/-- R79, Table 4-8: minima, maxima, logic and bit counts. R80 to R82: shifts by the whole second operand, rotation, bit fields that never pass bit 31, and
byte permutation. -/
def Obligations.LogicAndFields : Prop :=
  (
  ∀ (h : Hdr) (d a b : BitVec 6) (s : State),
    GivesWord (formInt h d a b) (.iminI32 h d a b) s d (fun l =>
      if (s.gOrImm l b.toNat).slt (s.g l a.toNat) then s.gOrImm l b.toNat else s.g l a.toNat) ∧
    GivesWord (formInt h d a b) (.iminN32 h d a b) s d (fun l =>
      if (s.gOrImm l b.toNat).ult (s.g l a.toNat) then s.gOrImm l b.toNat else s.g l a.toNat) ∧
    GivesWord (formInt h d a b) (.imaxI32 h d a b) s d (fun l =>
      if (s.g l a.toNat).slt (s.gOrImm l b.toNat) then s.gOrImm l b.toNat else s.g l a.toNat) ∧
    GivesWord (formInt h d a b) (.imaxN32 h d a b) s d (fun l =>
      if (s.g l a.toNat).ult (s.gOrImm l b.toNat) then s.gOrImm l b.toNat else s.g l a.toNat) ∧
    GivesWord (formInt h d a b) (.and h d a b) s d (fun l => s.g l a.toNat &&& s.gOrImm l b.toNat) ∧
    GivesWord (formInt h d a b) (.or h d a b) s d (fun l => s.g l a.toNat ||| s.gOrImm l b.toNat) ∧
    GivesWord (formInt h d a b) (.xor h d a b) s d (fun l => s.g l a.toNat ^^^ s.gOrImm l b.toNat) ∧
    GivesWord (formInt h d a b) (.andn h d a b) s d (fun l => s.g l a.toNat &&& ~~~(s.gOrImm l b.toNat)) ∧
    GivesWord (formInt h d a b) (.orn h d a b) s d (fun l => s.g l a.toNat ||| ~~~(s.gOrImm l b.toNat)) ∧
    GivesWord (formInt1 h d a) (.popc h d a) s d (fun l =>
      BitVec.ofNat 32 ((List.range 32).filter (fun i => (s.g l a.toNat).getLsbD i)).length) ∧
    GivesWord (formInt1 h d a) (.clz h d a) s d (fun l =>
      if s.g l a.toNat = 0 then 32 else BitVec.ofNat 32 (31 - (s.g l a.toNat).toNat.log2)) ∧
    GivesWord (formInt1 h d a) (.brev h d a) s d (fun l => (s.g l a.toNat).reverse)
  ) ∧ (
  ∀ (h : Hdr) (d a b : BitVec 6) (s : State),
    GivesWord (formInt h d a b) (.shl h d a b) s d (fun l => s.g l a.toNat <<< (s.gOrImm l b.toNat).toNat) ∧
    GivesWord (formInt h d a b) (.shr h d a b) s d (fun l => s.g l a.toNat >>> (s.gOrImm l b.toNat).toNat) ∧
    GivesWord (formInt h d a b) (.sar h d a b) s d (fun l => (s.g l a.toNat).sshiftRight (s.gOrImm l b.toNat).toNat) ∧
    GivesWord (formInt h d a b) (.rol h d a b) s d (fun l => (s.g l a.toNat).rotateLeft (s.gOrImm l b.toNat).toNat) ∧
    GivesWord (formInt h d a b) (.bfxN32 h d a b) s d (fun l =>
      (s.g l a.toNat >>> fieldPos (s.gOrImm l b.toNat)) &&& fieldMask (s.gOrImm l b.toNat)) ∧
    GivesWord (formInt h d a b) (.bfxI32 h d a b) s d (fun l =>
      let f := (s.g l a.toNat >>> fieldPos (s.gOrImm l b.toNat)) &&& fieldMask (s.gOrImm l b.toNat)
      if 0 < fieldLen (s.gOrImm l b.toNat) && f.getLsbD (fieldLen (s.gOrImm l b.toNat) - 1) then
        f ||| ~~~(fieldMask (s.gOrImm l b.toNat)) else f) ∧
    GivesWord { formInt h d a b with src := [a.toNat, b.toNat, d.toNat] } (.bfi h d a b) s d (fun l =>
      let m := fieldMask (s.gOrImm l b.toNat) <<< fieldPos (s.gOrImm l b.toNat)
      (s.g l d.toNat 2 &&& ~~~m) ||| ((s.g l a.toNat <<< fieldPos (s.gOrImm l b.toNat)) &&& m)) ∧
    GivesWord (formFC h d a b s) (.perm h d a b) s d (fun l =>
      let sel := s.g l (match s.opnd with | some c => c | none => d.toNat) 2
      let byte := fun i => permutedByte (s.g l b.toNat 1 ++ s.g l a.toNat) (sel.extractLsb' (4 * i) 4)
      byte 3 ++ byte 2 ++ byte 1 ++ byte 0)
  )

/-- R83, R84, R88: 64-bit sums and addresses, the sum with carry through the predicate that an OPND names, moves, selection and the predicate word. R72,
R89, R90, R109: scalar operations, once for a batch; SCMP and SMOV join them with predicates and g registers. -/
def Obligations.WideMovesAndScalars : Prop :=
  (
  ∀ (h : Hdr) (d a b : BitVec 6) (hf : BitVec 2) (i : BitVec 14) (s : State),
    GivesPair { h := h, ok := evenReg d && evenReg a, acc := { imm1 := true, imm2 := true }, immZero := b == 0,
                src := regsOf a.toNat 2 ++ [b.toNat], dst := regsOf d.toNat 2 } (.lea h d a b hf) s d (fun l =>
      s.gd l a.toNat + ((match s.imm with | some v => dwordOfInt v | none => (s.g l b.toNat 1).signExtend 64 : DWord) <<<
        ([0, 2, 3, 4].getD hf.toNat 0))) ∧
    GivesPair (formPair h d a b (evenReg d && evenReg a && evenReg b) s) (.iadd64 h d a b) s d (fun l =>
      s.gd l a.toNat + (match s.imm with | some v => dwordOfInt v | none => s.gd l b.toNat 1)) ∧
    GivesPair (formPair h d a b (evenReg d && evenReg a && evenReg b) s) (.isub64 h d a b) s d (fun l =>
      s.gd l a.toNat - (match s.imm with | some v => dwordOfInt v | none => s.gd l b.toNat 1)) ∧
    Completes { formInt h d a b with acc := { imm1 := true, opndP := true, opndNeed := true } } (.addc h d a b) s (fun t =>
      WritesZ s t (s.active h)
        (fun l r => if r = d.toNat then
          some (s.g l a.toNat + s.gOrImm l b.toNat + (if s.p l (s.opndP.getD 0) then 1 else 0)) else none)
        (fun l k => if k = s.opndP.getD 0 then some (decide (2 ^ 32 ≤
          (s.g l a.toNat).toNat + (s.gOrImm l b.toNat).toNat + (if s.p l (s.opndP.getD 0) then 1 else 0))) else none)) ∧
    GivesWord (formInt1 h d a) (.mov h d a) s d (fun l => s.g l a.toNat) ∧
    GivesWord { h := h, acc := { imm1 := true, imm2 := true }, immZero := i == 0, dst := [d.toNat] } (.movi h d i) s d (fun _ =>
      match s.imm with | some v => wordOfInt v | none => i.signExtend 32) ∧
    GivesWord { formInt h d a b with acc := { imm1 := true, opndP := true, opndNeed := true } } (.isel h d a b) s d (fun l =>
      if s.p l (s.opndP.getD 0) then s.g l a.toNat else s.gOrImm l b.toNat) ∧
    GivesWord { h := h, psrc := upFrom 15 1, dst := [d.toNat] } (.pmovFromPw h d) s d (fun l =>
      BitVec.ofNat 32 (((List.range 16).filter (fun k => s.p l k 0)).map (fun k => 2 ^ k)).sum) ∧
    Completes { h := h, src := [a.toNat], pdst := upFrom 15 1 } (.pmovToPw h a) s (fun t =>
      WritesZ s t (s.active h) (fun _ _ => none)
        (fun l k => if k < 16 then some ((s.g l a.toNat).getLsbD k) else none))
  ) ∧ (
  ∀ (h : Hdr) (d a b : BitVec 6) (q c : BitVec 4) (a5 b5 : BitVec 5) (s : State),
    GivesScalar (formSop h a b (sReg d && sReg a && sReg b) s) (.sopAdd h d a b) s d (s.sr a.toNat + s.srOrImm b.toNat) ∧
    GivesScalar (formSop h a b (sReg d && sReg a && sReg b) s) (.sopSub h d a b) s d (s.sr a.toNat - s.srOrImm b.toNat) ∧
    GivesScalar (formSop h a b (sReg d && sReg a && sReg b) s) (.sopMul h d a b) s d (s.sr a.toNat * s.srOrImm b.toNat) ∧
    GivesScalar (formSop h a b (sReg d && sReg a && sReg b) s) (.sopAnd h d a b) s d (s.sr a.toNat &&& s.srOrImm b.toNat) ∧
    GivesScalar (formSop h a b (sReg d && sReg a && sReg b) s) (.sopOr h d a b) s d (s.sr a.toNat ||| s.srOrImm b.toNat) ∧
    GivesScalar (formSop h a b (sReg d && sReg a && sReg b) s) (.sopXor h d a b) s d (s.sr a.toNat ^^^ s.srOrImm b.toNat) ∧
    GivesScalar (formSop h a b (sReg d && sReg a && sReg b) s) (.sopShl h d a b) s d (s.sr a.toNat <<< (s.srOrImm b.toNat).toNat) ∧
    GivesScalar (formSop h a b (sReg d && sReg a && sReg b) s) (.sopShr h d a b) s d (s.sr a.toNat >>> (s.srOrImm b.toNat).toNat) ∧
    GivesPred { h := h, ok := intCondOk c.toNat, acc := { imm1 := true }, immZero := b5 == 0, uniform := true, pdst := [q.toNat],
                ssrc := [a5.toNat] ++ (if s.immxs.isEmpty then [b5.toNat] else []) } (.scmp h q a5 b5 c) s q
      (fun _ => condition c (s.sr a5.toNat) (s.srOrImm b5.toNat)) ∧
    Completes { h := h, ok := sReg d, src := [a.toNat], uniform := true, guestOk := false } (.smovS h d a) s (fun t =>
      PendsResults s t [(lanesMask (s.active h), [.s d.toNat (s.g ((s.active h).headD 0) a.toNat)], 0)]) ∧
    LeavesWord { h := h, ok := sReg a, dst := [d.toNat], ssrc := [a.toNat], uniform := true, guestOk := false } (.smovG h d a) s d
      (fun _ => (s.sr a.toNat, 0))
  )

/-- R61, R85, R87: integer compares set a predicate by their condition code, and PLOP by its truth table. -/
def Obligations.PredicateResults : Prop :=
  ∀ (h : Hdr) (q a4 b4 c : BitVec 4) (a b i : BitVec 6) (s : State),
    GivesPred { h := h, ok := intCondOk c.toNat, acc := { imm1 := true }, immZero := b == 0, src := [a4.toNat, b.toNat], pdst := [q.toNat] }
      (.icmp h q a4 b c) s q (fun l => condition c (s.g l a4.toNat) (s.gOrImm l b.toNat)) ∧
    GivesPred { h := h, ok := intCondOk c.toNat, acc := { imm1 := true }, immZero := i == 0, src := [a.toNat], pdst := [q.toNat] }
      (.icmpi h q a i c) s q (fun l => condition c (s.g l a.toNat)
        (match s.imm with | some v => wordOfInt v | none => i.signExtend 32)) ∧
    GivesPred { h := h, psrc := [a4.toNat, b4.toNat], pdst := [q.toNat] } (.plop h q a4 b4 c) s q (fun l =>
      c.getLsbD ((if s.p l a4.toNat then 2 else 0) + (if s.p l b4.toNat 2 then 1 else 0)))

/-! ## Floating point and lane exchange (05_float_registers.md) -/

/-- R93: FADD, FSUB, FMUL and FFMA round the exact result once, in the mode in force, and leave it pending with its flags. R96: FCMP sets a predicate by a
float condition; a signalling NaN sets NV. -/
def Obligations.FloatResults : Prop :=
  (
  ∀ (h : Hdr) (d a b : BitVec 6) (s : State),
    LeavesWord (formF h d a b true) (.fadd h d a b) s d (fun l =>
      f32out s.rmode (addExact s.rmode (f32v (s.g l a.toNat)) (f32v (s.g l b.toNat 1)))) ∧
    LeavesWord (formF h d a b true) (.fsub h d a b) s d (fun l =>
      f32out s.rmode (addExact s.rmode (f32v (s.g l a.toNat)) (f32v (s.g l b.toNat 1)).negate)) ∧
    LeavesWord (formF h d a b true) (.fmul h d a b) s d (fun l =>
      f32out s.rmode (mulExact (f32v (s.g l a.toNat)) (f32v (s.g l b.toNat 1)))) ∧
    LeavesWord { h := h, acc := { opndG := true, rnd := true }, src := [a.toNat, b.toNat] ++ (if s.opnd.isSome then [] else [d.toNat]),
                 dst := [d.toNat] } (.ffma h d a b) s d (fun l =>
      f32out s.rmode (fmaExact s.rmode (f32v (s.g l a.toNat)) (f32v (s.g l b.toNat 1))
        (f32v (s.g l (match s.opnd with | some c => c | none => d.toNat) 2))))
  ) ∧ (
  ∀ (h : Hdr) (a b : BitVec 6) (q c : BitVec 4) (s : State),
    LeavesPred { h := h, ok := floatCondOk c.toNat, src := [a.toNat, b.toNat], pdst := [q.toNat] } (.fcmp h q a b c) s q (fun l =>
      ((floatCond c.toNat (s.g l a.toNat).toNat (s.g l b.toNat 1).toNat).getD false,
        OpFlags.when ((f32v (s.g l a.toNat)).isSnan || (f32v (s.g l b.toNat 1)).isSnan) .nv))
  )

/-- R94, R95: FMIN and FMAX order -0 below +0 and deliver the operand that is no NaN; FMOV copies, clears, inverts or takes a sign; NV is set by a
signalling NaN alone. -/
def Obligations.FloatMinMaxMove : Prop :=
  ∀ (h : Hdr) (d a b : BitVec 6) (s : State),
    LeavesWord (formF h d a b true) (.fmin h d a b) s d (fun l => lesserOrGreater false (s.g l a.toNat) (s.g l b.toNat 1)) ∧
    LeavesWord (formF h d a b true) (.fmax h d a b) s d (fun l => lesserOrGreater true (s.g l a.toNat) (s.g l b.toNat 1)) ∧
    LeavesWord (formF1 h d a false) (.fmov h d a) s d (fun l => (s.g l a.toNat, 0)) ∧
    LeavesWord (formF1 h d a false) (.fmovAbs h d a) s d (fun l => signed (s.g l a.toNat) false) ∧
    LeavesWord (formF1 h d a false) (.fmovNeg h d a) s d (fun l => signed (s.g l a.toNat) (!(s.g l a.toNat).msb)) ∧
    LeavesWord (formF h d a b false) (.fmovCpsgn h d a b) s d (fun l => signed (s.g l a.toNat) (s.g l b.toNat 1).msb)

/-- R97, Table 5-2: a special function of the members' sources completes, each result pending with its flags. A NaN gives the canonical NaN, with NV if it
signals; zeros, infinities and negative numbers give what the table states; 4^n under FRSQ, an integral exponent under FEX2 and a power of two under
FLG2 are exact and set no flag; FEX2 and FTANH saturate. Within a bound the bits are the module's own (log 5, the model's choice). Where the spec is
open or read by inference this rests on assumption log 5 and 29. -/
def Obligations.SpecialFunctions : Prop :=
  (∀ (h : Hdr) (d a : BitVec 6) (s : State),
    let f := formF1 h d a true
    let x := fun l => s.g l a.toNat
    LeavesWord f (.frcp h d a) s d (fun l => frcp s.rmode (x l)) ∧ LeavesWord f (.fsqrt h d a) s d (fun l => fsqrt s.rmode (x l)) ∧
    LeavesWord f (.frsq h d a) s d (fun l => frsq (x l)) ∧ LeavesWord f (.fex2 h d a) s d (fun l => fex2 (x l)) ∧
    LeavesWord f (.flg2 h d a) s d (fun l => flg2 (x l)) ∧ LeavesWord f (.fsin h d a) s d (fun l => fsin (x l)) ∧
    LeavesWord f (.fcos h d a) s d (fun l => fcos (x l)) ∧ LeavesWord f (.ftanh h d a) s d (fun l => ftanh (x l))) ∧
  (∀ (md : RMode) (x : Word), (f32v x).isNan = true →
    ∀ r ∈ [frcp md x, fsqrt md x, frsq x, fex2 x, flg2 x, fsin x, fcos x, ftanh x],
      r = (0x7FC00000, OpFlags.when (f32v x).isSnan .nv)) ∧
  (∀ md : RMode, frcp md 0 = (0x7F800000, .dz) ∧ frcp md 0x80000000 = (0xFF800000, .dz) ∧ frcp md 0x7F800000 = (0, 0) ∧
    frcp md 0xFF800000 = (0x80000000, 0) ∧ fsqrt md 0x80000000 = (0x80000000, 0) ∧ fsqrt md 0x7F800000 = (0x7F800000, 0)) ∧
  frsq 0 = (0x7F800000, .dz) ∧ frsq 0x80000000 = (0xFF800000, .dz) ∧ frsq 0x7F800000 = (0, 0) ∧
  fex2 0xFF800000 = (0, 0) ∧ fex2 0x7F800000 = (0x7F800000, 0) ∧ (∀ z ∈ [(0 : Word), 0x80000000], flg2 z = (0xFF800000, 0) ∧
    fsin z = (z, 0) ∧ fcos z = (0x3F800000, 0) ∧ ftanh z = (z, 0)) ∧ flg2 0x7F800000 = (0x7F800000, 0) ∧
  (∀ i ∈ [(0x7F800000 : Word), 0xFF800000], fsin i = (0x7FC00000, .nv) ∧ fcos i = (0x7FC00000, .nv)) ∧
  (∀ (md : RMode) (x : Word), (f32v x).isNan = false → x.msb = true → x ≠ 0x80000000 →
    fsqrt md x = (0x7FC00000, .nv) ∧ frsq x = (0x7FC00000, .nv) ∧ flg2 x = (0x7FC00000, .nv)) ∧
  (∀ n : Nat, n ≤ 126 → frsq (BitVec.ofNat 32 ((2 * (n - 63 : Int) + 127).toNat * 2 ^ 23)) =
    (BitVec.ofNat 32 ((190 - n) * 2 ^ 23), 0)) ∧
  (∀ n : Nat, n ≤ 253 → fex2 (BitVec.ofNat 32 (FFmt.f32.round .rn false (.ofInt (n - 126 : Int))).1) =
      (BitVec.ofNat 32 ((n + 1) * 2 ^ 23), 0) ∧
    flg2 (BitVec.ofNat 32 ((n + 1) * 2 ^ 23)) = (BitVec.ofNat 32 (FFmt.f32.round .rn false (.ofInt (n - 126 : Int))).1, 0)) ∧
  (∀ x : Word, (f32v x).isNan = false →
    (x.msb = false → 0x43000000 ≤ x.toNat → x.toNat < 0x7F800000 → fex2 x = (0x7F800000, OpFlags.ovf ||| OpFlags.nx)) ∧
    (0xC3150000 < x.toNat → x.toNat < 0xFF800000 → fex2 x = (0, OpFlags.udf ||| OpFlags.nx)) ∧
    (0x41180000 ≤ x.toNat % 2 ^ 31 → ftanh x = ((x &&& 0x80000000) ||| 0x3F800000, 0)))

/-- R98: PKADD, PKMUL and PKFMA compute each element by itself and join the flags of both. R99 to R101: CVT converts one element of the source type to the
destination type; FRND rounds to an integral value in its own mode; PACK and UNPK move 6-bit elements between byte lanes and the dense layout. R103 to
R105: a block of the members' values shares one scale, an absent lane counts as +0; QHAD flips signs, transforms and quantises, and reports each
member's sign; DQBLK gives one value back. Where the spec is open or read by inference this rests on assumption log 17, 30 and 92. -/
def Obligations.PackedAndConverted : Prop :=
  (
  ∀ (h : Hdr) (d a b : BitVec 6) (s : State),
    let add := fun (f : FFmt) (l : Nat) => pkWord f s.rmode s.sat (fun i =>
      addExact s.rmode (pkGet f (s.g l a.toNat) i) (pkGet f (s.g l b.toNat 1) i))
    let mul := fun (f : FFmt) (l : Nat) => pkWord f s.rmode s.sat (fun i =>
      mulExact (pkGet f (s.g l a.toNat) i) (pkGet f (s.g l b.toNat 1) i))
    let fma := fun (f : FFmt) (l : Nat) => pkWord f s.rmode s.sat (fun i =>
      fmaExact s.rmode (pkGet f (s.g l a.toNat) i) (pkGet f (s.g l b.toNat 1) i)
        (pkGet f (s.g l (match s.opnd with | some c => c | none => d.toNat) 2) i))
    LeavesWord (formPk h d a b) (.pkaddF16 h d a b) s d (add .f16) ∧
    LeavesWord (formPk h d a b) (.pkmulF16 h d a b) s d (mul .f16) ∧
    LeavesWord (formPk h d a b) (.pkaddBf16 h d a b) s d (add .bf16) ∧
    LeavesWord (formPk h d a b) (.pkmulBf16 h d a b) s d (mul .bf16) ∧
    LeavesWord (formPkFma h d a b s) (.pkfmaF16 h d a b) s d (fma .f16) ∧
    LeavesWord (formPkFma h d a b s) (.pkfmaBf16 h d a b) s d (fma .bf16)
  ) ∧ (
  ∀ (h : Hdr) (d a : BitVec 6) (st dt : BitVec 5) (m : BitVec 2) (s : State),
    Completes { h := h, ok := cvtOk d a st.toNat dt.toNat, acc := { rnd := true, sat := true }, src := elemRegs a.toNat st.toNat,
                dst := elemRegs d.toNat dt.toNat } (.cvt h d a st dt) s (fun t =>
      let r := fun l => convert (cvtKind st.toNat) (cvtKind dt.toNat) s.rmode s.sat
        (if (cvtKind st.toNat).width = 64 then (s.gd l a.toNat).toNat else (s.g l a.toNat).toNat)
      Pends s t (s.active h)
        (fun l => if (cvtKind dt.toNat).width = 64 then effGd s.curWarp l d.toNat (BitVec.ofNat 64 (placeElem (cvtKind dt.toNat) (r l).1))
          else effG s.curWarp l d.toNat (BitVec.ofNat 32 (placeElem (cvtKind dt.toNat) (r l).1)))
        (fun l => (r l).2)) ∧
    LeavesWord { h := h, src := [a.toNat], dst := [d.toNat] } (.frnd h d a m) s d (fun l => integral (RMode.ofCode m.toNat) (s.g l a.toNat)) ∧
    LeavesWord { h := h, src := [a.toNat], dst := [d.toNat] } (.pack h d a) s d (fun l =>
      let x := s.g l a.toNat
      ((0 : BitVec 8) ++ x.extractLsb' 24 6 ++ x.extractLsb' 16 6 ++ x.extractLsb' 8 6 ++ x.extractLsb' 0 6, 0)) ∧
    LeavesWord { h := h, src := [a.toNat], dst := [d.toNat] } (.unpk h d a) s d (fun l =>
      let x := s.g l a.toNat
      ((0 : BitVec 2) ++ x.extractLsb' 18 6 ++ (0 : BitVec 2) ++ x.extractLsb' 12 6 ++
        (0 : BitVec 2) ++ x.extractLsb' 6 6 ++ (0 : BitVec 2) ++ x.extractLsb' 0 6, 0))
  ) ∧ (
  ∀ (h : Hdr) (d a : BitVec 6) (f hf : BitVec 3) (s : State),
    let src := (List.range 32).map (fun l => if l ∈ s.active h then (s.g l a.toNat).toNat else 0)
    Completes { h := h, ok := evenReg d && mxOk f, src := [a.toNat], dst := regsOf d.toNat 2 } (.qblk h d a f) s (fun t =>
      let q := quantBlock (mxOf f) (src.map FFmt.f32.decode)
      Pends s t (s.active h)
        (fun l => effG s.curWarp l d.toNat (BitVec.ofNat 32 (q.2.getD l (0, false, false)).1) ++
          effG s.curWarp l (d.toNat + 1) (BitVec.ofNat 32 q.1))
        (fun l => quantFlags (src.getD l 0) (q.2.getD l (0, false, false)))) ∧
    Completes { h := h, ok := evenReg d && evenReg a && mxOk f, acc := { opndPDst := true, opndNeed := true }, src := regsOf a.toNat 2,
                dst := regsOf d.toNat 2, shsrc := [hf.toNat] } (.qhad h d a f hf) s (fun t =>
      let signs := hadamardSigns (BitVec.ofNat 64 (bits (s.shape hf.toNat).toNat 128 64))
        (BitVec.ofNat 64 (s.g ((s.active h).headD 0) (a.toNat + 1)).toNat)
      let y := rotateBlock signs src
      let q := quantBlock (mxOf f) y.1
      Pends s t (s.active h)
        (fun l => effG s.curWarp l d.toNat (BitVec.ofNat 32 (q.2.getD l (0, false, false)).1) ++
          effG s.curWarp l (d.toNat + 1) (BitVec.ofNat 32 q.1) ++ effP l (s.opndP.getD 0) (signs.getD l false))
        (fun l => quantFlags (src.getD l 0) (q.2.getD l (0, false, false)) ||| OpFlags.when y.2 .nx)) ∧
    LeavesWord { h := h, ok := evenReg a && mxOk f, src := regsOf a.toNat 2, dst := [d.toNat] } (.dqblk h d a f) s d (fun l =>
      let r := dequant (mxOf f) (s.g l a.toNat).toNat (s.g l (a.toNat + 1)).toNat
      (BitVec.ofNat 32 r.1, r.2))
  )

/-- R106: SHFL gives each member the value of a lane of its segment, or its own where that lane is no member. R107: votes over the members whose guard is
true, their masks, and the matching of their values. R108, R47, R48: the fixed tree over the 32 lanes, in which a lane that is no member takes no
part; a prefix takes the lanes up to the member's own, or below it, and an empty prefix gives the identity. Where the spec is open or read by
inference this rests on assumption log 4 and 83. -/
def Obligations.CrossLane : Prop :=
  (
  ∀ (h : Hdr) (d a b : BitVec 6) (s : State),
    let from_ := fun (source : Nat → Nat → Nat) (l : Nat) =>
      let k := source (s.gOrImm l b.toNat).toNat l
      (s.g (if k ∈ s.active h then k else l) a.toNat, (0 : OpFlags))
    LeavesWord (formShfl h d a b s) (.shflLane h d a b) s d (from_ (fun n l => segmentBase n l + n % 32 % segment n)) ∧
    LeavesWord (formShfl h d a b s) (.shflRot h d a b) s d
      (from_ (fun n l => segmentBase n l + (l % segment n + n % 32) % segment n)) ∧
    LeavesWord (formShfl h d a b s) (.shflMirr h d a b) s d (from_ (fun n l => segmentBase n l + (segment n - 1 - l % segment n))) ∧
    LeavesWord (formShfl h d a b s) (.shflBfly h d a b) s d (from_ (fun n l => l ^^^ (n % 32 % segment n)))
  ) ∧ (
  ∀ (h : Hdr) (d a : BitVec 6) (q a4 : BitVec 4) (s : State),
    let some_ := (s.active h).any (fun l => s.p l a4.toNat)
    let every := (s.active h).all (fun l => s.p l a4.toNat)
    LeavesPred (formVote h q a4) (.voteEvery h q a4) s q (fun _ => (every, 0)) ∧
    LeavesPred (formVote h q a4) (.voteSome h q a4) s q (fun _ => (some_, 0)) ∧
    LeavesPred (formVote h q a4) (.voteSame h q a4) s q (fun _ => (every || !some_, 0)) ∧
    LeavesPred (formVote h q a4) (.voteOdd h q a4) s q (fun _ =>
      (((s.active h).filter (fun l => s.p l a4.toNat)).length % 2 == 1, 0)) ∧
    LeavesWord { h := h, psrc := [a4.toNat], dst := [d.toNat] } (.ballot h d a4) s d (fun _ =>
      (lanesMask ((s.active h).filter (fun l => s.p l a4.toNat)), 0)) ∧
    LeavesWord { h := h, src := [a.toNat], dst := [d.toNat] } (.matchPeers h d a) s d (fun l =>
      (lanesMask ((s.active h).filter (fun k => s.g k a.toNat == s.g l a.toNat)), 0)) ∧
    LeavesWord { h := h, src := [a.toNat], dst := [d.toNat] } (.matchWhole h d a) s d (fun l =>
      (if ∀ k ∈ s.active h, s.g k a.toNat = s.g l a.toNat then lanesMask (s.active h) else 0, 0))
  ) ∧ (
  ∀ (h : Hdr) (d a : BitVec 6) (o k : BitVec 3) (s : State),
    let f : Form := { h := h, ok := redOk d a o.toNat k.toNat, src := redRegs a.toNat k.toNat, dst := redRegs d.toNat k.toNat }
    let tree := fun (takes : Nat → Bool) => (redTree (redOp o.toNat k.toNat) ((List.range 32).map (fun j =>
      if j ∈ s.active h ∧ takes j then
        some (redLeaf k.toNat (if 3 ≤ k.toNat then (s.gd j a.toNat).toNat else (s.g j a.toNat).toNat)) else none))).getD
          (redIdentity o.toNat k.toNat, 0)
    let leaves := fun (t : State) (takes : Nat → Nat → Bool) => Pends s t (s.active h)
      (fun l => if 3 ≤ k.toNat then effGd s.curWarp l d.toNat (BitVec.ofNat 64 (tree (takes l)).1)
        else effG s.curWarp l d.toNat (BitVec.ofNat 32 (tree (takes l)).1))
      (fun l => (tree (takes l)).2)
    Completes f (.redw h d a o k) s (fun t => leaves t (fun _ _ => true)) ∧
    Completes f (.scanw h d a o k) s (fun t => leaves t (fun l j => decide (j ≤ l))) ∧
    Completes f (.scanwExcl h d a o k) s (fun t => leaves t (fun l j => decide (j < l)))
  )

/-! ## Control (06_control_state.md) -/

/-- R51, R53, R58, R126, R315: the issue of an instruction that nothing stops counts it once for each of its members, debits its context and puts its
members at the next instruction without hints; no register, memory byte or other warp changes. -/
def Obligations.IssueIsCalm : Prop :=
  ∀ (f : Form) (s : State), performs f s = true → Issued s (s.issued f) ∧
    (∀ l, l ∈ s.members → ((s.issued f).curLane l).safecnt =
      (if s.cur.counted = true ∨ (s.curLane l).counted = true then (s.curLane l).safecnt else (s.curLane l).safecnt + 1 + s.cur.hints.length)) ∧
    (∀ l, l ∈ s.members → ((s.issued f).curLane l).counted = false)

/-- R113, R115, R320: BRA goes to PC + 4 × OFF, in the bits that PC has, and BRAX to gA.d in the members whose guard is true, the others go on. R120,
R121: CALL and CALLX store the link record of each active member and open its window; RET reads it back. They do so where the stack has room, its
pages are resident and nothing makes the access wait; members for whose record the egress buffer has no room left wait behind the others (`storesOut`,
09_consistency.md R190), and a record that posts a message commits the core first (R191). R119 to R121: what one member's call and return do to its
program counter, link, window and stack pointer. Where the spec is open or read by inference this rests on assumption log 32, 35 and 36. -/
def Obligations.ControlFlow : Prop :=
  (
  ∀ (h : Hdr) (o : BitVec 20) (a : BitVec 6) (s : State),
    Completes { h := h } (.bra h o) s (fun t => Jumps s t (fun l =>
      if l ∈ s.active h then rpc (s.cur.pc + ((o.signExtend 64) <<< 2)) else nextPc s.cur.pc)) ∧
    ((∀ l ∈ s.active h, (s.gd l a.toNat).toNat % 4 = 0 ∧ (s.gd l a.toNat).toNat < 2 ^ 57) →
      Completes { h := h, ok := evenReg a, src := regsOf a.toNat 2 } (.brax h a) s (fun t => Jumps s t (fun l =>
        if l ∈ s.active h then s.gd l a.toNat else nextPc s.cur.pc)))
  ) ∧ (
  ∀ (h : Hdr) (w : BitVec 4) (o : BitVec 16) (a : BitVec 6) (s : State),
    (let f : Form := { h := h, guestOk := false }
     let room := fun (u : State) (l : Nat) => callCheck u w.toNat none l
     HasEffectIf f (.call h w o) s
      (postWait (s.charged f) (s.active h) ((s.active h).flatMap (fun l => okHalves (room (s.charged f) l))) = none ∧
        accessWait (s.charged f) false true 0 false (fun l => okHalves (room (s.charged f) l)) (s.active h) = none ∧
        (∀ l ∈ s.active h, stackFault (room (s.charged f) l) = none) ∧
        ∀ l ∈ s.active h, nonResident (room (s.issued f) l) = false)
      (fun u =>
        let target := rpc (s.cur.pc + ((o.signExtend 64) <<< 2))
        let p := postCommit u ((s.active h).flatMap (fun l => okHalves (room u l)))
        let r := storeEach p 0 false (fun l => okHalves (room u l)) (fun v l => callLane v l w.toNat target (okHalves (room u l))) (s.active h)
        storesOut (traceBranch r.1 2 ((s.active h).filter (fun l => !r.2.contains l)) (fun _ => target), r.2))) ∧
    (let f : Form := { h := h, ok := evenReg a, src := regsOf a.toNat 2, guestOk := false }
     let room := fun (u : State) (l : Nat) => callCheck u w.toNat (some (u.gd l a.toNat).toNat) l
     HasEffectIf f (.callx h a w) s
      (postWait (s.charged f) (s.active h) ((s.active h).flatMap (fun l => okHalves (room (s.charged f) l))) = none ∧
        accessWait (s.charged f) false true 0 false (fun l => okHalves (room (s.charged f) l)) (s.active h) = none ∧
        (∀ l ∈ s.active h, stackFault (room (s.charged f) l) = none) ∧
        ∀ l ∈ s.active h, nonResident (room (s.issued f) l) = false)
      (fun u =>
        let p := postCommit u ((s.active h).flatMap (fun l => okHalves (room u l)))
        let r := storeEach p 0 false (fun l => okHalves (room u l)) (fun v l => callLane v l w.toNat (u.gd l a.toNat) (okHalves (room u l)))
          (s.active h)
        storesOut (traceBranch r.1 2 ((s.active h).filter (fun l => !r.2.contains l)) (fun l => u.gd l a.toNat), r.2))) ∧
    (let f : Form := { h := h, guestOk := false }
     HasEffectIf f (.ret h) s
      (accessWait (s.charged f) true false 0 false (fun l => okHalves (retLoad (s.charged f) l) ++
          (retFills (s.charged f) l).flatMap (fun x => okHalves x.2.2)) (s.active h) = none ∧
        (∀ l ∈ s.active h, retFault (s.charged f) l = none) ∧ ∀ l ∈ s.active h, retPage (s.issued f) l = none)
      (fun u => traceBranch (u.eachLane (s.active h) (fun v l => readPast (retLane v l) (whoOf u u.cur.core u.cur.slot l) 0
        (okHalves (retLoad u l) ++ (retFills u l).flatMap (fun x => okHalves x.2.2)))) 3 (s.active h) (fun l => (u.curLane l).lk)))
  ) ∧ (
  ∀ (s : State) (l wf : Nat) (target : DWord) (hs : List Half), Home s →
    ((callLane s l wf target hs).curLane l).pc = rpc target ∧
    ((callLane s l wf target hs).curLane l).lk = nextPc s.cur.pc ∧
    ((callLane s l wf target hs).curLane l).wbase = (s.curLane l).wbase + 4 * wf ∧
    ((callLane s l wf target hs).curLane l).sp = spField (dwordOfInt (((s.curLane l).sp.toNat : Int) - s.curWarp.frameSize - 16 * (wf + 1))) ∧
    ((retLane s l).curLane l).pc = (s.curLane l).lk ∧
    ((retLane s l).curLane l).lk = rpc (BitVec.ofNat 64 (linkRecord s l)) ∧
    ((retLane s l).curLane l).wbase = (s.curLane l).wbase - 4 * linkW s l ∧
    ((retLane s l).curLane l).sp = spField ((s.curLane l).sp + BitVec.ofNat 64 (16 * (linkW s l + 1) + s.curWarp.frameSize))
  )

/-- R116, R118: the mask instructions write one mask. R117: WAITM parks the active members whose bit is set; a mask whose every counted lane waits on it
is cleared and its waiters go on. Where the spec is open or read by inference this rests on assumption log 20 and 21. -/
def Obligations.MasksAndWaits : Prop :=
  (
  ∀ (h : Hdr) (m a b : BitVec 4) (r : BitVec 6) (s : State),
    HasEffect { h := h, ok := maskReg m, guestOk := false } (.join h m) s
      (fun u => u.setM m.toNat (s.curWarp.mask m.toNat ||| lanesMask (s.active h))) ∧
    HasEffect { h := h, ok := maskReg m, guestOk := false } (.leave h m) s
      (fun u => u.setM m.toNat (s.curWarp.mask m.toNat &&& ~~~(lanesMask (s.active h)))) ∧
    HasEffect { h := h, ok := maskReg m, src := [r.toNat], uniform := true, guestOk := false } (.mopSet h m r) s
      (fun u => u.setM m.toNat (s.g ((s.active h).headD 0) r.toNat)) ∧
    HasEffect { h := h, ok := maskReg m && maskReg a && maskReg b, uniform := true, guestOk := false } (.mopAnd h m a b) s
      (fun u => u.setM m.toNat (s.curWarp.mask a.toNat &&& s.curWarp.mask b.toNat)) ∧
    HasEffect { h := h, ok := maskReg m && maskReg a && maskReg b, uniform := true, guestOk := false } (.mopOr h m a b) s
      (fun u => u.setM m.toNat (s.curWarp.mask a.toNat ||| s.curWarp.mask b.toNat)) ∧
    HasEffect { h := h, ok := maskReg m && maskReg a && maskReg b, uniform := true, guestOk := false } (.mopAndn h m a b) s
      (fun u => u.setM m.toNat (s.curWarp.mask a.toNat &&& ~~~(s.curWarp.mask b.toNat))) ∧
    HasEffect { h := h, ok := maskReg m, uniform := true, guestOk := false } (.mopBatch h m) s
      (fun u => u.setM m.toNat (lanesMask (s.active h))) ∧
    HasEffect { h := h, ok := maskReg m, uniform := true, guestOk := false } (.mopBallot h m a) s
      (fun u => u.setM m.toNat (lanesMask ((s.active h).filter (fun l => s.p l a.toNat))))
  ) ∧ (
  (∀ (h : Hdr) (m : BitVec 4) (s : State),
    HasEffect { h := h, ok := maskReg m, guestOk := false } (.waitm h m) s
      (fun u => parkAfter u ((s.active h).filter (fun l => (s.curWarp.mask m.toNat).getLsbD l)) (.waitm m.toNat))) ∧
  (∀ (s : State) (k : Nat), Home s → waiters s.curWarp k ≠ [] → (∀ l ∈ countedLanes s.curWarp k, waitsOn s.curWarp k l = true) →
    (∀ l ∈ waiters s.curWarp k, (s.curLane l).owed = []) →
    let t := releaseMask s s.cur.core s.cur.slot k
    t.curWarp.mask k = 0 ∧ ∀ l ∈ waiters s.curWarp k, (t.curLane l).state = .ready) ∧
  (∀ (s : State) (k : Nat), Home s → (∃ l ∈ countedLanes s.curWarp k, waitsOn s.curWarp k l = false) →
    releaseMask s s.cur.core s.cur.slot k = s)
  )

/-- R123, R124: FSPAWN takes the lowest EMPTY lane for each active member in lane order and reports in pD, bits of a target above 56 being dropped; FEND
leaves a member ENDED, EXIT leaves its lane EMPTY, and both take its bit from every mask; the guests among the members, where no register that they
carry is poisoned, depart together with end shuttles (14_shuttles.md R285, R291). R123, R124: what a spawn and an end do to the lanes: the fibre
begins at the address, with one argument, its own stack and no mask bit. Where the spec is open or read by inference this rests on assumption log 36
and 106. -/
def Obligations.FibresBeginAndEnd : Prop :=
  (
  ∀ (h : Hdr) (q : BitVec 4) (a b : BitVec 6) (s : State),
    (let f : Form := { h := h, ok := evenReg a, src := regsOf a.toNat 2 ++ [b.toNat], pdst := [q.toNat] }
     HasEffectIf f (.fspawn h q a b) s (∀ l ∈ s.active h, (s.gd l a.toNat).toNat % 4 = 0)
      (fun u => u.eachLane (s.active h) (spawnOne q.toNat a.toNat b.toNat u))) ∧
    (let home := fun (u : State) => (s.active h).filter (fun l => (u.curLane l).guest.isNone)
     let away := fun (u : State) => (s.active h).filter (fun l => (u.curLane l).guest.isSome)
     let ends := fun (keep : Bool) (u : State) =>
       let v := u.eachLane (home u) (fun v l => endLane v v.cur.core v.cur.slot l keep)
       if away u = [] then v else sendAll v v.cur.core v.cur.slot (away u) (nextPc v.cur.pc) { ended := keep, exited := !keep }
     let clear := ∀ l ∈ s.active h, (s.curLane l).guest ≠ none → migPoison s l = none
     HasEffectIf { h := h } (.fend h) s clear (ends true) ∧ HasEffectIf { h := h } (.exit h) s clear (ends false))
  ) ∧ (
  (∀ (q a b : Nat) (s : State) (l e : Nat), Home s → s.cur.stream = false → 0 < q → q < 16 → (s.curLane l).guest = none →
    (s.curLane l).state = .ready → (s.curLane e).state = .empty → e < 32 →
    (∀ k, k < e → (s.curLane k).state ≠ .empty) → (∀ r, pendG s.curWarp.pend e r = []) → 32 * s.curWarp.index + e < 2 ^ fieldWidth0 s s.curWarp.launch →
    let t := spawnOne q a b s s l
    (t.curLane e).state = .ready ∧ (t.curLane e).pc = rpc (s.gd l a) ∧ t.g e 1 = s.g l b 1 ∧
    (t.curLane e).sp = s.curWarp.stackTop e ∧ t.p l q = true ∧
    ∀ k, t.curWarp.mask k = s.curWarp.mask k &&& ~~~(BitVec.ofNat 32 (2 ^ e))) ∧
  (∀ (s : State) (l : Nat) (keep : Bool), Home s →
    let t := endLane s s.cur.core s.cur.slot l keep
    (t.curLane l).state = (if keep then .ended else .empty) ∧ (keep = true → (t.curLane l).regs = (s.curLane l).regs) ∧
    (keep = false → (t.curLane l).regs = []) ∧ ∀ k, t.curWarp.mask k = s.curWarp.mask k &&& ~~~(BitVec.ofNat 32 (2 ^ l)))
  )

/-- R125, R126: YIELD defers the batch for 16 slots, NAP puts the active members to sleep for at least gA nanoseconds and at most 1,048,576 and 64 more,
SAFE begins the count of its members anew and marks their live blocks; under a pending stop a fibre at home parks, and the guests, where no register
that they carry is poisoned and nothing that their departure commits is pending, depart together. Where the spec is open or read by inference this
rests on assumption log 34, 37, 38 and 87. -/
def Obligations.YieldNapSafe : Prop :=
  ∀ (h : Hdr) (a : BitVec 6) (live : BitVec 16) (s : State),
    HasEffect { h := h } (.yield h) s (fun u => u.eachLane s.members (fun v l => v.modCurLane l (fun x =>
      if x.state = .ready then { x with defer := 16 } else x))) ∧
    HasEffect { h := h, src := [a.toNat] } (.nap h a) s (fun u => u.eachLane (s.active h) (fun v l =>
      let d := min (s.g l a.toNat).toNat 1048576
      if d = 0 then v else v.modCurLane l (fun x => { x with state := .napping, wake := s.time + d + Config.free s.free (6000 + l) % 65 }))) ∧
    (let recalled := fun (u : State) => (s.active h).filter (fun l => (u.curLane l).guest.isSome && stopPending u u.cur.core u.cur.slot l)
     HasEffectIf { h := h, isSafe := true } (.safe h live) s
      ((∀ l ∈ recalled s, migPoison s l = none) ∧
        (recalled s = [] ∨ (pendingPersist s.curWarp (lanesMask (recalled s)) = false ∧ commitWaits s s.cur.core = false)))
      (fun u =>
        let v := u.eachLane (s.active h) (fun v l =>
          let v := v.modCurLane l (fun x => { x with safecnt := 0, live := live })
          if stopPending v v.cur.core v.cur.slot l ∧ (v.curLane l).guest = none then parkAfter v [l] .safePoint else v)
        if recalled u = [] then v else sendAll v v.cur.core v.cur.slot (recalled u) (nextPc v.cur.pc) { recalled := true }))

/-- R59, R128, R341: TRAP and BRK raise their fault in every active member, and the other members go on; BRK in a core whose partition is in HALT stops
the core instead. R129: TRET acts on the fibres that its members' handles name, where each handle names a FAULTED fibre whose task the issuing task
serves, and no core that a handle names is resuming. R129, R340: a handle names the home lane of a FAULTED fibre by core, warp slot, lane and FSEQ;
resuming makes the fibre READY at its faulting instruction, skipping after it, and TRAP and BRK go on after it either way; TRET.end ends it, and
leaves its lane EMPTY with no register and no bit in a mask. Where the spec is open or read by inference this rests on assumption log 18 and 85. -/
def Obligations.TrapsAndReturns : Prop :=
  (
  ∀ (h : Hdr) (c : BitVec 16) (u1 : BitVec 1) (v4 : BitVec 4) (s : State),
    (let f : Form := { h := h }
     Completes f (.trap h c) s (fun t => t = finish (s.issued f) f ((s.active h).headD 0) s.members
       ((s.active h).map (fun l => (l, (⟨fcTrap, c.toNat, false⟩ : Flt)))))) ∧
    (let f : Form := { h := ⟨false, false, 0⟩ }
     (inHalt s s.cur.core = false →
       Completes f (.brk u1 v4 c) s (fun t => t = finish (s.issued f) f ((s.active f.h).headD 0) s.members
         ((s.active f.h).map (fun l => (l, (⟨fcBrk, c.toNat, false⟩ : Flt)))))) ∧
     (inHalt s s.cur.core = true →
       HasEffect f (.brk u1 v4 c) s (fun u => u.modCore s.cur.core (fun k => { k with stopped := true }))))
  ) ∧ (
  ∀ (h : Hdr) (a : BitVec 6) (s : State),
    let f : Form := { h := h, ok := evenReg a, src := regsOf a.toNat 2 }
    let act := fun (k : TretKind) (u : State) => (s.active h).foldl (tretOne k (fun l => s.gd l a.toNat)) (u, [])
    let clear := fun (k : TretKind) => (act k (s.issued f)).2 = [] ∧
      ∀ l ∈ s.active h, ((s.charged f).core (bits (s.gd l a.toNat).toNat 56 8)).resuming = false
    HasEffectIf f (.tretResume h a) s (clear .resume) (fun u => (act .resume u).1) ∧
    HasEffectIf f (.tretSkip h a) s (clear .skip) (fun u => (act .skip u).1) ∧
    HasEffectIf f (.tretEnd h a) s (clear .ended) (fun u => (act .ended u).1)
  ) ∧ (
  (∀ (s : State) (core slot l : Nat), tretAct s core slot l .ended =
    settleWarp ((endLane s core slot l false).modWarp core slot (fun w => { w with posted := false, retryAt := none })) core slot) ∧
  ∀ (k : TretKind) (x : Lane) (r : FaultRec), k ≠ .ended → x.record = some r →
    (tretLane k x).state = .ready ∧ (tretLane k x).regs = x.regs ∧ (tretLane k x).sp = x.sp ∧ (tretLane k x).wbase = x.wbase ∧
    (k = .skip ∨ r.code = fcTrap ∨ r.code = fcBrk → (tretLane k x).pc = r.after) ∧
    (k = .resume → r.code ≠ fcTrap → r.code ≠ fcBrk → (tretLane k x).pc = r.pc)
  )

/-! ## Memory (10_memory_instructions.md, 09_consistency.md) -/

/-- R194, R195, R198: a load leaves pending, for each active member in ascending lane order, the bytes that its core sees at the address when its turn
comes, zero-extended, and in p(8 + RP) whether the page is resident; it changes no register before that, and no byte of memory: the L1 alone may be
filled with what the homes hold, or drop a copy that a load has passed. Where the spec is open or read by inference this rests on assumption log 4, 6,
19 and 33. -/
def Obligations.LoadsComplete : Prop :=
  ∀ (h : Hdr) (d a : BitVec 6) (r : BitVec 3) (i : BitVec 5) (s : State),
    let loads := fun (ok : Bool) (n words : Nat) (ins : Instr) =>
      let f := formLoad h d a i ok words r
      let m := memLoad a i d n
      let u := s.accessing f
      accessesHere m false true f s = true → Completes f ins s (fun t =>
        LoadsOnly s t ((loadedBytes m u u (s.active h)).map (fun x =>
          (lanesMask [x.1], effWords s.curWarp x.1 d.toNat (ofBytesLE x.2) words ++
            effP x.1 (8 + r.toNat) ((m.halves u x.1).all (fun y => y.spot.resident)), 0))))
    loads (evenReg a) 1 1 (.ldb h d a r i) ∧ loads (evenReg a) 2 1 (.ldh h d a r i) ∧ loads (evenReg a) 4 1 (.ldw h d a r i) ∧
    loads (evenReg a && evenReg d) 8 2 (.ldd h d a r i) ∧ loads (evenReg a && quadReg d) 16 4 (.ldq h d a r i)

/-- R194, R199, R200, R264: a store of each active member, in ascending lane order; the members that find no room in the egress buffer wait for it
(09_consistency.md R190), and a store that posts a message commits the core before it. R7, R164, R176, R179: where the bytes of one half of a store
go: into the core's own bank, into its L1 as WRITTEN bytes, or into its egress buffer; in each case its own core sees them at once. Where the spec is
open or read by inference this rests on assumption log 6, 32, 90 and 102. -/
def Obligations.StoresComplete : Prop :=
  (
  ∀ (h : Hdr) (d a : BitVec 6) (r : BitVec 3) (r2 : BitVec 2) (i : BitVec 5) (hf : BitVec 1) (s : State),
    let stores := fun (ok : Bool) (n words : Nat) (data : State → Nat → Nat) (ins : Instr) =>
      let f := formStore h d a i ok words
      let m := memStore a i n r.toNat
      HasEffectIf f ins s (storesHere m f s = true)
        (stored f m s (fun v => storeEach v v.modrCp false (m.halves v) (storeLane m (data v) v) (s.active h)))
    stores (evenReg a && decide (r.toNat ≤ 2)) 1 1 (fun u l => (u.g l d.toNat 2).toNat) (.stb h d a r i) ∧
    stores (evenReg a && decide (r.toNat ≤ 2)) 2 1 (fun u l => (u.g l d.toNat 2).toNat) (.sth h d a r i) ∧
    stores (evenReg a && decide (r.toNat ≤ 2)) 4 1 (fun u l => (u.g l d.toNat 2).toNat) (.stw h d a r i) ∧
    stores (evenReg a && evenReg d && decide (r.toNat ≤ 2)) 8 2 (fun u l => (u.gd l d.toNat 2).toNat) (.std h d a r i) ∧
    stores (evenReg a && quadReg d && decide (r.toNat ≤ 2)) 16 4 (fun u l => u.gq l d.toNat 2) (.stq h d a r i) ∧
    (let f := formStore h d a i (evenReg a && decide (r2.toNat ≤ 2)) 1
     let m := memStn a i r2.toNat
     HasEffectIf f (.stn h d a hf r2 i) s (storesHere m f s = true)
      (stored f m s (fun v => storeEach v v.modrCp true (m.halves v) (stnLane m (hf == 1) (fun l => (v.g l d.toNat 2).toNat) v) (s.active h))))
  ) ∧ (
  ∀ (s : State) (w : Who) (cp : Nat) (x : Half) (bs : List Byte), s.memOk = true → bs.length = x.len →
    let t := writeHalf s w cp x bs
    (∀ o v, x.spot = .bank w.core o v →
      (∀ a, memRead (t.core w.core).st.scratch a =
        if o ≤ a ∧ a < o + x.len then bs.getD (a - o) 0 else memRead (s.core w.core).st.scratch a) ∧
      t.hbm = s.hbm ∧ t.l2 = s.l2 ∧ ∀ c, c ≠ w.core → t.core c = s.core c) ∧
    (∀ c o v, x.spot = .bank c o v → c ≠ w.core → (t.core c).st.scratch = (s.core c).st.scratch ∧
      ∀ a, scratchByte t w.core c a = if o ≤ a ∧ a < o + x.len then bs.getD (a - o) 0 else scratchByte s w.core c a) ∧
    (∀ pa leaf us a, x.spot = .glob pa leaf → viaEgress w cp false x = false →
      coreByte t w.core us a = if pa ≤ a ∧ a < pa + x.len then bs.getD (a - pa) 0 else coreByte s w.core us a) ∧
    (∀ pa leaf us a, x.spot = .glob pa leaf → viaEgress w cp false x = true → pa % 128 + x.len ≤ 128 →
      pa ≤ a → a < pa + x.len → coreByte t w.core us a = bs.getD (a - pa) 0)
  )

/-- R199: the frame of the stores, where no message is posted and the egress buffer has room. Registers, predicates, stacks and every byte that no half of
a store touches read as before; the addresses are those of the halves that the checks of Table 10-1 found. -/
def Obligations.StoreFrame : Prop :=
  ∀ (h : Hdr) (d a : BitVec 6) (r : BitVec 3) (i : BitVec 5) (s t : State), s.memOk = true →
    let keeps := fun (n words : Nat) (data : State → Nat → Nat) (ins : Instr) =>
      let f := formStore h d a i (legal ins) words
      let m := memStore a i n r.toNat
      let u := s.accessing f
      let who := fun l => whoOf u s.cur.core s.cur.slot l
      let after := storeEach u u.modrCp false (m.halves u) (storeLane m (data u) u) (s.active h)
      performs f s = true → accessesHere m true false f s = true → m.posts (s.charged f) (s.active h) = false →
      m.posts (s.issued f) (s.active h) = false → after.2 = [] → egressFull after.1 s.cur.core = false → exec ins s = .next t →
        AtNext s t ∧ (∀ l j, t.g l j = s.g l j) ∧ (∀ l k, t.p l k = s.p l k) ∧ (∀ l, (t.curLane l).rest = (s.curLane l).rest) ∧
        t.curWarp.rest = s.curWarp.rest ∧
        (∀ pa, homeByte t pa = homeByte s pa) ∧
        (∀ c us pa, (∀ l ∈ s.active h, ∀ x ∈ m.halves u l, x.touches (who l) s.modrCp false pa = false) →
          coreByte t c us pa = coreByte s c us pa) ∧
        (∀ v c off, (∀ l ∈ s.active h, ∀ x ∈ m.halves u l, x.touchesBank c off = false) →
          scratchByte t v c off = scratchByte s v c off)
    keeps 1 1 (fun u l => (u.g l d.toNat 2).toNat) (.stb h d a r i) ∧ keeps 2 1 (fun u l => (u.g l d.toNat 2).toNat) (.sth h d a r i) ∧
    keeps 4 1 (fun u l => (u.g l d.toNat 2).toNat) (.stw h d a r i) ∧ keeps 8 2 (fun u l => (u.gd l d.toNat 2).toNat) (.std h d a r i) ∧
    keeps 16 4 (fun u l => u.gq l d.toNat 2) (.stq h d a r i)

/-- R201 to R205: the atomics of the active members, at a persist point: the release, the commit with its intents, each member's read, write and result in
one step in ascending lane order, and the acquire. R202: the new value of an integer atomic, for 32-bit and 64-bit operands. R188, R201, R204: with
nothing of its core waiting in the egress buffer, one member's atomic reads what the home holds once the line's WRITTEN bytes have passed to it, and
leaves that old value pending as its result; with no store waiting at the home for the line it replaces the bytes there, or leaves them where it
writes no new value; bytes outside it do not change. A core that is to lose power in an atomic has committed its intents and written nothing
(20_programs_memory_power.md R392). Where the spec is open or read by inference this rests on assumption log 19 and 35. -/
def Obligations.AtomicsComplete : Prop :=
  (
  ∀ (h : Hdr) (d a b : BitVec 6) (o : BitVec 3) (k : BitVec 2) (s : State),
    let atomics := fun (f : Form) (m : AtomForm) (fn : AtomFn) (ins : Instr) =>
      PersistsIf f ins s (accessesHere m.mem false true f s = true ∧ (s.core s.cur.core).cut ≠ .armed) (accessed f m.mem s (fun v => m.perform fn v (s.active h)))
    let cas := fun (n : Nat) (ok : Bool) (val : State → Nat → Nat → Nat → Nat) (ins : Instr) =>
      atomics (casForm h d a b n ok) { size := 4 * n, addr := a.toNat, dst := d.toNat, words := n }
        (fun u l old => (if old = val u l d.toNat 2 then some (val u l b.toNat 1) else none, 0)) ins
    let rmw := fun (u : State) (l reg old : Nat) => (some (atomNew o.toNat k.toNat old (u.operandT k l reg)), (0 : OpFlags))
    atomics (formAtom h (evenReg a && decide (o.toNat ≤ 6) && (decide (k.toNat ≤ 1) || evenReg d))
        (regsOf a.toNat 2 ++ regsOf d.toNat (wideT k)) (regsOf d.toNat (wideT k)))
      { size := 4 * wideT k, addr := a.toNat, dst := d.toNat, words := wideT k } (fun u l old => rmw u l d.toNat old) (.atom h d a o k) ∧
    atomics (formAtom h (evenReg a && decide (o.toNat ≤ 2)) (regsOf a.toNat 2 ++ [d.toNat]) [d.toNat])
      { size := 4, addr := a.toNat, dst := d.toNat, words := 1 }
      (fun u l old => (some (atomfNew o.toNat old (u.g l d.toNat 2).toNat).1, (atomfNew o.toNat old (u.g l d.toNat 2).toNat).2)) (.atomf h d a o) ∧
    cas 1 (evenReg a) (fun u l r k => (u.g l r k).toNat) (.cas h d a b) ∧
    cas 2 (evenReg a && evenReg d && evenReg b) (fun u l r k => (u.gd l r k).toNat) (.casD h d a b) ∧
    cas 4 (evenReg a && quadReg d && quadReg b) (fun u l r k => u.gq l r k) (.casQ h d a b) ∧
    atomics (formAtom h (evenReg a && decide (o.toNat ≤ 6) && o != 1 && (decide (k.toNat ≤ 1) || evenReg b))
        (regsOf a.toNat 2 ++ regsOf b.toNat (wideT k)) [])
      { size := 4 * wideT k, addr := a.toNat, dst := 0, words := 0 } (fun u l old => rmw u l b.toNat old) (.red h o k a b)
  ) ∧ (
  (∀ x y : Word, atomNew 0 0 x.toNat y.toNat = (x + y).toNat ∧ atomNew 1 0 x.toNat y.toNat = y.toNat ∧
    atomNew 2 0 x.toNat y.toNat = (if y.slt x then y else x).toNat ∧ atomNew 3 0 x.toNat y.toNat = (if x.slt y then y else x).toNat ∧
    atomNew 2 1 x.toNat y.toNat = (if y.ult x then y else x).toNat ∧ atomNew 3 1 x.toNat y.toNat = (if x.ult y then y else x).toNat ∧
    atomNew 4 0 x.toNat y.toNat = (x &&& y).toNat ∧ atomNew 5 0 x.toNat y.toNat = (x ||| y).toNat ∧
    atomNew 6 0 x.toNat y.toNat = (x ^^^ y).toNat) ∧
  (∀ x y : DWord, atomNew 0 2 x.toNat y.toNat = (x + y).toNat ∧ atomNew 1 2 x.toNat y.toNat = y.toNat ∧
    atomNew 2 2 x.toNat y.toNat = (if y.slt x then y else x).toNat ∧ atomNew 3 2 x.toNat y.toNat = (if x.slt y then y else x).toNat ∧
    atomNew 2 3 x.toNat y.toNat = (if y.ult x then y else x).toNat ∧ atomNew 3 3 x.toNat y.toNat = (if x.ult y then y else x).toNat)
  ) ∧ (
  (∀ (f : AtomForm) (fn : AtomFn) (s : State) (ls : List Nat), ls ≠ [] → (s.core s.cur.core).cut = .armed →
    let t := f.perform fn s ls
    (t.core s.cur.core).cut = .due ∧ (t.core s.cur.core).epochs.length = (s.core s.cur.core).epochs.length + 1 ∧
    (((t.core s.cur.core).epochs.getLast?).map (·.intents)) = some (ls.map (f.intent s)) ∧ ∀ pa, homeByte t pa = homeByte s pa) ∧
  ∀ (f : AtomForm) (fn : AtomFn) (s0 s : State) (l pa : Nat) (leaf : Leaf) (x : Half) (rest : List Half),
    f.mem.halves s0 l = x :: rest → x.spot = .glob pa leaf → (∀ j, j < f.size → paTarget (pa + j) = .hbm) → pa % 128 + f.size ≤ 128 →
    let who := whoOf s0 s0.cur.core s0.cur.slot l
    let u := takeLine s who x.spot
    let old := atomRead u who f.size x.spot
    let t := f.lane fn s0 s l
    ((u.core who.core).egress = [] → old = ofBytesLE (homeBytes u pa f.size)) ∧
    (Home s → effWords s.curWarp l f.dst old f.words ≠ [] → ∃ r ∈ t.curWarp.pend, r.lanes = lanesMask [l] ∧
      r.effs = effWords s.curWarp l f.dst old f.words ∧ r.flags = (fn s0 l old).2) ∧
    (∀ v, (fn s0 l old).1 = some v → (∀ e ∈ u.held, ∀ q ∈ e.cells, q / 128 ≠ pa / 128) → (∀ j, j < f.size → homeByte t (pa + j) = (bytesLE f.size v).getD j 0) ∧
      ∀ q, (q < pa ∨ pa + f.size ≤ q) → homeByte t q = homeByte u q) ∧
    ((fn s0 l old).1 = none → ∀ q, homeByte t q = homeByte u q) ∧
    (∀ c ∈ (u.core who.core).l1w, c.1 / 128 ≠ pa / 128) ∧ ∀ c ∈ (u.core who.core).l1s, c.1 / 128 ≠ pa / 128
  )

/-- R206 to R208: PHASE.acq drops the SHARED lines of the core's L1, PHASE.rel publishes at .motif and wider and has peers acknowledge at .sys,
PHASE.acqrel does both, the release first; PFENCE commits the core with cause 1, and at .motif has the slice's dirty lines mirrored (08_memories.md
R162). R180, R190, R191, R207: a publication leaves the core no WRITTEN byte and no waiting store and commits one epoch, at once or when what it has
pushed into the egress buffer leaves; with an empty egress buffer, and no line at its home that a store must wait for, each WRITTEN byte stands at its
home afterwards and no other byte changes there; an acquire leaves no SHARED byte and no other difference. Where the spec is open or read by inference
this rests on assumption log 6, 10, 16 and 82. -/
def Obligations.PhasesAndFences : Prop :=
  (
  ∀ (h : Hdr) (c : BitVec 3) (s : State),
    let scope := if c.toNat = 0 then 4 else c.toNat
    let f := fun (k : BitVec 2) => ({ h := h, ok := legal (.phase h k c), persist := (k == 1 || k == 2) && decide (3 ≤ scope) } : Form)
    let publish := fun (u : State) => if scope < 3 then u else if scope = 5 then acknowledgePeers (releaseWide u u.cur.core) else releaseOut u u.cur.core
    HasEffect (f 0) (.phase h 0 c) s (fun u => acquire u u.cur.core) ∧
    (scope < 3 → HasEffect (f 1) (.phase h 1 c) s (fun u => u) ∧ HasEffect (f 2) (.phase h 2 c) s (fun u => acquire u u.cur.core)) ∧
    PersistsIf (f 1) (.phase h 1 c) s True publish ∧
    PersistsIf (f 2) (.phase h 2 c) s True (fun u => acquire (publish u) (publish u).cur.core) ∧
    PersistsIf { h := h, ok := legal (.pfence h c), persist := true } (.pfence h c) s True (fun u =>
      if c.toNat = 3 then mirrorMotif (commitCore u u.cur.core 1 []) (u.cur.core / 8) else commitCore u u.cur.core 1 [])
  ) ∧ (
  ∀ (s : State) (c : Nat),
    ((releaseWide s c).core c).l1w = [] ∧ ((releaseWide s c).core c).egress = [] ∧
    ((releaseWide s c).core c).epochs.length = (s.core c).epochs.length + 1 ∧
    ((releaseOut s c).core c).l1w = [] ∧ ((releaseDue (releaseOut s c) c).core c).egress = [] ∧
    ((releaseOut s c).core c).epochs.length = (s.core c).epochs.length + 1 ∧
    ((s.core c).egress = [] → s.held = [] → s.engines = [] → (∀ m, (s.motif m).loaded = true) →
      (∀ x ∈ (s.core c).l1w, paTarget x.1 = .hbm) → (s.core c).l1w.Pairwise (fun x y => x.1 < y.1) →
      ∀ pa, homeByte (releaseWide s c) pa = match mfind (s.core c).l1w pa with | some b => b | none => homeByte s pa) ∧
    ((acquire s c).core c) = { s.core c with l1s := [] } ∧ ∀ d, d ≠ c → (acquire s c).core d = s.core d
  )

/-- R209, R210: CWB and CINV pass the WRITTEN bytes of each member's line to the egress buffer and keep or drop the line, and CWB changes no byte that the
core sees; members for whose line the buffer has no entry wait, and the others go on; ZLINE stores 128 zero bytes; PREF fills the L1 where a load
would be performed, and a prefetch into the home L2 changes no state that a program sees. R211, R212: PGREQ posts one message for each region of pages
that are mapped, readable and not resident, and does nothing where there is none; PGPROBE leaves pending whether each member's page is mapped,
readable and resident, and faults nowhere. Where the spec is open or read by inference this rests on assumption log 32, 39 and 71. -/
def Obligations.LinesAndPages : Prop :=
  (
  ∀ (h : Hdr) (a : BitVec 6) (s : State),
    let f := fun (i : Instr) => formLine h a (legal i)
    let room := fun (i : Instr) => egressFull (s.charged (f i)) s.cur.core = false ∨
      ∀ l ∈ s.active h, ∀ x, lineOf (s.charged (f i)) a.toNat l = some x → holdsWritten (s.charged (f i)) s.cur.core x.1 = false
    HasEffectIf (f (.cwb h a)) (.cwb h a) s (room (.cwb h a)) (fun u => storesOut (lineBackEach a true u (s.active h))) ∧
    HasEffectIf (f (.cinv h a)) (.cinv h a) s (room (.cinv h a)) (fun u => storesOut (lineBackEach a false u (s.active h))) ∧
    (∀ (c line part : Nat) (keep : Bool), (∀ x ∈ ((lineBack s c line part keep).core c).l1w, x.1 / 128 ≠ line) ∧
      (keep = false → ∀ x ∈ ((lineBack s c line part keep).core c).l1s, x.1 / 128 ≠ line) ∧
      ((s.core c).l1w.Pairwise (fun x y => x.1 < y.1) → ∀ pa, coreByte (lineBack s c line part true) c true pa = coreByte s c true pa)) ∧
    HasEffectIf (f (.zline h a)) (.zline h a) s (storesHere (memZline a) (f (.zline h a)) s = true)
      (stored (f (.zline h a)) (memZline a) s (fun v => storeEach v v.modrCp false ((memZline a).halves v)
        (storeLane (memZline a) (fun _ => 0) v) (s.active h))) ∧
    HasEffect (f (.pref h a 1)) (.pref h a 1) s (fun u => u) ∧
    HasEffect (f (.pref h a 0)) (.pref h a 0) s (fun u => u.eachLane (s.active h) (fun v l => match lineOf v a.toNat l with
      | some (line, leaf) =>
        if leaf.canRead && leaf.ca == 0 && !tagReserved v (line * 128) && !lineBusy v (line * 128) then
          fillSectors v v.cur.core (line * 128) 128 else v
      | none => v))
  ) ∧ (
  ∀ (h : Hdr) (a : BitVec 6) (q : BitVec 4) (s : State),
    let f : Form := { formLine h a (legal (.pgreq h a)) with persist := true }
    let posts := pgPosts (s.issued f) a.toNat (s.active h)
    let fine := ∀ l ∈ s.active h, pgCheck (s.charged f) a.toNat l = none
    PersistsIf f (.pgreq h a) s (fine ∧ posts = []) pgRelease ∧
    PersistsIf f (.pgreq h a) s (fine ∧ posts ≠ [] ∧ (pgSend (s.issued f) posts).2 = [])
      (fun u => pgRelease (pgSend (persistPoint u u.cur.core []) posts).1) ∧
    (let g : Form := { formLine h a (legal (.pgprobe h a q)) with pdst := [q.toNat] }
     HasEffect g (.pgprobe h a q) s (fun u => u.eachLane (s.active h) (fun v l =>
      v.addLane l (effP l q.toNat (match accessCheck u (whoOf u u.cur.core u.cur.slot l) .load (u.gd l a.toNat).toNat 1 1 with
        | .ok hs => hs.all (fun x => x.spot.resident)
        | .error _ => false)) 0)))
  )

/-- R213 to R221, R243: the copies and the store of accumulators start one engine operation with the shapes and the completion target captured at issue;
CHAIN commits its intent and starts an idle channel at a record, and does nothing for a head of 0. R214, R228: an operation that starts stands among
the engines with its kind, its shapes, its count and its target as captured, its issue commits the core with its intent as a persist point, and its
requests for holds stand behind the earlier ones. Where the spec is open or read by inference this rests on assumption log 8, 42, 43, 46 and 51. -/
def Obligations.CopiesStart : Prop :=
  (
  ∀ (h : Hdr) (x y z ec : BitVec 4) (fl : BitVec 1) (fa : BitVec 2) (a b : BitVec 6) (s : State),
    let d := s.shape x.toNat
    let src := s.shape y.toNat
    (let n := tensorCount d (withScales d src)
     StartsIf (formEng h ec (legal (.acpy h x y ec fl)) (ceilDiv n 4096) [30, 31] [x.toNat, y.toNat]) (.acpy h x y ec fl) s
      (fun u => acpyFault u x.toNat y.toNat (fl == 1))
      (fun u => startCopy u (u.copyEngine .acpy [d, src] (fl == 1) (shUnits d (withScales d src)) n [src]) [src] d)) ∧
    (let mask := bits (s.sr 29).toNat 0 8
     let n := tensorCount d (withScales d src) * popcount 8 mask
     StartsIf (formEng h ec (legal (.acpym h x y ec fl)) (ceilDiv n 4096) [29, 30, 31] [x.toNat, y.toNat]) (.acpym h x y ec fl) s
      (fun u => acpymFault u x.toNat y.toNat (fl == 1))
      (fun u => startEngine u ((u.copyEngine (.acpym mask) [d, src] (fl == 1) (shUnits d (withScales d src)) n [src]).owning u.cur.core d)
        (tensorRanges u.cur.core src) ((mcastCores u.cur.core mask).flatMap (fun c => destHolds u c d)))) ∧
    (let wide := decide (shWidth d = 64)
     let n := tensorCount d false
     StartsIf (formEng h ec (legal (.afill h x ec fl)) (ceilDiv n 4096) ([28, 30, 31] ++ (if wide then [29] else [])) [x.toNat]) (.afill h x ec fl) s
      (fun u => afillFault u x.toNat (fl == 1))
      (fun u => startCopy u (u.copyEngine (.afill ((if wide then (pairVal (s.sr 28) (s.sr 29)).toNat else (s.sr 28).toNat) % 2 ^ shWidth d))
        [d] (fl == 1) (shUnits d false) n []) [] d)) ∧
    (let i := s.shape z.toNat
     let n := tensorCount d false
     StartsIf (formEng h ec (legal (.agthr h x y z ec fl)) (ceilDiv n 4096) [30, 31] [x.toNat, y.toNat, z.toNat]) (.agthr h x y z ec fl) s
      (fun u => agthrFault u x.toNat y.toNat z.toNat (fl == 1))
      (fun u => startCopy u (u.copyEngine .agthr [d, src, i] (fl == 1) (shUnits d false) n [src, i]) [src, i] d)) ∧
    (let n := tensorCount d false
     let bw := bitOf fa.toNat 0
     let clr := bitOf fa.toNat 1
     StartsIf { formEng h ec (legal (.accst h x y ec fa)) (ceilDiv n 4096) [30, 31] [x.toNat, y.toNat] with streamOk := false }
      (.accst h x y ec fa) s (fun u => accstFault u x.toNat y.toNat bw)
      (fun u => startEngine u ((u.copyEngine (.accst clr) [d, src] bw (shUnits d false) n []).owning u.cur.core d) []
        ((destHolds u u.cur.core d).map (fun k => (k.1, { k.2 with entries := regionRuns src, exclEntries := clr }))))) ∧
    (let f : Form := { h := h, ok := legal (.chain h a b), src := a.toNat :: regsOf b.toNat 2, uniform := true, guestOk := false, streamOk := true,
                       persist := true }
     let lead := (s.active h).headD 0
     let number := fun (u : State) => (u.g lead a.toNat).toNat
     let head := fun (u : State) => (u.gd lead b.toNat 1).toNat
     let fine := chainFault (s.charged f) (number (s.charged f)) (head (s.charged f)) = none
     PersistsIf f (.chain h a b) s (fine ∧ head (s.charged f) = 0 ∧ head (s.issued f) = 0) (fun u => u) ∧
     PersistsIf f (.chain h a b) s (fine ∧ head (s.issued f) ≠ 0 ∧ ((s.charged f).channel (number (s.charged f))).busy = false)
      (fun u => startChannel (persistPoint u u.cur.core [.chain (number u) (head u) u.cur.word]) (number u) (head u)))
  ) ∧ (
  ∀ (s : State) (e : Engine) (holds : List (Nat × Hold)),
    let t := startEngine s e [] holds
    let id := s.fresh
    (∃ x, mfind t.engines id = some x ∧ x.kind = e.kind ∧ x.shapes = e.shapes ∧ x.ctr = e.ctr ∧ x.bw = e.bw ∧ x.count = e.count ∧
      x.total = e.total ∧ x.core = s.cur.core ∧ x.part = s.curPart ∧ x.launch = s.curWarp.launch ∧ x.gid = s.curWarp.group) ∧
    (∀ k, k ≠ id → mfind t.engines k = mfind s.engines k) ∧
    (∃ ep, (t.core s.cur.core).epochs.getLast? = some ep ∧ ep.intents = [.engine id]) ∧
    (t.core s.cur.core).egress = [] ∧
    ∀ c, ((t.core c).holds.map (fun h => (h.banks, h.entries, h.excl, h.exclEntries))) =
      ((s.core c).holds ++ (holds.filter (fun x => x.1 == c)).map (·.2)).map (fun h => (h.banks, h.entries, h.excl, h.exclEntries))
  )

/-- R187, R215, R216, R246, R248: a copy or a stack engine that may act performs the rest of its work unit by unit, each of which releases what no unit
left needs, and completes with its count and the status that it met; one that meets a failure reports its code and its address and adds nothing, and
has a line with a reserved tag rewritten (R253). R228: HOLD_GRANT grants a request that no earlier request of the core excludes, while the banks run,
a check's requests one after the other (R235); ACCRD, ACCLD and ACCCLR then act. R215, R297 to R299: an operation that ends is no longer among the
engines and holds nothing; an addition to a completion counter adds to VALUE modulo 2^64, and writes CODE only where CODE is 0. Where the spec is open
or read by inference this rests on assumption log 8 and 49. -/
def Obligations.EnginesComplete : Prop :=
  (
  (∀ (s s1 : State) (op : Nat) (e : Engine), mfind s.engines op = some e → engReady s e = true →
    let now := (mfind s1.engines op).getD e
    (e.kind.isCopy = true → staleBank s e = none → unitsE copyUnit op s e.rest = .ok s1 →
      Happens (.copyCompletion op) s (fun t => t = completeEngine s1 now)) ∧
    (e.kind.isRow = true → e.total ≤ e.next → Happens (.stackEngineCompletion op) s (fun t => t = completeEngine s e)) ∧
    (e.kind.isNear = true → unitsE engUnit op s e.rest = .ok s1 →
      Happens (.stackEngineCompletion op) s (fun t => t = completeEngine s1 now))) ∧
  (∀ (s s1 : State) (op : Nat) (e : Engine), mfind s.engines op = some e → e.kind.isRow = true → e.next < e.total → unitReady s e e.next = true →
    rowSegment s e e.next = .ok s1 →
    Happens (.rowSegment op) s (fun t => t.hbm = s1.hbm ∧ t.l2 = s1.l2 ∧ t.tags = s1.tags ∧
      (mfind t.engines op).map (fun x => (x.next, x.path, x.lines)) =
        (mfind s1.engines op).map (fun x => (x.next + 1, x.path ||| (if e.arr s e.next then 1 else 2), [])))) ∧
  (∀ (s : State) (op : Nat) (e : Engine) (x : Nat × Nat), mfind s.engines op = some e → engMay s e = true → engFailure s e = some x →
    Happens (.copyFailure op) s (fun t => t = failAt (settleFailed s e) e x.1 x.2)) ∧
  (∀ (s : State) (e : Engine), completeEngine s e = reportEngine (endEngine s e) e e.count e.status e.info) ∧
  (∀ (s : State) (e : Engine) (code addr : Nat),
    (code ≠ 9 → failAt s e code addr = reportEngine (endEngine s e) e 0 code (infoOf addr)) ∧
    (code = 9 → (∀ pa, devPa s e.part false addr = .ok pa → failAt s e code addr = reportEngine (endEngine (clearTagged s pa) e) e 0 9 (infoOf addr)) ∧
      (∀ x, devPa s e.part false addr = .error x → failAt s e code addr = reportEngine (endEngine s e) e 0 9 (infoOf addr)))) ∧
  (∀ (s : State) (op u : Nat) (e : Engine), mfind s.engines op = some e →
    let t := unitDone s op u
    ∃ x, mfind t.engines op = some x ∧ x.done = u :: e.done ∧ x.kind = e.kind ∧ x.count = e.count ∧ t.hbm = s.hbm ∧ t.l2 = s.l2 ∧
      (∀ c, e.hold ≠ none → (t.core c).holds = (s.core c).holds.map (fun h => if h.op = some e.id then
          { h with banks := h.banks.filter (fun b => (x.rest.flatMap (unitBanks s x)).contains (c, b)),
                   entries := if h.entries.isEmpty then [] else x.owedEntries.map (fun n => (n, 1)) }
        else h)) ∧
      (e.hold = none → ∀ c, (t.core c).holds = (s.core c).holds) ∧
      (e.kind.isCopy = true → ∀ line, (∀ k, 4 * line ≤ k → k < 4 * line + 4 →
          (shBase (e.sh 0) / 32 ≤ k → k - shBase (e.sh 0) / 32 ∈ x.done) ∧
          (shScale (e.sh 0) / 32 ≤ k → elemSectors (e.sh 0) + (k - shScale (e.sh 0) / 32) ∈ x.done)) →
        x.ownsLine line = false))
  ) ∧ (
  (∀ (s : State) (core id : Nat) (h : Hold), (s.core core).holds.find? (fun x => x.id == id) = some h → h.granted = false →
    holdFree ((s.core core).holds.takeWhile (fun x => x.id != id)) h = true → holdTurn s h = true → banksStop s core = false →
    Happens (.holdGrant core id) s (fun t => t = afterGrant (s.modCore core (fun k =>
      { k with holds := k.holds.map (fun x => if x.id = id then { x with granted := true } else x) })) core { h with granted := true })) ∧
  (∀ (a b : Hold), a.conflicts b = true ↔
    ((a.excl = true ∨ b.excl = true) ∧ ∃ x, x ∈ a.banks ∧ x ∈ b.banks) ∨
    ((a.exclEntries = true ∨ b.exclEntries = true) ∧
      ∃ x ∈ a.entries, ∃ y ∈ b.entries, x.1 < y.1 + y.2 ∧ y.1 < x.1 + x.2))
  ) ∧ (
  (∀ (s : State) (e : Engine) (add code info : Nat), let t := reportEngine (endEngine s e) e add code info
    mfind t.engines e.id = none ∧ ∀ c, ∀ h ∈ (t.core c).holds, h.op ≠ some e.id) ∧
  (∀ (s : State) (p core va add code info path : Nat) (sp : CtrSpot), findBind s va = none → ctrSpot s p core va = some sp →
    (∀ pa comp, sp = .glob pa comp → ∀ i, i < 16 → paTarget (pa + i) = .hbm) → s.memOk = true →
    (∀ h ∈ s.held, ∀ q ∈ h.cells, ∀ r ∈ h.cells, q / 128 = r / 128) →
    let old := ctrRead s sp
    let new := ctrRead (counterUpdate s p core va add code info path) sp
    ctrValue new = (ctrValue old + add) % 2 ^ 64 ∧ (ctrCode old ≠ 0 → ctrCode new = ctrCode old) ∧
    (ctrCode old = 0 → ctrCode new = code % 256))
  )

/-! ## Banks, matrix loops and stacks (11_banks_matrix.md, 12_stacks.md) -/

/-- R231 to R235: BALLOC takes the lowest run of open banks on every core of the span set, or gives 0xFFFFFFFF, at a persist point of each core; BFREE and
BMODE request exclusive holds on a run that the group holds; BSTAT gives the status word; BCHK parks its members until its banks are checked, and asks
for each of them, at a persist point (R191). R152, R223, R231, R232, R236: the events of banks. A freed bank is cleared before it is given again; a
check goes through its banks in order, sets CHKERR of each from the sums and releases it, and where one mismatches faults the members that wait for
it; its core commits its end (R244). R152, R222, R231: a bank that a group receives reads zero everywhere, with zero entries, side stores and live
tags. Where the spec is open or read by inference this rests on assumption log 49 and 94 to 96. -/
def Obligations.Banks : Prop :=
  (
  ∀ (h : Hdr) (d a b : BitVec 6) (s : State),
    let lead := (s.active h).headD 0
    (let f : Form := { h := h, ok := legal (.balloc h d a), src := [a.toNat], dst := [d.toNat], uniform := true, guestOk := false, persist := true }
     let give := fun (u : State) (v : Word) => u.eachLane (s.active h) (fun w l => w.addLane l (effG w.curWarp l d.toNat v) 0)
     PersistsIf f (.balloc h d a) s (ballocRun (s.charged f) a.toNat lead = none ∧ ballocRun (s.issued f) a.toNat lead = none)
      (fun u => persistPoint (give u 0xFFFFFFFF) (give u 0xFFFFFFFF).cur.core []) ∧
     ∀ first n, PersistsIf f (.balloc h d a) s
      (ballocRun (s.issued f) a.toNat lead = some (first, n) ∧ ballocRun (s.charged f) a.toNat lead = some (first, n) ∧
        ∀ c ∈ (s.charged f).curSpan, commitWaits (s.charged f) c = false ∧ ∀ k ∈ upFrom n first,
          (((s.charged f).core c).st.bank k).clearing = false ∧ lazyBusy (s.charged f) c k = false)
      (fun u =>
        let v := giveBanks u u.curWarp.group (bitOf (u.g lead a.toNat).toNat 8) u.curSpan (upFrom n first)
        (give v (BitVec.ofNat 32 first)).curSpan.foldl (fun w c => persistPoint w c []) (give v (BitVec.ofNat 32 first)))) ∧
    (let f : Form := { h := h, ok := legal (.bfree h a), src := [a.toNat], uniform := true, guestOk := false, persist := true }
     PersistsIf f (.bfree h a) s (runFault (s.charged f) ((s.charged f).g lead a.toNat) = none ∧
        runBusyWord (s.charged f) ((s.charged f).g lead a.toNat) = none)
      (fun u => addEngine u (u.bankEngine (.bfree (runFirst (u.g lead a.toNat)) (runCount (u.g lead a.toNat))) lead) (runHolds u (u.g lead a.toNat)))) ∧
    (let f : Form := { h := h, ok := legal (.bmode h a b), src := [a.toNat, b.toNat], uniform := true, guestOk := false, persist := true }
     PersistsIf f (.bmode h a b) s (runFault (s.charged f) ((s.charged f).g lead a.toNat) = none)
      (fun u => addEngine u (u.bankEngine (.bmode (runFirst (u.g lead a.toNat)) (runCount (u.g lead a.toNat)) (bitOf (u.g lead b.toNat 1).toNat 0)) lead)
        (runHolds u (u.g lead a.toNat)))) ∧
    (let f : Form := { h := h, ok := legal (.bstat h d a), src := [a.toNat], dst := [d.toNat], uniform := true, guestOk := false }
     HasEffect f (.bstat h d a) s (fun u => u.eachLane (s.active h) (fun w l => w.addLane l (effG w.curWarp l d.toNat
      (BitVec.ofNat 32 (bankStatus u u.cur.core u.curWarp.group (bits (u.g lead a.toNat).toNat 0 6)))) 0))) ∧
    (let f : Form := { h := h, ok := legal (.bchk h a), src := regsOf a.toNat 2, uniform := true, guestOk := false, persist := true,
                       mult := popcount 64 (s.gd (s.leader h) a.toNat).toNat }
     PersistsIf f (.bchk h a) s (bchkFault (s.charged f) ((s.charged f).gd lead a.toNat).toNat = none)
      (fun u =>
        let m := (u.gd lead a.toNat).toNat
        let w := if (u.core u.cur.core).egress.isEmpty then u else persistPoint u u.cur.core []
        let v := parkHere w h (s.active h) (.bankCheck (w.fresh + 1))
        persistPoint (addEngine v (v.bankEngine (.bchk m) lead) ((maskBanks m).map (fun k =>
          (u.cur.core, { id := 0, banks := [k], entries := [], excl := true, exclEntries := false, op := none }))) true)
          u.cur.core [.engine (w.fresh + 1)]))
  ) ∧ (
  (∀ (s : State) (core b : Nat), ((s.core core).st.bank b).clearing = true → s.memOk = true →
    Happens (.bankClearDone core b) s (fun t => ((t.core core).st.bank b).owner = none ∧ ((t.core core).st.bank b).clearing = false ∧
      ∀ o, memRead (t.core core).st.scratch o = if o / 131072 = b then 0 else memRead (s.core core).st.scratch o)) ∧
  (∀ (s : State) (op : Nat) (e : Engine) (first n : Nat), mfind s.engines op = some e → engMay s e = true →
    (∀ c ∈ spanSet e.core e.span, commitWaits s c = false) →
    (e.kind = .bfree first n → Happens (.bankRunComplete op) s (fun t =>
      ∀ c ∈ spanSet e.core e.span, ∀ b ∈ upFrom n first, ((t.core c).st.bank b).owner = none ∧ ((t.core c).st.bank b).clearing = true)) ∧
    (∀ compute, e.kind = .bmode first n compute → Happens (.bankRunComplete op) s (fun t =>
      ∀ c ∈ spanSet e.core e.span, ∀ b ∈ upFrom n first, ((t.core c).st.bank b).compute = compute ∧
        ((t.core c).st.bank b).owner = ((s.core c).st.bank b).owner))) ∧
  (∀ (s : State) (op m b : Nat) (e : Engine) (h : Hold), mfind s.engines op = some e → e.kind = .bchk m → (maskBanks m)[e.next]? = some b →
    h ∈ (s.core e.core).holds → h.op = some op → h.banks = [b] → h.granted = true →
    b ∉ (s.core e.core).restoring → engPaused s e = false →
    let t := bchkAdvance s op
    let ok := bankSumsOk (s.core e.core).st b
    ((t.core e.core).st.bank b).chkerr = !ok ∧ (∀ k ∈ (t.core e.core).holds, ¬ (k.op = some op ∧ k.banks = [b])) ∧
    (mfind t.engines op).map (fun x => (x.next, x.info)) = some (e.next + 1, if ok = true then e.info else e.info + 2 ^ b)) ∧
  (∀ (s : State) (op m : Nat) (e : Engine), mfind (bchkRest s op).engines op = some e → e.kind = .bchk m → (maskBanks m).length ≤ e.next →
    commitWaits (bchkRest s op) e.core = false →
    Happens (.bchkCompletion op) s (fun t => t = commitCore (endCheck (bchkRest s op) e) e.core 0 [])) ∧
  (∀ (s : State) (e : Engine) (w : Warp), let u := endEngine s e
    u.warp? e.core e.slot = some w →
    let ls := (upFrom 32 0).filter (fun l => (w.lane l).state == .parked && (w.lane l).park == .bankCheck e.id)
    endCheck s e = settleWarp
      (if e.info = 0 then goOn u e.core e.slot ls
       else ls.foldl (fun v l => faultLane v e.core e.slot l (engRecord e (!(w.lane l).hints.isEmpty) fcBankCheck e.info
         (pcAfter (w.lane l).hpc ((w.lane l).hints.length + 1)))) u) e.core e.slot) ∧
  (∀ (s : State) (core b : Nat), let r := checkBank s core b
    ((r.1.core core).st.bank b).chkerr = r.2 ∧ (r.2 = true ↔ bankSumsOk (s.core core).st b = false))
  ) ∧ (
  ∀ (s : State) (gid core b : Nat) (compute : Bool), b < 64 → s.memOk = true → ((s.core core).st.bank b).owner = none →
    let k := ((giveBank s gid compute core b).core core).st
    (k.bank b).owner = some gid ∧ (k.bank b).compute = compute ∧ (k.bank b).clearing = false ∧ (k.bank b).live = [] ∧ (k.bank b).scale = [] ∧
    (∀ o, o / 131072 = b → memRead k.scratch o = 0) ∧ (∀ o, o / 131072 ≠ b → memRead k.scratch o = memRead (s.core core).st.scratch o) ∧
    (∀ i, i / 1024 = b → mget k.acc i 0 = 0) ∧ (∀ i, i / 1024 ≠ b → mget k.acc i 0 = mget (s.core core).st.acc i 0) ∧
    (∀ c, c ≠ b → k.bank c = (s.core core).st.bank c)
  )

/-- R237, R242: MLOOP starts a loop on its span with shared holds on its banks and exclusive ones on its region, its completion pending; ACCRD leaves
pending one entry for each member; ACCLD and ACCCLR start on a range of entries. R44, R238, R239: a loop's completion performs the steps left on each
core, journals what it wrote (R244), ends its holds and its pending result; what a step adds: integer accumulation wraps or saturates; float
accumulation sums a block's products exactly, scales the sum, rounds it once and adds it (R45); and an accumulator of a first step under .clr begins
at 0. Where the spec is open or read by inference this rests on assumption log 47 to 49 and 111. -/
def Obligations.MatrixLoops : Prop :=
  (
  ∀ (h : Hdr) (d a b : BitVec 6) (x y z ec fl : BitVec 4) (s : State),
    let lead := (s.active h).headD 0
    (let n := ((mloopCount s).getD 0).toNat
     let f : Form := { formEng h ec (legal (.mloop h x y z ec fl)) n (match s.imm with | some _ => [] | none => s.opnd.toList) [x.toNat, y.toNat, z.toNat] with
                       acc := { ecls := false, imm1 := true, imm2 := true, opndS := true } }
     PersistsIf f (.mloop h x y z ec fl) s (mloopFault (s.charged f) x.toNat y.toNat z.toNat (bitOf fl.toNat 2) = none)
      (fun u =>
        let v := addPending u { id := 0, lanes := lanesMask (s.active h), effs := [], op := some (u.fresh + 1) } (u.fresh + 1)
        let cores := mloopCores u (bitOf fl.toNat 2)
        startEngine v { v.bankEngine (.mloop n (bitOf fl.toNat 0) (bitOf fl.toNat 1) (bitOf fl.toNat 2) (bitOf fl.toNat 3)) lead with
          shapes := [u.shape x.toNat, u.shape y.toNat, u.shape z.toNat], span := cores.length, total := n, pathSeg := cores.map (fun _ => 0) } []
          (mloopHolds u.cur.core cores (u.shape x.toNat) (u.shape y.toNat) (u.shape z.toNat)))) ∧
    (let f : Form := { h := h, ok := legal (.accrd h d a), src := [a.toNat], dst := [d.toNat], guestOk := false }
     let fine := ∀ l ∈ s.active h, runEntryFault (s.charged f) (s.charged f).cur.core (s.charged f).curWarp.group (((s.charged f).g l a.toNat).toNat, 1) = none
     HasEffectIf f (.accrd h d a) s (fine ∧ d = 0) (fun u => u) ∧
     HasEffectIf f (.accrd h d a) s (fine ∧ d ≠ 0) (fun u =>
      let es := (s.active h).map (fun l => (l, (u.curLane l).wbase + d.toNat, (u.g l a.toNat).toNat))
      let r : PRes := { id := u.fresh + 1, lanes := lanesMask (s.active h), effs := [], acc := es, hold := some u.fresh }
      grantNew (addHold ({ u with fresh := u.fresh + 2 }.modCurWarp (fun w => { w with pend := w.pend ++ [r] })) u.cur.core
        { id := u.fresh, banks := [], entries := es.map (fun x => (x.2.2, 1)), excl := false, exclEntries := false, op := none }) u.cur.core u.fresh)) ∧
    (let f : Form := { h := h, ok := legal (.accld h a b), src := [a.toNat, b.toNat], uniform := true, guestOk := false }
     HasEffectIf f (.accld h a b) s (accldFault (s.charged f) ((s.charged f).g lead a.toNat).toNat ((s.charged f).g lead b.toNat 1) = none)
      (fun u => startRange u (s.active h) (.accld (u.g lead a.toNat).toNat (rangeFirst (u.g lead b.toNat 1)) (rangeCount (u.g lead b.toNat 1)))
        (rangeFirst (u.g lead b.toNat 1)) (rangeCount (u.g lead b.toNat 1)))) ∧
    (let f : Form := { h := h, ok := legal (.accclr h a), src := [a.toNat], uniform := true, guestOk := false }
     HasEffectIf f (.accclr h a) s (rangeFault (s.charged f) ((s.charged f).g lead a.toNat) = none)
      (fun u => startRange u (s.active h) (.accclr (rangeFirst (u.g lead a.toNat)) (rangeCount (u.g lead a.toNat)))
        (rangeFirst (u.g lead a.toNat)) (rangeCount (u.g lead a.toNat))))
  ) ∧ (
  (∀ (s : State) (op n : Nat) (clr sat spanned flex : Bool) (e : Engine), mfind s.engines op = some e → e.kind = .mloop n clr sat spanned flex →
    loopReady s op = true → Happens (.mloopCompletion op) s (fun t => let u := mloopRest s op n
      t = donePending (endEngine (journalLoop u ((mfind u.engines op).getD e)) e) e)) ∧
  (∀ (c : Word) (x : Int), (intAcc false c x).1 = wordOfInt (c.toInt + x) ∧
    (intAcc true c x).1.toInt = max (-(2 ^ 31)) (min (2 ^ 31 - 1) (c.toInt + x)) ∧
    ((intAcc true c x).2 = true ↔ (c.toInt + x < -(2 ^ 31) ∨ 2 ^ 31 - 1 < c.toInt + x))) ∧
  (∀ (s : State) (e : Engine) (core row arow col step : Nat) (clr sat flex : Bool), shFmt (e.sh 2) = 0x02 →
    let ka := step * (shStep (e.sh 0)).toNat
    let kw := step * (shStep (e.sh 1)).toNat
    let old : Word := if clr = true ∧ step = 0 then 0 else mget (s.core core).st.acc (accEntry (e.sh 2) [col, row]) 0
    let weight := fun (j : Nat) => let v := wCode (s.core core).st (e.sh 1) (kw + j) col; if flex then v / 4 * 4 else v
    mloopBlock s e core row arow col step clr sat flex = intAcc sat old
      ((upFrom 32 0).foldl (fun a j => a + int8Of (shFmt (e.sh 0)) (e.code s (e.sh 0) (shElem (e.sh 0) [ka + j, arow])) *
        int8Of (shFmt (e.sh 1)) (weight j)) 0)) ∧
  (∀ (s : State) (e : Engine) (core row arow col step : Nat) (clr sat flex : Bool), shFmt (e.sh 2) ≠ 0x02 →
    let ka := step * (shStep (e.sh 0)).toNat
    let kw := step * (shStep (e.sh 1)).toNat
    let old : Word := if clr = true ∧ step = 0 then 0 else mget (s.core core).st.acc (accEntry (e.sh 2) [col, row]) 0
    let xs := (upFrom 32 0).map (fun j => (shKind (e.sh 0)).value (e.code s (e.sh 0) (shElem (e.sh 0) [ka + j, arow])))
    let vs := (upFrom 32 0).map (fun j => (shKind (e.sh 1)).value
      (let v := wCode (s.core core).st (e.sh 1) (kw + j) col; if flex then v / 4 * 4 else v))
    let add := fun (x : FVal) => let r := floatAcc sat old.toNat (FFmt.f32.round .rn false x).1; (BitVec.ofNat 32 r.1, r.2)
    (∀ p q, aScale s e ka arow = some p → wScale (s.core core).st (e.sh 1) kw col = some q →
      mloopBlock s e core row arow col step clr sat flex = add ((blockSum xs vs).scale (p + q))) ∧
    (aScale s e ka arow = none ∨ wScale (s.core core).st (e.sh 1) kw col = none →
      mloopBlock s e core row arow col step clr sat flex = add (.nan false false))) ∧
  (∀ (ps : List ((Bool × Nat × Int) × (Bool × Nat × Int))) (low : Int), low ≤ 0 → (∀ p ∈ ps, low ≤ p.1.2.2 + p.2.2.2) →
    ∃ neg m x, blockSum (ps.map (fun p => .fin p.1.1 p.1.2.1 p.1.2.2)) (ps.map (fun p => .fin p.2.1 p.2.2.1 p.2.2.2)) = .fin neg m x ∧ low ≤ x ∧
      alignTo neg m x low = (ps.map (fun p => alignTo (p.1.1 != p.2.1) (p.1.2.1 * p.2.2.1) (p.1.2.2 + p.2.2.2) low)).foldl (· + ·) 0) ∧
  (∀ c t : Nat, floatAcc false c t = ((f32Add .rn c t).1, false) ∧ (floatAcc true c t).1 % 2 ^ 31 ≠ 0x7F800000 ∧
    (t % 2 ^ 31 ≠ 0x7F800000 → (f32Add .rn c t).1 % 2 ^ 31 ≠ 0x7F800000 → floatAcc true c t = ((f32Add .rn c t).1, false))) ∧
  (∀ (s : State) (e : Engine) (off first n : Nat),
    (e.kind = .accclr first n → ∀ i, first ≤ i → i < first + n → mget ((accWrite s e).core e.core).st.acc i 0 = 0) ∧
    (e.kind = .accld off first n → ∀ i, i < n → mget ((accWrite s e).core e.core).st.acc (first + i) 0 =
      BitVec.ofNat 32 (ofBytesLE (memReads (s.core e.core).st.scratch (off + 4 * i) 4))))
  )

/-- R245 to R247, R256 to R260: a row operation, NMX and NSEG start one engine operation on the shapes captured at issue, row operations after their
operands' dirty lines are written back; for MAJ3 the destination is a source too. R247, Table 12-2: a byte of each row operation. R252, R253, R255: a
dirty line that is written back leaves the slice with its bytes in DRAM; the bytes of the home do not change. The write-back of a dirty line is
performed, or stands last in the queue of its bank while that bank is under refresh (a free choice) or has commands queued, up to 16; a refresh
replays the bank's waiting lines in order of arrival, and the bound of a refresh issues the oldest. Where the spec is open or read by inference this
rests on assumption log 14, 50, 52 and 97. -/
def Obligations.StackEngines : Prop :=
  (
  ∀ (h : Hdr) (x y z ec : BitVec 4) (fl : BitVec 1) (md : BitVec 2) (s : State),
    let rows := fun (i : Instr) (kind : EngKind) (xs : List Nat) =>
      StartsIf (formEng h ec (legal i) (rowSegs (s.shape x.toNat)) [30, 31] xs) i s (fun u => rowFault u xs)
        (fun u => startStack u kind (xs.map s.shape) (if kind = .rbit 2 then xs.map s.shape else (xs.map s.shape).drop 1) (rowSegs (s.shape x.toNat)) (rowLen (s.shape x.toNat)) true)
    rows (.rcopy h x y ec) .rcopy [x.toNat, y.toNat] ∧
    rows (.rfill h x ec fl) (.rfill (fl == 1)) [x.toNat] ∧
    rows (.rbitAnd h x y z ec) (.rbit 0) [x.toNat, y.toNat, z.toNat] ∧
    rows (.rbitOr h x y z ec) (.rbit 1) [x.toNat, y.toNat, z.toNat] ∧
    rows (.rbitMaj3 h x y z ec) (.rbit 2) [x.toNat, y.toNat, z.toNat] ∧
    rows (.rbitNot h x y ec) (.rbit 3) [x.toNat, y.toNat] ∧
    rows (.rbitXor h x y z ec) (.rbit 4) [x.toNat, y.toNat, z.toNat] ∧
    (let ctl := (s.sr 23).toNat
     let xs := [x.toNat, y.toNat, z.toNat] ++ (if bitOf ctl 4 then [bits ctl 0 4] else [])
     StartsIf (formEng h ec (legal (.nmx h x y z ec)) (ceilDiv (shCount (s.shape x.toNat)) 1024) (upFrom 9 21 ++ [30, 31]) xs) (.nmx h x y z ec) s
      (fun u => nmxFault u x.toNat y.toNat z.toNat)
      (fun u => startStack u (.nmx (nmxProg u) (u.sr 21) (u.sr 22) (bitOf ctl 4)) (xs.map s.shape) ((xs.map s.shape).drop 1)
        (shUnits (s.shape x.toNat) false) (tensorCount (s.shape x.toNat) false) false)) ∧
    (let xs := [x.toNat, y.toNat, z.toNat, bits (s.sr 23).toNat 0 4]
     StartsIf (formEng h ec (legal (.nseg h x y z ec fl md)) (ceilDiv (shExt (s.shape z.toNat) 0) 32) [23, 30, 31] xs) (.nseg h x y z ec fl md) s
      (fun u => nsegFault u x.toNat y.toNat z.toNat)
      (fun u => startStack u (.nseg md.toNat (fl == 1)) (xs.map s.shape) ((xs.map s.shape).drop 1) 1 (tensorCount (s.shape x.toNat) false) false))
  ) ∧ (
  ∀ d x y : Byte, rbitByte 0 d x y = x &&& y ∧ rbitByte 1 d x y = x ||| y ∧ rbitByte 3 d x y = ~~~x ∧ rbitByte 4 d x y = x ^^^ y ∧
    ∀ i, i < 8 → (rbitByte 2 d x y).getLsbD i = ((d.getLsbD i && x.getLsbD i) || (d.getLsbD i && y.getLsbD i) || (x.getLsbD i && y.getLsbD i))
  ) ∧ (
  (∀ (s : State) (line : Nat), s.memOk = true →
    (∀ pa, homeByte (writeBackLine s line) pa = homeByte s pa) ∧
    (∀ pa, pa / 128 = line → dirtyByte (writeBackLine s line) pa = none) ∧
    (∀ pa, pa / 128 ≠ line → dirtyByte (writeBackLine s line) pa = dirtyByte s pa)) ∧
  (∀ (s : State) (line : Nat), s.memOk = true →
    Happens (.lineWriteback line) s (fun t => ∀ pa, homeByte t pa = homeByte s pa)) ∧
  (∀ (s : State) (line : Nat),
    let key := refreshKey s line
    let q := mget s.refresh key []
    let queued := ∃ x ∈ s.refresh, line ∈ x.2
    let deferred := Config.free s.free 30 % 2 = 1 ∨ q ≠ []
    (lineDirty s line = true → ¬ queued →
      (¬ deferred → Happens (.lineWriteback line) s (fun t => t = writeBackLine s line)) ∧
      (deferred → q.length < 16 → Happens (.lineWriteback line) s (fun t => t = { s with refresh := mset s.refresh key (q ++ [line]) })) ∧
      (deferred → 16 ≤ q.length → Happens (.lineWriteback line) s (fun t => t = s))) ∧
    (lineDirty s line = false ∨ queued → Happens (.lineWriteback line) s (fun t => t = s))) ∧
  (∀ (s : State) (st ch b : Nat), let key := st * 2 ^ 20 + ch * 2 ^ 8 + b
    Happens (.dramRefresh st ch b) s (fun t => mget t.refresh key [] = [] ∧
      t.l2 = ((mget s.refresh key []).foldl writeBackLine s).l2 ∧ t.hbm = ((mget s.refresh key []).foldl writeBackLine s).hbm) ∧
    ∀ l q, mget s.refresh key [] = l :: q → Happens (.refreshBoundExpiry st ch b) s (fun t => mget t.refresh key [] = q ∧
      t.l2 = (writeBackLine s l).l2 ∧ t.hbm = (writeBackLine s l).hbm))
  )

/-! ## Queues, streams, counters and lacing (13_queues.md, 15_counters.md) -/

/-- R263, R265, R272 to R275: the mailbox and stage-queue instructions, each giving its status or its entry to every active member; MBFREE counts the
messages that it discards. R274: an entry put into a queue with room stands behind the others, and an entry taken is the oldest. Where the spec is
open or read by inference this rests on assumption log 26, 53 and 54. -/
def Obligations.QueuesWork : Prop :=
  (
  ∀ (h : Hdr) (d a b : BitVec 6) (s : State),
    let ls := s.active h
    let lead := ls.headD 0
    (let f : Form := { h := h, ok := legal (.mbbind h d a b), src := d.toNat :: regsOf a.toNat 2 ++ regsOf b.toNat 2, dst := [d.toNat], uniform := true,
                       guestOk := false }
     HasEffect f (.mbbind h d a b) s (fun u =>
      let w := (u.gd lead a.toNat).toNat
      let hd := (u.gd lead b.toNat 1).toNat
      let z := (u.g lead d.toNat 2).toNat % 512
      let q := (u.g lead d.toNat 2).toNat / 65536 % 2048
      let st := bindStatus u w hd z q
      giveAll (if st = 0 then addBind u u.curPart w hd z q else u) ls d.toNat (BitVec.ofNat 32 st))) ∧
    (let f : Form := { h := h, ok := legal (.mbfree h d a), src := regsOf a.toNat 2, dst := [d.toNat], uniform := true, guestOk := false }
     (∀ i bd, findBind (s.issued f) ((s.issued f).gd lead a.toNat).toNat = some ((s.issued f).curPart, i, bd) →
       HasEffect f (.mbfree h d a) s (fun u => giveAll (freeBind u u.curPart i (u.gd lead a.toNat).toNat) ls d.toNat 0)) ∧
     ((∀ i bd, findBind (s.issued f) ((s.issued f).gd lead a.toNat).toNat ≠ some ((s.issued f).curPart, i, bd)) →
       HasEffect f (.mbfree h d a) s (fun u => giveAll u ls d.toNat 1))) ∧
    (∀ p i w : Nat, ((freeBind s p i w).part p).discarded =
      (s.part p).discarded + (s.launches.filter (fun x => x.2.discards p w)).length) ∧
    (let f : Form := { h := h, ok := legal (.mbpost h d a b), src := regsOf a.toNat 2 ++ [b.toNat], dst := [d.toNat], uniform := true, guestOk := false,
                       persist := true }
     PersistsIf f (.mbpost h d a b) s (offsetFault (s.charged f) ((s.charged f).gd lead a.toNat).toNat ((s.charged f).g lead b.toNat 1).toNat = none)
      (fun u =>
        let w := (u.gd lead a.toNat).toNat
        let v := releaseWide u u.cur.core
        let r := post v (.device v.curPart) w (some (memReads (v.core v.cur.core).st.scratch (u.g lead b.toNat 1).toNat
          (match findBind v w with | some (_, _, x) => x.size | none => 0)))
        giveAll r.2 ls d.toNat (BitVec.ofNat 32 r.1))) ∧
    (let f : Form := { formQueue s h (legal (.qput h a b)) b with src := regsOf a.toNat 4 }
     HasEffectIf f (.qput h a b) s (((s.charged f).curQueue b.toNat).occ < ((s.charged f).curQueue b.toNat).depth ∧
        queueBusy (s.charged f) b.toNat ((s.charged f).curQueue b.toNat).tail = none)
      (fun u => putEntry u b.toNat (u.gq lead a.toNat))) ∧
    (let f : Form := { formQueue s h (legal (.qtake h d a b)) b with dst := regsOf d.toNat 4 ++ [a.toNat] }
     HasEffectIf f (.qtake h d a b) s (((s.charged f).curQueue b.toNat).occ ≠ 0 ∧ ((s.issued f).curQueue b.toNat).occ ≠ 0 ∧
        queueBusy (s.charged f) b.toNat ((s.charged f).curQueue b.toNat).head = none)
      (fun u =>
        let v := (dropHead u b.toNat).eachLane ls (fun w l => w.addLane l (effGq w.curWarp l d.toNat (headEntry u b.toNat) ++ effG w.curWarp l a.toNat 1) 0)
        acquire v u.cur.core) ∧
     HasEffectIf f (.qtake h d a b) s (((s.charged f).curQueue b.toNat).occ = 0 ∧ ((s.issued f).curQueue b.toNat).occ = 0 ∧
        (s.charged f).curClosed b.toNat = true)
      (fun u => giveAll u ls a.toNat 0)) ∧
    (let f : Form := { formQueue s h (legal (.qstat h d b)) b with dst := [d.toNat] }
     HasEffect f (.qstat h d b) s (fun u => giveAll u ls d.toNat (BitVec.ofNat 32
      ((u.curQueue b.toNat).occ % 2 ^ 13 + (u.curQueue b.toNat).depth % 2 ^ 13 * 2 ^ 16 + b2n (u.curClosed b.toNat) * 2 ^ 31))))
  ) ∧ (
  ∀ (s : State) (n v : Nat) (g : Group) (q : Queue), s.curGroup = some g → mfind g.queues n = some q → s.memOk = true → 0 < q.depth →
    q.head < q.depth → q.tail = (q.head + q.occ) % q.depth → q.occ < q.depth → v < 2 ^ 128 →
    let t := putEntry s n v
    (t.curQueue n).occ = q.occ + 1 ∧ (t.curQueue n).head = q.head ∧ (t.curQueue n).tail = (q.tail + 1) % q.depth ∧
    ofBytesLE (memReads (t.core s.cur.core).st.scratch (q.base + 16 * q.tail) 16) = v ∧
    (0 < q.occ → headEntry t n = headEntry s n) ∧ (q.occ = 0 → headEntry t n = v) ∧
    ((dropHead s n).curQueue n).occ = q.occ - 1 ∧ ((dropHead s n).curQueue n).head = (q.head + 1) % q.depth
  )

/-- R276, R277: EFORK starts a stream of C + 1 words at PC + 4 × OFF with a copy of the scalar registers, where the warp has none that runs and the core
fewer than 16; ERDV joins a stream that has ended. R64, R276 to R278: the sequencer issues the next word of an open stream: each word that a stream
may hold is performed by its own meaning on the stream's registers, and any other ends the stream with ILLEGAL_OP and its index, as does a guard other
than p0, a predicate destination other than p0 and a register above 31; a fault of the fetch ends it too, and one that waits, for a page or for power,
changes no register. Where the spec is open or read by inference this rests on assumption log 55 and 62. -/
def Obligations.StreamsWork : Prop :=
  (
  ∀ (h : Hdr) (c : BitVec 6) (o : BitVec 14) (s : State),
    (let f : Form := { h := h, ok := legal (.efork h c o), ssrc := upFrom 32 0, uniform := true, guestOk := false }
     HasEffectIf f (.efork h c o) s (streamRuns (s.charged f) = false ∧ streamsRunning (s.charged f) (s.charged f).cur.core < 16)
      (fun u => u.modCurWarp (fun w => { w with stream := some {
        base := rpc (u.cur.pc + ((o.signExtend 64) <<< 2)), count := c.toNat + 1, s := (upFrom 32 0).map (fun r => (r, u.sr r))
        leader := (s.active h).headD 0 } }))) ∧
    (let f : Form := { h := h, ok := legal (.erdv h), uniform := true, guestOk := false }
     HasEffectIf f (.erdv h) s (streamRuns (s.charged f) = false ∧ (s.issued f).curWarp.stream = none) (fun u => u) ∧
     ∀ t, HasEffectIf f (.erdv h) s (streamRuns (s.charged f) = false ∧ (s.issued f).curWarp.stream = some t)
      (fun u => (u.modCurWarp (fun w => { w with stream := none })).addRes (lanesMask (s.active h)) (joinEffs t) 0))
  ) ∧ (
  (∀ (s : State) (core slot : Nat) (w : Warp) (t : Stream) (x : Word), s.warp? core slot = some w → w.stream = some t →
    let p := s.launchPart w.launch
    let ends := fun (c : Nat) => Happens (.streamWord core slot) s (fun u => ∃ w' t', u.warp? core slot = some w' ∧ w'.stream = some t' ∧ t'.ended = true ∧
      t'.status = BitVec.ofNat 32 (c + t.idx * 256))
    (streamOpen s core w t = false → Happens (.streamWord core slot) s (fun u => u = s)) ∧
    (streamOpen s core w t = true → fetch s core p t.pc.toNat = .word x →
      (let s1 := forgetPage s core p t.pc.toNat 1
       let s2 := (if t.counted then s1 else noteIssue s1 core x.toNat true).setStreamCur core slot t x
       mayStream (instrOf x) = true → exec (.streamWord core slot) s = exec (instrOf x) s2) ∧
      (mayStream (instrOf x) = false → ends fcIllegalOp) ∧
      (∀ (d a b : BitVec 6), instrOf x = .sopAdd { s := false, gn := false, gp := 0 } d a b → legal (instrOf x) = true → t.hints = [] →
        Happens (.streamWord core slot) s (fun u => ∃ w' t', u.warp? core slot = some w' ∧ w'.stream = some t' ∧ t'.idx = t.idx + 1 ∧ t'.hints = [] ∧
          (∀ r, mget t'.s r 0 = if r = d.toNat then mget t.s a.toNat 0 + mget t.s b.toNat 0 else mget t.s r 0) ∧
          t'.ended = decide (t.count ≤ t.idx + 1) ∧ w'.s = w.s))) ∧
    (∀ c, streamOpen s core w t = true → fetch s core p t.pc.toNat = .fault c → ends c) ∧
    (streamOpen s core w t = true → fetch s core p t.pc.toNat = .waits → Happens (.streamWord core slot) s (fun u => u = s)) ∧
    (streamOpen s core w t = true → fetch s core p t.pc.toNat = .absent → Happens (.streamWord core slot) s (fun u =>
      u = notePage s core p t.pc.toNat 1 t.leader slot))) ∧
  ∀ (f : Form) (s : State) (a : Act) (w : Warp) (t : Stream), s.cur.stream = true → s.warp? s.cur.core s.cur.slot = some w → w.stream = some t →
    f.h.gp ≠ 0 ∨ f.h.gn = true ∨ (∃ i ∈ f.src ++ f.dst, 31 < i) ∨ (∃ k ∈ f.pdst, k ≠ 0) →
    ∃ u w' t', issue f s a = .next u ∧ u.warp? s.cur.core s.cur.slot = some w' ∧ w'.stream = some t' ∧ t'.ended = true ∧
      t'.status = BitVec.ofNat 32 (fcIllegalOp + t.idx * 256)
  )

/-- R300, R301: CWAIT goes on once the counter has reached the target or is in error, also where an update has met it since it parked, and its predicate
says whether it is in error; CTEST gives whether it has reached it without error. R304 to R306: BWINIT makes a live word with PENDING and EXPECT of
the count named; BWARR arrives for each member in lane order; BWWAIT parks the members whose phase has not passed; BWTEST gives whether it has; BWDROP
ends the word. R302, R303, R306: a barrier word. An arrival takes one from PENDING and adds what it announces to DUE, two's complement; a completion
takes one from DUE, and a failed one sets ERR and gives ECODE the first code; the phase turns, with PENDING at EXPECT again, exactly when both are
zero. Where the spec is open or read by inference this rests on assumption log 57 and 58. -/
def Obligations.CountersAndBarriers : Prop :=
  (
  ∀ (h : Hdr) (q : BitVec 4) (a b : BitVec 6) (s : State),
    let ls := s.active h
    (let f := formWait h q a b (legal (.cwait h q a b))
     (∀ e, HasEffectIf f (.cwait h q a b) s (s.cur.met = some e) (fun u => acquire (giveAllP u ls q.toNat e) u.cur.core)) ∧
     HasEffectIf f (.cwait h q a b) s (s.cur.met = none ∧ waitFault (s.charged f) (waitAddr a (s.charged f) ls) = none ∧
        restoringAt (s.charged f) (waitAddr a (s.charged f) ls) = none ∧ (reached a b (s.charged f) ls = true ∨ inError a (s.charged f) ls = true))
      (fun u => acquire (giveAllP u ls q.toNat (inError a u ls)) u.cur.core)) ∧
    (let f := formWait h q a b (legal (.ctest h q a b))
     HasEffectIf f (.ctest h q a b) s (waitFault (s.charged f) (waitAddr a (s.charged f) ls) = none ∧
        restoringAt (s.charged f) (waitAddr a (s.charged f) ls) = none)
      (fun u => if reached a b u ls = true ∧ inError a u ls = false then acquire (giveAllP u ls q.toNat true) u.cur.core
        else giveAllP u ls q.toNat false))
  ) ∧ (
  ∀ (h : Hdr) (q : BitVec 3) (a b : BitVec 6) (s : State),
    let ls := s.active h
    let lead := ls.headD 0
    let clear := fun (f : Form) => (∀ l ∈ ls, restoringAt (s.charged f) ((s.charged f).gd l a.toNat).toNat = none) ∧
      ∀ l ∈ ls, wordFault (s.charged f) true ((s.charged f).gd l a.toNat).toNat = none
    (let f := formWord h a b (legal (.bwinit h a b)) true
     let u := s.charged f
     HasEffectIf f (.bwinit h a b) s (wordFault u false (u.gd lead a.toNat).toNat = none ∧ (u.g lead b.toNat 1).toNat % 4096 ≠ 0 ∧
        restoringAt u (waitAddr a u ls) = none ∧ bankOwned u u.cur.core (wordAt u a lead / 131072) = false)
      (fun u =>
        let n := (u.g lead b.toNat 1).toNat % 4096
        setLive (scratchWrite u u.cur.core (wordAt u a lead) (bytesLE 16 (n * 65536 + n))) u.cur.core (wordAt u a lead) true)) ∧
    (let f : Form := { formWord h a b (legal (.bwarr h a b)) false with streamOk := true }
     let arrive := fun (u : State) => ls.foldl (fun (r : State × List (Nat × Flt)) l =>
        match bwArrive (bwRead r.1 u.cur.core (wordAt u a l)) ((u.g l b.toNat 1).toNat % 65536) with
        | none => (r.1, r.2 ++ [(l, ⟨fcBarrierState, (u.gd l a.toNat).toNat, false⟩)])
        | some v => (bwWrite r.1 u.cur.core (wordAt u a l) v, r.2)) (u, [])
     HasEffectIf f (.bwarr h a b) s (clear f ∧ (arrive (s.issued f)).2 = []) (fun u => (arrive u).1)) ∧
    (let f := formWord h a b (legal (.bwwait h a b)) false
     HasEffectIf f (.bwwait h a b) s (clear f) (fun u =>
      (if ls.any (phaseDone u a b) then acquire u u.cur.core else u).eachLane (ls.filter (fun l => !phaseDone u a b l)) (fun v l =>
        parkHere v h [l] (.bwwait (wordAt u a l) ((u.g l b.toNat 1).getLsbD 0))))) ∧
    (let f : Form := { formWord h a b (legal (.bwtest h q a b)) false with pdst := [q.toNat] }
     HasEffectIf f (.bwtest h q a b) s (clear f) (fun u =>
      (if ls.any (phaseDone u a b) then acquire u u.cur.core else u).eachLane ls (fun v l => v.addLane l (effP l q.toNat (phaseDone u a b l)) 0))) ∧
    (let f : Form := { h := h, ok := legal (.bwdrop h a), src := regsOf a.toNat 2, uniform := true, guestOk := false }
     HasEffectIf f (.bwdrop h a) s ((∀ l ∈ ls, restoringAt (s.charged f) ((s.charged f).gd l a.toNat).toNat = none) ∧
        wordFault (s.charged f) true ((s.charged f).gd lead a.toNat).toNat = none ∧
        wordInUse (s.charged f) (s.charged f).cur.core (wordAt (s.charged f) a lead) = false)
      (fun u => setLive u u.cur.core (wordAt u a lead) false))
  ) ∧ (
  (∀ (v code : Nat), v < 2 ^ 128 → code < 256 →
    let x := bwDone v code
    let due := (bwDue v + (2 ^ 32 - 1)) % 2 ^ 32
    bwExpect x = bwExpect v ∧ bwDue x = due ∧
    (if bwPending v = 0 ∧ due = 0 then bwPhase x = !bwPhase v ∧ bwPending x = bwExpect v
     else bwPhase x = bwPhase v ∧ bwPending x = bwPending v) ∧
    (code = 0 → bits x 30 1 = bits v 30 1 ∧ bits x 32 8 = bits v 32 8) ∧
    (code ≠ 0 → bits x 30 1 = 1 ∧ bits x 32 8 = if bits v 32 8 = 0 then code else bits v 32 8)) ∧
  ∀ (v owed : Nat), v < 2 ^ 128 → owed < 2 ^ 16 →
    let due := (bwDue v + owed) % 2 ^ 32
    (bwPending v = 0 → bwArrive v owed = none) ∧
    (bwPending v ≠ 0 → ∃ x, bwArrive v owed = some x ∧ bwExpect x = bwExpect v ∧ bwDue x = due ∧
      (if bwPending v = 1 ∧ due = 0 then bwPhase x = !bwPhase v ∧ bwPending x = bwExpect v
       else bwPhase x = bwPhase v ∧ bwPending x = bwPending v - 1))
  )

/-- R307 to R312: LBARV publishes and makes its core's arrival at a group that it belongs to; LBWAIT goes on with an acquire once the generation of its
core's arrival is over, and parks its batch before; LBSET installs the mask that it reads. R308 to R310: a generation completes when every core of the
mask has arrived; the number advances by one, the early arrivals of the new mask's cores stand, and a mask set meanwhile takes effect. Where the spec
is open or read by inference this rests on assumption log 57. -/
def Obligations.LacingWorks : Prop :=
  (
  ∀ (h : Hdr) (l a : BitVec 6) (s : State),
    let ls := s.active h
    (let f : Form := { formLace h (legal (.lbarv h l)) true with persist := true }
     let group := fun (u : State) => u.lacing u.curPart l.toNat
     ∀ x, PersistsIf f (.lbarv h l) s (bitOf (group (s.charged f)).mask (s.charged f).cur.core = true ∧
        ((group (s.charged f)).arrive (s.charged f).cur.core).isSome = true ∧
        (let v := releaseWide (s.issued f) (s.issued f).cur.core
         (group v).arrive v.cur.core = some x))
      (fun u => lacingStep (releaseWide u u.cur.core) (releaseWide u u.cur.core).curPart l.toNat x)) ∧
    (let f := formLace h (legal (.lbwait h l)) false
     let ticket := fun (u : State) => mfind (u.lacing u.curPart l.toNat).tickets u.cur.core
     HasEffectIf f (.lbwait h l) s (laced (s.issued f) (s.issued f).curPart l.toNat (ticket (s.issued f)) = true) (fun u => acquire u u.cur.core) ∧
     HasEffectIf f (.lbwait h l) s (laced (s.issued f) (s.issued f).curPart l.toNat (ticket (s.issued f)) = false) (fun u =>
      parkHere (countEvent u u.cur.core 0x0E 1) h (u.members.filter (fun k => ls.contains k || (u.curLane k).state == .ready))
        (.lbwait l.toNat ((ticket u).getD 0)))) ∧
    (let f : Form := { formLace h (legal (.lbset h l a)) false with src := regsOf a.toNat 2 }
     HasEffectIf f (.lbset h l a) s (restoringAt (s.charged f) (waitAddr a (s.charged f) ls) = none ∧
        lbsetFault (s.charged f) (waitAddr a (s.charged f) ls) l.toNat = none)
      (fun u =>
        let m := lbsetMask u (waitAddr a u ls)
        let x := u.lacing u.curPart l.toNat
        lacingStep u u.curPart l.toNat (if x.mask = 0 then { x with mask := m, arrived := 0, early := 0 } else { x with next := m })))
  ) ∧ (
  (∀ x : Lacing, x.full = false → x.settle = x) ∧
  (∀ x : Lacing, x.full = true → x.turn.full = false →
    x.settle.gen = (x.gen + 1) % 2 ^ 64 ∧ x.settle.mask = (if x.next = 0 then x.mask else x.next) ∧
    x.settle.arrived = x.early &&& x.settle.mask ∧ x.settle.early = 0 ∧ x.settle.next = 0) ∧
  (∀ (x y : Lacing) (c : Nat), x.arrive c = some y →
    (bitOf x.arrived c = false → mfind y.tickets c = some x.gen ∧ bitOf y.arrived c = true) ∧
    (bitOf x.arrived c = true → mfind y.tickets c = some (x.gen + 1) ∧ bitOf y.early c = true))
  )

/-- R262, R266: a launch whose header fails a check is refused with the offset of the first failing field; one that passes waits for its dependency; a
dependency that is met orders the launch, or releases an empty task; an error of the counter refuses it. A post by store is made with the window's
bytes as the store left them at their home, and a refusal is counted. R263, R265: who may post to a binding, and what an accepted message leaves: a
launch in HEADER with the next sequence number. Where the spec is open or read by inference this rests on assumption log 25, 61 and 64. -/
def Obligations.LaunchesAreJudged : Prop :=
  (
  (∀ (s : State) (id : Nat) (l : Launch), mfind s.launches id = some l → (s.part l.part).state = 1 →
    let becomes := fun (st : LaunchState) => Happens (.dependencyMet id) s (fun t => t = s.modLaunch id (fun x => { x with state := st }))
    (∀ off, l.state = .header → headerFault s l = some off → Happens (.dependencyMet id) s (fun t => t = refuseLaunch s id l 0x10 off)) ∧
    (l.state = .header → headerFault s l = none → becomes .waitdep) ∧
    (l.state = .waitdep → l.header.empty = false → l.header.depctr = 0 → becomes .ordered) ∧
    (l.state = .waitdep → l.header.depctr ≠ 0 → depValue s l = none → Happens (.dependencyMet id) s (fun t => t = refuseLaunch s id l 0x11 160)) ∧
    (∀ v, l.state = .waitdep → l.header.depctr ≠ 0 → depValue s l = some v →
      (ctrCode v ≠ 0 → Happens (.dependencyMet id) s (fun t => t = refuseLaunch s id l 0x11 160)) ∧
      (ctrCode v = 0 → ctrValue v < l.header.field 168 8 → Happens (.dependencyMet id) s (fun t => t = s)) ∧
      (ctrCode v = 0 → l.header.field 168 8 ≤ ctrValue v → l.header.empty = false → becomes .ordered)) ∧
    (l.state = .waitdep → l.header.depctr = 0 → l.header.empty = true → mayRelease s l.part = true →
      Happens (.dependencyMet id) s (fun t => t = releaseLaunch (leaveQueue s l) id l))) ∧
  (∀ (s : State) (l : Launch), (l.header.bytes = [] → headerFault s l = some 0) ∧
    (l.header.bytes ≠ [] → l.header.field 0 2 ≠ 1 → headerFault s l = some 0) ∧
    (headerFault s l = none → l.header.prio ≤ 7 ∧ l.header.entry % 4 = 0 ∧ l.header.entry < 2 ^ 57 ∧ 1 ≤ l.header.warps ∧ l.header.warps ≤ 32 ∧
      8 ≤ l.header.nreg ∧ l.header.nreg ≤ 128 ∧ l.header.nreg % 8 = 0 ∧ l.header.span ∈ [1, 2, 4, 8] ∧ l.header.field 128 8 ≠ 0)) ∧
  ∀ (s : State) (p w : Nat) (d : Nat × Nat × Nat × List Byte), s.postsDue.find? (fun x => x.2.1 == p && x.2.2.1 == w) = some d →
    let u := { s with postsDue := s.postsDue.erase d }
    let r := post u (.device d.1) w (some d.2.2.2)
    (r.1 = 0 → Happens (.storePost p w) s (fun t => t = r.2)) ∧
    (r.1 ≠ 0 → Happens (.storePost p w) s (fun t => t = countRefusal u w))
  ) ∧ (
  ∀ (s : State) (who : Poster) (w p i : Nat) (b : Bind) (msg : List Byte),
    (findBind s w = none → post s who w (some msg) = (2, s)) ∧
    (findBind s w = some (p, i, b) →
      (mayPost s who p = false → post s who w (some msg) = (3, s)) ∧
      (mayPost s who p = true → b.depth ≤ b.queued → post s who w (some msg) = (1, s)) ∧
      (mayPost s who p = true → b.queued < b.depth → mfind (s.part p).binds i = some b → (post s who w (some msg)).1 = 0 ∧
        let t := (post s who w (some msg)).2
        (∃ l, mfind t.launches s.fresh = some l ∧ l.state = .header ∧ l.part = p ∧ l.seq = b.seq ∧ l.window = b.window ∧ l.time = s.time ∧
          l.message = fitBytes msg b.size) ∧
        mfind (t.part p).binds i = some { b with queued := b.queued + 1, seq := b.seq + 1 } ∧ t.cores = s.cores)) ∧
    (mayPost s (.device p) p = true ↔ s.security ≠ .retired) ∧
    (∀ q, mayPost s (.device q) p = true → q = p) ∧ (∀ m, mayPost s (.master m) p = true → (s.part p).master = m)
  )

/-- R268, R269, R22: the launch unit places the next group of the first launch of the order, restores a saved one, or asks groups of lower priority to
leave; a fibre starts READY at the entry, with the stack and the work identifier of its index, and a warp with the message in its scalar registers.
The set-up of a group is an acquire (09 R180), and the first group of a family gives its motif to those that follow (R23). R347 to R349, R124: a group
asked to stop is saved when it stands still, and its fibres away are recalled before; a group whose fibres have ended, with its queues, streams and
engines, leaves its core, and with the last one its launch is released. Where the spec is open or read by inference this rests on assumption log 64
and 66 to 68. -/
def Obligations.GroupsComeAndGo : Prop :=
  (
  (∀ (s : State) (part : Nat),
    ((s.part part).state ≠ 1 ∨ headLaunch s part = none → Happens (.groupPlacement part) s (fun t => t = s)) ∧
    (∀ x, (s.part part).state = 1 → headLaunch s part = some x →
      (x ∈ s.launches ∧ x.2.part = part ∧ wantsPlace s x = true ∧ ∀ y ∈ s.launches, y.2.part = part → wantsPlace s y = true → launchBefore y.2 x.2 = false) ∧
      (placeNext s x = none → Happens (.groupPlacement part) s (fun t => t = requestVictims s x)) ∧
      (∀ s1, placeNext s x = some s1 →
        (∃ g, s.fresh ≤ g ∧ g < s1.fresh ∧ stillClearing s s1 g = true) → Happens (.groupPlacement part) s (fun t => t = s)) ∧
      (∀ s1, placeNext s x = some s1 → (∀ g, s.fresh ≤ g → g < s1.fresh → stillClearing s s1 g = false) →
        Happens (.groupPlacement part) s (fun t => t = notePlaced s1 x)))) ∧
  (∀ (s t : State) (id n core : Nat) (l : Launch), setupGroup s id l n core = some t → (t.core core).l1s = [] ∧ s.fresh < t.fresh ∧
    (mfind (t.core core).st.groups s.fresh).isSome = true) ∧
  (∀ (s : State) (id core m : Nat) (l : Launch) (cs : List Nat), mfind s.launches id = some l → 0 < l.header.loclvl →
    (∀ f ∈ l.families, f.1 ≠ familyKey l.header cs) → core / 8 = m →
    familyMotif (s.modLaunch id (noteFamily l.header cs core)) id l.header cs = some m) ∧
  ∀ (s : State) (id gid n first k i : Nat) (l : Launch),
    let h := l.header
    let w := launchWarp s id l gid n first k
    w.launch = id ∧ w.group = gid ∧ w.index = k ∧ w.nreg = h.nreg ∧ w.migset = h.migset ∧
    (i < 32 → 32 * k + i < h.extent 0 → (w.lane i).state = .ready ∧ (w.lane i).sp = w.stackTop i ∧ (w.lane i).regs = [] ∧
      (w.lane i).pc = BitVec.ofNat 64 (if h.nstage = 0 then h.entry else h.stagePc 0) ∧
      (w.lane i).workid = workId h (32 * k + i) (groupCoords h n)) ∧
    (i < 32 → h.extent 0 ≤ 32 * k + i → (w.lane i).state = .empty) ∧
    (i < 8 → mget w.s i 0 = BitVec.ofNat 32 (ofBytesLE ((l.message.drop (4 * i)).take 4))) ∧
    (h.runBanks ≠ 0 → mget w.s 8 0 = BitVec.ofNat 32 (131072 * first)) ∧ mget w.s 9 0 = BitVec.ofNat 32 l.message.length ∧ mget w.s 12 0 = l.seq
  ) ∧ (
  (∀ (s : State) (core gid : Nat) (g : Group) (l : Launch), mfind (s.core core).st.groups gid = some g → mfind s.launches g.launch = some l →
    (s.part l.part).dumpReq = none → g.lazyOf = none →
    (g.preempt = false → Happens (.preemptionSave core gid) s (fun t => t = s)) ∧
    (g.preempt = true → groupStopped s core gid = true → commitWaits s core = false → (s.core core).power = .active →
      Happens (.preemptionSave core gid) s (fun t => t = saveGroup s core gid g l)) ∧
    (g.preempt = true → groupStopped s core gid = false → Happens (.preemptionSave core gid) s (fun t => t = recallGroup s core g))) ∧
  (∀ (s : State) (core gid : Nat) (g : Group), mfind (s.core core).st.groups gid = some g →
    (groupOver s core gid g = false → Happens (.groupEnd core gid) s (fun t => t = s)) ∧
    (groupOver s core gid g = true → mayRelease s (s.launchPart g.launch) = true → (s.core core).power = .active →
      (s.part (s.launchPart g.launch)).state = 1 →
      let gone := removeGroup (freeGroupBanks (releaseWide s core) gid) core gid g none
      let u := ((core :: bankCores s gid).eraseDups).foldl (fun u c => commitCore u c 0 []) (gone.modLaunch g.launch (fun l => { l with ended := l.ended + 1 }))
      (∀ l, mfind u.launches g.launch = some l → launchOver u g.launch l = true →
        Happens (.groupEnd core gid) s (fun t => t = releaseLaunch u g.launch { l with state := .releasing })) ∧
      (∀ l, mfind u.launches g.launch = some l → launchOver u g.launch l = false → Happens (.groupEnd core gid) s (fun t => t = u)))) ∧
  (∀ (s : State) (core gid : Nat) (g : Group), g.span = 1 →
    let t := removeGroup s core gid g none
    mfind (t.core core).st.groups gid = none ∧ (∀ i ∈ g.warps, mfind (t.core core).st.warps i = none) ∧
    (∀ i, i ∉ g.warps → mfind (t.core core).st.warps i = mfind (s.core core).st.warps i) ∧
    (∀ k, k ≠ gid → mfind (t.core core).st.groups k = mfind (s.core core).st.groups k) ∧ ∀ c, c ≠ core → t.core c = s.core c) ∧
  ∀ (s : State) (gid c b : Nat) (x : Bank), mfind (s.core c).st.banks b = some x → x.owner = some gid → (mfind s.cores c).isSome = true →
    ((freeGroupBanks s gid).core c).st.bank b = { x.freed s.fresh with forward := none }
  )

/-- R53, R52: a pending result that nothing delays is written, its registers in order of issue; an S park ends when no result that it awaits is pending,
guests whose departure waited for the commit leave together (14 R285), and members of a PGREQ that found the mailbox full issue it again when there is
room (10_memory_instructions.md R211). R125, R301, R274, R308: a nap ends at its time, into the S park that it still owes if there is one, a deferral
when no other batch waits; a CWAIT, whose counter has reached its target or is in error or has been since it parked, a QPUT or a QTAKE that can be
performed is issued again by its batch; LBWAIT's fibres go on together, in every warp of the core, when their generation is over. R272: an idle warp
takes the most downstream stage with work, its fibres READY anew at that stage's entry. R25: a round of the machine by itself takes in every scheduler
with a batch, every pending result, stream, queue or counter wait, engine operation, launch, shuttle and commit, every core that comes back or is
needed and every motif without power of a module out of STANDBY with an ACTIVE partition, and lets TIME pass. Where the spec is open or read by
inference this rests on assumption log 1, 22 and 108. -/
def Obligations.WaitsEnd : Prop :=
  (
  (∀ (s : State) (core slot id : Nat) (w : Warp) (r : PRes), s.warp? core slot = some w → w.pend.find? (fun x => x.id == id) = some r →
    (r.ready = false → Happens (.classDResult core slot id) s (fun t => t = s)) ∧
    (r.ready = true → Happens (.classDResult core slot id) s (fun t => t = deliver s core slot r ∧
      ∀ l p v, r.effs = [.g l p v] →
        ∃ w', t.warp? core slot = some w' ∧ mget (w'.lane l).regs p 0 = v ∧ mfind (w'.lane l).poison p = none))) ∧
  ∀ (s : State) (core slot l : Nat) (w : Warp), s.warp? core slot = some w → l < 32 →
    (parkOver s core w l = false → (w.lane l).park ∉ [.leaving, .pager] → (∀ a, (w.lane l).park ≠ .pagerDone a) → Happens (.sParkRelease core slot (lanesMask [l])) s (fun t => t = s)) ∧
    (∀ pc why, (w.lane l).park = .leaving → (w.lane l).homeDue = some (pc, why) → commitWaits s core = false →
      Happens (.sParkRelease core slot (lanesMask [l])) s (fun t => t = sendEach s core slot (dueMates w l) pc)) ∧
    (∀ a, (w.lane l).state = .parked → (w.lane l).park = .pagerDone a →
      (pagerLate w a = true → Happens (.sParkRelease core slot (lanesMask [l])) s (fun t => t = s)) ∧
      (pagerLate w a = false → Happens (.sParkRelease core slot (lanesMask [l])) s (fun t => t = endPark s core slot (parkMates w l)))) ∧
    ((w.lane l).state = .parked → (w.lane l).park = .pager →
      (pagerRoom s (s.launchPart w.launch) = false → Happens (.sParkRelease core slot (lanesMask [l])) s (fun t => t = s)) ∧
      (pagerRoom s (s.launchPart w.launch) = true → Happens (.sParkRelease core slot (lanesMask [l])) s (fun t => ∃ w', t.warp? core slot = some w' ∧
        ∀ k, w'.lane k = if k ∈ parkMates w l then (w.lane k).released else w.lane k))) ∧
    (parkOver s core w l = true → Happens (.sParkRelease core slot (lanesMask [l])) s (fun t => ∃ w', t.warp? core slot = some w' ∧
      (∀ k, k ∈ parkMates w l → (w'.lane k).state = .ready ∧ (w'.lane k).pc = (w.lane k).pc) ∧
      ∀ k, k ∉ parkMates w l → w'.lane k = w.lane k)) ∧
    (parkOver s core w l = true → l ∈ parkMates w l ∧ (w.lane l).state = .parked)
  ) ∧ (
  (∀ (s : State) (core slot l : Nat) (w : Warp), s.warp? core slot = some w →
    ((w.lane l).state = .napping → (w.lane l).wake ≤ s.time → Happens (.napWake core slot l) s (fun t => ∃ w', t.warp? core slot = some w' ∧
      w'.lane l = (if owedHeld w (w.lane l).owed then { w.lane l with state := .parked, park := .switchMark, wake := 0 }
        else { w.lane l with state := .ready, wake := 0, owed := [] }) ∧ ∀ k, k ≠ l → w'.lane k = w.lane k)) ∧
    ((w.lane l).state ≠ .napping ∨ s.time < (w.lane l).wake → Happens (.napWake core slot l) s (fun t => t = s)) ∧
    ((∀ x ∈ (s.core core).st.warps, schedOf x.1 = schedOf slot → openBatches s core false x.2 = []) → Happens (.yieldExpiry core slot) s (fun t =>
      ∃ w', t.warp? core slot = some w' ∧ ∀ k, (mfind w.lanes k).isSome = true → w'.lane k = { w.lane k with defer := 0 }))) ∧
  (∀ (s : State) (core slot tag : Nat) (w : Warp) (x : Word) (h : Hdr) (q : BitVec 4) (a b d k : BitVec 6),
    s.warp? core slot = some w → coreRuns s core = true →
    (let ls := taggedLanes w tag Park.isCwait
     let s1 := reissue s core slot ls x
     ls ≠ [] → parkedWord s core w ls = .word x → instrOf x = .cwait h q a b →
      (∀ e, (w.lane (ls.headD 0)).park = .cwaitMet e → s1.cur.met = some e) ∧
      ((∃ e, (w.lane (ls.headD 0)).park = .cwaitMet e) ∨ reached a b s1 (s1.active h) = true ∨ inError a s1 (s1.active h) = true ∨
          waitFault s1 (waitAddr a s1 (s1.active h)) ≠ none →
        Happens (.cwaitRelease core slot tag) s (fun t => exec (.cwait h q a b) s1 = .next t)) ∧
      ((∀ e, (w.lane (ls.headD 0)).park ≠ .cwaitMet e) → waitFault s1 (waitAddr a s1 (s1.active h)) = none → reached a b s1 (s1.active h) = false →
          inError a s1 (s1.active h) = false →
        Happens (.cwaitRelease core slot tag) s (fun t => t = s))) ∧
    (let ls := taggedLanes w tag (fun p => match p with | .queue _ _ => true | _ => false)
     let s1 := reissue s core slot ls x
     ls ≠ [] → parkedWord s core w ls = .word x →
      (instrOf x = .qput h a k →
        ((s1.curQueue k.toNat).occ < (s1.curQueue k.toNat).depth → Happens (.queueParkRelease core slot tag) s (fun t => exec (.qput h a k) s1 = .next t)) ∧
        ((s1.curQueue k.toNat).depth ≤ (s1.curQueue k.toNat).occ → Happens (.queueParkRelease core slot tag) s (fun t => t = s))) ∧
      (instrOf x = .qtake h d a k →
        (0 < (s1.curQueue k.toNat).occ ∨ s1.curClosed k.toNat = true →
          Happens (.queueParkRelease core slot tag) s (fun t => exec (.qtake h d a k) s1 = .next t)) ∧
        ((s1.curQueue k.toNat).occ = 0 → s1.curClosed k.toNat = false → Happens (.queueParkRelease core slot tag) s (fun t => t = s))))) ∧
  (∀ (s : State) (core g p : Nat), s.partOfCore core = some p → ((s.core core).st.warps.map (·.1)).Nodup →
    Happens (.lbwaitRelease core g) s (fun t => ∀ slot w, s.warp? core slot = some w → ∃ w', t.warp? core slot = some w' ∧
      ∀ l, l < 32 →
        let ends := (w.lane l).state = .parked ∧ ∃ n, (w.lane l).park = .lbwait g n ∧ laced s p g (some n) = true
        (¬ ends → w'.lane l = w.lane l) ∧
        (ends → (w.lane l).owed = [] → (w'.lane l).state = .ready ∧ (w'.lane l).park = .none ∧ (w'.lane l).hints = [] ∧
          (w'.lane l).pc = pcAfter (w.lane l).hpc ((w.lane l).hints.length + 1)))) ∧
  ∀ (s : State) (core g p slot : Nat) (w : Warp), s.partOfCore core = some p → (s.core core).st.warps = [(slot, w)] →
    let ls := (upFrom 32 0).filter (fun l => (w.lane l).state == .parked && (match (w.lane l).park with
      | .lbwait k t => k == g && laced s p k (some t)
      | _ => false))
    (ls = [] → Happens (.lbwaitRelease core g) s (fun t => t = s)) ∧
    (ls ≠ [] → Happens (.lbwaitRelease core g) s (fun t => t = acquire (goOn s core slot ls) core))
  ) ∧ (
  ∀ (s : State) (core slot : Nat) (w : Warp) (g : Group) (l : Launch), s.warp? core slot = some w → mfind (s.core core).st.groups w.group = some g →
    mfind s.launches w.launch = some l →
    (w.isGuest = true ∨ w.idle = false ∨ stageWithWork g = none → Happens (.stageReassign core slot) s (fun t => t = s)) ∧
    (∀ n, w.isGuest = false → w.idle = true → stageWithWork g = some n → Happens (.stageReassign core slot) s (fun t =>
      ∃ w', t.warp? core slot = some w' ∧ w'.stage = n ∧ w'.m = [] ∧ w'.s = w.s ∧
        ∀ i, i < 32 → 32 * w.index + i < l.header.extent 0 → (w'.lane i).state = .ready ∧ (w'.lane i).regs = [] ∧
          (w'.lane i).pc = BitVec.ofNat 64 (l.header.stagePc n))) ∧
    (∀ n, stageWithWork g = some n → 1 ≤ n ∧ n ≤ 3 ∧ 0 < g.occ n ∧ ∀ k, n < k → k ≤ 3 → g.occ k = 0)
  ) ∧ (
  ∀ s : State,
    (∀ core sched, (mfind s.cores core).isSome = true → sched < 4 → (select s core sched).isSome = true → .select core sched ∈ round s) ∧
    (∀ core slot w, s.warp? core slot = some w →
      (∀ r ∈ w.pend, .own (.result core slot r.id) ∈ round s) ∧ (w.stream ≠ none → .own (.stream core slot) ∈ round s) ∧
      (w.isGuest = false → .own (.stage core slot) ∈ round s) ∧
      ∀ l, (w.lane l).state = .parked →
        ((w.lane l).park ∈ [.switchMark, .persist, .leaving, .pager] ∨ (∃ a, (w.lane l).park = .pagerDone a) → .own (.parks core slot) ∈ round s) ∧
        ((∃ a t, (w.lane l).park = .cwait a t) ∨ (∃ e, (w.lane l).park = .cwaitMet e) → .own (.cwait core slot (w.lane l).tag) ∈ round s) ∧
        (∀ k, (w.lane l).park = .fetch k ∨ (w.lane l).park = .stackPage k → .own (.page core slot) ∈ round s)) ∧
    (∀ core, (s.core core).epochs ≠ [] → .own (.apply core) ∈ round s) ∧
    (∀ core, core < 256 → (s.core core).resuming = true ∨ ((s.core core).power ≠ .active ∧ coreWanted s core (s.core core) = true) →
      .own (.resume core) ∈ round s) ∧
    (∀ m p, m < 32 → (s.motif m).loaded = false → allGated s = false → p ∈ s.parts → p.2.state = 1 → .own (.restore m) ∈ round s) ∧
    (∀ x ∈ s.engines, ∀ o ∈ roundEngine x.1, .own o ∈ round s) ∧
    (∀ x ∈ s.launches, .own (.launch x.1) ∈ round s) ∧ (∀ x ∈ s.parts, .own (.place x.1) ∈ round s) ∧
    (∀ x ∈ s.transit, x.settled = false → x.homeward = false → .own (.arrive x.g.gtag) ∈ round s) ∧
    (∀ x ∈ s.channels, x.2.busy = true → .own (.channel x.1) ∈ round s) ∧ (round s).getLast? = some (.pass 1)
  )

/-- R160, R164, R328, R122: fibres parked for a page attempt their access again when it has settled, and not before, the page being asked for until its
request is accepted; some register of a fibre's frames is written to its place in the stack slot, at a persist point if that posts a message (R191),
and a page that is not resident is asked for. R190, R313, R315, R316, R345: what a release has pushed out leaves; the egress buffer drains when it is
full or its oldest entry has waited 1 µs; a deadline halts the partition; budgets are refilled once for each microsecond that TIME reaches, debited
from afar and reported in order; a handler post is made again after its time, with the reason of the post that was turned away if none holds any
longer. Where the spec is open or read by inference this rests on assumption log 1, 40 and 82. -/
def Obligations.PagesAndTimes : Prop :=
  (
  (∀ (s : State) (core slot : Nat) (w : Warp), s.warp? core slot = some w →
    let settled := fun l => match waitedPage (w.lane l) with | some k => pageSettled s k | none => false
    let after := fun (t : State) => ∃ w', t.warp? core slot = some w' ∧
      ∀ l, l < 32 → w'.lane l = if settled l = true then (w.lane l).released else w.lane l
    let asked := fun (c i : Nat) => ∀ v l k, s.warp? c i = some v → waitedPage (v.lane l) = some k → pageSettled s k = true ∨
      (s.motif (core / 8)).paged.contains (pageAsk (pageKey k.1 k.2) (waitKind (v.lane l))) = true
    (asked core slot → Happens (.fetchRetry core slot) s after) ∧
    ((∀ c i, c / 8 = core / 8 → asked c i) → Happens (.fetchRewalk (core / 8)) s after) ∧
    (∀ l k, l < 32 → waitedPage (w.lane l) = some k → pageSettled s k = false → (∀ j, j < 32 → j ≠ l → waitedPage (w.lane j) = none) →
      Happens (.fetchRetry core slot) s (fun t => t = notePage (settlePages s (core / 8)) core k.1 k.2 (waitKind (w.lane l)) l slot))) ∧
  ∀ (s : State) (core slot l i : Nat) (w : Warp) (f : Frame), s.warp? core slot = some w →
    (cachedRegs w l = [] → Happens (.stackSpill core slot l) s (fun t => t = s)) ∧
    ((cachedRegs w l)[Config.free s.free 72000 % (cachedRegs w l).length]? = some (f, i) →
      let who := whoOf s core slot l
      let va := f.slot.toNat + 4 * i
      let r := accessCheck s who .store va 4 1
      (nonResident r = true → Happens (.stackSpill core slot l) s (fun t => t = notePage s core (s.launchPart w.launch) (nonResAddr r va) 2 l slot)) ∧
      (nonResident r = false → (∀ hs, r ≠ .ok hs) → Happens (.stackSpill core slot l) s (fun t => t = s)) ∧
      (∀ hs, r = .ok hs → hs.any (mustWait s who false 0) = true ∨ egressRoom s who 0 false hs = false →
        Happens (.stackSpill core slot l) s (fun t => t = s)) ∧
      (∀ hs, r = .ok hs → hs.any (mustWait s who false 0) = false → egressRoom s who 0 false hs = true →
        (halvesPost s hs = true → pendingPersist w (lanesMask [l]) = true ∨ commitWaits s core = true →
          Happens (.stackSpill core slot l) s (fun t => t = s)) ∧
        (halvesPost s hs = true → pendingPersist w (lanesMask [l]) = false → commitWaits s core = false →
          Happens (.stackSpill core slot l) s (fun t => t = forgetPage (spillReg (persistPoint s core []) core slot l w f i hs) core (s.launchPart w.launch) va 2)) ∧
        (halvesPost s hs = false → Happens (.stackSpill core slot l) s (fun t =>
          t = forgetPage (spillReg s core slot l w f i hs) core (s.launchPart w.launch) va 2 ∧ ∃ w', t.warp? core slot = some w' ∧
          (w'.lane l).regs = (w.lane l).regs ∧ (Config.free s.free 72001 % 16 = 0 →
            (w'.lane l).frames = (w.lane l).frames.map (fun y => if y.slot = f.slot then { y with spilled := i :: y.spilled } else y)) ∧
          (Config.free s.free 72001 % 16 ≠ 0 → (w'.lane l).frames = (w.lane l).frames)))))
  ) ∧ (
  (∀ (s : State) (core : Nat),
    let u := releaseDue s core
    let due := egressFull u core = true ∨ ∃ e rest, (u.core core).egress = e :: rest ∧ e.since + 1000 ≤ u.time
    (¬ due ∨ commitWaits u core = true ∨ (u.core core).power ≠ .active → Happens (.egressDrain core) s (fun t => t = u)) ∧
    (due → commitWaits u core = false → (u.core core).power = .active → Happens (.egressDrain core) s (fun t =>
      t = persistPoint u core [] ∧ (t.core core).egress = [])) ∧
    (u.core core).egress = (s.core core).egress.drop (releaseCount (s.core core).egress)) ∧
  (∀ (s : State) (core launch : Nat) (c : Ctx) (l : Launch), (s.core core).st.ctx? launch = some c → mfind s.launches launch = some l →
    (c.dlrem ≠ 0 → Happens (.deadlineExpiry core launch) s (fun t => t = s)) ∧
    (c.dlrem = 0 → (s.part l.part).state = 1 → Happens (.deadlineExpiry core launch) s (fun t =>
      t = fatal (taskFault s core launch fcDeadline) launch 1 fcDeadline)) ∧
    (c.refills = 0 → Happens (.energyRefill core launch) s (fun t => t = s)) ∧
    (c.refills ≠ 0 → Happens (.energyRefill core launch) s (fun t => ∃ c', (t.core core).st.ctx? launch = some c' ∧
      c'.refills = c.refills - 1 ∧ c'.ebudget = (if meteringOff c = true then c.ebudget
        else wordOfInt (saturate (sint c.ebudget + c.ebrate.toNat) (-(2 ^ 31)) c.ebmax)) ∧ c'.ebrate = c.ebrate ∧ c'.dlrem = c.dlrem))) ∧
  (∀ (s : State) (n core launch : Nat) (c : Ctx), (s.core core).st.ctx? launch = some c → (mfind s.cores core).isSome = true →
    ∃ c', ((passTime s n).core core).st.ctx? launch = some c' ∧ (passTime s n).time = s.time + n ∧
      c'.refills = c.refills + ((s.time + n) / 1000 - s.time / 1000) ∧ c'.ebudget = c.ebudget ∧
      c'.dlrem = if c.dlrem = 0xFFFFFFFFFFFFFFFF then c.dlrem else BitVec.ofNat 64 (c.dlrem.toNat - n)) ∧
  (∀ (s : State) (i : Nat), (s.debits[i]? = none → Happens (.guestDebit i) s (fun t => t = s)) ∧
    ∀ d, s.debits[i]? = some d → Happens (.guestDebit i) s (fun t => t = debit { s with debits := s.debits.eraseIdx i } d.1 d.2.1 d.2.2)) ∧
  (∀ (s : State) (i home launch host : Nat) (positive : Bool), s.reports[i]? = some (home, launch, host, positive) →
    ((∃ q ∈ s.reports.take i, q.1 = home ∧ q.2.1 = launch ∧ q.2.2.1 = host) → Happens (.ebudgetReport i) s (fun t => t = s)) ∧
    ((∀ q ∈ s.reports.take i, ¬ (q.1 = home ∧ q.2.1 = launch ∧ q.2.2.1 = host)) → Happens (.ebudgetReport i) s (fun t =>
      t.reports = s.reports.eraseIdx i ∧ (t.core host).st = (s.core host).st ∧
      ((home, launch) ∈ (t.core host).guestStalls ↔ positive = false) ∧
      ∀ x, x ≠ (home, launch) → (x ∈ (t.core host).guestStalls ↔ x ∈ (s.core host).guestStalls)))) ∧
  ∀ (s : State) (core slot : Nat) (w : Warp), s.warp? core slot = some w →
    (w.retryAt = none → Happens (.handlerPostRetry core slot) s (fun t => t = s)) ∧
    ∀ at_, w.retryAt = some at_ →
      (s.time < at_ ∨ commitWaits s core = true → Happens (.handlerPostRetry core slot) s (fun t => t = s)) ∧
      (at_ ≤ s.time → commitWaits s core = false → Happens (.handlerPostRetry core slot) s (fun t =>
        t = handlerPostAs s core slot ((postReason w).getD w.retryWhy)))
  )

/-- R279 to R281: a head that is written starts a walk unless one is in progress, which is then LOST; the walk reads the record at the head, ends at OWN 0
or after the last record, stops with a code at one that is not valid, and starts its copy, after those before it at a FENCE, of the record as it was
read; a copy's end advances the counter and clears OWN, and its failure ends the chain; a completion whose post to a bound window is refused leaves
code 0x12 in the channel's own status (R265). A walk whose partition is not ACTIVE, or has lost the grant, starts no record and then stops with code
8. Where the spec is open or read by inference this rests on assumption log 63. -/
def Obligations.ChannelsWalk : Prop :=
  ∀ (s : State) (master ch : Nat) (v : BitVec 64), ch < 16 →
    (chanMaster s master ch = false → Happens (.chheadWrite master ch v) s (fun t => t = s)) ∧
    (chanMaster s master ch = true → (s.channel ch).busy = true → Happens (.chheadWrite master ch v) s (fun t =>
      t = s.modChannel ch (fun c => { c with lost := true }))) ∧
    (chanMaster s master ch = true → (s.channel ch).busy = false → Happens (.chheadWrite master ch v) s (fun t =>
      t = if v.extractLsb' 6 51 = 0 then s.modChannel ch (fun c => { c with head := 0 }) else startChannel s ch v.toNat)) ∧
    ((s.channel ch).busy = false → Happens (.channelRecord ch) s (fun t => t = s)) ∧
    ((s.channel ch).busy = true → (s.channel ch).head = 0 → Happens (.channelRecord ch) s (fun t =>
      (t.channel ch).busy = false ∧ (t.channel ch).code = (s.channel ch).code ∧ (t.channel ch).ops = (s.channel ch).ops)) ∧
    (∀ p r, (s.channel ch).busy = true → (s.channel ch).head ≠ 0 → chanActive s ch = some p →
      chanRead s p (s.channel ch) (s.channel ch).head.toNat = .ok r →
      (recField r 40 1 % 2 = 0 → Happens (.channelRecord ch) s (fun t => (t.channel ch).busy = false ∧ (t.channel ch).code = (s.channel ch).code)) ∧
      (recField r 40 1 % 2 = 1 → recordOk s r = false → Happens (.channelRecord ch) s (fun t => (t.channel ch).busy = false ∧ (t.channel ch).code = 7)) ∧
      (recField r 40 1 % 2 = 1 → recordOk s r = true → bitOf (recField r 40 1) 1 = true → (s.channel ch).ops ≠ [] →
        Happens (.channelRecord ch) s (fun t => t = s.modChannel ch (fun c => { c with record := r }))) ∧
      (recField r 40 1 % 2 = 1 → recordOk s r = true → bitOf (recField r 40 1) 1 = false ∨ (s.channel ch).ops = [] →
        Happens (.channelRecord ch) s (fun t => (t.channel ch).busy = true ∧ (t.channel ch).ops = (s.channel ch).ops ++ [s.fresh] ∧
          (t.channel ch).head = BitVec.ofNat 64 (recField r 0 8 / 64 % 2 ^ 51 * 64) ∧
          ∃ e, mfind t.engines s.fresh = some e ∧ e.kind = .channel ch (recField r 8 8) (recField r 16 8) (recField r 24 8) (s.channel ch).head.toNat (recField r 32 8) ∧
            e.ctr = recField r 32 8 ∧ e.part = p))) ∧
    (∀ p, (s.channel ch).record ≠ [] → chanRead s p (s.channel ch) (s.channel ch).head.toNat = .ok (s.channel ch).record) ∧
    (∀ x p, (s.channel ch).busy = true → (s.channel ch).head ≠ 0 → chanActive s ch = some p →
      chanRead s p (s.channel ch) (s.channel ch).head.toNat = .error x →
      (x.1 = 0 → Happens (.channelRecord ch) s (fun t => t = s)) ∧
      (x.1 ≠ 0 → Happens (.channelRecord ch) s (fun t => (t.channel ch).busy = false ∧ (t.channel ch).code = x.1))) ∧
    ((s.channel ch).busy = true → (s.channel ch).head ≠ 0 → chanActive s ch = none →
      ((s.channel ch).ops ≠ [] → Happens (.channelRecord ch) s (fun t => t = s)) ∧
      ((s.channel ch).ops = [] → Happens (.channelRecord ch) s (fun t =>
        (t.channel ch).busy = false ∧ (t.channel ch).code = 8 ∧ (t.channel ch).head = (s.channel ch).head))) ∧
    ((s.channel ch).ops = [] → Happens (.channelCopyCompletion ch) s (fun t => t = s)) ∧
    ∀ op rest e c src dst len addr ctr, (s.channel ch).ops = op :: rest → mfind s.engines op = some e → e.kind = .channel c src dst len addr ctr →
      engReady s e = true →
      (∀ x, unitsE chanUnit op s e.rest = .error x → Happens (.channelCopyCompletion ch) s (fun t => t = if x.1 = 0 then s else chanFail s ch e addr x)) ∧
      (∀ s1, unitsE chanUnit op s e.rest = .ok s1 → Happens (.channelCopyCompletion ch) s (fun t => t = chanDone s1 ch e addr ∧
        (e.ctr ≠ 0 → (counterPost (endEngine s1 e) e.part e.core e.ctr e.count e.status e.info e.path).1 ≠ 0 → (t.channel ch).code = 0x12)))

/-! ## Migration, shapes, system registers and hints (14_shuttles.md, 07_shape_system.md) -/

/-- R285, R287, R292, R293: MIGTO takes each member to the core of its address where that core accepts it, or home, and counts those refused; MIGRET takes
guests home; REGRP goes on when no lane of its mask is AWAY, and parks its batch before. R285, R286, R289: an accepted departure leaves its home lanes
AWAY, and a guest's lane free, and one shuttle in transit for each, with the registers of the MIGSET snapshot, and publishes the core's stores. R287:
the fibres that a target may refuse: it accepts a departure when its queue has room for all of it, it runs, no gating is asked of it and its partition
is the fibre's. Where the spec is open or read by inference this rests on assumption log 35, 38 and 106. -/
def Obligations.MigrationWorks : Prop :=
  (
  ∀ (h : Hdr) (a : BitVec 6) (m : BitVec 4) (s : State),
    let ls := s.active h
    (let f : Form := { h := h, ok := legal (.migto h a), src := regsOf a.toNat 2 }
     let dest := migtoDest (s.issued f) a.toNat
     HasEffectIf f (.migto h a) s (migWaits (s.charged f) (migtoDest (s.charged f) a.toNat) ls = false ∧
        ∀ l ∈ ls, (locate (s.charged f) (whoOf (s.charged f) (s.charged f).cur.core (s.charged f).cur.slot l) ((s.charged f).gd l a.toNat).toNat).isSome = true ∧
          (migtoDest (s.charged f) a.toNat l = .stay ∨ migPoison (s.charged f) l = none))
      (fun u =>
        let d := migDecide u u.curPart dest ls
        let homes := ls.filter (fun l => dest l == .home)
        let v := clearBounced (countFallback u d.2.length) ls
        departAll (standBack v (homes ++ d.1.flatMap (·.2))) 2 (nextPc u.cur.pc) homes d.1)) ∧
    (let f : Form := { h := h }
     HasEffectIf f (.migret h) s (migWaits (s.charged f) (fun l => if ((s.charged f).curLane l).guest.isSome then .home else .stay) ls = false ∧
        ∀ l ∈ ls, ((s.charged f).curLane l).guest = none ∨ migPoison (s.charged f) l = none)
      (fun u => departAll u 2 (nextPc u.cur.pc) (ls.filter (fun l => (u.curLane l).guest.isSome)) [])) ∧
    (let f : Form := { h := h, ok := legal (.regrp h m), uniform := true, guestOk := false }
     let whole := fun (u : State) => ∀ l, (u.curWarp.mask m.toNat).getLsbD l = true → (u.curLane l).state ≠ .away
     HasEffectIf f (.regrp h m) s (whole (s.issued f)) (fun u => u) ∧
     HasEffectIf f (.regrp h m) s (¬ whole (s.issued f))
      (fun u => parkHere u h (u.members.filter (fun k => ls.contains k || (u.curLane k).state == .ready)) (.regrp m.toNat)))
  ) ∧ (
  ∀ (s : State) (ls : List Nat) (target mode : Nat) (pc : DWord), Home s → ls.Nodup →
    let t := depart s ls target mode pc
    (∀ l ∈ ls, (s.curLane l).guest = none → (t.curLane l).state = .away ∧ (t.curLane l).pc = pc ∧ (t.curLane l).seq = (s.curLane l).seq + 1) ∧
    (∀ l ∈ ls, (s.curLane l).guest.isSome = true → (t.curLane l).state = .empty) ∧
    (t.core s.cur.core).egress = [] ∧ (t.core s.cur.core).l1w = [] ∧
    ∀ l ∈ ls, ∃ x ∈ t.transit, x.fromCore = s.cur.core ∧ x.fromSlot = s.cur.slot ∧ x.fromLane = l ∧ x.target = target ∧ x.pc = pc ∧
      x.homeward = false ∧ x.settled = false ∧ x.sp = (s.curLane l).sp ∧ x.pw = (s.curLane l).pw ∧
      x.regs = carryRegs s.curWarp l (match (s.curLane l).guest with | some g => g.migset | none => s.curWarp.migset)
  ) ∧ (
  ∀ (s : State) (target part n : Nat), migAccepts s target part n = true ↔
    (s.core target).st.shuttles.length + (s.transit.filter (fun x => !x.homeward && x.target == target && !x.settled)).length + n ≤ 256 ∧
    (s.core target).power = .active ∧ (s.core target).gateReq = false ∧ (s.core target).resuming = false ∧ s.partOfCore target = some part
  )

/-- R288, R289, R295: the events of shuttles. An arrival queues the shuttles of one departure that the core has not seen; a placement makes the oldest
that has a place a READY guest with the shuttle's state; a homeward shuttle writes its registers into the home lane, marks of poison lifted, and makes
it READY, or FAULTED with its record, ENDED or EMPTY as its flags say; a shuttle that its receiver has forgotten is sent again. Where the spec is open
or read by inference this rests on assumption log 69, 84 and 86. -/
def Obligations.ShuttleEvents : Prop :=
  (∀ (s : State) (gtag : Nat) (x : Shuttle), s.transit.filter (fun y => !y.homeward && y.g.gtag == gtag && !y.settled && receives s y.target) = [x] →
    (s.core x.target).st.seen.contains x.key = false →
    Happens (.shuttleArrival gtag) s (fun t => (t.core x.target).st.shuttles = (s.core x.target).st.shuttles ++ [{ x with queuedAt := s.time }] ∧
      x.key ∈ (t.core x.target).st.seen ∧ t.transit = s.transit.map (fun y => if y.id = x.id then { y with settled := true } else y))) ∧
  (∀ (s s1 : State) (core slot : Nat) (x : Shuttle), receives s core = true →
    (s.core core).st.shuttles.findSome? (fun y => (guestSlot s core y).map (fun r => (y, r))) = some (x, s1, slot) →
    Happens (.guestPlacement core) s (fun t => t = placeGuest s1 core x slot)) ∧
  (∀ (s : State) (core gtag : Nat), let xs := (s.core core).st.shuttles.filter (fun x =>
      x.g.gtag == gtag && !x.returned && decide (x.queuedAt + 10000 ≤ s.time) && receives s x.fromCore)
    receives s core = true → xs ≠ [] → (∀ c ∈ (core :: xs.map (fun x => x.fromCore)).eraseDups, commitWaits s c = false) →
    Happens (.shuttleBounce core gtag) s (fun t => t = ((core :: xs.map (fun x => x.fromCore)).eraseDups).foldl (fun u c => commitCore u c 0 [])
      (xs.foldl bounceOne (s.modSt core (fun k => { k with shuttles := k.shuttles.filter (fun y => !(xs.any (fun x => x.id == y.id))) }))))) ∧
  (∀ (s : State) (id : Nat) (x : Shuttle), s.transit.find? (fun y => y.homeward && y.id == id && !y.settled) = some x → receives s x.g.origin = true →
    let c := x.g.origin
    let got := markReceived s x.id
    (got.core c).st.seen.contains x.key = false →
    let noted := (countEvent (got.modSt c (fun k => k.noteSeen x)) c 0x0A 1).modCtx c x.g.launch (fun y => { y with opf := y.opf ||| x.g.gfl })
    let back := noted.modLane c x.g.homeSlot x.g.lane (homeLane x)
    Happens (.homeArrival id) s (fun t => t = settleWarp (regroup (acquire (homeState back c x.g.homeSlot x.g.lane x) c) c x.g.homeSlot) c x.g.homeSlot)) ∧
  (∀ (x : Shuttle) (y : Lane), (homeLane x y).state = .ready ∧ (homeLane x y).pc = x.pc ∧ (homeLane x y).sp = x.sp ∧ (homeLane x y).pw = x.pw ∧
    (homeLane x y).frames = y.frames ∧ (homeLane x y).lk = y.lk ∧ (homeLane x y).wbase = y.wbase ∧
    (∀ r, (∀ k v, (k, v) ∈ x.regs → k = 0 ∨ r ≠ y.wbase + k) → mget (homeLane x y).regs r 0 = mget y.regs r 0) ∧
    ((x.regs.map (·.1)).Nodup → ∀ k v, (k, v) ∈ x.regs → k ≠ 0 → mget (homeLane x y).regs (y.wbase + k) 0 = v ∧
      mfind (homeLane x y).poison (y.wbase + k) = none)) ∧
  (∀ (s : State) (c slot l : Nat) (x : Shuttle) (w : Warp), s.warp? c slot = some w →
    let t := homeState s c slot l x
    let state := (t.warp? c slot).map (fun v => (v.lane l).state)
    (x.fault = true → state = some .faulted ∧ ∃ v r, t.warp? c slot = some v ∧ (v.lane l).record = some r ∧ r.code = x.fcode ∧ r.addr = x.faddr ∧
      r.pc = x.pc) ∧
    (x.fault = false → x.ended = true → state = some .ended) ∧
    (x.fault = false → x.ended = false → x.exited = true → state = some .empty) ∧
    (x.fault = false → x.ended = false → x.exited = false → x.recalled = false → t = s)) ∧
  (∀ (s : State) (id : Nat), Happens (.shuttleResend id) s (fun t => t = { s with transit := s.transit.map (fun x =>
    if x.id = id ∧ x.settled = true ∧ (s.core x.target).st.seen.contains x.key = false then { x with settled := false } else x) })) ∧
  (∀ (s : State) (core gid dst : Nat) (g : Group), mfind (s.core core).st.groups gid = some g → mayMove s core gid dst g = true →
    Happens (.groupMove core gid dst) s (fun t => t = moveGroup s core gid dst g))

/-- R138: SHLD leaves pending the 64 bytes at the leader's address as a shape register, SHST stores one, at a persist point if that posts a message
(R191); SHGET leaves pending a field in each member, SHSET a field of a shape register from the leader. R139 to R141, R290: CSRR leaves pending each
member's view of a system register; CSRW, CSRS and CSRC write, set or clear bits of the registers that a task may write. R140, Table 7-6: which
registers a task writes, and what the write leaves: MIGSET, OPF and ACCSAT; another register is refused. Where the spec is open or read by inference
this rests on assumption log 56, 59 and 93. -/
def Obligations.ShapesAndSystemRegisters : Prop :=
  (
  ∀ (h : Hdr) (hf : BitVec 4) (a fd : BitVec 6) (s : State),
    let ls := s.active h
    let lead := ls.headD 0
    let at_ := fun (u : State) => (u.gd lead a.toNat).toNat
    (let f : Form := { h := h, ok := legal (.shld h hf a), src := regsOf a.toNat 2, uniform := true, guestOk := false }
     let hs := fun (u : State) => okHalves (shapeCheck u .load (at_ u))
     HasEffectIf f (.shld h hf a) s (accessWait (s.charged f) true false 0 false (fun _ => hs (s.charged f)) [lead] = none ∧
        errFault (shapeCheck (s.charged f) .load (at_ (s.charged f))) = none ∧ (hs (s.issued f)).any (meetsBadTag (s.issued f) (engWho (s.issued f)) 0) = false)
      (fun u => memSample (readPast (u.addRes (lanesMask ls) [.shape hf.toNat (BitVec.ofNat 512 (ofBytesLE (readHalves u (engWho u) 0 (hs u))))] 0)
        (engWho u) 0 (hs u)) [lead] (fun _ => at_ u) 64 false)) ∧
    (let f : Form := { h := h, ok := legal (.shst h hf a), src := regsOf a.toNat 2, shsrc := [hf.toNat], uniform := true, guestOk := false }
     let hs := fun (u : State) => okHalves (shapeCheck u .store (at_ u))
     HasEffectIf f (.shst h hf a) s (accessWait (s.charged f) false true 0 false (fun _ => hs (s.charged f)) [lead] = none ∧
        postWait (s.charged f) ls (hs (s.charged f)) = none ∧ errFault (shapeCheck (s.charged f) .store (at_ (s.charged f))) = none)
      (fun u => egressSettle (memSample (writeHalves (postCommit u (hs u)) (engWho u) 0 (hs u) (bytesLE 64 (u.shape hf.toNat).toNat)) [lead] (fun _ => at_ u) 64 true) u.cur.core)) ∧
    (let wide := shapeWidth fd.toNat == 64
     let f : Form := { h := h, ok := legal (.shget h hf a fd), dst := regsOf a.toNat (if wide then 2 else 1), shsrc := [hf.toNat], uniform := true,
                       guestOk := false }
     HasEffect f (.shget h hf a fd) s (fun u =>
      let v := (u.shape hf.toNat).toNat / 2 ^ shapeLow fd.toNat % 2 ^ shapeWidth fd.toNat
      u.eachLane ls (fun w l => w.addLane l
        (if wide then effGd w.curWarp l a.toNat (BitVec.ofNat 64 v) else effG w.curWarp l a.toNat (BitVec.ofNat 32 v)) 0))) ∧
    (let wide := shapeWidth fd.toNat == 64
     let f : Form := { h := h, ok := legal (.shset h hf a fd), src := regsOf a.toNat (if wide then 2 else 1), uniform := true, guestOk := false }
     HasEffect f (.shset h hf a fd) s (fun u => u.addRes (lanesMask ls) [.shapeField hf.toNat (shapeLow fd.toNat) (shapeWidth fd.toNat)
      ((if wide then (u.gd lead a.toNat).toNat else (u.g lead a.toNat).toNat) % 2 ^ shapeWidth fd.toNat)] 0))
  ) ∧ (
  ∀ (h : Hdr) (d : BitVec 6) (c : BitVec 12) (s : State),
    let ls := s.active h
    let lead := ls.headD 0
    let wide := csrWide c.toNat
    let base := csrBase c.toNat
    (let f : Form := { h := h, ok := legal (.csrr h d c), dst := regsOf d.toNat (if wide then 2 else 1) }
     HasEffectIf f (.csrr h d c) s (∀ l ∈ ls, guestCsrFault c true (s.charged f) l = none)
      (fun u => u.eachLane ls (fun w l => w.addLane l (if wide then effGd w.curWarp l d.toNat (BitVec.ofNat 64 (csrValue u l base))
        else effG w.curWarp l d.toNat (BitVec.ofNat 32 (csrValue u l base))) 0))) ∧
    (let writes := fun (i : Instr) (fn : Nat → Nat → Nat) =>
      let f := formCsr h d c (legal i)
      HasEffectIf f i s (guestCsrFault c false (s.charged f) lead = none ∧ csrWriteFault (s.charged f) d c fn lead = none)
        (fun u => csrStore u base (csrNext u d c fn lead))
     writes (.csrw h d c) (fun _ v => v) ∧ writes (.csrs h d c) (fun r v => r ||| v) ∧ writes (.csrc h d c) (fun r v => r ^^^ (r &&& v)))
  ) ∧ (
  (∀ (s : State) (d : BitVec 6) (c : BitVec 12) (fn : Nat → Nat → Nat) (l : Nat),
    (csrBase c.toNat ∉ [0x032, 0x040, 0x041] → csrBase c.toNat ≠ 0x063 ∨ inHalt s s.cur.core = true →
      ∃ x, csrWriteFault s d c fn l = some x ∧ (x.code = fcIllegalOp ∨ x.code = fcPriv)) ∧
    (csrBase c.toNat = 0x032 → popcount 64 (csrNext s d c fn l) ≤ 16 → csrWriteFault s d c fn l = none)) ∧
  (∀ (s : State) (v : Nat), Home s → (csrStore s 0x032 v).curWarp.migset = BitVec.ofNat 64 v ∧
    (∀ l, (csrStore s 0x032 v).curLane l = s.curLane l)) ∧
  (∀ (s : State) (v : Nat) (x : Ctx), (s.core s.cur.core).st.ctx? s.curWarp.launch = some x →
    (csrStore s 0x040 v).curCtx.opf = BitVec.ofNat 6 v ∧ (csrStore s 0x041 v).curCtx.accsat = BitVec.ofNat 2 v)
  )

/-- R57, R58: a legal hint of a batch is held by every member, which stands at the next instruction; an illegal one faults. R320, R353 to R356: DUMP parks
its batch and asks the groups of its task to stop, where no dump is asked for; the dump is written when nothing hinders it; TMARK writes one entry of
the trace ring; a word that is no instruction raises ILLEGAL_OP in its active members, one of the hints' major in every member (03 R58, R59). Where
the spec is open or read by inference this rests on assumption log 15, 24, 27, 60, 65 and 89. -/
def Obligations.HintsDumpsAndMarks : Prop :=
  (
  ∀ (s : State) (v : BitVec 20) (r : BitVec 6) (p : BitVec 4) (x1 t1 : BitVec 1) (m1 o2 w2 : BitVec 2) (c3 k3 u3 : BitVec 3) (e : BitVec 4),
    s.cur.stream = false →
    let held := fun (i : Instr) (x : Hint) =>
      (legal i = true → hintLimits (s.cur.hints ++ [x]) = true → exec i s = .next (holdHint s x)) ∧
      (legal i = false ∨ hintLimits (s.cur.hints ++ [x]) = false → exec i s = .next (settleWarp (raiseAll s.bareCur noForm 0
        (s.members.map (fun l => (l, (⟨fcIllegalOp, 0, false⟩ : Flt))))) s.cur.core s.cur.slot))
    held (.immx v) (.immx v) ∧ held (.opndReg r) (.opndReg r.toNat) ∧ held (.opndPred p) (.opndPred p.toNat) ∧
    held (.modr x1 m1 t1 c3 k3 o2 w2) (.modr (x1 == 1) m1.toNat (t1 == 1) c3.toNat k3.toNat o2.toNat w2.toNat) ∧
    held (.schd x1 u3) (.schd (x1 == 1) u3.toNat) ∧ held (.ecls e) (.ecls e.toNat) ∧
    (Home s → ∀ x, ∀ l ∈ s.members, ((holdHint s x).curLane l).hints = s.cur.hints ++ [x] ∧ ((holdHint s x).curLane l).pc = nextPc s.cur.pc ∧
      ((holdHint s x).curLane l).regs = (s.curLane l).regs ∧ ((holdHint s x).curLane l).pw = (s.curLane l).pw)
  ) ∧ (
  ∀ (h : Hdr) (c : BitVec 16) (s : State) (part : Nat),
    (let f : Form := { h := h, uniform := true, guestOk := false }
     HasEffectIf f (.dump h) s (((s.charged f).part (s.charged f).curPart).dumpReq = none) (fun u =>
      let v := parkAfter u (u.members.filter (fun k => (s.active h).contains k || (u.curLane k).state == .ready)) .dump
      (askStop v (groupsOf v u.curWarp.launch) true).modPart u.curPart (fun p =>
        { p with dumpReq := some (2, 0, BitVec.ofNat 32 (taskidOf u u.cur.core u.cur.slot ((s.active h).headD 0)), u.curWarp.launch) }))) ∧
    (let f : Form := { h := h, uniform := true }
     HasEffect f (.tmark h c) s (fun u => traceAdd u u.cur.core 6 (u.curLane ((s.active h).headD 0)).guest.isSome u.cur.slot ((s.active h).headD 0)
      (c.toNat * 2 ^ 64 + u.cur.hpc.toNat % 2 ^ 57))) ∧
    ((s.part part).dumpReq = none → Happens (.dumpWrite part) s (fun t => t = s)) ∧
    (∀ q, (s.part part).dumpReq = some q → dumpReady s part q.1 q.2.2.2 = true →
      Happens (.dumpWrite part) s (fun t => (t.part part).dumpReq = none ∧ t.summaries.length = s.summaries.length + 1)) ∧
    (∀ w : BitVec 32, let f : Form := { h := wordHdr w, ok := false }
     isHintWord w.toNat = false → performs { h := wordHdr w } s = true → exec (.illegalOpWord w) s = .next (finish (raiseAll (s.issued f) f ((s.active f.h).headD 0)
      ((s.active f.h).map (fun l => (l, (⟨fcIllegalOp, 0, false⟩ : Flt))))) f ((s.active f.h).headD 0) s.members [])) ∧
    (∀ w : BitVec 32, isHintWord w.toNat = true → s.cur.stream = false → exec (.illegalOpWord w) s = .next (settleWarp
      (raiseAll s.bareCur noForm 0 (s.members.map (fun l => (l, (⟨fcIllegalOp, 0, false⟩ : Flt))))) s.cur.core s.cur.slot))
  )

/-! ## Power, the journal, the host and commands (08_memories.md, 16_tables.md, 17_faults.md, 18_power_host.md) -/

/-- R172, R175: the module's power loss leaves MRAM, flash, fuses and the root of trust, and nothing else; a motif's loss leaves neither lines of its
slice nor translations, until its restore brings back the slice from its shadow, bytes written since first; the loss that would leave no motif powered
in HALT is refused (R335). R167, R169, R170: an epoch that is intact becomes the core's images, a torn one is dropped whole; with the last of them the
core goes on in the other buffer. A core that loses power stands at its last intact epoch, lost engines and groups apart: registers, scratchpad and
journalled lines as that epoch has them but for the deadlines, which count on (R313), and MIGFALLBACK, which the shadow does not hold; shared lines
and fetch blocks gone. Where the spec is open or read by inference this rests on assumption log 16, 80, 98 and 104. -/
def Obligations.PowerIsLost : Prop :=
  (
  ∀ (s : State) (motif : Nat),
    Happens .modulePowerLoss s (fun t => t.powered = false ∧ t.hbm = [] ∧ t.cores = [] ∧ t.l2 = [] ∧ t.l2shadow = [] ∧ t.parts = [] ∧
      t.launches = [] ∧ t.engines = [] ∧ t.flash = s.flash ∧ t.fuse = s.fuse ∧ t.cfgRecords = s.cfgRecords ∧ t.summaries = s.summaries ∧
      t.security = s.security ∧ t.ownerKey = s.ownerKey ∧ t.boot = s.boot) ∧
    (standbyInHalt s motif = true → Happens (.motifPowerLoss motif) s (fun t => t = s)) ∧
    (standbyInHalt s motif = false → Happens (.motifPowerLoss motif) s (fun t => (t.motif motif).powered = false ∧
      (t.motif motif).loaded = false ∧ (t.motif motif).tlb = [] ∧ ∀ x ∈ t.l2, homeMotif x.1 ≠ motif)) ∧
    ((s.motif motif).loaded = true → Happens (.motifRestore motif) s (fun t => t = s)) ∧
    ((s.motif motif).loaded = false → Happens (.motifRestore motif) s (fun t => (t.motif motif).powered = true ∧ (t.motif motif).loaded = true ∧
      ∀ pa, mfind t.l2 pa = if homeMotif pa = motif then (mfind s.l2 pa).or (mfind s.l2shadow pa) else mfind s.l2 pa))
  ) ∧ (
  ∀ (s : State) (core : Nat),
    ((s.core core).epochs = [] → Happens (.journalApply core) s (fun t => t = s)) ∧
    (∀ e rest, (s.core core).epochs = e :: rest →
      ((s.core core).journalFull = false ∨ rest ≠ [] → Happens (.journalApply core) s (fun t => (t.core core).epochs = rest ∧
        (t.core core).image = (if e.intact then e else (s.core core).image) ∧ (t.core core).st = (s.core core).st)) ∧
      ((s.core core).journalFull = true → rest = [] → commitWaits s core = false → Happens (.journalApply core) s (fun t => t = switchBuffer (commitCore
        (s.modCore core (fun k => { k with image := if e.intact then e else k.image, epochs := [], journalFull := false })) core 2 []) core))) ∧
    ((s.core core).power ≠ .active → Happens (.corePowerLoss core) s (fun t => t = s)) ∧
    ((s.core core).power = .active → s.engines = [] →
      (∀ g ∈ (s.core core).st.groups, (mfind (s.core core).lastEpoch.snap.groups g.1).isSome = true) →
      Happens (.corePowerLoss core) s (fun t =>
        (∃ v, (t.core core).st = { (s.core core).lastEpoch.snap.tick (s.time - (s.core core).lastEpoch.time) with rows := [], migfallback := v }) ∧
        (t.core core).power = .coreGated ∧ (t.core core).l1va = (s.core core).lastEpoch.lines ∧
        (t.core core).resuming = true ∧ (t.core core).l1w = (s.core core).lastEpoch.dirty ∧ (t.core core).l1s = [] ∧ (t.core core).icache = [] ∧
        (t.core core).egress = (s.core core).lastEpoch.egress ∧ t.hbm = s.hbm ∧ ∀ c, c ≠ core → t.core c = s.core c)) ∧
    (∀ k : Core, (k.epochs.filter (·.intact) = [] → k.lastEpoch = k.image) ∧
      ∀ a e b, k.epochs = a ++ e :: b → e.intact = true → (∀ x ∈ b, x.intact = false) → k.lastEpoch = e)
  )

/-- R169, R351, R352: a core resumes when module, motif, slice and partition are ready; a fibre that stood at an instruction stands at it again, before
its first hint, with its registers as they were. Banks are reloaded in the order in which they stand to be; a bank reloaded ends the wait for it.
R295, R335: gating is asked for, guests leave, and a core that is quiet and holds none commits and is gated. Where the spec is open or read by
inference this rests on assumption log 16 and 81. -/
def Obligations.CoresResumeAndRest : Prop :=
  (
  ∀ (s : State) (core bank : Nat),
    (let ready := s.powered = true ∧ (s.motif (core / 8)).powered = true ∧ (s.motif (core / 8)).loaded = true ∧
      (∃ p, s.partOfCore core = some p ∧ (s.part p).state ≠ 0) ∧ (s.core core).power ≠ .active
     (ready → Happens (.coreResume core) s (fun t => t = resumeCore s core)) ∧ (¬ ready → Happens (.coreResume core) s (fun t => t = s))) ∧
    (∀ x : Lane, (resumeLane x).regs = x.regs ∧ (resumeLane x).pw = x.pw ∧ (resumeLane x).poison = x.poison ∧ (resumeLane x).frames = x.frames ∧
      (resumeLane x).sp = x.sp ∧ (resumeLane x).lk = x.lk ∧
      (x.state = .ready → (resumeLane x).state = .ready ∧ (resumeLane x).hints = [] ∧ (resumeLane x).pc = if x.hints = [] then x.pc else x.hpc) ∧
      (x.state ≠ .ready → x.state ≠ .parked → (resumeLane x).state = x.state ∧ (resumeLane x).pc = x.pc)) ∧
    ((s.core core).restoring.head? ≠ some bank ∨ (s.core core).power ≠ .active → Happens (.bankReload core bank) s (fun t => t = s)) ∧
    ((s.core core).restoring.head? = some bank → (s.core core).power = .active → Happens (.bankReload core bank) s (fun t =>
      (t.core core).restoring = (s.core core).restoring.filter (· ≠ bank) ∧
      ∀ i w l, s.warp? core i = some w → (mfind w.lanes l).isSome = true → (w.lane l).state = .parked → (w.lane l).park = .restoring core bank →
        ∃ w', t.warp? core i = some w' ∧ (w'.lane l).state = .ready ∧ (w'.lane l).pc = (w.lane l).pc))
  ) ∧ (
  ∀ (s : State) (core : Nat),
    ((s.core core).power ≠ .active → Happens (.coreGate core) s (fun t => t = s)) ∧
    ((s.core core).power = .active →
      let asked := s.modCore core (fun k => { k with gateReq := true })
      let u := if commitWaits asked core then asked else recallFrom asked core (fun _ => true)
      (guestFree u core && coreQuiet u core) = false → Happens (.coreGate core) s (fun t => t = u)) ∧
    ((s.core core).power = .active → (s.core core).holds = [] → s.engines = [] → s.transit = [] → (s.core core).st.shuttles = [] →
      (s.core core).st.warps = [] → Happens (.coreGate core) s (fun t => (t.core core).power = .coreGated ∧ (t.core core).resuming = true ∧
        (t.core core).gateReq = false ∧ (t.core core).egress = [] ∧ (t.core core).st.scratch = (s.core core).st.scratch ∧
        (t.core core).st.acc = (s.core core).st.acc))
  )

/-- R362, R388, Table 18-2: a window of 10 µs is classed once, by the sums of its counters over the motif's ACTIVE cores and the cycles of its lanes, each
stretch at the clock that it ran at, none while they relock; a class that asks for steps does so from the second window of a run on. R363: a current
alarm raises PASSCNT up to 2, then the current ceiling; an interval decides at most one step, none while one is in progress: to the next slower point
when a ceiling asks for it, out of a boost that may not last, else as the request asks, a step up within the cap alone, which is the lesser of 62 W
and the shares of the partitions' budgets; the controller's estimates are inputs. R360: a step to a faster point ramps the voltage for 1,000 ns, then
relocks for 250 ns; one to a slower point relocks first; a step of LRATIO only relocks. OPL and LRATIO change when the relocking ends. Where the spec
is open or read by inference this rests on assumption log 11, 14 and 72. -/
def Obligations.PowerControl : Prop :=
  (
  (∀ (s : State) (motif : Nat),
    let c := (winSums s motif).winClass
    let run := if c = (s.motif motif).winClass then (s.motif motif).winRun + 1 else 1
    (s.time % 10000 = 0 → (s.motif motif).lastWin ≠ s.time → s.powered = true → Happens (.sensitivityWindow motif) s (fun t =>
      (t.motif motif).winClass = c ∧ (t.motif motif).winRun = run ∧ (t.motif motif).lastWin = s.time ∧
      (t.motif motif).laneWork = 0 ∧ (t.motif motif).laneSince = s.time ∧
      (t.motif motif).request = (if (c = .mem ∨ c = .lane ∨ c = .front) ∧ 2 ≤ run then some c else none) ∧ (t.motif motif).opl = (s.motif motif).opl ∧
      ∀ m, m ≠ motif → t.motif m = s.motif m)) ∧
    (s.time % 10000 ≠ 0 ∨ (s.motif motif).lastWin = s.time ∨ s.powered = false → Happens (.sensitivityWindow motif) s (fun t => t = s))) ∧
  (∀ (s : State) (motif : Nat), (winSums s motif).lane = (s.motif motif).laneUnits s.time / 200) ∧
  (∀ (m : Motif) (time d : Nat), (m.counted time).laneUnits (time + d) = m.laneUnits time + m.laneClock * d ∧
    (m.powered = false ∨ m.relocks.2 = true → m.laneClock = 0) ∧
    (m.powered = true → m.relocks.2 = false → m.opl = 1 → m.laneClock = if m.lratio = 0 then 243 else 486)) ∧
  ∀ w : WinSums, 0 < w.cores → 0 < w.cycf →
    (2 * w.cycf ≤ 5 * w.mstl → w.winClass = .mem) ∧
    (5 * w.mstl < 2 * w.cycf → 3 * (w.lane * w.cores) ≤ 4 * w.lbsy → w.winClass = .lane) ∧
    (5 * w.mstl < 2 * w.cycf → 4 * w.lbsy < 3 * (w.lane * w.cores) → 3 * w.cycf ≤ 5 * w.issu → 2 * w.lbsy < w.lane * w.cores → w.winClass = .front) ∧
    (5 * w.mstl < 2 * w.cycf → 4 * w.lbsy < 3 * (w.lane * w.cores) → 5 * w.issu < 3 * w.cycf ∨ w.lane * w.cores ≤ 2 * w.lbsy → w.winClass = .balanced)
  ) ∧ (
  (∀ (s : State) (motif : Nat), s.powered = true → (s.motif motif).powered = true → Happens (.currentAlarm motif) s (fun t =>
    let m := s.motif motif
    (t.motif motif).alarm = true ∧ (t.motif motif).opl = m.opl ∧ (t.motif motif).thc = m.thc ∧ (t.motif motif).chc = m.chc ∧
    (m.passcnt < 2 → (t.motif motif).passcnt = m.passcnt + 1 ∧ (t.motif motif).cuc = m.cuc) ∧
    (2 ≤ m.passcnt → (t.motif motif).passcnt = m.passcnt ∧ (t.motif motif).cuc = min 7 (max m.cuc m.opl + 1)))) ∧
  (∀ (s : State) (motif temp held step : Nat),
    let due := s.time % 1000 = 0 ∧ (s.motif motif).lastIval ≠ s.time ∧ s.powered = true ∧ (s.time % 10000 = 0 → (s.motif motif).lastWin = s.time)
    (¬ due → Happens (.controlInterval motif temp (held, step)) s (fun t => t = s)) ∧
    (due → Happens (.controlInterval motif temp (held, step)) s (fun t => t.motif motif = (s.motif motif).interval s.time ⟨temp, held, step, powerCap s motif⟩ ∧
      (t.motif motif).lastIval = s.time ∧ (t.motif motif).alarm = false ∧ (t.motif motif).opl = (s.motif motif).opl ∧
      ∀ m, m ≠ motif → t.motif m = s.motif m))) ∧
  (∀ (s : State) (motif : Nat), powerCap s motif ≤ 62 ∧ ∀ p x, s.parts = [(p, x)] → (x.budget * coresOf s p (motifCores motif) : Nat) ≤
      62 * coresOf s p (upFrom 256 0) → 0 < coresOf s p (upFrom 256 0) →
    powerCap s motif * (coresOf s p (upFrom 256 0) : Nat) = (x.budget * coresOf s p (motifCores motif) : Nat)) ∧
  ∀ (m : Motif) (time : Nat) (x : IvalIn),
    (x.allows = true ↔ (x.step : Rat) ≤ 1000 * x.cap) ∧ (x.keeps = true ↔ (x.held : Rat) ≤ 1000 * x.cap) ∧
    let k := (m.currentLimit.thermalLimit x.temp).checkLimits time
    (m.step.isSome = true → (m.interval time x).step = m.step ∧ (m.interval time x).request = m.request) ∧
    (m.step = none → (m.interval time x).request = none) ∧
    (m.step = none → m.opl < k.ceiling → (m.interval time x).step = some ⟨false, m.opl + 1, 1, time + 250⟩) ∧
    (m.step = none → k.ceiling = 0 → m.opl = 0 → (0 < k.passcnt ∨ x.keeps = false ∨ m.alarm = true) →
      (m.interval time x).step = some ⟨false, 1, 1, time + 250⟩) ∧
    (m.step = none → k.ceiling ≤ m.opl → 0 < m.opl → m.request = none → (m.interval time x).step = none) ∧
    (m.step = none → k.ceiling ≤ m.opl → 0 < m.opl → m.opl < 7 → m.request = some .mem → m.lratio = 0 →
      (m.interval time x).step = some ⟨false, m.opl + 1, 1, time + 250⟩) ∧
    (m.step = none → k.ceiling < m.opl → 2 ≤ m.opl → x.allows = true → m.request = some .front → m.lratio = 0 →
      (m.interval time x).step = some ⟨false, m.opl - 1, 1, time + 1000⟩) ∧
    (m.step = none → k.ceiling ≤ m.opl → 0 < m.opl → m.request = some .lane → m.lratio = 0 →
      (m.interval time x).step = if x.allows = true then some ⟨true, 1, 1, time + 250⟩ else none)
  ) ∧ (
  (∀ (s : State) (motif : Nat), Happens (.stepPhaseEnd motif) s (fun t => t.motif motif = (s.motif motif).phaseEnd s.time ∧
    ∀ m, m ≠ motif → t.motif m = s.motif m)) ∧
  (∀ (m : Motif) (time target : Nat), (m.beginOp time target).opl = m.opl ∧
    (m.beginOp time target).step = some ⟨false, target, 1, time + (if target < m.opl then 1000 else 250)⟩ ∧
    (m.beginRatio time target).step = some ⟨true, target, 1, time + 250⟩) ∧
  ∀ (m : Motif) (time : Nat) (st : PowerStep), m.step = some st →
    (time < st.ends → m.phaseEnd time = m.counted time) ∧
    (st.ends ≤ time → st.isRatio = true → m.phaseEnd time = { m.counted time with lratio := st.target, step := none }) ∧
    (st.ends ≤ time → st.isRatio = false → st.phase = 1 → st.target < m.opl →
      m.phaseEnd time = { m.counted time with step := some { st with phase := 2, ends := st.ends + 250 } }) ∧
    (st.ends ≤ time → st.isRatio = false → st.phase = 1 → m.opl ≤ st.target →
      m.phaseEnd time = { m.counted time with opl := st.target, step := some { st with phase := 2, ends := st.ends + 1000 } }) ∧
    (st.ends ≤ time → st.isRatio = false → st.phase ≠ 1 → m.phaseEnd time = { m.counted time with opl := st.target, step := none })
  )

/-- R165, R370 to R372: module reset empties memories and tables, frees every partition and applies the usable record with the highest SECVER; the
firmware is released when both dies accept images of one digest, measured with the record, else a master may write image slots, each of which extends
M3. Where the spec is open or read by inference this rests on assumption log 9, 11, 13 and 73. -/
def Obligations.ResetAndBoot : Prop :=
  (∀ s : State, Happens .moduleReset s (fun t => t.time = 0 ∧ t.hbm = [] ∧ t.cores = [] ∧ t.l2 = [] ∧ t.parts = [] ∧ t.owner = 7 ∧
    t.powered = true ∧ t.released = false ∧ t.boot = s.boot + 1 ∧ t.security = s.security ∧ t.flash = s.flash ∧ t.fuse = s.fuse ∧
    (cfgChosen s = none → t.motifs = [] ∧ t.serial = 0 ∧ t.ecost = []) ∧
    ∀ r, cfgChosen s = some r → r ∈ s.cfgRecords ∧ cfgUsable s r = true ∧
      (∀ q ∈ s.cfgRecords, cfgUsable s q = true → cfgField q 8 4 ≤ cfgField r 8 4) ∧ t.serial = cfgField r 16 8 ∧
      ∀ m, m < 32 → (t.motif m).opl = cfgField r (64 + m) 1 ∧ (t.motif m).lratio = cfgField r (96 + m) 1)) ∧
  (∀ s : State, s.powered = false ∨ s.released = true → Happens .firmwareBoot s (fun t => t = s)) ∧
  (∀ s : State, s.powered = true → s.released = false →
    let zero := List.replicate 32 (0 : Byte)
    (∀ a b, dieImage s 0 = some a → dieImage s 1 = some b → Config.sha256 a = Config.sha256 b → Happens .firmwareBoot s (fun t =>
      t.released = true ∧ t.recovery = false ∧ t.secver = Config.imageVersion a ∧ mget s.fuse 0 0 ≤ t.secver ∧
      t.measReg 0 = Config.sha256 (zero ++ Config.romDigest) ∧ t.measReg 1 = Config.sha256 (zero ++ Config.sha256 a) ∧ t.measReg 3 = s.measReg 3 ∧
      t.measReg 2 = Config.sha256 (zero ++ (match cfgChosen s with | some r => Config.sha256 r | none => zero)))) ∧
    (dieImage s 0 = none ∨ dieImage s 1 = none ∨ (dieImage s 0).map Config.sha256 ≠ (dieImage s 1).map Config.sha256 →
      Happens .firmwareBoot s (fun t => t.released = false ∧ t.recovery = true))) ∧
  ∀ (s : State) (master die slot : Nat) (image : List Byte),
    (s.recovery = true → s.hasMaster master = true → die ≤ 1 → slot ≤ 1 → Happens (.imageWrite master die slot image) s (fun t =>
      t = extendMeas { s with flash := mset s.flash (2 * die + slot) image } 3 (Config.sha256 image) ∧
      t.measReg 3 = Config.sha256 (s.measReg 3 ++ Config.sha256 image))) ∧
    (s.recovery = false ∨ s.hasMaster master = false → Happens (.imageWrite master die slot image) s (fun t => t = s))

/-- R367, R369: an access from outside reaches the partition that the master or the port was granted, at its homes; a read answers the bytes and rewrites
lines of reserved tags (12 R255), and waits for a slice without power (08_memories.md R172); a write is performed at its homes, or waits there; one
that fails, or of another's partition, adds 1 to APERR and answers nothing. R9, Table 18-4: a master's write reaches its own command registers, the
channels and partitions that it may write and, from the owner, the peer ports, and opens the debug window; every other write changes nothing, a
read-only register's, a foreign one's and those of no register. The last byte of the command block submits it. R2, R8, R9, R140, R327, R330: firmware,
the power controller and the debug agent write the fields that are theirs: an energy cost holds from the next debit, HAZCHK takes a write in HALT
alone, the shootdown registers act as a master's writes do, and a reserved value leaves its field. Where the spec is open or read by inference this
rests on assumption log 10, 79, 100, 101 and 103. -/
def Obligations.OutsideAccesses : Prop :=
  (
  (∀ (s : State) (cs : List (Nat × Bool × Byte)), (cs.map (·.1)).Nodup → (∀ c ∈ cs, paTarget c.1 = .hbm) →
    (∀ h ∈ s.held, ∀ q ∈ h.cells, ∀ r ∈ h.cells, q / 128 = r / 128) →
    ∀ pa, homeByte (outsideWrite s cs) pa = match cs.find? (fun c => c.1 == pa) with | some c => c.2.2 | none => homeByte s pa) ∧
  ∀ (s : State) (n part off len : Nat) (bs : List Byte) (pas : List Nat), s.powered = true →
    (s.hasMaster n = true → n < 4 → part < 16 → off < 2 ^ 38 →
      let va := (s.part part).apbase.toNat + off
      let fails := fun w => Happens (.hostAccess n part off len w) s (fun t => (t.part part).aperr = ((s.part part).aperr + 1) % 2 ^ 64 ∧
        (t.master n).answer = [] ∧ t.hbm = s.hbm ∧ t.l2 = s.l2 ∧ t.cores = s.cores)
      ((s.part part).master ≠ n → ∀ w, fails w) ∧
      ((s.part part).master = n →
        (outsideWaits s part va len = true → Happens (.hostAccess n part off len none) s (fun t => t = s)) ∧
        (outsideWaits s part va len = false → devRead s part va len = .ok bs → Happens (.hostAccess n part off len none) s (fun t =>
          t = (clearRead s part va len).modMaster n (fun m => { m with answer := bs }))) ∧
        (∀ x, outsideWaits s part va len = false → devRead s part va len = .error x → fails none) ∧
        (∀ x, devPas s part va bs.length = .error x → fails (some bs)) ∧
        (devPas s part va bs.length = .ok pas → Happens (.hostAccess n part off len (some bs)) s (fun t =>
          t = (outsidePosts (outsideWrite s (vaCells s part va pas bs)) (.master n) pas).modMaster n (fun m => { m with answer := [] }))))) ∧
    (n < 8 → (s.peer n).up = true → (s.peer n).part < 16 → off < 2 ^ 40 →
      let p := (s.peer n).part
      let va := (s.peer n).vbase.toNat + off
      let fails := fun w => Happens (.peerAccess n off len w) s (fun t => (t.part p).aperr = ((s.part p).aperr + 1) % 2 ^ 64 ∧
        (t.peer n).answer = [] ∧ t.hbm = s.hbm ∧ t.l2 = s.l2 ∧ t.cores = s.cores)
      (outsideWaits s p va len = true → Happens (.peerAccess n off len none) s (fun t => t = s)) ∧
      (outsideWaits s p va len = false → devRead s p va len = .ok bs → Happens (.peerAccess n off len none) s (fun t =>
        t = (clearRead s p va len).modPeer n (fun m => { m with answer := bs }))) ∧
      (∀ x, outsideWaits s p va len = false → devRead s p va len = .error x → fails none) ∧
      (∀ x, devPas s p va bs.length = .error x → fails (some bs)) ∧
      (devPas s p va bs.length = .ok pas → Happens (.peerAccess n off len (some bs)) s (fun t =>
        t = (outsidePosts (outsideWrite s (vaCells s p va pas bs)) (.peer n) pas).modPeer n (fun m => { m with answer := [] }))))
  ) ∧ (
  ∀ (s : State) (master off : Nat) (bs : List Byte), s.powered = true → s.hasMaster master = true →
    (0x4000 ≤ off → off + bs.length ≤ 0x8000 → Happens (.mmioWrite master off bs) s (fun t =>
      t = s.modMaster master (fun m => { m with ownbuf := putBytes m.ownbuf (off - 0x4000) bs }))) ∧
    (off = 0x3000 → bs.length = 4 → Happens (.mmioWrite master off bs) s (fun t =>
      t = s.modMaster master (fun m => { m with dbgsel := BitVec.ofNat 32 (ofBytesLE bs % 2 ^ 13) }))) ∧
    (off = 0x1000 → bs.length = 64 → Happens (.mmioWrite master off bs) s (fun t =>
      t = submit (s.modMaster master (fun m => { m with owncmd := bs })) master)) ∧
    (∀ ch, ch < 16 → off = 0x100000 + 0x40 * ch → bs.length = 8 → Happens (.mmioWrite master off bs) s (fun t =>
      t = if chanMaster s master ch = true then writeChhead s ch (ofBytesLE bs) else s)) ∧
    (∀ p, p < 16 → off = 0x200000 + 0x100 * p → bs.length = 8 → Happens (.mmioWrite master off bs) s (fun t =>
      t = if ownerOrMaster s master p = true then
          s.modPart p (fun x => { x with shootva := BitVec.ofNat 64 (ofBytesLE bs / 65536 % 2 ^ 41 * 65536) }) else s)) ∧
    (∀ p, p < 16 → off = 0x200020 + 0x100 * p → bs.length = 8 → Happens (.mmioWrite master off bs) s (fun t =>
      t = if ownerOrMaster s master p = true then
          s.modPart p (fun x => { x with apbase := BitVec.ofNat 64 (ofBytesLE bs / 2 ^ 38 * 2 ^ 38) }) else s)) ∧
    (∀ i, i < 8 → off = 0x300008 + 0x40 * i → bs.length = 8 → Happens (.mmioWrite master off bs) s (fun t =>
      t = if s.owner = master then s.modPeer i (fun x => { x with vbase := BitVec.ofNat 64 (ofBytesLE bs / 2 ^ 40 * 2 ^ 40) }) else s)) ∧
    (∀ ch, ch < 16 → off = 0x100008 + 0x40 * ch → bs.length = 4 → Happens (.mmioWrite master off bs) s (fun t =>
      t = if chanMaster s master ch = true ∧ bitOf (ofBytesLE bs) 16 = true then s.modChannel ch (fun c => { c with lost := false }) else s)) ∧
    (∀ p, p < 16 →
      let at_ := 0x200000 + 0x100 * p
      let mine := ownerOrMaster s master p = true
      let does := fun (o n : Nat) (t : State) => off = at_ + o → bs.length = n → Happens (.mmioWrite master off bs) s (fun u => u = if mine then t else s)
      does 0x08 8 (s.modPart p (fun x => { x with shootlen := BitVec.ofNat 64 (ofBytesLE bs / 65536 % 2 ^ 41 * 65536) })) ∧
      does 0x10 4 (writeShootcmd s p (ofBytesLE bs)) ∧ does 0x14 4 (writeShootstat s p (ofBytesLE bs))) ∧
    (∀ i, i < 8 → off = 0x300000 + 0x40 * i → bs.length = 8 → Happens (.mmioWrite master off bs) s (fun t =>
      t = if s.owner = master then s.modPeer i (fun x => { x with part := if ofBytesLE bs < 16 ∨ ofBytesLE bs = 0xFF then ofBytesLE bs else x.part }) else s)) ∧
    (0xC00000 ≤ off → off + bs.length ≤ 0x1000000 → Happens (.mmioWrite master off bs) s (fun t =>
      t = debugAccess s master (off - 0xC00000) 0 (some bs))) ∧
    (let last := off + bs.length
     (last ≤ 0x1000 ∨ (0x1040 ≤ off ∧ last ≤ 0x3000) ∨ (0x3004 ≤ off ∧ last ≤ 0x4000) ∨ (0x8000 ≤ off ∧ off < 0x100000) ∨
      (∃ ch, ch < 16 ∧ 0x100000 + 0x40 * ch ≤ off ∧ off < 0x100040 + 0x40 * ch ∧ (chanMaster s master ch = false ∨ 0x10000C + 0x40 * ch ≤ off)) ∨
      (0x100400 ≤ off ∧ off < 0x200000) ∨
      (∃ p, p < 16 ∧ 0x200000 + 0x100 * p ≤ off ∧ off < 0x200100 + 0x100 * p ∧ (ownerOrMaster s master p = false ∨ 0x200028 + 0x100 * p ≤ off ∨
        (0x200018 + 0x100 * p ≤ off ∧ last ≤ 0x200020 + 0x100 * p))) ∨
      (0x201000 ≤ off ∧ off < 0x300000) ∨
      (∃ i, i < 8 ∧ 0x300000 + 0x40 * i ≤ off ∧ off < 0x300040 + 0x40 * i ∧ (s.owner ≠ master ∨ 0x300010 + 0x40 * i ≤ off)) ∨
      (0x300200 ≤ off ∧ off < 0xC00000) ∨ (0xC00000 ≤ off ∧ 0x1000000 < last)) →
     Happens (.mmioWrite master off bs) s (fun t => t = s))
  ) ∧ (
  ∀ (s : State) (core slot lane i p : Nat) (v : DWord), s.powered = true → core < 256 →
    let w := fun num => firmwareTurn s (.csr core slot lane num) v
    (i < 16 → (firmwareTurn s (.ecost i) v).ecostOf i = v.toNat % 65536 ∧ ∀ j, j ≠ i → (firmwareTurn s (.ecost i) v).ecostOf j = s.ecostOf j) ∧
    (p < 16 → firmwareTurn s (.shootcmd p) v = writeShootcmd s p v.toNat ∧
      ((firmwareTurn s (.shootva p) v).part p).shootRange.1 = v.toNat / 65536 % 2 ^ 41 * 65536 ∧
      ((firmwareTurn s (.shootlen p) v).part p).shootRange.2 = v.toNat / 65536 % 2 ^ 41 * 65536) ∧
    (inHalt s core = true → ((w 0x063).core core).hazchk = v.getLsbD 0) ∧ (inHalt s core = false → w 0x063 = s) ∧
    ((w 0x060).motif (core / 8)).passcnt = (if v.toNat % 4 = 3 then (s.motif (core / 8)).passcnt else v.toNat % 4) ∧
    ((w 0x061).motif (core / 8)).lratio = (if v.toNat % 4 = 3 then (s.motif (core / 8)).lratio else v.toNat % 4) ∧
    ((w 0x062).motif (core / 8)).opl = v.toNat % 8 ∧
    (i < 16 → let x := mget (s.core core).evsel i 0; let y := mget ((w (0x0C0 + i)).core core).evsel i 0
      y.getLsbD 31 = v.getLsbD 31 ∧ y.toNat % 256 = (if v.toNat % 256 < 0x0F then v.toNat % 256 else x.toNat % 256) ∧ y.toNat / 256 % 2 ^ 23 = 0) ∧
    (i < 16 → mget ((w (0x0A0 + 2 * i)).core core).evc i 0 = v) ∧
    (∀ x, s.warp? core slot = some x → (s.core core).st.ctx? x.launch ≠ none → ∃ c, ((w 0x042).core core).st.ctx? x.launch = some c ∧ c.dlrem = v) ∧
    (∀ x, s.warp? core slot = some x → (mfind x.lanes lane).isSome = true → ∃ y, (w 0x025).warp? core slot = some y ∧
      (y.lane lane).safecnt = if v.toNat % 4096 ≤ 2048 then v.toNat % 4096 else (x.lane lane).safecnt)
  )

/-- R333, R369: links go up and down, the endpoints beyond the first only on a bifurcated link; an owner whose link has been down for 100 ms loses
ownership; a peer link that goes down takes the writes not acknowledged with it; APERR is returned and cleared. R333, R334: CLAIM takes a module that
nobody owns; HANDOVER and GRANT are the owner's, to a master whose link is up, or to none. READ places both tables in OWNBUF. Where the spec is open
or read by inference this rests on assumption log 77. -/
def Obligations.LinksAndOwners : Prop :=
  (
  ∀ (s : State) (n part : Nat) (up : Bool),
    let changed := fun (m : Nat) (b : Bool) (t : State) => (t.master m).link = b ∧ t.owner = s.owner ∧
      (t.master m).downAt = (if (s.master m).link = true ∧ b = false then s.time else (s.master m).downAt) ∧ ∀ k, k ≠ m → t.master k = s.master k
    (s.powered = true → n = 0 ∨ (n ≤ 3 ∧ s.linkcfg = 1) → Happens (.hostLinkChange n up) s (changed n up)) ∧
    (s.powered = true → Happens (.bmcPoll up) s (changed 4 up)) ∧
    (s.owner ≤ 4 → (s.master s.owner).link = false → (s.master s.owner).downAt + 100000000 ≤ s.time →
      Happens .ownerTimeout s (fun t => t = { s with owner := 7 })) ∧
    (4 < s.owner ∨ (s.master s.owner).link = true ∨ s.time < (s.master s.owner).downAt + 100000000 → Happens .ownerTimeout s (fun t => t = s)) ∧
    (n < 8 → Happens (.peerLinkDown n) s (fun t => (t.peer n).up = false ∧ (t.peer n).sent = [] ∧ (t.peer n).part = (s.peer n).part)) ∧
    (n < 8 → s.powered = true → Happens (.peerLinkUp n) s (fun t => (t.peer n).up = true ∧ (t.peer n).part = (s.peer n).part)) ∧
    (part < 16 → ownerOrMaster s n part = true → Happens (.aperrRead n part) s (fun t =>
      (t.master n).answer = bytesLE 8 (s.part part).aperr ∧ (t.part part).aperr = 0)) ∧
    (ownerOrMaster s n part = false → Happens (.aperrRead n part) s (fun t =>
      (t.master n).answer = List.replicate 8 0 ∧ (t.part part).aperr = (s.part part).aperr))
  ) ∧ (
  ∀ (s : State) (m succ part grantee : Nat),
    (s.owner = 7 → Answers (.cmdClaim m) s m 0 (fun t => t.owner = m)) ∧
    (s.owner ≠ 7 → Answers (.cmdClaim m) s m 2 (fun t => t.owner = s.owner)) ∧
    (s.owner ≠ m → Answers (.cmdHandover m succ) s m 1 (fun t => t.owner = s.owner) ∧ Answers (.cmdGrant m part grantee) s m 1 (fun t => t.parts = s.parts)) ∧
    (s.owner = m →
      Answers (.cmdHandover m 7) s m 0 (fun t => t.owner = 7) ∧
      (4 < succ → succ ≠ 7 → Answers (.cmdHandover m succ) s m 4 (fun t => t.owner = m)) ∧
      (succ ≤ 4 → (s.master succ).link = false → Answers (.cmdHandover m succ) s m 3 (fun t => t.owner = m)) ∧
      (succ ≤ 4 → (s.master succ).link = true → Answers (.cmdHandover m succ) s m 0 (fun t => t.owner = succ)) ∧
      (part < 16 → grantee ≤ 4 ∨ grantee = 7 → Answers (.cmdGrant m part grantee) s m 0 (fun t => (t.part part).master = grantee ∧
        ∀ q, q ≠ part → t.part q = s.part q)) ∧
      (16 ≤ part ∨ (4 < grantee ∧ grantee ≠ 7) → Answers (.cmdGrant m part grantee) s m 4 (fun t => t.parts = s.parts))) ∧
    (s.powered = true → s.released = true ∨ s.recovery = true → s.hasMaster m = true → Happens (.cmdRead m) s (fun t => (t.master m).ownstat = 0 ∧
      (∀ i b, (bothTables s)[i]? = some b → mget (t.master m).ownbuf i 0 = b) ∧ t.parts = s.parts ∧ t.owner = s.owner)) ∧
    (s.released = false → Happens (.cmdClaim m) s (fun t => t = s))
  )

/-- R327, R328: a shootdown of a bad range ends at once with ERR, one that meets a shootdown in progress is LOST; else translations of the ASID that cover
a page of the range are dropped, with the L1 lines of the member cores and the fetch blocks of the range but those in which a warp runs on to the
block's end; it is done when these, the engines, the walks and the egress entries that it found are over. The range is kept from the start: a later
write of SHOOTVA or SHOOTLEN does not move it. Where the spec is open or read by inference this rests on assumption log 74. -/
def Obligations.Shootdowns : Prop :=
  ∀ (s : State) (master p : Nat) (v : BitVec 32), p < 16 → ownerOrMaster s master p = true →
    let lo := (s.part p).shootRange.1
    let len := (s.part p).shootRange.2
    (v.getLsbD 0 = false → Happens (.shootdown master p v) s (fun t => t = s)) ∧
    (v.getLsbD 0 = true → (s.part p).shootBusy = true → Happens (.shootdown master p v) s (fun t => t = s.modPart p (fun x => { x with shootLost := true }))) ∧
    (v.getLsbD 0 = true → (s.part p).shootBusy = false → len = 0 ∨ 2 ^ 57 < lo + len → Happens (.shootdown master p v) s (fun t =>
      (t.part p).shootErr = true ∧ (t.part p).shootBusy = false ∧ (t.part p).shootDone = ((s.part p).shootDone + 1) % 2 ^ 15 ∧ t.cores = s.cores)) ∧
    (v.getLsbD 0 = true → (s.part p).shootBusy = false → 0 < len → lo + len ≤ 2 ^ 57 → Happens (.shootdown master p v) s (fun t =>
      (t.part p).shootBusy = true ∧ (t.part p).shootDone = (s.part p).shootDone ∧ (t.part p).shootSpan = (lo, len) ∧
      ∀ c ∈ memberCores s p, (t.core c).l1s = [] ∧ (t.core c).l1w = [] ∧
        (∀ x ∈ (t.core c).icache, lo ≤ x.1 → x.1 < lo + len → (midBlocks s c lo len).contains (x.1 / 128) = true) ∧
        ∀ y ∈ (t.motif (c / 8)).tlb, ¬ (y.asid = (s.part p).asid ∧ y.meets lo len = true))) ∧
    (∀ u : Nat, (writeShootva s p u).part p = { s.part p with shootva := BitVec.ofNat 64 (u / 65536 % 2 ^ 41 * 65536) } ∧
      (writeShootlen s p u).part p = { s.part p with shootlen := BitVec.ofNat 64 (u / 65536 % 2 ^ 41 * 65536) }) ∧
    ((s.part p).shootBusy = false → Happens (.shootdownDone p) s (fun t => t = s)) ∧
    ((s.part p).shootBusy = true → shootOver (shootBlocks s p) p = false → Happens (.shootdownDone p) s (fun t => t = shootBlocks s p)) ∧
    ((s.part p).shootBusy = true → shootOver (shootBlocks s p) p = true → Happens (.shootdownDone p) s (fun t => (t.part p).shootBusy = false ∧
      (t.part p).shootDone = ((s.part p).shootDone + 1) % 2 ^ 15 ∧ (t.part p).shootErr = (s.part p).shootErr))

/-- R336, R368: the debug window answers the granted master of a stopped core in HALT, and reads zero for any other; writes reach the scratchpad and the
accumulators at once, registers and the state image when the core resumes. A token that has run out ends debug. R336, R337: DEBUG is the granted
master's, NONE at any time, another state with a token that allows it; DSTOP and DRESUME act on a core in HALT. The writes that wait take effect when
a core resumes, by DRESUME or with its partition's leaving HALT: a byte of a register of a lane slot, of a lane's record (R368; its PC too, which the
model chooses), and of a shape register. Where the spec is open or read by inference this rests on assumption log 15, 75, 78, 107 and 109. -/
def Obligations.DebugWorks : Prop :=
  (
  ∀ (s : State) (master off len : Nat) (bs : List Byte), s.powered = true → s.hasMaster master = true →
    let sel := (s.master master).dbgsel
    let core := dbgCore sel
    let base := dbgWin sel * 4194304 + off
    (off + len ≤ 4194304 → Happens (.debugWindowAccess master off len none) s (fun t => t.cores = s.cores ∧ t.parts = s.parts ∧
      (t.master master).answer = if debugOpen s master core = true then (upFrom len base).map (regionByte s core (dbgRegion sel)) else List.replicate len 0)) ∧
    (off + bs.length ≤ 4194304 → debugOpen s master core = false → Happens (.debugWindowAccess master off len (some bs)) s (fun t => t = s)) ∧
    (off + bs.length ≤ 4194304 → debugOpen s master core = true → dbgRegion sel = 1 → base + bs.length ≤ 8388608 →
      Memory.wf (s.core core).st.scratch = true → Happens (.debugWindowAccess master off len (some bs)) s (fun t =>
        ∀ o, memRead (t.core core).st.scratch o = if base ≤ o ∧ o < base + bs.length then bs.getD (o - base) 0 else memRead (s.core core).st.scratch o)) ∧
    (off + bs.length ≤ 4194304 → debugOpen s master core = true → dbgRegion sel = 0 → base + bs.length ≤ 1048576 →
      Happens (.debugWindowAccess master off len (some bs)) s (fun t => (t.core core).st = (s.core core).st ∧
        (t.core core).debugWrites = (s.core core).debugWrites ++ (upFrom bs.length base).zip bs)) ∧
    (off + bs.length ≤ 4194304 → debugOpen s master core = true → dbgRegion sel = 3 → base + bs.length ≤ 786432 →
      Happens (.debugWindowAccess master off len (some bs)) s (fun t => (t.core core).st = (s.core core).st ∧
        (t.core core).debugWrites = (s.core core).debugWrites ++ ((upFrom bs.length base).zip bs).map (fun x => (3 * 2 ^ 23 + x.1, x.2)))) ∧
    (off + bs.length ≤ 4194304 → debugOpen s master core = true → dbgRegion sel = 2 → base + bs.length ≤ 262144 →
      Happens (.debugWindowAccess master off len (some bs)) s (fun t =>
        ∀ o, wordByte (mget (t.core core).st.acc (o / 4) 0) (o % 4) =
          if base ≤ o ∧ o < base + bs.length then bs.getD (o - base) 0 else wordByte (mget (s.core core).st.acc (o / 4) 0) (o % 4))) ∧
    ∀ part, ((s.part part).tokenExpiry = none → Happens (.debugTokenExpiry part) s (fun t => t = s)) ∧
      ∀ e, (s.part part).tokenExpiry = some e →
        (s.time < e → Happens (.debugTokenExpiry part) s (fun t => t = s)) ∧
        (e ≤ s.time → Happens (.debugTokenExpiry part) s (fun t => t = setDebug s part 0))
  ) ∧ (
  ∀ (s : State) (m p d core : Nat),
    (16 ≤ p ∨ 2 < d → Answers (.cmdDebug m p d) s m 4 (fun t => t.parts = s.parts)) ∧
    (p < 16 → d ≤ 2 → (s.part p).master ≠ m → Answers (.cmdDebug m p d) s m 1 (fun t => t.parts = s.parts)) ∧
    (p < 16 → (s.part p).master = m → (s.part p).debug ≠ 2 → Answers (.cmdDebug m p 0) s m 0 (fun t => (t.part p).debug = 0 ∧ (t.part p).tokenExpiry = none)) ∧
    (p < 16 → (s.part p).master = m → (s.part p).debug = 2 → Answers (.cmdDebug m p 0) s m 0 (fun t =>
      t.cores = ((memberCores s p).foldl (fun u c => if (u.core c).stopped then resumeStopped u c else u)
        (s.modPart p (fun x => { x with debug := 0, tokenExpiry := none }))).cores ∧
      ((∀ c ∈ memberCores s p, (s.core c).debugWrites = []) → (t.part p).debug = 0 ∧ (t.part p).tokenExpiry = none ∧
        ∀ c ∈ memberCores s p, (t.core c).stopped = false ∧ (t.core c).st = (s.core c).st))) ∧
    (p < 16 → 0 < d → d ≤ 2 → (s.part p).master = m → s.security = .retired ∨ (d = 2 ∧ inStandby s = true) →
      Answers (.cmdDebug m p d) s m 5 (fun t => t.parts = s.parts)) ∧
    (p < 16 → 0 < d → d ≤ 2 → (s.part p).master = m → s.security ≠ .retired → (d = 2 → inStandby s = false) → tokenOk s m p d = false →
      Answers (.cmdDebug m p d) s m 7 (fun t => t.parts = s.parts)) ∧
    (p < 16 → 0 < d → d ≤ 2 → (s.part p).master = m → s.security ≠ .retired → (d = 2 → inStandby s = false) → tokenOk s m p d = true →
      tenantOwned s p = false → (s.part p).debug ≠ 2 ∨ d = 2 →
      Answers (.cmdDebug m p d) s m 0 (fun t => (t.part p).debug = d ∧ (t.part p).tokenExpiry = some (tokenEnd s m))) ∧
    (p < 16 → 0 < d → d ≤ 2 → (s.part p).master = m → s.security ≠ .retired → (d = 2 → inStandby s = false) → tokenOk s m p d = true →
      tenantOwned s p = true → consentOk s m p d = false → Answers (.cmdDebug m p d) s m 8 (fun t => t.parts = s.parts)) ∧
    (256 ≤ core ∨ s.partOfCore core = none → Answers (.cmdDstop m core) s m 4 (fun t => t.cores = s.cores) ∧
      Answers (.cmdDresume m core) s m 4 (fun t => t.cores = s.cores)) ∧
    (core < 256 → ∀ q, s.partOfCore core = some q →
      ((s.part q).master ≠ m → Answers (.cmdDstop m core) s m 1 (fun t => t.cores = s.cores) ∧ Answers (.cmdDresume m core) s m 1 (fun t => t.cores = s.cores)) ∧
      ((s.part q).master = m → (s.part q).debug ≠ 2 → Answers (.cmdDstop m core) s m 5 (fun t => t.cores = s.cores) ∧
        Answers (.cmdDresume m core) s m 5 (fun t => t.cores = s.cores)) ∧
      ((s.part q).master = m → (s.part q).debug = 2 → Answers (.cmdDstop m core) s m 0 (fun t => (t.core core).stopped = true ∧ (t.core core).st = (s.core core).st) ∧
        ((s.core core).debugWrites = [] → Answers (.cmdDresume m core) s m 0 (fun t => (t.core core).stopped = false ∧ (t.core core).st = (s.core core).st)) ∧
        Answers (.cmdDresume m core) s m 0 (fun t => t.cores = (resumeStopped s core).cores))) ∧
    (∀ (slot l r i : Nat) (w : Warp) (b : Byte), s.warp? core slot = some w → l < 32 → r < 128 → r < w.nreg → i < 4 →
      ∃ w', (applyWarpWrites s core slot [(512 * l + 4 * r + i, b)] []).warp? core slot = some w' ∧ (∀ k, k ≠ l → w'.lane k = w.lane k) ∧
        ∀ q, q < w.nreg → (w'.lane l).physReg w.nreg q = if q = r then setByte ((w.lane l).physReg w.nreg r) i b else (w.lane l).physReg w.nreg q) ∧
    (∀ (n : Nat) (x : Lane) (b : List Byte),
      let y := laneOfImage n x b
      let field := fun (o k : Nat) => ofBytesLE ((b.drop o).take k)
      y.pc = BitVec.ofNat 64 (field 8 8 % 2 ^ 57 / 4 * 4) ∧ y.lk = rpc (BitVec.ofNat 64 (field 24 8)) ∧ y.pw = BitVec.ofNat 16 (field 4 2 / 2 * 2 + 1) ∧
      y.regs = x.regs ∧ y.frames = x.frames ∧ y.guest = x.guest) ∧
    ∀ (launch n i : Nat) (c : Ctx) (b : Byte), (s.core core).st.ctx? launch = some c → n < 16 → i < 64 →
      ∃ c', ((applyCtxWrites s core launch [(64 * n + i, b)]).core core).st.ctx? launch = some c' ∧
        mget c'.sh n 0 = BitVec.ofNat 512 (setBits (mget c.sh n 0).toNat (8 * i) 8 b.toNat) ∧ ∀ k, k ≠ n → mget c'.sh k 0 = mget c.sh k 0
  )

/-- R332, Table 16-9: PSET writes a field of a partition within its limits, and leaves it with status 4 beyond them. Where the spec is open or read by
inference this rests on assumption log 76. -/
def Obligations.PartitionCommands : Prop :=
  ∀ (s : State) (m p v : Nat), s.owner = m → p < 16 →
    let takes := fun (field : Nat) (f : Part → Part) => Answers (.cmdPset m p field v) s m 0 (fun t => t.part p = f (s.part p) ∧ ∀ q, q ≠ p → t.part q = s.part q)
    let refuses := fun (field : Nat) => Answers (.cmdPset m p field v) s m 4 (fun t => t.parts = s.parts ∧ t.cores = s.cores)
    let unique := ∀ q, q < 16 → q ≠ p → (s.part q).state = 1 → (s.part q).asid ≠ v
    (v = 1 → (s.part p).state = 0 → (∀ q, q < 16 → q ≠ p → (s.part q).state = 1 → (s.part q).asid ≠ (s.part p).asid) →
      takes 0 (fun x => { x with state := 1 })) ∧
    (v = 1 → (s.part p).state = 2 → refuses 0) ∧ (1 < v → refuses 0) ∧
    (v = 0 → (s.part p).dumpReq ≠ none → refuses 0) ∧
    (v = 0 → (s.part p).dumpReq = none → Answers (.cmdPset m p 0 v) s m 0 (fun t => (t.part p).state = 0 ∧ (t.part p).binds = [] ∧ (t.part p).master = 7 ∧
      (∀ x ∈ t.launches, x.2.part ≠ p) ∧ ∀ c ∈ memberCores s p, (t.core c).power ≠ .active ∧ (t.core c).st.warps = [])) ∧
    (2 ^ 256 ≤ v → refuses 1) ∧ ((∃ q, q < 16 ∧ q ≠ p ∧ (s.part q).cores &&& v ≠ 0) → refuses 1) ∧
    (v ≤ 4 ∨ v = 7 → takes 2 (fun x => { x with master := v })) ∧ (v = 5 ∨ v = 6 ∨ 7 < v → refuses 2) ∧
    (v < 2 ^ 16 → (s.part p).state ≠ 1 ∨ unique → takes 3 (fun x => { x with asid := v })) ∧
    ((s.part p).state = 1 → ¬ unique → refuses 3) ∧
    (v < 2 ^ 52 → v % 4096 = 0 → paTarget v = .hbm → takes 4 (fun x => { x with root := v })) ∧ (v % 4096 ≠ 0 → refuses 4) ∧
    (v < 2 ^ 64 → takes 5 (fun x => { x with pgmbx := BitVec.ofNat 64 v })) ∧
    (v ≤ 62 * motifsOf (s.part p).cores → v + (otherParts s p).foldl (fun a x => a + x.budget) 0 ≤ 1984 → takes 6 (fun x => { x with budget := v })) ∧
    (62 * motifsOf (s.part p).cores < v → refuses 6) ∧
    (v < 2 ^ 16 → (∀ q, q < 16 → q ≠ p → (s.part q).chgrant &&& v = 0) → takes 7 (fun x => { x with chgrant := v })) ∧
    (v < 256 → takes 8 (fun x => { x with peerpost := v }) ∧ takes 9 (fun x => { x with peerwin := v })) ∧
    (v % 65536 = 0 → v + (s.part p).dumpsize ≤ 2 ^ 39 → takes 10 (fun x => { x with dumpbase := v })) ∧
    (v % 65536 = 0 → (s.part p).dumpbase + v ≤ 2 ^ 39 → takes 11 (fun x => { x with dumpsize := v })) ∧
    (∀ field, 11 < field → refuses field) ∧
    ∀ field w, s.owner ≠ 7 → ∀ k, k ≠ s.owner → Answers (.cmdPset k p field w) s k 1 (fun t => t.parts = s.parts)

/-- R334 to R336, R338, R372: the module's life from MANUFACTURE over SECURED and TENANT to RETIRED, each step with its credential; CHALLENGE issues a
nonce, ATTEST signs a report with the next leaf, until none is left. R335, R338, Table 16-12: who reads a partition's traces and dumps, by the
module's security state; ERASE leaves a dump region of zeros. Where the spec is open or read by inference this rests on assumption log 9, 70, 78 and
88. -/
def Obligations.SecurityWorks : Prop :=
  (
  ∀ (s : State) (m p : Nat) (handle : BitVec 32) (nonce : List Byte), (∀ q, (s.part q).debug = 0) →
    (s.owner = m →
      (16 ≤ p ∨ handle = 0 → Answers (.cmdTbind m p handle) s m 4 (fun t => t.parts = s.parts ∧ t.security = s.security)) ∧
      (p < 16 → handle ≠ 0 → s.security = .manufacture ∨ s.security = .retired → Answers (.cmdTbind m p handle) s m 5 (fun t => t.parts = s.parts)) ∧
      (p < 16 → handle ≠ 0 → s.security = .secured ∨ s.security = .tenant → (s.part p).tenant ≠ 0 →
        Answers (.cmdTbind m p handle) s m 6 (fun t => t.parts = s.parts)) ∧
      (p < 16 → handle ≠ 0 → s.security = .secured ∨ s.security = .tenant → (s.part p).tenant = 0 → (carriedKek s m 56).length = 32 →
        Answers (.cmdTbind m p handle) s m 0 (fun t => t.security = .tenant ∧ (t.part p).tenant = handle ∧ (t.part p).tenantKek = carriedKek s m 56)) ∧
      ((s.part p).tenant = 0 → Answers (.cmdTunbind m p) s m 4 (fun t => t.parts = s.parts)) ∧
      (s.security ≠ .manufacture → Answers (.cmdProvision m) s m 5 (fun t => t.security = s.security)) ∧
      (s.security = .manufacture → (fromBuf s m 0 1696).take 32 = devId → (carriedKek s m 88).length = 32 →
        sigOk s m 1696 Config.fusedKey (fromBuf s m 0 1696) = true →
        Answers (.cmdProvision m) s m 0 (fun t => t.security = .secured ∧ t.ownerKey = ((fromBuf s m 0 1696).drop 32).take 56 ∧ t.ownerKek = carriedKek s m 88)) ∧
      (sigOk s m 36 Config.fusedKey (fromBuf s m 0 36) = false → Answers (.cmdRetire m) s m 7 (fun t => t.security = s.security)) ∧
      ((fromBuf s m 0 36).take 32 = devId → ofBytesLE ((fromBuf s m 0 36).drop 32) = s.boot →
        sigOk s m 36 Config.fusedKey (fromBuf s m 0 36) = true → Answers (.cmdRetire m) s m 0 (fun t => t.security = .retired ∧
          ∀ q, q < 16 → (s.part q).tenant ≠ 0 → (t.part q).tenantKey = [] ∧ (t.part q).tenantKek = []))) ∧
    (s.owner = m → p < 16 → (s.part p).tenant ≠ 0 → (s.part p).dumpReq = none → Answers (.cmdTunbind m p) s m 0 (fun t => (t.part p).tenant = 0 ∧
      (t.part p).tenantKey = [] ∧ (t.part p).dumpused = 0 ∧ (∀ c ∈ memberCores s p, (t.core c).st.trace = []) ∧
      (s.security = .tenant → (∀ q, q < 16 → q ≠ p → (s.part q).tenant = 0) → t.security = .secured) ∧
      (s.security ≠ .tenant ∨ (∃ q, q < 16 ∧ q ≠ p ∧ (s.part q).tenant ≠ 0) → t.security = s.security))) ∧
    (s.security = .retired → Answers (.cmdChallenge m) s m 5 (fun t => t.masters = (s.modMaster m (fun x => { x with ownstat := 5 })).masters) ∧
      Answers (.cmdAttest m nonce) s m 5 (fun t => t.leaf = s.leaf)) ∧
    (s.security ≠ .retired → Answers (.cmdChallenge m) s m 0 (fun t => ∃ n, n.length = 32 ∧ (t.master m).nonce = some n ∧ ((t.master m).owncmd.drop 8).take 32 = n) ∧
      (leavesDone s = true → Answers (.cmdAttest m nonce) s m 9 (fun t => t.leaf = s.leaf)) ∧
      (leavesDone s = false → Answers (.cmdAttest m nonce) s m 0 (fun t => t.leaf = s.leaf + 1 ∧
        ∀ i b, (attestReport s nonce)[i]? = some b → mget (t.master m).ownbuf i 0 = b)))
  ) ∧ (
  ∀ (s : State) (m p core off : Nat),
    (s.owner = m → p < 16 → s.security = .manufacture → Answers (.cmdErase m p) s m 5 (fun t => t.parts = s.parts ∧ t.hbm = s.hbm)) ∧
    (s.owner = m → p < 16 → s.security ≠ .manufacture → Answers (.cmdErase m p) s m 0 (fun t => (t.part p).dumpused = 0 ∧
      ∀ a, (t.part p).dumpbase ≤ a → a < (t.part p).dumpbase + (t.part p).dumpsize → homeByte t a = 0)) ∧
    (256 ≤ core → Answers (.cmdTraceread m core) s m 4 (fun t => t.parts = s.parts)) ∧
    (core < 256 → s.partOfCore core = some p → s.security = .retired → Answers (.cmdTraceread m core) s m 5 (fun t => t.parts = s.parts)) ∧
    (core < 256 → s.partOfCore core = some p → s.security = .manufacture → s.owner ≠ m → Answers (.cmdTraceread m core) s m 1 (fun t => t.parts = s.parts)) ∧
    (core < 256 → s.partOfCore core = some p → s.security = .manufacture → s.owner = m → (s.part p).debug = 0 → (s.part p).state = 1 →
      Answers (.cmdTraceread m core) s m 5 (fun t => t.parts = s.parts)) ∧
    (core < 256 → s.partOfCore core = some p → readRight s m p (cmdBlock 11 core 0 0) = (0, s) → (s.part p).debug ≠ 0 ∨ (s.part p).state ≠ 1 →
      Answers (.cmdTraceread m core) s m 0 (fun t => ∀ i b, (traceImage (s.core core).st)[i]? = some b → mget (t.master m).ownbuf i 0 = b)) ∧
    ((s.part p).dumpsize < off + 16384 → Answers (.cmdDumpread m p off) s m 4 (fun t => t.parts = s.parts)) ∧
    (p < 16 → off + 16384 ≤ (s.part p).dumpsize → readRight s m p (cmdBlock 12 p 0 off) = (0, s) → Answers (.cmdDumpread m p off) s m 0 (fun t =>
      ∀ i, i < 16384 → mget (t.master m).ownbuf i 0 = homeByte s ((s.part p).dumpbase + off + i))) ∧
    (s.security = .manufacture → readRight s s.owner p (cmdBlock 12 p 0 off) = (0, s)) ∧
    (s.security = .secured → (s.part p).debug ≠ 0 → readRight s s.owner p (cmdBlock 12 p 0 off) = (0, s)) ∧
    (s.security = .secured → (s.part p).debug = 0 → (s.master s.owner).nonce = none → readRight s s.owner p (cmdBlock 12 p 0 off) = (8, s)) ∧
    (s.security = .tenant → (s.part p).tenant ≠ 0 → (s.master m).nonce = none → readRight s m p (cmdBlock 12 p 0 off) = (8, s))
  )
end

