-- ==== Sys2Proof/Laws/Map.lean ====
section
/-! SUPPORT. Laws of the finite maps by ascending key and of memory bytes. -/

namespace Sys2Proof.Machine

/-! ## Maps -/

theorem mfind_mset {α : Type} (m : PMap α) (i j : Nat) (v : α) :
    mfind (mset m i v) j = if j = i then some v else mfind m j := by
  induction m with
  | nil => by_cases h : j = i <;> simp [mset, mfind, h]
  | cons x m ih =>
    obtain ⟨k, w⟩ := x
    by_cases hik : i = k
    · subst hik
      by_cases h : j = i <;> simp [mset, mfind, h]
    · by_cases hlt : i < k
      · by_cases h : j = i <;> simp [mset, mfind, hik, hlt, h]
      · simp only [mset, mfind, hik, hlt, if_false, ih]
        by_cases h : j = i
        · subst h
          simp [hik]
        · simp [h]

theorem mfind_mdel {α : Type} (m : PMap α) (i j : Nat) : mfind (mdel m i) j = if j = i then none else mfind m j := by
  induction m with
  | nil => simp [mdel, mfind]
  | cons x m ih =>
    obtain ⟨k, w⟩ := x
    by_cases hk : k = i
    · subst hk
      have : mdel ((k, w) :: m) k = mdel m k := by simp [mdel]
      rw [this, ih]
      by_cases h : j = k <;> simp [mfind, h]
    · have : mdel ((k, w) :: m) i = (k, w) :: mdel m i := by simp [mdel, hk]
      rw [this]
      simp only [mfind, ih]
      by_cases h : j = k
      · subst h; simp [hk]
      · simp [h]

@[simp] theorem mfind_mset_self {α : Type} (m : PMap α) (i : Nat) (v : α) : mfind (mset m i v) i = some v := by
  simp [mfind_mset]

theorem mget_mset {α : Type} (m : PMap α) (i j : Nat) (v d : α) :
    mget (mset m i v) j d = if j = i then v else mget m j d := by
  by_cases h : j = i <;> simp [mget, mfind_mset, h]

@[simp] theorem mget_mset_self {α : Type} (m : PMap α) (i : Nat) (v d : α) : mget (mset m i v) i d = v := by
  simp [mget_mset]

theorem mget_mset_of_ne {α : Type} (m : PMap α) {i j : Nat} (v d : α) (h : j ≠ i) : mget (mset m i v) j d = mget m j d := by
  simp [mget_mset, h]

theorem mfind_mmod {α : Type} (m : PMap α) (i j : Nat) (f : α → α) :
    mfind (mmod m i f) j = if j = i then (mfind m j).map f else mfind m j := by
  unfold mmod
  cases h : mfind m i with
  | none => by_cases hj : j = i <;> simp [hj, h]
  | some v => by_cases hj : j = i <;> simp [mfind_mset, hj, h]

/-! ## Memory -/

/-- A memory above an address reads zero there and below. -/
theorem memRead_below {m : Memory} {a b : Nat} (h : memWfFrom (some a) m = true) (hb : b ≤ a) : memRead m b = 0 := by
  cases m with
  | nil => rfl
  | cons y m =>
    simp only [memWfFrom, Bool.and_eq_true, decide_eq_true_eq] at h
    have hy : b < y.1 := by omega
    simp [memRead, Nat.ne_of_lt hy, hy]

/-- A bound may be lowered. -/
theorem memWfFrom_lower {m : Memory} {lo : Option Nat} {hi : Nat} (h : memWfFrom (some hi) m = true)
    (hlo : ∀ l, lo = some l → l < hi) : memWfFrom lo m = true := by
  cases m with
  | nil => simp [memWfFrom]
  | cons y m =>
    simp only [memWfFrom, Bool.and_eq_true, decide_eq_true_eq] at h ⊢
    refine ⟨⟨?_, h.1.2⟩, h.2⟩
    cases lo with
    | none => rfl
    | some l => exact decide_eq_true (by have := hlo l rfl; omega)

theorem memRead_memWrite (m : Memory) (a b : Nat) (v : Byte) (h : m.wf = true) :
    memRead (memWrite m a v) b = if b = a then v else memRead m b := by
  have key : ∀ (lo : Option Nat) (m : Memory), memWfFrom lo m = true → (∀ l, lo = some l → l < a) →
      memRead (memWrite m a v) b = if b = a then v else memRead m b := by
    intro lo m
    induction m generalizing lo with
    | nil => intro _ _; by_cases hv : v = 0#8 <;> by_cases hb : b = a <;> simp [memWrite, memRead, hv, hb]
    | cons x m ih =>
      obtain ⟨k, c⟩ := x
      intro hw hl
      simp only [memWfFrom, Bool.and_eq_true] at hw
      by_cases hak : a = k
      · subst hak
        by_cases hv : v = 0#8
        · by_cases hb : b = a
          · subst hb
            simp [memWrite, hv, memRead_below hw.2 (Nat.le_refl b)]
          · by_cases hlt : b < a
            · simp [memWrite, memRead, hv, hb, hlt, memRead_below hw.2 (Nat.le_of_lt hlt)]
            · simp [memWrite, memRead, hv, hb, hlt]
        · by_cases hb : b = a <;> simp [memWrite, memRead, hv, hb]
      · by_cases hlt : a < k
        · by_cases hv : v = 0#8
          · by_cases hb : b = a
            · subst hb; simp [memWrite, memRead, hak, hlt, hv]
            · simp [memWrite, hak, hlt, hv, hb]
          · by_cases hb : b = a
            · simp [memWrite, memRead, hak, hlt, hv, hb]
            · simp only [memWrite, memRead, hak, hlt, show ¬ v = 0 from hv, hb, if_true, if_false]
              split
              next hba => rw [if_neg (show b ≠ k by omega), if_pos (show b < k by omega)]
              next => rfl
        · have hka : k < a := by omega
          have := ih (some k) hw.2 (by intro l hl'; cases hl'; exact hka)
          simp only [memWrite, memRead, hak, hlt, if_false, this]
          by_cases hb : b = a
          · subst hb; simp [hak, hlt]
          · simp [hb]
  exact key none m h (by intro l hl; cases hl)

/-- A write keeps the canonical form above any bound that lies below the address. -/
theorem memWfFrom_memWrite (lo : Option Nat) (m : Memory) (a : Nat) (v : Byte) (h : memWfFrom lo m = true)
    (hl : ∀ l, lo = some l → l < a) : memWfFrom lo (memWrite m a v) = true := by
  induction m generalizing lo with
  | nil =>
    by_cases hv : v = 0#8
    · simp [memWrite, memWfFrom, hv]
    · cases lo with
      | none => simp [memWrite, memWfFrom, hv]
      | some l => simp [memWrite, memWfFrom, hv, hl l rfl]
  | cons x m ih =>
    obtain ⟨k, c⟩ := x
    have h0 := h
    simp only [memWfFrom, Bool.and_eq_true] at h
    by_cases hak : a = k
    · subst hak
      by_cases hv : v = 0#8
      · simpa [memWrite, hv] using memWfFrom_lower h.2 hl
      · simp only [memWrite, show ¬ v = 0 from hv, if_true, if_false, memWfFrom, Bool.and_eq_true]
        exact ⟨⟨h.1.1, by simpa using hv⟩, h.2⟩
    · by_cases hlt : a < k
      · by_cases hv : v = 0#8
        · simpa [memWrite, hak, hlt, hv] using h0
        · simp only [memWrite, hak, hlt, show ¬ v = 0 from hv, if_true, if_false, memWfFrom, Bool.and_eq_true]
          refine ⟨⟨?_, by simpa using hv⟩, ⟨by simpa using hlt, h.1.2⟩, h.2⟩
          cases lo with
          | none => rfl
          | some l => exact decide_eq_true (hl l rfl)
      · have hka : k < a := by omega
        simp only [memWrite, hak, hlt, if_false, memWfFrom, Bool.and_eq_true]
        exact ⟨h.1, ih (some k) h.2 (by intro l hl'; cases hl'; exact hka)⟩

theorem memWrite_wf (m : Memory) (a : Nat) (v : Byte) (h : m.wf = true) : (memWrite m a v).wf = true :=
  memWfFrom_memWrite none m a v h (by intro l hl; cases hl)

theorem memWrites_wf (m : Memory) (a : Nat) (bs : List Byte) (h : m.wf = true) : (memWrites m a bs).wf = true := by
  induction bs generalizing m a with
  | nil => exact h
  | cons b bs ih => exact ih _ _ (memWrite_wf m a b h)

/-- A filter keeps the canonical form. -/
theorem memWfFrom_filter (p : Host.Cell → Bool) (lo : Option Nat) (m : Memory) (h : memWfFrom lo m = true) :
    memWfFrom lo (m.filter p) = true := by
  induction m generalizing lo with
  | nil => simp [memWfFrom]
  | cons x m ih =>
    obtain ⟨k, c⟩ := x
    simp only [memWfFrom, Bool.and_eq_true] at h
    by_cases hp : p (k, c) = true
    · rw [List.filter_cons_of_pos hp]
      simp only [memWfFrom, Bool.and_eq_true]
      exact ⟨h.1, ih (some k) h.2⟩
    · rw [List.filter_cons_of_neg hp]
      refine memWfFrom_lower (ih (some k) h.2) ?_
      intro l hl
      subst hl
      simpa using h.1.1

theorem memory_filter_wf (p : Host.Cell → Bool) (m : Memory) (h : m.wf = true) :
    Memory.wf (m.filter p) = true := memWfFrom_filter p none m h

end Sys2Proof.Machine
end

