-- ==== Sys2Proof/Laws/State.lean ====
section
/-! SUPPORT. What each update of State leaves alone: one lemma for each field that it does not touch, and what the parts
read afterwards. -/

namespace Sys2Proof.Machine

variable (s : State)

/-! ### setCore -/

@[simp] theorem State.setCore_turns (c : Nat) (x : Core) : (s.setCore c x).turns = s.turns := rfl
@[simp] theorem State.setCore_cur (c : Nat) (x : Core) : (s.setCore c x).cur = s.cur := rfl
@[simp] theorem State.setCore_free (c : Nat) (x : Core) : (s.setCore c x).free = s.free := rfl
@[simp] theorem State.setCore_fresh (c : Nat) (x : Core) : (s.setCore c x).fresh = s.fresh := rfl
@[simp] theorem State.setCore_time (c : Nat) (x : Core) : (s.setCore c x).time = s.time := rfl
@[simp] theorem State.setCore_powered (c : Nat) (x : Core) : (s.setCore c x).powered = s.powered := rfl
@[simp] theorem State.setCore_hbm (c : Nat) (x : Core) : (s.setCore c x).hbm = s.hbm := rfl
@[simp] theorem State.setCore_tags (c : Nat) (x : Core) : (s.setCore c x).tags = s.tags := rfl
@[simp] theorem State.setCore_l2 (c : Nat) (x : Core) : (s.setCore c x).l2 = s.l2 := rfl
@[simp] theorem State.setCore_l2comp (c : Nat) (x : Core) : (s.setCore c x).l2comp = s.l2comp := rfl
@[simp] theorem State.setCore_l2shadow (c : Nat) (x : Core) : (s.setCore c x).l2shadow = s.l2shadow := rfl
@[simp] theorem State.setCore_unmirrored (c : Nat) (x : Core) : (s.setCore c x).unmirrored = s.unmirrored := rfl
@[simp] theorem State.setCore_shadowTag (c : Nat) (x : Core) : (s.setCore c x).shadowTag = s.shadowTag := rfl
@[simp] theorem State.setCore_held (c : Nat) (x : Core) : (s.setCore c x).held = s.held := rfl
@[simp] theorem State.setCore_refresh (c : Nat) (x : Core) : (s.setCore c x).refresh = s.refresh := rfl
@[simp] theorem State.setCore_motifs (c : Nat) (x : Core) : (s.setCore c x).motifs = s.motifs := rfl
@[simp] theorem State.setCore_parts (c : Nat) (x : Core) : (s.setCore c x).parts = s.parts := rfl
@[simp] theorem State.setCore_launches (c : Nat) (x : Core) : (s.setCore c x).launches = s.launches := rfl
@[simp] theorem State.setCore_saved (c : Nat) (x : Core) : (s.setCore c x).saved = s.saved := rfl
@[simp] theorem State.setCore_engines (c : Nat) (x : Core) : (s.setCore c x).engines = s.engines := rfl
@[simp] theorem State.setCore_channels (c : Nat) (x : Core) : (s.setCore c x).channels = s.channels := rfl
@[simp] theorem State.setCore_postsDue (c : Nat) (x : Core) : (s.setCore c x).postsDue = s.postsDue := rfl
@[simp] theorem State.setCore_transit (c : Nat) (x : Core) : (s.setCore c x).transit = s.transit := rfl
@[simp] theorem State.setCore_debits (c : Nat) (x : Core) : (s.setCore c x).debits = s.debits := rfl
@[simp] theorem State.setCore_reports (c : Nat) (x : Core) : (s.setCore c x).reports = s.reports := rfl
@[simp] theorem State.setCore_ecost (c : Nat) (x : Core) : (s.setCore c x).ecost = s.ecost := rfl
@[simp] theorem State.setCore_owner (c : Nat) (x : Core) : (s.setCore c x).owner = s.owner := rfl
@[simp] theorem State.setCore_masters (c : Nat) (x : Core) : (s.setCore c x).masters = s.masters := rfl
@[simp] theorem State.setCore_peers (c : Nat) (x : Core) : (s.setCore c x).peers = s.peers := rfl
@[simp] theorem State.setCore_security (c : Nat) (x : Core) : (s.setCore c x).security = s.security := rfl
@[simp] theorem State.setCore_boot (c : Nat) (x : Core) : (s.setCore c x).boot = s.boot := rfl
@[simp] theorem State.setCore_leaf (c : Nat) (x : Core) : (s.setCore c x).leaf = s.leaf := rfl
@[simp] theorem State.setCore_ownerKey (c : Nat) (x : Core) : (s.setCore c x).ownerKey = s.ownerKey := rfl
@[simp] theorem State.setCore_ownerKek (c : Nat) (x : Core) : (s.setCore c x).ownerKek = s.ownerKek := rfl
@[simp] theorem State.setCore_meas (c : Nat) (x : Core) : (s.setCore c x).meas = s.meas := rfl
@[simp] theorem State.setCore_flash (c : Nat) (x : Core) : (s.setCore c x).flash = s.flash := rfl
@[simp] theorem State.setCore_fuse (c : Nat) (x : Core) : (s.setCore c x).fuse = s.fuse := rfl
@[simp] theorem State.setCore_released (c : Nat) (x : Core) : (s.setCore c x).released = s.released := rfl
@[simp] theorem State.setCore_recovery (c : Nat) (x : Core) : (s.setCore c x).recovery = s.recovery := rfl
@[simp] theorem State.setCore_secver (c : Nat) (x : Core) : (s.setCore c x).secver = s.secver := rfl
@[simp] theorem State.setCore_cfgRecords (c : Nat) (x : Core) : (s.setCore c x).cfgRecords = s.cfgRecords := rfl
@[simp] theorem State.setCore_serial (c : Nat) (x : Core) : (s.setCore c x).serial = s.serial := rfl
@[simp] theorem State.setCore_tracek (c : Nat) (x : Core) : (s.setCore c x).tracek = s.tracek := rfl
@[simp] theorem State.setCore_linkcfg (c : Nat) (x : Core) : (s.setCore c x).linkcfg = s.linkcfg := rfl
@[simp] theorem State.setCore_summaries (c : Nat) (x : Core) : (s.setCore c x).summaries = s.summaries := rfl

/-! ### modCore -/

@[simp] theorem State.modCore_turns (c : Nat) (f : Core → Core) : (s.modCore c f).turns = s.turns := rfl
@[simp] theorem State.modCore_cur (c : Nat) (f : Core → Core) : (s.modCore c f).cur = s.cur := rfl
@[simp] theorem State.modCore_free (c : Nat) (f : Core → Core) : (s.modCore c f).free = s.free := rfl
@[simp] theorem State.modCore_fresh (c : Nat) (f : Core → Core) : (s.modCore c f).fresh = s.fresh := rfl
@[simp] theorem State.modCore_time (c : Nat) (f : Core → Core) : (s.modCore c f).time = s.time := rfl
@[simp] theorem State.modCore_powered (c : Nat) (f : Core → Core) : (s.modCore c f).powered = s.powered := rfl
@[simp] theorem State.modCore_hbm (c : Nat) (f : Core → Core) : (s.modCore c f).hbm = s.hbm := rfl
@[simp] theorem State.modCore_tags (c : Nat) (f : Core → Core) : (s.modCore c f).tags = s.tags := rfl
@[simp] theorem State.modCore_l2 (c : Nat) (f : Core → Core) : (s.modCore c f).l2 = s.l2 := rfl
@[simp] theorem State.modCore_l2comp (c : Nat) (f : Core → Core) : (s.modCore c f).l2comp = s.l2comp := rfl
@[simp] theorem State.modCore_l2shadow (c : Nat) (f : Core → Core) : (s.modCore c f).l2shadow = s.l2shadow := rfl
@[simp] theorem State.modCore_unmirrored (c : Nat) (f : Core → Core) : (s.modCore c f).unmirrored = s.unmirrored := rfl
@[simp] theorem State.modCore_shadowTag (c : Nat) (f : Core → Core) : (s.modCore c f).shadowTag = s.shadowTag := rfl
@[simp] theorem State.modCore_held (c : Nat) (f : Core → Core) : (s.modCore c f).held = s.held := rfl
@[simp] theorem State.modCore_refresh (c : Nat) (f : Core → Core) : (s.modCore c f).refresh = s.refresh := rfl
@[simp] theorem State.modCore_motifs (c : Nat) (f : Core → Core) : (s.modCore c f).motifs = s.motifs := rfl
@[simp] theorem State.modCore_parts (c : Nat) (f : Core → Core) : (s.modCore c f).parts = s.parts := rfl
@[simp] theorem State.modCore_launches (c : Nat) (f : Core → Core) : (s.modCore c f).launches = s.launches := rfl
@[simp] theorem State.modCore_saved (c : Nat) (f : Core → Core) : (s.modCore c f).saved = s.saved := rfl
@[simp] theorem State.modCore_engines (c : Nat) (f : Core → Core) : (s.modCore c f).engines = s.engines := rfl
@[simp] theorem State.modCore_channels (c : Nat) (f : Core → Core) : (s.modCore c f).channels = s.channels := rfl
@[simp] theorem State.modCore_postsDue (c : Nat) (f : Core → Core) : (s.modCore c f).postsDue = s.postsDue := rfl
@[simp] theorem State.modCore_transit (c : Nat) (f : Core → Core) : (s.modCore c f).transit = s.transit := rfl
@[simp] theorem State.modCore_debits (c : Nat) (f : Core → Core) : (s.modCore c f).debits = s.debits := rfl
@[simp] theorem State.modCore_reports (c : Nat) (f : Core → Core) : (s.modCore c f).reports = s.reports := rfl
@[simp] theorem State.modCore_ecost (c : Nat) (f : Core → Core) : (s.modCore c f).ecost = s.ecost := rfl
@[simp] theorem State.modCore_owner (c : Nat) (f : Core → Core) : (s.modCore c f).owner = s.owner := rfl
@[simp] theorem State.modCore_masters (c : Nat) (f : Core → Core) : (s.modCore c f).masters = s.masters := rfl
@[simp] theorem State.modCore_peers (c : Nat) (f : Core → Core) : (s.modCore c f).peers = s.peers := rfl
@[simp] theorem State.modCore_security (c : Nat) (f : Core → Core) : (s.modCore c f).security = s.security := rfl
@[simp] theorem State.modCore_boot (c : Nat) (f : Core → Core) : (s.modCore c f).boot = s.boot := rfl
@[simp] theorem State.modCore_leaf (c : Nat) (f : Core → Core) : (s.modCore c f).leaf = s.leaf := rfl
@[simp] theorem State.modCore_ownerKey (c : Nat) (f : Core → Core) : (s.modCore c f).ownerKey = s.ownerKey := rfl
@[simp] theorem State.modCore_ownerKek (c : Nat) (f : Core → Core) : (s.modCore c f).ownerKek = s.ownerKek := rfl
@[simp] theorem State.modCore_meas (c : Nat) (f : Core → Core) : (s.modCore c f).meas = s.meas := rfl
@[simp] theorem State.modCore_flash (c : Nat) (f : Core → Core) : (s.modCore c f).flash = s.flash := rfl
@[simp] theorem State.modCore_fuse (c : Nat) (f : Core → Core) : (s.modCore c f).fuse = s.fuse := rfl
@[simp] theorem State.modCore_released (c : Nat) (f : Core → Core) : (s.modCore c f).released = s.released := rfl
@[simp] theorem State.modCore_recovery (c : Nat) (f : Core → Core) : (s.modCore c f).recovery = s.recovery := rfl
@[simp] theorem State.modCore_secver (c : Nat) (f : Core → Core) : (s.modCore c f).secver = s.secver := rfl
@[simp] theorem State.modCore_cfgRecords (c : Nat) (f : Core → Core) : (s.modCore c f).cfgRecords = s.cfgRecords := rfl
@[simp] theorem State.modCore_serial (c : Nat) (f : Core → Core) : (s.modCore c f).serial = s.serial := rfl
@[simp] theorem State.modCore_tracek (c : Nat) (f : Core → Core) : (s.modCore c f).tracek = s.tracek := rfl
@[simp] theorem State.modCore_linkcfg (c : Nat) (f : Core → Core) : (s.modCore c f).linkcfg = s.linkcfg := rfl
@[simp] theorem State.modCore_summaries (c : Nat) (f : Core → Core) : (s.modCore c f).summaries = s.summaries := rfl

/-! ### modSt -/

@[simp] theorem State.modSt_turns (c : Nat) (f : CoreSt → CoreSt) : (s.modSt c f).turns = s.turns := rfl
@[simp] theorem State.modSt_cur (c : Nat) (f : CoreSt → CoreSt) : (s.modSt c f).cur = s.cur := rfl
@[simp] theorem State.modSt_free (c : Nat) (f : CoreSt → CoreSt) : (s.modSt c f).free = s.free := rfl
@[simp] theorem State.modSt_fresh (c : Nat) (f : CoreSt → CoreSt) : (s.modSt c f).fresh = s.fresh := rfl
@[simp] theorem State.modSt_time (c : Nat) (f : CoreSt → CoreSt) : (s.modSt c f).time = s.time := rfl
@[simp] theorem State.modSt_powered (c : Nat) (f : CoreSt → CoreSt) : (s.modSt c f).powered = s.powered := rfl
@[simp] theorem State.modSt_hbm (c : Nat) (f : CoreSt → CoreSt) : (s.modSt c f).hbm = s.hbm := rfl
@[simp] theorem State.modSt_tags (c : Nat) (f : CoreSt → CoreSt) : (s.modSt c f).tags = s.tags := rfl
@[simp] theorem State.modSt_l2 (c : Nat) (f : CoreSt → CoreSt) : (s.modSt c f).l2 = s.l2 := rfl
@[simp] theorem State.modSt_l2comp (c : Nat) (f : CoreSt → CoreSt) : (s.modSt c f).l2comp = s.l2comp := rfl
@[simp] theorem State.modSt_l2shadow (c : Nat) (f : CoreSt → CoreSt) : (s.modSt c f).l2shadow = s.l2shadow := rfl
@[simp] theorem State.modSt_unmirrored (c : Nat) (f : CoreSt → CoreSt) : (s.modSt c f).unmirrored = s.unmirrored := rfl
@[simp] theorem State.modSt_shadowTag (c : Nat) (f : CoreSt → CoreSt) : (s.modSt c f).shadowTag = s.shadowTag := rfl
@[simp] theorem State.modSt_held (c : Nat) (f : CoreSt → CoreSt) : (s.modSt c f).held = s.held := rfl
@[simp] theorem State.modSt_refresh (c : Nat) (f : CoreSt → CoreSt) : (s.modSt c f).refresh = s.refresh := rfl
@[simp] theorem State.modSt_motifs (c : Nat) (f : CoreSt → CoreSt) : (s.modSt c f).motifs = s.motifs := rfl
@[simp] theorem State.modSt_parts (c : Nat) (f : CoreSt → CoreSt) : (s.modSt c f).parts = s.parts := rfl
@[simp] theorem State.modSt_launches (c : Nat) (f : CoreSt → CoreSt) : (s.modSt c f).launches = s.launches := rfl
@[simp] theorem State.modSt_saved (c : Nat) (f : CoreSt → CoreSt) : (s.modSt c f).saved = s.saved := rfl
@[simp] theorem State.modSt_engines (c : Nat) (f : CoreSt → CoreSt) : (s.modSt c f).engines = s.engines := rfl
@[simp] theorem State.modSt_channels (c : Nat) (f : CoreSt → CoreSt) : (s.modSt c f).channels = s.channels := rfl
@[simp] theorem State.modSt_postsDue (c : Nat) (f : CoreSt → CoreSt) : (s.modSt c f).postsDue = s.postsDue := rfl
@[simp] theorem State.modSt_transit (c : Nat) (f : CoreSt → CoreSt) : (s.modSt c f).transit = s.transit := rfl
@[simp] theorem State.modSt_debits (c : Nat) (f : CoreSt → CoreSt) : (s.modSt c f).debits = s.debits := rfl
@[simp] theorem State.modSt_reports (c : Nat) (f : CoreSt → CoreSt) : (s.modSt c f).reports = s.reports := rfl
@[simp] theorem State.modSt_ecost (c : Nat) (f : CoreSt → CoreSt) : (s.modSt c f).ecost = s.ecost := rfl
@[simp] theorem State.modSt_owner (c : Nat) (f : CoreSt → CoreSt) : (s.modSt c f).owner = s.owner := rfl
@[simp] theorem State.modSt_masters (c : Nat) (f : CoreSt → CoreSt) : (s.modSt c f).masters = s.masters := rfl
@[simp] theorem State.modSt_peers (c : Nat) (f : CoreSt → CoreSt) : (s.modSt c f).peers = s.peers := rfl
@[simp] theorem State.modSt_security (c : Nat) (f : CoreSt → CoreSt) : (s.modSt c f).security = s.security := rfl
@[simp] theorem State.modSt_boot (c : Nat) (f : CoreSt → CoreSt) : (s.modSt c f).boot = s.boot := rfl
@[simp] theorem State.modSt_leaf (c : Nat) (f : CoreSt → CoreSt) : (s.modSt c f).leaf = s.leaf := rfl
@[simp] theorem State.modSt_ownerKey (c : Nat) (f : CoreSt → CoreSt) : (s.modSt c f).ownerKey = s.ownerKey := rfl
@[simp] theorem State.modSt_ownerKek (c : Nat) (f : CoreSt → CoreSt) : (s.modSt c f).ownerKek = s.ownerKek := rfl
@[simp] theorem State.modSt_meas (c : Nat) (f : CoreSt → CoreSt) : (s.modSt c f).meas = s.meas := rfl
@[simp] theorem State.modSt_flash (c : Nat) (f : CoreSt → CoreSt) : (s.modSt c f).flash = s.flash := rfl
@[simp] theorem State.modSt_fuse (c : Nat) (f : CoreSt → CoreSt) : (s.modSt c f).fuse = s.fuse := rfl
@[simp] theorem State.modSt_released (c : Nat) (f : CoreSt → CoreSt) : (s.modSt c f).released = s.released := rfl
@[simp] theorem State.modSt_recovery (c : Nat) (f : CoreSt → CoreSt) : (s.modSt c f).recovery = s.recovery := rfl
@[simp] theorem State.modSt_secver (c : Nat) (f : CoreSt → CoreSt) : (s.modSt c f).secver = s.secver := rfl
@[simp] theorem State.modSt_cfgRecords (c : Nat) (f : CoreSt → CoreSt) : (s.modSt c f).cfgRecords = s.cfgRecords := rfl
@[simp] theorem State.modSt_serial (c : Nat) (f : CoreSt → CoreSt) : (s.modSt c f).serial = s.serial := rfl
@[simp] theorem State.modSt_tracek (c : Nat) (f : CoreSt → CoreSt) : (s.modSt c f).tracek = s.tracek := rfl
@[simp] theorem State.modSt_linkcfg (c : Nat) (f : CoreSt → CoreSt) : (s.modSt c f).linkcfg = s.linkcfg := rfl
@[simp] theorem State.modSt_summaries (c : Nat) (f : CoreSt → CoreSt) : (s.modSt c f).summaries = s.summaries := rfl

/-! ### modWarp -/

@[simp] theorem State.modWarp_turns (c k : Nat) (f : Warp → Warp) : (s.modWarp c k f).turns = s.turns := rfl
@[simp] theorem State.modWarp_cur (c k : Nat) (f : Warp → Warp) : (s.modWarp c k f).cur = s.cur := rfl
@[simp] theorem State.modWarp_free (c k : Nat) (f : Warp → Warp) : (s.modWarp c k f).free = s.free := rfl
@[simp] theorem State.modWarp_fresh (c k : Nat) (f : Warp → Warp) : (s.modWarp c k f).fresh = s.fresh := rfl
@[simp] theorem State.modWarp_time (c k : Nat) (f : Warp → Warp) : (s.modWarp c k f).time = s.time := rfl
@[simp] theorem State.modWarp_powered (c k : Nat) (f : Warp → Warp) : (s.modWarp c k f).powered = s.powered := rfl
@[simp] theorem State.modWarp_hbm (c k : Nat) (f : Warp → Warp) : (s.modWarp c k f).hbm = s.hbm := rfl
@[simp] theorem State.modWarp_tags (c k : Nat) (f : Warp → Warp) : (s.modWarp c k f).tags = s.tags := rfl
@[simp] theorem State.modWarp_l2 (c k : Nat) (f : Warp → Warp) : (s.modWarp c k f).l2 = s.l2 := rfl
@[simp] theorem State.modWarp_l2comp (c k : Nat) (f : Warp → Warp) : (s.modWarp c k f).l2comp = s.l2comp := rfl
@[simp] theorem State.modWarp_l2shadow (c k : Nat) (f : Warp → Warp) : (s.modWarp c k f).l2shadow = s.l2shadow := rfl
@[simp] theorem State.modWarp_unmirrored (c k : Nat) (f : Warp → Warp) : (s.modWarp c k f).unmirrored = s.unmirrored := rfl
@[simp] theorem State.modWarp_shadowTag (c k : Nat) (f : Warp → Warp) : (s.modWarp c k f).shadowTag = s.shadowTag := rfl
@[simp] theorem State.modWarp_held (c k : Nat) (f : Warp → Warp) : (s.modWarp c k f).held = s.held := rfl
@[simp] theorem State.modWarp_refresh (c k : Nat) (f : Warp → Warp) : (s.modWarp c k f).refresh = s.refresh := rfl
@[simp] theorem State.modWarp_motifs (c k : Nat) (f : Warp → Warp) : (s.modWarp c k f).motifs = s.motifs := rfl
@[simp] theorem State.modWarp_parts (c k : Nat) (f : Warp → Warp) : (s.modWarp c k f).parts = s.parts := rfl
@[simp] theorem State.modWarp_launches (c k : Nat) (f : Warp → Warp) : (s.modWarp c k f).launches = s.launches := rfl
@[simp] theorem State.modWarp_saved (c k : Nat) (f : Warp → Warp) : (s.modWarp c k f).saved = s.saved := rfl
@[simp] theorem State.modWarp_engines (c k : Nat) (f : Warp → Warp) : (s.modWarp c k f).engines = s.engines := rfl
@[simp] theorem State.modWarp_channels (c k : Nat) (f : Warp → Warp) : (s.modWarp c k f).channels = s.channels := rfl
@[simp] theorem State.modWarp_postsDue (c k : Nat) (f : Warp → Warp) : (s.modWarp c k f).postsDue = s.postsDue := rfl
@[simp] theorem State.modWarp_transit (c k : Nat) (f : Warp → Warp) : (s.modWarp c k f).transit = s.transit := rfl
@[simp] theorem State.modWarp_debits (c k : Nat) (f : Warp → Warp) : (s.modWarp c k f).debits = s.debits := rfl
@[simp] theorem State.modWarp_reports (c k : Nat) (f : Warp → Warp) : (s.modWarp c k f).reports = s.reports := rfl
@[simp] theorem State.modWarp_ecost (c k : Nat) (f : Warp → Warp) : (s.modWarp c k f).ecost = s.ecost := rfl
@[simp] theorem State.modWarp_owner (c k : Nat) (f : Warp → Warp) : (s.modWarp c k f).owner = s.owner := rfl
@[simp] theorem State.modWarp_masters (c k : Nat) (f : Warp → Warp) : (s.modWarp c k f).masters = s.masters := rfl
@[simp] theorem State.modWarp_peers (c k : Nat) (f : Warp → Warp) : (s.modWarp c k f).peers = s.peers := rfl
@[simp] theorem State.modWarp_security (c k : Nat) (f : Warp → Warp) : (s.modWarp c k f).security = s.security := rfl
@[simp] theorem State.modWarp_boot (c k : Nat) (f : Warp → Warp) : (s.modWarp c k f).boot = s.boot := rfl
@[simp] theorem State.modWarp_leaf (c k : Nat) (f : Warp → Warp) : (s.modWarp c k f).leaf = s.leaf := rfl
@[simp] theorem State.modWarp_ownerKey (c k : Nat) (f : Warp → Warp) : (s.modWarp c k f).ownerKey = s.ownerKey := rfl
@[simp] theorem State.modWarp_ownerKek (c k : Nat) (f : Warp → Warp) : (s.modWarp c k f).ownerKek = s.ownerKek := rfl
@[simp] theorem State.modWarp_meas (c k : Nat) (f : Warp → Warp) : (s.modWarp c k f).meas = s.meas := rfl
@[simp] theorem State.modWarp_flash (c k : Nat) (f : Warp → Warp) : (s.modWarp c k f).flash = s.flash := rfl
@[simp] theorem State.modWarp_fuse (c k : Nat) (f : Warp → Warp) : (s.modWarp c k f).fuse = s.fuse := rfl
@[simp] theorem State.modWarp_released (c k : Nat) (f : Warp → Warp) : (s.modWarp c k f).released = s.released := rfl
@[simp] theorem State.modWarp_recovery (c k : Nat) (f : Warp → Warp) : (s.modWarp c k f).recovery = s.recovery := rfl
@[simp] theorem State.modWarp_secver (c k : Nat) (f : Warp → Warp) : (s.modWarp c k f).secver = s.secver := rfl
@[simp] theorem State.modWarp_cfgRecords (c k : Nat) (f : Warp → Warp) : (s.modWarp c k f).cfgRecords = s.cfgRecords := rfl
@[simp] theorem State.modWarp_serial (c k : Nat) (f : Warp → Warp) : (s.modWarp c k f).serial = s.serial := rfl
@[simp] theorem State.modWarp_tracek (c k : Nat) (f : Warp → Warp) : (s.modWarp c k f).tracek = s.tracek := rfl
@[simp] theorem State.modWarp_linkcfg (c k : Nat) (f : Warp → Warp) : (s.modWarp c k f).linkcfg = s.linkcfg := rfl
@[simp] theorem State.modWarp_summaries (c k : Nat) (f : Warp → Warp) : (s.modWarp c k f).summaries = s.summaries := rfl

/-! ### modLane -/

@[simp] theorem State.modLane_turns (c k l : Nat) (f : Lane → Lane) : (s.modLane c k l f).turns = s.turns := rfl
@[simp] theorem State.modLane_cur (c k l : Nat) (f : Lane → Lane) : (s.modLane c k l f).cur = s.cur := rfl
@[simp] theorem State.modLane_free (c k l : Nat) (f : Lane → Lane) : (s.modLane c k l f).free = s.free := rfl
@[simp] theorem State.modLane_fresh (c k l : Nat) (f : Lane → Lane) : (s.modLane c k l f).fresh = s.fresh := rfl
@[simp] theorem State.modLane_time (c k l : Nat) (f : Lane → Lane) : (s.modLane c k l f).time = s.time := rfl
@[simp] theorem State.modLane_powered (c k l : Nat) (f : Lane → Lane) : (s.modLane c k l f).powered = s.powered := rfl
@[simp] theorem State.modLane_hbm (c k l : Nat) (f : Lane → Lane) : (s.modLane c k l f).hbm = s.hbm := rfl
@[simp] theorem State.modLane_tags (c k l : Nat) (f : Lane → Lane) : (s.modLane c k l f).tags = s.tags := rfl
@[simp] theorem State.modLane_l2 (c k l : Nat) (f : Lane → Lane) : (s.modLane c k l f).l2 = s.l2 := rfl
@[simp] theorem State.modLane_l2comp (c k l : Nat) (f : Lane → Lane) : (s.modLane c k l f).l2comp = s.l2comp := rfl
@[simp] theorem State.modLane_l2shadow (c k l : Nat) (f : Lane → Lane) : (s.modLane c k l f).l2shadow = s.l2shadow := rfl
@[simp] theorem State.modLane_unmirrored (c k l : Nat) (f : Lane → Lane) : (s.modLane c k l f).unmirrored = s.unmirrored := rfl
@[simp] theorem State.modLane_shadowTag (c k l : Nat) (f : Lane → Lane) : (s.modLane c k l f).shadowTag = s.shadowTag := rfl
@[simp] theorem State.modLane_held (c k l : Nat) (f : Lane → Lane) : (s.modLane c k l f).held = s.held := rfl
@[simp] theorem State.modLane_refresh (c k l : Nat) (f : Lane → Lane) : (s.modLane c k l f).refresh = s.refresh := rfl
@[simp] theorem State.modLane_motifs (c k l : Nat) (f : Lane → Lane) : (s.modLane c k l f).motifs = s.motifs := rfl
@[simp] theorem State.modLane_parts (c k l : Nat) (f : Lane → Lane) : (s.modLane c k l f).parts = s.parts := rfl
@[simp] theorem State.modLane_launches (c k l : Nat) (f : Lane → Lane) : (s.modLane c k l f).launches = s.launches := rfl
@[simp] theorem State.modLane_saved (c k l : Nat) (f : Lane → Lane) : (s.modLane c k l f).saved = s.saved := rfl
@[simp] theorem State.modLane_engines (c k l : Nat) (f : Lane → Lane) : (s.modLane c k l f).engines = s.engines := rfl
@[simp] theorem State.modLane_channels (c k l : Nat) (f : Lane → Lane) : (s.modLane c k l f).channels = s.channels := rfl
@[simp] theorem State.modLane_postsDue (c k l : Nat) (f : Lane → Lane) : (s.modLane c k l f).postsDue = s.postsDue := rfl
@[simp] theorem State.modLane_transit (c k l : Nat) (f : Lane → Lane) : (s.modLane c k l f).transit = s.transit := rfl
@[simp] theorem State.modLane_debits (c k l : Nat) (f : Lane → Lane) : (s.modLane c k l f).debits = s.debits := rfl
@[simp] theorem State.modLane_reports (c k l : Nat) (f : Lane → Lane) : (s.modLane c k l f).reports = s.reports := rfl
@[simp] theorem State.modLane_ecost (c k l : Nat) (f : Lane → Lane) : (s.modLane c k l f).ecost = s.ecost := rfl
@[simp] theorem State.modLane_owner (c k l : Nat) (f : Lane → Lane) : (s.modLane c k l f).owner = s.owner := rfl
@[simp] theorem State.modLane_masters (c k l : Nat) (f : Lane → Lane) : (s.modLane c k l f).masters = s.masters := rfl
@[simp] theorem State.modLane_peers (c k l : Nat) (f : Lane → Lane) : (s.modLane c k l f).peers = s.peers := rfl
@[simp] theorem State.modLane_security (c k l : Nat) (f : Lane → Lane) : (s.modLane c k l f).security = s.security := rfl
@[simp] theorem State.modLane_boot (c k l : Nat) (f : Lane → Lane) : (s.modLane c k l f).boot = s.boot := rfl
@[simp] theorem State.modLane_leaf (c k l : Nat) (f : Lane → Lane) : (s.modLane c k l f).leaf = s.leaf := rfl
@[simp] theorem State.modLane_ownerKey (c k l : Nat) (f : Lane → Lane) : (s.modLane c k l f).ownerKey = s.ownerKey := rfl
@[simp] theorem State.modLane_ownerKek (c k l : Nat) (f : Lane → Lane) : (s.modLane c k l f).ownerKek = s.ownerKek := rfl
@[simp] theorem State.modLane_meas (c k l : Nat) (f : Lane → Lane) : (s.modLane c k l f).meas = s.meas := rfl
@[simp] theorem State.modLane_flash (c k l : Nat) (f : Lane → Lane) : (s.modLane c k l f).flash = s.flash := rfl
@[simp] theorem State.modLane_fuse (c k l : Nat) (f : Lane → Lane) : (s.modLane c k l f).fuse = s.fuse := rfl
@[simp] theorem State.modLane_released (c k l : Nat) (f : Lane → Lane) : (s.modLane c k l f).released = s.released := rfl
@[simp] theorem State.modLane_recovery (c k l : Nat) (f : Lane → Lane) : (s.modLane c k l f).recovery = s.recovery := rfl
@[simp] theorem State.modLane_secver (c k l : Nat) (f : Lane → Lane) : (s.modLane c k l f).secver = s.secver := rfl
@[simp] theorem State.modLane_cfgRecords (c k l : Nat) (f : Lane → Lane) : (s.modLane c k l f).cfgRecords = s.cfgRecords := rfl
@[simp] theorem State.modLane_serial (c k l : Nat) (f : Lane → Lane) : (s.modLane c k l f).serial = s.serial := rfl
@[simp] theorem State.modLane_tracek (c k l : Nat) (f : Lane → Lane) : (s.modLane c k l f).tracek = s.tracek := rfl
@[simp] theorem State.modLane_linkcfg (c k l : Nat) (f : Lane → Lane) : (s.modLane c k l f).linkcfg = s.linkcfg := rfl
@[simp] theorem State.modLane_summaries (c k l : Nat) (f : Lane → Lane) : (s.modLane c k l f).summaries = s.summaries := rfl

/-! ### modCtx -/

@[simp] theorem State.modCtx_turns (c k : Nat) (f : Ctx → Ctx) : (s.modCtx c k f).turns = s.turns := rfl
@[simp] theorem State.modCtx_cur (c k : Nat) (f : Ctx → Ctx) : (s.modCtx c k f).cur = s.cur := rfl
@[simp] theorem State.modCtx_free (c k : Nat) (f : Ctx → Ctx) : (s.modCtx c k f).free = s.free := rfl
@[simp] theorem State.modCtx_fresh (c k : Nat) (f : Ctx → Ctx) : (s.modCtx c k f).fresh = s.fresh := rfl
@[simp] theorem State.modCtx_time (c k : Nat) (f : Ctx → Ctx) : (s.modCtx c k f).time = s.time := rfl
@[simp] theorem State.modCtx_powered (c k : Nat) (f : Ctx → Ctx) : (s.modCtx c k f).powered = s.powered := rfl
@[simp] theorem State.modCtx_hbm (c k : Nat) (f : Ctx → Ctx) : (s.modCtx c k f).hbm = s.hbm := rfl
@[simp] theorem State.modCtx_tags (c k : Nat) (f : Ctx → Ctx) : (s.modCtx c k f).tags = s.tags := rfl
@[simp] theorem State.modCtx_l2 (c k : Nat) (f : Ctx → Ctx) : (s.modCtx c k f).l2 = s.l2 := rfl
@[simp] theorem State.modCtx_l2comp (c k : Nat) (f : Ctx → Ctx) : (s.modCtx c k f).l2comp = s.l2comp := rfl
@[simp] theorem State.modCtx_l2shadow (c k : Nat) (f : Ctx → Ctx) : (s.modCtx c k f).l2shadow = s.l2shadow := rfl
@[simp] theorem State.modCtx_unmirrored (c k : Nat) (f : Ctx → Ctx) : (s.modCtx c k f).unmirrored = s.unmirrored := rfl
@[simp] theorem State.modCtx_shadowTag (c k : Nat) (f : Ctx → Ctx) : (s.modCtx c k f).shadowTag = s.shadowTag := rfl
@[simp] theorem State.modCtx_held (c k : Nat) (f : Ctx → Ctx) : (s.modCtx c k f).held = s.held := rfl
@[simp] theorem State.modCtx_refresh (c k : Nat) (f : Ctx → Ctx) : (s.modCtx c k f).refresh = s.refresh := rfl
@[simp] theorem State.modCtx_motifs (c k : Nat) (f : Ctx → Ctx) : (s.modCtx c k f).motifs = s.motifs := rfl
@[simp] theorem State.modCtx_parts (c k : Nat) (f : Ctx → Ctx) : (s.modCtx c k f).parts = s.parts := rfl
@[simp] theorem State.modCtx_launches (c k : Nat) (f : Ctx → Ctx) : (s.modCtx c k f).launches = s.launches := rfl
@[simp] theorem State.modCtx_saved (c k : Nat) (f : Ctx → Ctx) : (s.modCtx c k f).saved = s.saved := rfl
@[simp] theorem State.modCtx_engines (c k : Nat) (f : Ctx → Ctx) : (s.modCtx c k f).engines = s.engines := rfl
@[simp] theorem State.modCtx_channels (c k : Nat) (f : Ctx → Ctx) : (s.modCtx c k f).channels = s.channels := rfl
@[simp] theorem State.modCtx_postsDue (c k : Nat) (f : Ctx → Ctx) : (s.modCtx c k f).postsDue = s.postsDue := rfl
@[simp] theorem State.modCtx_transit (c k : Nat) (f : Ctx → Ctx) : (s.modCtx c k f).transit = s.transit := rfl
@[simp] theorem State.modCtx_debits (c k : Nat) (f : Ctx → Ctx) : (s.modCtx c k f).debits = s.debits := rfl
@[simp] theorem State.modCtx_reports (c k : Nat) (f : Ctx → Ctx) : (s.modCtx c k f).reports = s.reports := rfl
@[simp] theorem State.modCtx_ecost (c k : Nat) (f : Ctx → Ctx) : (s.modCtx c k f).ecost = s.ecost := rfl
@[simp] theorem State.modCtx_owner (c k : Nat) (f : Ctx → Ctx) : (s.modCtx c k f).owner = s.owner := rfl
@[simp] theorem State.modCtx_masters (c k : Nat) (f : Ctx → Ctx) : (s.modCtx c k f).masters = s.masters := rfl
@[simp] theorem State.modCtx_peers (c k : Nat) (f : Ctx → Ctx) : (s.modCtx c k f).peers = s.peers := rfl
@[simp] theorem State.modCtx_security (c k : Nat) (f : Ctx → Ctx) : (s.modCtx c k f).security = s.security := rfl
@[simp] theorem State.modCtx_boot (c k : Nat) (f : Ctx → Ctx) : (s.modCtx c k f).boot = s.boot := rfl
@[simp] theorem State.modCtx_leaf (c k : Nat) (f : Ctx → Ctx) : (s.modCtx c k f).leaf = s.leaf := rfl
@[simp] theorem State.modCtx_ownerKey (c k : Nat) (f : Ctx → Ctx) : (s.modCtx c k f).ownerKey = s.ownerKey := rfl
@[simp] theorem State.modCtx_ownerKek (c k : Nat) (f : Ctx → Ctx) : (s.modCtx c k f).ownerKek = s.ownerKek := rfl
@[simp] theorem State.modCtx_meas (c k : Nat) (f : Ctx → Ctx) : (s.modCtx c k f).meas = s.meas := rfl
@[simp] theorem State.modCtx_flash (c k : Nat) (f : Ctx → Ctx) : (s.modCtx c k f).flash = s.flash := rfl
@[simp] theorem State.modCtx_fuse (c k : Nat) (f : Ctx → Ctx) : (s.modCtx c k f).fuse = s.fuse := rfl
@[simp] theorem State.modCtx_released (c k : Nat) (f : Ctx → Ctx) : (s.modCtx c k f).released = s.released := rfl
@[simp] theorem State.modCtx_recovery (c k : Nat) (f : Ctx → Ctx) : (s.modCtx c k f).recovery = s.recovery := rfl
@[simp] theorem State.modCtx_secver (c k : Nat) (f : Ctx → Ctx) : (s.modCtx c k f).secver = s.secver := rfl
@[simp] theorem State.modCtx_cfgRecords (c k : Nat) (f : Ctx → Ctx) : (s.modCtx c k f).cfgRecords = s.cfgRecords := rfl
@[simp] theorem State.modCtx_serial (c k : Nat) (f : Ctx → Ctx) : (s.modCtx c k f).serial = s.serial := rfl
@[simp] theorem State.modCtx_tracek (c k : Nat) (f : Ctx → Ctx) : (s.modCtx c k f).tracek = s.tracek := rfl
@[simp] theorem State.modCtx_linkcfg (c k : Nat) (f : Ctx → Ctx) : (s.modCtx c k f).linkcfg = s.linkcfg := rfl
@[simp] theorem State.modCtx_summaries (c k : Nat) (f : Ctx → Ctx) : (s.modCtx c k f).summaries = s.summaries := rfl

/-! ### modCurWarp -/

@[simp] theorem State.modCurWarp_turns (f : Warp → Warp) : (s.modCurWarp f).turns = s.turns := rfl
@[simp] theorem State.modCurWarp_cur (f : Warp → Warp) : (s.modCurWarp f).cur = s.cur := rfl
@[simp] theorem State.modCurWarp_free (f : Warp → Warp) : (s.modCurWarp f).free = s.free := rfl
@[simp] theorem State.modCurWarp_fresh (f : Warp → Warp) : (s.modCurWarp f).fresh = s.fresh := rfl
@[simp] theorem State.modCurWarp_time (f : Warp → Warp) : (s.modCurWarp f).time = s.time := rfl
@[simp] theorem State.modCurWarp_powered (f : Warp → Warp) : (s.modCurWarp f).powered = s.powered := rfl
@[simp] theorem State.modCurWarp_hbm (f : Warp → Warp) : (s.modCurWarp f).hbm = s.hbm := rfl
@[simp] theorem State.modCurWarp_tags (f : Warp → Warp) : (s.modCurWarp f).tags = s.tags := rfl
@[simp] theorem State.modCurWarp_l2 (f : Warp → Warp) : (s.modCurWarp f).l2 = s.l2 := rfl
@[simp] theorem State.modCurWarp_l2comp (f : Warp → Warp) : (s.modCurWarp f).l2comp = s.l2comp := rfl
@[simp] theorem State.modCurWarp_l2shadow (f : Warp → Warp) : (s.modCurWarp f).l2shadow = s.l2shadow := rfl
@[simp] theorem State.modCurWarp_unmirrored (f : Warp → Warp) : (s.modCurWarp f).unmirrored = s.unmirrored := rfl
@[simp] theorem State.modCurWarp_shadowTag (f : Warp → Warp) : (s.modCurWarp f).shadowTag = s.shadowTag := rfl
@[simp] theorem State.modCurWarp_held (f : Warp → Warp) : (s.modCurWarp f).held = s.held := rfl
@[simp] theorem State.modCurWarp_refresh (f : Warp → Warp) : (s.modCurWarp f).refresh = s.refresh := rfl
@[simp] theorem State.modCurWarp_motifs (f : Warp → Warp) : (s.modCurWarp f).motifs = s.motifs := rfl
@[simp] theorem State.modCurWarp_parts (f : Warp → Warp) : (s.modCurWarp f).parts = s.parts := rfl
@[simp] theorem State.modCurWarp_launches (f : Warp → Warp) : (s.modCurWarp f).launches = s.launches := rfl
@[simp] theorem State.modCurWarp_saved (f : Warp → Warp) : (s.modCurWarp f).saved = s.saved := rfl
@[simp] theorem State.modCurWarp_engines (f : Warp → Warp) : (s.modCurWarp f).engines = s.engines := rfl
@[simp] theorem State.modCurWarp_channels (f : Warp → Warp) : (s.modCurWarp f).channels = s.channels := rfl
@[simp] theorem State.modCurWarp_postsDue (f : Warp → Warp) : (s.modCurWarp f).postsDue = s.postsDue := rfl
@[simp] theorem State.modCurWarp_transit (f : Warp → Warp) : (s.modCurWarp f).transit = s.transit := rfl
@[simp] theorem State.modCurWarp_debits (f : Warp → Warp) : (s.modCurWarp f).debits = s.debits := rfl
@[simp] theorem State.modCurWarp_reports (f : Warp → Warp) : (s.modCurWarp f).reports = s.reports := rfl
@[simp] theorem State.modCurWarp_ecost (f : Warp → Warp) : (s.modCurWarp f).ecost = s.ecost := rfl
@[simp] theorem State.modCurWarp_owner (f : Warp → Warp) : (s.modCurWarp f).owner = s.owner := rfl
@[simp] theorem State.modCurWarp_masters (f : Warp → Warp) : (s.modCurWarp f).masters = s.masters := rfl
@[simp] theorem State.modCurWarp_peers (f : Warp → Warp) : (s.modCurWarp f).peers = s.peers := rfl
@[simp] theorem State.modCurWarp_security (f : Warp → Warp) : (s.modCurWarp f).security = s.security := rfl
@[simp] theorem State.modCurWarp_boot (f : Warp → Warp) : (s.modCurWarp f).boot = s.boot := rfl
@[simp] theorem State.modCurWarp_leaf (f : Warp → Warp) : (s.modCurWarp f).leaf = s.leaf := rfl
@[simp] theorem State.modCurWarp_ownerKey (f : Warp → Warp) : (s.modCurWarp f).ownerKey = s.ownerKey := rfl
@[simp] theorem State.modCurWarp_ownerKek (f : Warp → Warp) : (s.modCurWarp f).ownerKek = s.ownerKek := rfl
@[simp] theorem State.modCurWarp_meas (f : Warp → Warp) : (s.modCurWarp f).meas = s.meas := rfl
@[simp] theorem State.modCurWarp_flash (f : Warp → Warp) : (s.modCurWarp f).flash = s.flash := rfl
@[simp] theorem State.modCurWarp_fuse (f : Warp → Warp) : (s.modCurWarp f).fuse = s.fuse := rfl
@[simp] theorem State.modCurWarp_released (f : Warp → Warp) : (s.modCurWarp f).released = s.released := rfl
@[simp] theorem State.modCurWarp_recovery (f : Warp → Warp) : (s.modCurWarp f).recovery = s.recovery := rfl
@[simp] theorem State.modCurWarp_secver (f : Warp → Warp) : (s.modCurWarp f).secver = s.secver := rfl
@[simp] theorem State.modCurWarp_cfgRecords (f : Warp → Warp) : (s.modCurWarp f).cfgRecords = s.cfgRecords := rfl
@[simp] theorem State.modCurWarp_serial (f : Warp → Warp) : (s.modCurWarp f).serial = s.serial := rfl
@[simp] theorem State.modCurWarp_tracek (f : Warp → Warp) : (s.modCurWarp f).tracek = s.tracek := rfl
@[simp] theorem State.modCurWarp_linkcfg (f : Warp → Warp) : (s.modCurWarp f).linkcfg = s.linkcfg := rfl
@[simp] theorem State.modCurWarp_summaries (f : Warp → Warp) : (s.modCurWarp f).summaries = s.summaries := rfl

/-! ### modCurLane -/

@[simp] theorem State.modCurLane_turns (l : Nat) (f : Lane → Lane) : (s.modCurLane l f).turns = s.turns := rfl
@[simp] theorem State.modCurLane_cur (l : Nat) (f : Lane → Lane) : (s.modCurLane l f).cur = s.cur := rfl
@[simp] theorem State.modCurLane_free (l : Nat) (f : Lane → Lane) : (s.modCurLane l f).free = s.free := rfl
@[simp] theorem State.modCurLane_fresh (l : Nat) (f : Lane → Lane) : (s.modCurLane l f).fresh = s.fresh := rfl
@[simp] theorem State.modCurLane_time (l : Nat) (f : Lane → Lane) : (s.modCurLane l f).time = s.time := rfl
@[simp] theorem State.modCurLane_powered (l : Nat) (f : Lane → Lane) : (s.modCurLane l f).powered = s.powered := rfl
@[simp] theorem State.modCurLane_hbm (l : Nat) (f : Lane → Lane) : (s.modCurLane l f).hbm = s.hbm := rfl
@[simp] theorem State.modCurLane_tags (l : Nat) (f : Lane → Lane) : (s.modCurLane l f).tags = s.tags := rfl
@[simp] theorem State.modCurLane_l2 (l : Nat) (f : Lane → Lane) : (s.modCurLane l f).l2 = s.l2 := rfl
@[simp] theorem State.modCurLane_l2comp (l : Nat) (f : Lane → Lane) : (s.modCurLane l f).l2comp = s.l2comp := rfl
@[simp] theorem State.modCurLane_l2shadow (l : Nat) (f : Lane → Lane) : (s.modCurLane l f).l2shadow = s.l2shadow := rfl
@[simp] theorem State.modCurLane_unmirrored (l : Nat) (f : Lane → Lane) : (s.modCurLane l f).unmirrored = s.unmirrored := rfl
@[simp] theorem State.modCurLane_shadowTag (l : Nat) (f : Lane → Lane) : (s.modCurLane l f).shadowTag = s.shadowTag := rfl
@[simp] theorem State.modCurLane_held (l : Nat) (f : Lane → Lane) : (s.modCurLane l f).held = s.held := rfl
@[simp] theorem State.modCurLane_refresh (l : Nat) (f : Lane → Lane) : (s.modCurLane l f).refresh = s.refresh := rfl
@[simp] theorem State.modCurLane_motifs (l : Nat) (f : Lane → Lane) : (s.modCurLane l f).motifs = s.motifs := rfl
@[simp] theorem State.modCurLane_parts (l : Nat) (f : Lane → Lane) : (s.modCurLane l f).parts = s.parts := rfl
@[simp] theorem State.modCurLane_launches (l : Nat) (f : Lane → Lane) : (s.modCurLane l f).launches = s.launches := rfl
@[simp] theorem State.modCurLane_saved (l : Nat) (f : Lane → Lane) : (s.modCurLane l f).saved = s.saved := rfl
@[simp] theorem State.modCurLane_engines (l : Nat) (f : Lane → Lane) : (s.modCurLane l f).engines = s.engines := rfl
@[simp] theorem State.modCurLane_channels (l : Nat) (f : Lane → Lane) : (s.modCurLane l f).channels = s.channels := rfl
@[simp] theorem State.modCurLane_postsDue (l : Nat) (f : Lane → Lane) : (s.modCurLane l f).postsDue = s.postsDue := rfl
@[simp] theorem State.modCurLane_transit (l : Nat) (f : Lane → Lane) : (s.modCurLane l f).transit = s.transit := rfl
@[simp] theorem State.modCurLane_debits (l : Nat) (f : Lane → Lane) : (s.modCurLane l f).debits = s.debits := rfl
@[simp] theorem State.modCurLane_reports (l : Nat) (f : Lane → Lane) : (s.modCurLane l f).reports = s.reports := rfl
@[simp] theorem State.modCurLane_ecost (l : Nat) (f : Lane → Lane) : (s.modCurLane l f).ecost = s.ecost := rfl
@[simp] theorem State.modCurLane_owner (l : Nat) (f : Lane → Lane) : (s.modCurLane l f).owner = s.owner := rfl
@[simp] theorem State.modCurLane_masters (l : Nat) (f : Lane → Lane) : (s.modCurLane l f).masters = s.masters := rfl
@[simp] theorem State.modCurLane_peers (l : Nat) (f : Lane → Lane) : (s.modCurLane l f).peers = s.peers := rfl
@[simp] theorem State.modCurLane_security (l : Nat) (f : Lane → Lane) : (s.modCurLane l f).security = s.security := rfl
@[simp] theorem State.modCurLane_boot (l : Nat) (f : Lane → Lane) : (s.modCurLane l f).boot = s.boot := rfl
@[simp] theorem State.modCurLane_leaf (l : Nat) (f : Lane → Lane) : (s.modCurLane l f).leaf = s.leaf := rfl
@[simp] theorem State.modCurLane_ownerKey (l : Nat) (f : Lane → Lane) : (s.modCurLane l f).ownerKey = s.ownerKey := rfl
@[simp] theorem State.modCurLane_ownerKek (l : Nat) (f : Lane → Lane) : (s.modCurLane l f).ownerKek = s.ownerKek := rfl
@[simp] theorem State.modCurLane_meas (l : Nat) (f : Lane → Lane) : (s.modCurLane l f).meas = s.meas := rfl
@[simp] theorem State.modCurLane_flash (l : Nat) (f : Lane → Lane) : (s.modCurLane l f).flash = s.flash := rfl
@[simp] theorem State.modCurLane_fuse (l : Nat) (f : Lane → Lane) : (s.modCurLane l f).fuse = s.fuse := rfl
@[simp] theorem State.modCurLane_released (l : Nat) (f : Lane → Lane) : (s.modCurLane l f).released = s.released := rfl
@[simp] theorem State.modCurLane_recovery (l : Nat) (f : Lane → Lane) : (s.modCurLane l f).recovery = s.recovery := rfl
@[simp] theorem State.modCurLane_secver (l : Nat) (f : Lane → Lane) : (s.modCurLane l f).secver = s.secver := rfl
@[simp] theorem State.modCurLane_cfgRecords (l : Nat) (f : Lane → Lane) : (s.modCurLane l f).cfgRecords = s.cfgRecords := rfl
@[simp] theorem State.modCurLane_serial (l : Nat) (f : Lane → Lane) : (s.modCurLane l f).serial = s.serial := rfl
@[simp] theorem State.modCurLane_tracek (l : Nat) (f : Lane → Lane) : (s.modCurLane l f).tracek = s.tracek := rfl
@[simp] theorem State.modCurLane_linkcfg (l : Nat) (f : Lane → Lane) : (s.modCurLane l f).linkcfg = s.linkcfg := rfl
@[simp] theorem State.modCurLane_summaries (l : Nat) (f : Lane → Lane) : (s.modCurLane l f).summaries = s.summaries := rfl

/-! ### modMotif -/

@[simp] theorem State.modMotif_turns (c : Nat) (f : Motif → Motif) : (s.modMotif c f).turns = s.turns := rfl
@[simp] theorem State.modMotif_cur (c : Nat) (f : Motif → Motif) : (s.modMotif c f).cur = s.cur := rfl
@[simp] theorem State.modMotif_free (c : Nat) (f : Motif → Motif) : (s.modMotif c f).free = s.free := rfl
@[simp] theorem State.modMotif_fresh (c : Nat) (f : Motif → Motif) : (s.modMotif c f).fresh = s.fresh := rfl
@[simp] theorem State.modMotif_time (c : Nat) (f : Motif → Motif) : (s.modMotif c f).time = s.time := rfl
@[simp] theorem State.modMotif_powered (c : Nat) (f : Motif → Motif) : (s.modMotif c f).powered = s.powered := rfl
@[simp] theorem State.modMotif_hbm (c : Nat) (f : Motif → Motif) : (s.modMotif c f).hbm = s.hbm := rfl
@[simp] theorem State.modMotif_tags (c : Nat) (f : Motif → Motif) : (s.modMotif c f).tags = s.tags := rfl
@[simp] theorem State.modMotif_l2 (c : Nat) (f : Motif → Motif) : (s.modMotif c f).l2 = s.l2 := rfl
@[simp] theorem State.modMotif_l2comp (c : Nat) (f : Motif → Motif) : (s.modMotif c f).l2comp = s.l2comp := rfl
@[simp] theorem State.modMotif_l2shadow (c : Nat) (f : Motif → Motif) : (s.modMotif c f).l2shadow = s.l2shadow := rfl
@[simp] theorem State.modMotif_unmirrored (c : Nat) (f : Motif → Motif) : (s.modMotif c f).unmirrored = s.unmirrored := rfl
@[simp] theorem State.modMotif_shadowTag (c : Nat) (f : Motif → Motif) : (s.modMotif c f).shadowTag = s.shadowTag := rfl
@[simp] theorem State.modMotif_held (c : Nat) (f : Motif → Motif) : (s.modMotif c f).held = s.held := rfl
@[simp] theorem State.modMotif_refresh (c : Nat) (f : Motif → Motif) : (s.modMotif c f).refresh = s.refresh := rfl
@[simp] theorem State.modMotif_cores (c : Nat) (f : Motif → Motif) : (s.modMotif c f).cores = s.cores := rfl
@[simp] theorem State.modMotif_parts (c : Nat) (f : Motif → Motif) : (s.modMotif c f).parts = s.parts := rfl
@[simp] theorem State.modMotif_launches (c : Nat) (f : Motif → Motif) : (s.modMotif c f).launches = s.launches := rfl
@[simp] theorem State.modMotif_saved (c : Nat) (f : Motif → Motif) : (s.modMotif c f).saved = s.saved := rfl
@[simp] theorem State.modMotif_engines (c : Nat) (f : Motif → Motif) : (s.modMotif c f).engines = s.engines := rfl
@[simp] theorem State.modMotif_channels (c : Nat) (f : Motif → Motif) : (s.modMotif c f).channels = s.channels := rfl
@[simp] theorem State.modMotif_postsDue (c : Nat) (f : Motif → Motif) : (s.modMotif c f).postsDue = s.postsDue := rfl
@[simp] theorem State.modMotif_transit (c : Nat) (f : Motif → Motif) : (s.modMotif c f).transit = s.transit := rfl
@[simp] theorem State.modMotif_debits (c : Nat) (f : Motif → Motif) : (s.modMotif c f).debits = s.debits := rfl
@[simp] theorem State.modMotif_reports (c : Nat) (f : Motif → Motif) : (s.modMotif c f).reports = s.reports := rfl
@[simp] theorem State.modMotif_ecost (c : Nat) (f : Motif → Motif) : (s.modMotif c f).ecost = s.ecost := rfl
@[simp] theorem State.modMotif_owner (c : Nat) (f : Motif → Motif) : (s.modMotif c f).owner = s.owner := rfl
@[simp] theorem State.modMotif_masters (c : Nat) (f : Motif → Motif) : (s.modMotif c f).masters = s.masters := rfl
@[simp] theorem State.modMotif_peers (c : Nat) (f : Motif → Motif) : (s.modMotif c f).peers = s.peers := rfl
@[simp] theorem State.modMotif_security (c : Nat) (f : Motif → Motif) : (s.modMotif c f).security = s.security := rfl
@[simp] theorem State.modMotif_boot (c : Nat) (f : Motif → Motif) : (s.modMotif c f).boot = s.boot := rfl
@[simp] theorem State.modMotif_leaf (c : Nat) (f : Motif → Motif) : (s.modMotif c f).leaf = s.leaf := rfl
@[simp] theorem State.modMotif_ownerKey (c : Nat) (f : Motif → Motif) : (s.modMotif c f).ownerKey = s.ownerKey := rfl
@[simp] theorem State.modMotif_ownerKek (c : Nat) (f : Motif → Motif) : (s.modMotif c f).ownerKek = s.ownerKek := rfl
@[simp] theorem State.modMotif_meas (c : Nat) (f : Motif → Motif) : (s.modMotif c f).meas = s.meas := rfl
@[simp] theorem State.modMotif_flash (c : Nat) (f : Motif → Motif) : (s.modMotif c f).flash = s.flash := rfl
@[simp] theorem State.modMotif_fuse (c : Nat) (f : Motif → Motif) : (s.modMotif c f).fuse = s.fuse := rfl
@[simp] theorem State.modMotif_released (c : Nat) (f : Motif → Motif) : (s.modMotif c f).released = s.released := rfl
@[simp] theorem State.modMotif_recovery (c : Nat) (f : Motif → Motif) : (s.modMotif c f).recovery = s.recovery := rfl
@[simp] theorem State.modMotif_secver (c : Nat) (f : Motif → Motif) : (s.modMotif c f).secver = s.secver := rfl
@[simp] theorem State.modMotif_cfgRecords (c : Nat) (f : Motif → Motif) : (s.modMotif c f).cfgRecords = s.cfgRecords := rfl
@[simp] theorem State.modMotif_serial (c : Nat) (f : Motif → Motif) : (s.modMotif c f).serial = s.serial := rfl
@[simp] theorem State.modMotif_tracek (c : Nat) (f : Motif → Motif) : (s.modMotif c f).tracek = s.tracek := rfl
@[simp] theorem State.modMotif_linkcfg (c : Nat) (f : Motif → Motif) : (s.modMotif c f).linkcfg = s.linkcfg := rfl
@[simp] theorem State.modMotif_summaries (c : Nat) (f : Motif → Motif) : (s.modMotif c f).summaries = s.summaries := rfl

/-! ### modPart -/

@[simp] theorem State.modPart_turns (c : Nat) (f : Part → Part) : (s.modPart c f).turns = s.turns := rfl
@[simp] theorem State.modPart_cur (c : Nat) (f : Part → Part) : (s.modPart c f).cur = s.cur := rfl
@[simp] theorem State.modPart_free (c : Nat) (f : Part → Part) : (s.modPart c f).free = s.free := rfl
@[simp] theorem State.modPart_fresh (c : Nat) (f : Part → Part) : (s.modPart c f).fresh = s.fresh := rfl
@[simp] theorem State.modPart_time (c : Nat) (f : Part → Part) : (s.modPart c f).time = s.time := rfl
@[simp] theorem State.modPart_powered (c : Nat) (f : Part → Part) : (s.modPart c f).powered = s.powered := rfl
@[simp] theorem State.modPart_hbm (c : Nat) (f : Part → Part) : (s.modPart c f).hbm = s.hbm := rfl
@[simp] theorem State.modPart_tags (c : Nat) (f : Part → Part) : (s.modPart c f).tags = s.tags := rfl
@[simp] theorem State.modPart_l2 (c : Nat) (f : Part → Part) : (s.modPart c f).l2 = s.l2 := rfl
@[simp] theorem State.modPart_l2comp (c : Nat) (f : Part → Part) : (s.modPart c f).l2comp = s.l2comp := rfl
@[simp] theorem State.modPart_l2shadow (c : Nat) (f : Part → Part) : (s.modPart c f).l2shadow = s.l2shadow := rfl
@[simp] theorem State.modPart_unmirrored (c : Nat) (f : Part → Part) : (s.modPart c f).unmirrored = s.unmirrored := rfl
@[simp] theorem State.modPart_shadowTag (c : Nat) (f : Part → Part) : (s.modPart c f).shadowTag = s.shadowTag := rfl
@[simp] theorem State.modPart_held (c : Nat) (f : Part → Part) : (s.modPart c f).held = s.held := rfl
@[simp] theorem State.modPart_refresh (c : Nat) (f : Part → Part) : (s.modPart c f).refresh = s.refresh := rfl
@[simp] theorem State.modPart_cores (c : Nat) (f : Part → Part) : (s.modPart c f).cores = s.cores := rfl
@[simp] theorem State.modPart_motifs (c : Nat) (f : Part → Part) : (s.modPart c f).motifs = s.motifs := rfl
@[simp] theorem State.modPart_launches (c : Nat) (f : Part → Part) : (s.modPart c f).launches = s.launches := rfl
@[simp] theorem State.modPart_saved (c : Nat) (f : Part → Part) : (s.modPart c f).saved = s.saved := rfl
@[simp] theorem State.modPart_engines (c : Nat) (f : Part → Part) : (s.modPart c f).engines = s.engines := rfl
@[simp] theorem State.modPart_channels (c : Nat) (f : Part → Part) : (s.modPart c f).channels = s.channels := rfl
@[simp] theorem State.modPart_postsDue (c : Nat) (f : Part → Part) : (s.modPart c f).postsDue = s.postsDue := rfl
@[simp] theorem State.modPart_transit (c : Nat) (f : Part → Part) : (s.modPart c f).transit = s.transit := rfl
@[simp] theorem State.modPart_debits (c : Nat) (f : Part → Part) : (s.modPart c f).debits = s.debits := rfl
@[simp] theorem State.modPart_reports (c : Nat) (f : Part → Part) : (s.modPart c f).reports = s.reports := rfl
@[simp] theorem State.modPart_ecost (c : Nat) (f : Part → Part) : (s.modPart c f).ecost = s.ecost := rfl
@[simp] theorem State.modPart_owner (c : Nat) (f : Part → Part) : (s.modPart c f).owner = s.owner := rfl
@[simp] theorem State.modPart_masters (c : Nat) (f : Part → Part) : (s.modPart c f).masters = s.masters := rfl
@[simp] theorem State.modPart_peers (c : Nat) (f : Part → Part) : (s.modPart c f).peers = s.peers := rfl
@[simp] theorem State.modPart_security (c : Nat) (f : Part → Part) : (s.modPart c f).security = s.security := rfl
@[simp] theorem State.modPart_boot (c : Nat) (f : Part → Part) : (s.modPart c f).boot = s.boot := rfl
@[simp] theorem State.modPart_leaf (c : Nat) (f : Part → Part) : (s.modPart c f).leaf = s.leaf := rfl
@[simp] theorem State.modPart_ownerKey (c : Nat) (f : Part → Part) : (s.modPart c f).ownerKey = s.ownerKey := rfl
@[simp] theorem State.modPart_ownerKek (c : Nat) (f : Part → Part) : (s.modPart c f).ownerKek = s.ownerKek := rfl
@[simp] theorem State.modPart_meas (c : Nat) (f : Part → Part) : (s.modPart c f).meas = s.meas := rfl
@[simp] theorem State.modPart_flash (c : Nat) (f : Part → Part) : (s.modPart c f).flash = s.flash := rfl
@[simp] theorem State.modPart_fuse (c : Nat) (f : Part → Part) : (s.modPart c f).fuse = s.fuse := rfl
@[simp] theorem State.modPart_released (c : Nat) (f : Part → Part) : (s.modPart c f).released = s.released := rfl
@[simp] theorem State.modPart_recovery (c : Nat) (f : Part → Part) : (s.modPart c f).recovery = s.recovery := rfl
@[simp] theorem State.modPart_secver (c : Nat) (f : Part → Part) : (s.modPart c f).secver = s.secver := rfl
@[simp] theorem State.modPart_cfgRecords (c : Nat) (f : Part → Part) : (s.modPart c f).cfgRecords = s.cfgRecords := rfl
@[simp] theorem State.modPart_serial (c : Nat) (f : Part → Part) : (s.modPart c f).serial = s.serial := rfl
@[simp] theorem State.modPart_tracek (c : Nat) (f : Part → Part) : (s.modPart c f).tracek = s.tracek := rfl
@[simp] theorem State.modPart_linkcfg (c : Nat) (f : Part → Part) : (s.modPart c f).linkcfg = s.linkcfg := rfl
@[simp] theorem State.modPart_summaries (c : Nat) (f : Part → Part) : (s.modPart c f).summaries = s.summaries := rfl

/-! ### modMaster -/

@[simp] theorem State.modMaster_turns (c : Nat) (f : MasterRegs → MasterRegs) : (s.modMaster c f).turns = s.turns := rfl
@[simp] theorem State.modMaster_cur (c : Nat) (f : MasterRegs → MasterRegs) : (s.modMaster c f).cur = s.cur := rfl
@[simp] theorem State.modMaster_free (c : Nat) (f : MasterRegs → MasterRegs) : (s.modMaster c f).free = s.free := rfl
@[simp] theorem State.modMaster_fresh (c : Nat) (f : MasterRegs → MasterRegs) : (s.modMaster c f).fresh = s.fresh := rfl
@[simp] theorem State.modMaster_time (c : Nat) (f : MasterRegs → MasterRegs) : (s.modMaster c f).time = s.time := rfl
@[simp] theorem State.modMaster_powered (c : Nat) (f : MasterRegs → MasterRegs) : (s.modMaster c f).powered = s.powered := rfl
@[simp] theorem State.modMaster_hbm (c : Nat) (f : MasterRegs → MasterRegs) : (s.modMaster c f).hbm = s.hbm := rfl
@[simp] theorem State.modMaster_tags (c : Nat) (f : MasterRegs → MasterRegs) : (s.modMaster c f).tags = s.tags := rfl
@[simp] theorem State.modMaster_l2 (c : Nat) (f : MasterRegs → MasterRegs) : (s.modMaster c f).l2 = s.l2 := rfl
@[simp] theorem State.modMaster_l2comp (c : Nat) (f : MasterRegs → MasterRegs) : (s.modMaster c f).l2comp = s.l2comp := rfl
@[simp] theorem State.modMaster_l2shadow (c : Nat) (f : MasterRegs → MasterRegs) : (s.modMaster c f).l2shadow = s.l2shadow := rfl
@[simp] theorem State.modMaster_unmirrored (c : Nat) (f : MasterRegs → MasterRegs) : (s.modMaster c f).unmirrored = s.unmirrored := rfl
@[simp] theorem State.modMaster_shadowTag (c : Nat) (f : MasterRegs → MasterRegs) : (s.modMaster c f).shadowTag = s.shadowTag := rfl
@[simp] theorem State.modMaster_held (c : Nat) (f : MasterRegs → MasterRegs) : (s.modMaster c f).held = s.held := rfl
@[simp] theorem State.modMaster_refresh (c : Nat) (f : MasterRegs → MasterRegs) : (s.modMaster c f).refresh = s.refresh := rfl
@[simp] theorem State.modMaster_cores (c : Nat) (f : MasterRegs → MasterRegs) : (s.modMaster c f).cores = s.cores := rfl
@[simp] theorem State.modMaster_motifs (c : Nat) (f : MasterRegs → MasterRegs) : (s.modMaster c f).motifs = s.motifs := rfl
@[simp] theorem State.modMaster_parts (c : Nat) (f : MasterRegs → MasterRegs) : (s.modMaster c f).parts = s.parts := rfl
@[simp] theorem State.modMaster_launches (c : Nat) (f : MasterRegs → MasterRegs) : (s.modMaster c f).launches = s.launches := rfl
@[simp] theorem State.modMaster_saved (c : Nat) (f : MasterRegs → MasterRegs) : (s.modMaster c f).saved = s.saved := rfl
@[simp] theorem State.modMaster_engines (c : Nat) (f : MasterRegs → MasterRegs) : (s.modMaster c f).engines = s.engines := rfl
@[simp] theorem State.modMaster_channels (c : Nat) (f : MasterRegs → MasterRegs) : (s.modMaster c f).channels = s.channels := rfl
@[simp] theorem State.modMaster_postsDue (c : Nat) (f : MasterRegs → MasterRegs) : (s.modMaster c f).postsDue = s.postsDue := rfl
@[simp] theorem State.modMaster_transit (c : Nat) (f : MasterRegs → MasterRegs) : (s.modMaster c f).transit = s.transit := rfl
@[simp] theorem State.modMaster_debits (c : Nat) (f : MasterRegs → MasterRegs) : (s.modMaster c f).debits = s.debits := rfl
@[simp] theorem State.modMaster_reports (c : Nat) (f : MasterRegs → MasterRegs) : (s.modMaster c f).reports = s.reports := rfl
@[simp] theorem State.modMaster_ecost (c : Nat) (f : MasterRegs → MasterRegs) : (s.modMaster c f).ecost = s.ecost := rfl
@[simp] theorem State.modMaster_owner (c : Nat) (f : MasterRegs → MasterRegs) : (s.modMaster c f).owner = s.owner := rfl
@[simp] theorem State.modMaster_peers (c : Nat) (f : MasterRegs → MasterRegs) : (s.modMaster c f).peers = s.peers := rfl
@[simp] theorem State.modMaster_security (c : Nat) (f : MasterRegs → MasterRegs) : (s.modMaster c f).security = s.security := rfl
@[simp] theorem State.modMaster_boot (c : Nat) (f : MasterRegs → MasterRegs) : (s.modMaster c f).boot = s.boot := rfl
@[simp] theorem State.modMaster_leaf (c : Nat) (f : MasterRegs → MasterRegs) : (s.modMaster c f).leaf = s.leaf := rfl
@[simp] theorem State.modMaster_ownerKey (c : Nat) (f : MasterRegs → MasterRegs) : (s.modMaster c f).ownerKey = s.ownerKey := rfl
@[simp] theorem State.modMaster_ownerKek (c : Nat) (f : MasterRegs → MasterRegs) : (s.modMaster c f).ownerKek = s.ownerKek := rfl
@[simp] theorem State.modMaster_meas (c : Nat) (f : MasterRegs → MasterRegs) : (s.modMaster c f).meas = s.meas := rfl
@[simp] theorem State.modMaster_flash (c : Nat) (f : MasterRegs → MasterRegs) : (s.modMaster c f).flash = s.flash := rfl
@[simp] theorem State.modMaster_fuse (c : Nat) (f : MasterRegs → MasterRegs) : (s.modMaster c f).fuse = s.fuse := rfl
@[simp] theorem State.modMaster_released (c : Nat) (f : MasterRegs → MasterRegs) : (s.modMaster c f).released = s.released := rfl
@[simp] theorem State.modMaster_recovery (c : Nat) (f : MasterRegs → MasterRegs) : (s.modMaster c f).recovery = s.recovery := rfl
@[simp] theorem State.modMaster_secver (c : Nat) (f : MasterRegs → MasterRegs) : (s.modMaster c f).secver = s.secver := rfl
@[simp] theorem State.modMaster_cfgRecords (c : Nat) (f : MasterRegs → MasterRegs) : (s.modMaster c f).cfgRecords = s.cfgRecords := rfl
@[simp] theorem State.modMaster_serial (c : Nat) (f : MasterRegs → MasterRegs) : (s.modMaster c f).serial = s.serial := rfl
@[simp] theorem State.modMaster_tracek (c : Nat) (f : MasterRegs → MasterRegs) : (s.modMaster c f).tracek = s.tracek := rfl
@[simp] theorem State.modMaster_linkcfg (c : Nat) (f : MasterRegs → MasterRegs) : (s.modMaster c f).linkcfg = s.linkcfg := rfl
@[simp] theorem State.modMaster_summaries (c : Nat) (f : MasterRegs → MasterRegs) : (s.modMaster c f).summaries = s.summaries := rfl

/-! ### modPeer -/

@[simp] theorem State.modPeer_turns (c : Nat) (f : Peer → Peer) : (s.modPeer c f).turns = s.turns := rfl
@[simp] theorem State.modPeer_cur (c : Nat) (f : Peer → Peer) : (s.modPeer c f).cur = s.cur := rfl
@[simp] theorem State.modPeer_free (c : Nat) (f : Peer → Peer) : (s.modPeer c f).free = s.free := rfl
@[simp] theorem State.modPeer_fresh (c : Nat) (f : Peer → Peer) : (s.modPeer c f).fresh = s.fresh := rfl
@[simp] theorem State.modPeer_time (c : Nat) (f : Peer → Peer) : (s.modPeer c f).time = s.time := rfl
@[simp] theorem State.modPeer_powered (c : Nat) (f : Peer → Peer) : (s.modPeer c f).powered = s.powered := rfl
@[simp] theorem State.modPeer_hbm (c : Nat) (f : Peer → Peer) : (s.modPeer c f).hbm = s.hbm := rfl
@[simp] theorem State.modPeer_tags (c : Nat) (f : Peer → Peer) : (s.modPeer c f).tags = s.tags := rfl
@[simp] theorem State.modPeer_l2 (c : Nat) (f : Peer → Peer) : (s.modPeer c f).l2 = s.l2 := rfl
@[simp] theorem State.modPeer_l2comp (c : Nat) (f : Peer → Peer) : (s.modPeer c f).l2comp = s.l2comp := rfl
@[simp] theorem State.modPeer_l2shadow (c : Nat) (f : Peer → Peer) : (s.modPeer c f).l2shadow = s.l2shadow := rfl
@[simp] theorem State.modPeer_unmirrored (c : Nat) (f : Peer → Peer) : (s.modPeer c f).unmirrored = s.unmirrored := rfl
@[simp] theorem State.modPeer_shadowTag (c : Nat) (f : Peer → Peer) : (s.modPeer c f).shadowTag = s.shadowTag := rfl
@[simp] theorem State.modPeer_held (c : Nat) (f : Peer → Peer) : (s.modPeer c f).held = s.held := rfl
@[simp] theorem State.modPeer_refresh (c : Nat) (f : Peer → Peer) : (s.modPeer c f).refresh = s.refresh := rfl
@[simp] theorem State.modPeer_cores (c : Nat) (f : Peer → Peer) : (s.modPeer c f).cores = s.cores := rfl
@[simp] theorem State.modPeer_motifs (c : Nat) (f : Peer → Peer) : (s.modPeer c f).motifs = s.motifs := rfl
@[simp] theorem State.modPeer_parts (c : Nat) (f : Peer → Peer) : (s.modPeer c f).parts = s.parts := rfl
@[simp] theorem State.modPeer_launches (c : Nat) (f : Peer → Peer) : (s.modPeer c f).launches = s.launches := rfl
@[simp] theorem State.modPeer_saved (c : Nat) (f : Peer → Peer) : (s.modPeer c f).saved = s.saved := rfl
@[simp] theorem State.modPeer_engines (c : Nat) (f : Peer → Peer) : (s.modPeer c f).engines = s.engines := rfl
@[simp] theorem State.modPeer_channels (c : Nat) (f : Peer → Peer) : (s.modPeer c f).channels = s.channels := rfl
@[simp] theorem State.modPeer_postsDue (c : Nat) (f : Peer → Peer) : (s.modPeer c f).postsDue = s.postsDue := rfl
@[simp] theorem State.modPeer_transit (c : Nat) (f : Peer → Peer) : (s.modPeer c f).transit = s.transit := rfl
@[simp] theorem State.modPeer_debits (c : Nat) (f : Peer → Peer) : (s.modPeer c f).debits = s.debits := rfl
@[simp] theorem State.modPeer_reports (c : Nat) (f : Peer → Peer) : (s.modPeer c f).reports = s.reports := rfl
@[simp] theorem State.modPeer_ecost (c : Nat) (f : Peer → Peer) : (s.modPeer c f).ecost = s.ecost := rfl
@[simp] theorem State.modPeer_owner (c : Nat) (f : Peer → Peer) : (s.modPeer c f).owner = s.owner := rfl
@[simp] theorem State.modPeer_masters (c : Nat) (f : Peer → Peer) : (s.modPeer c f).masters = s.masters := rfl
@[simp] theorem State.modPeer_security (c : Nat) (f : Peer → Peer) : (s.modPeer c f).security = s.security := rfl
@[simp] theorem State.modPeer_boot (c : Nat) (f : Peer → Peer) : (s.modPeer c f).boot = s.boot := rfl
@[simp] theorem State.modPeer_leaf (c : Nat) (f : Peer → Peer) : (s.modPeer c f).leaf = s.leaf := rfl
@[simp] theorem State.modPeer_ownerKey (c : Nat) (f : Peer → Peer) : (s.modPeer c f).ownerKey = s.ownerKey := rfl
@[simp] theorem State.modPeer_ownerKek (c : Nat) (f : Peer → Peer) : (s.modPeer c f).ownerKek = s.ownerKek := rfl
@[simp] theorem State.modPeer_meas (c : Nat) (f : Peer → Peer) : (s.modPeer c f).meas = s.meas := rfl
@[simp] theorem State.modPeer_flash (c : Nat) (f : Peer → Peer) : (s.modPeer c f).flash = s.flash := rfl
@[simp] theorem State.modPeer_fuse (c : Nat) (f : Peer → Peer) : (s.modPeer c f).fuse = s.fuse := rfl
@[simp] theorem State.modPeer_released (c : Nat) (f : Peer → Peer) : (s.modPeer c f).released = s.released := rfl
@[simp] theorem State.modPeer_recovery (c : Nat) (f : Peer → Peer) : (s.modPeer c f).recovery = s.recovery := rfl
@[simp] theorem State.modPeer_secver (c : Nat) (f : Peer → Peer) : (s.modPeer c f).secver = s.secver := rfl
@[simp] theorem State.modPeer_cfgRecords (c : Nat) (f : Peer → Peer) : (s.modPeer c f).cfgRecords = s.cfgRecords := rfl
@[simp] theorem State.modPeer_serial (c : Nat) (f : Peer → Peer) : (s.modPeer c f).serial = s.serial := rfl
@[simp] theorem State.modPeer_tracek (c : Nat) (f : Peer → Peer) : (s.modPeer c f).tracek = s.tracek := rfl
@[simp] theorem State.modPeer_linkcfg (c : Nat) (f : Peer → Peer) : (s.modPeer c f).linkcfg = s.linkcfg := rfl
@[simp] theorem State.modPeer_summaries (c : Nat) (f : Peer → Peer) : (s.modPeer c f).summaries = s.summaries := rfl

/-! ### modChannel -/

@[simp] theorem State.modChannel_turns (c : Nat) (f : Channel → Channel) : (s.modChannel c f).turns = s.turns := rfl
@[simp] theorem State.modChannel_cur (c : Nat) (f : Channel → Channel) : (s.modChannel c f).cur = s.cur := rfl
@[simp] theorem State.modChannel_free (c : Nat) (f : Channel → Channel) : (s.modChannel c f).free = s.free := rfl
@[simp] theorem State.modChannel_fresh (c : Nat) (f : Channel → Channel) : (s.modChannel c f).fresh = s.fresh := rfl
@[simp] theorem State.modChannel_time (c : Nat) (f : Channel → Channel) : (s.modChannel c f).time = s.time := rfl
@[simp] theorem State.modChannel_powered (c : Nat) (f : Channel → Channel) : (s.modChannel c f).powered = s.powered := rfl
@[simp] theorem State.modChannel_hbm (c : Nat) (f : Channel → Channel) : (s.modChannel c f).hbm = s.hbm := rfl
@[simp] theorem State.modChannel_tags (c : Nat) (f : Channel → Channel) : (s.modChannel c f).tags = s.tags := rfl
@[simp] theorem State.modChannel_l2 (c : Nat) (f : Channel → Channel) : (s.modChannel c f).l2 = s.l2 := rfl
@[simp] theorem State.modChannel_l2comp (c : Nat) (f : Channel → Channel) : (s.modChannel c f).l2comp = s.l2comp := rfl
@[simp] theorem State.modChannel_l2shadow (c : Nat) (f : Channel → Channel) : (s.modChannel c f).l2shadow = s.l2shadow := rfl
@[simp] theorem State.modChannel_unmirrored (c : Nat) (f : Channel → Channel) : (s.modChannel c f).unmirrored = s.unmirrored := rfl
@[simp] theorem State.modChannel_shadowTag (c : Nat) (f : Channel → Channel) : (s.modChannel c f).shadowTag = s.shadowTag := rfl
@[simp] theorem State.modChannel_held (c : Nat) (f : Channel → Channel) : (s.modChannel c f).held = s.held := rfl
@[simp] theorem State.modChannel_refresh (c : Nat) (f : Channel → Channel) : (s.modChannel c f).refresh = s.refresh := rfl
@[simp] theorem State.modChannel_cores (c : Nat) (f : Channel → Channel) : (s.modChannel c f).cores = s.cores := rfl
@[simp] theorem State.modChannel_motifs (c : Nat) (f : Channel → Channel) : (s.modChannel c f).motifs = s.motifs := rfl
@[simp] theorem State.modChannel_parts (c : Nat) (f : Channel → Channel) : (s.modChannel c f).parts = s.parts := rfl
@[simp] theorem State.modChannel_launches (c : Nat) (f : Channel → Channel) : (s.modChannel c f).launches = s.launches := rfl
@[simp] theorem State.modChannel_saved (c : Nat) (f : Channel → Channel) : (s.modChannel c f).saved = s.saved := rfl
@[simp] theorem State.modChannel_engines (c : Nat) (f : Channel → Channel) : (s.modChannel c f).engines = s.engines := rfl
@[simp] theorem State.modChannel_postsDue (c : Nat) (f : Channel → Channel) : (s.modChannel c f).postsDue = s.postsDue := rfl
@[simp] theorem State.modChannel_transit (c : Nat) (f : Channel → Channel) : (s.modChannel c f).transit = s.transit := rfl
@[simp] theorem State.modChannel_debits (c : Nat) (f : Channel → Channel) : (s.modChannel c f).debits = s.debits := rfl
@[simp] theorem State.modChannel_reports (c : Nat) (f : Channel → Channel) : (s.modChannel c f).reports = s.reports := rfl
@[simp] theorem State.modChannel_ecost (c : Nat) (f : Channel → Channel) : (s.modChannel c f).ecost = s.ecost := rfl
@[simp] theorem State.modChannel_owner (c : Nat) (f : Channel → Channel) : (s.modChannel c f).owner = s.owner := rfl
@[simp] theorem State.modChannel_masters (c : Nat) (f : Channel → Channel) : (s.modChannel c f).masters = s.masters := rfl
@[simp] theorem State.modChannel_peers (c : Nat) (f : Channel → Channel) : (s.modChannel c f).peers = s.peers := rfl
@[simp] theorem State.modChannel_security (c : Nat) (f : Channel → Channel) : (s.modChannel c f).security = s.security := rfl
@[simp] theorem State.modChannel_boot (c : Nat) (f : Channel → Channel) : (s.modChannel c f).boot = s.boot := rfl
@[simp] theorem State.modChannel_leaf (c : Nat) (f : Channel → Channel) : (s.modChannel c f).leaf = s.leaf := rfl
@[simp] theorem State.modChannel_ownerKey (c : Nat) (f : Channel → Channel) : (s.modChannel c f).ownerKey = s.ownerKey := rfl
@[simp] theorem State.modChannel_ownerKek (c : Nat) (f : Channel → Channel) : (s.modChannel c f).ownerKek = s.ownerKek := rfl
@[simp] theorem State.modChannel_meas (c : Nat) (f : Channel → Channel) : (s.modChannel c f).meas = s.meas := rfl
@[simp] theorem State.modChannel_flash (c : Nat) (f : Channel → Channel) : (s.modChannel c f).flash = s.flash := rfl
@[simp] theorem State.modChannel_fuse (c : Nat) (f : Channel → Channel) : (s.modChannel c f).fuse = s.fuse := rfl
@[simp] theorem State.modChannel_released (c : Nat) (f : Channel → Channel) : (s.modChannel c f).released = s.released := rfl
@[simp] theorem State.modChannel_recovery (c : Nat) (f : Channel → Channel) : (s.modChannel c f).recovery = s.recovery := rfl
@[simp] theorem State.modChannel_secver (c : Nat) (f : Channel → Channel) : (s.modChannel c f).secver = s.secver := rfl
@[simp] theorem State.modChannel_cfgRecords (c : Nat) (f : Channel → Channel) : (s.modChannel c f).cfgRecords = s.cfgRecords := rfl
@[simp] theorem State.modChannel_serial (c : Nat) (f : Channel → Channel) : (s.modChannel c f).serial = s.serial := rfl
@[simp] theorem State.modChannel_tracek (c : Nat) (f : Channel → Channel) : (s.modChannel c f).tracek = s.tracek := rfl
@[simp] theorem State.modChannel_linkcfg (c : Nat) (f : Channel → Channel) : (s.modChannel c f).linkcfg = s.linkcfg := rfl
@[simp] theorem State.modChannel_summaries (c : Nat) (f : Channel → Channel) : (s.modChannel c f).summaries = s.summaries := rfl

/-! ### modEngine -/

@[simp] theorem State.modEngine_turns (c : Nat) (f : Engine → Engine) : (s.modEngine c f).turns = s.turns := rfl
@[simp] theorem State.modEngine_cur (c : Nat) (f : Engine → Engine) : (s.modEngine c f).cur = s.cur := rfl
@[simp] theorem State.modEngine_free (c : Nat) (f : Engine → Engine) : (s.modEngine c f).free = s.free := rfl
@[simp] theorem State.modEngine_fresh (c : Nat) (f : Engine → Engine) : (s.modEngine c f).fresh = s.fresh := rfl
@[simp] theorem State.modEngine_time (c : Nat) (f : Engine → Engine) : (s.modEngine c f).time = s.time := rfl
@[simp] theorem State.modEngine_powered (c : Nat) (f : Engine → Engine) : (s.modEngine c f).powered = s.powered := rfl
@[simp] theorem State.modEngine_hbm (c : Nat) (f : Engine → Engine) : (s.modEngine c f).hbm = s.hbm := rfl
@[simp] theorem State.modEngine_tags (c : Nat) (f : Engine → Engine) : (s.modEngine c f).tags = s.tags := rfl
@[simp] theorem State.modEngine_l2 (c : Nat) (f : Engine → Engine) : (s.modEngine c f).l2 = s.l2 := rfl
@[simp] theorem State.modEngine_l2comp (c : Nat) (f : Engine → Engine) : (s.modEngine c f).l2comp = s.l2comp := rfl
@[simp] theorem State.modEngine_l2shadow (c : Nat) (f : Engine → Engine) : (s.modEngine c f).l2shadow = s.l2shadow := rfl
@[simp] theorem State.modEngine_unmirrored (c : Nat) (f : Engine → Engine) : (s.modEngine c f).unmirrored = s.unmirrored := rfl
@[simp] theorem State.modEngine_shadowTag (c : Nat) (f : Engine → Engine) : (s.modEngine c f).shadowTag = s.shadowTag := rfl
@[simp] theorem State.modEngine_held (c : Nat) (f : Engine → Engine) : (s.modEngine c f).held = s.held := rfl
@[simp] theorem State.modEngine_refresh (c : Nat) (f : Engine → Engine) : (s.modEngine c f).refresh = s.refresh := rfl
@[simp] theorem State.modEngine_cores (c : Nat) (f : Engine → Engine) : (s.modEngine c f).cores = s.cores := rfl
@[simp] theorem State.modEngine_motifs (c : Nat) (f : Engine → Engine) : (s.modEngine c f).motifs = s.motifs := rfl
@[simp] theorem State.modEngine_parts (c : Nat) (f : Engine → Engine) : (s.modEngine c f).parts = s.parts := rfl
@[simp] theorem State.modEngine_launches (c : Nat) (f : Engine → Engine) : (s.modEngine c f).launches = s.launches := rfl
@[simp] theorem State.modEngine_saved (c : Nat) (f : Engine → Engine) : (s.modEngine c f).saved = s.saved := rfl
@[simp] theorem State.modEngine_channels (c : Nat) (f : Engine → Engine) : (s.modEngine c f).channels = s.channels := rfl
@[simp] theorem State.modEngine_postsDue (c : Nat) (f : Engine → Engine) : (s.modEngine c f).postsDue = s.postsDue := rfl
@[simp] theorem State.modEngine_transit (c : Nat) (f : Engine → Engine) : (s.modEngine c f).transit = s.transit := rfl
@[simp] theorem State.modEngine_debits (c : Nat) (f : Engine → Engine) : (s.modEngine c f).debits = s.debits := rfl
@[simp] theorem State.modEngine_reports (c : Nat) (f : Engine → Engine) : (s.modEngine c f).reports = s.reports := rfl
@[simp] theorem State.modEngine_ecost (c : Nat) (f : Engine → Engine) : (s.modEngine c f).ecost = s.ecost := rfl
@[simp] theorem State.modEngine_owner (c : Nat) (f : Engine → Engine) : (s.modEngine c f).owner = s.owner := rfl
@[simp] theorem State.modEngine_masters (c : Nat) (f : Engine → Engine) : (s.modEngine c f).masters = s.masters := rfl
@[simp] theorem State.modEngine_peers (c : Nat) (f : Engine → Engine) : (s.modEngine c f).peers = s.peers := rfl
@[simp] theorem State.modEngine_security (c : Nat) (f : Engine → Engine) : (s.modEngine c f).security = s.security := rfl
@[simp] theorem State.modEngine_boot (c : Nat) (f : Engine → Engine) : (s.modEngine c f).boot = s.boot := rfl
@[simp] theorem State.modEngine_leaf (c : Nat) (f : Engine → Engine) : (s.modEngine c f).leaf = s.leaf := rfl
@[simp] theorem State.modEngine_ownerKey (c : Nat) (f : Engine → Engine) : (s.modEngine c f).ownerKey = s.ownerKey := rfl
@[simp] theorem State.modEngine_ownerKek (c : Nat) (f : Engine → Engine) : (s.modEngine c f).ownerKek = s.ownerKek := rfl
@[simp] theorem State.modEngine_meas (c : Nat) (f : Engine → Engine) : (s.modEngine c f).meas = s.meas := rfl
@[simp] theorem State.modEngine_flash (c : Nat) (f : Engine → Engine) : (s.modEngine c f).flash = s.flash := rfl
@[simp] theorem State.modEngine_fuse (c : Nat) (f : Engine → Engine) : (s.modEngine c f).fuse = s.fuse := rfl
@[simp] theorem State.modEngine_released (c : Nat) (f : Engine → Engine) : (s.modEngine c f).released = s.released := rfl
@[simp] theorem State.modEngine_recovery (c : Nat) (f : Engine → Engine) : (s.modEngine c f).recovery = s.recovery := rfl
@[simp] theorem State.modEngine_secver (c : Nat) (f : Engine → Engine) : (s.modEngine c f).secver = s.secver := rfl
@[simp] theorem State.modEngine_cfgRecords (c : Nat) (f : Engine → Engine) : (s.modEngine c f).cfgRecords = s.cfgRecords := rfl
@[simp] theorem State.modEngine_serial (c : Nat) (f : Engine → Engine) : (s.modEngine c f).serial = s.serial := rfl
@[simp] theorem State.modEngine_tracek (c : Nat) (f : Engine → Engine) : (s.modEngine c f).tracek = s.tracek := rfl
@[simp] theorem State.modEngine_linkcfg (c : Nat) (f : Engine → Engine) : (s.modEngine c f).linkcfg = s.linkcfg := rfl
@[simp] theorem State.modEngine_summaries (c : Nat) (f : Engine → Engine) : (s.modEngine c f).summaries = s.summaries := rfl

/-! ### modLaunch -/

@[simp] theorem State.modLaunch_turns (c : Nat) (f : Launch → Launch) : (s.modLaunch c f).turns = s.turns := rfl
@[simp] theorem State.modLaunch_cur (c : Nat) (f : Launch → Launch) : (s.modLaunch c f).cur = s.cur := rfl
@[simp] theorem State.modLaunch_free (c : Nat) (f : Launch → Launch) : (s.modLaunch c f).free = s.free := rfl
@[simp] theorem State.modLaunch_fresh (c : Nat) (f : Launch → Launch) : (s.modLaunch c f).fresh = s.fresh := rfl
@[simp] theorem State.modLaunch_time (c : Nat) (f : Launch → Launch) : (s.modLaunch c f).time = s.time := rfl
@[simp] theorem State.modLaunch_powered (c : Nat) (f : Launch → Launch) : (s.modLaunch c f).powered = s.powered := rfl
@[simp] theorem State.modLaunch_hbm (c : Nat) (f : Launch → Launch) : (s.modLaunch c f).hbm = s.hbm := rfl
@[simp] theorem State.modLaunch_tags (c : Nat) (f : Launch → Launch) : (s.modLaunch c f).tags = s.tags := rfl
@[simp] theorem State.modLaunch_l2 (c : Nat) (f : Launch → Launch) : (s.modLaunch c f).l2 = s.l2 := rfl
@[simp] theorem State.modLaunch_l2comp (c : Nat) (f : Launch → Launch) : (s.modLaunch c f).l2comp = s.l2comp := rfl
@[simp] theorem State.modLaunch_l2shadow (c : Nat) (f : Launch → Launch) : (s.modLaunch c f).l2shadow = s.l2shadow := rfl
@[simp] theorem State.modLaunch_unmirrored (c : Nat) (f : Launch → Launch) : (s.modLaunch c f).unmirrored = s.unmirrored := rfl
@[simp] theorem State.modLaunch_shadowTag (c : Nat) (f : Launch → Launch) : (s.modLaunch c f).shadowTag = s.shadowTag := rfl
@[simp] theorem State.modLaunch_held (c : Nat) (f : Launch → Launch) : (s.modLaunch c f).held = s.held := rfl
@[simp] theorem State.modLaunch_refresh (c : Nat) (f : Launch → Launch) : (s.modLaunch c f).refresh = s.refresh := rfl
@[simp] theorem State.modLaunch_cores (c : Nat) (f : Launch → Launch) : (s.modLaunch c f).cores = s.cores := rfl
@[simp] theorem State.modLaunch_motifs (c : Nat) (f : Launch → Launch) : (s.modLaunch c f).motifs = s.motifs := rfl
@[simp] theorem State.modLaunch_parts (c : Nat) (f : Launch → Launch) : (s.modLaunch c f).parts = s.parts := rfl
@[simp] theorem State.modLaunch_saved (c : Nat) (f : Launch → Launch) : (s.modLaunch c f).saved = s.saved := rfl
@[simp] theorem State.modLaunch_engines (c : Nat) (f : Launch → Launch) : (s.modLaunch c f).engines = s.engines := rfl
@[simp] theorem State.modLaunch_channels (c : Nat) (f : Launch → Launch) : (s.modLaunch c f).channels = s.channels := rfl
@[simp] theorem State.modLaunch_postsDue (c : Nat) (f : Launch → Launch) : (s.modLaunch c f).postsDue = s.postsDue := rfl
@[simp] theorem State.modLaunch_transit (c : Nat) (f : Launch → Launch) : (s.modLaunch c f).transit = s.transit := rfl
@[simp] theorem State.modLaunch_debits (c : Nat) (f : Launch → Launch) : (s.modLaunch c f).debits = s.debits := rfl
@[simp] theorem State.modLaunch_reports (c : Nat) (f : Launch → Launch) : (s.modLaunch c f).reports = s.reports := rfl
@[simp] theorem State.modLaunch_ecost (c : Nat) (f : Launch → Launch) : (s.modLaunch c f).ecost = s.ecost := rfl
@[simp] theorem State.modLaunch_owner (c : Nat) (f : Launch → Launch) : (s.modLaunch c f).owner = s.owner := rfl
@[simp] theorem State.modLaunch_masters (c : Nat) (f : Launch → Launch) : (s.modLaunch c f).masters = s.masters := rfl
@[simp] theorem State.modLaunch_peers (c : Nat) (f : Launch → Launch) : (s.modLaunch c f).peers = s.peers := rfl
@[simp] theorem State.modLaunch_security (c : Nat) (f : Launch → Launch) : (s.modLaunch c f).security = s.security := rfl
@[simp] theorem State.modLaunch_boot (c : Nat) (f : Launch → Launch) : (s.modLaunch c f).boot = s.boot := rfl
@[simp] theorem State.modLaunch_leaf (c : Nat) (f : Launch → Launch) : (s.modLaunch c f).leaf = s.leaf := rfl
@[simp] theorem State.modLaunch_ownerKey (c : Nat) (f : Launch → Launch) : (s.modLaunch c f).ownerKey = s.ownerKey := rfl
@[simp] theorem State.modLaunch_ownerKek (c : Nat) (f : Launch → Launch) : (s.modLaunch c f).ownerKek = s.ownerKek := rfl
@[simp] theorem State.modLaunch_meas (c : Nat) (f : Launch → Launch) : (s.modLaunch c f).meas = s.meas := rfl
@[simp] theorem State.modLaunch_flash (c : Nat) (f : Launch → Launch) : (s.modLaunch c f).flash = s.flash := rfl
@[simp] theorem State.modLaunch_fuse (c : Nat) (f : Launch → Launch) : (s.modLaunch c f).fuse = s.fuse := rfl
@[simp] theorem State.modLaunch_released (c : Nat) (f : Launch → Launch) : (s.modLaunch c f).released = s.released := rfl
@[simp] theorem State.modLaunch_recovery (c : Nat) (f : Launch → Launch) : (s.modLaunch c f).recovery = s.recovery := rfl
@[simp] theorem State.modLaunch_secver (c : Nat) (f : Launch → Launch) : (s.modLaunch c f).secver = s.secver := rfl
@[simp] theorem State.modLaunch_cfgRecords (c : Nat) (f : Launch → Launch) : (s.modLaunch c f).cfgRecords = s.cfgRecords := rfl
@[simp] theorem State.modLaunch_serial (c : Nat) (f : Launch → Launch) : (s.modLaunch c f).serial = s.serial := rfl
@[simp] theorem State.modLaunch_tracek (c : Nat) (f : Launch → Launch) : (s.modLaunch c f).tracek = s.tracek := rfl
@[simp] theorem State.modLaunch_linkcfg (c : Nat) (f : Launch → Launch) : (s.modLaunch c f).linkcfg = s.linkcfg := rfl
@[simp] theorem State.modLaunch_summaries (c : Nat) (f : Launch → Launch) : (s.modLaunch c f).summaries = s.summaries := rfl

/-! ## What the parts read after an update -/

theorem State.core_setCore (c d : Nat) (x : Core) : (s.setCore c x).core d = if d = c then x else s.core d := by
  simp [State.core, State.setCore, mget_mset]

theorem State.core_modCore (c d : Nat) (f : Core → Core) :
    (s.modCore c f).core d = if d = c then f (s.core c) else s.core d := by
  simp [State.modCore, State.core_setCore]

@[simp] theorem State.core_modCore_self (c : Nat) (f : Core → Core) : (s.modCore c f).core c = f (s.core c) := by
  simp [State.core_modCore]

theorem State.core_modSt (c d : Nat) (f : CoreSt → CoreSt) :
    (s.modSt c f).core d = if d = c then { s.core c with st := f (s.core c).st } else s.core d := by
  simp [State.modSt, State.core_modCore]

@[simp] theorem State.core_modSt_self (c : Nat) (f : CoreSt → CoreSt) :
    (s.modSt c f).core c = { s.core c with st := f (s.core c).st } := by
  simp [State.core_modSt]

theorem State.mfind_modCore_of_ne {c d : Nat} (f : Core → Core) (h : d ≠ c) :
    mfind (s.modCore c f).cores d = mfind s.cores d := by
  simp [State.modCore, State.setCore, mfind_mset, h]

theorem State.warp?_modWarp (c k d j : Nat) (f : Warp → Warp) :
    (s.modWarp c k f).warp? d j = if d = c ∧ j = k then (s.warp? d j).map f else s.warp? d j := by
  unfold State.warp? State.modWarp
  by_cases hd : d = c
  · subst hd
    by_cases hj : j = k <;> simp [mfind_mmod, hj]
  · simp [State.core_modSt, hd]

@[simp] theorem State.warp?_modCtx (c k d j : Nat) (f : Ctx → Ctx) : (s.modCtx c k f).warp? d j = s.warp? d j := by
  unfold State.warp? State.modCtx
  by_cases hd : d = c <;> simp [State.core_modSt, hd]

theorem State.ctx?_modCtx (c k d j : Nat) (f : Ctx → Ctx) :
    ((s.modCtx c k f).core d).st.ctx? j = if d = c ∧ j = k then ((s.core d).st.ctx? j).map f else (s.core d).st.ctx? j := by
  unfold CoreSt.ctx? State.modCtx
  by_cases hd : d = c
  · subst hd
    by_cases hj : j = k <;> simp [mfind_mmod, hj]
  · simp [State.core_modSt, hd]

@[simp] theorem State.ctx?_modWarp (c k d j : Nat) (f : Warp → Warp) :
    ((s.modWarp c k f).core d).st.ctx? j = (s.core d).st.ctx? j := by
  unfold CoreSt.ctx? State.modWarp
  by_cases hd : d = c <;> simp [State.core_modSt, hd]

theorem Warp.lane_modLane (w : Warp) (l j : Nat) (f : Lane → Lane) :
    (w.modLane l f).lane j = if j = l then f (w.lane l) else w.lane j := by
  simp [Warp.lane, Warp.modLane, mget_mset]

@[simp] theorem Warp.modLane_rest (w : Warp) (l : Nat) (f : Lane → Lane) :
    (w.modLane l f).s = w.s ∧ (w.modLane l f).m = w.m ∧ (w.modLane l f).pend = w.pend ∧ (w.modLane l f).nreg = w.nreg ∧
    (w.modLane l f).launch = w.launch ∧ (w.modLane l f).group = w.group ∧ (w.modLane l f).isGuest = w.isGuest ∧
    (w.modLane l f).stream = w.stream ∧ (w.modLane l f).posted = w.posted := ⟨rfl, rfl, rfl, rfl, rfl, rfl, rfl, rfl, rfl⟩

theorem State.curWarp_eq {w : Warp} (h : s.warp? s.cur.core s.cur.slot = some w) : s.curWarp = w := by
  simp [State.curWarp, h]

theorem State.curWarp_modCurWarp (f : Warp → Warp) (h : (s.warp? s.cur.core s.cur.slot).isSome = true) :
    (s.modCurWarp f).curWarp = f s.curWarp := by
  obtain ⟨w, hw⟩ := Option.isSome_iff_exists.mp h
  simp [State.curWarp, State.modCurWarp, State.warp?_modWarp, hw]

end Sys2Proof.Machine
end

