-- ==== Sys2Proof/Laws/Issue.lean ====
section
/-! SUPPORT. What the shared operations of an issue can do: the charge, the advance, the checks of masks and the S park
leave every register alone, and an instruction whose batch meets `performs` is performed by its active members. -/

namespace Sys2Proof.Machine

/-! ## Only the issuing warp -/

theorem OnlyWarp.cur {s t : State} (h : OnlyWarp s t) : t.cur = s.cur := by
  obtain ⟨_, _, _, _, rfl⟩ := h.rest
  rfl

theorem OnlyWarp.free {s t : State} (h : OnlyWarp s t) : t.free = s.free := by
  obtain ⟨_, _, _, _, rfl⟩ := h.rest
  rfl

/-- A step that touches no core. -/
theorem OnlyWarp.off (s : State) (n : Nat) (r : List (Nat × Nat × Nat × Bool)) (d : List (Nat × Nat × Nat)) :
    OnlyWarp s { s with fresh := n, reports := r, debits := d } := by
  constructor
  case rest => exact ⟨s.cores, n, r, d, rfl⟩
  case core => exact ⟨_, _, _, rfl⟩
  all_goals intros; rfl

theorem OnlyWarp.refl (s : State) : OnlyWarp s s := .off s s.fresh s.reports s.debits

theorem OnlyWarp.trans {s t u : State} (h : OnlyWarp s t) (k : OnlyWarp t u) : OnlyWarp s u := by
  have hc := h.cur
  constructor
  case others => exact fun c hn => (k.others c (hc ▸ hn)).trans (h.others c hn)
  case warps => exact fun i hn => hc ▸ (k.warps i (hc ▸ hn)).trans (hc ▸ h.warps i hn)
  case ctxs => exact fun i => (hc ▸ k.ctxs i).trans (h.ctxs i)
  case rest =>
    obtain ⟨_, _, _, _, e⟩ := h.rest
    obtain ⟨cs, fr, rep, deb, rfl⟩ := k.rest
    exact ⟨cs, fr, rep, deb, by rw [e]⟩
  case core =>
    obtain ⟨_, _, _, e⟩ := h.core
    obtain ⟨ws, cx, ev, e2⟩ := k.core
    rw [hc] at e2
    exact ⟨ws, cx, ev, by rw [e2, e]⟩

/-- A change of the issuing warp. -/
theorem OnlyWarp.modCurWarp (s : State) (f : Warp → Warp) : OnlyWarp s (s.modCurWarp f) := by
  refine ⟨⟨_, s.fresh, s.reports, s.debits, rfl⟩, fun c hn => ?_, ⟨mmod (s.core s.cur.core).st.warps s.cur.slot f, (s.core s.cur.core).st.ctxs, (s.core s.cur.core).evc, ?_⟩, fun k hn => ?_, fun k => ?_⟩
  · exact State.mfind_modCore_of_ne s _ hn
  · simp [State.modCurWarp, State.modWarp]
  · simp [State.modCurWarp, State.warp?_modWarp, hn]
  · simp [State.modCurWarp]

theorem OnlyWarp.fresh (s : State) (n : Nat) : OnlyWarp s { s with fresh := n } := .off s n s.reports s.debits

theorem OnlyWarp.reports (s : State) (r : List (Nat × Nat × Nat × Bool)) : OnlyWarp s { s with reports := r } := .off s s.fresh r s.debits

theorem OnlyWarp.debits (s : State) (d : List (Nat × Nat × Nat)) : OnlyWarp s { s with debits := d } := .off s s.fresh s.reports d

/-- A change of the energy account of a context of the issuing core. -/
theorem OnlyWarp.modCtx (s : State) (k : Nat) (f : Ctx → Ctx) (hf : ∀ c, (f c).account = c.account) :
    OnlyWarp s (s.modCtx s.cur.core k f) := by
  refine ⟨⟨_, s.fresh, s.reports, s.debits, rfl⟩, fun c hn => ?_, ⟨(s.core s.cur.core).st.warps, mmod (s.core s.cur.core).st.ctxs k f, (s.core s.cur.core).evc, ?_⟩, fun j hn => ?_, fun j => ?_⟩
  · exact State.mfind_modCore_of_ne s _ hn
  · simp [State.modCtx]
  · simp
  · rw [State.ctx?_modCtx]
    by_cases hj : j = k
    · cases (s.core s.cur.core).st.ctx? j <;> simp [hj, hf]
    · simp [hj]

theorem OnlyWarp.countEvent (s : State) (code n : Nat) : OnlyWarp s (countEvent s s.cur.core code n) := by
  refine ⟨⟨_, s.fresh, s.reports, s.debits, rfl⟩, fun c hn => State.mfind_modCore_of_ne s _ hn, ?_, fun k _ => ?_, fun k => ?_⟩
  · unfold Machine.countEvent
    rw [State.core_modCore_self]
    exact ⟨_, _, _, rfl⟩
  · unfold Machine.countEvent State.warp?
    rw [State.core_modCore_self]
  · unfold Machine.countEvent CoreSt.ctx?
    rw [State.core_modCore_self]

/-! ## Steps that leave every register alone -/

/-- A change of a lane's control state, which takes it to no fault and leaves what it holds. -/
structure Lane.Kept (x y : Lane) : Prop where
  rest : y.rest = x.rest
  regs : y.regs = x.regs
  poison : y.poison = x.poison
  preds : y.pw = x.pw
  sound : y.state = .faulted → x.state = .faulted

theorem Lane.Kept.refl (x : Lane) : x.Kept x := by
  constructor <;> first | rfl | exact id

/-- One that also leaves where the lane stands. -/
structure Lane.Held (x y : Lane) : Prop extends Lane.Kept x y where
  pc : y.pc = x.pc
  hints : y.hints = x.hints

theorem Calm.refl (s : State) : Calm s s := by
  constructor
  case out => exact .refl s
  case regs => exact fun _ => ⟨rfl, rfl, rfl⟩
  case masks => exact fun _ => .inl rfl
  case sound => exact fun _ => id
  all_goals intros; rfl

theorem Calm.trans {s t u : State} (h : Calm s t) (k : Calm t u) : Calm s u := by
  constructor
  case out => exact h.out.trans k.out
  case home => exact (h.out.cur ▸ k.home).trans h.home
  case warp => exact k.warp.trans h.warp
  case lanes => exact fun l => (k.lanes l).trans (h.lanes l)
  case pend => exact k.pend.trans h.pend
  case sound => exact fun l e => h.sound l (k.sound l e)
  case regs =>
    intro l
    have ⟨h1, h2, h3⟩ := h.regs l
    simpa only [h1, h2, h3] using k.regs l
  case masks =>
    intro i
    obtain e | e := k.masks i
    · rw [e]; exact h.masks i
    · exact .inr e

/-- A step that does not touch the issuing warp. -/
theorem Calm.ofWarp {s t : State} (h : OnlyWarp s t) (hq : t.warp? s.cur.core s.cur.slot = s.warp? s.cur.core s.cur.slot) :
    Calm s t := by
  have hw : t.curWarp = s.curWarp := by simp only [State.curWarp, h.cur, hq]
  exact ⟨h, by rw [hq], by rw [hw], fun l => by simp only [State.curLane, hw], fun l => by simp [State.curLane, hw], by rw [hw],
    fun _ => .inl (by rw [hw]), fun l => by simp [State.curLane, hw]⟩

/-- A change of the warp that keeps its rest, its pending results and what its lanes hold. -/
theorem Calm.modCurWarp (s : State) (f : Warp → Warp) (hr : ∀ w, (f w).rest = w.rest) (hp : ∀ w, (f w).pend = w.pend)
    (hm : ∀ w k, (f w).mask k = w.mask k ∨ (f w).mask k = 0)
    (hl : ∀ (w : Warp) l, (w.lane l).Kept ((f w).lane l)) : Calm s (s.modCurWarp f) := by
  cases h : s.warp? s.cur.core s.cur.slot with
  | none =>
    refine .ofWarp (.modCurWarp s f) ?_
    simp [State.modCurWarp, State.warp?_modWarp, h]
  | some w =>
    have hw := State.curWarp_modCurWarp s f (by simp [h])
    have hc : ∀ l, (s.curLane l).Kept ((s.modCurWarp f).curLane l) := by
      simp only [State.curLane, hw]
      exact hl _
    constructor
    case out => exact .modCurWarp s f
    case home => simp [State.modCurWarp, State.warp?_modWarp]
    case warp => rw [hw, hr]
    case pend => rw [hw, hp]
    case masks => rw [hw]; exact hm _
    case lanes => exact fun l => (hc l).rest
    case regs => exact fun l => ⟨(hc l).regs, (hc l).poison, (hc l).preds⟩
    case sound => exact fun l => (hc l).sound

/-- A change of control state of one lane. -/
theorem Calm.modCurLane (s : State) (l : Nat) (f : Lane → Lane)
    (hf : ∀ x : Lane, x.Kept (f x)) : Calm s (s.modCurLane l f) := by
  refine .modCurWarp s _ (fun _ => rfl) (fun _ => rfl) (fun _ _ => .inl rfl) (fun w j => ?_)
  rw [Warp.lane_modLane]
  split
  next h => exact h ▸ hf _
  next => exact .refl _

/-- A fold of calm steps. -/
theorem Calm.foldl {α : Type} (f : State → α → State) (hf : ∀ s a, Calm s (f s a)) (ls : List α) (s : State) :
    Calm s (ls.foldl f s) := by
  induction ls generalizing s with
  | nil => exact .refl s
  | cons a ls ih => exact (hf s a).trans (ih _)

/-- The same while the instruction in progress stays that of a first state. -/
theorem Calm.foldlCur {α : Type} (s0 : State) (f : State → α → State) (hf : ∀ s a, s.cur = s0.cur → Calm s (f s a))
    (ls : List α) (s : State) (h : s.cur = s0.cur) : Calm s (ls.foldl f s) := by
  induction ls generalizing s with
  | nil => exact .refl s
  | cons a ls ih => exact (hf s a h).trans (ih _ ((hf s a h).out.cur.trans h))

theorem Calm.fresh (s : State) (n : Nat) : Calm s { s with fresh := n } := .ofWarp (.fresh s n) rfl

theorem Calm.reports (s : State) (r : List (Nat × Nat × Nat × Bool)) : Calm s { s with reports := r } :=
  .ofWarp (.reports s r) rfl

theorem Calm.debits (s : State) (d : List (Nat × Nat × Nat)) : Calm s { s with debits := d } :=
  .ofWarp (.debits s d) rfl

theorem Calm.countEvent (s : State) (code n : Nat) : Calm s (countEvent s s.cur.core code n) := by
  refine .ofWarp (.countEvent s code n) ?_
  unfold Machine.countEvent State.warp?
  rw [State.core_modCore_self]

/-! ### The charge -/

theorem Calm.budgetReport (s : State) (k : Nat) : Calm s (budgetReport s s.cur.core k) := by
  unfold Machine.budgetReport
  cases (s.core s.cur.core).st.ctx? k with
  | none => exact .refl s
  | some c =>
    simp only
    split
    · exact .refl s
    · exact (Calm.ofWarp (.modCtx s k (fun x => { x with reported := meteringOff c || decide (0 < sint c.ebudget) }) (fun c => rfl))
        (by simp)).trans (Calm.reports _ _)

theorem Calm.debit (s : State) (k units : Nat) : Calm s (debit s s.cur.core k units) := by
  unfold Machine.debit
  refine Calm.trans (t := s.modCtx s.cur.core k _) (.ofWarp (.modCtx s k _ (fun c => ?_)) (by simp)) (.budgetReport _ k)
  by_cases h : meteringOff c <;> simp [h, Ctx.account]

theorem Calm.charge (s : State) (f : Form) (ms : List Nat) : Calm s (charge s f ms) := by
  unfold Machine.charge
  split
  · exact .refl s
  · refine Calm.trans (t := debitIssue s f (s.members.headD 0)) ?_ ?_
    rotate_left
    · apply Calm.foldl
      intro t l
      apply Calm.modCurLane
      exact fun x => { Lane.Kept.refl x with rest := rfl }
    unfold debitIssue
    cases (s.curWarp.lane (s.members.headD 0)).guest with
    | none => exact .debit s _ _
    | some g => exact .debits s _

theorem Calm.advance (s : State) (ms : List Nat) : Calm s (advance s ms) := by
  unfold Machine.advance
  apply Calm.foldl
  intro t l
  apply Calm.modCurLane
  exact fun x => { Lane.Kept.refl x with rest := rfl }

/-! ### Steps after which every lane stands where it stood -/

/-- A calm step that moves no program counter and no hint. -/
structure Still (s t : State) : Prop where
  calm : Calm s t
  place : ∀ l, (t.curLane l).pc = (s.curLane l).pc ∧ (t.curLane l).hints = (s.curLane l).hints

theorem Still.out {s t : State} (h : Still s t) : OnlyWarp s t := h.calm.out

theorem Still.refl (s : State) : Still s s := ⟨.refl s, fun _ => ⟨rfl, rfl⟩⟩

theorem Still.trans {s t u : State} (h : Still s t) (k : Still t u) : Still s u :=
  ⟨h.calm.trans k.calm, fun l => ⟨(k.place l).1.trans (h.place l).1, (k.place l).2.trans (h.place l).2⟩⟩

theorem Still.ofWarp {s t : State} (h : OnlyWarp s t) (hq : t.warp? s.cur.core s.cur.slot = s.warp? s.cur.core s.cur.slot) :
    Still s t := by
  have hw : t.curWarp = s.curWarp := by simp only [State.curWarp, h.cur, hq]
  exact ⟨.ofWarp h hq, fun l => by simp [State.curLane, hw]⟩

theorem Still.modCurWarp (s : State) (f : Warp → Warp) (hc : Calm s (s.modCurWarp f))
    (hl : ∀ w l, ((f w).lane l).pc = (w.lane l).pc ∧ ((f w).lane l).hints = (w.lane l).hints) : Still s (s.modCurWarp f) := by
  refine ⟨hc, fun l => ?_⟩
  cases h : s.warp? s.cur.core s.cur.slot with
  | none =>
    have : (s.modCurWarp f).curWarp = s.curWarp := by
      have : (s.modCurWarp f).warp? s.cur.core s.cur.slot = s.warp? s.cur.core s.cur.slot := by
        simp [State.modCurWarp, State.warp?_modWarp, h]
      simp only [State.curWarp, show (s.modCurWarp f).cur = s.cur from rfl, this]
    simp [State.curLane, this]
  | some w =>
    have hw := State.curWarp_modCurWarp s f (by simp [h])
    simp only [State.curLane, hw]
    exact hl _ l

theorem Still.modCurLane (s : State) (l : Nat) (f : Lane → Lane)
    (hf : ∀ x : Lane, x.Held (f x)) : Still s (s.modCurLane l f) := by
  refine .modCurWarp s _ (.modCurLane s l f (fun x => (hf x).toKept)) (fun w j => ?_)
  rw [Warp.lane_modLane]
  split
  next h => subst h; exact ⟨(hf _).pc, (hf _).hints⟩
  next => exact ⟨rfl, rfl⟩

theorem Still.foldlCur {α : Type} (s0 : State) (f : State → α → State) (hf : ∀ s a, s.cur = s0.cur → Still s (f s a))
    (ls : List α) (s : State) (h : s.cur = s0.cur) : Still s (ls.foldl f s) := by
  induction ls generalizing s with
  | nil => exact .refl s
  | cons a ls ih => exact (hf s a h).trans (ih _ ((hf s a h).out.cur.trans h))

theorem Still.fresh (s : State) (n : Nat) : Still s { s with fresh := n } := .ofWarp (.fresh s n) rfl

theorem Still.countEvent (s : State) (code n : Nat) : Still s (countEvent s s.cur.core code n) := by
  refine .ofWarp (.countEvent s code n) ?_
  unfold Machine.countEvent State.warp?
  rw [State.core_modCore_self]

/-! ### Parking and release -/

theorem Still.countParks (s : State) (n : Nat) : Still s (countParks s s.cur.core n) := by
  unfold Machine.countParks
  split
  · exact .refl s
  · exact .countEvent s 4 n

/-- S parks are counted and a fresh identity is taken; then each lane of a list changes its control state alone. -/
theorem Still.parks (s : State) (n m : Nat) (ls : List Nat) (f : Nat → Lane → Lane)
    (hf : ∀ l (x : Lane), x.Held (f l x)) :
    Still s (ls.foldl (fun t l => t.modLane s.cur.core s.cur.slot l (f l)) { Machine.countParks s s.cur.core n with fresh := m }) := by
  have hc := (Still.countParks s n).out.cur
  refine (Still.countParks s n).trans ((Still.fresh _ m).trans (.foldlCur s _ (fun t l ht => ?_) ls _ hc))
  rw [← ht]
  exact .modCurLane t l _ (hf l)

theorem Still.endPark (s : State) (ls : List Nat) : Still s (endPark s s.cur.core s.cur.slot ls) := by
  unfold Machine.endPark
  cases s.warp? s.cur.core s.cur.slot with
  | none => exact .refl s
  | some w =>
    refine .parks s _ _ ls _ (fun l x => ?_)
    split <;> constructor <;> first | rfl | constructor <;> first | rfl | simp [Lane.released]

theorem Still.releaseMask (s : State) (k : Nat) : Still s (releaseMask s s.cur.core s.cur.slot k) := by
  unfold Machine.releaseMask
  cases s.warp? s.cur.core s.cur.slot with
  | none => exact .refl s
  | some w =>
    simp only
    split
    · have hm : ∀ (w : Warp) j, mget (mset w.m k 0) j 0 = w.mask j ∨ mget (mset w.m k 0) j 0 = 0 := by
        intro w j
        rw [mget_mset, Warp.mask]
        split
        next => exact .inr rfl
        next => exact .inl rfl
      have hc : Calm s (s.modCurWarp (fun w => { w with m := mset w.m k 0 })) :=
        .modCurWarp s _ (fun _ => rfl) (fun _ => rfl) hm (fun w l => .refl (w.lane l))
      exact (Still.modCurWarp s _ hc (fun _ _ => ⟨rfl, rfl⟩)).trans (.endPark _ _)
    · exact .refl s

theorem Still.freeCleared (s : State) (k : Nat) : Still s (freeCleared s s.cur.core s.cur.slot k) := by
  unfold Machine.freeCleared
  cases s.warp? s.cur.core s.cur.slot with
  | none => exact .refl s
  | some w =>
    simp only
    split
    · exact .refl s
    · exact .endPark s _

/-- The release of masks, before any handler post. -/
theorem Still.releases (s : State) (ks : List Nat) :
    Still s (ks.foldl (fun t k => Machine.releaseMask (Machine.freeCleared t s.cur.core s.cur.slot k) s.cur.core s.cur.slot k) s) := by
  refine .foldlCur s _ (fun t k ht => ?_) ks s rfl
  rw [← ht]
  have h := Still.freeCleared t k
  have h2 := Still.releaseMask (Machine.freeCleared t t.cur.core t.cur.slot k) k
  rw [h.out.cur] at h2
  exact h.trans h2

/-- No lane of the issuing warp is FAULTED. -/
def Unfaulted (s : State) : Prop := ∀ l, l < 32 → (s.curLane l).state ≠ .faulted

theorem Unfaulted.step {s t : State} (h : Unfaulted s) (k : Calm s t) : Unfaulted t := fun l hl e => h l hl (k.sound l e)

theorem mem_upFrom (l n i : Nat) : l ∈ upFrom n i ↔ i ≤ l ∧ l < i + n := by
  induction n generalizing i with
  | zero => simp [upFrom]
  | succ n ih => simp only [upFrom, List.mem_cons, ih]; omega

theorem unfaulted_iff (s : State) : lanesIn s.curWarp (· == .faulted) = [] ↔ Unfaulted s := by
  unfold lanesIn Unfaulted
  simp only [List.filter_eq_nil_iff, mem_upFrom]
  constructor
  · intro h l hl e
    exact h l (by omega) (by simpa [State.curLane] using e)
  · intro h l hl e
    exact h l (by omega) (by simpa [State.curLane] using e)

theorem Unfaulted.noPost {s : State} (h : Unfaulted s) : postReason s.curWarp = none := by
  simp [postReason, (unfaulted_iff s).mpr h]

/-- The checks after a change post nothing while no lane is FAULTED. -/
theorem Still.settleWarp (s : State) (h : Unfaulted s) : Still s (settleWarp s s.cur.core s.cur.slot) := by
  have hr := Still.releases s (upFrom 12 0)
  unfold Machine.settleWarp
  simp only
  generalize hu : (upFrom 12 0).foldl (fun t k => Machine.releaseMask (Machine.freeCleared t s.cur.core s.cur.slot k) s.cur.core s.cur.slot k) s = u at hr ⊢
  cases hw : u.warp? s.cur.core s.cur.slot with
  | none => exact hr
  | some w =>
    have hc : u.curWarp = w := by
      rw [← hr.out.cur] at hw
      exact State.curWarp_eq u hw
    have hp := (h.step hr.calm).noPost
    rw [hc] at hp
    simpa [hp] using hr

theorem Still.sPark (s : State) (ms : List Nat) : Still s (sPark s s.cur.core s.cur.slot ms) := by
  unfold Machine.sPark
  cases s.warp? s.cur.core s.cur.slot with
  | none => exact .refl s
  | some w =>
    simp only
    split
    · refine .parks s _ _ _ _ (fun l x => ?_)
      repeat' split
      all_goals constructor <;> first | rfl | constructor <;> first | rfl | simp
    · exact .refl s

theorem raiseAll_nil (s : State) (f : Form) (lead : Nat) : raiseAll s f lead [] = s := by
  have : ∀ n i, ((upFrom n i).filterMap (fun _ => (none : Option (Nat × Flt)))) = [] := by
    intro n; induction n with
    | zero => intro i; rfl
    | succ n ih => intro i; simp [upFrom, ih]
  have h0 : sortFaults [] = [] := by simp [sortFaults, this]
  unfold raiseAll faultLanes
  rw [h0]
  cases s.warp? s.cur.core s.cur.slot <;> rfl

/-- The end of an issue without late faults. -/
theorem Still.finish (s : State) (f : Form) (lead : Nat) (ms : List Nat) (h : Unfaulted s) : Still s (finish s f lead ms []) := by
  unfold Machine.finish
  simp only [raiseAll_nil]
  split
  · exact .settleWarp s h
  · split
    · have k := Still.settleWarp s h
      have k2 := Still.sPark (Machine.settleWarp s s.cur.core s.cur.slot) ms
      rw [k.out.cur] at k2
      exact k.trans k2
    · have k := Still.sPark s ms
      have k2 := Still.settleWarp (Machine.sPark s s.cur.core s.cur.slot ms) (h.step k.calm)
      rw [k.out.cur] at k2
      exact k.trans k2

/-! ## An instruction is performed -/

/-- What `performs` says, part by part. -/
theorem performs_iff (f : Form) (s : State) : performs f s = true ↔
    s.cur.stream = false ∧ (s.warp? s.cur.core s.cur.slot).isSome = true ∧ (s.curWarp.isGuest = false ∨ f.guestOk = true) ∧
    (∀ l ∈ s.members, (s.curLane l).state = .ready ∧
      ((f.isSafe = true ∧ s.guard f.h l = true) ∨ (s.curLane l).counted = true ∨ (s.curLane l).safecnt + 1 + s.cur.hints.length ≤ 2048)) ∧
    lanesIn s.curWarp (· == .faulted) = [] ∧ s.active f.h ≠ [] ∧ hazOn s s.cur.core = false ∧ f.legal s = true ∧
    (∀ l ∈ s.active f.h, (∀ i ∈ f.srcs s, unpoisoned (s.curLane l) i = true) ∧
      ∀ i ∈ f.srcs s ++ f.lead ++ f.dst, guestLacks (s.curLane l) i = false) ∧
    (∀ i ∈ f.lead, unpoisoned (s.curLane ((s.active f.h).headD 0)) i = true) := by
  simp only [performs, Bool.and_eq_true, Bool.not_eq_true', Bool.or_eq_true, List.all_eq_true, List.isEmpty_iff,
    List.isEmpty_eq_false_iff, and_assoc, or_assoc, beq_iff_eq, decide_eq_true_eq, ne_eq]

theorem Unfaulted.ofPerforms {f : Form} {s : State} (h : performs f s = true) : Unfaulted s :=
  (unfaulted_iff s).mp ((performs_iff f s).mp h).2.2.2.2.1

/-- A lane whose sources are unpoisoned, and which lacks no register, meets no fault of its sources. -/
theorem srcFault_none {f : Form} {s : State} {l : Nat} (hz : hazOn s s.cur.core = false)
    (hp : ∀ i ∈ f.srcs s, unpoisoned (s.curLane l) i = true)
    (hg : ∀ i ∈ f.srcs s ++ f.lead ++ f.dst, guestLacks (s.curLane l) i = false) : srcFault s f l = none := by
  have h1 : (f.srcs s).find? (fun i => i != 0 && (mfind (s.curWarp.lane l).poison ((s.curWarp.lane l).wbase + i)).isSome) = none := by
    rw [List.find?_eq_none]
    intro i hi
    have h := hp i hi
    simp only [unpoisoned, State.curLane] at h
    cases hm : mfind (s.curWarp.lane l).poison ((s.curWarp.lane l).wbase + i) <;> simp_all
  have h2 : (f.srcs s ++ f.lead ++ f.dst).find? (guestLacks (s.curWarp.lane l)) = none := by
    rw [List.find?_eq_none]
    intro i hi
    have h := hg i hi
    rw [State.curLane] at h
    simp [h]
  simp only [srcFault, hz, Bool.false_eq_true, if_false, h1, h2]

/-- The same of the leader, with the registers that are read for it alone. -/
theorem leadSrc_none {f : Form} {s : State} {l : Nat} (hz : hazOn s s.cur.core = false)
    (h : (∀ i ∈ f.srcs s, unpoisoned (s.curLane l) i = true) ∧
      ∀ i ∈ f.srcs s ++ f.lead ++ f.dst, guestLacks (s.curLane l) i = false)
    (hlead : ∀ i ∈ f.lead, unpoisoned (s.curLane l) i = true) : srcFault s { f with src := f.src ++ f.lead } l = none := by
  have hmem : ∀ i, i ∈ ({ f with src := f.src ++ f.lead } : Form).srcs s → i ∈ f.srcs s ∨ i ∈ f.lead := by
    intro i hi
    simp only [Form.srcs, List.mem_append] at hi ⊢
    obtain (h1 | h1) | h1 := hi
    · exact .inl (.inl h1)
    · exact .inr h1
    · exact .inl (.inr h1)
  refine srcFault_none hz (fun i hi => (hmem i hi).elim (h.1 i) (hlead i)) (fun i hi => h.2 i ?_)
  simp only [List.mem_append] at hi ⊢
  obtain (hi | hi) | hi := hi
  · exact .inl ((hmem i hi).imp id id)
  · exact .inl (.inr hi)
  · exact .inr hi

/-- An instruction whose batch meets `performs`, and whose own checks find nothing, is performed by the active members. -/
theorem issue_performs {f : Form} {s : State} {a : Act} (hp : performs f s = true)
    (hq : persistWaits s f (s.active f.h) = false)
    (hw : a.wait (charge s f s.members) (s.active f.h) = none)
    (hc : a.check (charge s f s.members) (s.active f.h) = []) :
    issue f s a = .next
      (finish (a.run (advance (charge s f s.members) s.members) (s.active f.h)).1 f ((s.active f.h).headD 0) s.members
        (a.run (advance (charge s f s.members) s.members) (s.active f.h)).2) := by
  obtain ⟨hs, -, hg, hm, -, ha, hz, hl, hsrc, hlead⟩ := (performs_iff f s).mp hp
  have hgap : gapLanes s f = [] := by
    simp only [gapLanes, List.filter_eq_nil_iff]
    intro l hl'
    simp only [Bool.and_eq_true, Bool.not_eq_true', decide_eq_true_eq, not_and]
    intro hc hn
    obtain h | h | h := (hm l hl').2
    · simp [h.1, h.2] at hc
    · simp [h] at hc
    · omega
  have hgz : ∀ l, guardHazard s f l = false := by simp [guardHazard, hz]
  have hact : ∀ l ∈ s.active f.h, srcFault s f l = none := fun l hl' => srcFault_none hz (hsrc l hl').1 (hsrc l hl').2
  have hpre : preFaults s f s.members = [] := by
    have h1 : s.members.filter (fun l => guardHazard s f l || s.guard f.h l) = s.active f.h := by
      simp [hgz, State.active]
    have h2 : (s.active f.h).filter (guardHazard s f) = [] := by simp [hgz]
    have h3 : (s.active f.h).filter (fun l => !guardHazard s f l) = s.active f.h := by simp [hgz]
    have hgo : (s.curWarp.isGuest && !f.guestOk) = false := by obtain h | h := hg <;> simp [h]
    have heach : ∀ ls, (∀ l ∈ ls, l ∈ s.active f.h) → eachCheck (fun s l => srcFault s f l) s ls = [] := by
      intro ls hls
      unfold eachCheck
      rw [List.filterMap_eq_nil_iff]
      intro l hl'
      simp [hact l (hls l hl')]
    simp only [preFaults, h1, h2, h3, hl, hgo, List.map_nil, List.nil_append, Bool.not_true, Bool.false_eq_true, if_false]
    split
    · unfold leaderCheck
      split
      · rfl
      · rename_i l ls heq
        have hs := hact l (by rw [heq]; simp)
        simp [hs]
    · split
      · cases heq : s.active f.h with
        | nil => rfl
        | cons l ls =>
          have hlead' := leadSrc_none hz (hsrc l (by simp [heq])) (by simpa [heq] using hlead)
          simp only [leadFaults, hlead']
          exact heach ls (fun k hk => by simp [heq, hk])
      · exact heach _ (fun _ h => h)
  have hrest : s.members.filter (fun l => !(([] : List Nat).contains l)) = s.members := by simp
  have hwo : ∀ ls, without ls [] = ls := by simp [without]
  have hne : (s.active f.h).isEmpty = false := by simpa using ha
  have hac : s.members.filter (s.guard f.h) = s.active f.h := rfl
  have hld : (s.active f.h).filter (fun l => !guardHazard s f l) = s.active f.h := by simp [hgz]
  simp only [issue, hs, Bool.false_eq_true, if_false, issueBatch, hgap, hrest, hpre, hwo, hac, hld, hq, hne, hw, hc, List.map_nil,
    List.append_nil, List.nil_append]

end Sys2Proof.Machine
end

