-- ==== Sys2Proof/Laws/Effects.lean ====
section
/-! SUPPORT. What the effects of the common shapes do: an issue that meets `performs` is its effect on a calm state, a class-Z
effect writes its registers, a class-D effect leaves one pending result for each lane. -/

namespace Sys2Proof.Machine

/-! ## Reads after a calm change -/

theorem Calm.cur {s t : State} (h : Calm s t) : t.cur = s.cur := h.out.cur
theorem Calm.free {s t : State} (h : Calm s t) : t.free = s.free := h.out.free

theorem Calm.wbase {s t : State} (h : Calm s t) (l : Nat) : (t.curLane l).wbase = (s.curLane l).wbase := by
  have := congrArg Lane.wbase (h.lanes l); exact this

theorem Calm.stream {s t : State} (h : Calm s t) : t.curStream = s.curStream := by
  have := congrArg Warp.stream h.warp
  simp only [State.curStream]
  exact congrArg (fun x => Option.getD x _) this

theorem Calm.scalars {s t : State} (h : Calm s t) : t.curWarp.s = s.curWarp.s := by
  have := congrArg Warp.s h.warp; exact this

theorem Calm.g {s t : State} (h : Calm s t) (l i n : Nat) : t.g l i n = s.g l i n := by
  have hw := h.wbase l
  have hr := h.regs l
  simp only [State.curLane] at hw hr
  simp only [State.g, readG, h.cur, h.free, h.stream, h.pend, hw, hr.1]

theorem Calm.p {s t : State} (h : Calm s t) (l k n : Nat) : t.p l k n = s.p l k n := by
  have hr := h.regs l
  simp only [State.curLane] at hr
  simp only [State.p, readP, h.cur, h.free, h.pend, hr.2.2]

theorem Calm.gd {s t : State} (h : Calm s t) (l i n : Nat) : t.gd l i n = s.gd l i n := by simp only [State.gd, h.g]
theorem Calm.sr {s t : State} (h : Calm s t) (r n : Nat) : t.sr r n = s.sr r n := by
  simp only [State.sr, readS, h.cur, h.free, h.stream, h.pend, h.scalars]
theorem Calm.imm {s t : State} (h : Calm s t) : t.imm = s.imm := by simp only [State.imm, State.immxs, h.cur]
theorem Calm.gOrImm {s t : State} (h : Calm s t) (l i : Nat) : t.gOrImm l i = s.gOrImm l i := by simp only [State.gOrImm, h.imm, h.g]
theorem Calm.gThird {s t : State} (h : Calm s t) (l d : Nat) : t.gThird l d = s.gThird l d := by simp only [State.gThird, State.opnd, h.cur, h.g]

/-! ## The state after issue -/

theorem State.warp?_modCurWarp_isSome (s : State) (f : Warp → Warp) :
    ((s.modCurWarp f).warp? s.cur.core s.cur.slot).isSome = (s.warp? s.cur.core s.cur.slot).isSome := by
  simp only [State.modCurWarp, State.warp?_modWarp, and_self, if_true, Option.isSome_map]

theorem Home.modCurWarp {s : State} (h : Home s) (f : Warp → Warp) : Home (s.modCurWarp f) := by
  have := State.warp?_modCurWarp_isSome s f
  unfold Home at *
  exact this.trans h

theorem curLane_modCurLane {s : State} (h : Home s) (l j : Nat) (f : Lane → Lane) :
    (s.modCurLane l f).curLane j = if j = l then f (s.curLane l) else s.curLane j := by
  have := State.curWarp_modCurWarp s (fun w => w.modLane l f) h
  simp only [State.curLane]
  rw [show (s.modCurLane l f).curWarp = _ from this, Warp.lane_modLane]

/-- A fold over lanes leaves each lane of the list changed, if the change keeps what it makes. -/
theorem foldl_modCurLane {s0 : State} (f : State → Lane → Lane) (P : Lane → Prop)
    (hf : ∀ s x, s.cur = s0.cur → P (f s x)) (ls : List Nat) (s : State) (hc : s.cur = s0.cur) (h : Home s) :
    Home (ls.foldl (fun s l => s.modCurLane l (f s)) s) ∧
    (∀ l, l ∈ ls ∨ P (s.curLane l) → P ((ls.foldl (fun s l => s.modCurLane l (f s)) s).curLane l)) := by
  induction ls generalizing s with
  | nil => exact ⟨h, fun l hl => by simpa using hl⟩
  | cons a ls ih =>
    have hm : Home (s.modCurLane a (f s)) := h.modCurWarp _
    obtain ⟨h1, h2⟩ := ih (s.modCurLane a (f s)) hc hm
    refine ⟨h1, fun l hl => h2 l ?_⟩
    rw [curLane_modCurLane h]
    by_cases e : l = a
    · rw [if_pos e]; exact .inr (hf s _ hc)
    · rw [if_neg e]
      simpa [e] using hl

theorem Calm.at_home {s t : State} (h : Calm s t) (k : Home s) : Home t := by
  unfold Home at *
  rw [h.cur, h.home]
  exact k

theorem AtNext.advance {s u : State} (h : Calm s u) (hw : Home s) : AtNext s (Machine.advance u s.members) := by
  have hh := foldl_modCurLane (s0 := s)
    (fun s x => { x with pc := nextPc s.cur.pc, hints := [], hpc := 0, tag := 0, counted := false })
    (fun x => x.pc = nextPc s.cur.pc ∧ x.hints = []) (fun t x ht => by simp [ht]) s.members u h.cur (h.at_home hw)
  exact fun l hl => hh.2 l (.inl hl)

theorem Calm.charged {f : Form} {s : State} : Calm s (s.charged f) :=
  .charge s f s.members

/-- The state on which the effect of a performed instruction acts. -/
theorem Issued.ofPerforms {f : Form} {s : State} (hp : performs f s = true) : Issued s (s.issued f) :=
  ⟨(Calm.charged).trans (.advance _ _), .advance (Calm.charged) ((performs_iff f s).mp hp).2.1⟩

/-- An instruction without late faults, whose own checks find nothing, is its effect. -/
theorem issue_act {f : Form} {s : State} {a : Act} {e : State → State} (hp : performs f s = true)
    (hq : f.persist = false ∨ performsPersist f s = true)
    (hw : a.wait (s.charged f) (s.active f.h) = none) (hc : a.check (s.charged f) (s.active f.h) = [])
    (hr : a.run (s.issued f) (s.active f.h) = (e (s.issued f), [])) :
    ∃ t, issue f s a = .next t ∧ Does f s t e := by
  have hpw : persistWaits s f (s.active f.h) = false := by
    unfold persistWaits
    obtain h | h := hq
    · simp [h]
    · simp only [performsPersist, Bool.and_eq_true, Bool.not_eq_true'] at h
      simp [h.1.2, h.2]
  refine ⟨_, issue_performs hp hpw hw hc, ?_⟩
  unfold Does
  rw [show advance (charge s f s.members) s.members = s.issued f from rfl, hr]

theorem issue_pure {f : Form} {s : State} (e : State → List Nat → State) (hp : performs f s = true)
    (hq : f.persist = false ∨ performsPersist f s = true) :
    ∃ t, issue f s (.pure e) = .next t ∧ Does f s t (fun u => e u (s.active f.h)) :=
  issue_act hp hq rfl rfl rfl

/-! ## Registers written at once -/

/-- A lane apart from its registers and predicates. -/
def Lane.ctl (x : Lane) : Lane := { x with regs := [], poison := [], pw := 1 }

/-- From `w` to `v` only the registers of `g` and the predicates of `p` change. -/
structure WZ (w v : Warp) (g : Nat → Nat → Option Word) (p : Nat → Nat → Option Bool) : Prop where
  rest : v.rest = w.rest
  masks : v.m = w.m
  ctl : ∀ l, (v.lane l).ctl = (w.lane l).ctl
  regs : ∀ fr l i n, 0 < i → readG fr v l i n = (g l i).getD (readG fr w l i n)
  poison : ∀ l i, 0 < i → unpoisoned (v.lane l) i = ((g l i).isSome || unpoisoned (w.lane l) i)
  deep : ∀ l r, r ≤ (w.lane l).wbase → mget (v.lane l).regs r 0 = mget (w.lane l).regs r 0
  preds : ∀ fr l k n, 0 < k → readP fr v l k n = (p l k).getD (readP fr w l k n)
  scal : ∀ fr r n, readS fr v r n = readS fr w r n

theorem WZ.refl (w : Warp) : WZ w w (fun _ _ => none) (fun _ _ => none) := by
  constructor <;> intros <;> rfl

/-- What a class-Z change says of registers and predicates other than 0 is all that it says of any. -/
theorem WZ.congr {w v : Warp} {g g' : Nat → Nat → Option Word} {p p' : Nat → Nat → Option Bool} (h : WZ w v g p)
    (hg : ∀ l i, 0 < i → g' l i = g l i) (hp : ∀ l k, 0 < k → p' l k = p l k) : WZ w v g' p' :=
  { h with
    regs := fun fr l i n hi => by rw [hg l i hi, h.regs fr l i n hi]
    poison := fun l i hi => by rw [hg l i hi, h.poison l i hi]
    preds := fun fr l k n hk => by rw [hp l k hk, h.preds fr l k n hk] }

theorem Lane.ctl_wbase {x y : Lane} (h : x.ctl = y.ctl) : x.wbase = y.wbase := by
  have := congrArg Lane.wbase h
  exact this

theorem WZ.trans {u v w : Warp} {g g' : Nat → Nat → Option Word} {p p' : Nat → Nat → Option Bool} (h : WZ u v g p) (k : WZ v w g' p') :
    WZ u w (fun l i => (g' l i).or (g l i)) (fun l i => (p' l i).or (p l i)) := by
  constructor
  case rest => exact k.rest.trans h.rest
  case masks => exact k.masks.trans h.masks
  case ctl => exact fun l => (k.ctl l).trans (h.ctl l)
  case scal => exact fun fr r n => (k.scal fr r n).trans (h.scal fr r n)
  case regs => intro fr l i n hi; rw [k.regs fr l i n hi, h.regs fr l i n hi]; cases g' l i <;> rfl
  case poison => intro l i hi; rw [k.poison l i hi, h.poison l i hi]; cases g' l i <;> simp
  case deep => intro l r hr; rw [k.deep l r (by rw [Lane.ctl_wbase (h.ctl l)]; exact hr), h.deep l r hr]
  case preds => intro fr l i n hi; rw [k.preds fr l i n hi, h.preds fr l i n hi]; cases p' l i <;> rfl

theorem pend_drop (keep : Eff → Bool) (sel : Eff → Option α) (h : ∀ e, keep e = false → sel e = none) (ps : List PRes) :
    (dropEffs keep ps).flatMap (fun q => q.effs.filterMap sel) = ps.flatMap (fun q => q.effs.filterMap sel) := by
  induction ps with
  | nil => rfl
  | cons a ps ih =>
    simp only [dropEffs, List.map_cons, List.flatMap_cons] at ih ⊢
    rw [ih]
    congr 1
    induction a.effs with
    | nil => rfl
    | cons e es ihe =>
      by_cases he : keep e = true
      · simp only [List.filter_cons, he, if_true, List.filterMap_cons, ihe]
      · have he' : keep e = false := by simpa using he
        simp only [List.filter_cons, he', List.filterMap_cons, h e he', Bool.false_eq_true, if_false, ihe]

theorem pend_acc (sel : Eff → Option α) (c : PRes → PRes) (hc : ∀ q, (c q).effs = q.effs) (ps : List PRes) :
    (ps.map c).flatMap (fun q => q.effs.filterMap sel) = ps.flatMap (fun q => q.effs.filterMap sel) := by
  induction ps with
  | nil => rfl
  | cons a ps ih => simp only [List.map_cons, List.flatMap_cons, ih, hc]

/-- The lanes after a write of a register other than g0. -/
theorem Warp.writeG_lane (w : Warp) (l i : Nat) (v : Word) (hi : i ≠ 0) (j : Nat) : (w.writeG l i v).lane j = if j = l then
    { w.lane l with regs := mset (w.lane l).regs ((w.lane l).wbase + i) v, poison := mdel (w.lane l).poison ((w.lane l).wbase + i) }
    else w.lane j := by
  have : (w.writeG l i v).lane j = (w.modLane l (fun x => { x with
      regs := mset x.regs ((w.lane l).wbase + i) v, poison := mdel x.poison ((w.lane l).wbase + i) })).lane j := by
    simp [Warp.writeG, hi, Warp.lane]
  rw [this, Warp.lane_modLane]

/-- A write of a register drops the pending effects on that register alone. -/
theorem Warp.writeG_sel {α : Type} (w : Warp) (l i : Nat) (v : Word) (hi : i ≠ 0) (sel : Eff → Option α)
    (hs : ∀ e, notG l ((w.lane l).wbase + i) e = false → sel e = none) :
    (w.writeG l i v).pend.flatMap (fun q => q.effs.filterMap sel) = w.pend.flatMap (fun q => q.effs.filterMap sel) := by
  simp only [Warp.writeG, hi, if_false]
  exact (pend_acc sel (fun q => { q with acc := q.acc.filter (fun a => !(a.1 == l && a.2.1 == (w.lane l).wbase + i)) })
    (fun _ => rfl) _).trans (pend_drop _ _ hs _)

/-- A register written in class Z. -/
theorem WZ.writeG (w : Warp) (l i : Nat) (v : Word) :
    WZ w (w.writeG l i v) (fun l' i' => if l' = l ∧ i' = i then some v else none) (fun _ _ => none) := by
  by_cases hi : i = 0
  · subst hi
    have : w.writeG l 0 v = w := by simp [Warp.writeG]
    rw [this]
    exact (WZ.refl w).congr (fun _ _ h => if_neg (fun e => Nat.ne_of_gt h e.2)) (fun _ _ _ => rfl)
  · have hl := Warp.writeG_lane w l i v hi
    have hp := fun (sel : Eff → Option Word) => Warp.writeG_sel w l i v hi sel
    have hpb := fun (sel : Eff → Option Bool) => Warp.writeG_sel w l i v hi sel
    constructor
    case rest => simp [Warp.writeG, hi, Warp.rest, Warp.modLane]
    case masks => simp [Warp.writeG, hi, Warp.modLane]
    case ctl =>
      intro j
      rw [hl]; by_cases h : j = l
      · subst h; simp [Lane.ctl]
      · simp [h]
    case regs =>
      intro fr j k n hk
      have hk0 : k ≠ 0 := by omega
      simp only [readG, hk0, if_false, hl]
      by_cases h : j = l ∧ k = i
      · obtain ⟨rfl, rfl⟩ := h
        simp only [if_true, mget_mset_self, and_self, Option.getD_some]
        have : pendG (w.writeG j k v).pend j ((w.lane j).wbase + k) = [] := by
          simp only [pendG, Warp.writeG, hk0, if_false]
          refine (pend_acc _ (fun q => { q with acc := q.acc.filter (fun a => !(a.1 == j && a.2.1 == (w.lane j).wbase + k)) })
            (fun _ => rfl) _).trans ?_
          simp only [List.flatMap_eq_nil_iff, dropEffs, List.mem_map]
          rintro _ ⟨q, -, rfl⟩
          rw [List.filterMap_eq_nil_iff]
          intro e he
          have := (List.mem_filter.mp he).2
          clear hl hp hpb
          cases e <;> simp_all [notG]
          exact fun h1 h2 => he.2.elim (· h1) (· h2)
        rw [this]; rfl
      · simp only [h, if_false, Option.getD_none]
        have hph : pendG (w.writeG l i v).pend j ((w.lane j).wbase + k) = pendG w.pend j ((w.lane j).wbase + k) := by
          apply hp
          intro e he
          clear hl hp hpb
          cases e <;> simp_all [notG]
          rintro rfl
          have := h rfl
          omega
        by_cases hj : j = l
        · subst hj
          have hki : ¬ k = i := fun e => h ⟨rfl, e⟩
          have : (w.lane j).wbase + k ≠ (w.lane j).wbase + i := by omega
          simp only [if_true, mget_mset_of_ne _ _ _ this, hph]
        · simp only [hj, if_false, hph]
    case poison =>
      intro j k hk
      have hk0 : (k == 0) = false := by simp; omega
      simp only [unpoisoned, hk0, Bool.false_or, hl]
      by_cases hj : j = l
      · subst hj
        simp only [if_true, mfind_mdel, true_and]
        by_cases hki : k = i
        · subst hki; simp
        · have : (w.lane j).wbase + k ≠ (w.lane j).wbase + i := by omega
          simp [hki]
      · simp [hj]
    case deep =>
      intro j r hr
      rw [hl]
      by_cases hj : j = l
      · subst hj
        have : r ≠ (w.lane j).wbase + i := by omega
        simp [mget_mset_of_ne _ _ _ this]
      · simp [hj]
    case preds =>
      intro fr j k n hk
      have hk0 : k ≠ 0 := by omega
      have hph : pendP (w.writeG l i v).pend j k = pendP w.pend j k := by
        apply hpb
        intro e he
        clear hl hp hpb
        cases e <;> simp_all [notG]
      simp only [readP, hk0, if_false, hph, hl, Option.getD_none]
      by_cases hj : j = l
      · subst hj; simp
      · simp [hj]
    case scal =>
      intro fr r n
      have hph : pendS (w.writeG l i v).pend r = pendS w.pend r := by
        apply hp
        intro e he
        cases e <;> simp_all [notG]
      have hs : (w.writeG l i v).s = w.s := by simp [Warp.writeG, hi, Warp.modLane]
      simp only [readS, hph, hs]

theorem bit_two_pow (i k : Nat) : (BitVec.ofNat 16 (2 ^ i)).getLsbD k = (decide (k < 16) && decide (i = k)) := by
  rw [BitVec.getLsbD_ofNat, Nat.testBit_two_pow]

/-- A predicate written in class Z. -/
theorem WZ.writeP (w : Warp) (l i : Nat) (v : Bool) (h16 : i < 16) :
    WZ w (w.writeP l i v) (fun _ _ => none) (fun l' i' => if l' = l ∧ i' = i then some v else none) := by
  by_cases hi : i = 0
  · subst hi
    have : w.writeP l 0 v = w := by simp [Warp.writeP]
    rw [this]
    exact (WZ.refl w).congr (fun _ _ _ => rfl) (fun _ _ h => if_neg (fun e => Nat.ne_of_gt h e.2))
  · have hl : ∀ j, (w.writeP l i v).lane j = if j = l then
        { w.lane l with pw := if v then (w.lane l).pw ||| BitVec.ofNat 16 (2 ^ i) else (w.lane l).pw &&& ~~~(BitVec.ofNat 16 (2 ^ i)) }
        else w.lane j := by
      intro j
      have : (w.writeP l i v).lane j = (w.modLane l (fun x => { x with
          pw := if v then x.pw ||| BitVec.ofNat 16 (2 ^ i) else x.pw &&& ~~~(BitVec.ofNat 16 (2 ^ i)) })).lane j := by
        simp [Warp.writeP, hi, Warp.lane]
      rw [this, Warp.lane_modLane]
    have hp : ∀ {β : Type} (sel : Eff → Option β), (∀ e, notP l i e = false → sel e = none) →
        (w.writeP l i v).pend.flatMap (fun q => q.effs.filterMap sel) = w.pend.flatMap (fun q => q.effs.filterMap sel) := by
      intro β sel hs
      simp only [Warp.writeP, hi, if_false]
      exact pend_drop _ _ hs _
    constructor
    case rest => simp [Warp.writeP, hi, Warp.rest, Warp.modLane]
    case masks => simp [Warp.writeP, hi, Warp.modLane]
    case ctl =>
      intro j
      rw [hl]; by_cases h : j = l
      · subst h; simp [Lane.ctl]
      · simp [h]
    case regs =>
      intro fr j k n hk
      have hph : pendG (w.writeP l i v).pend j ((w.lane j).wbase + k) = pendG w.pend j ((w.lane j).wbase + k) := by
        apply hp
        intro e he
        cases e <;> simp_all [notP]
      simp only [readG, hl, Option.getD_none]
      by_cases hj : j = l
      · subst hj; simp only [if_true, hph]
      · simp only [hj, if_false, hph]
    case poison =>
      intro j k hk
      simp only [hl, unpoisoned]; by_cases hj : j = l <;> simp [hj]
    case deep =>
      intro j r hr
      rw [hl]; by_cases hj : j = l <;> simp [hj]
    case preds =>
      intro fr j k n hk
      have hk0 : k ≠ 0 := by omega
      simp only [readP, hk0, if_false, hl]
      by_cases h : j = l ∧ k = i
      · obtain ⟨rfl, rfl⟩ := h
        have : pendP (w.writeP j k v).pend j k = [] := by
          simp only [pendP, Warp.writeP, hk0, if_false, List.flatMap_eq_nil_iff, dropEffs, List.mem_map]
          rintro _ ⟨q, -, rfl⟩
          rw [List.filterMap_eq_nil_iff]
          intro e he
          have := (List.mem_filter.mp he).2
          cases e <;> simp_all [notP]
          exact fun h1 h2 => he.2.elim (· h1) (· h2)
        rw [this]
        cases v <;> simp only [choose, if_true, Bool.false_eq_true, if_false, BitVec.getLsbD_or, BitVec.getLsbD_and,
          BitVec.getLsbD_not, bit_two_pow] <;> simp [h16]
      · simp only [h, if_false, Option.getD_none]
        have hph : pendP (w.writeP l i v).pend j k = pendP w.pend j k := by
          apply hp
          intro e he
          cases e <;> simp_all [notP]
          rintro rfl
          have := h rfl
          omega
        by_cases hj : j = l
        · subst hj
          have hki : ¬ i = k := fun e => h ⟨rfl, e.symm⟩
          have hv : (if v = true then (w.lane j).pw ||| BitVec.ofNat 16 (2 ^ i)
              else (w.lane j).pw &&& ~~~(BitVec.ofNat 16 (2 ^ i))).getLsbD k = (w.lane j).pw.getLsbD k := by
            by_cases h6 : k < 16
            · cases v <;> simp only [if_true, Bool.false_eq_true, if_false, BitVec.getLsbD_or, BitVec.getLsbD_and,
                BitVec.getLsbD_not, bit_two_pow] <;> simp [hki, h6]
            · simp [BitVec.getLsbD_of_ge _ _ (show 16 ≤ k by omega)]
          simp only [if_true, hph, hv]
        · simp only [hj, if_false, hph]
    case scal =>
      intro fr r n
      have hph : pendS (w.writeP l i v).pend r = pendS w.pend r := by
        apply hp
        intro e he
        cases e <;> simp_all [notP]
      have hs : (w.writeP l i v).s = w.s := by simp [Warp.writeP, hi, Warp.modLane]
      simp only [readS, hph, hs]

/-- A pair written in class Z. -/
theorem WZ.writeGd (w : Warp) (l i : Nat) (lo hi : Word) :
    WZ w ((w.writeG l i lo).writeG l (i + 1) hi)
      (fun l' i' => if l' = l then (if i' = i then some lo else if i' = i + 1 then some hi else none) else none) (fun _ _ => none) := by
  have h := (WZ.writeG w l i lo).trans (WZ.writeG (w.writeG l i lo) l (i + 1) hi)
  have e : (fun l' i' => if l' = l then (if i' = i then some lo else if i' = i + 1 then some hi else none) else none) =
      fun l' i' => (if l' = l ∧ i' = i + 1 then some hi else none).or (if l' = l ∧ i' = i then some lo else none) := by
    funext l' i'
    by_cases h1 : l' = l <;> by_cases h2 : i' = i <;> by_cases h3 : i' = i + 1 <;> simp_all
  rw [e]
  exact h
  
/-! ### Over the members of a batch -/

/-- A class-Z change of the issuing warp. -/
structure ZRel (u v : State) (g : Nat → Nat → Option Word) (p : Nat → Nat → Option Bool) : Prop where
  out : OnlyWarp u v
  home : Home u → Home v
  wz : WZ u.curWarp v.curWarp g p

theorem ZRel.refl (u : State) : ZRel u u (fun _ _ => none) (fun _ _ => none) := ⟨.refl u, id, .refl _⟩

theorem ZRel.trans {u v w : State} {g g' : Nat → Nat → Option Word} {p p' : Nat → Nat → Option Bool} (h : ZRel u v g p)
    (k : ZRel v w g' p') : ZRel u w (fun l i => (g' l i).or (g l i)) (fun l i => (p' l i).or (p l i)) :=
  ⟨h.out.trans k.out, k.home ∘ h.home, h.wz.trans k.wz⟩

theorem ZRel.modCurWarp {u : State} (h : Home u) {F : Warp → Warp} {g : Nat → Nat → Option Word} {p : Nat → Nat → Option Bool}
    (k : WZ u.curWarp (F u.curWarp) g p) : ZRel u (u.modCurWarp F) g p :=
  ⟨.modCurWarp u F, fun h => h.modCurWarp F, by rw [State.curWarp_modCurWarp u F h]; exact k⟩

theorem ZRel.setG {u : State} (h : Home u) (l i : Nat) (v : Word) :
    ZRel u (u.setG l i v) (fun l' i' => if l' = l ∧ i' = i then some v else none) (fun _ _ => none) :=
  .modCurWarp h (.writeG _ l i v)

theorem ZRel.setGd {u : State} (h : Home u) (l i : Nat) (v : DWord) :
    ZRel u (u.setGd l i v)
      (fun l' i' => if l' = l then (if i' = i then some (loWord v) else if i' = i + 1 then some (hiWord v) else none) else none)
      (fun _ _ => none) :=
  .modCurWarp (F := fun w => (w.writeG l i (loWord v)).writeG l (i + 1) (hiWord v)) h (.writeGd _ l i _ _)

theorem ZRel.setP {u : State} (h : Home u) (l k : Nat) (v : Bool) (hk : k < 16) :
    ZRel u (u.setP l k v) (fun _ _ => none) (fun l' k' => if l' = l ∧ k' = k then some v else none) :=
  .modCurWarp h (.writeP _ l k v hk)

/-- Two states give the same operands to an instruction of a lane. -/
structure Agrees (s u : State) (l : Nat) : Prop where
  cur : u.cur = s.cur
  free : u.free = s.free
  home : Home u
  warp : u.curWarp.rest = s.curWarp.rest
  lane : (u.curLane l).rest = (s.curLane l).rest
  g : ∀ i n, u.g l i n = s.g l i n
  p : ∀ k n, u.p l k n = s.p l k n
  sr : ∀ r n, u.sr r n = s.sr r n

theorem Agrees.gd {s u : State} {l : Nat} (h : Agrees s u l) (i n : Nat) : u.gd l i n = s.gd l i n := by simp only [State.gd, h.g]
theorem Agrees.imm {s u : State} {l : Nat} (h : Agrees s u l) : u.imm = s.imm := by simp only [State.imm, State.immxs, h.cur]
theorem Agrees.opnd {s u : State} {l : Nat} (h : Agrees s u l) : u.opnd = s.opnd := by simp only [State.opnd, h.cur]
theorem Agrees.opndP {s u : State} {l : Nat} (h : Agrees s u l) : u.opndP = s.opndP := by simp only [State.opndP, h.cur]
theorem Agrees.sat {s u : State} {l : Nat} (h : Agrees s u l) : u.sat = s.sat := by simp only [State.sat, h.cur]
theorem Agrees.rmode {s u : State} {l : Nat} (h : Agrees s u l) : u.rmode = s.rmode := by simp only [State.rmode, h.cur]
theorem Agrees.gOrImm {s u : State} {l : Nat} (h : Agrees s u l) (i : Nat) : u.gOrImm l i = s.gOrImm l i := by
  simp only [State.gOrImm, h.imm, h.g]
theorem Agrees.gThird {s u : State} {l : Nat} (h : Agrees s u l) (d : Nat) : u.gThird l d = s.gThird l d := by
  simp only [State.gThird, h.opnd, h.g]

theorem Calm.agrees {s u : State} (h : Calm s u) (k : Home s) (l : Nat) : Agrees s u l :=
  ⟨h.cur, h.free, h.at_home k, h.warp, h.lanes l, h.g l, h.p l, h.sr⟩

theorem Lane.rest_of_ctl {x y : Lane} (h : x.ctl = y.ctl) : x.rest = y.rest := by
  have := congrArg Lane.rest h
  exact this

/-- A class-Z change that does not touch a lane keeps its operands. -/
theorem Agrees.zrel {s u v : State} {l : Nat} {g : Nat → Nat → Option Word} {p : Nat → Nat → Option Bool} (h : Agrees s u l)
    (k : ZRel u v g p) (hs : s.cur.stream = false) (hg : ∀ i, g l i = none) (hp : ∀ i, p l i = none) : Agrees s v l := by
  have hc := k.out.cur
  have hf := k.out.free
  refine ⟨hc.trans h.cur, hf.trans h.free, k.home h.home, k.wz.rest.trans h.warp,
    (Lane.rest_of_ctl (k.wz.ctl l)).trans h.lane, fun i n => ?_, fun i n => ?_, fun r n => ?_⟩
  · rw [← h.g i n]
    simp only [State.g, hc, h.cur, hs, Bool.false_eq_true, if_false, hf]
    by_cases hi : i = 0
    · simp [readG, hi]
    · rw [k.wz.regs _ l i n (by omega), hg]; rfl
  · rw [← h.p i n]
    simp only [State.p, hc, h.cur, hs, Bool.false_eq_true, if_false, hf]
    by_cases hi : i = 0
    · simp [readP, hi]
    · rw [k.wz.preds _ l i n (by omega), hp]; rfl
  · rw [← h.sr r n]
    simp only [State.sr, hc, h.cur, hs, Bool.false_eq_true, if_false, hf]
    rw [k.wz.scal]

/-- A step of one lane that writes in class Z what `g` and `p` say of that lane. -/
def ZStep (s u : State) (v : State) (l : Nat) (g : Nat → Nat → Option Word) (p : Nat → Nat → Option Bool) : Prop :=
  Agrees s u l → ZRel u v (fun l' i => if l' = l then g l i else none) (fun l' k => if l' = l then p l k else none)

/-- Values for the lanes of a list: those of its head or of the rest. -/
theorem lane_cons_or {α : Type} (g : Nat → Nat → Option α) {a : Nat} {ls : List Nat} (hna : a ∉ ls) :
    (fun l i => if l ∈ a :: ls then g l i else none) = fun l i => (if l ∈ ls then g l i else none).or (if l = a then g a i else none) := by
  funext l i
  rcases Decidable.em (l = a) with rfl | h
  · rw [if_pos (List.mem_cons_self ..), if_neg hna, if_pos rfl, Option.none_or]
  · rw [if_neg h, Option.or_none]
    simp only [List.mem_cons, h, false_or]

/-- A value of one register of one lane. -/
theorem lane_ite_and {α : Type} (l d : Nat) (v : Option α) :
    (fun l' i => if l' = l ∧ i = d then v else none) = fun l' i => if l' = l then (if i = d then v else none) else none := by
  funext l' i
  rcases Decidable.em (l' = l) with rfl | h
  · simp only [true_and, if_true]
  · rw [if_neg h, if_neg (fun e => h e.1)]

theorem zrel_foldl {s : State} (hs : s.cur.stream = false) (step : State → Nat → State) (g : Nat → Nat → Option Word)
    (p : Nat → Nat → Option Bool) (ls : List Nat) (hn : ls.Nodup) (hstep : ∀ u l, l ∈ ls → ZStep s u (step u l) l g p) (u : State)
    (ha : ∀ l, l ∈ ls → Agrees s u l) :
    ZRel u (ls.foldl step u) (fun l i => if l ∈ ls then g l i else none) (fun l k => if l ∈ ls then p l k else none) := by
  induction ls generalizing u with
  | nil => exact .refl u
  | cons a ls ih =>
    have h1 := hstep u a (by simp) (ha a (by simp))
    obtain ⟨hna, hn'⟩ := List.nodup_cons.mp hn
    have h2 := ih hn' (fun u l hl => hstep u l (by simp [hl])) (step u a) (fun l hl => by
      have hne : l ≠ a := fun e => hna (e ▸ hl)
      exact (ha l (by simp [hl])).zrel h1 hs (fun i => by simp [hne]) (fun i => by simp [hne]))
    rw [lane_cons_or g hna, lane_cons_or p hna]
    exact h1.trans h2

theorem maskLanesFrom_lt (n i m l : Nat) (h : l ∈ maskLanesFrom n i m) : i ≤ l := by
  induction n generalizing i m with
  | zero => simp [maskLanesFrom] at h
  | succ n ih =>
    simp only [maskLanesFrom] at h
    split at h
    · rcases List.mem_cons.mp h with rfl | h
      · exact Nat.le_refl _
      · have := ih _ _ h; omega
    · have := ih _ _ h; omega

theorem maskLanesFrom_nodup (n i m : Nat) : (maskLanesFrom n i m).Nodup := by
  induction n generalizing i m with
  | zero => simp [maskLanesFrom]
  | succ n ih =>
    simp only [maskLanesFrom]
    split
    · refine List.nodup_cons.mpr ⟨fun h => ?_, ih _ _⟩
      have := maskLanesFrom_lt _ _ _ _ h; omega
    · exact ih _ _

theorem active_nodup (s : State) (h : Hdr) : (s.active h).Nodup := (maskLanesFrom_nodup _ _ _).filter _

/-- The end of an issue is calm where no lane of the warp is FAULTED. -/
theorem Unfaulted.zrel {u v : State} {g : Nat → Nat → Option Word} {p : Nat → Nat → Option Bool} (h : Unfaulted u) (k : ZRel u v g p) :
    Unfaulted v := by
  intro l hl e
  have := congrArg Lane.state (k.wz.ctl l)
  exact h l hl (this.symm.trans e)

theorem Issued.writes {f : Form} {s u v : State} {ls : List Nat} {g : Nat → Nat → Option Word} {p : Nat → Nat → Option Bool}
    (hs : s.cur.stream = false) (hf : Unfaulted s) (h : Issued s u)
    (k : ZRel u v (fun l i => if l ∈ ls then g l i else none) (fun l i => if l ∈ ls then p l i else none)) (lead : Nat) :
    WritesZ s (Machine.finish v f lead s.members []) ls g p := by
  obtain ⟨hc, hn⟩ := h
  have hst := Still.finish v f lead s.members ((hf.step hc).zrel k)
  generalize Machine.finish v f lead s.members [] = t at hst
  have hfin := hst.calm
  have hlane : ∀ l, (t.curLane l).rest = (s.curLane l).rest := fun l =>
    (hfin.lanes l).trans ((Lane.rest_of_ctl (k.wz.ctl l)).trans (hc.lanes l))
  have hmask : ∀ i, v.curWarp.mask i = u.curWarp.mask i := fun i => by simp only [Warp.mask, k.wz.masks]
  have hcur : v.cur = s.cur := k.out.cur.trans hc.cur
  have hb : ∀ l, (u.curLane l).wbase = (s.curLane l).wbase := hc.wbase
  refine ⟨⟨(hc.out.trans k.out).trans hfin.out, hfin.warp.trans (k.wz.rest.trans hc.warp), hlane, fun i => ?_, ?_⟩, ?_, ?_, ?_, ?_⟩
  · obtain e | e := hfin.masks i
    · rw [e, hmask i]; exact hc.masks i
    · exact .inr e
  · intro l hl
    have e1 := congrArg Lane.pc (k.wz.ctl l)
    have e2 := congrArg Lane.hints (k.wz.ctl l)
    exact ⟨((hst.place l).1.trans e1).trans (hn l hl).1, ((hst.place l).2.trans e2).trans (hn l hl).2⟩
  · intro l i hi
    rw [hfin.g, ← hc.g l i]
    simp only [State.g, hcur, hc.cur, hs, Bool.false_eq_true, if_false, k.out.free]
    rw [k.wz.regs _ l i _ hi]
    by_cases hl : l ∈ ls <;> simp [hl]
  · intro l i hi
    have hr := hfin.regs l
    have e1 : unpoisoned (t.curLane l) i = unpoisoned (v.curLane l) i := by
      have hw := hfin.wbase l
      simp only [unpoisoned, hr.2.1, hw]
    have e2 : unpoisoned (u.curLane l) i = unpoisoned (s.curLane l) i := by
      simp only [unpoisoned, (hc.regs l).2.1, hb]
    rw [e1, ← e2]
    have := k.wz.poison l i hi
    simp only [State.curLane]
    rw [this]
    by_cases hl : l ∈ ls <;> simp [hl]
  · intro l r hr
    rw [(hfin.regs l).1, ← (hc.regs l).1]
    refine k.wz.deep l r ?_
    have := hb l
    simp only [State.curLane] at this hr ⊢
    omega
  · intro l i hi
    rw [hfin.p, ← hc.p l i]
    simp only [State.p, hcur, hc.cur, hs, Bool.false_eq_true, if_false, k.out.free]
    rw [k.wz.preds _ l i _ hi]
    by_cases hl : l ∈ ls <;> simp [hl]

/-- An instruction whose members write in class Z. -/
theorem issue_z {f : Form} {s : State} (step : State → State → Nat → State) (g : Nat → Nat → Option Word) (p : Nat → Nat → Option Bool)
    (hp : performs f s = true) (hq : f.persist = false ∨ performsPersist f s = true)
    (hstep : ∀ u0 u l, Issued s u0 → l ∈ s.active f.h → ZStep s u (step u0 u l) l g p) :
    ∃ t, issue f s (.pure (fun u ls => u.eachLane ls (step u))) = .next t ∧ WritesZ s t (s.active f.h) g p := by
  obtain ⟨hs, hw, -⟩ := (performs_iff f s).mp hp
  obtain ⟨t, ht, rfl⟩ := issue_pure (fun u ls => u.eachLane ls (step u)) hp hq
  have hu := Issued.ofPerforms hp
  refine ⟨_, ht, hu.writes hs (.ofPerforms hp) ?_ _⟩
  exact zrel_foldl hs (step _) g p _ (active_nodup s f.h) (fun v l hl => hstep _ v l hu hl) _ (fun l _ => hu.1.agrees hw l)

/-! ## Results left pending -/

/-- Pending results join the issuing warp. -/
structure DRel (u v : State) (rs : List PRes) : Prop where
  out : OnlyWarp u v
  home : Home u → Home v
  warp : Home u → v.curWarp = { u.curWarp with pend := u.curWarp.pend ++ rs }

theorem DRel.refl (u : State) : DRel u u [] := ⟨.refl u, id, fun _ => by simp⟩

theorem DRel.trans {u v w : State} {rs rs' : List PRes} (h : DRel u v rs) (k : DRel v w rs') : DRel u w (rs ++ rs') :=
  ⟨h.out.trans k.out, k.home ∘ h.home, fun hu => by rw [k.warp (h.home hu), h.warp hu]; simp⟩

/-- The result of one lane, if it has a destination or a flag. -/
def laneRes (mem : Bool) (id l : Nat) (effs : List Eff) (fl : OpFlags) : List PRes :=
  if effs.isEmpty && fl == 0 then [] else [{ id := id, lanes := lanesMask [l], effs := effs, flags := fl, mem := mem }]

theorem DRel.addLane (u : State) (l : Nat) (effs : List Eff) (fl : OpFlags) : DRel u (u.addLane l effs fl) (laneRes (memWord u.cur.word.toNat) u.fresh l effs fl) := by
  unfold State.addLane State.addRes laneRes
  by_cases h : (effs.isEmpty && fl == 0) = true
  · simp only [h, if_true]; exact .refl u
  · simp only [h]
    refine ⟨(OnlyWarp.fresh u _).trans (.modCurWarp _ _), fun hu => ?_, fun hu => ?_⟩
    · exact Home.modCurWarp (s := { u with fresh := u.fresh + 1 }) hu _
    · exact State.curWarp_modCurWarp { u with fresh := u.fresh + 1 } _ hu

/-- An effect on the registers of one lane. -/
def Eff.onLane (l : Nat) : Eff → Bool
  | .g l' _ _ => l' == l
  | .p l' _ _ => l' == l
  | _ => false

theorem pend_append {α : Type} (sel : Eff → Option α) (ps rs : List PRes) (h : ∀ r, r ∈ rs → ∀ e, e ∈ r.effs → sel e = none) :
    (ps ++ rs).flatMap (fun q => q.effs.filterMap sel) = ps.flatMap (fun q => q.effs.filterMap sel) := by
  rw [List.flatMap_append]
  have : rs.flatMap (fun q => q.effs.filterMap sel) = [] := by
    rw [List.flatMap_eq_nil_iff]
    intro r hr
    rw [List.filterMap_eq_nil_iff]
    exact h r hr
  rw [this, List.append_nil]

/-- Results of other lanes keep the operands of a lane. -/
theorem Agrees.drel {s u v : State} {l l' : Nat} {rs : List PRes} (h : Agrees s u l) (k : DRel u v rs) (hs : s.cur.stream = false)
    (hne : l ≠ l') (hr : ∀ r, r ∈ rs → ∀ e, e ∈ r.effs → e.onLane l' = true) : Agrees s v l := by
  have hc := k.out.cur
  have hf := k.out.free
  have hw := k.warp h.home
  have hl : ∀ j, v.curWarp.lane j = u.curWarp.lane j := fun j => by rw [hw]; rfl
  refine ⟨hc.trans h.cur, hf.trans h.free, k.home h.home, ?_, ?_, fun i n => ?_, fun i n => ?_, fun r n => ?_⟩
  · rw [← h.warp, hw]; rfl
  · rw [← h.lane]; simp only [State.curLane, hl]
  · rw [← h.g i n]
    simp only [State.g, hc, h.cur, hs, Bool.false_eq_true, if_false, hf, readG, hl]
    have : ∀ n, pendG v.curWarp.pend l n = pendG u.curWarp.pend l n := fun n => by
      rw [hw]
      refine pend_append _ _ _ fun r hr' e he => ?_
      have := hr r hr' e he
      cases e <;> simp_all [Eff.onLane]
      exact fun e => absurd e.symm hne
    rw [this]
  · rw [← h.p i n]
    simp only [State.p, hc, h.cur, hs, Bool.false_eq_true, if_false, hf, readP, hl]
    have : ∀ n, pendP v.curWarp.pend l n = pendP u.curWarp.pend l n := fun n => by
      rw [hw]
      refine pend_append _ _ _ fun r hr' e he => ?_
      have := hr r hr' e he
      cases e <;> simp_all [Eff.onLane]
      exact fun e => absurd e.symm hne
    rw [this]
  · rw [← h.sr r n]
    simp only [State.sr, hc, h.cur, hs, Bool.false_eq_true, if_false, hf, readS]
    have : pendS v.curWarp.pend r = pendS u.curWarp.pend r := by
      rw [hw]
      refine pend_append _ _ _ fun r hr' e he => ?_
      have := hr r hr' e he
      cases e <;> simp_all [Eff.onLane]
    rw [this, hw]

theorem laneRes_effs {mem : Bool} {id l : Nat} {effs : List Eff} {fl : OpFlags} (h : ∀ e, e ∈ effs → e.onLane l = true) :
    ∀ r, r ∈ laneRes mem id l effs fl → ∀ e, e ∈ r.effs → e.onLane l = true := by
  intro r hr
  unfold laneRes at hr
  split at hr
  · simp at hr
  · simp only [List.mem_singleton] at hr
    subst hr
    exact h

theorem drel_foldl {s : State} (hs : s.cur.stream = false) (step : State → Nat → State) (effs : Nat → List Eff) (fl : Nat → OpFlags)
    (ho : ∀ l e, e ∈ effs l → e.onLane l = true) (ls : List Nat) (hn : ls.Nodup)
    (hstep : ∀ u l, l ∈ ls → Agrees s u l → step u l = u.addLane l (effs l) (fl l)) (u : State) (ha : ∀ l, l ∈ ls → Agrees s u l) :
    ∃ rs, DRel u (ls.foldl step u) rs ∧
      rs.map PRes.effect = (ls.filter (fun l => !((effs l).isEmpty && fl l == 0))).map (fun l => (lanesMask [l], effs l, fl l)) ∧
      ∀ r, r ∈ rs → r.ready = true := by
  induction ls generalizing u with
  | nil => exact ⟨[], .refl u, rfl, by simp⟩
  | cons a ls ih =>
    have h1 : DRel u (step u a) (laneRes (memWord u.cur.word.toNat) u.fresh a (effs a) (fl a)) := by
      rw [hstep u a (by simp) (ha a (by simp))]; exact .addLane _ _ _ _
    obtain ⟨hna, hn'⟩ := List.nodup_cons.mp hn
    obtain ⟨rs, h2, h3, h4⟩ := ih hn' (fun u l hl => hstep u l (by simp [hl])) (step u a) (fun l hl =>
      (ha l (by simp [hl])).drel h1 hs (by rintro rfl; exact hna hl) (laneRes_effs (ho a)))
    refine ⟨_, h1.trans h2, ?_, ?_⟩
    · rw [List.map_append, h3]
      unfold laneRes
      by_cases h : ((effs a).isEmpty && fl a == 0) = true
      · simp only [h, if_true, List.map_nil, List.nil_append, List.filter_cons, Bool.not_true, Bool.false_eq_true, if_false]
      · simp only [h, if_false, List.filter_cons, Bool.not_false, if_true, List.map_cons, List.map_nil,
          List.cons_append, List.nil_append, PRes.effect, Bool.false_eq_true]
    · intro r hr
      rcases List.mem_append.mp hr with hr | hr
      · unfold laneRes at hr
        split at hr
        · simp at hr
        · simp only [List.mem_singleton] at hr
          subst hr
          rfl
      · exact h4 r hr

theorem Issued.pends {f : Form} {s u v : State} {ls : List Nat} {effs : Nat → List Eff} {fl : Nat → OpFlags} {rs : List PRes}
    (hw : Home s) (hf : Unfaulted s) (h : Issued s u) (k : DRel u v rs)
    (hm : rs.map PRes.effect = (ls.filter (fun l => !((effs l).isEmpty && fl l == 0))).map (fun l => (lanesMask [l], effs l, fl l)))
    (hr : ∀ r, r ∈ rs → r.ready = true) (lead : Nat) :
    Pends s (Machine.finish v f lead s.members []) ls effs fl := by
  obtain ⟨hc, hn⟩ := h
  have hv := k.warp (hc.at_home hw)
  have hl : ∀ j, v.curLane j = u.curLane j := fun j => by simp only [State.curLane, hv]; rfl
  have hu : Unfaulted v := fun l h32 => by rw [hl]; exact (hf.step hc) l h32
  have hst := Still.finish v f lead s.members hu
  generalize Machine.finish v f lead s.members [] = t at hst
  have hfin := hst.calm
  refine ⟨⟨(hc.out.trans k.out).trans hfin.out, ?_, fun l => ?_, fun i => ?_, fun l hl' => ?_⟩, fun l => ?_, rs, ?_, hm, hr⟩
  · rw [hfin.warp, hv, ← hc.warp]; rfl
  · rw [hfin.lanes, hl, hc.lanes]
  · have : v.curWarp.mask i = u.curWarp.mask i := by rw [hv]; rfl
    obtain e | e := hfin.masks i
    · rw [e, this]; exact hc.masks i
    · exact .inr e
  · have := hst.place l
    rw [hl] at this
    exact ⟨this.1.trans (hn l hl').1, this.2.trans (hn l hl').2⟩
  · have e1 := hfin.regs l
    rw [hl] at e1
    have e2 := hc.regs l
    exact ⟨e1.1.trans e2.1, e1.2.1.trans e2.2.1, e1.2.2.trans e2.2.2⟩
  · rw [hfin.pend, hv, ← hc.pend]

/-- An instruction each of whose members leaves one result pending. -/
theorem issue_d {f : Form} {s : State} (step : State → State → Nat → State) (effs : Nat → List Eff) (fl : Nat → OpFlags)
    (hp : performs f s = true) (hq : f.persist = false ∨ performsPersist f s = true) (ho : ∀ l e, e ∈ effs l → e.onLane l = true)
    (hstep : ∀ u0 u l, Issued s u0 → l ∈ s.active f.h → Agrees s u l → step u0 u l = u.addLane l (effs l) (fl l)) :
    ∃ t, issue f s (.pure (fun u ls => u.eachLane ls (step u))) = .next t ∧ Pends s t (s.active f.h) effs fl := by
  obtain ⟨hs, hw, -⟩ := (performs_iff f s).mp hp
  obtain ⟨t, ht, rfl⟩ := issue_pure (fun u ls => u.eachLane ls (step u)) hp hq
  have hu := Issued.ofPerforms hp
  obtain ⟨rs, h1, h2, h3⟩ := drel_foldl hs (step _) effs fl ho _ (active_nodup s f.h) (fun v l hl => hstep _ v l hu hl) _
    (fun l _ => hu.1.agrees hw l)
  exact ⟨_, ht, hu.pends hw (.ofPerforms hp) h1 h2 h3 _⟩

theorem effG_onLane (w : Warp) (l i : Nat) (v : Word) : ∀ e, e ∈ effG w l i v → e.onLane l = true := by
  intro e he
  unfold effG at he
  split at he
  · simp at he
  · simp only [List.mem_singleton] at he
    subst he; simp [Eff.onLane]

theorem effP_onLane (l k : Nat) (v : Bool) : ∀ e, e ∈ effP l k v → e.onLane l = true := by
  intro e he
  unfold effP at he
  split at he
  · simp at he
  · simp only [List.mem_singleton] at he
    subst he; simp [Eff.onLane]

theorem Agrees.effG {s u : State} {l : Nat} (h : Agrees s u l) (i : Nat) (v : Word) : Machine.effG u.curWarp l i v = Machine.effG s.curWarp l i v := by
  have := congrArg Lane.wbase h.lane
  have : (u.curWarp.lane l).wbase = (s.curWarp.lane l).wbase := this
  simp only [Machine.effG, this]

/-! ## The common acts -/

/-- One word in class Z for each active member. -/
theorem issue_actZ {f : Form} {s : State} (d : BitVec 6) (val : State → Nat → Word) (v : Nat → Word) (hp : performs f s = true)
    (hq : f.persist = false ∨ performsPersist f s = true) (hv : ∀ u l, l ∈ s.active f.h → Agrees s u l → val u l = v l) :
    ∃ t, issue f s (actZ d.toNat val) = .next t ∧ WritesWord f s t d v := by
  refine issue_z (fun _ u l => u.setG l d.toNat (val u l)) _ _ hp hq (fun u0 u l hu hl ha => ?_)
  rw [hv u l hl ha]
  have := ZRel.setG ha.home l d.toNat (v l)
  rw [lane_ite_and] at this
  simpa using this

theorem issue_actZd {f : Form} {s : State} (d : BitVec 6) (val : State → Nat → DWord) (v : Nat → DWord) (hp : performs f s = true)
    (hq : f.persist = false ∨ performsPersist f s = true) (hv : ∀ u l, l ∈ s.active f.h → Agrees s u l → val u l = v l) :
    ∃ t, issue f s (actZd d.toNat val) = .next t ∧ WritesPair f s t d v := by
  refine issue_z (fun _ u l => u.setGd l d.toNat (val u l)) _ _ hp hq (fun u0 u l hu hl ha => ?_)
  rw [hv u l hl ha]
  simpa using ZRel.setGd ha.home l d.toNat (v l)

theorem issue_actZp {f : Form} {s : State} (q : BitVec 4) (val : State → Nat → Bool) (v : Nat → Bool) (hp : performs f s = true)
    (hq : f.persist = false ∨ performsPersist f s = true) (hv : ∀ u l, l ∈ s.active f.h → Agrees s u l → val u l = v l) :
    ∃ t, issue f s (actZp q.toNat val) = .next t ∧ WritesPred f s t q v := by
  refine issue_z (fun _ u l => u.setP l q.toNat (val u l)) _ _ hp hq (fun u0 u l hu hl ha => ?_)
  rw [hv u l hl ha]
  have := ZRel.setP ha.home l q.toNat (v l) q.isLt
  rw [lane_ite_and] at this
  simpa using this

theorem issue_actD {f : Form} {s : State} (d : BitVec 6) (val : State → Nat → Word × OpFlags) (v : Nat → Word × OpFlags)
    (hp : performs f s = true) (hq : f.persist = false ∨ performsPersist f s = true)
    (hv : ∀ u l, l ∈ s.active f.h → Agrees s u l → val u l = v l) :
    ∃ t, issue f s (actD d.toNat val) = .next t ∧ PendsWord f s t d v := by
  refine issue_d (fun _ u l => let r := val u l; u.addLane l (effG u.curWarp l d.toNat r.1) r.2) _ _ hp hq
    (fun l => effG_onLane _ _ _ _) (fun u0 u l hu hl ha => ?_)
  simp only [hv u l hl ha, ha.effG]

end Sys2Proof.Machine
end

