-- ==== Sys2Proof/Laws/PerInstr.lean ====
section
/-! SUPPORT. For every instruction: the decoder reads back what the encoder wrote, with every operand at every value
(03_instruction_words.md R50, R55, Tables 3-1 to 3-6). -/

namespace Sys2Proof.Laws

open Sys2Proof.Machine (bits b2n)

/-- The word of an instruction has 32 bits and decodes to that instruction, unless its guard is the one that R59 refuses. -/
def WordRoundTrip.Statement (i : Instr) : Prop :=
  ∀ n, encodeNat i = some n → n < 2 ^ 32 ∧ (neverGuarded n = false → decodeNat n = .ok i)

/-! ## The parts of a word -/

theorem b2n_le (b : Bool) : b2n b ≤ 1 := by cases b <;> decide

/-- The bits below the guard are those of the operand fields. -/
theorem word_bits (h : Hdr) (m c lo len : Nat) (hl : lo + len ≤ 20) :
    bits (h.enc + m * 16777216 + c) lo len = bits c lo len := by
  have h1 : h.enc + m * 16777216 + c =
      c + 2 ^ (lo + len) * (2 ^ (20 - (lo + len)) * (b2n h.s * 2048 + b2n h.gn * 8 + h.gp.toNat + m * 16)) := by
    rw [← Nat.mul_assoc, ← Nat.pow_add, show lo + len + (20 - (lo + len)) = 20 by omega]
    simp only [Hdr.enc]
    omega
  simp only [bits, h1]
  rw [Nat.pow_add, Nat.mul_assoc, Nat.add_mul_div_left _ _ (Nat.two_pow_pos lo), Nat.add_mul_mod_self_left]

theorem word_major (h : Hdr) (m c : Nat) (hm : m < 128) (hc : c < 1048576) :
    bits (h.enc + m * 16777216 + c) 24 7 = m := by
  have := b2n_le h.s; have := b2n_le h.gn; have := h.gp.isLt
  simp only [bits, Hdr.enc]; omega

theorem word_lt (h : Hdr) (m c : Nat) (hm : m < 128) (hc : c < 1048576) : h.enc + m * 16777216 + c < 2 ^ 32 := by
  have := b2n_le h.s; have := b2n_le h.gn; have := h.gp.isLt
  simp only [Hdr.enc]; omega

theorem word_hdr (h : Hdr) (m c : Nat) (hm : m < 128) (hc : c < 1048576) :
    hdrOf (h.enc + m * 16777216 + c) = h := by
  have := b2n_le h.s; have := b2n_le h.gn; have := h.gp.isLt
  obtain ⟨s, g, p⟩ := h
  have e1 : bits (Hdr.enc ⟨s, g, p⟩ + m * 16777216 + c) 31 1 = b2n s := by simp only [bits, Hdr.enc] at *; omega
  have e2 : bits (Hdr.enc ⟨s, g, p⟩ + m * 16777216 + c) 23 1 = b2n g := by simp only [bits, Hdr.enc] at *; omega
  have e3 : bits (Hdr.enc ⟨s, g, p⟩ + m * 16777216 + c) 20 3 = p.toNat := by simp only [bits, Hdr.enc] at *; omega
  simp only [hdrOf, e1, e2, e3]
  congr 1
  · cases s <;> rfl
  · cases g <;> rfl
  · simp

theorem fld_of {w lo len : Nat} {v : BitVec len} (h : bits w lo len = v.toNat) : fld w lo len = v := by
  simp [fld, h]

theorem decodeNat_of {n : Nat} (h : neverGuarded n = false) : decodeNat n = decodeMajor n := by
  unfold decodeNat; unfold neverGuarded at h; rw [h]; rfl

/-! ## The opcode map -/

theorem decodeMajor_00 {w : Nat} (h : bits w 24 7 = 0) : decodeMajor w = decode00 w := by
  unfold decodeMajor; rw [h]; rfl

theorem decodeMajor_01 {w : Nat} (h : bits w 24 7 = 1) : decodeMajor w = decode01 w := by
  unfold decodeMajor; rw [h]; rfl

theorem decodeMajor_02 {w : Nat} (h : bits w 24 7 = 2) : decodeMajor w = decode02 w := by
  unfold decodeMajor; rw [h]; rfl

theorem decodeMajor_03 {w : Nat} (h : bits w 24 7 = 3) : decodeMajor w = decode03 w := by
  unfold decodeMajor; rw [h]; rfl

theorem decodeMajor_04 {w : Nat} (h : bits w 24 7 = 4) : decodeMajor w = decode04 w := by
  unfold decodeMajor; rw [h]; rfl

theorem decodeMajor_05 {w : Nat} (h : bits w 24 7 = 5) : decodeMajor w = decode05 w := by
  unfold decodeMajor; rw [h]; rfl

theorem decodeMajor_06 {w : Nat} (h : bits w 24 7 = 6) : decodeMajor w = decode06 w := by
  unfold decodeMajor; rw [h]; rfl

theorem decodeMajor_07 {w : Nat} (h : bits w 24 7 = 7) : decodeMajor w = decode07 w := by
  unfold decodeMajor; rw [h]; rfl

theorem decodeMajor_08 {w : Nat} (h : bits w 24 7 = 8) : decodeMajor w = decode08 w := by
  unfold decodeMajor; rw [h]; rfl

theorem decodeMajor_09 {w : Nat} (h : bits w 24 7 = 9) : decodeMajor w = decode09 w := by
  unfold decodeMajor; rw [h]; rfl

theorem decodeMajor_0A {w : Nat} (h : bits w 24 7 = 10) : decodeMajor w = decode0A w := by
  unfold decodeMajor; rw [h]; rfl

theorem decodeMajor_0B {w : Nat} (h : bits w 24 7 = 11) : decodeMajor w = decode0B w := by
  unfold decodeMajor; rw [h]; rfl

theorem decodeMajor_10 {w : Nat} (h : bits w 24 7 = 16) : decodeMajor w = decode10 w := by
  unfold decodeMajor; rw [h]; rfl

theorem decodeMajor_11 {w : Nat} (h : bits w 24 7 = 17) : decodeMajor w = decode11 w := by
  unfold decodeMajor; rw [h]; rfl

theorem decodeMajor_12 {w : Nat} (h : bits w 24 7 = 18) : decodeMajor w = decode12 w := by
  unfold decodeMajor; rw [h]; rfl

theorem decodeMajor_18 {w : Nat} (h : bits w 24 7 = 24) : decodeMajor w = decode18 w := by
  unfold decodeMajor; rw [h]; rfl

theorem decodeMajor_19 {w : Nat} (h : bits w 24 7 = 25) : decodeMajor w = decode19 w := by
  unfold decodeMajor; rw [h]; rfl

theorem decodeMajor_1A {w : Nat} (h : bits w 24 7 = 26) : decodeMajor w = decode1A w := by
  unfold decodeMajor; rw [h]; rfl

theorem decodeMajor_1B {w : Nat} (h : bits w 24 7 = 27) : decodeMajor w = decode1B w := by
  unfold decodeMajor; rw [h]; rfl

theorem decodeMajor_1C {w : Nat} (h : bits w 24 7 = 28) : decodeMajor w = decode1C w := by
  unfold decodeMajor; rw [h]; rfl

theorem decodeMajor_1D {w : Nat} (h : bits w 24 7 = 29) : decodeMajor w = decode1D w := by
  unfold decodeMajor; rw [h]; rfl

theorem decodeMajor_1E {w : Nat} (h : bits w 24 7 = 30) : decodeMajor w = decode1E w := by
  unfold decodeMajor; rw [h]; rfl

theorem decodeMajor_20 {w : Nat} (h : bits w 24 7 = 32) : decodeMajor w = decode20 w := by
  unfold decodeMajor; rw [h]; rfl

theorem decodeMajor_21 {w : Nat} (h : bits w 24 7 = 33) : decodeMajor w = decode21 w := by
  unfold decodeMajor; rw [h]; rfl

theorem decodeMajor_22 {w : Nat} (h : bits w 24 7 = 34) : decodeMajor w = decode22 w := by
  unfold decodeMajor; rw [h]; rfl

theorem decodeMajor_23 {w : Nat} (h : bits w 24 7 = 35) : decodeMajor w = decode23 w := by
  unfold decodeMajor; rw [h]; rfl

theorem decodeMajor_24 {w : Nat} (h : bits w 24 7 = 36) : decodeMajor w = decode24 w := by
  unfold decodeMajor; rw [h]; rfl

theorem decodeMajor_25 {w : Nat} (h : bits w 24 7 = 37) : decodeMajor w = decode25 w := by
  unfold decodeMajor; rw [h]; rfl

theorem decodeMajor_26 {w : Nat} (h : bits w 24 7 = 38) : decodeMajor w = decode26 w := by
  unfold decodeMajor; rw [h]; rfl

theorem decodeMajor_27 {w : Nat} (h : bits w 24 7 = 39) : decodeMajor w = decode27 w := by
  unfold decodeMajor; rw [h]; rfl

theorem decodeMajor_28 {w : Nat} (h : bits w 24 7 = 40) : decodeMajor w = decode28 w := by
  unfold decodeMajor; rw [h]; rfl

theorem decodeMajor_30 {w : Nat} (h : bits w 24 7 = 48) : decodeMajor w = decode30 w := by
  unfold decodeMajor; rw [h]; rfl

theorem decodeMajor_31 {w : Nat} (h : bits w 24 7 = 49) : decodeMajor w = decode31 w := by
  unfold decodeMajor; rw [h]; rfl

theorem decodeMajor_32 {w : Nat} (h : bits w 24 7 = 50) : decodeMajor w = decode32 w := by
  unfold decodeMajor; rw [h]; rfl

theorem decodeMajor_33 {w : Nat} (h : bits w 24 7 = 51) : decodeMajor w = decode33 w := by
  unfold decodeMajor; rw [h]; rfl

theorem decodeMajor_34 {w : Nat} (h : bits w 24 7 = 52) : decodeMajor w = decode34 w := by
  unfold decodeMajor; rw [h]; rfl

theorem decodeMajor_35 {w : Nat} (h : bits w 24 7 = 53) : decodeMajor w = decode35 w := by
  unfold decodeMajor; rw [h]; rfl

theorem decodeMajor_36 {w : Nat} (h : bits w 24 7 = 54) : decodeMajor w = decode36 w := by
  unfold decodeMajor; rw [h]; rfl

theorem decodeMajor_37 {w : Nat} (h : bits w 24 7 = 55) : decodeMajor w = decode37 w := by
  unfold decodeMajor; rw [h]; rfl

theorem decodeMajor_38 {w : Nat} (h : bits w 24 7 = 56) : decodeMajor w = decode38 w := by
  unfold decodeMajor; rw [h]; rfl

theorem decodeMajor_39 {w : Nat} (h : bits w 24 7 = 57) : decodeMajor w = decode39 w := by
  unfold decodeMajor; rw [h]; rfl

theorem decodeMajor_3A {w : Nat} (h : bits w 24 7 = 58) : decodeMajor w = decode3A w := by
  unfold decodeMajor; rw [h]; rfl

theorem decodeMajor_3B {w : Nat} (h : bits w 24 7 = 59) : decodeMajor w = decode3B w := by
  unfold decodeMajor; rw [h]; rfl

theorem decodeMajor_3C {w : Nat} (h : bits w 24 7 = 60) : decodeMajor w = decode3C w := by
  unfold decodeMajor; rw [h]; rfl

theorem decodeMajor_3D {w : Nat} (h : bits w 24 7 = 61) : decodeMajor w = decode3D w := by
  unfold decodeMajor; rw [h]; rfl

theorem decodeMajor_3E {w : Nat} (h : bits w 24 7 = 62) : decodeMajor w = decode3E w := by
  unfold decodeMajor; rw [h]; rfl

theorem decodeMajor_40 {w : Nat} (h : bits w 24 7 = 64) : decodeMajor w = decode40 w := by
  unfold decodeMajor; rw [h]; rfl

theorem decodeMajor_41 {w : Nat} (h : bits w 24 7 = 65) : decodeMajor w = decode41 w := by
  unfold decodeMajor; rw [h]; rfl

theorem decodeMajor_42 {w : Nat} (h : bits w 24 7 = 66) : decodeMajor w = decode42 w := by
  unfold decodeMajor; rw [h]; rfl

theorem decodeMajor_43 {w : Nat} (h : bits w 24 7 = 67) : decodeMajor w = decode43 w := by
  unfold decodeMajor; rw [h]; rfl

theorem decodeMajor_44 {w : Nat} (h : bits w 24 7 = 68) : decodeMajor w = decode44 w := by
  unfold decodeMajor; rw [h]; rfl

theorem decodeMajor_45 {w : Nat} (h : bits w 24 7 = 69) : decodeMajor w = decode45 w := by
  unfold decodeMajor; rw [h]; rfl

theorem decodeMajor_46 {w : Nat} (h : bits w 24 7 = 70) : decodeMajor w = decode46 w := by
  unfold decodeMajor; rw [h]; rfl

theorem decodeMajor_47 {w : Nat} (h : bits w 24 7 = 71) : decodeMajor w = decode47 w := by
  unfold decodeMajor; rw [h]; rfl

theorem decodeMajor_48 {w : Nat} (h : bits w 24 7 = 72) : decodeMajor w = decode48 w := by
  unfold decodeMajor; rw [h]; rfl

theorem decodeMajor_49 {w : Nat} (h : bits w 24 7 = 73) : decodeMajor w = decode49 w := by
  unfold decodeMajor; rw [h]; rfl

theorem decodeMajor_50 {w : Nat} (h : bits w 24 7 = 80) : decodeMajor w = decode50 w := by
  unfold decodeMajor; rw [h]; rfl

theorem decodeMajor_51 {w : Nat} (h : bits w 24 7 = 81) : decodeMajor w = decode51 w := by
  unfold decodeMajor; rw [h]; rfl

theorem decodeMajor_52 {w : Nat} (h : bits w 24 7 = 82) : decodeMajor w = decode52 w := by
  unfold decodeMajor; rw [h]; rfl

theorem decodeMajor_53 {w : Nat} (h : bits w 24 7 = 83) : decodeMajor w = decode53 w := by
  unfold decodeMajor; rw [h]; rfl

theorem decodeMajor_54 {w : Nat} (h : bits w 24 7 = 84) : decodeMajor w = decode54 w := by
  unfold decodeMajor; rw [h]; rfl

theorem decodeMajor_55 {w : Nat} (h : bits w 24 7 = 85) : decodeMajor w = decode55 w := by
  unfold decodeMajor; rw [h]; rfl

theorem decodeMajor_56 {w : Nat} (h : bits w 24 7 = 86) : decodeMajor w = decode56 w := by
  unfold decodeMajor; rw [h]; rfl

theorem decodeMajor_57 {w : Nat} (h : bits w 24 7 = 87) : decodeMajor w = decode57 w := by
  unfold decodeMajor; rw [h]; rfl

theorem decodeMajor_58 {w : Nat} (h : bits w 24 7 = 88) : decodeMajor w = decode58 w := by
  unfold decodeMajor; rw [h]; rfl

theorem decodeMajor_59 {w : Nat} (h : bits w 24 7 = 89) : decodeMajor w = decode59 w := by
  unfold decodeMajor; rw [h]; rfl

theorem decodeMajor_5A {w : Nat} (h : bits w 24 7 = 90) : decodeMajor w = decode5A w := by
  unfold decodeMajor; rw [h]; rfl

theorem decodeMajor_5B {w : Nat} (h : bits w 24 7 = 91) : decodeMajor w = decode5B w := by
  unfold decodeMajor; rw [h]; rfl

theorem decodeMajor_5C {w : Nat} (h : bits w 24 7 = 92) : decodeMajor w = decode5C w := by
  unfold decodeMajor; rw [h]; rfl

theorem decodeMajor_5D {w : Nat} (h : bits w 24 7 = 93) : decodeMajor w = decode5D w := by
  unfold decodeMajor; rw [h]; rfl

theorem decodeMajor_5E {w : Nat} (h : bits w 24 7 = 94) : decodeMajor w = decode5E w := by
  unfold decodeMajor; rw [h]; rfl

theorem decodeMajor_5F {w : Nat} (h : bits w 24 7 = 95) : decodeMajor w = decode5F w := by
  unfold decodeMajor; rw [h]; rfl

theorem decodeMajor_60 {w : Nat} (h : bits w 24 7 = 96) : decodeMajor w = decode60 w := by
  unfold decodeMajor; rw [h]; rfl

theorem decodeMajor_61 {w : Nat} (h : bits w 24 7 = 97) : decodeMajor w = decode61 w := by
  unfold decodeMajor; rw [h]; rfl

theorem decodeMajor_62 {w : Nat} (h : bits w 24 7 = 98) : decodeMajor w = decode62 w := by
  unfold decodeMajor; rw [h]; rfl

theorem decodeMajor_63 {w : Nat} (h : bits w 24 7 = 99) : decodeMajor w = decode63 w := by
  unfold decodeMajor; rw [h]; rfl

theorem decodeMajor_64 {w : Nat} (h : bits w 24 7 = 100) : decodeMajor w = decode64 w := by
  unfold decodeMajor; rw [h]; rfl

theorem decodeMajor_68 {w : Nat} (h : bits w 24 7 = 104) : decodeMajor w = decode68 w := by
  unfold decodeMajor; rw [h]; rfl

theorem decodeMajor_69 {w : Nat} (h : bits w 24 7 = 105) : decodeMajor w = decode69 w := by
  unfold decodeMajor; rw [h]; rfl

theorem decodeMajor_6A {w : Nat} (h : bits w 24 7 = 106) : decodeMajor w = decode6A w := by
  unfold decodeMajor; rw [h]; rfl

theorem decodeMajor_6B {w : Nat} (h : bits w 24 7 = 107) : decodeMajor w = decode6B w := by
  unfold decodeMajor; rw [h]; rfl

theorem decodeMajor_6C {w : Nat} (h : bits w 24 7 = 108) : decodeMajor w = decode6C w := by
  unfold decodeMajor; rw [h]; rfl

theorem decodeMajor_70 {w : Nat} (h : bits w 24 7 = 112) : decodeMajor w = decode70 w := by
  unfold decodeMajor; rw [h]; rfl

theorem decodeMajor_71 {w : Nat} (h : bits w 24 7 = 113) : decodeMajor w = decode71 w := by
  unfold decodeMajor; rw [h]; rfl

theorem decodeMajor_72 {w : Nat} (h : bits w 24 7 = 114) : decodeMajor w = decode72 w := by
  unfold decodeMajor; rw [h]; rfl

theorem decodeMajor_73 {w : Nat} (h : bits w 24 7 = 115) : decodeMajor w = decode73 w := by
  unfold decodeMajor; rw [h]; rfl

theorem decodeMajor_74 {w : Nat} (h : bits w 24 7 = 116) : decodeMajor w = decode74 w := by
  unfold decodeMajor; rw [h]; rfl

theorem decodeMajor_75 {w : Nat} (h : bits w 24 7 = 117) : decodeMajor w = decode75 w := by
  unfold decodeMajor; rw [h]; rfl

theorem decodeMajor_76 {w : Nat} (h : bits w 24 7 = 118) : decodeMajor w = decode76 w := by
  unfold decodeMajor; rw [h]; rfl

theorem decodeMajor_77 {w : Nat} (h : bits w 24 7 = 119) : decodeMajor w = decode77 w := by
  unfold decodeMajor; rw [h]; rfl

theorem decodeMajor_78 {w : Nat} (h : bits w 24 7 = 120) : decodeMajor w = decode78 w := by
  unfold decodeMajor; rw [h]; rfl

theorem decodeMajor_79 {w : Nat} (h : bits w 24 7 = 121) : decodeMajor w = decode79 w := by
  unfold decodeMajor; rw [h]; rfl

theorem decodeMajor_7A {w : Nat} (h : bits w 24 7 = 122) : decodeMajor w = decode7A w := by
  unfold decodeMajor; rw [h]; rfl

theorem decodeMajor_7B {w : Nat} (h : bits w 24 7 = 123) : decodeMajor w = decode7B w := by
  unfold decodeMajor; rw [h]; rfl

theorem decodeMajor_7C {w : Nat} (h : bits w 24 7 = 124) : decodeMajor w = decode7C w := by
  unfold decodeMajor; rw [h]; rfl

theorem decodeMajor_7D {w : Nat} (h : bits w 24 7 = 125) : decodeMajor w = decode7D w := by
  unfold decodeMajor; rw [h]; rfl

theorem decodeMajor_7E {w : Nat} (h : bits w 24 7 = 126) : decodeMajor w = decode7E w := by
  unfold decodeMajor; rw [h]; rfl

theorem decodeMajor_7F {w : Nat} (h : bits w 24 7 = 127) : decodeMajor w = decode7F w := by
  unfold decodeMajor; rw [h]; rfl

/-- The row fill takes both values of its lowest bit. -/
theorem decode71_fill {w k : Nat} (h : bits w 0 4 = k) (hk : k = 0 ∨ k = 1) : decode71 w =
    res0 (bits w 1 2 == 0 && bits w 8 8 == 0) (.rfill (hdrOf w) (fld w 16 4) (fld w 4 4) (fld w 0 1)) := by
  unfold decode71; rw [h]
  obtain rfl | rfl := hk <;> rfl

/-! ## Every constructor -/

theorem WordRoundTrip.iadd (h : Hdr) (d : BitVec 6) (a : BitVec 6) (b : BitVec 6) : WordRoundTrip.Statement (.iadd h d a b) := by
  intro n he
  have i_d := d.isLt
  have i_a := a.isLt
  have i_b := b.isLt
  have he : some (h.enc + d.toNat * 16384 + a.toNat * 256 + b.toNat * 4) = some n := he
  injection he with he
  have hb : 0 + d.toNat * 16384 + a.toNat * 256 + b.toNat * 4 < 1048576 := by omega
  obtain rfl : n = h.enc + 0 * 16777216 + (0 + d.toNat * 16384 + a.toNat * 256 + b.toNat * 4) := by omega
  refine ⟨word_lt h 0 _ (by decide) hb, fun hg => ?_⟩
  have b99 : bits (h.enc + 0 * 16777216 + (0 + d.toNat * 16384 + a.toNat * 256 + b.toNat * 4)) 0 2 = 0 := by
    rw [word_bits h 0 _ 0 2 (by decide)]; simp only [bits] <;> omega
  have b0 : bits (h.enc + 0 * 16777216 + (0 + d.toNat * 16384 + a.toNat * 256 + b.toNat * 4)) 14 6 = d.toNat := by
    rw [word_bits h 0 _ 14 6 (by decide)]; simp only [bits] <;> omega
  have b1 : bits (h.enc + 0 * 16777216 + (0 + d.toNat * 16384 + a.toNat * 256 + b.toNat * 4)) 8 6 = a.toNat := by
    rw [word_bits h 0 _ 8 6 (by decide)]; simp only [bits] <;> omega
  have b2 : bits (h.enc + 0 * 16777216 + (0 + d.toNat * 16384 + a.toNat * 256 + b.toNat * 4)) 2 6 = b.toNat := by
    rw [word_bits h 0 _ 2 6 (by decide)]; simp only [bits] <;> omega
  rw [decodeNat_of hg, decodeMajor_00 (word_major h 0 _ (by decide) hb)]
  simp only [decode00, b99, word_hdr h 0 _ (by decide) hb, fld_of b0, fld_of b1, fld_of b2]

theorem WordRoundTrip.isub (h : Hdr) (d : BitVec 6) (a : BitVec 6) (b : BitVec 6) : WordRoundTrip.Statement (.isub h d a b) := by
  intro n he
  have i_d := d.isLt
  have i_a := a.isLt
  have i_b := b.isLt
  have he : some (h.enc + 1 + d.toNat * 16384 + a.toNat * 256 + b.toNat * 4) = some n := he
  injection he with he
  have hb : 1 + d.toNat * 16384 + a.toNat * 256 + b.toNat * 4 < 1048576 := by omega
  obtain rfl : n = h.enc + 0 * 16777216 + (1 + d.toNat * 16384 + a.toNat * 256 + b.toNat * 4) := by omega
  refine ⟨word_lt h 0 _ (by decide) hb, fun hg => ?_⟩
  have b99 : bits (h.enc + 0 * 16777216 + (1 + d.toNat * 16384 + a.toNat * 256 + b.toNat * 4)) 0 2 = 1 := by
    rw [word_bits h 0 _ 0 2 (by decide)]; simp only [bits] <;> omega
  have b0 : bits (h.enc + 0 * 16777216 + (1 + d.toNat * 16384 + a.toNat * 256 + b.toNat * 4)) 14 6 = d.toNat := by
    rw [word_bits h 0 _ 14 6 (by decide)]; simp only [bits] <;> omega
  have b1 : bits (h.enc + 0 * 16777216 + (1 + d.toNat * 16384 + a.toNat * 256 + b.toNat * 4)) 8 6 = a.toNat := by
    rw [word_bits h 0 _ 8 6 (by decide)]; simp only [bits] <;> omega
  have b2 : bits (h.enc + 0 * 16777216 + (1 + d.toNat * 16384 + a.toNat * 256 + b.toNat * 4)) 2 6 = b.toNat := by
    rw [word_bits h 0 _ 2 6 (by decide)]; simp only [bits] <;> omega
  rw [decodeNat_of hg, decodeMajor_00 (word_major h 0 _ (by decide) hb)]
  simp only [decode00, b99, word_hdr h 0 _ (by decide) hb, fld_of b0, fld_of b1, fld_of b2]

theorem WordRoundTrip.ineg (h : Hdr) (d : BitVec 6) (a : BitVec 6) : WordRoundTrip.Statement (.ineg h d a) := by
  intro n he
  have i_d := d.isLt
  have i_a := a.isLt
  have he : some (h.enc + 2 + d.toNat * 16384 + a.toNat * 256) = some n := he
  injection he with he
  have hb : 2 + d.toNat * 16384 + a.toNat * 256 < 1048576 := by omega
  obtain rfl : n = h.enc + 0 * 16777216 + (2 + d.toNat * 16384 + a.toNat * 256) := by omega
  refine ⟨word_lt h 0 _ (by decide) hb, fun hg => ?_⟩
  have b99 : bits (h.enc + 0 * 16777216 + (2 + d.toNat * 16384 + a.toNat * 256)) 0 2 = 2 := by
    rw [word_bits h 0 _ 0 2 (by decide)]; simp only [bits] <;> omega
  have b0 : bits (h.enc + 0 * 16777216 + (2 + d.toNat * 16384 + a.toNat * 256)) 2 6 = 0 := by
    rw [word_bits h 0 _ 2 6 (by decide)]; simp only [bits] <;> omega
  have b1 : bits (h.enc + 0 * 16777216 + (2 + d.toNat * 16384 + a.toNat * 256)) 14 6 = d.toNat := by
    rw [word_bits h 0 _ 14 6 (by decide)]; simp only [bits] <;> omega
  have b2 : bits (h.enc + 0 * 16777216 + (2 + d.toNat * 16384 + a.toNat * 256)) 8 6 = a.toNat := by
    rw [word_bits h 0 _ 8 6 (by decide)]; simp only [bits] <;> omega
  rw [decodeNat_of hg, decodeMajor_00 (word_major h 0 _ (by decide) hb)]
  simp only [decode00, b99, b0, word_hdr h 0 _ (by decide) hb, fld_of b1, fld_of b2, res0, beq_self_eq_true, if_true]

theorem WordRoundTrip.iabs (h : Hdr) (d : BitVec 6) (a : BitVec 6) : WordRoundTrip.Statement (.iabs h d a) := by
  intro n he
  have i_d := d.isLt
  have i_a := a.isLt
  have he : some (h.enc + 3 + d.toNat * 16384 + a.toNat * 256) = some n := he
  injection he with he
  have hb : 3 + d.toNat * 16384 + a.toNat * 256 < 1048576 := by omega
  obtain rfl : n = h.enc + 0 * 16777216 + (3 + d.toNat * 16384 + a.toNat * 256) := by omega
  refine ⟨word_lt h 0 _ (by decide) hb, fun hg => ?_⟩
  have b99 : bits (h.enc + 0 * 16777216 + (3 + d.toNat * 16384 + a.toNat * 256)) 0 2 = 3 := by
    rw [word_bits h 0 _ 0 2 (by decide)]; simp only [bits] <;> omega
  have b0 : bits (h.enc + 0 * 16777216 + (3 + d.toNat * 16384 + a.toNat * 256)) 2 6 = 0 := by
    rw [word_bits h 0 _ 2 6 (by decide)]; simp only [bits] <;> omega
  have b1 : bits (h.enc + 0 * 16777216 + (3 + d.toNat * 16384 + a.toNat * 256)) 14 6 = d.toNat := by
    rw [word_bits h 0 _ 14 6 (by decide)]; simp only [bits] <;> omega
  have b2 : bits (h.enc + 0 * 16777216 + (3 + d.toNat * 16384 + a.toNat * 256)) 8 6 = a.toNat := by
    rw [word_bits h 0 _ 8 6 (by decide)]; simp only [bits] <;> omega
  rw [decodeNat_of hg, decodeMajor_00 (word_major h 0 _ (by decide) hb)]
  simp only [decode00, b99, b0, word_hdr h 0 _ (by decide) hb, fld_of b1, fld_of b2, res0, beq_self_eq_true, if_true]

theorem WordRoundTrip.iaddi (h : Hdr) (d : BitVec 6) (a : BitVec 6) (i : BitVec 8) : WordRoundTrip.Statement (.iaddi h d a i) := by
  intro n he
  have i_d := d.isLt
  have i_a := a.isLt
  have i_i := i.isLt
  have he : some (h.enc + 16777216 + d.toNat * 16384 + a.toNat * 256 + i.toNat) = some n := he
  injection he with he
  have hb : 0 + d.toNat * 16384 + a.toNat * 256 + i.toNat < 1048576 := by omega
  obtain rfl : n = h.enc + 1 * 16777216 + (0 + d.toNat * 16384 + a.toNat * 256 + i.toNat) := by omega
  refine ⟨word_lt h 1 _ (by decide) hb, fun hg => ?_⟩
  have b0 : bits (h.enc + 1 * 16777216 + (0 + d.toNat * 16384 + a.toNat * 256 + i.toNat)) 14 6 = d.toNat := by
    rw [word_bits h 1 _ 14 6 (by decide)]; simp only [bits] <;> omega
  have b1 : bits (h.enc + 1 * 16777216 + (0 + d.toNat * 16384 + a.toNat * 256 + i.toNat)) 8 6 = a.toNat := by
    rw [word_bits h 1 _ 8 6 (by decide)]; simp only [bits] <;> omega
  have b2 : bits (h.enc + 1 * 16777216 + (0 + d.toNat * 16384 + a.toNat * 256 + i.toNat)) 0 8 = i.toNat := by
    rw [word_bits h 1 _ 0 8 (by decide)]; simp only [bits] <;> omega
  rw [decodeNat_of hg, decodeMajor_01 (word_major h 1 _ (by decide) hb)]
  simp only [decode01, word_hdr h 1 _ (by decide) hb, fld_of b0, fld_of b1, fld_of b2]

theorem WordRoundTrip.imul (h : Hdr) (d : BitVec 6) (a : BitVec 6) (b : BitVec 6) : WordRoundTrip.Statement (.imul h d a b) := by
  intro n he
  have i_d := d.isLt
  have i_a := a.isLt
  have i_b := b.isLt
  have he : some (h.enc + 33554432 + d.toNat * 16384 + a.toNat * 256 + b.toNat * 4) = some n := he
  injection he with he
  have hb : 0 + d.toNat * 16384 + a.toNat * 256 + b.toNat * 4 < 1048576 := by omega
  obtain rfl : n = h.enc + 2 * 16777216 + (0 + d.toNat * 16384 + a.toNat * 256 + b.toNat * 4) := by omega
  refine ⟨word_lt h 2 _ (by decide) hb, fun hg => ?_⟩
  have b99 : bits (h.enc + 2 * 16777216 + (0 + d.toNat * 16384 + a.toNat * 256 + b.toNat * 4)) 0 2 = 0 := by
    rw [word_bits h 2 _ 0 2 (by decide)]; simp only [bits] <;> omega
  have b0 : bits (h.enc + 2 * 16777216 + (0 + d.toNat * 16384 + a.toNat * 256 + b.toNat * 4)) 14 6 = d.toNat := by
    rw [word_bits h 2 _ 14 6 (by decide)]; simp only [bits] <;> omega
  have b1 : bits (h.enc + 2 * 16777216 + (0 + d.toNat * 16384 + a.toNat * 256 + b.toNat * 4)) 8 6 = a.toNat := by
    rw [word_bits h 2 _ 8 6 (by decide)]; simp only [bits] <;> omega
  have b2 : bits (h.enc + 2 * 16777216 + (0 + d.toNat * 16384 + a.toNat * 256 + b.toNat * 4)) 2 6 = b.toNat := by
    rw [word_bits h 2 _ 2 6 (by decide)]; simp only [bits] <;> omega
  rw [decodeNat_of hg, decodeMajor_02 (word_major h 2 _ (by decide) hb)]
  simp only [decode02, b99, word_hdr h 2 _ (by decide) hb, fld_of b0, fld_of b1, fld_of b2]

theorem WordRoundTrip.imulhI32 (h : Hdr) (d : BitVec 6) (a : BitVec 6) (b : BitVec 6) : WordRoundTrip.Statement (.imulhI32 h d a b) := by
  intro n he
  have i_d := d.isLt
  have i_a := a.isLt
  have i_b := b.isLt
  have he : some (h.enc + 33554433 + d.toNat * 16384 + a.toNat * 256 + b.toNat * 4) = some n := he
  injection he with he
  have hb : 1 + d.toNat * 16384 + a.toNat * 256 + b.toNat * 4 < 1048576 := by omega
  obtain rfl : n = h.enc + 2 * 16777216 + (1 + d.toNat * 16384 + a.toNat * 256 + b.toNat * 4) := by omega
  refine ⟨word_lt h 2 _ (by decide) hb, fun hg => ?_⟩
  have b99 : bits (h.enc + 2 * 16777216 + (1 + d.toNat * 16384 + a.toNat * 256 + b.toNat * 4)) 0 2 = 1 := by
    rw [word_bits h 2 _ 0 2 (by decide)]; simp only [bits] <;> omega
  have b0 : bits (h.enc + 2 * 16777216 + (1 + d.toNat * 16384 + a.toNat * 256 + b.toNat * 4)) 14 6 = d.toNat := by
    rw [word_bits h 2 _ 14 6 (by decide)]; simp only [bits] <;> omega
  have b1 : bits (h.enc + 2 * 16777216 + (1 + d.toNat * 16384 + a.toNat * 256 + b.toNat * 4)) 8 6 = a.toNat := by
    rw [word_bits h 2 _ 8 6 (by decide)]; simp only [bits] <;> omega
  have b2 : bits (h.enc + 2 * 16777216 + (1 + d.toNat * 16384 + a.toNat * 256 + b.toNat * 4)) 2 6 = b.toNat := by
    rw [word_bits h 2 _ 2 6 (by decide)]; simp only [bits] <;> omega
  rw [decodeNat_of hg, decodeMajor_02 (word_major h 2 _ (by decide) hb)]
  simp only [decode02, b99, word_hdr h 2 _ (by decide) hb, fld_of b0, fld_of b1, fld_of b2]

theorem WordRoundTrip.imulhN32 (h : Hdr) (d : BitVec 6) (a : BitVec 6) (b : BitVec 6) : WordRoundTrip.Statement (.imulhN32 h d a b) := by
  intro n he
  have i_d := d.isLt
  have i_a := a.isLt
  have i_b := b.isLt
  have he : some (h.enc + 33554434 + d.toNat * 16384 + a.toNat * 256 + b.toNat * 4) = some n := he
  injection he with he
  have hb : 2 + d.toNat * 16384 + a.toNat * 256 + b.toNat * 4 < 1048576 := by omega
  obtain rfl : n = h.enc + 2 * 16777216 + (2 + d.toNat * 16384 + a.toNat * 256 + b.toNat * 4) := by omega
  refine ⟨word_lt h 2 _ (by decide) hb, fun hg => ?_⟩
  have b99 : bits (h.enc + 2 * 16777216 + (2 + d.toNat * 16384 + a.toNat * 256 + b.toNat * 4)) 0 2 = 2 := by
    rw [word_bits h 2 _ 0 2 (by decide)]; simp only [bits] <;> omega
  have b0 : bits (h.enc + 2 * 16777216 + (2 + d.toNat * 16384 + a.toNat * 256 + b.toNat * 4)) 14 6 = d.toNat := by
    rw [word_bits h 2 _ 14 6 (by decide)]; simp only [bits] <;> omega
  have b1 : bits (h.enc + 2 * 16777216 + (2 + d.toNat * 16384 + a.toNat * 256 + b.toNat * 4)) 8 6 = a.toNat := by
    rw [word_bits h 2 _ 8 6 (by decide)]; simp only [bits] <;> omega
  have b2 : bits (h.enc + 2 * 16777216 + (2 + d.toNat * 16384 + a.toNat * 256 + b.toNat * 4)) 2 6 = b.toNat := by
    rw [word_bits h 2 _ 2 6 (by decide)]; simp only [bits] <;> omega
  rw [decodeNat_of hg, decodeMajor_02 (word_major h 2 _ (by decide) hb)]
  simp only [decode02, b99, word_hdr h 2 _ (by decide) hb, fld_of b0, fld_of b1, fld_of b2]

theorem WordRoundTrip.imad (h : Hdr) (d : BitVec 6) (a : BitVec 6) (b : BitVec 6) : WordRoundTrip.Statement (.imad h d a b) := by
  intro n he
  have i_d := d.isLt
  have i_a := a.isLt
  have i_b := b.isLt
  have he : some (h.enc + 50331648 + d.toNat * 16384 + a.toNat * 256 + b.toNat * 4) = some n := he
  injection he with he
  have hb : 0 + d.toNat * 16384 + a.toNat * 256 + b.toNat * 4 < 1048576 := by omega
  obtain rfl : n = h.enc + 3 * 16777216 + (0 + d.toNat * 16384 + a.toNat * 256 + b.toNat * 4) := by omega
  refine ⟨word_lt h 3 _ (by decide) hb, fun hg => ?_⟩
  have b99 : bits (h.enc + 3 * 16777216 + (0 + d.toNat * 16384 + a.toNat * 256 + b.toNat * 4)) 0 2 = 0 := by
    rw [word_bits h 3 _ 0 2 (by decide)]; simp only [bits] <;> omega
  have b0 : bits (h.enc + 3 * 16777216 + (0 + d.toNat * 16384 + a.toNat * 256 + b.toNat * 4)) 14 6 = d.toNat := by
    rw [word_bits h 3 _ 14 6 (by decide)]; simp only [bits] <;> omega
  have b1 : bits (h.enc + 3 * 16777216 + (0 + d.toNat * 16384 + a.toNat * 256 + b.toNat * 4)) 8 6 = a.toNat := by
    rw [word_bits h 3 _ 8 6 (by decide)]; simp only [bits] <;> omega
  have b2 : bits (h.enc + 3 * 16777216 + (0 + d.toNat * 16384 + a.toNat * 256 + b.toNat * 4)) 2 6 = b.toNat := by
    rw [word_bits h 3 _ 2 6 (by decide)]; simp only [bits] <;> omega
  rw [decodeNat_of hg, decodeMajor_03 (word_major h 3 _ (by decide) hb)]
  simp only [decode03, b99, word_hdr h 3 _ (by decide) hb, fld_of b0, fld_of b1, fld_of b2]

theorem WordRoundTrip.iminI32 (h : Hdr) (d : BitVec 6) (a : BitVec 6) (b : BitVec 6) : WordRoundTrip.Statement (.iminI32 h d a b) := by
  intro n he
  have i_d := d.isLt
  have i_a := a.isLt
  have i_b := b.isLt
  have he : some (h.enc + 67108864 + d.toNat * 16384 + a.toNat * 256 + b.toNat * 4) = some n := he
  injection he with he
  have hb : 0 + d.toNat * 16384 + a.toNat * 256 + b.toNat * 4 < 1048576 := by omega
  obtain rfl : n = h.enc + 4 * 16777216 + (0 + d.toNat * 16384 + a.toNat * 256 + b.toNat * 4) := by omega
  refine ⟨word_lt h 4 _ (by decide) hb, fun hg => ?_⟩
  have b99 : bits (h.enc + 4 * 16777216 + (0 + d.toNat * 16384 + a.toNat * 256 + b.toNat * 4)) 0 2 = 0 := by
    rw [word_bits h 4 _ 0 2 (by decide)]; simp only [bits] <;> omega
  have b0 : bits (h.enc + 4 * 16777216 + (0 + d.toNat * 16384 + a.toNat * 256 + b.toNat * 4)) 14 6 = d.toNat := by
    rw [word_bits h 4 _ 14 6 (by decide)]; simp only [bits] <;> omega
  have b1 : bits (h.enc + 4 * 16777216 + (0 + d.toNat * 16384 + a.toNat * 256 + b.toNat * 4)) 8 6 = a.toNat := by
    rw [word_bits h 4 _ 8 6 (by decide)]; simp only [bits] <;> omega
  have b2 : bits (h.enc + 4 * 16777216 + (0 + d.toNat * 16384 + a.toNat * 256 + b.toNat * 4)) 2 6 = b.toNat := by
    rw [word_bits h 4 _ 2 6 (by decide)]; simp only [bits] <;> omega
  rw [decodeNat_of hg, decodeMajor_04 (word_major h 4 _ (by decide) hb)]
  simp only [decode04, b99, word_hdr h 4 _ (by decide) hb, fld_of b0, fld_of b1, fld_of b2]

theorem WordRoundTrip.iminN32 (h : Hdr) (d : BitVec 6) (a : BitVec 6) (b : BitVec 6) : WordRoundTrip.Statement (.iminN32 h d a b) := by
  intro n he
  have i_d := d.isLt
  have i_a := a.isLt
  have i_b := b.isLt
  have he : some (h.enc + 67108865 + d.toNat * 16384 + a.toNat * 256 + b.toNat * 4) = some n := he
  injection he with he
  have hb : 1 + d.toNat * 16384 + a.toNat * 256 + b.toNat * 4 < 1048576 := by omega
  obtain rfl : n = h.enc + 4 * 16777216 + (1 + d.toNat * 16384 + a.toNat * 256 + b.toNat * 4) := by omega
  refine ⟨word_lt h 4 _ (by decide) hb, fun hg => ?_⟩
  have b99 : bits (h.enc + 4 * 16777216 + (1 + d.toNat * 16384 + a.toNat * 256 + b.toNat * 4)) 0 2 = 1 := by
    rw [word_bits h 4 _ 0 2 (by decide)]; simp only [bits] <;> omega
  have b0 : bits (h.enc + 4 * 16777216 + (1 + d.toNat * 16384 + a.toNat * 256 + b.toNat * 4)) 14 6 = d.toNat := by
    rw [word_bits h 4 _ 14 6 (by decide)]; simp only [bits] <;> omega
  have b1 : bits (h.enc + 4 * 16777216 + (1 + d.toNat * 16384 + a.toNat * 256 + b.toNat * 4)) 8 6 = a.toNat := by
    rw [word_bits h 4 _ 8 6 (by decide)]; simp only [bits] <;> omega
  have b2 : bits (h.enc + 4 * 16777216 + (1 + d.toNat * 16384 + a.toNat * 256 + b.toNat * 4)) 2 6 = b.toNat := by
    rw [word_bits h 4 _ 2 6 (by decide)]; simp only [bits] <;> omega
  rw [decodeNat_of hg, decodeMajor_04 (word_major h 4 _ (by decide) hb)]
  simp only [decode04, b99, word_hdr h 4 _ (by decide) hb, fld_of b0, fld_of b1, fld_of b2]

theorem WordRoundTrip.imaxI32 (h : Hdr) (d : BitVec 6) (a : BitVec 6) (b : BitVec 6) : WordRoundTrip.Statement (.imaxI32 h d a b) := by
  intro n he
  have i_d := d.isLt
  have i_a := a.isLt
  have i_b := b.isLt
  have he : some (h.enc + 67108866 + d.toNat * 16384 + a.toNat * 256 + b.toNat * 4) = some n := he
  injection he with he
  have hb : 2 + d.toNat * 16384 + a.toNat * 256 + b.toNat * 4 < 1048576 := by omega
  obtain rfl : n = h.enc + 4 * 16777216 + (2 + d.toNat * 16384 + a.toNat * 256 + b.toNat * 4) := by omega
  refine ⟨word_lt h 4 _ (by decide) hb, fun hg => ?_⟩
  have b99 : bits (h.enc + 4 * 16777216 + (2 + d.toNat * 16384 + a.toNat * 256 + b.toNat * 4)) 0 2 = 2 := by
    rw [word_bits h 4 _ 0 2 (by decide)]; simp only [bits] <;> omega
  have b0 : bits (h.enc + 4 * 16777216 + (2 + d.toNat * 16384 + a.toNat * 256 + b.toNat * 4)) 14 6 = d.toNat := by
    rw [word_bits h 4 _ 14 6 (by decide)]; simp only [bits] <;> omega
  have b1 : bits (h.enc + 4 * 16777216 + (2 + d.toNat * 16384 + a.toNat * 256 + b.toNat * 4)) 8 6 = a.toNat := by
    rw [word_bits h 4 _ 8 6 (by decide)]; simp only [bits] <;> omega
  have b2 : bits (h.enc + 4 * 16777216 + (2 + d.toNat * 16384 + a.toNat * 256 + b.toNat * 4)) 2 6 = b.toNat := by
    rw [word_bits h 4 _ 2 6 (by decide)]; simp only [bits] <;> omega
  rw [decodeNat_of hg, decodeMajor_04 (word_major h 4 _ (by decide) hb)]
  simp only [decode04, b99, word_hdr h 4 _ (by decide) hb, fld_of b0, fld_of b1, fld_of b2]

theorem WordRoundTrip.imaxN32 (h : Hdr) (d : BitVec 6) (a : BitVec 6) (b : BitVec 6) : WordRoundTrip.Statement (.imaxN32 h d a b) := by
  intro n he
  have i_d := d.isLt
  have i_a := a.isLt
  have i_b := b.isLt
  have he : some (h.enc + 67108867 + d.toNat * 16384 + a.toNat * 256 + b.toNat * 4) = some n := he
  injection he with he
  have hb : 3 + d.toNat * 16384 + a.toNat * 256 + b.toNat * 4 < 1048576 := by omega
  obtain rfl : n = h.enc + 4 * 16777216 + (3 + d.toNat * 16384 + a.toNat * 256 + b.toNat * 4) := by omega
  refine ⟨word_lt h 4 _ (by decide) hb, fun hg => ?_⟩
  have b99 : bits (h.enc + 4 * 16777216 + (3 + d.toNat * 16384 + a.toNat * 256 + b.toNat * 4)) 0 2 = 3 := by
    rw [word_bits h 4 _ 0 2 (by decide)]; simp only [bits] <;> omega
  have b0 : bits (h.enc + 4 * 16777216 + (3 + d.toNat * 16384 + a.toNat * 256 + b.toNat * 4)) 14 6 = d.toNat := by
    rw [word_bits h 4 _ 14 6 (by decide)]; simp only [bits] <;> omega
  have b1 : bits (h.enc + 4 * 16777216 + (3 + d.toNat * 16384 + a.toNat * 256 + b.toNat * 4)) 8 6 = a.toNat := by
    rw [word_bits h 4 _ 8 6 (by decide)]; simp only [bits] <;> omega
  have b2 : bits (h.enc + 4 * 16777216 + (3 + d.toNat * 16384 + a.toNat * 256 + b.toNat * 4)) 2 6 = b.toNat := by
    rw [word_bits h 4 _ 2 6 (by decide)]; simp only [bits] <;> omega
  rw [decodeNat_of hg, decodeMajor_04 (word_major h 4 _ (by decide) hb)]
  simp only [decode04, b99, word_hdr h 4 _ (by decide) hb, fld_of b0, fld_of b1, fld_of b2]

theorem WordRoundTrip.and (h : Hdr) (d : BitVec 6) (a : BitVec 6) (b : BitVec 6) : WordRoundTrip.Statement (.and h d a b) := by
  intro n he
  have i_d := d.isLt
  have i_a := a.isLt
  have i_b := b.isLt
  have he : some (h.enc + 83886080 + d.toNat * 16384 + a.toNat * 256 + b.toNat * 4) = some n := he
  injection he with he
  have hb : 0 + d.toNat * 16384 + a.toNat * 256 + b.toNat * 4 < 1048576 := by omega
  obtain rfl : n = h.enc + 5 * 16777216 + (0 + d.toNat * 16384 + a.toNat * 256 + b.toNat * 4) := by omega
  refine ⟨word_lt h 5 _ (by decide) hb, fun hg => ?_⟩
  have b99 : bits (h.enc + 5 * 16777216 + (0 + d.toNat * 16384 + a.toNat * 256 + b.toNat * 4)) 0 2 = 0 := by
    rw [word_bits h 5 _ 0 2 (by decide)]; simp only [bits] <;> omega
  have b0 : bits (h.enc + 5 * 16777216 + (0 + d.toNat * 16384 + a.toNat * 256 + b.toNat * 4)) 14 6 = d.toNat := by
    rw [word_bits h 5 _ 14 6 (by decide)]; simp only [bits] <;> omega
  have b1 : bits (h.enc + 5 * 16777216 + (0 + d.toNat * 16384 + a.toNat * 256 + b.toNat * 4)) 8 6 = a.toNat := by
    rw [word_bits h 5 _ 8 6 (by decide)]; simp only [bits] <;> omega
  have b2 : bits (h.enc + 5 * 16777216 + (0 + d.toNat * 16384 + a.toNat * 256 + b.toNat * 4)) 2 6 = b.toNat := by
    rw [word_bits h 5 _ 2 6 (by decide)]; simp only [bits] <;> omega
  rw [decodeNat_of hg, decodeMajor_05 (word_major h 5 _ (by decide) hb)]
  simp only [decode05, b99, word_hdr h 5 _ (by decide) hb, fld_of b0, fld_of b1, fld_of b2]

theorem WordRoundTrip.or (h : Hdr) (d : BitVec 6) (a : BitVec 6) (b : BitVec 6) : WordRoundTrip.Statement (.or h d a b) := by
  intro n he
  have i_d := d.isLt
  have i_a := a.isLt
  have i_b := b.isLt
  have he : some (h.enc + 83886081 + d.toNat * 16384 + a.toNat * 256 + b.toNat * 4) = some n := he
  injection he with he
  have hb : 1 + d.toNat * 16384 + a.toNat * 256 + b.toNat * 4 < 1048576 := by omega
  obtain rfl : n = h.enc + 5 * 16777216 + (1 + d.toNat * 16384 + a.toNat * 256 + b.toNat * 4) := by omega
  refine ⟨word_lt h 5 _ (by decide) hb, fun hg => ?_⟩
  have b99 : bits (h.enc + 5 * 16777216 + (1 + d.toNat * 16384 + a.toNat * 256 + b.toNat * 4)) 0 2 = 1 := by
    rw [word_bits h 5 _ 0 2 (by decide)]; simp only [bits] <;> omega
  have b0 : bits (h.enc + 5 * 16777216 + (1 + d.toNat * 16384 + a.toNat * 256 + b.toNat * 4)) 14 6 = d.toNat := by
    rw [word_bits h 5 _ 14 6 (by decide)]; simp only [bits] <;> omega
  have b1 : bits (h.enc + 5 * 16777216 + (1 + d.toNat * 16384 + a.toNat * 256 + b.toNat * 4)) 8 6 = a.toNat := by
    rw [word_bits h 5 _ 8 6 (by decide)]; simp only [bits] <;> omega
  have b2 : bits (h.enc + 5 * 16777216 + (1 + d.toNat * 16384 + a.toNat * 256 + b.toNat * 4)) 2 6 = b.toNat := by
    rw [word_bits h 5 _ 2 6 (by decide)]; simp only [bits] <;> omega
  rw [decodeNat_of hg, decodeMajor_05 (word_major h 5 _ (by decide) hb)]
  simp only [decode05, b99, word_hdr h 5 _ (by decide) hb, fld_of b0, fld_of b1, fld_of b2]

theorem WordRoundTrip.xor (h : Hdr) (d : BitVec 6) (a : BitVec 6) (b : BitVec 6) : WordRoundTrip.Statement (.xor h d a b) := by
  intro n he
  have i_d := d.isLt
  have i_a := a.isLt
  have i_b := b.isLt
  have he : some (h.enc + 83886082 + d.toNat * 16384 + a.toNat * 256 + b.toNat * 4) = some n := he
  injection he with he
  have hb : 2 + d.toNat * 16384 + a.toNat * 256 + b.toNat * 4 < 1048576 := by omega
  obtain rfl : n = h.enc + 5 * 16777216 + (2 + d.toNat * 16384 + a.toNat * 256 + b.toNat * 4) := by omega
  refine ⟨word_lt h 5 _ (by decide) hb, fun hg => ?_⟩
  have b99 : bits (h.enc + 5 * 16777216 + (2 + d.toNat * 16384 + a.toNat * 256 + b.toNat * 4)) 0 2 = 2 := by
    rw [word_bits h 5 _ 0 2 (by decide)]; simp only [bits] <;> omega
  have b0 : bits (h.enc + 5 * 16777216 + (2 + d.toNat * 16384 + a.toNat * 256 + b.toNat * 4)) 14 6 = d.toNat := by
    rw [word_bits h 5 _ 14 6 (by decide)]; simp only [bits] <;> omega
  have b1 : bits (h.enc + 5 * 16777216 + (2 + d.toNat * 16384 + a.toNat * 256 + b.toNat * 4)) 8 6 = a.toNat := by
    rw [word_bits h 5 _ 8 6 (by decide)]; simp only [bits] <;> omega
  have b2 : bits (h.enc + 5 * 16777216 + (2 + d.toNat * 16384 + a.toNat * 256 + b.toNat * 4)) 2 6 = b.toNat := by
    rw [word_bits h 5 _ 2 6 (by decide)]; simp only [bits] <;> omega
  rw [decodeNat_of hg, decodeMajor_05 (word_major h 5 _ (by decide) hb)]
  simp only [decode05, b99, word_hdr h 5 _ (by decide) hb, fld_of b0, fld_of b1, fld_of b2]

theorem WordRoundTrip.andn (h : Hdr) (d : BitVec 6) (a : BitVec 6) (b : BitVec 6) : WordRoundTrip.Statement (.andn h d a b) := by
  intro n he
  have i_d := d.isLt
  have i_a := a.isLt
  have i_b := b.isLt
  have he : some (h.enc + 83886083 + d.toNat * 16384 + a.toNat * 256 + b.toNat * 4) = some n := he
  injection he with he
  have hb : 3 + d.toNat * 16384 + a.toNat * 256 + b.toNat * 4 < 1048576 := by omega
  obtain rfl : n = h.enc + 5 * 16777216 + (3 + d.toNat * 16384 + a.toNat * 256 + b.toNat * 4) := by omega
  refine ⟨word_lt h 5 _ (by decide) hb, fun hg => ?_⟩
  have b99 : bits (h.enc + 5 * 16777216 + (3 + d.toNat * 16384 + a.toNat * 256 + b.toNat * 4)) 0 2 = 3 := by
    rw [word_bits h 5 _ 0 2 (by decide)]; simp only [bits] <;> omega
  have b0 : bits (h.enc + 5 * 16777216 + (3 + d.toNat * 16384 + a.toNat * 256 + b.toNat * 4)) 14 6 = d.toNat := by
    rw [word_bits h 5 _ 14 6 (by decide)]; simp only [bits] <;> omega
  have b1 : bits (h.enc + 5 * 16777216 + (3 + d.toNat * 16384 + a.toNat * 256 + b.toNat * 4)) 8 6 = a.toNat := by
    rw [word_bits h 5 _ 8 6 (by decide)]; simp only [bits] <;> omega
  have b2 : bits (h.enc + 5 * 16777216 + (3 + d.toNat * 16384 + a.toNat * 256 + b.toNat * 4)) 2 6 = b.toNat := by
    rw [word_bits h 5 _ 2 6 (by decide)]; simp only [bits] <;> omega
  rw [decodeNat_of hg, decodeMajor_05 (word_major h 5 _ (by decide) hb)]
  simp only [decode05, b99, word_hdr h 5 _ (by decide) hb, fld_of b0, fld_of b1, fld_of b2]

theorem WordRoundTrip.orn (h : Hdr) (d : BitVec 6) (a : BitVec 6) (b : BitVec 6) : WordRoundTrip.Statement (.orn h d a b) := by
  intro n he
  have i_d := d.isLt
  have i_a := a.isLt
  have i_b := b.isLt
  have he : some (h.enc + 100663296 + d.toNat * 16384 + a.toNat * 256 + b.toNat * 4) = some n := he
  injection he with he
  have hb : 0 + d.toNat * 16384 + a.toNat * 256 + b.toNat * 4 < 1048576 := by omega
  obtain rfl : n = h.enc + 6 * 16777216 + (0 + d.toNat * 16384 + a.toNat * 256 + b.toNat * 4) := by omega
  refine ⟨word_lt h 6 _ (by decide) hb, fun hg => ?_⟩
  have b99 : bits (h.enc + 6 * 16777216 + (0 + d.toNat * 16384 + a.toNat * 256 + b.toNat * 4)) 0 2 = 0 := by
    rw [word_bits h 6 _ 0 2 (by decide)]; simp only [bits] <;> omega
  have b0 : bits (h.enc + 6 * 16777216 + (0 + d.toNat * 16384 + a.toNat * 256 + b.toNat * 4)) 14 6 = d.toNat := by
    rw [word_bits h 6 _ 14 6 (by decide)]; simp only [bits] <;> omega
  have b1 : bits (h.enc + 6 * 16777216 + (0 + d.toNat * 16384 + a.toNat * 256 + b.toNat * 4)) 8 6 = a.toNat := by
    rw [word_bits h 6 _ 8 6 (by decide)]; simp only [bits] <;> omega
  have b2 : bits (h.enc + 6 * 16777216 + (0 + d.toNat * 16384 + a.toNat * 256 + b.toNat * 4)) 2 6 = b.toNat := by
    rw [word_bits h 6 _ 2 6 (by decide)]; simp only [bits] <;> omega
  rw [decodeNat_of hg, decodeMajor_06 (word_major h 6 _ (by decide) hb)]
  simp only [decode06, b99, word_hdr h 6 _ (by decide) hb, fld_of b0, fld_of b1, fld_of b2]

theorem WordRoundTrip.popc (h : Hdr) (d : BitVec 6) (a : BitVec 6) : WordRoundTrip.Statement (.popc h d a) := by
  intro n he
  have i_d := d.isLt
  have i_a := a.isLt
  have he : some (h.enc + 100663297 + d.toNat * 16384 + a.toNat * 256) = some n := he
  injection he with he
  have hb : 1 + d.toNat * 16384 + a.toNat * 256 < 1048576 := by omega
  obtain rfl : n = h.enc + 6 * 16777216 + (1 + d.toNat * 16384 + a.toNat * 256) := by omega
  refine ⟨word_lt h 6 _ (by decide) hb, fun hg => ?_⟩
  have b99 : bits (h.enc + 6 * 16777216 + (1 + d.toNat * 16384 + a.toNat * 256)) 0 2 = 1 := by
    rw [word_bits h 6 _ 0 2 (by decide)]; simp only [bits] <;> omega
  have b0 : bits (h.enc + 6 * 16777216 + (1 + d.toNat * 16384 + a.toNat * 256)) 2 6 = 0 := by
    rw [word_bits h 6 _ 2 6 (by decide)]; simp only [bits] <;> omega
  have b1 : bits (h.enc + 6 * 16777216 + (1 + d.toNat * 16384 + a.toNat * 256)) 14 6 = d.toNat := by
    rw [word_bits h 6 _ 14 6 (by decide)]; simp only [bits] <;> omega
  have b2 : bits (h.enc + 6 * 16777216 + (1 + d.toNat * 16384 + a.toNat * 256)) 8 6 = a.toNat := by
    rw [word_bits h 6 _ 8 6 (by decide)]; simp only [bits] <;> omega
  rw [decodeNat_of hg, decodeMajor_06 (word_major h 6 _ (by decide) hb)]
  simp only [decode06, b99, b0, word_hdr h 6 _ (by decide) hb, fld_of b1, fld_of b2, res0, beq_self_eq_true, if_true]

theorem WordRoundTrip.clz (h : Hdr) (d : BitVec 6) (a : BitVec 6) : WordRoundTrip.Statement (.clz h d a) := by
  intro n he
  have i_d := d.isLt
  have i_a := a.isLt
  have he : some (h.enc + 100663298 + d.toNat * 16384 + a.toNat * 256) = some n := he
  injection he with he
  have hb : 2 + d.toNat * 16384 + a.toNat * 256 < 1048576 := by omega
  obtain rfl : n = h.enc + 6 * 16777216 + (2 + d.toNat * 16384 + a.toNat * 256) := by omega
  refine ⟨word_lt h 6 _ (by decide) hb, fun hg => ?_⟩
  have b99 : bits (h.enc + 6 * 16777216 + (2 + d.toNat * 16384 + a.toNat * 256)) 0 2 = 2 := by
    rw [word_bits h 6 _ 0 2 (by decide)]; simp only [bits] <;> omega
  have b0 : bits (h.enc + 6 * 16777216 + (2 + d.toNat * 16384 + a.toNat * 256)) 2 6 = 0 := by
    rw [word_bits h 6 _ 2 6 (by decide)]; simp only [bits] <;> omega
  have b1 : bits (h.enc + 6 * 16777216 + (2 + d.toNat * 16384 + a.toNat * 256)) 14 6 = d.toNat := by
    rw [word_bits h 6 _ 14 6 (by decide)]; simp only [bits] <;> omega
  have b2 : bits (h.enc + 6 * 16777216 + (2 + d.toNat * 16384 + a.toNat * 256)) 8 6 = a.toNat := by
    rw [word_bits h 6 _ 8 6 (by decide)]; simp only [bits] <;> omega
  rw [decodeNat_of hg, decodeMajor_06 (word_major h 6 _ (by decide) hb)]
  simp only [decode06, b99, b0, word_hdr h 6 _ (by decide) hb, fld_of b1, fld_of b2, res0, beq_self_eq_true, if_true]

theorem WordRoundTrip.brev (h : Hdr) (d : BitVec 6) (a : BitVec 6) : WordRoundTrip.Statement (.brev h d a) := by
  intro n he
  have i_d := d.isLt
  have i_a := a.isLt
  have he : some (h.enc + 100663299 + d.toNat * 16384 + a.toNat * 256) = some n := he
  injection he with he
  have hb : 3 + d.toNat * 16384 + a.toNat * 256 < 1048576 := by omega
  obtain rfl : n = h.enc + 6 * 16777216 + (3 + d.toNat * 16384 + a.toNat * 256) := by omega
  refine ⟨word_lt h 6 _ (by decide) hb, fun hg => ?_⟩
  have b99 : bits (h.enc + 6 * 16777216 + (3 + d.toNat * 16384 + a.toNat * 256)) 0 2 = 3 := by
    rw [word_bits h 6 _ 0 2 (by decide)]; simp only [bits] <;> omega
  have b0 : bits (h.enc + 6 * 16777216 + (3 + d.toNat * 16384 + a.toNat * 256)) 2 6 = 0 := by
    rw [word_bits h 6 _ 2 6 (by decide)]; simp only [bits] <;> omega
  have b1 : bits (h.enc + 6 * 16777216 + (3 + d.toNat * 16384 + a.toNat * 256)) 14 6 = d.toNat := by
    rw [word_bits h 6 _ 14 6 (by decide)]; simp only [bits] <;> omega
  have b2 : bits (h.enc + 6 * 16777216 + (3 + d.toNat * 16384 + a.toNat * 256)) 8 6 = a.toNat := by
    rw [word_bits h 6 _ 8 6 (by decide)]; simp only [bits] <;> omega
  rw [decodeNat_of hg, decodeMajor_06 (word_major h 6 _ (by decide) hb)]
  simp only [decode06, b99, b0, word_hdr h 6 _ (by decide) hb, fld_of b1, fld_of b2, res0, beq_self_eq_true, if_true]

theorem WordRoundTrip.shl (h : Hdr) (d : BitVec 6) (a : BitVec 6) (b : BitVec 6) : WordRoundTrip.Statement (.shl h d a b) := by
  intro n he
  have i_d := d.isLt
  have i_a := a.isLt
  have i_b := b.isLt
  have he : some (h.enc + 117440512 + d.toNat * 16384 + a.toNat * 256 + b.toNat * 4) = some n := he
  injection he with he
  have hb : 0 + d.toNat * 16384 + a.toNat * 256 + b.toNat * 4 < 1048576 := by omega
  obtain rfl : n = h.enc + 7 * 16777216 + (0 + d.toNat * 16384 + a.toNat * 256 + b.toNat * 4) := by omega
  refine ⟨word_lt h 7 _ (by decide) hb, fun hg => ?_⟩
  have b99 : bits (h.enc + 7 * 16777216 + (0 + d.toNat * 16384 + a.toNat * 256 + b.toNat * 4)) 0 2 = 0 := by
    rw [word_bits h 7 _ 0 2 (by decide)]; simp only [bits] <;> omega
  have b0 : bits (h.enc + 7 * 16777216 + (0 + d.toNat * 16384 + a.toNat * 256 + b.toNat * 4)) 14 6 = d.toNat := by
    rw [word_bits h 7 _ 14 6 (by decide)]; simp only [bits] <;> omega
  have b1 : bits (h.enc + 7 * 16777216 + (0 + d.toNat * 16384 + a.toNat * 256 + b.toNat * 4)) 8 6 = a.toNat := by
    rw [word_bits h 7 _ 8 6 (by decide)]; simp only [bits] <;> omega
  have b2 : bits (h.enc + 7 * 16777216 + (0 + d.toNat * 16384 + a.toNat * 256 + b.toNat * 4)) 2 6 = b.toNat := by
    rw [word_bits h 7 _ 2 6 (by decide)]; simp only [bits] <;> omega
  rw [decodeNat_of hg, decodeMajor_07 (word_major h 7 _ (by decide) hb)]
  simp only [decode07, b99, word_hdr h 7 _ (by decide) hb, fld_of b0, fld_of b1, fld_of b2]

theorem WordRoundTrip.shr (h : Hdr) (d : BitVec 6) (a : BitVec 6) (b : BitVec 6) : WordRoundTrip.Statement (.shr h d a b) := by
  intro n he
  have i_d := d.isLt
  have i_a := a.isLt
  have i_b := b.isLt
  have he : some (h.enc + 117440513 + d.toNat * 16384 + a.toNat * 256 + b.toNat * 4) = some n := he
  injection he with he
  have hb : 1 + d.toNat * 16384 + a.toNat * 256 + b.toNat * 4 < 1048576 := by omega
  obtain rfl : n = h.enc + 7 * 16777216 + (1 + d.toNat * 16384 + a.toNat * 256 + b.toNat * 4) := by omega
  refine ⟨word_lt h 7 _ (by decide) hb, fun hg => ?_⟩
  have b99 : bits (h.enc + 7 * 16777216 + (1 + d.toNat * 16384 + a.toNat * 256 + b.toNat * 4)) 0 2 = 1 := by
    rw [word_bits h 7 _ 0 2 (by decide)]; simp only [bits] <;> omega
  have b0 : bits (h.enc + 7 * 16777216 + (1 + d.toNat * 16384 + a.toNat * 256 + b.toNat * 4)) 14 6 = d.toNat := by
    rw [word_bits h 7 _ 14 6 (by decide)]; simp only [bits] <;> omega
  have b1 : bits (h.enc + 7 * 16777216 + (1 + d.toNat * 16384 + a.toNat * 256 + b.toNat * 4)) 8 6 = a.toNat := by
    rw [word_bits h 7 _ 8 6 (by decide)]; simp only [bits] <;> omega
  have b2 : bits (h.enc + 7 * 16777216 + (1 + d.toNat * 16384 + a.toNat * 256 + b.toNat * 4)) 2 6 = b.toNat := by
    rw [word_bits h 7 _ 2 6 (by decide)]; simp only [bits] <;> omega
  rw [decodeNat_of hg, decodeMajor_07 (word_major h 7 _ (by decide) hb)]
  simp only [decode07, b99, word_hdr h 7 _ (by decide) hb, fld_of b0, fld_of b1, fld_of b2]

theorem WordRoundTrip.sar (h : Hdr) (d : BitVec 6) (a : BitVec 6) (b : BitVec 6) : WordRoundTrip.Statement (.sar h d a b) := by
  intro n he
  have i_d := d.isLt
  have i_a := a.isLt
  have i_b := b.isLt
  have he : some (h.enc + 117440514 + d.toNat * 16384 + a.toNat * 256 + b.toNat * 4) = some n := he
  injection he with he
  have hb : 2 + d.toNat * 16384 + a.toNat * 256 + b.toNat * 4 < 1048576 := by omega
  obtain rfl : n = h.enc + 7 * 16777216 + (2 + d.toNat * 16384 + a.toNat * 256 + b.toNat * 4) := by omega
  refine ⟨word_lt h 7 _ (by decide) hb, fun hg => ?_⟩
  have b99 : bits (h.enc + 7 * 16777216 + (2 + d.toNat * 16384 + a.toNat * 256 + b.toNat * 4)) 0 2 = 2 := by
    rw [word_bits h 7 _ 0 2 (by decide)]; simp only [bits] <;> omega
  have b0 : bits (h.enc + 7 * 16777216 + (2 + d.toNat * 16384 + a.toNat * 256 + b.toNat * 4)) 14 6 = d.toNat := by
    rw [word_bits h 7 _ 14 6 (by decide)]; simp only [bits] <;> omega
  have b1 : bits (h.enc + 7 * 16777216 + (2 + d.toNat * 16384 + a.toNat * 256 + b.toNat * 4)) 8 6 = a.toNat := by
    rw [word_bits h 7 _ 8 6 (by decide)]; simp only [bits] <;> omega
  have b2 : bits (h.enc + 7 * 16777216 + (2 + d.toNat * 16384 + a.toNat * 256 + b.toNat * 4)) 2 6 = b.toNat := by
    rw [word_bits h 7 _ 2 6 (by decide)]; simp only [bits] <;> omega
  rw [decodeNat_of hg, decodeMajor_07 (word_major h 7 _ (by decide) hb)]
  simp only [decode07, b99, word_hdr h 7 _ (by decide) hb, fld_of b0, fld_of b1, fld_of b2]

theorem WordRoundTrip.rol (h : Hdr) (d : BitVec 6) (a : BitVec 6) (b : BitVec 6) : WordRoundTrip.Statement (.rol h d a b) := by
  intro n he
  have i_d := d.isLt
  have i_a := a.isLt
  have i_b := b.isLt
  have he : some (h.enc + 117440515 + d.toNat * 16384 + a.toNat * 256 + b.toNat * 4) = some n := he
  injection he with he
  have hb : 3 + d.toNat * 16384 + a.toNat * 256 + b.toNat * 4 < 1048576 := by omega
  obtain rfl : n = h.enc + 7 * 16777216 + (3 + d.toNat * 16384 + a.toNat * 256 + b.toNat * 4) := by omega
  refine ⟨word_lt h 7 _ (by decide) hb, fun hg => ?_⟩
  have b99 : bits (h.enc + 7 * 16777216 + (3 + d.toNat * 16384 + a.toNat * 256 + b.toNat * 4)) 0 2 = 3 := by
    rw [word_bits h 7 _ 0 2 (by decide)]; simp only [bits] <;> omega
  have b0 : bits (h.enc + 7 * 16777216 + (3 + d.toNat * 16384 + a.toNat * 256 + b.toNat * 4)) 14 6 = d.toNat := by
    rw [word_bits h 7 _ 14 6 (by decide)]; simp only [bits] <;> omega
  have b1 : bits (h.enc + 7 * 16777216 + (3 + d.toNat * 16384 + a.toNat * 256 + b.toNat * 4)) 8 6 = a.toNat := by
    rw [word_bits h 7 _ 8 6 (by decide)]; simp only [bits] <;> omega
  have b2 : bits (h.enc + 7 * 16777216 + (3 + d.toNat * 16384 + a.toNat * 256 + b.toNat * 4)) 2 6 = b.toNat := by
    rw [word_bits h 7 _ 2 6 (by decide)]; simp only [bits] <;> omega
  rw [decodeNat_of hg, decodeMajor_07 (word_major h 7 _ (by decide) hb)]
  simp only [decode07, b99, word_hdr h 7 _ (by decide) hb, fld_of b0, fld_of b1, fld_of b2]

theorem WordRoundTrip.bfxN32 (h : Hdr) (d : BitVec 6) (a : BitVec 6) (b : BitVec 6) : WordRoundTrip.Statement (.bfxN32 h d a b) := by
  intro n he
  have i_d := d.isLt
  have i_a := a.isLt
  have i_b := b.isLt
  have he : some (h.enc + 134217728 + d.toNat * 16384 + a.toNat * 256 + b.toNat * 4) = some n := he
  injection he with he
  have hb : 0 + d.toNat * 16384 + a.toNat * 256 + b.toNat * 4 < 1048576 := by omega
  obtain rfl : n = h.enc + 8 * 16777216 + (0 + d.toNat * 16384 + a.toNat * 256 + b.toNat * 4) := by omega
  refine ⟨word_lt h 8 _ (by decide) hb, fun hg => ?_⟩
  have b99 : bits (h.enc + 8 * 16777216 + (0 + d.toNat * 16384 + a.toNat * 256 + b.toNat * 4)) 0 2 = 0 := by
    rw [word_bits h 8 _ 0 2 (by decide)]; simp only [bits] <;> omega
  have b0 : bits (h.enc + 8 * 16777216 + (0 + d.toNat * 16384 + a.toNat * 256 + b.toNat * 4)) 14 6 = d.toNat := by
    rw [word_bits h 8 _ 14 6 (by decide)]; simp only [bits] <;> omega
  have b1 : bits (h.enc + 8 * 16777216 + (0 + d.toNat * 16384 + a.toNat * 256 + b.toNat * 4)) 8 6 = a.toNat := by
    rw [word_bits h 8 _ 8 6 (by decide)]; simp only [bits] <;> omega
  have b2 : bits (h.enc + 8 * 16777216 + (0 + d.toNat * 16384 + a.toNat * 256 + b.toNat * 4)) 2 6 = b.toNat := by
    rw [word_bits h 8 _ 2 6 (by decide)]; simp only [bits] <;> omega
  rw [decodeNat_of hg, decodeMajor_08 (word_major h 8 _ (by decide) hb)]
  simp only [decode08, b99, word_hdr h 8 _ (by decide) hb, fld_of b0, fld_of b1, fld_of b2]

theorem WordRoundTrip.bfxI32 (h : Hdr) (d : BitVec 6) (a : BitVec 6) (b : BitVec 6) : WordRoundTrip.Statement (.bfxI32 h d a b) := by
  intro n he
  have i_d := d.isLt
  have i_a := a.isLt
  have i_b := b.isLt
  have he : some (h.enc + 134217729 + d.toNat * 16384 + a.toNat * 256 + b.toNat * 4) = some n := he
  injection he with he
  have hb : 1 + d.toNat * 16384 + a.toNat * 256 + b.toNat * 4 < 1048576 := by omega
  obtain rfl : n = h.enc + 8 * 16777216 + (1 + d.toNat * 16384 + a.toNat * 256 + b.toNat * 4) := by omega
  refine ⟨word_lt h 8 _ (by decide) hb, fun hg => ?_⟩
  have b99 : bits (h.enc + 8 * 16777216 + (1 + d.toNat * 16384 + a.toNat * 256 + b.toNat * 4)) 0 2 = 1 := by
    rw [word_bits h 8 _ 0 2 (by decide)]; simp only [bits] <;> omega
  have b0 : bits (h.enc + 8 * 16777216 + (1 + d.toNat * 16384 + a.toNat * 256 + b.toNat * 4)) 14 6 = d.toNat := by
    rw [word_bits h 8 _ 14 6 (by decide)]; simp only [bits] <;> omega
  have b1 : bits (h.enc + 8 * 16777216 + (1 + d.toNat * 16384 + a.toNat * 256 + b.toNat * 4)) 8 6 = a.toNat := by
    rw [word_bits h 8 _ 8 6 (by decide)]; simp only [bits] <;> omega
  have b2 : bits (h.enc + 8 * 16777216 + (1 + d.toNat * 16384 + a.toNat * 256 + b.toNat * 4)) 2 6 = b.toNat := by
    rw [word_bits h 8 _ 2 6 (by decide)]; simp only [bits] <;> omega
  rw [decodeNat_of hg, decodeMajor_08 (word_major h 8 _ (by decide) hb)]
  simp only [decode08, b99, word_hdr h 8 _ (by decide) hb, fld_of b0, fld_of b1, fld_of b2]

theorem WordRoundTrip.bfi (h : Hdr) (d : BitVec 6) (a : BitVec 6) (b : BitVec 6) : WordRoundTrip.Statement (.bfi h d a b) := by
  intro n he
  have i_d := d.isLt
  have i_a := a.isLt
  have i_b := b.isLt
  have he : some (h.enc + 134217730 + d.toNat * 16384 + a.toNat * 256 + b.toNat * 4) = some n := he
  injection he with he
  have hb : 2 + d.toNat * 16384 + a.toNat * 256 + b.toNat * 4 < 1048576 := by omega
  obtain rfl : n = h.enc + 8 * 16777216 + (2 + d.toNat * 16384 + a.toNat * 256 + b.toNat * 4) := by omega
  refine ⟨word_lt h 8 _ (by decide) hb, fun hg => ?_⟩
  have b99 : bits (h.enc + 8 * 16777216 + (2 + d.toNat * 16384 + a.toNat * 256 + b.toNat * 4)) 0 2 = 2 := by
    rw [word_bits h 8 _ 0 2 (by decide)]; simp only [bits] <;> omega
  have b0 : bits (h.enc + 8 * 16777216 + (2 + d.toNat * 16384 + a.toNat * 256 + b.toNat * 4)) 14 6 = d.toNat := by
    rw [word_bits h 8 _ 14 6 (by decide)]; simp only [bits] <;> omega
  have b1 : bits (h.enc + 8 * 16777216 + (2 + d.toNat * 16384 + a.toNat * 256 + b.toNat * 4)) 8 6 = a.toNat := by
    rw [word_bits h 8 _ 8 6 (by decide)]; simp only [bits] <;> omega
  have b2 : bits (h.enc + 8 * 16777216 + (2 + d.toNat * 16384 + a.toNat * 256 + b.toNat * 4)) 2 6 = b.toNat := by
    rw [word_bits h 8 _ 2 6 (by decide)]; simp only [bits] <;> omega
  rw [decodeNat_of hg, decodeMajor_08 (word_major h 8 _ (by decide) hb)]
  simp only [decode08, b99, word_hdr h 8 _ (by decide) hb, fld_of b0, fld_of b1, fld_of b2]

theorem WordRoundTrip.perm (h : Hdr) (d : BitVec 6) (a : BitVec 6) (b : BitVec 6) : WordRoundTrip.Statement (.perm h d a b) := by
  intro n he
  have i_d := d.isLt
  have i_a := a.isLt
  have i_b := b.isLt
  have he : some (h.enc + 150994944 + d.toNat * 16384 + a.toNat * 256 + b.toNat * 4) = some n := he
  injection he with he
  have hb : 0 + d.toNat * 16384 + a.toNat * 256 + b.toNat * 4 < 1048576 := by omega
  obtain rfl : n = h.enc + 9 * 16777216 + (0 + d.toNat * 16384 + a.toNat * 256 + b.toNat * 4) := by omega
  refine ⟨word_lt h 9 _ (by decide) hb, fun hg => ?_⟩
  have b99 : bits (h.enc + 9 * 16777216 + (0 + d.toNat * 16384 + a.toNat * 256 + b.toNat * 4)) 0 2 = 0 := by
    rw [word_bits h 9 _ 0 2 (by decide)]; simp only [bits] <;> omega
  have b0 : bits (h.enc + 9 * 16777216 + (0 + d.toNat * 16384 + a.toNat * 256 + b.toNat * 4)) 14 6 = d.toNat := by
    rw [word_bits h 9 _ 14 6 (by decide)]; simp only [bits] <;> omega
  have b1 : bits (h.enc + 9 * 16777216 + (0 + d.toNat * 16384 + a.toNat * 256 + b.toNat * 4)) 8 6 = a.toNat := by
    rw [word_bits h 9 _ 8 6 (by decide)]; simp only [bits] <;> omega
  have b2 : bits (h.enc + 9 * 16777216 + (0 + d.toNat * 16384 + a.toNat * 256 + b.toNat * 4)) 2 6 = b.toNat := by
    rw [word_bits h 9 _ 2 6 (by decide)]; simp only [bits] <;> omega
  rw [decodeNat_of hg, decodeMajor_09 (word_major h 9 _ (by decide) hb)]
  simp only [decode09, b99, word_hdr h 9 _ (by decide) hb, fld_of b0, fld_of b1, fld_of b2]

theorem WordRoundTrip.lea (h : Hdr) (d : BitVec 6) (a : BitVec 6) (b : BitVec 6) (hf : BitVec 2) : WordRoundTrip.Statement (.lea h d a b hf) := by
  intro n he
  have i_d := d.isLt
  have i_a := a.isLt
  have i_b := b.isLt
  have i_hf := hf.isLt
  have he : some (h.enc + 167772160 + d.toNat * 16384 + a.toNat * 256 + b.toNat * 4 + hf.toNat) = some n := he
  injection he with he
  have hb : 0 + d.toNat * 16384 + a.toNat * 256 + b.toNat * 4 + hf.toNat < 1048576 := by omega
  obtain rfl : n = h.enc + 10 * 16777216 + (0 + d.toNat * 16384 + a.toNat * 256 + b.toNat * 4 + hf.toNat) := by omega
  refine ⟨word_lt h 10 _ (by decide) hb, fun hg => ?_⟩
  have b0 : bits (h.enc + 10 * 16777216 + (0 + d.toNat * 16384 + a.toNat * 256 + b.toNat * 4 + hf.toNat)) 14 6 = d.toNat := by
    rw [word_bits h 10 _ 14 6 (by decide)]; simp only [bits] <;> omega
  have b1 : bits (h.enc + 10 * 16777216 + (0 + d.toNat * 16384 + a.toNat * 256 + b.toNat * 4 + hf.toNat)) 8 6 = a.toNat := by
    rw [word_bits h 10 _ 8 6 (by decide)]; simp only [bits] <;> omega
  have b2 : bits (h.enc + 10 * 16777216 + (0 + d.toNat * 16384 + a.toNat * 256 + b.toNat * 4 + hf.toNat)) 2 6 = b.toNat := by
    rw [word_bits h 10 _ 2 6 (by decide)]; simp only [bits] <;> omega
  have b3 : bits (h.enc + 10 * 16777216 + (0 + d.toNat * 16384 + a.toNat * 256 + b.toNat * 4 + hf.toNat)) 0 2 = hf.toNat := by
    rw [word_bits h 10 _ 0 2 (by decide)]; simp only [bits] <;> omega
  rw [decodeNat_of hg, decodeMajor_0A (word_major h 10 _ (by decide) hb)]
  simp only [decode0A, word_hdr h 10 _ (by decide) hb, fld_of b0, fld_of b1, fld_of b2, fld_of b3]

theorem WordRoundTrip.iadd64 (h : Hdr) (d : BitVec 6) (a : BitVec 6) (b : BitVec 6) : WordRoundTrip.Statement (.iadd64 h d a b) := by
  intro n he
  have i_d := d.isLt
  have i_a := a.isLt
  have i_b := b.isLt
  have he : some (h.enc + 184549376 + d.toNat * 16384 + a.toNat * 256 + b.toNat * 4) = some n := he
  injection he with he
  have hb : 0 + d.toNat * 16384 + a.toNat * 256 + b.toNat * 4 < 1048576 := by omega
  obtain rfl : n = h.enc + 11 * 16777216 + (0 + d.toNat * 16384 + a.toNat * 256 + b.toNat * 4) := by omega
  refine ⟨word_lt h 11 _ (by decide) hb, fun hg => ?_⟩
  have b99 : bits (h.enc + 11 * 16777216 + (0 + d.toNat * 16384 + a.toNat * 256 + b.toNat * 4)) 0 2 = 0 := by
    rw [word_bits h 11 _ 0 2 (by decide)]; simp only [bits] <;> omega
  have b0 : bits (h.enc + 11 * 16777216 + (0 + d.toNat * 16384 + a.toNat * 256 + b.toNat * 4)) 14 6 = d.toNat := by
    rw [word_bits h 11 _ 14 6 (by decide)]; simp only [bits] <;> omega
  have b1 : bits (h.enc + 11 * 16777216 + (0 + d.toNat * 16384 + a.toNat * 256 + b.toNat * 4)) 8 6 = a.toNat := by
    rw [word_bits h 11 _ 8 6 (by decide)]; simp only [bits] <;> omega
  have b2 : bits (h.enc + 11 * 16777216 + (0 + d.toNat * 16384 + a.toNat * 256 + b.toNat * 4)) 2 6 = b.toNat := by
    rw [word_bits h 11 _ 2 6 (by decide)]; simp only [bits] <;> omega
  rw [decodeNat_of hg, decodeMajor_0B (word_major h 11 _ (by decide) hb)]
  simp only [decode0B, b99, word_hdr h 11 _ (by decide) hb, fld_of b0, fld_of b1, fld_of b2]

theorem WordRoundTrip.isub64 (h : Hdr) (d : BitVec 6) (a : BitVec 6) (b : BitVec 6) : WordRoundTrip.Statement (.isub64 h d a b) := by
  intro n he
  have i_d := d.isLt
  have i_a := a.isLt
  have i_b := b.isLt
  have he : some (h.enc + 184549377 + d.toNat * 16384 + a.toNat * 256 + b.toNat * 4) = some n := he
  injection he with he
  have hb : 1 + d.toNat * 16384 + a.toNat * 256 + b.toNat * 4 < 1048576 := by omega
  obtain rfl : n = h.enc + 11 * 16777216 + (1 + d.toNat * 16384 + a.toNat * 256 + b.toNat * 4) := by omega
  refine ⟨word_lt h 11 _ (by decide) hb, fun hg => ?_⟩
  have b99 : bits (h.enc + 11 * 16777216 + (1 + d.toNat * 16384 + a.toNat * 256 + b.toNat * 4)) 0 2 = 1 := by
    rw [word_bits h 11 _ 0 2 (by decide)]; simp only [bits] <;> omega
  have b0 : bits (h.enc + 11 * 16777216 + (1 + d.toNat * 16384 + a.toNat * 256 + b.toNat * 4)) 14 6 = d.toNat := by
    rw [word_bits h 11 _ 14 6 (by decide)]; simp only [bits] <;> omega
  have b1 : bits (h.enc + 11 * 16777216 + (1 + d.toNat * 16384 + a.toNat * 256 + b.toNat * 4)) 8 6 = a.toNat := by
    rw [word_bits h 11 _ 8 6 (by decide)]; simp only [bits] <;> omega
  have b2 : bits (h.enc + 11 * 16777216 + (1 + d.toNat * 16384 + a.toNat * 256 + b.toNat * 4)) 2 6 = b.toNat := by
    rw [word_bits h 11 _ 2 6 (by decide)]; simp only [bits] <;> omega
  rw [decodeNat_of hg, decodeMajor_0B (word_major h 11 _ (by decide) hb)]
  simp only [decode0B, b99, word_hdr h 11 _ (by decide) hb, fld_of b0, fld_of b1, fld_of b2]

theorem WordRoundTrip.addc (h : Hdr) (d : BitVec 6) (a : BitVec 6) (b : BitVec 6) : WordRoundTrip.Statement (.addc h d a b) := by
  intro n he
  have i_d := d.isLt
  have i_a := a.isLt
  have i_b := b.isLt
  have he : some (h.enc + 184549378 + d.toNat * 16384 + a.toNat * 256 + b.toNat * 4) = some n := he
  injection he with he
  have hb : 2 + d.toNat * 16384 + a.toNat * 256 + b.toNat * 4 < 1048576 := by omega
  obtain rfl : n = h.enc + 11 * 16777216 + (2 + d.toNat * 16384 + a.toNat * 256 + b.toNat * 4) := by omega
  refine ⟨word_lt h 11 _ (by decide) hb, fun hg => ?_⟩
  have b99 : bits (h.enc + 11 * 16777216 + (2 + d.toNat * 16384 + a.toNat * 256 + b.toNat * 4)) 0 2 = 2 := by
    rw [word_bits h 11 _ 0 2 (by decide)]; simp only [bits] <;> omega
  have b0 : bits (h.enc + 11 * 16777216 + (2 + d.toNat * 16384 + a.toNat * 256 + b.toNat * 4)) 14 6 = d.toNat := by
    rw [word_bits h 11 _ 14 6 (by decide)]; simp only [bits] <;> omega
  have b1 : bits (h.enc + 11 * 16777216 + (2 + d.toNat * 16384 + a.toNat * 256 + b.toNat * 4)) 8 6 = a.toNat := by
    rw [word_bits h 11 _ 8 6 (by decide)]; simp only [bits] <;> omega
  have b2 : bits (h.enc + 11 * 16777216 + (2 + d.toNat * 16384 + a.toNat * 256 + b.toNat * 4)) 2 6 = b.toNat := by
    rw [word_bits h 11 _ 2 6 (by decide)]; simp only [bits] <;> omega
  rw [decodeNat_of hg, decodeMajor_0B (word_major h 11 _ (by decide) hb)]
  simp only [decode0B, b99, word_hdr h 11 _ (by decide) hb, fld_of b0, fld_of b1, fld_of b2]

theorem WordRoundTrip.sopAdd (h : Hdr) (d : BitVec 6) (a : BitVec 6) (b : BitVec 6) : WordRoundTrip.Statement (.sopAdd h d a b) := by
  intro n he
  have i_d := d.isLt
  have i_a := a.isLt
  have i_b := b.isLt
  have he : some (h.enc + 268435456 + d.toNat * 16384 + a.toNat * 256 + b.toNat * 4) = some n := he
  injection he with he
  have hb : 0 + d.toNat * 16384 + a.toNat * 256 + b.toNat * 4 < 1048576 := by omega
  obtain rfl : n = h.enc + 16 * 16777216 + (0 + d.toNat * 16384 + a.toNat * 256 + b.toNat * 4) := by omega
  refine ⟨word_lt h 16 _ (by decide) hb, fun hg => ?_⟩
  have b99 : bits (h.enc + 16 * 16777216 + (0 + d.toNat * 16384 + a.toNat * 256 + b.toNat * 4)) 0 2 = 0 := by
    rw [word_bits h 16 _ 0 2 (by decide)]; simp only [bits] <;> omega
  have b0 : bits (h.enc + 16 * 16777216 + (0 + d.toNat * 16384 + a.toNat * 256 + b.toNat * 4)) 14 6 = d.toNat := by
    rw [word_bits h 16 _ 14 6 (by decide)]; simp only [bits] <;> omega
  have b1 : bits (h.enc + 16 * 16777216 + (0 + d.toNat * 16384 + a.toNat * 256 + b.toNat * 4)) 8 6 = a.toNat := by
    rw [word_bits h 16 _ 8 6 (by decide)]; simp only [bits] <;> omega
  have b2 : bits (h.enc + 16 * 16777216 + (0 + d.toNat * 16384 + a.toNat * 256 + b.toNat * 4)) 2 6 = b.toNat := by
    rw [word_bits h 16 _ 2 6 (by decide)]; simp only [bits] <;> omega
  rw [decodeNat_of hg, decodeMajor_10 (word_major h 16 _ (by decide) hb)]
  simp only [decode10, b99, word_hdr h 16 _ (by decide) hb, fld_of b0, fld_of b1, fld_of b2]

theorem WordRoundTrip.sopSub (h : Hdr) (d : BitVec 6) (a : BitVec 6) (b : BitVec 6) : WordRoundTrip.Statement (.sopSub h d a b) := by
  intro n he
  have i_d := d.isLt
  have i_a := a.isLt
  have i_b := b.isLt
  have he : some (h.enc + 268435457 + d.toNat * 16384 + a.toNat * 256 + b.toNat * 4) = some n := he
  injection he with he
  have hb : 1 + d.toNat * 16384 + a.toNat * 256 + b.toNat * 4 < 1048576 := by omega
  obtain rfl : n = h.enc + 16 * 16777216 + (1 + d.toNat * 16384 + a.toNat * 256 + b.toNat * 4) := by omega
  refine ⟨word_lt h 16 _ (by decide) hb, fun hg => ?_⟩
  have b99 : bits (h.enc + 16 * 16777216 + (1 + d.toNat * 16384 + a.toNat * 256 + b.toNat * 4)) 0 2 = 1 := by
    rw [word_bits h 16 _ 0 2 (by decide)]; simp only [bits] <;> omega
  have b0 : bits (h.enc + 16 * 16777216 + (1 + d.toNat * 16384 + a.toNat * 256 + b.toNat * 4)) 14 6 = d.toNat := by
    rw [word_bits h 16 _ 14 6 (by decide)]; simp only [bits] <;> omega
  have b1 : bits (h.enc + 16 * 16777216 + (1 + d.toNat * 16384 + a.toNat * 256 + b.toNat * 4)) 8 6 = a.toNat := by
    rw [word_bits h 16 _ 8 6 (by decide)]; simp only [bits] <;> omega
  have b2 : bits (h.enc + 16 * 16777216 + (1 + d.toNat * 16384 + a.toNat * 256 + b.toNat * 4)) 2 6 = b.toNat := by
    rw [word_bits h 16 _ 2 6 (by decide)]; simp only [bits] <;> omega
  rw [decodeNat_of hg, decodeMajor_10 (word_major h 16 _ (by decide) hb)]
  simp only [decode10, b99, word_hdr h 16 _ (by decide) hb, fld_of b0, fld_of b1, fld_of b2]

theorem WordRoundTrip.sopMul (h : Hdr) (d : BitVec 6) (a : BitVec 6) (b : BitVec 6) : WordRoundTrip.Statement (.sopMul h d a b) := by
  intro n he
  have i_d := d.isLt
  have i_a := a.isLt
  have i_b := b.isLt
  have he : some (h.enc + 268435458 + d.toNat * 16384 + a.toNat * 256 + b.toNat * 4) = some n := he
  injection he with he
  have hb : 2 + d.toNat * 16384 + a.toNat * 256 + b.toNat * 4 < 1048576 := by omega
  obtain rfl : n = h.enc + 16 * 16777216 + (2 + d.toNat * 16384 + a.toNat * 256 + b.toNat * 4) := by omega
  refine ⟨word_lt h 16 _ (by decide) hb, fun hg => ?_⟩
  have b99 : bits (h.enc + 16 * 16777216 + (2 + d.toNat * 16384 + a.toNat * 256 + b.toNat * 4)) 0 2 = 2 := by
    rw [word_bits h 16 _ 0 2 (by decide)]; simp only [bits] <;> omega
  have b0 : bits (h.enc + 16 * 16777216 + (2 + d.toNat * 16384 + a.toNat * 256 + b.toNat * 4)) 14 6 = d.toNat := by
    rw [word_bits h 16 _ 14 6 (by decide)]; simp only [bits] <;> omega
  have b1 : bits (h.enc + 16 * 16777216 + (2 + d.toNat * 16384 + a.toNat * 256 + b.toNat * 4)) 8 6 = a.toNat := by
    rw [word_bits h 16 _ 8 6 (by decide)]; simp only [bits] <;> omega
  have b2 : bits (h.enc + 16 * 16777216 + (2 + d.toNat * 16384 + a.toNat * 256 + b.toNat * 4)) 2 6 = b.toNat := by
    rw [word_bits h 16 _ 2 6 (by decide)]; simp only [bits] <;> omega
  rw [decodeNat_of hg, decodeMajor_10 (word_major h 16 _ (by decide) hb)]
  simp only [decode10, b99, word_hdr h 16 _ (by decide) hb, fld_of b0, fld_of b1, fld_of b2]

theorem WordRoundTrip.sopAnd (h : Hdr) (d : BitVec 6) (a : BitVec 6) (b : BitVec 6) : WordRoundTrip.Statement (.sopAnd h d a b) := by
  intro n he
  have i_d := d.isLt
  have i_a := a.isLt
  have i_b := b.isLt
  have he : some (h.enc + 268435459 + d.toNat * 16384 + a.toNat * 256 + b.toNat * 4) = some n := he
  injection he with he
  have hb : 3 + d.toNat * 16384 + a.toNat * 256 + b.toNat * 4 < 1048576 := by omega
  obtain rfl : n = h.enc + 16 * 16777216 + (3 + d.toNat * 16384 + a.toNat * 256 + b.toNat * 4) := by omega
  refine ⟨word_lt h 16 _ (by decide) hb, fun hg => ?_⟩
  have b99 : bits (h.enc + 16 * 16777216 + (3 + d.toNat * 16384 + a.toNat * 256 + b.toNat * 4)) 0 2 = 3 := by
    rw [word_bits h 16 _ 0 2 (by decide)]; simp only [bits] <;> omega
  have b0 : bits (h.enc + 16 * 16777216 + (3 + d.toNat * 16384 + a.toNat * 256 + b.toNat * 4)) 14 6 = d.toNat := by
    rw [word_bits h 16 _ 14 6 (by decide)]; simp only [bits] <;> omega
  have b1 : bits (h.enc + 16 * 16777216 + (3 + d.toNat * 16384 + a.toNat * 256 + b.toNat * 4)) 8 6 = a.toNat := by
    rw [word_bits h 16 _ 8 6 (by decide)]; simp only [bits] <;> omega
  have b2 : bits (h.enc + 16 * 16777216 + (3 + d.toNat * 16384 + a.toNat * 256 + b.toNat * 4)) 2 6 = b.toNat := by
    rw [word_bits h 16 _ 2 6 (by decide)]; simp only [bits] <;> omega
  rw [decodeNat_of hg, decodeMajor_10 (word_major h 16 _ (by decide) hb)]
  simp only [decode10, b99, word_hdr h 16 _ (by decide) hb, fld_of b0, fld_of b1, fld_of b2]

theorem WordRoundTrip.sopOr (h : Hdr) (d : BitVec 6) (a : BitVec 6) (b : BitVec 6) : WordRoundTrip.Statement (.sopOr h d a b) := by
  intro n he
  have i_d := d.isLt
  have i_a := a.isLt
  have i_b := b.isLt
  have he : some (h.enc + 285212672 + d.toNat * 16384 + a.toNat * 256 + b.toNat * 4) = some n := he
  injection he with he
  have hb : 0 + d.toNat * 16384 + a.toNat * 256 + b.toNat * 4 < 1048576 := by omega
  obtain rfl : n = h.enc + 17 * 16777216 + (0 + d.toNat * 16384 + a.toNat * 256 + b.toNat * 4) := by omega
  refine ⟨word_lt h 17 _ (by decide) hb, fun hg => ?_⟩
  have b99 : bits (h.enc + 17 * 16777216 + (0 + d.toNat * 16384 + a.toNat * 256 + b.toNat * 4)) 0 2 = 0 := by
    rw [word_bits h 17 _ 0 2 (by decide)]; simp only [bits] <;> omega
  have b0 : bits (h.enc + 17 * 16777216 + (0 + d.toNat * 16384 + a.toNat * 256 + b.toNat * 4)) 14 6 = d.toNat := by
    rw [word_bits h 17 _ 14 6 (by decide)]; simp only [bits] <;> omega
  have b1 : bits (h.enc + 17 * 16777216 + (0 + d.toNat * 16384 + a.toNat * 256 + b.toNat * 4)) 8 6 = a.toNat := by
    rw [word_bits h 17 _ 8 6 (by decide)]; simp only [bits] <;> omega
  have b2 : bits (h.enc + 17 * 16777216 + (0 + d.toNat * 16384 + a.toNat * 256 + b.toNat * 4)) 2 6 = b.toNat := by
    rw [word_bits h 17 _ 2 6 (by decide)]; simp only [bits] <;> omega
  rw [decodeNat_of hg, decodeMajor_11 (word_major h 17 _ (by decide) hb)]
  simp only [decode11, b99, word_hdr h 17 _ (by decide) hb, fld_of b0, fld_of b1, fld_of b2]

theorem WordRoundTrip.sopXor (h : Hdr) (d : BitVec 6) (a : BitVec 6) (b : BitVec 6) : WordRoundTrip.Statement (.sopXor h d a b) := by
  intro n he
  have i_d := d.isLt
  have i_a := a.isLt
  have i_b := b.isLt
  have he : some (h.enc + 285212673 + d.toNat * 16384 + a.toNat * 256 + b.toNat * 4) = some n := he
  injection he with he
  have hb : 1 + d.toNat * 16384 + a.toNat * 256 + b.toNat * 4 < 1048576 := by omega
  obtain rfl : n = h.enc + 17 * 16777216 + (1 + d.toNat * 16384 + a.toNat * 256 + b.toNat * 4) := by omega
  refine ⟨word_lt h 17 _ (by decide) hb, fun hg => ?_⟩
  have b99 : bits (h.enc + 17 * 16777216 + (1 + d.toNat * 16384 + a.toNat * 256 + b.toNat * 4)) 0 2 = 1 := by
    rw [word_bits h 17 _ 0 2 (by decide)]; simp only [bits] <;> omega
  have b0 : bits (h.enc + 17 * 16777216 + (1 + d.toNat * 16384 + a.toNat * 256 + b.toNat * 4)) 14 6 = d.toNat := by
    rw [word_bits h 17 _ 14 6 (by decide)]; simp only [bits] <;> omega
  have b1 : bits (h.enc + 17 * 16777216 + (1 + d.toNat * 16384 + a.toNat * 256 + b.toNat * 4)) 8 6 = a.toNat := by
    rw [word_bits h 17 _ 8 6 (by decide)]; simp only [bits] <;> omega
  have b2 : bits (h.enc + 17 * 16777216 + (1 + d.toNat * 16384 + a.toNat * 256 + b.toNat * 4)) 2 6 = b.toNat := by
    rw [word_bits h 17 _ 2 6 (by decide)]; simp only [bits] <;> omega
  rw [decodeNat_of hg, decodeMajor_11 (word_major h 17 _ (by decide) hb)]
  simp only [decode11, b99, word_hdr h 17 _ (by decide) hb, fld_of b0, fld_of b1, fld_of b2]

theorem WordRoundTrip.sopShl (h : Hdr) (d : BitVec 6) (a : BitVec 6) (b : BitVec 6) : WordRoundTrip.Statement (.sopShl h d a b) := by
  intro n he
  have i_d := d.isLt
  have i_a := a.isLt
  have i_b := b.isLt
  have he : some (h.enc + 285212674 + d.toNat * 16384 + a.toNat * 256 + b.toNat * 4) = some n := he
  injection he with he
  have hb : 2 + d.toNat * 16384 + a.toNat * 256 + b.toNat * 4 < 1048576 := by omega
  obtain rfl : n = h.enc + 17 * 16777216 + (2 + d.toNat * 16384 + a.toNat * 256 + b.toNat * 4) := by omega
  refine ⟨word_lt h 17 _ (by decide) hb, fun hg => ?_⟩
  have b99 : bits (h.enc + 17 * 16777216 + (2 + d.toNat * 16384 + a.toNat * 256 + b.toNat * 4)) 0 2 = 2 := by
    rw [word_bits h 17 _ 0 2 (by decide)]; simp only [bits] <;> omega
  have b0 : bits (h.enc + 17 * 16777216 + (2 + d.toNat * 16384 + a.toNat * 256 + b.toNat * 4)) 14 6 = d.toNat := by
    rw [word_bits h 17 _ 14 6 (by decide)]; simp only [bits] <;> omega
  have b1 : bits (h.enc + 17 * 16777216 + (2 + d.toNat * 16384 + a.toNat * 256 + b.toNat * 4)) 8 6 = a.toNat := by
    rw [word_bits h 17 _ 8 6 (by decide)]; simp only [bits] <;> omega
  have b2 : bits (h.enc + 17 * 16777216 + (2 + d.toNat * 16384 + a.toNat * 256 + b.toNat * 4)) 2 6 = b.toNat := by
    rw [word_bits h 17 _ 2 6 (by decide)]; simp only [bits] <;> omega
  rw [decodeNat_of hg, decodeMajor_11 (word_major h 17 _ (by decide) hb)]
  simp only [decode11, b99, word_hdr h 17 _ (by decide) hb, fld_of b0, fld_of b1, fld_of b2]

theorem WordRoundTrip.sopShr (h : Hdr) (d : BitVec 6) (a : BitVec 6) (b : BitVec 6) : WordRoundTrip.Statement (.sopShr h d a b) := by
  intro n he
  have i_d := d.isLt
  have i_a := a.isLt
  have i_b := b.isLt
  have he : some (h.enc + 285212675 + d.toNat * 16384 + a.toNat * 256 + b.toNat * 4) = some n := he
  injection he with he
  have hb : 3 + d.toNat * 16384 + a.toNat * 256 + b.toNat * 4 < 1048576 := by omega
  obtain rfl : n = h.enc + 17 * 16777216 + (3 + d.toNat * 16384 + a.toNat * 256 + b.toNat * 4) := by omega
  refine ⟨word_lt h 17 _ (by decide) hb, fun hg => ?_⟩
  have b99 : bits (h.enc + 17 * 16777216 + (3 + d.toNat * 16384 + a.toNat * 256 + b.toNat * 4)) 0 2 = 3 := by
    rw [word_bits h 17 _ 0 2 (by decide)]; simp only [bits] <;> omega
  have b0 : bits (h.enc + 17 * 16777216 + (3 + d.toNat * 16384 + a.toNat * 256 + b.toNat * 4)) 14 6 = d.toNat := by
    rw [word_bits h 17 _ 14 6 (by decide)]; simp only [bits] <;> omega
  have b1 : bits (h.enc + 17 * 16777216 + (3 + d.toNat * 16384 + a.toNat * 256 + b.toNat * 4)) 8 6 = a.toNat := by
    rw [word_bits h 17 _ 8 6 (by decide)]; simp only [bits] <;> omega
  have b2 : bits (h.enc + 17 * 16777216 + (3 + d.toNat * 16384 + a.toNat * 256 + b.toNat * 4)) 2 6 = b.toNat := by
    rw [word_bits h 17 _ 2 6 (by decide)]; simp only [bits] <;> omega
  rw [decodeNat_of hg, decodeMajor_11 (word_major h 17 _ (by decide) hb)]
  simp only [decode11, b99, word_hdr h 17 _ (by decide) hb, fld_of b0, fld_of b1, fld_of b2]

theorem WordRoundTrip.scmp (h : Hdr) (q : BitVec 4) (a : BitVec 5) (b : BitVec 5) (c : BitVec 4) : WordRoundTrip.Statement (.scmp h q a b c) := by
  intro n he
  have i_q := q.isLt
  have i_a := a.isLt
  have i_b := b.isLt
  have i_c := c.isLt
  have he : some (h.enc + 301989888 + q.toNat * 65536 + a.toNat * 1024 + b.toNat * 16 + c.toNat) = some n := he
  injection he with he
  have hb : 0 + q.toNat * 65536 + a.toNat * 1024 + b.toNat * 16 + c.toNat < 1048576 := by omega
  obtain rfl : n = h.enc + 18 * 16777216 + (0 + q.toNat * 65536 + a.toNat * 1024 + b.toNat * 16 + c.toNat) := by omega
  refine ⟨word_lt h 18 _ (by decide) hb, fun hg => ?_⟩
  have b0 : bits (h.enc + 18 * 16777216 + (0 + q.toNat * 65536 + a.toNat * 1024 + b.toNat * 16 + c.toNat)) 9 1 = 0 := by
    rw [word_bits h 18 _ 9 1 (by decide)]; simp only [bits] <;> omega
  have b1 : bits (h.enc + 18 * 16777216 + (0 + q.toNat * 65536 + a.toNat * 1024 + b.toNat * 16 + c.toNat)) 15 1 = 0 := by
    rw [word_bits h 18 _ 15 1 (by decide)]; simp only [bits] <;> omega
  have b2 : bits (h.enc + 18 * 16777216 + (0 + q.toNat * 65536 + a.toNat * 1024 + b.toNat * 16 + c.toNat)) 16 4 = q.toNat := by
    rw [word_bits h 18 _ 16 4 (by decide)]; simp only [bits] <;> omega
  have b3 : bits (h.enc + 18 * 16777216 + (0 + q.toNat * 65536 + a.toNat * 1024 + b.toNat * 16 + c.toNat)) 10 5 = a.toNat := by
    rw [word_bits h 18 _ 10 5 (by decide)]; simp only [bits] <;> omega
  have b4 : bits (h.enc + 18 * 16777216 + (0 + q.toNat * 65536 + a.toNat * 1024 + b.toNat * 16 + c.toNat)) 4 5 = b.toNat := by
    rw [word_bits h 18 _ 4 5 (by decide)]; simp only [bits] <;> omega
  have b5 : bits (h.enc + 18 * 16777216 + (0 + q.toNat * 65536 + a.toNat * 1024 + b.toNat * 16 + c.toNat)) 0 4 = c.toNat := by
    rw [word_bits h 18 _ 0 4 (by decide)]; simp only [bits] <;> omega
  rw [decodeNat_of hg, decodeMajor_12 (word_major h 18 _ (by decide) hb)]
  simp only [decode12, b0, b1, word_hdr h 18 _ (by decide) hb, fld_of b2, fld_of b3, fld_of b4, fld_of b5, res0, beq_self_eq_true, Bool.and_self, if_true]

theorem WordRoundTrip.icmp (h : Hdr) (q : BitVec 4) (a : BitVec 4) (b : BitVec 6) (c : BitVec 4) : WordRoundTrip.Statement (.icmp h q a b c) := by
  intro n he
  have i_q := q.isLt
  have i_a := a.isLt
  have i_b := b.isLt
  have i_c := c.isLt
  have he : some (h.enc + 402653184 + q.toNat * 65536 + a.toNat * 1024 + b.toNat * 16 + c.toNat) = some n := he
  injection he with he
  have hb : 0 + q.toNat * 65536 + a.toNat * 1024 + b.toNat * 16 + c.toNat < 1048576 := by omega
  obtain rfl : n = h.enc + 24 * 16777216 + (0 + q.toNat * 65536 + a.toNat * 1024 + b.toNat * 16 + c.toNat) := by omega
  refine ⟨word_lt h 24 _ (by decide) hb, fun hg => ?_⟩
  have b0 : bits (h.enc + 24 * 16777216 + (0 + q.toNat * 65536 + a.toNat * 1024 + b.toNat * 16 + c.toNat)) 14 2 = 0 := by
    rw [word_bits h 24 _ 14 2 (by decide)]; simp only [bits] <;> omega
  have b1 : bits (h.enc + 24 * 16777216 + (0 + q.toNat * 65536 + a.toNat * 1024 + b.toNat * 16 + c.toNat)) 16 4 = q.toNat := by
    rw [word_bits h 24 _ 16 4 (by decide)]; simp only [bits] <;> omega
  have b2 : bits (h.enc + 24 * 16777216 + (0 + q.toNat * 65536 + a.toNat * 1024 + b.toNat * 16 + c.toNat)) 10 4 = a.toNat := by
    rw [word_bits h 24 _ 10 4 (by decide)]; simp only [bits] <;> omega
  have b3 : bits (h.enc + 24 * 16777216 + (0 + q.toNat * 65536 + a.toNat * 1024 + b.toNat * 16 + c.toNat)) 4 6 = b.toNat := by
    rw [word_bits h 24 _ 4 6 (by decide)]; simp only [bits] <;> omega
  have b4 : bits (h.enc + 24 * 16777216 + (0 + q.toNat * 65536 + a.toNat * 1024 + b.toNat * 16 + c.toNat)) 0 4 = c.toNat := by
    rw [word_bits h 24 _ 0 4 (by decide)]; simp only [bits] <;> omega
  rw [decodeNat_of hg, decodeMajor_18 (word_major h 24 _ (by decide) hb)]
  simp only [decode18, b0, word_hdr h 24 _ (by decide) hb, fld_of b1, fld_of b2, fld_of b3, fld_of b4, res0, beq_self_eq_true, if_true]

theorem WordRoundTrip.icmpi (h : Hdr) (q : BitVec 4) (a : BitVec 6) (i : BitVec 6) (c : BitVec 4) : WordRoundTrip.Statement (.icmpi h q a i c) := by
  intro n he
  have i_q := q.isLt
  have i_a := a.isLt
  have i_i := i.isLt
  have i_c := c.isLt
  have he : some (h.enc + 419430400 + q.toNat * 65536 + a.toNat * 1024 + i.toNat * 16 + c.toNat) = some n := he
  injection he with he
  have hb : 0 + q.toNat * 65536 + a.toNat * 1024 + i.toNat * 16 + c.toNat < 1048576 := by omega
  obtain rfl : n = h.enc + 25 * 16777216 + (0 + q.toNat * 65536 + a.toNat * 1024 + i.toNat * 16 + c.toNat) := by omega
  refine ⟨word_lt h 25 _ (by decide) hb, fun hg => ?_⟩
  have b0 : bits (h.enc + 25 * 16777216 + (0 + q.toNat * 65536 + a.toNat * 1024 + i.toNat * 16 + c.toNat)) 16 4 = q.toNat := by
    rw [word_bits h 25 _ 16 4 (by decide)]; simp only [bits] <;> omega
  have b1 : bits (h.enc + 25 * 16777216 + (0 + q.toNat * 65536 + a.toNat * 1024 + i.toNat * 16 + c.toNat)) 10 6 = a.toNat := by
    rw [word_bits h 25 _ 10 6 (by decide)]; simp only [bits] <;> omega
  have b2 : bits (h.enc + 25 * 16777216 + (0 + q.toNat * 65536 + a.toNat * 1024 + i.toNat * 16 + c.toNat)) 4 6 = i.toNat := by
    rw [word_bits h 25 _ 4 6 (by decide)]; simp only [bits] <;> omega
  have b3 : bits (h.enc + 25 * 16777216 + (0 + q.toNat * 65536 + a.toNat * 1024 + i.toNat * 16 + c.toNat)) 0 4 = c.toNat := by
    rw [word_bits h 25 _ 0 4 (by decide)]; simp only [bits] <;> omega
  rw [decodeNat_of hg, decodeMajor_19 (word_major h 25 _ (by decide) hb)]
  simp only [decode19, word_hdr h 25 _ (by decide) hb, fld_of b0, fld_of b1, fld_of b2, fld_of b3]

theorem WordRoundTrip.mov (h : Hdr) (d : BitVec 6) (a : BitVec 6) : WordRoundTrip.Statement (.mov h d a) := by
  intro n he
  have i_d := d.isLt
  have i_a := a.isLt
  have he : some (h.enc + 436207616 + d.toNat * 16384 + a.toNat * 256) = some n := he
  injection he with he
  have hb : 0 + d.toNat * 16384 + a.toNat * 256 < 1048576 := by omega
  obtain rfl : n = h.enc + 26 * 16777216 + (0 + d.toNat * 16384 + a.toNat * 256) := by omega
  refine ⟨word_lt h 26 _ (by decide) hb, fun hg => ?_⟩
  have b99 : bits (h.enc + 26 * 16777216 + (0 + d.toNat * 16384 + a.toNat * 256)) 0 2 = 0 := by
    rw [word_bits h 26 _ 0 2 (by decide)]; simp only [bits] <;> omega
  have b0 : bits (h.enc + 26 * 16777216 + (0 + d.toNat * 16384 + a.toNat * 256)) 2 6 = 0 := by
    rw [word_bits h 26 _ 2 6 (by decide)]; simp only [bits] <;> omega
  have b1 : bits (h.enc + 26 * 16777216 + (0 + d.toNat * 16384 + a.toNat * 256)) 14 6 = d.toNat := by
    rw [word_bits h 26 _ 14 6 (by decide)]; simp only [bits] <;> omega
  have b2 : bits (h.enc + 26 * 16777216 + (0 + d.toNat * 16384 + a.toNat * 256)) 8 6 = a.toNat := by
    rw [word_bits h 26 _ 8 6 (by decide)]; simp only [bits] <;> omega
  rw [decodeNat_of hg, decodeMajor_1A (word_major h 26 _ (by decide) hb)]
  simp only [decode1A, b99, b0, word_hdr h 26 _ (by decide) hb, fld_of b1, fld_of b2, res0, beq_self_eq_true, if_true]

theorem WordRoundTrip.movi (h : Hdr) (d : BitVec 6) (i : BitVec 14) : WordRoundTrip.Statement (.movi h d i) := by
  intro n he
  have i_d := d.isLt
  have i_i := i.isLt
  have he : some (h.enc + 452984832 + d.toNat * 16384 + i.toNat) = some n := he
  injection he with he
  have hb : 0 + d.toNat * 16384 + i.toNat < 1048576 := by omega
  obtain rfl : n = h.enc + 27 * 16777216 + (0 + d.toNat * 16384 + i.toNat) := by omega
  refine ⟨word_lt h 27 _ (by decide) hb, fun hg => ?_⟩
  have b0 : bits (h.enc + 27 * 16777216 + (0 + d.toNat * 16384 + i.toNat)) 14 6 = d.toNat := by
    rw [word_bits h 27 _ 14 6 (by decide)]; simp only [bits] <;> omega
  have b1 : bits (h.enc + 27 * 16777216 + (0 + d.toNat * 16384 + i.toNat)) 0 14 = i.toNat := by
    rw [word_bits h 27 _ 0 14 (by decide)]; simp only [bits] <;> omega
  rw [decodeNat_of hg, decodeMajor_1B (word_major h 27 _ (by decide) hb)]
  simp only [decode1B, word_hdr h 27 _ (by decide) hb, fld_of b0, fld_of b1]

theorem WordRoundTrip.isel (h : Hdr) (d : BitVec 6) (a : BitVec 6) (b : BitVec 6) : WordRoundTrip.Statement (.isel h d a b) := by
  intro n he
  have i_d := d.isLt
  have i_a := a.isLt
  have i_b := b.isLt
  have he : some (h.enc + 469762048 + d.toNat * 16384 + a.toNat * 256 + b.toNat * 4) = some n := he
  injection he with he
  have hb : 0 + d.toNat * 16384 + a.toNat * 256 + b.toNat * 4 < 1048576 := by omega
  obtain rfl : n = h.enc + 28 * 16777216 + (0 + d.toNat * 16384 + a.toNat * 256 + b.toNat * 4) := by omega
  refine ⟨word_lt h 28 _ (by decide) hb, fun hg => ?_⟩
  have b99 : bits (h.enc + 28 * 16777216 + (0 + d.toNat * 16384 + a.toNat * 256 + b.toNat * 4)) 0 2 = 0 := by
    rw [word_bits h 28 _ 0 2 (by decide)]; simp only [bits] <;> omega
  have b0 : bits (h.enc + 28 * 16777216 + (0 + d.toNat * 16384 + a.toNat * 256 + b.toNat * 4)) 14 6 = d.toNat := by
    rw [word_bits h 28 _ 14 6 (by decide)]; simp only [bits] <;> omega
  have b1 : bits (h.enc + 28 * 16777216 + (0 + d.toNat * 16384 + a.toNat * 256 + b.toNat * 4)) 8 6 = a.toNat := by
    rw [word_bits h 28 _ 8 6 (by decide)]; simp only [bits] <;> omega
  have b2 : bits (h.enc + 28 * 16777216 + (0 + d.toNat * 16384 + a.toNat * 256 + b.toNat * 4)) 2 6 = b.toNat := by
    rw [word_bits h 28 _ 2 6 (by decide)]; simp only [bits] <;> omega
  rw [decodeNat_of hg, decodeMajor_1C (word_major h 28 _ (by decide) hb)]
  simp only [decode1C, b99, word_hdr h 28 _ (by decide) hb, fld_of b0, fld_of b1, fld_of b2]

theorem WordRoundTrip.plop (h : Hdr) (q : BitVec 4) (a : BitVec 4) (b : BitVec 4) (c : BitVec 4) : WordRoundTrip.Statement (.plop h q a b c) := by
  intro n he
  have i_q := q.isLt
  have i_a := a.isLt
  have i_b := b.isLt
  have i_c := c.isLt
  have he : some (h.enc + 486539264 + q.toNat * 65536 + a.toNat * 1024 + b.toNat * 16 + c.toNat) = some n := he
  injection he with he
  have hb : 0 + q.toNat * 65536 + a.toNat * 1024 + b.toNat * 16 + c.toNat < 1048576 := by omega
  obtain rfl : n = h.enc + 29 * 16777216 + (0 + q.toNat * 65536 + a.toNat * 1024 + b.toNat * 16 + c.toNat) := by omega
  refine ⟨word_lt h 29 _ (by decide) hb, fun hg => ?_⟩
  have b0 : bits (h.enc + 29 * 16777216 + (0 + q.toNat * 65536 + a.toNat * 1024 + b.toNat * 16 + c.toNat)) 8 2 = 0 := by
    rw [word_bits h 29 _ 8 2 (by decide)]; simp only [bits] <;> omega
  have b1 : bits (h.enc + 29 * 16777216 + (0 + q.toNat * 65536 + a.toNat * 1024 + b.toNat * 16 + c.toNat)) 14 2 = 0 := by
    rw [word_bits h 29 _ 14 2 (by decide)]; simp only [bits] <;> omega
  have b2 : bits (h.enc + 29 * 16777216 + (0 + q.toNat * 65536 + a.toNat * 1024 + b.toNat * 16 + c.toNat)) 16 4 = q.toNat := by
    rw [word_bits h 29 _ 16 4 (by decide)]; simp only [bits] <;> omega
  have b3 : bits (h.enc + 29 * 16777216 + (0 + q.toNat * 65536 + a.toNat * 1024 + b.toNat * 16 + c.toNat)) 10 4 = a.toNat := by
    rw [word_bits h 29 _ 10 4 (by decide)]; simp only [bits] <;> omega
  have b4 : bits (h.enc + 29 * 16777216 + (0 + q.toNat * 65536 + a.toNat * 1024 + b.toNat * 16 + c.toNat)) 4 4 = b.toNat := by
    rw [word_bits h 29 _ 4 4 (by decide)]; simp only [bits] <;> omega
  have b5 : bits (h.enc + 29 * 16777216 + (0 + q.toNat * 65536 + a.toNat * 1024 + b.toNat * 16 + c.toNat)) 0 4 = c.toNat := by
    rw [word_bits h 29 _ 0 4 (by decide)]; simp only [bits] <;> omega
  rw [decodeNat_of hg, decodeMajor_1D (word_major h 29 _ (by decide) hb)]
  simp only [decode1D, b0, b1, word_hdr h 29 _ (by decide) hb, fld_of b2, fld_of b3, fld_of b4, fld_of b5, res0, beq_self_eq_true, Bool.and_self, if_true]

theorem WordRoundTrip.pmovFromPw (h : Hdr) (d : BitVec 6) : WordRoundTrip.Statement (.pmovFromPw h d) := by
  intro n he
  have i_d := d.isLt
  have he : some (h.enc + 503316480 + d.toNat * 16384) = some n := he
  injection he with he
  have hb : 0 + d.toNat * 16384 < 1048576 := by omega
  obtain rfl : n = h.enc + 30 * 16777216 + (0 + d.toNat * 16384) := by omega
  refine ⟨word_lt h 30 _ (by decide) hb, fun hg => ?_⟩
  have b99 : bits (h.enc + 30 * 16777216 + (0 + d.toNat * 16384)) 0 2 = 0 := by
    rw [word_bits h 30 _ 0 2 (by decide)]; simp only [bits] <;> omega
  have b0 : bits (h.enc + 30 * 16777216 + (0 + d.toNat * 16384)) 2 12 = 0 := by
    rw [word_bits h 30 _ 2 12 (by decide)]; simp only [bits] <;> omega
  have b1 : bits (h.enc + 30 * 16777216 + (0 + d.toNat * 16384)) 14 6 = d.toNat := by
    rw [word_bits h 30 _ 14 6 (by decide)]; simp only [bits] <;> omega
  rw [decodeNat_of hg, decodeMajor_1E (word_major h 30 _ (by decide) hb)]
  simp only [decode1E, b99, b0, word_hdr h 30 _ (by decide) hb, fld_of b1, res0, beq_self_eq_true, if_true]

theorem WordRoundTrip.pmovToPw (h : Hdr) (a : BitVec 6) : WordRoundTrip.Statement (.pmovToPw h a) := by
  intro n he
  have i_a := a.isLt
  have he : some (h.enc + 503316481 + a.toNat * 256) = some n := he
  injection he with he
  have hb : 1 + a.toNat * 256 < 1048576 := by omega
  obtain rfl : n = h.enc + 30 * 16777216 + (1 + a.toNat * 256) := by omega
  refine ⟨word_lt h 30 _ (by decide) hb, fun hg => ?_⟩
  have b99 : bits (h.enc + 30 * 16777216 + (1 + a.toNat * 256)) 0 2 = 1 := by
    rw [word_bits h 30 _ 0 2 (by decide)]; simp only [bits] <;> omega
  have b0 : bits (h.enc + 30 * 16777216 + (1 + a.toNat * 256)) 2 6 = 0 := by
    rw [word_bits h 30 _ 2 6 (by decide)]; simp only [bits] <;> omega
  have b1 : bits (h.enc + 30 * 16777216 + (1 + a.toNat * 256)) 14 6 = 0 := by
    rw [word_bits h 30 _ 14 6 (by decide)]; simp only [bits] <;> omega
  have b2 : bits (h.enc + 30 * 16777216 + (1 + a.toNat * 256)) 8 6 = a.toNat := by
    rw [word_bits h 30 _ 8 6 (by decide)]; simp only [bits] <;> omega
  rw [decodeNat_of hg, decodeMajor_1E (word_major h 30 _ (by decide) hb)]
  simp only [decode1E, b99, b0, b1, word_hdr h 30 _ (by decide) hb, fld_of b2, res0, beq_self_eq_true, Bool.and_self, if_true]

theorem WordRoundTrip.fadd (h : Hdr) (d : BitVec 6) (a : BitVec 6) (b : BitVec 6) : WordRoundTrip.Statement (.fadd h d a b) := by
  intro n he
  have i_d := d.isLt
  have i_a := a.isLt
  have i_b := b.isLt
  have he : some (h.enc + 536870912 + d.toNat * 16384 + a.toNat * 256 + b.toNat * 4) = some n := he
  injection he with he
  have hb : 0 + d.toNat * 16384 + a.toNat * 256 + b.toNat * 4 < 1048576 := by omega
  obtain rfl : n = h.enc + 32 * 16777216 + (0 + d.toNat * 16384 + a.toNat * 256 + b.toNat * 4) := by omega
  refine ⟨word_lt h 32 _ (by decide) hb, fun hg => ?_⟩
  have b99 : bits (h.enc + 32 * 16777216 + (0 + d.toNat * 16384 + a.toNat * 256 + b.toNat * 4)) 0 2 = 0 := by
    rw [word_bits h 32 _ 0 2 (by decide)]; simp only [bits] <;> omega
  have b0 : bits (h.enc + 32 * 16777216 + (0 + d.toNat * 16384 + a.toNat * 256 + b.toNat * 4)) 14 6 = d.toNat := by
    rw [word_bits h 32 _ 14 6 (by decide)]; simp only [bits] <;> omega
  have b1 : bits (h.enc + 32 * 16777216 + (0 + d.toNat * 16384 + a.toNat * 256 + b.toNat * 4)) 8 6 = a.toNat := by
    rw [word_bits h 32 _ 8 6 (by decide)]; simp only [bits] <;> omega
  have b2 : bits (h.enc + 32 * 16777216 + (0 + d.toNat * 16384 + a.toNat * 256 + b.toNat * 4)) 2 6 = b.toNat := by
    rw [word_bits h 32 _ 2 6 (by decide)]; simp only [bits] <;> omega
  rw [decodeNat_of hg, decodeMajor_20 (word_major h 32 _ (by decide) hb)]
  simp only [decode20, b99, word_hdr h 32 _ (by decide) hb, fld_of b0, fld_of b1, fld_of b2]

theorem WordRoundTrip.fsub (h : Hdr) (d : BitVec 6) (a : BitVec 6) (b : BitVec 6) : WordRoundTrip.Statement (.fsub h d a b) := by
  intro n he
  have i_d := d.isLt
  have i_a := a.isLt
  have i_b := b.isLt
  have he : some (h.enc + 536870913 + d.toNat * 16384 + a.toNat * 256 + b.toNat * 4) = some n := he
  injection he with he
  have hb : 1 + d.toNat * 16384 + a.toNat * 256 + b.toNat * 4 < 1048576 := by omega
  obtain rfl : n = h.enc + 32 * 16777216 + (1 + d.toNat * 16384 + a.toNat * 256 + b.toNat * 4) := by omega
  refine ⟨word_lt h 32 _ (by decide) hb, fun hg => ?_⟩
  have b99 : bits (h.enc + 32 * 16777216 + (1 + d.toNat * 16384 + a.toNat * 256 + b.toNat * 4)) 0 2 = 1 := by
    rw [word_bits h 32 _ 0 2 (by decide)]; simp only [bits] <;> omega
  have b0 : bits (h.enc + 32 * 16777216 + (1 + d.toNat * 16384 + a.toNat * 256 + b.toNat * 4)) 14 6 = d.toNat := by
    rw [word_bits h 32 _ 14 6 (by decide)]; simp only [bits] <;> omega
  have b1 : bits (h.enc + 32 * 16777216 + (1 + d.toNat * 16384 + a.toNat * 256 + b.toNat * 4)) 8 6 = a.toNat := by
    rw [word_bits h 32 _ 8 6 (by decide)]; simp only [bits] <;> omega
  have b2 : bits (h.enc + 32 * 16777216 + (1 + d.toNat * 16384 + a.toNat * 256 + b.toNat * 4)) 2 6 = b.toNat := by
    rw [word_bits h 32 _ 2 6 (by decide)]; simp only [bits] <;> omega
  rw [decodeNat_of hg, decodeMajor_20 (word_major h 32 _ (by decide) hb)]
  simp only [decode20, b99, word_hdr h 32 _ (by decide) hb, fld_of b0, fld_of b1, fld_of b2]

theorem WordRoundTrip.fmul (h : Hdr) (d : BitVec 6) (a : BitVec 6) (b : BitVec 6) : WordRoundTrip.Statement (.fmul h d a b) := by
  intro n he
  have i_d := d.isLt
  have i_a := a.isLt
  have i_b := b.isLt
  have he : some (h.enc + 536870914 + d.toNat * 16384 + a.toNat * 256 + b.toNat * 4) = some n := he
  injection he with he
  have hb : 2 + d.toNat * 16384 + a.toNat * 256 + b.toNat * 4 < 1048576 := by omega
  obtain rfl : n = h.enc + 32 * 16777216 + (2 + d.toNat * 16384 + a.toNat * 256 + b.toNat * 4) := by omega
  refine ⟨word_lt h 32 _ (by decide) hb, fun hg => ?_⟩
  have b99 : bits (h.enc + 32 * 16777216 + (2 + d.toNat * 16384 + a.toNat * 256 + b.toNat * 4)) 0 2 = 2 := by
    rw [word_bits h 32 _ 0 2 (by decide)]; simp only [bits] <;> omega
  have b0 : bits (h.enc + 32 * 16777216 + (2 + d.toNat * 16384 + a.toNat * 256 + b.toNat * 4)) 14 6 = d.toNat := by
    rw [word_bits h 32 _ 14 6 (by decide)]; simp only [bits] <;> omega
  have b1 : bits (h.enc + 32 * 16777216 + (2 + d.toNat * 16384 + a.toNat * 256 + b.toNat * 4)) 8 6 = a.toNat := by
    rw [word_bits h 32 _ 8 6 (by decide)]; simp only [bits] <;> omega
  have b2 : bits (h.enc + 32 * 16777216 + (2 + d.toNat * 16384 + a.toNat * 256 + b.toNat * 4)) 2 6 = b.toNat := by
    rw [word_bits h 32 _ 2 6 (by decide)]; simp only [bits] <;> omega
  rw [decodeNat_of hg, decodeMajor_20 (word_major h 32 _ (by decide) hb)]
  simp only [decode20, b99, word_hdr h 32 _ (by decide) hb, fld_of b0, fld_of b1, fld_of b2]

theorem WordRoundTrip.ffma (h : Hdr) (d : BitVec 6) (a : BitVec 6) (b : BitVec 6) : WordRoundTrip.Statement (.ffma h d a b) := by
  intro n he
  have i_d := d.isLt
  have i_a := a.isLt
  have i_b := b.isLt
  have he : some (h.enc + 553648128 + d.toNat * 16384 + a.toNat * 256 + b.toNat * 4) = some n := he
  injection he with he
  have hb : 0 + d.toNat * 16384 + a.toNat * 256 + b.toNat * 4 < 1048576 := by omega
  obtain rfl : n = h.enc + 33 * 16777216 + (0 + d.toNat * 16384 + a.toNat * 256 + b.toNat * 4) := by omega
  refine ⟨word_lt h 33 _ (by decide) hb, fun hg => ?_⟩
  have b99 : bits (h.enc + 33 * 16777216 + (0 + d.toNat * 16384 + a.toNat * 256 + b.toNat * 4)) 0 2 = 0 := by
    rw [word_bits h 33 _ 0 2 (by decide)]; simp only [bits] <;> omega
  have b0 : bits (h.enc + 33 * 16777216 + (0 + d.toNat * 16384 + a.toNat * 256 + b.toNat * 4)) 14 6 = d.toNat := by
    rw [word_bits h 33 _ 14 6 (by decide)]; simp only [bits] <;> omega
  have b1 : bits (h.enc + 33 * 16777216 + (0 + d.toNat * 16384 + a.toNat * 256 + b.toNat * 4)) 8 6 = a.toNat := by
    rw [word_bits h 33 _ 8 6 (by decide)]; simp only [bits] <;> omega
  have b2 : bits (h.enc + 33 * 16777216 + (0 + d.toNat * 16384 + a.toNat * 256 + b.toNat * 4)) 2 6 = b.toNat := by
    rw [word_bits h 33 _ 2 6 (by decide)]; simp only [bits] <;> omega
  rw [decodeNat_of hg, decodeMajor_21 (word_major h 33 _ (by decide) hb)]
  simp only [decode21, b99, word_hdr h 33 _ (by decide) hb, fld_of b0, fld_of b1, fld_of b2]

theorem WordRoundTrip.fmin (h : Hdr) (d : BitVec 6) (a : BitVec 6) (b : BitVec 6) : WordRoundTrip.Statement (.fmin h d a b) := by
  intro n he
  have i_d := d.isLt
  have i_a := a.isLt
  have i_b := b.isLt
  have he : some (h.enc + 570425344 + d.toNat * 16384 + a.toNat * 256 + b.toNat * 4) = some n := he
  injection he with he
  have hb : 0 + d.toNat * 16384 + a.toNat * 256 + b.toNat * 4 < 1048576 := by omega
  obtain rfl : n = h.enc + 34 * 16777216 + (0 + d.toNat * 16384 + a.toNat * 256 + b.toNat * 4) := by omega
  refine ⟨word_lt h 34 _ (by decide) hb, fun hg => ?_⟩
  have b99 : bits (h.enc + 34 * 16777216 + (0 + d.toNat * 16384 + a.toNat * 256 + b.toNat * 4)) 0 2 = 0 := by
    rw [word_bits h 34 _ 0 2 (by decide)]; simp only [bits] <;> omega
  have b0 : bits (h.enc + 34 * 16777216 + (0 + d.toNat * 16384 + a.toNat * 256 + b.toNat * 4)) 14 6 = d.toNat := by
    rw [word_bits h 34 _ 14 6 (by decide)]; simp only [bits] <;> omega
  have b1 : bits (h.enc + 34 * 16777216 + (0 + d.toNat * 16384 + a.toNat * 256 + b.toNat * 4)) 8 6 = a.toNat := by
    rw [word_bits h 34 _ 8 6 (by decide)]; simp only [bits] <;> omega
  have b2 : bits (h.enc + 34 * 16777216 + (0 + d.toNat * 16384 + a.toNat * 256 + b.toNat * 4)) 2 6 = b.toNat := by
    rw [word_bits h 34 _ 2 6 (by decide)]; simp only [bits] <;> omega
  rw [decodeNat_of hg, decodeMajor_22 (word_major h 34 _ (by decide) hb)]
  simp only [decode22, b99, word_hdr h 34 _ (by decide) hb, fld_of b0, fld_of b1, fld_of b2]

theorem WordRoundTrip.fmax (h : Hdr) (d : BitVec 6) (a : BitVec 6) (b : BitVec 6) : WordRoundTrip.Statement (.fmax h d a b) := by
  intro n he
  have i_d := d.isLt
  have i_a := a.isLt
  have i_b := b.isLt
  have he : some (h.enc + 570425345 + d.toNat * 16384 + a.toNat * 256 + b.toNat * 4) = some n := he
  injection he with he
  have hb : 1 + d.toNat * 16384 + a.toNat * 256 + b.toNat * 4 < 1048576 := by omega
  obtain rfl : n = h.enc + 34 * 16777216 + (1 + d.toNat * 16384 + a.toNat * 256 + b.toNat * 4) := by omega
  refine ⟨word_lt h 34 _ (by decide) hb, fun hg => ?_⟩
  have b99 : bits (h.enc + 34 * 16777216 + (1 + d.toNat * 16384 + a.toNat * 256 + b.toNat * 4)) 0 2 = 1 := by
    rw [word_bits h 34 _ 0 2 (by decide)]; simp only [bits] <;> omega
  have b0 : bits (h.enc + 34 * 16777216 + (1 + d.toNat * 16384 + a.toNat * 256 + b.toNat * 4)) 14 6 = d.toNat := by
    rw [word_bits h 34 _ 14 6 (by decide)]; simp only [bits] <;> omega
  have b1 : bits (h.enc + 34 * 16777216 + (1 + d.toNat * 16384 + a.toNat * 256 + b.toNat * 4)) 8 6 = a.toNat := by
    rw [word_bits h 34 _ 8 6 (by decide)]; simp only [bits] <;> omega
  have b2 : bits (h.enc + 34 * 16777216 + (1 + d.toNat * 16384 + a.toNat * 256 + b.toNat * 4)) 2 6 = b.toNat := by
    rw [word_bits h 34 _ 2 6 (by decide)]; simp only [bits] <;> omega
  rw [decodeNat_of hg, decodeMajor_22 (word_major h 34 _ (by decide) hb)]
  simp only [decode22, b99, word_hdr h 34 _ (by decide) hb, fld_of b0, fld_of b1, fld_of b2]

theorem WordRoundTrip.fmov (h : Hdr) (d : BitVec 6) (a : BitVec 6) : WordRoundTrip.Statement (.fmov h d a) := by
  intro n he
  have i_d := d.isLt
  have i_a := a.isLt
  have he : some (h.enc + 587202560 + d.toNat * 16384 + a.toNat * 256) = some n := he
  injection he with he
  have hb : 0 + d.toNat * 16384 + a.toNat * 256 < 1048576 := by omega
  obtain rfl : n = h.enc + 35 * 16777216 + (0 + d.toNat * 16384 + a.toNat * 256) := by omega
  refine ⟨word_lt h 35 _ (by decide) hb, fun hg => ?_⟩
  have b99 : bits (h.enc + 35 * 16777216 + (0 + d.toNat * 16384 + a.toNat * 256)) 0 2 = 0 := by
    rw [word_bits h 35 _ 0 2 (by decide)]; simp only [bits] <;> omega
  have b0 : bits (h.enc + 35 * 16777216 + (0 + d.toNat * 16384 + a.toNat * 256)) 2 6 = 0 := by
    rw [word_bits h 35 _ 2 6 (by decide)]; simp only [bits] <;> omega
  have b1 : bits (h.enc + 35 * 16777216 + (0 + d.toNat * 16384 + a.toNat * 256)) 14 6 = d.toNat := by
    rw [word_bits h 35 _ 14 6 (by decide)]; simp only [bits] <;> omega
  have b2 : bits (h.enc + 35 * 16777216 + (0 + d.toNat * 16384 + a.toNat * 256)) 8 6 = a.toNat := by
    rw [word_bits h 35 _ 8 6 (by decide)]; simp only [bits] <;> omega
  rw [decodeNat_of hg, decodeMajor_23 (word_major h 35 _ (by decide) hb)]
  simp only [decode23, b99, b0, word_hdr h 35 _ (by decide) hb, fld_of b1, fld_of b2, res0, beq_self_eq_true, if_true]

theorem WordRoundTrip.fmovAbs (h : Hdr) (d : BitVec 6) (a : BitVec 6) : WordRoundTrip.Statement (.fmovAbs h d a) := by
  intro n he
  have i_d := d.isLt
  have i_a := a.isLt
  have he : some (h.enc + 587202561 + d.toNat * 16384 + a.toNat * 256) = some n := he
  injection he with he
  have hb : 1 + d.toNat * 16384 + a.toNat * 256 < 1048576 := by omega
  obtain rfl : n = h.enc + 35 * 16777216 + (1 + d.toNat * 16384 + a.toNat * 256) := by omega
  refine ⟨word_lt h 35 _ (by decide) hb, fun hg => ?_⟩
  have b99 : bits (h.enc + 35 * 16777216 + (1 + d.toNat * 16384 + a.toNat * 256)) 0 2 = 1 := by
    rw [word_bits h 35 _ 0 2 (by decide)]; simp only [bits] <;> omega
  have b0 : bits (h.enc + 35 * 16777216 + (1 + d.toNat * 16384 + a.toNat * 256)) 2 6 = 0 := by
    rw [word_bits h 35 _ 2 6 (by decide)]; simp only [bits] <;> omega
  have b1 : bits (h.enc + 35 * 16777216 + (1 + d.toNat * 16384 + a.toNat * 256)) 14 6 = d.toNat := by
    rw [word_bits h 35 _ 14 6 (by decide)]; simp only [bits] <;> omega
  have b2 : bits (h.enc + 35 * 16777216 + (1 + d.toNat * 16384 + a.toNat * 256)) 8 6 = a.toNat := by
    rw [word_bits h 35 _ 8 6 (by decide)]; simp only [bits] <;> omega
  rw [decodeNat_of hg, decodeMajor_23 (word_major h 35 _ (by decide) hb)]
  simp only [decode23, b99, b0, word_hdr h 35 _ (by decide) hb, fld_of b1, fld_of b2, res0, beq_self_eq_true, if_true]

theorem WordRoundTrip.fmovNeg (h : Hdr) (d : BitVec 6) (a : BitVec 6) : WordRoundTrip.Statement (.fmovNeg h d a) := by
  intro n he
  have i_d := d.isLt
  have i_a := a.isLt
  have he : some (h.enc + 587202562 + d.toNat * 16384 + a.toNat * 256) = some n := he
  injection he with he
  have hb : 2 + d.toNat * 16384 + a.toNat * 256 < 1048576 := by omega
  obtain rfl : n = h.enc + 35 * 16777216 + (2 + d.toNat * 16384 + a.toNat * 256) := by omega
  refine ⟨word_lt h 35 _ (by decide) hb, fun hg => ?_⟩
  have b99 : bits (h.enc + 35 * 16777216 + (2 + d.toNat * 16384 + a.toNat * 256)) 0 2 = 2 := by
    rw [word_bits h 35 _ 0 2 (by decide)]; simp only [bits] <;> omega
  have b0 : bits (h.enc + 35 * 16777216 + (2 + d.toNat * 16384 + a.toNat * 256)) 2 6 = 0 := by
    rw [word_bits h 35 _ 2 6 (by decide)]; simp only [bits] <;> omega
  have b1 : bits (h.enc + 35 * 16777216 + (2 + d.toNat * 16384 + a.toNat * 256)) 14 6 = d.toNat := by
    rw [word_bits h 35 _ 14 6 (by decide)]; simp only [bits] <;> omega
  have b2 : bits (h.enc + 35 * 16777216 + (2 + d.toNat * 16384 + a.toNat * 256)) 8 6 = a.toNat := by
    rw [word_bits h 35 _ 8 6 (by decide)]; simp only [bits] <;> omega
  rw [decodeNat_of hg, decodeMajor_23 (word_major h 35 _ (by decide) hb)]
  simp only [decode23, b99, b0, word_hdr h 35 _ (by decide) hb, fld_of b1, fld_of b2, res0, beq_self_eq_true, if_true]

theorem WordRoundTrip.fmovCpsgn (h : Hdr) (d : BitVec 6) (a : BitVec 6) (b : BitVec 6) : WordRoundTrip.Statement (.fmovCpsgn h d a b) := by
  intro n he
  have i_d := d.isLt
  have i_a := a.isLt
  have i_b := b.isLt
  have he : some (h.enc + 587202563 + d.toNat * 16384 + a.toNat * 256 + b.toNat * 4) = some n := he
  injection he with he
  have hb : 3 + d.toNat * 16384 + a.toNat * 256 + b.toNat * 4 < 1048576 := by omega
  obtain rfl : n = h.enc + 35 * 16777216 + (3 + d.toNat * 16384 + a.toNat * 256 + b.toNat * 4) := by omega
  refine ⟨word_lt h 35 _ (by decide) hb, fun hg => ?_⟩
  have b99 : bits (h.enc + 35 * 16777216 + (3 + d.toNat * 16384 + a.toNat * 256 + b.toNat * 4)) 0 2 = 3 := by
    rw [word_bits h 35 _ 0 2 (by decide)]; simp only [bits] <;> omega
  have b0 : bits (h.enc + 35 * 16777216 + (3 + d.toNat * 16384 + a.toNat * 256 + b.toNat * 4)) 14 6 = d.toNat := by
    rw [word_bits h 35 _ 14 6 (by decide)]; simp only [bits] <;> omega
  have b1 : bits (h.enc + 35 * 16777216 + (3 + d.toNat * 16384 + a.toNat * 256 + b.toNat * 4)) 8 6 = a.toNat := by
    rw [word_bits h 35 _ 8 6 (by decide)]; simp only [bits] <;> omega
  have b2 : bits (h.enc + 35 * 16777216 + (3 + d.toNat * 16384 + a.toNat * 256 + b.toNat * 4)) 2 6 = b.toNat := by
    rw [word_bits h 35 _ 2 6 (by decide)]; simp only [bits] <;> omega
  rw [decodeNat_of hg, decodeMajor_23 (word_major h 35 _ (by decide) hb)]
  simp only [decode23, b99, word_hdr h 35 _ (by decide) hb, fld_of b0, fld_of b1, fld_of b2]

theorem WordRoundTrip.fcmp (h : Hdr) (q : BitVec 4) (a : BitVec 6) (b : BitVec 6) (c : BitVec 4) : WordRoundTrip.Statement (.fcmp h q a b c) := by
  intro n he
  have i_q := q.isLt
  have i_a := a.isLt
  have i_b := b.isLt
  have i_c := c.isLt
  have he : some (h.enc + 603979776 + q.toNat * 65536 + a.toNat * 1024 + b.toNat * 16 + c.toNat) = some n := he
  injection he with he
  have hb : 0 + q.toNat * 65536 + a.toNat * 1024 + b.toNat * 16 + c.toNat < 1048576 := by omega
  obtain rfl : n = h.enc + 36 * 16777216 + (0 + q.toNat * 65536 + a.toNat * 1024 + b.toNat * 16 + c.toNat) := by omega
  refine ⟨word_lt h 36 _ (by decide) hb, fun hg => ?_⟩
  have b0 : bits (h.enc + 36 * 16777216 + (0 + q.toNat * 65536 + a.toNat * 1024 + b.toNat * 16 + c.toNat)) 16 4 = q.toNat := by
    rw [word_bits h 36 _ 16 4 (by decide)]; simp only [bits] <;> omega
  have b1 : bits (h.enc + 36 * 16777216 + (0 + q.toNat * 65536 + a.toNat * 1024 + b.toNat * 16 + c.toNat)) 10 6 = a.toNat := by
    rw [word_bits h 36 _ 10 6 (by decide)]; simp only [bits] <;> omega
  have b2 : bits (h.enc + 36 * 16777216 + (0 + q.toNat * 65536 + a.toNat * 1024 + b.toNat * 16 + c.toNat)) 4 6 = b.toNat := by
    rw [word_bits h 36 _ 4 6 (by decide)]; simp only [bits] <;> omega
  have b3 : bits (h.enc + 36 * 16777216 + (0 + q.toNat * 65536 + a.toNat * 1024 + b.toNat * 16 + c.toNat)) 0 4 = c.toNat := by
    rw [word_bits h 36 _ 0 4 (by decide)]; simp only [bits] <;> omega
  rw [decodeNat_of hg, decodeMajor_24 (word_major h 36 _ (by decide) hb)]
  simp only [decode24, word_hdr h 36 _ (by decide) hb, fld_of b0, fld_of b1, fld_of b2, fld_of b3]

theorem WordRoundTrip.frcp (h : Hdr) (d : BitVec 6) (a : BitVec 6) : WordRoundTrip.Statement (.frcp h d a) := by
  intro n he
  have i_d := d.isLt
  have i_a := a.isLt
  have he : some (h.enc + 620756992 + d.toNat * 16384 + a.toNat * 256) = some n := he
  injection he with he
  have hb : 0 + d.toNat * 16384 + a.toNat * 256 < 1048576 := by omega
  obtain rfl : n = h.enc + 37 * 16777216 + (0 + d.toNat * 16384 + a.toNat * 256) := by omega
  refine ⟨word_lt h 37 _ (by decide) hb, fun hg => ?_⟩
  have b99 : bits (h.enc + 37 * 16777216 + (0 + d.toNat * 16384 + a.toNat * 256)) 0 2 = 0 := by
    rw [word_bits h 37 _ 0 2 (by decide)]; simp only [bits] <;> omega
  have b0 : bits (h.enc + 37 * 16777216 + (0 + d.toNat * 16384 + a.toNat * 256)) 2 6 = 0 := by
    rw [word_bits h 37 _ 2 6 (by decide)]; simp only [bits] <;> omega
  have b1 : bits (h.enc + 37 * 16777216 + (0 + d.toNat * 16384 + a.toNat * 256)) 14 6 = d.toNat := by
    rw [word_bits h 37 _ 14 6 (by decide)]; simp only [bits] <;> omega
  have b2 : bits (h.enc + 37 * 16777216 + (0 + d.toNat * 16384 + a.toNat * 256)) 8 6 = a.toNat := by
    rw [word_bits h 37 _ 8 6 (by decide)]; simp only [bits] <;> omega
  rw [decodeNat_of hg, decodeMajor_25 (word_major h 37 _ (by decide) hb)]
  simp only [decode25, b99, b0, word_hdr h 37 _ (by decide) hb, fld_of b1, fld_of b2, res0, beq_self_eq_true, if_true]

theorem WordRoundTrip.frsq (h : Hdr) (d : BitVec 6) (a : BitVec 6) : WordRoundTrip.Statement (.frsq h d a) := by
  intro n he
  have i_d := d.isLt
  have i_a := a.isLt
  have he : some (h.enc + 620756993 + d.toNat * 16384 + a.toNat * 256) = some n := he
  injection he with he
  have hb : 1 + d.toNat * 16384 + a.toNat * 256 < 1048576 := by omega
  obtain rfl : n = h.enc + 37 * 16777216 + (1 + d.toNat * 16384 + a.toNat * 256) := by omega
  refine ⟨word_lt h 37 _ (by decide) hb, fun hg => ?_⟩
  have b99 : bits (h.enc + 37 * 16777216 + (1 + d.toNat * 16384 + a.toNat * 256)) 0 2 = 1 := by
    rw [word_bits h 37 _ 0 2 (by decide)]; simp only [bits] <;> omega
  have b0 : bits (h.enc + 37 * 16777216 + (1 + d.toNat * 16384 + a.toNat * 256)) 2 6 = 0 := by
    rw [word_bits h 37 _ 2 6 (by decide)]; simp only [bits] <;> omega
  have b1 : bits (h.enc + 37 * 16777216 + (1 + d.toNat * 16384 + a.toNat * 256)) 14 6 = d.toNat := by
    rw [word_bits h 37 _ 14 6 (by decide)]; simp only [bits] <;> omega
  have b2 : bits (h.enc + 37 * 16777216 + (1 + d.toNat * 16384 + a.toNat * 256)) 8 6 = a.toNat := by
    rw [word_bits h 37 _ 8 6 (by decide)]; simp only [bits] <;> omega
  rw [decodeNat_of hg, decodeMajor_25 (word_major h 37 _ (by decide) hb)]
  simp only [decode25, b99, b0, word_hdr h 37 _ (by decide) hb, fld_of b1, fld_of b2, res0, beq_self_eq_true, if_true]

theorem WordRoundTrip.fsqrt (h : Hdr) (d : BitVec 6) (a : BitVec 6) : WordRoundTrip.Statement (.fsqrt h d a) := by
  intro n he
  have i_d := d.isLt
  have i_a := a.isLt
  have he : some (h.enc + 620756994 + d.toNat * 16384 + a.toNat * 256) = some n := he
  injection he with he
  have hb : 2 + d.toNat * 16384 + a.toNat * 256 < 1048576 := by omega
  obtain rfl : n = h.enc + 37 * 16777216 + (2 + d.toNat * 16384 + a.toNat * 256) := by omega
  refine ⟨word_lt h 37 _ (by decide) hb, fun hg => ?_⟩
  have b99 : bits (h.enc + 37 * 16777216 + (2 + d.toNat * 16384 + a.toNat * 256)) 0 2 = 2 := by
    rw [word_bits h 37 _ 0 2 (by decide)]; simp only [bits] <;> omega
  have b0 : bits (h.enc + 37 * 16777216 + (2 + d.toNat * 16384 + a.toNat * 256)) 2 6 = 0 := by
    rw [word_bits h 37 _ 2 6 (by decide)]; simp only [bits] <;> omega
  have b1 : bits (h.enc + 37 * 16777216 + (2 + d.toNat * 16384 + a.toNat * 256)) 14 6 = d.toNat := by
    rw [word_bits h 37 _ 14 6 (by decide)]; simp only [bits] <;> omega
  have b2 : bits (h.enc + 37 * 16777216 + (2 + d.toNat * 16384 + a.toNat * 256)) 8 6 = a.toNat := by
    rw [word_bits h 37 _ 8 6 (by decide)]; simp only [bits] <;> omega
  rw [decodeNat_of hg, decodeMajor_25 (word_major h 37 _ (by decide) hb)]
  simp only [decode25, b99, b0, word_hdr h 37 _ (by decide) hb, fld_of b1, fld_of b2, res0, beq_self_eq_true, if_true]

theorem WordRoundTrip.fex2 (h : Hdr) (d : BitVec 6) (a : BitVec 6) : WordRoundTrip.Statement (.fex2 h d a) := by
  intro n he
  have i_d := d.isLt
  have i_a := a.isLt
  have he : some (h.enc + 620756995 + d.toNat * 16384 + a.toNat * 256) = some n := he
  injection he with he
  have hb : 3 + d.toNat * 16384 + a.toNat * 256 < 1048576 := by omega
  obtain rfl : n = h.enc + 37 * 16777216 + (3 + d.toNat * 16384 + a.toNat * 256) := by omega
  refine ⟨word_lt h 37 _ (by decide) hb, fun hg => ?_⟩
  have b99 : bits (h.enc + 37 * 16777216 + (3 + d.toNat * 16384 + a.toNat * 256)) 0 2 = 3 := by
    rw [word_bits h 37 _ 0 2 (by decide)]; simp only [bits] <;> omega
  have b0 : bits (h.enc + 37 * 16777216 + (3 + d.toNat * 16384 + a.toNat * 256)) 2 6 = 0 := by
    rw [word_bits h 37 _ 2 6 (by decide)]; simp only [bits] <;> omega
  have b1 : bits (h.enc + 37 * 16777216 + (3 + d.toNat * 16384 + a.toNat * 256)) 14 6 = d.toNat := by
    rw [word_bits h 37 _ 14 6 (by decide)]; simp only [bits] <;> omega
  have b2 : bits (h.enc + 37 * 16777216 + (3 + d.toNat * 16384 + a.toNat * 256)) 8 6 = a.toNat := by
    rw [word_bits h 37 _ 8 6 (by decide)]; simp only [bits] <;> omega
  rw [decodeNat_of hg, decodeMajor_25 (word_major h 37 _ (by decide) hb)]
  simp only [decode25, b99, b0, word_hdr h 37 _ (by decide) hb, fld_of b1, fld_of b2, res0, beq_self_eq_true, if_true]

theorem WordRoundTrip.flg2 (h : Hdr) (d : BitVec 6) (a : BitVec 6) : WordRoundTrip.Statement (.flg2 h d a) := by
  intro n he
  have i_d := d.isLt
  have i_a := a.isLt
  have he : some (h.enc + 637534208 + d.toNat * 16384 + a.toNat * 256) = some n := he
  injection he with he
  have hb : 0 + d.toNat * 16384 + a.toNat * 256 < 1048576 := by omega
  obtain rfl : n = h.enc + 38 * 16777216 + (0 + d.toNat * 16384 + a.toNat * 256) := by omega
  refine ⟨word_lt h 38 _ (by decide) hb, fun hg => ?_⟩
  have b99 : bits (h.enc + 38 * 16777216 + (0 + d.toNat * 16384 + a.toNat * 256)) 0 2 = 0 := by
    rw [word_bits h 38 _ 0 2 (by decide)]; simp only [bits] <;> omega
  have b0 : bits (h.enc + 38 * 16777216 + (0 + d.toNat * 16384 + a.toNat * 256)) 2 6 = 0 := by
    rw [word_bits h 38 _ 2 6 (by decide)]; simp only [bits] <;> omega
  have b1 : bits (h.enc + 38 * 16777216 + (0 + d.toNat * 16384 + a.toNat * 256)) 14 6 = d.toNat := by
    rw [word_bits h 38 _ 14 6 (by decide)]; simp only [bits] <;> omega
  have b2 : bits (h.enc + 38 * 16777216 + (0 + d.toNat * 16384 + a.toNat * 256)) 8 6 = a.toNat := by
    rw [word_bits h 38 _ 8 6 (by decide)]; simp only [bits] <;> omega
  rw [decodeNat_of hg, decodeMajor_26 (word_major h 38 _ (by decide) hb)]
  simp only [decode26, b99, b0, word_hdr h 38 _ (by decide) hb, fld_of b1, fld_of b2, res0, beq_self_eq_true, if_true]

theorem WordRoundTrip.fsin (h : Hdr) (d : BitVec 6) (a : BitVec 6) : WordRoundTrip.Statement (.fsin h d a) := by
  intro n he
  have i_d := d.isLt
  have i_a := a.isLt
  have he : some (h.enc + 637534209 + d.toNat * 16384 + a.toNat * 256) = some n := he
  injection he with he
  have hb : 1 + d.toNat * 16384 + a.toNat * 256 < 1048576 := by omega
  obtain rfl : n = h.enc + 38 * 16777216 + (1 + d.toNat * 16384 + a.toNat * 256) := by omega
  refine ⟨word_lt h 38 _ (by decide) hb, fun hg => ?_⟩
  have b99 : bits (h.enc + 38 * 16777216 + (1 + d.toNat * 16384 + a.toNat * 256)) 0 2 = 1 := by
    rw [word_bits h 38 _ 0 2 (by decide)]; simp only [bits] <;> omega
  have b0 : bits (h.enc + 38 * 16777216 + (1 + d.toNat * 16384 + a.toNat * 256)) 2 6 = 0 := by
    rw [word_bits h 38 _ 2 6 (by decide)]; simp only [bits] <;> omega
  have b1 : bits (h.enc + 38 * 16777216 + (1 + d.toNat * 16384 + a.toNat * 256)) 14 6 = d.toNat := by
    rw [word_bits h 38 _ 14 6 (by decide)]; simp only [bits] <;> omega
  have b2 : bits (h.enc + 38 * 16777216 + (1 + d.toNat * 16384 + a.toNat * 256)) 8 6 = a.toNat := by
    rw [word_bits h 38 _ 8 6 (by decide)]; simp only [bits] <;> omega
  rw [decodeNat_of hg, decodeMajor_26 (word_major h 38 _ (by decide) hb)]
  simp only [decode26, b99, b0, word_hdr h 38 _ (by decide) hb, fld_of b1, fld_of b2, res0, beq_self_eq_true, if_true]

theorem WordRoundTrip.fcos (h : Hdr) (d : BitVec 6) (a : BitVec 6) : WordRoundTrip.Statement (.fcos h d a) := by
  intro n he
  have i_d := d.isLt
  have i_a := a.isLt
  have he : some (h.enc + 637534210 + d.toNat * 16384 + a.toNat * 256) = some n := he
  injection he with he
  have hb : 2 + d.toNat * 16384 + a.toNat * 256 < 1048576 := by omega
  obtain rfl : n = h.enc + 38 * 16777216 + (2 + d.toNat * 16384 + a.toNat * 256) := by omega
  refine ⟨word_lt h 38 _ (by decide) hb, fun hg => ?_⟩
  have b99 : bits (h.enc + 38 * 16777216 + (2 + d.toNat * 16384 + a.toNat * 256)) 0 2 = 2 := by
    rw [word_bits h 38 _ 0 2 (by decide)]; simp only [bits] <;> omega
  have b0 : bits (h.enc + 38 * 16777216 + (2 + d.toNat * 16384 + a.toNat * 256)) 2 6 = 0 := by
    rw [word_bits h 38 _ 2 6 (by decide)]; simp only [bits] <;> omega
  have b1 : bits (h.enc + 38 * 16777216 + (2 + d.toNat * 16384 + a.toNat * 256)) 14 6 = d.toNat := by
    rw [word_bits h 38 _ 14 6 (by decide)]; simp only [bits] <;> omega
  have b2 : bits (h.enc + 38 * 16777216 + (2 + d.toNat * 16384 + a.toNat * 256)) 8 6 = a.toNat := by
    rw [word_bits h 38 _ 8 6 (by decide)]; simp only [bits] <;> omega
  rw [decodeNat_of hg, decodeMajor_26 (word_major h 38 _ (by decide) hb)]
  simp only [decode26, b99, b0, word_hdr h 38 _ (by decide) hb, fld_of b1, fld_of b2, res0, beq_self_eq_true, if_true]

theorem WordRoundTrip.ftanh (h : Hdr) (d : BitVec 6) (a : BitVec 6) : WordRoundTrip.Statement (.ftanh h d a) := by
  intro n he
  have i_d := d.isLt
  have i_a := a.isLt
  have he : some (h.enc + 637534211 + d.toNat * 16384 + a.toNat * 256) = some n := he
  injection he with he
  have hb : 3 + d.toNat * 16384 + a.toNat * 256 < 1048576 := by omega
  obtain rfl : n = h.enc + 38 * 16777216 + (3 + d.toNat * 16384 + a.toNat * 256) := by omega
  refine ⟨word_lt h 38 _ (by decide) hb, fun hg => ?_⟩
  have b99 : bits (h.enc + 38 * 16777216 + (3 + d.toNat * 16384 + a.toNat * 256)) 0 2 = 3 := by
    rw [word_bits h 38 _ 0 2 (by decide)]; simp only [bits] <;> omega
  have b0 : bits (h.enc + 38 * 16777216 + (3 + d.toNat * 16384 + a.toNat * 256)) 2 6 = 0 := by
    rw [word_bits h 38 _ 2 6 (by decide)]; simp only [bits] <;> omega
  have b1 : bits (h.enc + 38 * 16777216 + (3 + d.toNat * 16384 + a.toNat * 256)) 14 6 = d.toNat := by
    rw [word_bits h 38 _ 14 6 (by decide)]; simp only [bits] <;> omega
  have b2 : bits (h.enc + 38 * 16777216 + (3 + d.toNat * 16384 + a.toNat * 256)) 8 6 = a.toNat := by
    rw [word_bits h 38 _ 8 6 (by decide)]; simp only [bits] <;> omega
  rw [decodeNat_of hg, decodeMajor_26 (word_major h 38 _ (by decide) hb)]
  simp only [decode26, b99, b0, word_hdr h 38 _ (by decide) hb, fld_of b1, fld_of b2, res0, beq_self_eq_true, if_true]

theorem WordRoundTrip.pkaddF16 (h : Hdr) (d : BitVec 6) (a : BitVec 6) (b : BitVec 6) : WordRoundTrip.Statement (.pkaddF16 h d a b) := by
  intro n he
  have i_d := d.isLt
  have i_a := a.isLt
  have i_b := b.isLt
  have he : some (h.enc + 654311424 + d.toNat * 16384 + a.toNat * 256 + b.toNat * 4) = some n := he
  injection he with he
  have hb : 0 + d.toNat * 16384 + a.toNat * 256 + b.toNat * 4 < 1048576 := by omega
  obtain rfl : n = h.enc + 39 * 16777216 + (0 + d.toNat * 16384 + a.toNat * 256 + b.toNat * 4) := by omega
  refine ⟨word_lt h 39 _ (by decide) hb, fun hg => ?_⟩
  have b99 : bits (h.enc + 39 * 16777216 + (0 + d.toNat * 16384 + a.toNat * 256 + b.toNat * 4)) 0 2 = 0 := by
    rw [word_bits h 39 _ 0 2 (by decide)]; simp only [bits] <;> omega
  have b0 : bits (h.enc + 39 * 16777216 + (0 + d.toNat * 16384 + a.toNat * 256 + b.toNat * 4)) 14 6 = d.toNat := by
    rw [word_bits h 39 _ 14 6 (by decide)]; simp only [bits] <;> omega
  have b1 : bits (h.enc + 39 * 16777216 + (0 + d.toNat * 16384 + a.toNat * 256 + b.toNat * 4)) 8 6 = a.toNat := by
    rw [word_bits h 39 _ 8 6 (by decide)]; simp only [bits] <;> omega
  have b2 : bits (h.enc + 39 * 16777216 + (0 + d.toNat * 16384 + a.toNat * 256 + b.toNat * 4)) 2 6 = b.toNat := by
    rw [word_bits h 39 _ 2 6 (by decide)]; simp only [bits] <;> omega
  rw [decodeNat_of hg, decodeMajor_27 (word_major h 39 _ (by decide) hb)]
  simp only [decode27, b99, word_hdr h 39 _ (by decide) hb, fld_of b0, fld_of b1, fld_of b2]

theorem WordRoundTrip.pkmulF16 (h : Hdr) (d : BitVec 6) (a : BitVec 6) (b : BitVec 6) : WordRoundTrip.Statement (.pkmulF16 h d a b) := by
  intro n he
  have i_d := d.isLt
  have i_a := a.isLt
  have i_b := b.isLt
  have he : some (h.enc + 654311425 + d.toNat * 16384 + a.toNat * 256 + b.toNat * 4) = some n := he
  injection he with he
  have hb : 1 + d.toNat * 16384 + a.toNat * 256 + b.toNat * 4 < 1048576 := by omega
  obtain rfl : n = h.enc + 39 * 16777216 + (1 + d.toNat * 16384 + a.toNat * 256 + b.toNat * 4) := by omega
  refine ⟨word_lt h 39 _ (by decide) hb, fun hg => ?_⟩
  have b99 : bits (h.enc + 39 * 16777216 + (1 + d.toNat * 16384 + a.toNat * 256 + b.toNat * 4)) 0 2 = 1 := by
    rw [word_bits h 39 _ 0 2 (by decide)]; simp only [bits] <;> omega
  have b0 : bits (h.enc + 39 * 16777216 + (1 + d.toNat * 16384 + a.toNat * 256 + b.toNat * 4)) 14 6 = d.toNat := by
    rw [word_bits h 39 _ 14 6 (by decide)]; simp only [bits] <;> omega
  have b1 : bits (h.enc + 39 * 16777216 + (1 + d.toNat * 16384 + a.toNat * 256 + b.toNat * 4)) 8 6 = a.toNat := by
    rw [word_bits h 39 _ 8 6 (by decide)]; simp only [bits] <;> omega
  have b2 : bits (h.enc + 39 * 16777216 + (1 + d.toNat * 16384 + a.toNat * 256 + b.toNat * 4)) 2 6 = b.toNat := by
    rw [word_bits h 39 _ 2 6 (by decide)]; simp only [bits] <;> omega
  rw [decodeNat_of hg, decodeMajor_27 (word_major h 39 _ (by decide) hb)]
  simp only [decode27, b99, word_hdr h 39 _ (by decide) hb, fld_of b0, fld_of b1, fld_of b2]

theorem WordRoundTrip.pkaddBf16 (h : Hdr) (d : BitVec 6) (a : BitVec 6) (b : BitVec 6) : WordRoundTrip.Statement (.pkaddBf16 h d a b) := by
  intro n he
  have i_d := d.isLt
  have i_a := a.isLt
  have i_b := b.isLt
  have he : some (h.enc + 654311426 + d.toNat * 16384 + a.toNat * 256 + b.toNat * 4) = some n := he
  injection he with he
  have hb : 2 + d.toNat * 16384 + a.toNat * 256 + b.toNat * 4 < 1048576 := by omega
  obtain rfl : n = h.enc + 39 * 16777216 + (2 + d.toNat * 16384 + a.toNat * 256 + b.toNat * 4) := by omega
  refine ⟨word_lt h 39 _ (by decide) hb, fun hg => ?_⟩
  have b99 : bits (h.enc + 39 * 16777216 + (2 + d.toNat * 16384 + a.toNat * 256 + b.toNat * 4)) 0 2 = 2 := by
    rw [word_bits h 39 _ 0 2 (by decide)]; simp only [bits] <;> omega
  have b0 : bits (h.enc + 39 * 16777216 + (2 + d.toNat * 16384 + a.toNat * 256 + b.toNat * 4)) 14 6 = d.toNat := by
    rw [word_bits h 39 _ 14 6 (by decide)]; simp only [bits] <;> omega
  have b1 : bits (h.enc + 39 * 16777216 + (2 + d.toNat * 16384 + a.toNat * 256 + b.toNat * 4)) 8 6 = a.toNat := by
    rw [word_bits h 39 _ 8 6 (by decide)]; simp only [bits] <;> omega
  have b2 : bits (h.enc + 39 * 16777216 + (2 + d.toNat * 16384 + a.toNat * 256 + b.toNat * 4)) 2 6 = b.toNat := by
    rw [word_bits h 39 _ 2 6 (by decide)]; simp only [bits] <;> omega
  rw [decodeNat_of hg, decodeMajor_27 (word_major h 39 _ (by decide) hb)]
  simp only [decode27, b99, word_hdr h 39 _ (by decide) hb, fld_of b0, fld_of b1, fld_of b2]

theorem WordRoundTrip.pkmulBf16 (h : Hdr) (d : BitVec 6) (a : BitVec 6) (b : BitVec 6) : WordRoundTrip.Statement (.pkmulBf16 h d a b) := by
  intro n he
  have i_d := d.isLt
  have i_a := a.isLt
  have i_b := b.isLt
  have he : some (h.enc + 654311427 + d.toNat * 16384 + a.toNat * 256 + b.toNat * 4) = some n := he
  injection he with he
  have hb : 3 + d.toNat * 16384 + a.toNat * 256 + b.toNat * 4 < 1048576 := by omega
  obtain rfl : n = h.enc + 39 * 16777216 + (3 + d.toNat * 16384 + a.toNat * 256 + b.toNat * 4) := by omega
  refine ⟨word_lt h 39 _ (by decide) hb, fun hg => ?_⟩
  have b99 : bits (h.enc + 39 * 16777216 + (3 + d.toNat * 16384 + a.toNat * 256 + b.toNat * 4)) 0 2 = 3 := by
    rw [word_bits h 39 _ 0 2 (by decide)]; simp only [bits] <;> omega
  have b0 : bits (h.enc + 39 * 16777216 + (3 + d.toNat * 16384 + a.toNat * 256 + b.toNat * 4)) 14 6 = d.toNat := by
    rw [word_bits h 39 _ 14 6 (by decide)]; simp only [bits] <;> omega
  have b1 : bits (h.enc + 39 * 16777216 + (3 + d.toNat * 16384 + a.toNat * 256 + b.toNat * 4)) 8 6 = a.toNat := by
    rw [word_bits h 39 _ 8 6 (by decide)]; simp only [bits] <;> omega
  have b2 : bits (h.enc + 39 * 16777216 + (3 + d.toNat * 16384 + a.toNat * 256 + b.toNat * 4)) 2 6 = b.toNat := by
    rw [word_bits h 39 _ 2 6 (by decide)]; simp only [bits] <;> omega
  rw [decodeNat_of hg, decodeMajor_27 (word_major h 39 _ (by decide) hb)]
  simp only [decode27, b99, word_hdr h 39 _ (by decide) hb, fld_of b0, fld_of b1, fld_of b2]

theorem WordRoundTrip.pkfmaF16 (h : Hdr) (d : BitVec 6) (a : BitVec 6) (b : BitVec 6) : WordRoundTrip.Statement (.pkfmaF16 h d a b) := by
  intro n he
  have i_d := d.isLt
  have i_a := a.isLt
  have i_b := b.isLt
  have he : some (h.enc + 671088640 + d.toNat * 16384 + a.toNat * 256 + b.toNat * 4) = some n := he
  injection he with he
  have hb : 0 + d.toNat * 16384 + a.toNat * 256 + b.toNat * 4 < 1048576 := by omega
  obtain rfl : n = h.enc + 40 * 16777216 + (0 + d.toNat * 16384 + a.toNat * 256 + b.toNat * 4) := by omega
  refine ⟨word_lt h 40 _ (by decide) hb, fun hg => ?_⟩
  have b99 : bits (h.enc + 40 * 16777216 + (0 + d.toNat * 16384 + a.toNat * 256 + b.toNat * 4)) 0 2 = 0 := by
    rw [word_bits h 40 _ 0 2 (by decide)]; simp only [bits] <;> omega
  have b0 : bits (h.enc + 40 * 16777216 + (0 + d.toNat * 16384 + a.toNat * 256 + b.toNat * 4)) 14 6 = d.toNat := by
    rw [word_bits h 40 _ 14 6 (by decide)]; simp only [bits] <;> omega
  have b1 : bits (h.enc + 40 * 16777216 + (0 + d.toNat * 16384 + a.toNat * 256 + b.toNat * 4)) 8 6 = a.toNat := by
    rw [word_bits h 40 _ 8 6 (by decide)]; simp only [bits] <;> omega
  have b2 : bits (h.enc + 40 * 16777216 + (0 + d.toNat * 16384 + a.toNat * 256 + b.toNat * 4)) 2 6 = b.toNat := by
    rw [word_bits h 40 _ 2 6 (by decide)]; simp only [bits] <;> omega
  rw [decodeNat_of hg, decodeMajor_28 (word_major h 40 _ (by decide) hb)]
  simp only [decode28, b99, word_hdr h 40 _ (by decide) hb, fld_of b0, fld_of b1, fld_of b2]

theorem WordRoundTrip.pkfmaBf16 (h : Hdr) (d : BitVec 6) (a : BitVec 6) (b : BitVec 6) : WordRoundTrip.Statement (.pkfmaBf16 h d a b) := by
  intro n he
  have i_d := d.isLt
  have i_a := a.isLt
  have i_b := b.isLt
  have he : some (h.enc + 671088641 + d.toNat * 16384 + a.toNat * 256 + b.toNat * 4) = some n := he
  injection he with he
  have hb : 1 + d.toNat * 16384 + a.toNat * 256 + b.toNat * 4 < 1048576 := by omega
  obtain rfl : n = h.enc + 40 * 16777216 + (1 + d.toNat * 16384 + a.toNat * 256 + b.toNat * 4) := by omega
  refine ⟨word_lt h 40 _ (by decide) hb, fun hg => ?_⟩
  have b99 : bits (h.enc + 40 * 16777216 + (1 + d.toNat * 16384 + a.toNat * 256 + b.toNat * 4)) 0 2 = 1 := by
    rw [word_bits h 40 _ 0 2 (by decide)]; simp only [bits] <;> omega
  have b0 : bits (h.enc + 40 * 16777216 + (1 + d.toNat * 16384 + a.toNat * 256 + b.toNat * 4)) 14 6 = d.toNat := by
    rw [word_bits h 40 _ 14 6 (by decide)]; simp only [bits] <;> omega
  have b1 : bits (h.enc + 40 * 16777216 + (1 + d.toNat * 16384 + a.toNat * 256 + b.toNat * 4)) 8 6 = a.toNat := by
    rw [word_bits h 40 _ 8 6 (by decide)]; simp only [bits] <;> omega
  have b2 : bits (h.enc + 40 * 16777216 + (1 + d.toNat * 16384 + a.toNat * 256 + b.toNat * 4)) 2 6 = b.toNat := by
    rw [word_bits h 40 _ 2 6 (by decide)]; simp only [bits] <;> omega
  rw [decodeNat_of hg, decodeMajor_28 (word_major h 40 _ (by decide) hb)]
  simp only [decode28, b99, word_hdr h 40 _ (by decide) hb, fld_of b0, fld_of b1, fld_of b2]

theorem cvt_major (h : Hdr) (d a : BitVec 6) (st dt : BitVec 5) (k n : Nat) (hk : dt.toNat / 8 = k)
    (he : encodeNat (.cvt h d a st dt) = some n)
    (hd : ∀ w, bits w 24 7 = 48 + k → decodeMajor w =
      .ok (.cvt (hdrOf w) (fld w 14 6) (fld w 8 6) (fld w 3 5) (BitVec.ofNat 5 (bits w 24 2 * 8 + bits w 0 3)))) :
    n < 2 ^ 32 ∧ (neverGuarded n = false → decodeNat n = .ok (.cvt h d a st dt)) := by
  have i_d := d.isLt
  have i_a := a.isLt
  have i_st := st.isLt
  have i_dt := dt.isLt
  have he : some (h.enc + 805306368 + dt.toNat / 8 * 16777216 + d.toNat * 16384 + a.toNat * 256 + st.toNat * 8 + dt.toNat % 8) = some n := he
  injection he with he
  have hb : d.toNat * 16384 + a.toNat * 256 + st.toNat * 8 + dt.toNat % 8 < 1048576 := by omega
  have hm : 48 + k < 128 := by omega
  obtain rfl : n = h.enc + (48 + k) * 16777216 + (d.toNat * 16384 + a.toNat * 256 + st.toNat * 8 + dt.toNat % 8) := by omega
  refine ⟨word_lt h _ _ hm hb, fun hg => ?_⟩
  have b0 : bits (h.enc + (48 + k) * 16777216 + (d.toNat * 16384 + a.toNat * 256 + st.toNat * 8 + dt.toNat % 8)) 14 6 = d.toNat := by
    rw [word_bits h _ _ 14 6 (by decide)]; simp only [bits]; omega
  have b1 : bits (h.enc + (48 + k) * 16777216 + (d.toNat * 16384 + a.toNat * 256 + st.toNat * 8 + dt.toNat % 8)) 8 6 = a.toNat := by
    rw [word_bits h _ _ 8 6 (by decide)]; simp only [bits]; omega
  have b2 : bits (h.enc + (48 + k) * 16777216 + (d.toNat * 16384 + a.toNat * 256 + st.toNat * 8 + dt.toNat % 8)) 3 5 = st.toNat := by
    rw [word_bits h _ _ 3 5 (by decide)]; simp only [bits]; omega
  have b3 : bits (h.enc + (48 + k) * 16777216 + (d.toNat * 16384 + a.toNat * 256 + st.toNat * 8 + dt.toNat % 8)) 0 3 = dt.toNat % 8 := by
    rw [word_bits h _ _ 0 3 (by decide)]; simp only [bits]; omega
  have hj := word_major h _ _ hm hb
  have b4 : bits (h.enc + (48 + k) * 16777216 + (d.toNat * 16384 + a.toNat * 256 + st.toNat * 8 + dt.toNat % 8)) 24 2 = k := by
    simp only [bits] at hj ⊢; omega
  have b5 : BitVec.ofNat 5 (k * 8 + dt.toNat % 8) = dt := by
    rw [show k * 8 + dt.toNat % 8 = dt.toNat by omega]; simp
  rw [decodeNat_of hg, hd _ hj, word_hdr h _ _ hm hb, fld_of b0, fld_of b1, fld_of b2, b3, b4, b5]

theorem WordRoundTrip.cvt (h : Hdr) (d : BitVec 6) (a : BitVec 6) (st : BitVec 5) (dt : BitVec 5) : WordRoundTrip.Statement (.cvt h d a st dt) := by
  intro n he
  have i_dt := dt.isLt
  have hk : dt.toNat / 8 = 0 ∨ dt.toNat / 8 = 1 ∨ dt.toNat / 8 = 2 ∨ dt.toNat / 8 = 3 := by omega
  obtain hk | hk | hk | hk := hk
  · exact cvt_major h d a st dt 0 n hk he (fun w e => by rw [decodeMajor_30 e, decode30])
  · exact cvt_major h d a st dt 1 n hk he (fun w e => by rw [decodeMajor_31 e, decode31])
  · exact cvt_major h d a st dt 2 n hk he (fun w e => by rw [decodeMajor_32 e, decode32])
  · exact cvt_major h d a st dt 3 n hk he (fun w e => by rw [decodeMajor_33 e, decode33])

theorem WordRoundTrip.pack (h : Hdr) (d : BitVec 6) (a : BitVec 6) : WordRoundTrip.Statement (.pack h d a) := by
  intro n he
  have i_d := d.isLt
  have i_a := a.isLt
  have he : some (h.enc + 872415232 + d.toNat * 16384 + a.toNat * 256) = some n := he
  injection he with he
  have hb : 0 + d.toNat * 16384 + a.toNat * 256 < 1048576 := by omega
  obtain rfl : n = h.enc + 52 * 16777216 + (0 + d.toNat * 16384 + a.toNat * 256) := by omega
  refine ⟨word_lt h 52 _ (by decide) hb, fun hg => ?_⟩
  have b99 : bits (h.enc + 52 * 16777216 + (0 + d.toNat * 16384 + a.toNat * 256)) 0 2 = 0 := by
    rw [word_bits h 52 _ 0 2 (by decide)]; simp only [bits] <;> omega
  have b0 : bits (h.enc + 52 * 16777216 + (0 + d.toNat * 16384 + a.toNat * 256)) 2 6 = 0 := by
    rw [word_bits h 52 _ 2 6 (by decide)]; simp only [bits] <;> omega
  have b1 : bits (h.enc + 52 * 16777216 + (0 + d.toNat * 16384 + a.toNat * 256)) 14 6 = d.toNat := by
    rw [word_bits h 52 _ 14 6 (by decide)]; simp only [bits] <;> omega
  have b2 : bits (h.enc + 52 * 16777216 + (0 + d.toNat * 16384 + a.toNat * 256)) 8 6 = a.toNat := by
    rw [word_bits h 52 _ 8 6 (by decide)]; simp only [bits] <;> omega
  rw [decodeNat_of hg, decodeMajor_34 (word_major h 52 _ (by decide) hb)]
  simp only [decode34, b99, b0, word_hdr h 52 _ (by decide) hb, fld_of b1, fld_of b2, res0, beq_self_eq_true, if_true]

theorem WordRoundTrip.unpk (h : Hdr) (d : BitVec 6) (a : BitVec 6) : WordRoundTrip.Statement (.unpk h d a) := by
  intro n he
  have i_d := d.isLt
  have i_a := a.isLt
  have he : some (h.enc + 889192448 + d.toNat * 16384 + a.toNat * 256) = some n := he
  injection he with he
  have hb : 0 + d.toNat * 16384 + a.toNat * 256 < 1048576 := by omega
  obtain rfl : n = h.enc + 53 * 16777216 + (0 + d.toNat * 16384 + a.toNat * 256) := by omega
  refine ⟨word_lt h 53 _ (by decide) hb, fun hg => ?_⟩
  have b99 : bits (h.enc + 53 * 16777216 + (0 + d.toNat * 16384 + a.toNat * 256)) 0 2 = 0 := by
    rw [word_bits h 53 _ 0 2 (by decide)]; simp only [bits] <;> omega
  have b0 : bits (h.enc + 53 * 16777216 + (0 + d.toNat * 16384 + a.toNat * 256)) 2 6 = 0 := by
    rw [word_bits h 53 _ 2 6 (by decide)]; simp only [bits] <;> omega
  have b1 : bits (h.enc + 53 * 16777216 + (0 + d.toNat * 16384 + a.toNat * 256)) 14 6 = d.toNat := by
    rw [word_bits h 53 _ 14 6 (by decide)]; simp only [bits] <;> omega
  have b2 : bits (h.enc + 53 * 16777216 + (0 + d.toNat * 16384 + a.toNat * 256)) 8 6 = a.toNat := by
    rw [word_bits h 53 _ 8 6 (by decide)]; simp only [bits] <;> omega
  rw [decodeNat_of hg, decodeMajor_35 (word_major h 53 _ (by decide) hb)]
  simp only [decode35, b99, b0, word_hdr h 53 _ (by decide) hb, fld_of b1, fld_of b2, res0, beq_self_eq_true, if_true]

theorem WordRoundTrip.frnd (h : Hdr) (d : BitVec 6) (a : BitVec 6) (m : BitVec 2) : WordRoundTrip.Statement (.frnd h d a m) := by
  intro n he
  have i_d := d.isLt
  have i_a := a.isLt
  have i_m := m.isLt
  have he : some (h.enc + 905969664 + d.toNat * 16384 + a.toNat * 256 + m.toNat) = some n := he
  injection he with he
  have hb : 0 + d.toNat * 16384 + a.toNat * 256 + m.toNat < 1048576 := by omega
  obtain rfl : n = h.enc + 54 * 16777216 + (0 + d.toNat * 16384 + a.toNat * 256 + m.toNat) := by omega
  refine ⟨word_lt h 54 _ (by decide) hb, fun hg => ?_⟩
  have b0 : bits (h.enc + 54 * 16777216 + (0 + d.toNat * 16384 + a.toNat * 256 + m.toNat)) 2 6 = 0 := by
    rw [word_bits h 54 _ 2 6 (by decide)]; simp only [bits] <;> omega
  have b1 : bits (h.enc + 54 * 16777216 + (0 + d.toNat * 16384 + a.toNat * 256 + m.toNat)) 14 6 = d.toNat := by
    rw [word_bits h 54 _ 14 6 (by decide)]; simp only [bits] <;> omega
  have b2 : bits (h.enc + 54 * 16777216 + (0 + d.toNat * 16384 + a.toNat * 256 + m.toNat)) 8 6 = a.toNat := by
    rw [word_bits h 54 _ 8 6 (by decide)]; simp only [bits] <;> omega
  have b3 : bits (h.enc + 54 * 16777216 + (0 + d.toNat * 16384 + a.toNat * 256 + m.toNat)) 0 2 = m.toNat := by
    rw [word_bits h 54 _ 0 2 (by decide)]; simp only [bits] <;> omega
  rw [decodeNat_of hg, decodeMajor_36 (word_major h 54 _ (by decide) hb)]
  simp only [decode36, b0, word_hdr h 54 _ (by decide) hb, fld_of b1, fld_of b2, fld_of b3, res0, beq_self_eq_true, if_true]

theorem WordRoundTrip.qblk (h : Hdr) (d : BitVec 6) (a : BitVec 6) (f : BitVec 3) : WordRoundTrip.Statement (.qblk h d a f) := by
  intro n he
  have i_d := d.isLt
  have i_a := a.isLt
  have i_f := f.isLt
  have he : some (h.enc + 922746880 + d.toNat * 16384 + a.toNat * 256 + f.toNat * 32) = some n := he
  injection he with he
  have hb : 0 + d.toNat * 16384 + a.toNat * 256 + f.toNat * 32 < 1048576 := by omega
  obtain rfl : n = h.enc + 55 * 16777216 + (0 + d.toNat * 16384 + a.toNat * 256 + f.toNat * 32) := by omega
  refine ⟨word_lt h 55 _ (by decide) hb, fun hg => ?_⟩
  have b99 : bits (h.enc + 55 * 16777216 + (0 + d.toNat * 16384 + a.toNat * 256 + f.toNat * 32)) 0 2 = 0 := by
    rw [word_bits h 55 _ 0 2 (by decide)]; simp only [bits] <;> omega
  have b0 : bits (h.enc + 55 * 16777216 + (0 + d.toNat * 16384 + a.toNat * 256 + f.toNat * 32)) 2 3 = 0 := by
    rw [word_bits h 55 _ 2 3 (by decide)]; simp only [bits] <;> omega
  have b1 : bits (h.enc + 55 * 16777216 + (0 + d.toNat * 16384 + a.toNat * 256 + f.toNat * 32)) 14 6 = d.toNat := by
    rw [word_bits h 55 _ 14 6 (by decide)]; simp only [bits] <;> omega
  have b2 : bits (h.enc + 55 * 16777216 + (0 + d.toNat * 16384 + a.toNat * 256 + f.toNat * 32)) 8 6 = a.toNat := by
    rw [word_bits h 55 _ 8 6 (by decide)]; simp only [bits] <;> omega
  have b3 : bits (h.enc + 55 * 16777216 + (0 + d.toNat * 16384 + a.toNat * 256 + f.toNat * 32)) 5 3 = f.toNat := by
    rw [word_bits h 55 _ 5 3 (by decide)]; simp only [bits] <;> omega
  rw [decodeNat_of hg, decodeMajor_37 (word_major h 55 _ (by decide) hb)]
  simp only [decode37, b99, b0, word_hdr h 55 _ (by decide) hb, fld_of b1, fld_of b2, fld_of b3, res0, beq_self_eq_true, if_true]

theorem WordRoundTrip.qhad (h : Hdr) (d : BitVec 6) (a : BitVec 6) (f : BitVec 3) (hf : BitVec 3) : WordRoundTrip.Statement (.qhad h d a f hf) := by
  intro n he
  have i_d := d.isLt
  have i_a := a.isLt
  have i_f := f.isLt
  have i_hf := hf.isLt
  have he : some (h.enc + 922746881 + d.toNat * 16384 + a.toNat * 256 + f.toNat * 32 + hf.toNat * 4) = some n := he
  injection he with he
  have hb : 1 + d.toNat * 16384 + a.toNat * 256 + f.toNat * 32 + hf.toNat * 4 < 1048576 := by omega
  obtain rfl : n = h.enc + 55 * 16777216 + (1 + d.toNat * 16384 + a.toNat * 256 + f.toNat * 32 + hf.toNat * 4) := by omega
  refine ⟨word_lt h 55 _ (by decide) hb, fun hg => ?_⟩
  have b99 : bits (h.enc + 55 * 16777216 + (1 + d.toNat * 16384 + a.toNat * 256 + f.toNat * 32 + hf.toNat * 4)) 0 2 = 1 := by
    rw [word_bits h 55 _ 0 2 (by decide)]; simp only [bits] <;> omega
  have b0 : bits (h.enc + 55 * 16777216 + (1 + d.toNat * 16384 + a.toNat * 256 + f.toNat * 32 + hf.toNat * 4)) 14 6 = d.toNat := by
    rw [word_bits h 55 _ 14 6 (by decide)]; simp only [bits] <;> omega
  have b1 : bits (h.enc + 55 * 16777216 + (1 + d.toNat * 16384 + a.toNat * 256 + f.toNat * 32 + hf.toNat * 4)) 8 6 = a.toNat := by
    rw [word_bits h 55 _ 8 6 (by decide)]; simp only [bits] <;> omega
  have b2 : bits (h.enc + 55 * 16777216 + (1 + d.toNat * 16384 + a.toNat * 256 + f.toNat * 32 + hf.toNat * 4)) 5 3 = f.toNat := by
    rw [word_bits h 55 _ 5 3 (by decide)]; simp only [bits] <;> omega
  have b3 : bits (h.enc + 55 * 16777216 + (1 + d.toNat * 16384 + a.toNat * 256 + f.toNat * 32 + hf.toNat * 4)) 2 3 = hf.toNat := by
    rw [word_bits h 55 _ 2 3 (by decide)]; simp only [bits] <;> omega
  rw [decodeNat_of hg, decodeMajor_37 (word_major h 55 _ (by decide) hb)]
  simp only [decode37, b99, word_hdr h 55 _ (by decide) hb, fld_of b0, fld_of b1, fld_of b2, fld_of b3]

theorem WordRoundTrip.dqblk (h : Hdr) (d : BitVec 6) (a : BitVec 6) (f : BitVec 3) : WordRoundTrip.Statement (.dqblk h d a f) := by
  intro n he
  have i_d := d.isLt
  have i_a := a.isLt
  have i_f := f.isLt
  have he : some (h.enc + 922746882 + d.toNat * 16384 + a.toNat * 256 + f.toNat * 32) = some n := he
  injection he with he
  have hb : 2 + d.toNat * 16384 + a.toNat * 256 + f.toNat * 32 < 1048576 := by omega
  obtain rfl : n = h.enc + 55 * 16777216 + (2 + d.toNat * 16384 + a.toNat * 256 + f.toNat * 32) := by omega
  refine ⟨word_lt h 55 _ (by decide) hb, fun hg => ?_⟩
  have b99 : bits (h.enc + 55 * 16777216 + (2 + d.toNat * 16384 + a.toNat * 256 + f.toNat * 32)) 0 2 = 2 := by
    rw [word_bits h 55 _ 0 2 (by decide)]; simp only [bits] <;> omega
  have b0 : bits (h.enc + 55 * 16777216 + (2 + d.toNat * 16384 + a.toNat * 256 + f.toNat * 32)) 2 3 = 0 := by
    rw [word_bits h 55 _ 2 3 (by decide)]; simp only [bits] <;> omega
  have b1 : bits (h.enc + 55 * 16777216 + (2 + d.toNat * 16384 + a.toNat * 256 + f.toNat * 32)) 14 6 = d.toNat := by
    rw [word_bits h 55 _ 14 6 (by decide)]; simp only [bits] <;> omega
  have b2 : bits (h.enc + 55 * 16777216 + (2 + d.toNat * 16384 + a.toNat * 256 + f.toNat * 32)) 8 6 = a.toNat := by
    rw [word_bits h 55 _ 8 6 (by decide)]; simp only [bits] <;> omega
  have b3 : bits (h.enc + 55 * 16777216 + (2 + d.toNat * 16384 + a.toNat * 256 + f.toNat * 32)) 5 3 = f.toNat := by
    rw [word_bits h 55 _ 5 3 (by decide)]; simp only [bits] <;> omega
  rw [decodeNat_of hg, decodeMajor_37 (word_major h 55 _ (by decide) hb)]
  simp only [decode37, b99, b0, word_hdr h 55 _ (by decide) hb, fld_of b1, fld_of b2, fld_of b3, res0, beq_self_eq_true, if_true]

theorem WordRoundTrip.shflLane (h : Hdr) (d : BitVec 6) (a : BitVec 6) (b : BitVec 6) : WordRoundTrip.Statement (.shflLane h d a b) := by
  intro n he
  have i_d := d.isLt
  have i_a := a.isLt
  have i_b := b.isLt
  have he : some (h.enc + 939524096 + d.toNat * 16384 + a.toNat * 256 + b.toNat * 4) = some n := he
  injection he with he
  have hb : 0 + d.toNat * 16384 + a.toNat * 256 + b.toNat * 4 < 1048576 := by omega
  obtain rfl : n = h.enc + 56 * 16777216 + (0 + d.toNat * 16384 + a.toNat * 256 + b.toNat * 4) := by omega
  refine ⟨word_lt h 56 _ (by decide) hb, fun hg => ?_⟩
  have b99 : bits (h.enc + 56 * 16777216 + (0 + d.toNat * 16384 + a.toNat * 256 + b.toNat * 4)) 0 2 = 0 := by
    rw [word_bits h 56 _ 0 2 (by decide)]; simp only [bits] <;> omega
  have b0 : bits (h.enc + 56 * 16777216 + (0 + d.toNat * 16384 + a.toNat * 256 + b.toNat * 4)) 14 6 = d.toNat := by
    rw [word_bits h 56 _ 14 6 (by decide)]; simp only [bits] <;> omega
  have b1 : bits (h.enc + 56 * 16777216 + (0 + d.toNat * 16384 + a.toNat * 256 + b.toNat * 4)) 8 6 = a.toNat := by
    rw [word_bits h 56 _ 8 6 (by decide)]; simp only [bits] <;> omega
  have b2 : bits (h.enc + 56 * 16777216 + (0 + d.toNat * 16384 + a.toNat * 256 + b.toNat * 4)) 2 6 = b.toNat := by
    rw [word_bits h 56 _ 2 6 (by decide)]; simp only [bits] <;> omega
  rw [decodeNat_of hg, decodeMajor_38 (word_major h 56 _ (by decide) hb)]
  simp only [decode38, b99, word_hdr h 56 _ (by decide) hb, fld_of b0, fld_of b1, fld_of b2]

theorem WordRoundTrip.shflRot (h : Hdr) (d : BitVec 6) (a : BitVec 6) (b : BitVec 6) : WordRoundTrip.Statement (.shflRot h d a b) := by
  intro n he
  have i_d := d.isLt
  have i_a := a.isLt
  have i_b := b.isLt
  have he : some (h.enc + 939524097 + d.toNat * 16384 + a.toNat * 256 + b.toNat * 4) = some n := he
  injection he with he
  have hb : 1 + d.toNat * 16384 + a.toNat * 256 + b.toNat * 4 < 1048576 := by omega
  obtain rfl : n = h.enc + 56 * 16777216 + (1 + d.toNat * 16384 + a.toNat * 256 + b.toNat * 4) := by omega
  refine ⟨word_lt h 56 _ (by decide) hb, fun hg => ?_⟩
  have b99 : bits (h.enc + 56 * 16777216 + (1 + d.toNat * 16384 + a.toNat * 256 + b.toNat * 4)) 0 2 = 1 := by
    rw [word_bits h 56 _ 0 2 (by decide)]; simp only [bits] <;> omega
  have b0 : bits (h.enc + 56 * 16777216 + (1 + d.toNat * 16384 + a.toNat * 256 + b.toNat * 4)) 14 6 = d.toNat := by
    rw [word_bits h 56 _ 14 6 (by decide)]; simp only [bits] <;> omega
  have b1 : bits (h.enc + 56 * 16777216 + (1 + d.toNat * 16384 + a.toNat * 256 + b.toNat * 4)) 8 6 = a.toNat := by
    rw [word_bits h 56 _ 8 6 (by decide)]; simp only [bits] <;> omega
  have b2 : bits (h.enc + 56 * 16777216 + (1 + d.toNat * 16384 + a.toNat * 256 + b.toNat * 4)) 2 6 = b.toNat := by
    rw [word_bits h 56 _ 2 6 (by decide)]; simp only [bits] <;> omega
  rw [decodeNat_of hg, decodeMajor_38 (word_major h 56 _ (by decide) hb)]
  simp only [decode38, b99, word_hdr h 56 _ (by decide) hb, fld_of b0, fld_of b1, fld_of b2]

theorem WordRoundTrip.shflMirr (h : Hdr) (d : BitVec 6) (a : BitVec 6) (b : BitVec 6) : WordRoundTrip.Statement (.shflMirr h d a b) := by
  intro n he
  have i_d := d.isLt
  have i_a := a.isLt
  have i_b := b.isLt
  have he : some (h.enc + 939524098 + d.toNat * 16384 + a.toNat * 256 + b.toNat * 4) = some n := he
  injection he with he
  have hb : 2 + d.toNat * 16384 + a.toNat * 256 + b.toNat * 4 < 1048576 := by omega
  obtain rfl : n = h.enc + 56 * 16777216 + (2 + d.toNat * 16384 + a.toNat * 256 + b.toNat * 4) := by omega
  refine ⟨word_lt h 56 _ (by decide) hb, fun hg => ?_⟩
  have b99 : bits (h.enc + 56 * 16777216 + (2 + d.toNat * 16384 + a.toNat * 256 + b.toNat * 4)) 0 2 = 2 := by
    rw [word_bits h 56 _ 0 2 (by decide)]; simp only [bits] <;> omega
  have b0 : bits (h.enc + 56 * 16777216 + (2 + d.toNat * 16384 + a.toNat * 256 + b.toNat * 4)) 14 6 = d.toNat := by
    rw [word_bits h 56 _ 14 6 (by decide)]; simp only [bits] <;> omega
  have b1 : bits (h.enc + 56 * 16777216 + (2 + d.toNat * 16384 + a.toNat * 256 + b.toNat * 4)) 8 6 = a.toNat := by
    rw [word_bits h 56 _ 8 6 (by decide)]; simp only [bits] <;> omega
  have b2 : bits (h.enc + 56 * 16777216 + (2 + d.toNat * 16384 + a.toNat * 256 + b.toNat * 4)) 2 6 = b.toNat := by
    rw [word_bits h 56 _ 2 6 (by decide)]; simp only [bits] <;> omega
  rw [decodeNat_of hg, decodeMajor_38 (word_major h 56 _ (by decide) hb)]
  simp only [decode38, b99, word_hdr h 56 _ (by decide) hb, fld_of b0, fld_of b1, fld_of b2]

theorem WordRoundTrip.shflBfly (h : Hdr) (d : BitVec 6) (a : BitVec 6) (b : BitVec 6) : WordRoundTrip.Statement (.shflBfly h d a b) := by
  intro n he
  have i_d := d.isLt
  have i_a := a.isLt
  have i_b := b.isLt
  have he : some (h.enc + 939524099 + d.toNat * 16384 + a.toNat * 256 + b.toNat * 4) = some n := he
  injection he with he
  have hb : 3 + d.toNat * 16384 + a.toNat * 256 + b.toNat * 4 < 1048576 := by omega
  obtain rfl : n = h.enc + 56 * 16777216 + (3 + d.toNat * 16384 + a.toNat * 256 + b.toNat * 4) := by omega
  refine ⟨word_lt h 56 _ (by decide) hb, fun hg => ?_⟩
  have b99 : bits (h.enc + 56 * 16777216 + (3 + d.toNat * 16384 + a.toNat * 256 + b.toNat * 4)) 0 2 = 3 := by
    rw [word_bits h 56 _ 0 2 (by decide)]; simp only [bits] <;> omega
  have b0 : bits (h.enc + 56 * 16777216 + (3 + d.toNat * 16384 + a.toNat * 256 + b.toNat * 4)) 14 6 = d.toNat := by
    rw [word_bits h 56 _ 14 6 (by decide)]; simp only [bits] <;> omega
  have b1 : bits (h.enc + 56 * 16777216 + (3 + d.toNat * 16384 + a.toNat * 256 + b.toNat * 4)) 8 6 = a.toNat := by
    rw [word_bits h 56 _ 8 6 (by decide)]; simp only [bits] <;> omega
  have b2 : bits (h.enc + 56 * 16777216 + (3 + d.toNat * 16384 + a.toNat * 256 + b.toNat * 4)) 2 6 = b.toNat := by
    rw [word_bits h 56 _ 2 6 (by decide)]; simp only [bits] <;> omega
  rw [decodeNat_of hg, decodeMajor_38 (word_major h 56 _ (by decide) hb)]
  simp only [decode38, b99, word_hdr h 56 _ (by decide) hb, fld_of b0, fld_of b1, fld_of b2]

theorem WordRoundTrip.voteEvery (h : Hdr) (q : BitVec 4) (a : BitVec 4) : WordRoundTrip.Statement (.voteEvery h q a) := by
  intro n he
  have i_q := q.isLt
  have i_a := a.isLt
  have he : some (h.enc + 956301312 + q.toNat * 65536 + a.toNat * 1024) = some n := he
  injection he with he
  have hb : 0 + q.toNat * 65536 + a.toNat * 1024 < 1048576 := by omega
  obtain rfl : n = h.enc + 57 * 16777216 + (0 + q.toNat * 65536 + a.toNat * 1024) := by omega
  refine ⟨word_lt h 57 _ (by decide) hb, fun hg => ?_⟩
  have b99 : bits (h.enc + 57 * 16777216 + (0 + q.toNat * 65536 + a.toNat * 1024)) 0 4 = 0 := by
    rw [word_bits h 57 _ 0 4 (by decide)]; simp only [bits] <;> omega
  have b0 : bits (h.enc + 57 * 16777216 + (0 + q.toNat * 65536 + a.toNat * 1024)) 4 6 = 0 := by
    rw [word_bits h 57 _ 4 6 (by decide)]; simp only [bits] <;> omega
  have b1 : bits (h.enc + 57 * 16777216 + (0 + q.toNat * 65536 + a.toNat * 1024)) 14 2 = 0 := by
    rw [word_bits h 57 _ 14 2 (by decide)]; simp only [bits] <;> omega
  have b2 : bits (h.enc + 57 * 16777216 + (0 + q.toNat * 65536 + a.toNat * 1024)) 16 4 = q.toNat := by
    rw [word_bits h 57 _ 16 4 (by decide)]; simp only [bits] <;> omega
  have b3 : bits (h.enc + 57 * 16777216 + (0 + q.toNat * 65536 + a.toNat * 1024)) 10 4 = a.toNat := by
    rw [word_bits h 57 _ 10 4 (by decide)]; simp only [bits] <;> omega
  rw [decodeNat_of hg, decodeMajor_39 (word_major h 57 _ (by decide) hb)]
  simp only [decode39, b99, b0, b1, word_hdr h 57 _ (by decide) hb, fld_of b2, fld_of b3, res0, beq_self_eq_true, Bool.and_self, if_true]

theorem WordRoundTrip.voteSome (h : Hdr) (q : BitVec 4) (a : BitVec 4) : WordRoundTrip.Statement (.voteSome h q a) := by
  intro n he
  have i_q := q.isLt
  have i_a := a.isLt
  have he : some (h.enc + 956301313 + q.toNat * 65536 + a.toNat * 1024) = some n := he
  injection he with he
  have hb : 1 + q.toNat * 65536 + a.toNat * 1024 < 1048576 := by omega
  obtain rfl : n = h.enc + 57 * 16777216 + (1 + q.toNat * 65536 + a.toNat * 1024) := by omega
  refine ⟨word_lt h 57 _ (by decide) hb, fun hg => ?_⟩
  have b99 : bits (h.enc + 57 * 16777216 + (1 + q.toNat * 65536 + a.toNat * 1024)) 0 4 = 1 := by
    rw [word_bits h 57 _ 0 4 (by decide)]; simp only [bits] <;> omega
  have b0 : bits (h.enc + 57 * 16777216 + (1 + q.toNat * 65536 + a.toNat * 1024)) 4 6 = 0 := by
    rw [word_bits h 57 _ 4 6 (by decide)]; simp only [bits] <;> omega
  have b1 : bits (h.enc + 57 * 16777216 + (1 + q.toNat * 65536 + a.toNat * 1024)) 14 2 = 0 := by
    rw [word_bits h 57 _ 14 2 (by decide)]; simp only [bits] <;> omega
  have b2 : bits (h.enc + 57 * 16777216 + (1 + q.toNat * 65536 + a.toNat * 1024)) 16 4 = q.toNat := by
    rw [word_bits h 57 _ 16 4 (by decide)]; simp only [bits] <;> omega
  have b3 : bits (h.enc + 57 * 16777216 + (1 + q.toNat * 65536 + a.toNat * 1024)) 10 4 = a.toNat := by
    rw [word_bits h 57 _ 10 4 (by decide)]; simp only [bits] <;> omega
  rw [decodeNat_of hg, decodeMajor_39 (word_major h 57 _ (by decide) hb)]
  simp only [decode39, b99, b0, b1, word_hdr h 57 _ (by decide) hb, fld_of b2, fld_of b3, res0, beq_self_eq_true, Bool.and_self, if_true]

theorem WordRoundTrip.voteSame (h : Hdr) (q : BitVec 4) (a : BitVec 4) : WordRoundTrip.Statement (.voteSame h q a) := by
  intro n he
  have i_q := q.isLt
  have i_a := a.isLt
  have he : some (h.enc + 956301314 + q.toNat * 65536 + a.toNat * 1024) = some n := he
  injection he with he
  have hb : 2 + q.toNat * 65536 + a.toNat * 1024 < 1048576 := by omega
  obtain rfl : n = h.enc + 57 * 16777216 + (2 + q.toNat * 65536 + a.toNat * 1024) := by omega
  refine ⟨word_lt h 57 _ (by decide) hb, fun hg => ?_⟩
  have b99 : bits (h.enc + 57 * 16777216 + (2 + q.toNat * 65536 + a.toNat * 1024)) 0 4 = 2 := by
    rw [word_bits h 57 _ 0 4 (by decide)]; simp only [bits] <;> omega
  have b0 : bits (h.enc + 57 * 16777216 + (2 + q.toNat * 65536 + a.toNat * 1024)) 4 6 = 0 := by
    rw [word_bits h 57 _ 4 6 (by decide)]; simp only [bits] <;> omega
  have b1 : bits (h.enc + 57 * 16777216 + (2 + q.toNat * 65536 + a.toNat * 1024)) 14 2 = 0 := by
    rw [word_bits h 57 _ 14 2 (by decide)]; simp only [bits] <;> omega
  have b2 : bits (h.enc + 57 * 16777216 + (2 + q.toNat * 65536 + a.toNat * 1024)) 16 4 = q.toNat := by
    rw [word_bits h 57 _ 16 4 (by decide)]; simp only [bits] <;> omega
  have b3 : bits (h.enc + 57 * 16777216 + (2 + q.toNat * 65536 + a.toNat * 1024)) 10 4 = a.toNat := by
    rw [word_bits h 57 _ 10 4 (by decide)]; simp only [bits] <;> omega
  rw [decodeNat_of hg, decodeMajor_39 (word_major h 57 _ (by decide) hb)]
  simp only [decode39, b99, b0, b1, word_hdr h 57 _ (by decide) hb, fld_of b2, fld_of b3, res0, beq_self_eq_true, Bool.and_self, if_true]

theorem WordRoundTrip.voteOdd (h : Hdr) (q : BitVec 4) (a : BitVec 4) : WordRoundTrip.Statement (.voteOdd h q a) := by
  intro n he
  have i_q := q.isLt
  have i_a := a.isLt
  have he : some (h.enc + 956301315 + q.toNat * 65536 + a.toNat * 1024) = some n := he
  injection he with he
  have hb : 3 + q.toNat * 65536 + a.toNat * 1024 < 1048576 := by omega
  obtain rfl : n = h.enc + 57 * 16777216 + (3 + q.toNat * 65536 + a.toNat * 1024) := by omega
  refine ⟨word_lt h 57 _ (by decide) hb, fun hg => ?_⟩
  have b99 : bits (h.enc + 57 * 16777216 + (3 + q.toNat * 65536 + a.toNat * 1024)) 0 4 = 3 := by
    rw [word_bits h 57 _ 0 4 (by decide)]; simp only [bits] <;> omega
  have b0 : bits (h.enc + 57 * 16777216 + (3 + q.toNat * 65536 + a.toNat * 1024)) 4 6 = 0 := by
    rw [word_bits h 57 _ 4 6 (by decide)]; simp only [bits] <;> omega
  have b1 : bits (h.enc + 57 * 16777216 + (3 + q.toNat * 65536 + a.toNat * 1024)) 14 2 = 0 := by
    rw [word_bits h 57 _ 14 2 (by decide)]; simp only [bits] <;> omega
  have b2 : bits (h.enc + 57 * 16777216 + (3 + q.toNat * 65536 + a.toNat * 1024)) 16 4 = q.toNat := by
    rw [word_bits h 57 _ 16 4 (by decide)]; simp only [bits] <;> omega
  have b3 : bits (h.enc + 57 * 16777216 + (3 + q.toNat * 65536 + a.toNat * 1024)) 10 4 = a.toNat := by
    rw [word_bits h 57 _ 10 4 (by decide)]; simp only [bits] <;> omega
  rw [decodeNat_of hg, decodeMajor_39 (word_major h 57 _ (by decide) hb)]
  simp only [decode39, b99, b0, b1, word_hdr h 57 _ (by decide) hb, fld_of b2, fld_of b3, res0, beq_self_eq_true, Bool.and_self, if_true]

theorem WordRoundTrip.ballot (h : Hdr) (d : BitVec 6) (a : BitVec 4) : WordRoundTrip.Statement (.ballot h d a) := by
  intro n he
  have i_d := d.isLt
  have i_a := a.isLt
  have he : some (h.enc + 973078528 + d.toNat * 16384 + a.toNat * 256) = some n := he
  injection he with he
  have hb : 0 + d.toNat * 16384 + a.toNat * 256 < 1048576 := by omega
  obtain rfl : n = h.enc + 58 * 16777216 + (0 + d.toNat * 16384 + a.toNat * 256) := by omega
  refine ⟨word_lt h 58 _ (by decide) hb, fun hg => ?_⟩
  have b0 : bits (h.enc + 58 * 16777216 + (0 + d.toNat * 16384 + a.toNat * 256)) 0 8 = 0 := by
    rw [word_bits h 58 _ 0 8 (by decide)]; simp only [bits] <;> omega
  have b1 : bits (h.enc + 58 * 16777216 + (0 + d.toNat * 16384 + a.toNat * 256)) 12 2 = 0 := by
    rw [word_bits h 58 _ 12 2 (by decide)]; simp only [bits] <;> omega
  have b2 : bits (h.enc + 58 * 16777216 + (0 + d.toNat * 16384 + a.toNat * 256)) 14 6 = d.toNat := by
    rw [word_bits h 58 _ 14 6 (by decide)]; simp only [bits] <;> omega
  have b3 : bits (h.enc + 58 * 16777216 + (0 + d.toNat * 16384 + a.toNat * 256)) 8 4 = a.toNat := by
    rw [word_bits h 58 _ 8 4 (by decide)]; simp only [bits] <;> omega
  rw [decodeNat_of hg, decodeMajor_3A (word_major h 58 _ (by decide) hb)]
  simp only [decode3A, b0, b1, word_hdr h 58 _ (by decide) hb, fld_of b2, fld_of b3, res0, beq_self_eq_true, Bool.and_self, if_true]

theorem WordRoundTrip.matchPeers (h : Hdr) (d : BitVec 6) (a : BitVec 6) : WordRoundTrip.Statement (.matchPeers h d a) := by
  intro n he
  have i_d := d.isLt
  have i_a := a.isLt
  have he : some (h.enc + 989855744 + d.toNat * 16384 + a.toNat * 256) = some n := he
  injection he with he
  have hb : 0 + d.toNat * 16384 + a.toNat * 256 < 1048576 := by omega
  obtain rfl : n = h.enc + 59 * 16777216 + (0 + d.toNat * 16384 + a.toNat * 256) := by omega
  refine ⟨word_lt h 59 _ (by decide) hb, fun hg => ?_⟩
  have b99 : bits (h.enc + 59 * 16777216 + (0 + d.toNat * 16384 + a.toNat * 256)) 0 2 = 0 := by
    rw [word_bits h 59 _ 0 2 (by decide)]; simp only [bits] <;> omega
  have b0 : bits (h.enc + 59 * 16777216 + (0 + d.toNat * 16384 + a.toNat * 256)) 2 6 = 0 := by
    rw [word_bits h 59 _ 2 6 (by decide)]; simp only [bits] <;> omega
  have b1 : bits (h.enc + 59 * 16777216 + (0 + d.toNat * 16384 + a.toNat * 256)) 14 6 = d.toNat := by
    rw [word_bits h 59 _ 14 6 (by decide)]; simp only [bits] <;> omega
  have b2 : bits (h.enc + 59 * 16777216 + (0 + d.toNat * 16384 + a.toNat * 256)) 8 6 = a.toNat := by
    rw [word_bits h 59 _ 8 6 (by decide)]; simp only [bits] <;> omega
  rw [decodeNat_of hg, decodeMajor_3B (word_major h 59 _ (by decide) hb)]
  simp only [decode3B, b99, b0, word_hdr h 59 _ (by decide) hb, fld_of b1, fld_of b2, res0, beq_self_eq_true, if_true]

theorem WordRoundTrip.matchWhole (h : Hdr) (d : BitVec 6) (a : BitVec 6) : WordRoundTrip.Statement (.matchWhole h d a) := by
  intro n he
  have i_d := d.isLt
  have i_a := a.isLt
  have he : some (h.enc + 989855745 + d.toNat * 16384 + a.toNat * 256) = some n := he
  injection he with he
  have hb : 1 + d.toNat * 16384 + a.toNat * 256 < 1048576 := by omega
  obtain rfl : n = h.enc + 59 * 16777216 + (1 + d.toNat * 16384 + a.toNat * 256) := by omega
  refine ⟨word_lt h 59 _ (by decide) hb, fun hg => ?_⟩
  have b99 : bits (h.enc + 59 * 16777216 + (1 + d.toNat * 16384 + a.toNat * 256)) 0 2 = 1 := by
    rw [word_bits h 59 _ 0 2 (by decide)]; simp only [bits] <;> omega
  have b0 : bits (h.enc + 59 * 16777216 + (1 + d.toNat * 16384 + a.toNat * 256)) 2 6 = 0 := by
    rw [word_bits h 59 _ 2 6 (by decide)]; simp only [bits] <;> omega
  have b1 : bits (h.enc + 59 * 16777216 + (1 + d.toNat * 16384 + a.toNat * 256)) 14 6 = d.toNat := by
    rw [word_bits h 59 _ 14 6 (by decide)]; simp only [bits] <;> omega
  have b2 : bits (h.enc + 59 * 16777216 + (1 + d.toNat * 16384 + a.toNat * 256)) 8 6 = a.toNat := by
    rw [word_bits h 59 _ 8 6 (by decide)]; simp only [bits] <;> omega
  rw [decodeNat_of hg, decodeMajor_3B (word_major h 59 _ (by decide) hb)]
  simp only [decode3B, b99, b0, word_hdr h 59 _ (by decide) hb, fld_of b1, fld_of b2, res0, beq_self_eq_true, if_true]

theorem WordRoundTrip.redw (h : Hdr) (d : BitVec 6) (a : BitVec 6) (o : BitVec 3) (t : BitVec 3) : WordRoundTrip.Statement (.redw h d a o t) := by
  intro n he
  have i_d := d.isLt
  have i_a := a.isLt
  have i_o := o.isLt
  have i_t := t.isLt
  have he : some (h.enc + 1006632960 + d.toNat * 16384 + a.toNat * 256 + o.toNat * 32 + t.toNat * 4) = some n := he
  injection he with he
  have hb : 0 + d.toNat * 16384 + a.toNat * 256 + o.toNat * 32 + t.toNat * 4 < 1048576 := by omega
  obtain rfl : n = h.enc + 60 * 16777216 + (0 + d.toNat * 16384 + a.toNat * 256 + o.toNat * 32 + t.toNat * 4) := by omega
  refine ⟨word_lt h 60 _ (by decide) hb, fun hg => ?_⟩
  have b0 : bits (h.enc + 60 * 16777216 + (0 + d.toNat * 16384 + a.toNat * 256 + o.toNat * 32 + t.toNat * 4)) 0 2 = 0 := by
    rw [word_bits h 60 _ 0 2 (by decide)]; simp only [bits] <;> omega
  have b1 : bits (h.enc + 60 * 16777216 + (0 + d.toNat * 16384 + a.toNat * 256 + o.toNat * 32 + t.toNat * 4)) 14 6 = d.toNat := by
    rw [word_bits h 60 _ 14 6 (by decide)]; simp only [bits] <;> omega
  have b2 : bits (h.enc + 60 * 16777216 + (0 + d.toNat * 16384 + a.toNat * 256 + o.toNat * 32 + t.toNat * 4)) 8 6 = a.toNat := by
    rw [word_bits h 60 _ 8 6 (by decide)]; simp only [bits] <;> omega
  have b3 : bits (h.enc + 60 * 16777216 + (0 + d.toNat * 16384 + a.toNat * 256 + o.toNat * 32 + t.toNat * 4)) 5 3 = o.toNat := by
    rw [word_bits h 60 _ 5 3 (by decide)]; simp only [bits] <;> omega
  have b4 : bits (h.enc + 60 * 16777216 + (0 + d.toNat * 16384 + a.toNat * 256 + o.toNat * 32 + t.toNat * 4)) 2 3 = t.toNat := by
    rw [word_bits h 60 _ 2 3 (by decide)]; simp only [bits] <;> omega
  rw [decodeNat_of hg, decodeMajor_3C (word_major h 60 _ (by decide) hb)]
  simp only [decode3C, b0, word_hdr h 60 _ (by decide) hb, fld_of b1, fld_of b2, fld_of b3, fld_of b4, res0, beq_self_eq_true, if_true]

theorem WordRoundTrip.scanw (h : Hdr) (d : BitVec 6) (a : BitVec 6) (o : BitVec 3) (t : BitVec 3) : WordRoundTrip.Statement (.scanw h d a o t) := by
  intro n he
  have i_d := d.isLt
  have i_a := a.isLt
  have i_o := o.isLt
  have i_t := t.isLt
  have he : some (h.enc + 1023410176 + d.toNat * 16384 + a.toNat * 256 + o.toNat * 32 + t.toNat * 4) = some n := he
  injection he with he
  have hb : 0 + d.toNat * 16384 + a.toNat * 256 + o.toNat * 32 + t.toNat * 4 < 1048576 := by omega
  obtain rfl : n = h.enc + 61 * 16777216 + (0 + d.toNat * 16384 + a.toNat * 256 + o.toNat * 32 + t.toNat * 4) := by omega
  refine ⟨word_lt h 61 _ (by decide) hb, fun hg => ?_⟩
  have b99 : bits (h.enc + 61 * 16777216 + (0 + d.toNat * 16384 + a.toNat * 256 + o.toNat * 32 + t.toNat * 4)) 0 2 = 0 := by
    rw [word_bits h 61 _ 0 2 (by decide)]; simp only [bits] <;> omega
  have b0 : bits (h.enc + 61 * 16777216 + (0 + d.toNat * 16384 + a.toNat * 256 + o.toNat * 32 + t.toNat * 4)) 14 6 = d.toNat := by
    rw [word_bits h 61 _ 14 6 (by decide)]; simp only [bits] <;> omega
  have b1 : bits (h.enc + 61 * 16777216 + (0 + d.toNat * 16384 + a.toNat * 256 + o.toNat * 32 + t.toNat * 4)) 8 6 = a.toNat := by
    rw [word_bits h 61 _ 8 6 (by decide)]; simp only [bits] <;> omega
  have b2 : bits (h.enc + 61 * 16777216 + (0 + d.toNat * 16384 + a.toNat * 256 + o.toNat * 32 + t.toNat * 4)) 5 3 = o.toNat := by
    rw [word_bits h 61 _ 5 3 (by decide)]; simp only [bits] <;> omega
  have b3 : bits (h.enc + 61 * 16777216 + (0 + d.toNat * 16384 + a.toNat * 256 + o.toNat * 32 + t.toNat * 4)) 2 3 = t.toNat := by
    rw [word_bits h 61 _ 2 3 (by decide)]; simp only [bits] <;> omega
  rw [decodeNat_of hg, decodeMajor_3D (word_major h 61 _ (by decide) hb)]
  simp only [decode3D, b99, word_hdr h 61 _ (by decide) hb, fld_of b0, fld_of b1, fld_of b2, fld_of b3]

theorem WordRoundTrip.scanwExcl (h : Hdr) (d : BitVec 6) (a : BitVec 6) (o : BitVec 3) (t : BitVec 3) : WordRoundTrip.Statement (.scanwExcl h d a o t) := by
  intro n he
  have i_d := d.isLt
  have i_a := a.isLt
  have i_o := o.isLt
  have i_t := t.isLt
  have he : some (h.enc + 1023410177 + d.toNat * 16384 + a.toNat * 256 + o.toNat * 32 + t.toNat * 4) = some n := he
  injection he with he
  have hb : 1 + d.toNat * 16384 + a.toNat * 256 + o.toNat * 32 + t.toNat * 4 < 1048576 := by omega
  obtain rfl : n = h.enc + 61 * 16777216 + (1 + d.toNat * 16384 + a.toNat * 256 + o.toNat * 32 + t.toNat * 4) := by omega
  refine ⟨word_lt h 61 _ (by decide) hb, fun hg => ?_⟩
  have b99 : bits (h.enc + 61 * 16777216 + (1 + d.toNat * 16384 + a.toNat * 256 + o.toNat * 32 + t.toNat * 4)) 0 2 = 1 := by
    rw [word_bits h 61 _ 0 2 (by decide)]; simp only [bits] <;> omega
  have b0 : bits (h.enc + 61 * 16777216 + (1 + d.toNat * 16384 + a.toNat * 256 + o.toNat * 32 + t.toNat * 4)) 14 6 = d.toNat := by
    rw [word_bits h 61 _ 14 6 (by decide)]; simp only [bits] <;> omega
  have b1 : bits (h.enc + 61 * 16777216 + (1 + d.toNat * 16384 + a.toNat * 256 + o.toNat * 32 + t.toNat * 4)) 8 6 = a.toNat := by
    rw [word_bits h 61 _ 8 6 (by decide)]; simp only [bits] <;> omega
  have b2 : bits (h.enc + 61 * 16777216 + (1 + d.toNat * 16384 + a.toNat * 256 + o.toNat * 32 + t.toNat * 4)) 5 3 = o.toNat := by
    rw [word_bits h 61 _ 5 3 (by decide)]; simp only [bits] <;> omega
  have b3 : bits (h.enc + 61 * 16777216 + (1 + d.toNat * 16384 + a.toNat * 256 + o.toNat * 32 + t.toNat * 4)) 2 3 = t.toNat := by
    rw [word_bits h 61 _ 2 3 (by decide)]; simp only [bits] <;> omega
  rw [decodeNat_of hg, decodeMajor_3D (word_major h 61 _ (by decide) hb)]
  simp only [decode3D, b99, word_hdr h 61 _ (by decide) hb, fld_of b0, fld_of b1, fld_of b2, fld_of b3]

theorem WordRoundTrip.smovS (h : Hdr) (d : BitVec 6) (a : BitVec 6) : WordRoundTrip.Statement (.smovS h d a) := by
  intro n he
  have i_d := d.isLt
  have i_a := a.isLt
  have he : some (h.enc + 1040187392 + d.toNat * 16384 + a.toNat * 256) = some n := he
  injection he with he
  have hb : 0 + d.toNat * 16384 + a.toNat * 256 < 1048576 := by omega
  obtain rfl : n = h.enc + 62 * 16777216 + (0 + d.toNat * 16384 + a.toNat * 256) := by omega
  refine ⟨word_lt h 62 _ (by decide) hb, fun hg => ?_⟩
  have b99 : bits (h.enc + 62 * 16777216 + (0 + d.toNat * 16384 + a.toNat * 256)) 0 2 = 0 := by
    rw [word_bits h 62 _ 0 2 (by decide)]; simp only [bits] <;> omega
  have b0 : bits (h.enc + 62 * 16777216 + (0 + d.toNat * 16384 + a.toNat * 256)) 2 6 = 0 := by
    rw [word_bits h 62 _ 2 6 (by decide)]; simp only [bits] <;> omega
  have b1 : bits (h.enc + 62 * 16777216 + (0 + d.toNat * 16384 + a.toNat * 256)) 14 6 = d.toNat := by
    rw [word_bits h 62 _ 14 6 (by decide)]; simp only [bits] <;> omega
  have b2 : bits (h.enc + 62 * 16777216 + (0 + d.toNat * 16384 + a.toNat * 256)) 8 6 = a.toNat := by
    rw [word_bits h 62 _ 8 6 (by decide)]; simp only [bits] <;> omega
  rw [decodeNat_of hg, decodeMajor_3E (word_major h 62 _ (by decide) hb)]
  simp only [decode3E, b99, b0, word_hdr h 62 _ (by decide) hb, fld_of b1, fld_of b2, res0, beq_self_eq_true, if_true]

theorem WordRoundTrip.smovG (h : Hdr) (d : BitVec 6) (a : BitVec 6) : WordRoundTrip.Statement (.smovG h d a) := by
  intro n he
  have i_d := d.isLt
  have i_a := a.isLt
  have he : some (h.enc + 1040187393 + d.toNat * 16384 + a.toNat * 256) = some n := he
  injection he with he
  have hb : 1 + d.toNat * 16384 + a.toNat * 256 < 1048576 := by omega
  obtain rfl : n = h.enc + 62 * 16777216 + (1 + d.toNat * 16384 + a.toNat * 256) := by omega
  refine ⟨word_lt h 62 _ (by decide) hb, fun hg => ?_⟩
  have b99 : bits (h.enc + 62 * 16777216 + (1 + d.toNat * 16384 + a.toNat * 256)) 0 2 = 1 := by
    rw [word_bits h 62 _ 0 2 (by decide)]; simp only [bits] <;> omega
  have b0 : bits (h.enc + 62 * 16777216 + (1 + d.toNat * 16384 + a.toNat * 256)) 2 6 = 0 := by
    rw [word_bits h 62 _ 2 6 (by decide)]; simp only [bits] <;> omega
  have b1 : bits (h.enc + 62 * 16777216 + (1 + d.toNat * 16384 + a.toNat * 256)) 14 6 = d.toNat := by
    rw [word_bits h 62 _ 14 6 (by decide)]; simp only [bits] <;> omega
  have b2 : bits (h.enc + 62 * 16777216 + (1 + d.toNat * 16384 + a.toNat * 256)) 8 6 = a.toNat := by
    rw [word_bits h 62 _ 8 6 (by decide)]; simp only [bits] <;> omega
  rw [decodeNat_of hg, decodeMajor_3E (word_major h 62 _ (by decide) hb)]
  simp only [decode3E, b99, b0, word_hdr h 62 _ (by decide) hb, fld_of b1, fld_of b2, res0, beq_self_eq_true, if_true]

theorem WordRoundTrip.bra (h : Hdr) (o : BitVec 20) : WordRoundTrip.Statement (.bra h o) := by
  intro n he
  have i_o := o.isLt
  have he : some (h.enc + 1073741824 + o.toNat) = some n := he
  injection he with he
  have hb : 0 + o.toNat < 1048576 := by omega
  obtain rfl : n = h.enc + 64 * 16777216 + (0 + o.toNat) := by omega
  refine ⟨word_lt h 64 _ (by decide) hb, fun hg => ?_⟩
  have b0 : bits (h.enc + 64 * 16777216 + (0 + o.toNat)) 0 20 = o.toNat := by
    rw [word_bits h 64 _ 0 20 (by decide)]; simp only [bits] <;> omega
  rw [decodeNat_of hg, decodeMajor_40 (word_major h 64 _ (by decide) hb)]
  simp only [decode40, word_hdr h 64 _ (by decide) hb, fld_of b0]

theorem WordRoundTrip.call (h : Hdr) (w : BitVec 4) (o : BitVec 16) : WordRoundTrip.Statement (.call h w o) := by
  intro n he
  have i_w := w.isLt
  have i_o := o.isLt
  have he : some (h.enc + 1090519040 + w.toNat * 65536 + o.toNat) = some n := he
  injection he with he
  have hb : 0 + w.toNat * 65536 + o.toNat < 1048576 := by omega
  obtain rfl : n = h.enc + 65 * 16777216 + (0 + w.toNat * 65536 + o.toNat) := by omega
  refine ⟨word_lt h 65 _ (by decide) hb, fun hg => ?_⟩
  have b0 : bits (h.enc + 65 * 16777216 + (0 + w.toNat * 65536 + o.toNat)) 16 4 = w.toNat := by
    rw [word_bits h 65 _ 16 4 (by decide)]; simp only [bits] <;> omega
  have b1 : bits (h.enc + 65 * 16777216 + (0 + w.toNat * 65536 + o.toNat)) 0 16 = o.toNat := by
    rw [word_bits h 65 _ 0 16 (by decide)]; simp only [bits] <;> omega
  rw [decodeNat_of hg, decodeMajor_41 (word_major h 65 _ (by decide) hb)]
  simp only [decode41, word_hdr h 65 _ (by decide) hb, fld_of b0, fld_of b1]

theorem WordRoundTrip.brax (h : Hdr) (a : BitVec 6) : WordRoundTrip.Statement (.brax h a) := by
  intro n he
  have i_a := a.isLt
  have he : some (h.enc + 1107296256 + a.toNat * 256) = some n := he
  injection he with he
  have hb : 0 + a.toNat * 256 < 1048576 := by omega
  obtain rfl : n = h.enc + 66 * 16777216 + (0 + a.toNat * 256) := by omega
  refine ⟨word_lt h 66 _ (by decide) hb, fun hg => ?_⟩
  have b99 : bits (h.enc + 66 * 16777216 + (0 + a.toNat * 256)) 0 2 = 0 := by
    rw [word_bits h 66 _ 0 2 (by decide)]; simp only [bits] <;> omega
  have b0 : bits (h.enc + 66 * 16777216 + (0 + a.toNat * 256)) 2 6 = 0 := by
    rw [word_bits h 66 _ 2 6 (by decide)]; simp only [bits] <;> omega
  have b1 : bits (h.enc + 66 * 16777216 + (0 + a.toNat * 256)) 14 6 = 0 := by
    rw [word_bits h 66 _ 14 6 (by decide)]; simp only [bits] <;> omega
  have b2 : bits (h.enc + 66 * 16777216 + (0 + a.toNat * 256)) 8 6 = a.toNat := by
    rw [word_bits h 66 _ 8 6 (by decide)]; simp only [bits] <;> omega
  rw [decodeNat_of hg, decodeMajor_42 (word_major h 66 _ (by decide) hb)]
  simp only [decode42, b99, b0, b1, word_hdr h 66 _ (by decide) hb, fld_of b2, res0, beq_self_eq_true, Bool.and_self, if_true]

theorem WordRoundTrip.callx (h : Hdr) (a : BitVec 6) (w : BitVec 4) : WordRoundTrip.Statement (.callx h a w) := by
  intro n he
  have i_a := a.isLt
  have i_w := w.isLt
  have he : some (h.enc + 1107296257 + a.toNat * 256 + w.toNat * 4) = some n := he
  injection he with he
  have hb : 1 + a.toNat * 256 + w.toNat * 4 < 1048576 := by omega
  obtain rfl : n = h.enc + 66 * 16777216 + (1 + a.toNat * 256 + w.toNat * 4) := by omega
  refine ⟨word_lt h 66 _ (by decide) hb, fun hg => ?_⟩
  have b99 : bits (h.enc + 66 * 16777216 + (1 + a.toNat * 256 + w.toNat * 4)) 0 2 = 1 := by
    rw [word_bits h 66 _ 0 2 (by decide)]; simp only [bits] <;> omega
  have b0 : bits (h.enc + 66 * 16777216 + (1 + a.toNat * 256 + w.toNat * 4)) 6 2 = 0 := by
    rw [word_bits h 66 _ 6 2 (by decide)]; simp only [bits] <;> omega
  have b1 : bits (h.enc + 66 * 16777216 + (1 + a.toNat * 256 + w.toNat * 4)) 14 6 = 0 := by
    rw [word_bits h 66 _ 14 6 (by decide)]; simp only [bits] <;> omega
  have b2 : bits (h.enc + 66 * 16777216 + (1 + a.toNat * 256 + w.toNat * 4)) 8 6 = a.toNat := by
    rw [word_bits h 66 _ 8 6 (by decide)]; simp only [bits] <;> omega
  have b3 : bits (h.enc + 66 * 16777216 + (1 + a.toNat * 256 + w.toNat * 4)) 2 4 = w.toNat := by
    rw [word_bits h 66 _ 2 4 (by decide)]; simp only [bits] <;> omega
  rw [decodeNat_of hg, decodeMajor_42 (word_major h 66 _ (by decide) hb)]
  simp only [decode42, b99, b0, b1, word_hdr h 66 _ (by decide) hb, fld_of b2, fld_of b3, res0, beq_self_eq_true, Bool.and_self, if_true]

theorem WordRoundTrip.ret (h : Hdr) : WordRoundTrip.Statement (.ret h) := by
  intro n he
  have he : some (h.enc + 1107296258) = some n := he
  injection he with he
  have hb : 2 < 1048576 := by omega
  obtain rfl : n = h.enc + 66 * 16777216 + (2) := by omega
  refine ⟨word_lt h 66 _ (by decide) hb, fun hg => ?_⟩
  have b99 : bits (h.enc + 66 * 16777216 + (2)) 0 2 = 2 := by
    rw [word_bits h 66 _ 0 2 (by decide)]; simp only [bits] <;> omega
  have b0 : bits (h.enc + 66 * 16777216 + (2)) 2 18 = 0 := by
    rw [word_bits h 66 _ 2 18 (by decide)]; simp only [bits] <;> omega
  rw [decodeNat_of hg, decodeMajor_42 (word_major h 66 _ (by decide) hb)]
  simp only [decode42, b99, b0, word_hdr h 66 _ (by decide) hb, res0, beq_self_eq_true, if_true]

theorem WordRoundTrip.join (h : Hdr) (m : BitVec 4) : WordRoundTrip.Statement (.join h m) := by
  intro n he
  have i_m := m.isLt
  have he : some (h.enc + 1124073472 + m.toNat * 65536) = some n := he
  injection he with he
  have hb : 0 + m.toNat * 65536 < 1048576 := by omega
  obtain rfl : n = h.enc + 67 * 16777216 + (0 + m.toNat * 65536) := by omega
  refine ⟨word_lt h 67 _ (by decide) hb, fun hg => ?_⟩
  have b99 : bits (h.enc + 67 * 16777216 + (0 + m.toNat * 65536)) 0 2 = 0 := by
    rw [word_bits h 67 _ 0 2 (by decide)]; simp only [bits] <;> omega
  have b0 : bits (h.enc + 67 * 16777216 + (0 + m.toNat * 65536)) 2 14 = 0 := by
    rw [word_bits h 67 _ 2 14 (by decide)]; simp only [bits] <;> omega
  have b1 : bits (h.enc + 67 * 16777216 + (0 + m.toNat * 65536)) 16 4 = m.toNat := by
    rw [word_bits h 67 _ 16 4 (by decide)]; simp only [bits] <;> omega
  rw [decodeNat_of hg, decodeMajor_43 (word_major h 67 _ (by decide) hb)]
  simp only [decode43, b99, b0, word_hdr h 67 _ (by decide) hb, fld_of b1, res0, beq_self_eq_true, if_true]

theorem WordRoundTrip.leave (h : Hdr) (m : BitVec 4) : WordRoundTrip.Statement (.leave h m) := by
  intro n he
  have i_m := m.isLt
  have he : some (h.enc + 1124073473 + m.toNat * 65536) = some n := he
  injection he with he
  have hb : 1 + m.toNat * 65536 < 1048576 := by omega
  obtain rfl : n = h.enc + 67 * 16777216 + (1 + m.toNat * 65536) := by omega
  refine ⟨word_lt h 67 _ (by decide) hb, fun hg => ?_⟩
  have b99 : bits (h.enc + 67 * 16777216 + (1 + m.toNat * 65536)) 0 2 = 1 := by
    rw [word_bits h 67 _ 0 2 (by decide)]; simp only [bits] <;> omega
  have b0 : bits (h.enc + 67 * 16777216 + (1 + m.toNat * 65536)) 2 14 = 0 := by
    rw [word_bits h 67 _ 2 14 (by decide)]; simp only [bits] <;> omega
  have b1 : bits (h.enc + 67 * 16777216 + (1 + m.toNat * 65536)) 16 4 = m.toNat := by
    rw [word_bits h 67 _ 16 4 (by decide)]; simp only [bits] <;> omega
  rw [decodeNat_of hg, decodeMajor_43 (word_major h 67 _ (by decide) hb)]
  simp only [decode43, b99, b0, word_hdr h 67 _ (by decide) hb, fld_of b1, res0, beq_self_eq_true, if_true]

theorem WordRoundTrip.waitm (h : Hdr) (m : BitVec 4) : WordRoundTrip.Statement (.waitm h m) := by
  intro n he
  have i_m := m.isLt
  have he : some (h.enc + 1124073474 + m.toNat * 65536) = some n := he
  injection he with he
  have hb : 2 + m.toNat * 65536 < 1048576 := by omega
  obtain rfl : n = h.enc + 67 * 16777216 + (2 + m.toNat * 65536) := by omega
  refine ⟨word_lt h 67 _ (by decide) hb, fun hg => ?_⟩
  have b99 : bits (h.enc + 67 * 16777216 + (2 + m.toNat * 65536)) 0 2 = 2 := by
    rw [word_bits h 67 _ 0 2 (by decide)]; simp only [bits] <;> omega
  have b0 : bits (h.enc + 67 * 16777216 + (2 + m.toNat * 65536)) 2 14 = 0 := by
    rw [word_bits h 67 _ 2 14 (by decide)]; simp only [bits] <;> omega
  have b1 : bits (h.enc + 67 * 16777216 + (2 + m.toNat * 65536)) 16 4 = m.toNat := by
    rw [word_bits h 67 _ 16 4 (by decide)]; simp only [bits] <;> omega
  rw [decodeNat_of hg, decodeMajor_43 (word_major h 67 _ (by decide) hb)]
  simp only [decode43, b99, b0, word_hdr h 67 _ (by decide) hb, fld_of b1, res0, beq_self_eq_true, if_true]

theorem WordRoundTrip.mopSet (h : Hdr) (m : BitVec 4) (r : BitVec 6) : WordRoundTrip.Statement (.mopSet h m r) := by
  intro n he
  have i_m := m.isLt
  have i_r := r.isLt
  have he : some (h.enc + 1140850688 + m.toNat * 65536 + r.toNat * 64) = some n := he
  injection he with he
  have hb : 0 + m.toNat * 65536 + r.toNat * 64 < 1048576 := by omega
  obtain rfl : n = h.enc + 68 * 16777216 + (0 + m.toNat * 65536 + r.toNat * 64) := by omega
  refine ⟨word_lt h 68 _ (by decide) hb, fun hg => ?_⟩
  have b99 : bits (h.enc + 68 * 16777216 + (0 + m.toNat * 65536 + r.toNat * 64)) 13 3 = 0 := by
    rw [word_bits h 68 _ 13 3 (by decide)]; simp only [bits] <;> omega
  have b0 : bits (h.enc + 68 * 16777216 + (0 + m.toNat * 65536 + r.toNat * 64)) 0 6 = 0 := by
    rw [word_bits h 68 _ 0 6 (by decide)]; simp only [bits] <;> omega
  have b1 : bits (h.enc + 68 * 16777216 + (0 + m.toNat * 65536 + r.toNat * 64)) 12 1 = 0 := by
    rw [word_bits h 68 _ 12 1 (by decide)]; simp only [bits] <;> omega
  have b2 : bits (h.enc + 68 * 16777216 + (0 + m.toNat * 65536 + r.toNat * 64)) 16 4 = m.toNat := by
    rw [word_bits h 68 _ 16 4 (by decide)]; simp only [bits] <;> omega
  have b3 : bits (h.enc + 68 * 16777216 + (0 + m.toNat * 65536 + r.toNat * 64)) 6 6 = r.toNat := by
    rw [word_bits h 68 _ 6 6 (by decide)]; simp only [bits] <;> omega
  rw [decodeNat_of hg, decodeMajor_44 (word_major h 68 _ (by decide) hb)]
  simp only [decode44, b99, b0, b1, word_hdr h 68 _ (by decide) hb, fld_of b2, fld_of b3, res0, beq_self_eq_true, Bool.and_self, if_true]

theorem WordRoundTrip.mopAnd (h : Hdr) (m : BitVec 4) (a : BitVec 4) (b : BitVec 4) : WordRoundTrip.Statement (.mopAnd h m a b) := by
  intro n he
  have i_m := m.isLt
  have i_a := a.isLt
  have i_b := b.isLt
  have he : some (h.enc + 1140858880 + m.toNat * 65536 + a.toNat * 256 + b.toNat * 16) = some n := he
  injection he with he
  have hb : 8192 + m.toNat * 65536 + a.toNat * 256 + b.toNat * 16 < 1048576 := by omega
  obtain rfl : n = h.enc + 68 * 16777216 + (8192 + m.toNat * 65536 + a.toNat * 256 + b.toNat * 16) := by omega
  refine ⟨word_lt h 68 _ (by decide) hb, fun hg => ?_⟩
  have b99 : bits (h.enc + 68 * 16777216 + (8192 + m.toNat * 65536 + a.toNat * 256 + b.toNat * 16)) 13 3 = 1 := by
    rw [word_bits h 68 _ 13 3 (by decide)]; simp only [bits] <;> omega
  have b0 : bits (h.enc + 68 * 16777216 + (8192 + m.toNat * 65536 + a.toNat * 256 + b.toNat * 16)) 0 4 = 0 := by
    rw [word_bits h 68 _ 0 4 (by decide)]; simp only [bits] <;> omega
  have b1 : bits (h.enc + 68 * 16777216 + (8192 + m.toNat * 65536 + a.toNat * 256 + b.toNat * 16)) 12 1 = 0 := by
    rw [word_bits h 68 _ 12 1 (by decide)]; simp only [bits] <;> omega
  have b2 : bits (h.enc + 68 * 16777216 + (8192 + m.toNat * 65536 + a.toNat * 256 + b.toNat * 16)) 16 4 = m.toNat := by
    rw [word_bits h 68 _ 16 4 (by decide)]; simp only [bits] <;> omega
  have b3 : bits (h.enc + 68 * 16777216 + (8192 + m.toNat * 65536 + a.toNat * 256 + b.toNat * 16)) 8 4 = a.toNat := by
    rw [word_bits h 68 _ 8 4 (by decide)]; simp only [bits] <;> omega
  have b4 : bits (h.enc + 68 * 16777216 + (8192 + m.toNat * 65536 + a.toNat * 256 + b.toNat * 16)) 4 4 = b.toNat := by
    rw [word_bits h 68 _ 4 4 (by decide)]; simp only [bits] <;> omega
  rw [decodeNat_of hg, decodeMajor_44 (word_major h 68 _ (by decide) hb)]
  simp only [decode44, b99, b0, b1, word_hdr h 68 _ (by decide) hb, fld_of b2, fld_of b3, fld_of b4, res0, beq_self_eq_true, Bool.and_self, if_true]

theorem WordRoundTrip.mopOr (h : Hdr) (m : BitVec 4) (a : BitVec 4) (b : BitVec 4) : WordRoundTrip.Statement (.mopOr h m a b) := by
  intro n he
  have i_m := m.isLt
  have i_a := a.isLt
  have i_b := b.isLt
  have he : some (h.enc + 1140867072 + m.toNat * 65536 + a.toNat * 256 + b.toNat * 16) = some n := he
  injection he with he
  have hb : 16384 + m.toNat * 65536 + a.toNat * 256 + b.toNat * 16 < 1048576 := by omega
  obtain rfl : n = h.enc + 68 * 16777216 + (16384 + m.toNat * 65536 + a.toNat * 256 + b.toNat * 16) := by omega
  refine ⟨word_lt h 68 _ (by decide) hb, fun hg => ?_⟩
  have b99 : bits (h.enc + 68 * 16777216 + (16384 + m.toNat * 65536 + a.toNat * 256 + b.toNat * 16)) 13 3 = 2 := by
    rw [word_bits h 68 _ 13 3 (by decide)]; simp only [bits] <;> omega
  have b0 : bits (h.enc + 68 * 16777216 + (16384 + m.toNat * 65536 + a.toNat * 256 + b.toNat * 16)) 0 4 = 0 := by
    rw [word_bits h 68 _ 0 4 (by decide)]; simp only [bits] <;> omega
  have b1 : bits (h.enc + 68 * 16777216 + (16384 + m.toNat * 65536 + a.toNat * 256 + b.toNat * 16)) 12 1 = 0 := by
    rw [word_bits h 68 _ 12 1 (by decide)]; simp only [bits] <;> omega
  have b2 : bits (h.enc + 68 * 16777216 + (16384 + m.toNat * 65536 + a.toNat * 256 + b.toNat * 16)) 16 4 = m.toNat := by
    rw [word_bits h 68 _ 16 4 (by decide)]; simp only [bits] <;> omega
  have b3 : bits (h.enc + 68 * 16777216 + (16384 + m.toNat * 65536 + a.toNat * 256 + b.toNat * 16)) 8 4 = a.toNat := by
    rw [word_bits h 68 _ 8 4 (by decide)]; simp only [bits] <;> omega
  have b4 : bits (h.enc + 68 * 16777216 + (16384 + m.toNat * 65536 + a.toNat * 256 + b.toNat * 16)) 4 4 = b.toNat := by
    rw [word_bits h 68 _ 4 4 (by decide)]; simp only [bits] <;> omega
  rw [decodeNat_of hg, decodeMajor_44 (word_major h 68 _ (by decide) hb)]
  simp only [decode44, b99, b0, b1, word_hdr h 68 _ (by decide) hb, fld_of b2, fld_of b3, fld_of b4, res0, beq_self_eq_true, Bool.and_self, if_true]

theorem WordRoundTrip.mopAndn (h : Hdr) (m : BitVec 4) (a : BitVec 4) (b : BitVec 4) : WordRoundTrip.Statement (.mopAndn h m a b) := by
  intro n he
  have i_m := m.isLt
  have i_a := a.isLt
  have i_b := b.isLt
  have he : some (h.enc + 1140875264 + m.toNat * 65536 + a.toNat * 256 + b.toNat * 16) = some n := he
  injection he with he
  have hb : 24576 + m.toNat * 65536 + a.toNat * 256 + b.toNat * 16 < 1048576 := by omega
  obtain rfl : n = h.enc + 68 * 16777216 + (24576 + m.toNat * 65536 + a.toNat * 256 + b.toNat * 16) := by omega
  refine ⟨word_lt h 68 _ (by decide) hb, fun hg => ?_⟩
  have b99 : bits (h.enc + 68 * 16777216 + (24576 + m.toNat * 65536 + a.toNat * 256 + b.toNat * 16)) 13 3 = 3 := by
    rw [word_bits h 68 _ 13 3 (by decide)]; simp only [bits] <;> omega
  have b0 : bits (h.enc + 68 * 16777216 + (24576 + m.toNat * 65536 + a.toNat * 256 + b.toNat * 16)) 0 4 = 0 := by
    rw [word_bits h 68 _ 0 4 (by decide)]; simp only [bits] <;> omega
  have b1 : bits (h.enc + 68 * 16777216 + (24576 + m.toNat * 65536 + a.toNat * 256 + b.toNat * 16)) 12 1 = 0 := by
    rw [word_bits h 68 _ 12 1 (by decide)]; simp only [bits] <;> omega
  have b2 : bits (h.enc + 68 * 16777216 + (24576 + m.toNat * 65536 + a.toNat * 256 + b.toNat * 16)) 16 4 = m.toNat := by
    rw [word_bits h 68 _ 16 4 (by decide)]; simp only [bits] <;> omega
  have b3 : bits (h.enc + 68 * 16777216 + (24576 + m.toNat * 65536 + a.toNat * 256 + b.toNat * 16)) 8 4 = a.toNat := by
    rw [word_bits h 68 _ 8 4 (by decide)]; simp only [bits] <;> omega
  have b4 : bits (h.enc + 68 * 16777216 + (24576 + m.toNat * 65536 + a.toNat * 256 + b.toNat * 16)) 4 4 = b.toNat := by
    rw [word_bits h 68 _ 4 4 (by decide)]; simp only [bits] <;> omega
  rw [decodeNat_of hg, decodeMajor_44 (word_major h 68 _ (by decide) hb)]
  simp only [decode44, b99, b0, b1, word_hdr h 68 _ (by decide) hb, fld_of b2, fld_of b3, fld_of b4, res0, beq_self_eq_true, Bool.and_self, if_true]

theorem WordRoundTrip.mopBatch (h : Hdr) (m : BitVec 4) : WordRoundTrip.Statement (.mopBatch h m) := by
  intro n he
  have i_m := m.isLt
  have he : some (h.enc + 1140883456 + m.toNat * 65536) = some n := he
  injection he with he
  have hb : 32768 + m.toNat * 65536 < 1048576 := by omega
  obtain rfl : n = h.enc + 68 * 16777216 + (32768 + m.toNat * 65536) := by omega
  refine ⟨word_lt h 68 _ (by decide) hb, fun hg => ?_⟩
  have b99 : bits (h.enc + 68 * 16777216 + (32768 + m.toNat * 65536)) 13 3 = 4 := by
    rw [word_bits h 68 _ 13 3 (by decide)]; simp only [bits] <;> omega
  have b0 : bits (h.enc + 68 * 16777216 + (32768 + m.toNat * 65536)) 0 13 = 0 := by
    rw [word_bits h 68 _ 0 13 (by decide)]; simp only [bits] <;> omega
  have b1 : bits (h.enc + 68 * 16777216 + (32768 + m.toNat * 65536)) 16 4 = m.toNat := by
    rw [word_bits h 68 _ 16 4 (by decide)]; simp only [bits] <;> omega
  rw [decodeNat_of hg, decodeMajor_44 (word_major h 68 _ (by decide) hb)]
  simp only [decode44, b99, b0, word_hdr h 68 _ (by decide) hb, fld_of b1, res0, beq_self_eq_true, if_true]

theorem WordRoundTrip.mopBallot (h : Hdr) (m : BitVec 4) (a : BitVec 4) : WordRoundTrip.Statement (.mopBallot h m a) := by
  intro n he
  have i_m := m.isLt
  have i_a := a.isLt
  have he : some (h.enc + 1140891648 + m.toNat * 65536 + a.toNat * 256) = some n := he
  injection he with he
  have hb : 40960 + m.toNat * 65536 + a.toNat * 256 < 1048576 := by omega
  obtain rfl : n = h.enc + 68 * 16777216 + (40960 + m.toNat * 65536 + a.toNat * 256) := by omega
  refine ⟨word_lt h 68 _ (by decide) hb, fun hg => ?_⟩
  have b99 : bits (h.enc + 68 * 16777216 + (40960 + m.toNat * 65536 + a.toNat * 256)) 13 3 = 5 := by
    rw [word_bits h 68 _ 13 3 (by decide)]; simp only [bits] <;> omega
  have b0 : bits (h.enc + 68 * 16777216 + (40960 + m.toNat * 65536 + a.toNat * 256)) 0 8 = 0 := by
    rw [word_bits h 68 _ 0 8 (by decide)]; simp only [bits] <;> omega
  have b1 : bits (h.enc + 68 * 16777216 + (40960 + m.toNat * 65536 + a.toNat * 256)) 12 1 = 0 := by
    rw [word_bits h 68 _ 12 1 (by decide)]; simp only [bits] <;> omega
  have b2 : bits (h.enc + 68 * 16777216 + (40960 + m.toNat * 65536 + a.toNat * 256)) 16 4 = m.toNat := by
    rw [word_bits h 68 _ 16 4 (by decide)]; simp only [bits] <;> omega
  have b3 : bits (h.enc + 68 * 16777216 + (40960 + m.toNat * 65536 + a.toNat * 256)) 8 4 = a.toNat := by
    rw [word_bits h 68 _ 8 4 (by decide)]; simp only [bits] <;> omega
  rw [decodeNat_of hg, decodeMajor_44 (word_major h 68 _ (by decide) hb)]
  simp only [decode44, b99, b0, b1, word_hdr h 68 _ (by decide) hb, fld_of b2, fld_of b3, res0, beq_self_eq_true, Bool.and_self, if_true]

theorem WordRoundTrip.fspawn (h : Hdr) (q : BitVec 4) (a : BitVec 6) (b : BitVec 6) : WordRoundTrip.Statement (.fspawn h q a b) := by
  intro n he
  have i_q := q.isLt
  have i_a := a.isLt
  have i_b := b.isLt
  have he : some (h.enc + 1157627904 + q.toNat * 65536 + a.toNat * 1024 + b.toNat * 16) = some n := he
  injection he with he
  have hb : 0 + q.toNat * 65536 + a.toNat * 1024 + b.toNat * 16 < 1048576 := by omega
  obtain rfl : n = h.enc + 69 * 16777216 + (0 + q.toNat * 65536 + a.toNat * 1024 + b.toNat * 16) := by omega
  refine ⟨word_lt h 69 _ (by decide) hb, fun hg => ?_⟩
  have b0 : bits (h.enc + 69 * 16777216 + (0 + q.toNat * 65536 + a.toNat * 1024 + b.toNat * 16)) 0 4 = 0 := by
    rw [word_bits h 69 _ 0 4 (by decide)]; simp only [bits] <;> omega
  have b1 : bits (h.enc + 69 * 16777216 + (0 + q.toNat * 65536 + a.toNat * 1024 + b.toNat * 16)) 16 4 = q.toNat := by
    rw [word_bits h 69 _ 16 4 (by decide)]; simp only [bits] <;> omega
  have b2 : bits (h.enc + 69 * 16777216 + (0 + q.toNat * 65536 + a.toNat * 1024 + b.toNat * 16)) 10 6 = a.toNat := by
    rw [word_bits h 69 _ 10 6 (by decide)]; simp only [bits] <;> omega
  have b3 : bits (h.enc + 69 * 16777216 + (0 + q.toNat * 65536 + a.toNat * 1024 + b.toNat * 16)) 4 6 = b.toNat := by
    rw [word_bits h 69 _ 4 6 (by decide)]; simp only [bits] <;> omega
  rw [decodeNat_of hg, decodeMajor_45 (word_major h 69 _ (by decide) hb)]
  simp only [decode45, b0, word_hdr h 69 _ (by decide) hb, fld_of b1, fld_of b2, fld_of b3, res0, beq_self_eq_true, if_true]

theorem WordRoundTrip.fend (h : Hdr) : WordRoundTrip.Statement (.fend h) := by
  intro n he
  have he : some (h.enc + 1174405120) = some n := he
  injection he with he
  have hb : 0 < 1048576 := by omega
  obtain rfl : n = h.enc + 70 * 16777216 + (0) := by omega
  refine ⟨word_lt h 70 _ (by decide) hb, fun hg => ?_⟩
  have b99 : bits (h.enc + 70 * 16777216 + (0)) 0 2 = 0 := by
    rw [word_bits h 70 _ 0 2 (by decide)]; simp only [bits] <;> omega
  have b0 : bits (h.enc + 70 * 16777216 + (0)) 2 18 = 0 := by
    rw [word_bits h 70 _ 2 18 (by decide)]; simp only [bits] <;> omega
  rw [decodeNat_of hg, decodeMajor_46 (word_major h 70 _ (by decide) hb)]
  simp only [decode46, b99, b0, word_hdr h 70 _ (by decide) hb, res0, beq_self_eq_true, if_true]

theorem WordRoundTrip.exit (h : Hdr) : WordRoundTrip.Statement (.exit h) := by
  intro n he
  have he : some (h.enc + 1174405121) = some n := he
  injection he with he
  have hb : 1 < 1048576 := by omega
  obtain rfl : n = h.enc + 70 * 16777216 + (1) := by omega
  refine ⟨word_lt h 70 _ (by decide) hb, fun hg => ?_⟩
  have b99 : bits (h.enc + 70 * 16777216 + (1)) 0 2 = 1 := by
    rw [word_bits h 70 _ 0 2 (by decide)]; simp only [bits] <;> omega
  have b0 : bits (h.enc + 70 * 16777216 + (1)) 2 18 = 0 := by
    rw [word_bits h 70 _ 2 18 (by decide)]; simp only [bits] <;> omega
  rw [decodeNat_of hg, decodeMajor_46 (word_major h 70 _ (by decide) hb)]
  simp only [decode46, b99, b0, word_hdr h 70 _ (by decide) hb, res0, beq_self_eq_true, if_true]

theorem WordRoundTrip.yield (h : Hdr) : WordRoundTrip.Statement (.yield h) := by
  intro n he
  have he : some (h.enc + 1174405122) = some n := he
  injection he with he
  have hb : 2 < 1048576 := by omega
  obtain rfl : n = h.enc + 70 * 16777216 + (2) := by omega
  refine ⟨word_lt h 70 _ (by decide) hb, fun hg => ?_⟩
  have b99 : bits (h.enc + 70 * 16777216 + (2)) 0 2 = 2 := by
    rw [word_bits h 70 _ 0 2 (by decide)]; simp only [bits] <;> omega
  have b0 : bits (h.enc + 70 * 16777216 + (2)) 2 18 = 0 := by
    rw [word_bits h 70 _ 2 18 (by decide)]; simp only [bits] <;> omega
  rw [decodeNat_of hg, decodeMajor_46 (word_major h 70 _ (by decide) hb)]
  simp only [decode46, b99, b0, word_hdr h 70 _ (by decide) hb, res0, beq_self_eq_true, if_true]

theorem WordRoundTrip.nap (h : Hdr) (a : BitVec 6) : WordRoundTrip.Statement (.nap h a) := by
  intro n he
  have i_a := a.isLt
  have he : some (h.enc + 1174405123 + a.toNat * 256) = some n := he
  injection he with he
  have hb : 3 + a.toNat * 256 < 1048576 := by omega
  obtain rfl : n = h.enc + 70 * 16777216 + (3 + a.toNat * 256) := by omega
  refine ⟨word_lt h 70 _ (by decide) hb, fun hg => ?_⟩
  have b99 : bits (h.enc + 70 * 16777216 + (3 + a.toNat * 256)) 0 2 = 3 := by
    rw [word_bits h 70 _ 0 2 (by decide)]; simp only [bits] <;> omega
  have b0 : bits (h.enc + 70 * 16777216 + (3 + a.toNat * 256)) 2 6 = 0 := by
    rw [word_bits h 70 _ 2 6 (by decide)]; simp only [bits] <;> omega
  have b1 : bits (h.enc + 70 * 16777216 + (3 + a.toNat * 256)) 14 6 = 0 := by
    rw [word_bits h 70 _ 14 6 (by decide)]; simp only [bits] <;> omega
  have b2 : bits (h.enc + 70 * 16777216 + (3 + a.toNat * 256)) 8 6 = a.toNat := by
    rw [word_bits h 70 _ 8 6 (by decide)]; simp only [bits] <;> omega
  rw [decodeNat_of hg, decodeMajor_46 (word_major h 70 _ (by decide) hb)]
  simp only [decode46, b99, b0, b1, word_hdr h 70 _ (by decide) hb, fld_of b2, res0, beq_self_eq_true, Bool.and_self, if_true]

theorem WordRoundTrip.safe (h : Hdr) (l : BitVec 16) : WordRoundTrip.Statement (.safe h l) := by
  intro n he
  have i_l := l.isLt
  have he : some (h.enc + 1191182336 + l.toNat) = some n := he
  injection he with he
  have hb : 0 + l.toNat < 1048576 := by omega
  obtain rfl : n = h.enc + 71 * 16777216 + (0 + l.toNat) := by omega
  refine ⟨word_lt h 71 _ (by decide) hb, fun hg => ?_⟩
  have b0 : bits (h.enc + 71 * 16777216 + (0 + l.toNat)) 16 4 = 0 := by
    rw [word_bits h 71 _ 16 4 (by decide)]; simp only [bits] <;> omega
  have b1 : bits (h.enc + 71 * 16777216 + (0 + l.toNat)) 0 16 = l.toNat := by
    rw [word_bits h 71 _ 0 16 (by decide)]; simp only [bits] <;> omega
  rw [decodeNat_of hg, decodeMajor_47 (word_major h 71 _ (by decide) hb)]
  simp only [decode47, b0, word_hdr h 71 _ (by decide) hb, fld_of b1, res0, beq_self_eq_true, if_true]

theorem WordRoundTrip.trap (h : Hdr) (c : BitVec 16) : WordRoundTrip.Statement (.trap h c) := by
  intro n he
  have i_c := c.isLt
  have he : some (h.enc + 1207959552 + c.toNat) = some n := he
  injection he with he
  have hb : 0 + c.toNat < 1048576 := by omega
  obtain rfl : n = h.enc + 72 * 16777216 + (0 + c.toNat) := by omega
  refine ⟨word_lt h 72 _ (by decide) hb, fun hg => ?_⟩
  have b0 : bits (h.enc + 72 * 16777216 + (0 + c.toNat)) 16 4 = 0 := by
    rw [word_bits h 72 _ 16 4 (by decide)]; simp only [bits] <;> omega
  have b1 : bits (h.enc + 72 * 16777216 + (0 + c.toNat)) 0 16 = c.toNat := by
    rw [word_bits h 72 _ 0 16 (by decide)]; simp only [bits] <;> omega
  rw [decodeNat_of hg, decodeMajor_48 (word_major h 72 _ (by decide) hb)]
  simp only [decode48, b0, word_hdr h 72 _ (by decide) hb, fld_of b1, res0, beq_self_eq_true, if_true]

theorem WordRoundTrip.tretResume (h : Hdr) (a : BitVec 6) : WordRoundTrip.Statement (.tretResume h a) := by
  intro n he
  have i_a := a.isLt
  have he : some (h.enc + 1224736768 + a.toNat * 256) = some n := he
  injection he with he
  have hb : 0 + a.toNat * 256 < 1048576 := by omega
  obtain rfl : n = h.enc + 73 * 16777216 + (0 + a.toNat * 256) := by omega
  refine ⟨word_lt h 73 _ (by decide) hb, fun hg => ?_⟩
  have b99 : bits (h.enc + 73 * 16777216 + (0 + a.toNat * 256)) 0 2 = 0 := by
    rw [word_bits h 73 _ 0 2 (by decide)]; simp only [bits] <;> omega
  have b0 : bits (h.enc + 73 * 16777216 + (0 + a.toNat * 256)) 2 6 = 0 := by
    rw [word_bits h 73 _ 2 6 (by decide)]; simp only [bits] <;> omega
  have b1 : bits (h.enc + 73 * 16777216 + (0 + a.toNat * 256)) 14 6 = 0 := by
    rw [word_bits h 73 _ 14 6 (by decide)]; simp only [bits] <;> omega
  have b2 : bits (h.enc + 73 * 16777216 + (0 + a.toNat * 256)) 8 6 = a.toNat := by
    rw [word_bits h 73 _ 8 6 (by decide)]; simp only [bits] <;> omega
  rw [decodeNat_of hg, decodeMajor_49 (word_major h 73 _ (by decide) hb)]
  simp only [decode49, b99, b0, b1, word_hdr h 73 _ (by decide) hb, fld_of b2, res0, beq_self_eq_true, Bool.and_self, if_true]

theorem WordRoundTrip.tretSkip (h : Hdr) (a : BitVec 6) : WordRoundTrip.Statement (.tretSkip h a) := by
  intro n he
  have i_a := a.isLt
  have he : some (h.enc + 1224736769 + a.toNat * 256) = some n := he
  injection he with he
  have hb : 1 + a.toNat * 256 < 1048576 := by omega
  obtain rfl : n = h.enc + 73 * 16777216 + (1 + a.toNat * 256) := by omega
  refine ⟨word_lt h 73 _ (by decide) hb, fun hg => ?_⟩
  have b99 : bits (h.enc + 73 * 16777216 + (1 + a.toNat * 256)) 0 2 = 1 := by
    rw [word_bits h 73 _ 0 2 (by decide)]; simp only [bits] <;> omega
  have b0 : bits (h.enc + 73 * 16777216 + (1 + a.toNat * 256)) 2 6 = 0 := by
    rw [word_bits h 73 _ 2 6 (by decide)]; simp only [bits] <;> omega
  have b1 : bits (h.enc + 73 * 16777216 + (1 + a.toNat * 256)) 14 6 = 0 := by
    rw [word_bits h 73 _ 14 6 (by decide)]; simp only [bits] <;> omega
  have b2 : bits (h.enc + 73 * 16777216 + (1 + a.toNat * 256)) 8 6 = a.toNat := by
    rw [word_bits h 73 _ 8 6 (by decide)]; simp only [bits] <;> omega
  rw [decodeNat_of hg, decodeMajor_49 (word_major h 73 _ (by decide) hb)]
  simp only [decode49, b99, b0, b1, word_hdr h 73 _ (by decide) hb, fld_of b2, res0, beq_self_eq_true, Bool.and_self, if_true]

theorem WordRoundTrip.tretEnd (h : Hdr) (a : BitVec 6) : WordRoundTrip.Statement (.tretEnd h a) := by
  intro n he
  have i_a := a.isLt
  have he : some (h.enc + 1224736770 + a.toNat * 256) = some n := he
  injection he with he
  have hb : 2 + a.toNat * 256 < 1048576 := by omega
  obtain rfl : n = h.enc + 73 * 16777216 + (2 + a.toNat * 256) := by omega
  refine ⟨word_lt h 73 _ (by decide) hb, fun hg => ?_⟩
  have b99 : bits (h.enc + 73 * 16777216 + (2 + a.toNat * 256)) 0 2 = 2 := by
    rw [word_bits h 73 _ 0 2 (by decide)]; simp only [bits] <;> omega
  have b0 : bits (h.enc + 73 * 16777216 + (2 + a.toNat * 256)) 2 6 = 0 := by
    rw [word_bits h 73 _ 2 6 (by decide)]; simp only [bits] <;> omega
  have b1 : bits (h.enc + 73 * 16777216 + (2 + a.toNat * 256)) 14 6 = 0 := by
    rw [word_bits h 73 _ 14 6 (by decide)]; simp only [bits] <;> omega
  have b2 : bits (h.enc + 73 * 16777216 + (2 + a.toNat * 256)) 8 6 = a.toNat := by
    rw [word_bits h 73 _ 8 6 (by decide)]; simp only [bits] <;> omega
  rw [decodeNat_of hg, decodeMajor_49 (word_major h 73 _ (by decide) hb)]
  simp only [decode49, b99, b0, b1, word_hdr h 73 _ (by decide) hb, fld_of b2, res0, beq_self_eq_true, Bool.and_self, if_true]

theorem WordRoundTrip.ldb (h : Hdr) (d : BitVec 6) (a : BitVec 6) (r : BitVec 3) (i : BitVec 5) : WordRoundTrip.Statement (.ldb h d a r i) := by
  intro n he
  have i_d := d.isLt
  have i_a := a.isLt
  have i_r := r.isLt
  have i_i := i.isLt
  have he : some (h.enc + 1342177280 + d.toNat * 16384 + a.toNat * 256 + r.toNat * 32 + i.toNat) = some n := he
  injection he with he
  have hb : 0 + d.toNat * 16384 + a.toNat * 256 + r.toNat * 32 + i.toNat < 1048576 := by omega
  obtain rfl : n = h.enc + 80 * 16777216 + (0 + d.toNat * 16384 + a.toNat * 256 + r.toNat * 32 + i.toNat) := by omega
  refine ⟨word_lt h 80 _ (by decide) hb, fun hg => ?_⟩
  have b0 : bits (h.enc + 80 * 16777216 + (0 + d.toNat * 16384 + a.toNat * 256 + r.toNat * 32 + i.toNat)) 14 6 = d.toNat := by
    rw [word_bits h 80 _ 14 6 (by decide)]; simp only [bits] <;> omega
  have b1 : bits (h.enc + 80 * 16777216 + (0 + d.toNat * 16384 + a.toNat * 256 + r.toNat * 32 + i.toNat)) 8 6 = a.toNat := by
    rw [word_bits h 80 _ 8 6 (by decide)]; simp only [bits] <;> omega
  have b2 : bits (h.enc + 80 * 16777216 + (0 + d.toNat * 16384 + a.toNat * 256 + r.toNat * 32 + i.toNat)) 5 3 = r.toNat := by
    rw [word_bits h 80 _ 5 3 (by decide)]; simp only [bits] <;> omega
  have b3 : bits (h.enc + 80 * 16777216 + (0 + d.toNat * 16384 + a.toNat * 256 + r.toNat * 32 + i.toNat)) 0 5 = i.toNat := by
    rw [word_bits h 80 _ 0 5 (by decide)]; simp only [bits] <;> omega
  rw [decodeNat_of hg, decodeMajor_50 (word_major h 80 _ (by decide) hb)]
  simp only [decode50, word_hdr h 80 _ (by decide) hb, fld_of b0, fld_of b1, fld_of b2, fld_of b3]

theorem WordRoundTrip.ldh (h : Hdr) (d : BitVec 6) (a : BitVec 6) (r : BitVec 3) (i : BitVec 5) : WordRoundTrip.Statement (.ldh h d a r i) := by
  intro n he
  have i_d := d.isLt
  have i_a := a.isLt
  have i_r := r.isLt
  have i_i := i.isLt
  have he : some (h.enc + 1358954496 + d.toNat * 16384 + a.toNat * 256 + r.toNat * 32 + i.toNat) = some n := he
  injection he with he
  have hb : 0 + d.toNat * 16384 + a.toNat * 256 + r.toNat * 32 + i.toNat < 1048576 := by omega
  obtain rfl : n = h.enc + 81 * 16777216 + (0 + d.toNat * 16384 + a.toNat * 256 + r.toNat * 32 + i.toNat) := by omega
  refine ⟨word_lt h 81 _ (by decide) hb, fun hg => ?_⟩
  have b0 : bits (h.enc + 81 * 16777216 + (0 + d.toNat * 16384 + a.toNat * 256 + r.toNat * 32 + i.toNat)) 14 6 = d.toNat := by
    rw [word_bits h 81 _ 14 6 (by decide)]; simp only [bits] <;> omega
  have b1 : bits (h.enc + 81 * 16777216 + (0 + d.toNat * 16384 + a.toNat * 256 + r.toNat * 32 + i.toNat)) 8 6 = a.toNat := by
    rw [word_bits h 81 _ 8 6 (by decide)]; simp only [bits] <;> omega
  have b2 : bits (h.enc + 81 * 16777216 + (0 + d.toNat * 16384 + a.toNat * 256 + r.toNat * 32 + i.toNat)) 5 3 = r.toNat := by
    rw [word_bits h 81 _ 5 3 (by decide)]; simp only [bits] <;> omega
  have b3 : bits (h.enc + 81 * 16777216 + (0 + d.toNat * 16384 + a.toNat * 256 + r.toNat * 32 + i.toNat)) 0 5 = i.toNat := by
    rw [word_bits h 81 _ 0 5 (by decide)]; simp only [bits] <;> omega
  rw [decodeNat_of hg, decodeMajor_51 (word_major h 81 _ (by decide) hb)]
  simp only [decode51, word_hdr h 81 _ (by decide) hb, fld_of b0, fld_of b1, fld_of b2, fld_of b3]

theorem WordRoundTrip.ldw (h : Hdr) (d : BitVec 6) (a : BitVec 6) (r : BitVec 3) (i : BitVec 5) : WordRoundTrip.Statement (.ldw h d a r i) := by
  intro n he
  have i_d := d.isLt
  have i_a := a.isLt
  have i_r := r.isLt
  have i_i := i.isLt
  have he : some (h.enc + 1375731712 + d.toNat * 16384 + a.toNat * 256 + r.toNat * 32 + i.toNat) = some n := he
  injection he with he
  have hb : 0 + d.toNat * 16384 + a.toNat * 256 + r.toNat * 32 + i.toNat < 1048576 := by omega
  obtain rfl : n = h.enc + 82 * 16777216 + (0 + d.toNat * 16384 + a.toNat * 256 + r.toNat * 32 + i.toNat) := by omega
  refine ⟨word_lt h 82 _ (by decide) hb, fun hg => ?_⟩
  have b0 : bits (h.enc + 82 * 16777216 + (0 + d.toNat * 16384 + a.toNat * 256 + r.toNat * 32 + i.toNat)) 14 6 = d.toNat := by
    rw [word_bits h 82 _ 14 6 (by decide)]; simp only [bits] <;> omega
  have b1 : bits (h.enc + 82 * 16777216 + (0 + d.toNat * 16384 + a.toNat * 256 + r.toNat * 32 + i.toNat)) 8 6 = a.toNat := by
    rw [word_bits h 82 _ 8 6 (by decide)]; simp only [bits] <;> omega
  have b2 : bits (h.enc + 82 * 16777216 + (0 + d.toNat * 16384 + a.toNat * 256 + r.toNat * 32 + i.toNat)) 5 3 = r.toNat := by
    rw [word_bits h 82 _ 5 3 (by decide)]; simp only [bits] <;> omega
  have b3 : bits (h.enc + 82 * 16777216 + (0 + d.toNat * 16384 + a.toNat * 256 + r.toNat * 32 + i.toNat)) 0 5 = i.toNat := by
    rw [word_bits h 82 _ 0 5 (by decide)]; simp only [bits] <;> omega
  rw [decodeNat_of hg, decodeMajor_52 (word_major h 82 _ (by decide) hb)]
  simp only [decode52, word_hdr h 82 _ (by decide) hb, fld_of b0, fld_of b1, fld_of b2, fld_of b3]

theorem WordRoundTrip.ldd (h : Hdr) (d : BitVec 6) (a : BitVec 6) (r : BitVec 3) (i : BitVec 5) : WordRoundTrip.Statement (.ldd h d a r i) := by
  intro n he
  have i_d := d.isLt
  have i_a := a.isLt
  have i_r := r.isLt
  have i_i := i.isLt
  have he : some (h.enc + 1392508928 + d.toNat * 16384 + a.toNat * 256 + r.toNat * 32 + i.toNat) = some n := he
  injection he with he
  have hb : 0 + d.toNat * 16384 + a.toNat * 256 + r.toNat * 32 + i.toNat < 1048576 := by omega
  obtain rfl : n = h.enc + 83 * 16777216 + (0 + d.toNat * 16384 + a.toNat * 256 + r.toNat * 32 + i.toNat) := by omega
  refine ⟨word_lt h 83 _ (by decide) hb, fun hg => ?_⟩
  have b0 : bits (h.enc + 83 * 16777216 + (0 + d.toNat * 16384 + a.toNat * 256 + r.toNat * 32 + i.toNat)) 14 6 = d.toNat := by
    rw [word_bits h 83 _ 14 6 (by decide)]; simp only [bits] <;> omega
  have b1 : bits (h.enc + 83 * 16777216 + (0 + d.toNat * 16384 + a.toNat * 256 + r.toNat * 32 + i.toNat)) 8 6 = a.toNat := by
    rw [word_bits h 83 _ 8 6 (by decide)]; simp only [bits] <;> omega
  have b2 : bits (h.enc + 83 * 16777216 + (0 + d.toNat * 16384 + a.toNat * 256 + r.toNat * 32 + i.toNat)) 5 3 = r.toNat := by
    rw [word_bits h 83 _ 5 3 (by decide)]; simp only [bits] <;> omega
  have b3 : bits (h.enc + 83 * 16777216 + (0 + d.toNat * 16384 + a.toNat * 256 + r.toNat * 32 + i.toNat)) 0 5 = i.toNat := by
    rw [word_bits h 83 _ 0 5 (by decide)]; simp only [bits] <;> omega
  rw [decodeNat_of hg, decodeMajor_53 (word_major h 83 _ (by decide) hb)]
  simp only [decode53, word_hdr h 83 _ (by decide) hb, fld_of b0, fld_of b1, fld_of b2, fld_of b3]

theorem WordRoundTrip.ldq (h : Hdr) (d : BitVec 6) (a : BitVec 6) (r : BitVec 3) (i : BitVec 5) : WordRoundTrip.Statement (.ldq h d a r i) := by
  intro n he
  have i_d := d.isLt
  have i_a := a.isLt
  have i_r := r.isLt
  have i_i := i.isLt
  have he : some (h.enc + 1409286144 + d.toNat * 16384 + a.toNat * 256 + r.toNat * 32 + i.toNat) = some n := he
  injection he with he
  have hb : 0 + d.toNat * 16384 + a.toNat * 256 + r.toNat * 32 + i.toNat < 1048576 := by omega
  obtain rfl : n = h.enc + 84 * 16777216 + (0 + d.toNat * 16384 + a.toNat * 256 + r.toNat * 32 + i.toNat) := by omega
  refine ⟨word_lt h 84 _ (by decide) hb, fun hg => ?_⟩
  have b0 : bits (h.enc + 84 * 16777216 + (0 + d.toNat * 16384 + a.toNat * 256 + r.toNat * 32 + i.toNat)) 14 6 = d.toNat := by
    rw [word_bits h 84 _ 14 6 (by decide)]; simp only [bits] <;> omega
  have b1 : bits (h.enc + 84 * 16777216 + (0 + d.toNat * 16384 + a.toNat * 256 + r.toNat * 32 + i.toNat)) 8 6 = a.toNat := by
    rw [word_bits h 84 _ 8 6 (by decide)]; simp only [bits] <;> omega
  have b2 : bits (h.enc + 84 * 16777216 + (0 + d.toNat * 16384 + a.toNat * 256 + r.toNat * 32 + i.toNat)) 5 3 = r.toNat := by
    rw [word_bits h 84 _ 5 3 (by decide)]; simp only [bits] <;> omega
  have b3 : bits (h.enc + 84 * 16777216 + (0 + d.toNat * 16384 + a.toNat * 256 + r.toNat * 32 + i.toNat)) 0 5 = i.toNat := by
    rw [word_bits h 84 _ 0 5 (by decide)]; simp only [bits] <;> omega
  rw [decodeNat_of hg, decodeMajor_54 (word_major h 84 _ (by decide) hb)]
  simp only [decode54, word_hdr h 84 _ (by decide) hb, fld_of b0, fld_of b1, fld_of b2, fld_of b3]

theorem WordRoundTrip.stb (h : Hdr) (d : BitVec 6) (a : BitVec 6) (r : BitVec 3) (i : BitVec 5) : WordRoundTrip.Statement (.stb h d a r i) := by
  intro n he
  have i_d := d.isLt
  have i_a := a.isLt
  have i_r := r.isLt
  have i_i := i.isLt
  have he : some (h.enc + 1426063360 + d.toNat * 16384 + a.toNat * 256 + r.toNat * 32 + i.toNat) = some n := he
  injection he with he
  have hb : 0 + d.toNat * 16384 + a.toNat * 256 + r.toNat * 32 + i.toNat < 1048576 := by omega
  obtain rfl : n = h.enc + 85 * 16777216 + (0 + d.toNat * 16384 + a.toNat * 256 + r.toNat * 32 + i.toNat) := by omega
  refine ⟨word_lt h 85 _ (by decide) hb, fun hg => ?_⟩
  have b0 : bits (h.enc + 85 * 16777216 + (0 + d.toNat * 16384 + a.toNat * 256 + r.toNat * 32 + i.toNat)) 14 6 = d.toNat := by
    rw [word_bits h 85 _ 14 6 (by decide)]; simp only [bits] <;> omega
  have b1 : bits (h.enc + 85 * 16777216 + (0 + d.toNat * 16384 + a.toNat * 256 + r.toNat * 32 + i.toNat)) 8 6 = a.toNat := by
    rw [word_bits h 85 _ 8 6 (by decide)]; simp only [bits] <;> omega
  have b2 : bits (h.enc + 85 * 16777216 + (0 + d.toNat * 16384 + a.toNat * 256 + r.toNat * 32 + i.toNat)) 5 3 = r.toNat := by
    rw [word_bits h 85 _ 5 3 (by decide)]; simp only [bits] <;> omega
  have b3 : bits (h.enc + 85 * 16777216 + (0 + d.toNat * 16384 + a.toNat * 256 + r.toNat * 32 + i.toNat)) 0 5 = i.toNat := by
    rw [word_bits h 85 _ 0 5 (by decide)]; simp only [bits] <;> omega
  rw [decodeNat_of hg, decodeMajor_55 (word_major h 85 _ (by decide) hb)]
  simp only [decode55, word_hdr h 85 _ (by decide) hb, fld_of b0, fld_of b1, fld_of b2, fld_of b3]

theorem WordRoundTrip.sth (h : Hdr) (d : BitVec 6) (a : BitVec 6) (r : BitVec 3) (i : BitVec 5) : WordRoundTrip.Statement (.sth h d a r i) := by
  intro n he
  have i_d := d.isLt
  have i_a := a.isLt
  have i_r := r.isLt
  have i_i := i.isLt
  have he : some (h.enc + 1442840576 + d.toNat * 16384 + a.toNat * 256 + r.toNat * 32 + i.toNat) = some n := he
  injection he with he
  have hb : 0 + d.toNat * 16384 + a.toNat * 256 + r.toNat * 32 + i.toNat < 1048576 := by omega
  obtain rfl : n = h.enc + 86 * 16777216 + (0 + d.toNat * 16384 + a.toNat * 256 + r.toNat * 32 + i.toNat) := by omega
  refine ⟨word_lt h 86 _ (by decide) hb, fun hg => ?_⟩
  have b0 : bits (h.enc + 86 * 16777216 + (0 + d.toNat * 16384 + a.toNat * 256 + r.toNat * 32 + i.toNat)) 14 6 = d.toNat := by
    rw [word_bits h 86 _ 14 6 (by decide)]; simp only [bits] <;> omega
  have b1 : bits (h.enc + 86 * 16777216 + (0 + d.toNat * 16384 + a.toNat * 256 + r.toNat * 32 + i.toNat)) 8 6 = a.toNat := by
    rw [word_bits h 86 _ 8 6 (by decide)]; simp only [bits] <;> omega
  have b2 : bits (h.enc + 86 * 16777216 + (0 + d.toNat * 16384 + a.toNat * 256 + r.toNat * 32 + i.toNat)) 5 3 = r.toNat := by
    rw [word_bits h 86 _ 5 3 (by decide)]; simp only [bits] <;> omega
  have b3 : bits (h.enc + 86 * 16777216 + (0 + d.toNat * 16384 + a.toNat * 256 + r.toNat * 32 + i.toNat)) 0 5 = i.toNat := by
    rw [word_bits h 86 _ 0 5 (by decide)]; simp only [bits] <;> omega
  rw [decodeNat_of hg, decodeMajor_56 (word_major h 86 _ (by decide) hb)]
  simp only [decode56, word_hdr h 86 _ (by decide) hb, fld_of b0, fld_of b1, fld_of b2, fld_of b3]

theorem WordRoundTrip.stw (h : Hdr) (d : BitVec 6) (a : BitVec 6) (r : BitVec 3) (i : BitVec 5) : WordRoundTrip.Statement (.stw h d a r i) := by
  intro n he
  have i_d := d.isLt
  have i_a := a.isLt
  have i_r := r.isLt
  have i_i := i.isLt
  have he : some (h.enc + 1459617792 + d.toNat * 16384 + a.toNat * 256 + r.toNat * 32 + i.toNat) = some n := he
  injection he with he
  have hb : 0 + d.toNat * 16384 + a.toNat * 256 + r.toNat * 32 + i.toNat < 1048576 := by omega
  obtain rfl : n = h.enc + 87 * 16777216 + (0 + d.toNat * 16384 + a.toNat * 256 + r.toNat * 32 + i.toNat) := by omega
  refine ⟨word_lt h 87 _ (by decide) hb, fun hg => ?_⟩
  have b0 : bits (h.enc + 87 * 16777216 + (0 + d.toNat * 16384 + a.toNat * 256 + r.toNat * 32 + i.toNat)) 14 6 = d.toNat := by
    rw [word_bits h 87 _ 14 6 (by decide)]; simp only [bits] <;> omega
  have b1 : bits (h.enc + 87 * 16777216 + (0 + d.toNat * 16384 + a.toNat * 256 + r.toNat * 32 + i.toNat)) 8 6 = a.toNat := by
    rw [word_bits h 87 _ 8 6 (by decide)]; simp only [bits] <;> omega
  have b2 : bits (h.enc + 87 * 16777216 + (0 + d.toNat * 16384 + a.toNat * 256 + r.toNat * 32 + i.toNat)) 5 3 = r.toNat := by
    rw [word_bits h 87 _ 5 3 (by decide)]; simp only [bits] <;> omega
  have b3 : bits (h.enc + 87 * 16777216 + (0 + d.toNat * 16384 + a.toNat * 256 + r.toNat * 32 + i.toNat)) 0 5 = i.toNat := by
    rw [word_bits h 87 _ 0 5 (by decide)]; simp only [bits] <;> omega
  rw [decodeNat_of hg, decodeMajor_57 (word_major h 87 _ (by decide) hb)]
  simp only [decode57, word_hdr h 87 _ (by decide) hb, fld_of b0, fld_of b1, fld_of b2, fld_of b3]

theorem WordRoundTrip.std (h : Hdr) (d : BitVec 6) (a : BitVec 6) (r : BitVec 3) (i : BitVec 5) : WordRoundTrip.Statement (.std h d a r i) := by
  intro n he
  have i_d := d.isLt
  have i_a := a.isLt
  have i_r := r.isLt
  have i_i := i.isLt
  have he : some (h.enc + 1476395008 + d.toNat * 16384 + a.toNat * 256 + r.toNat * 32 + i.toNat) = some n := he
  injection he with he
  have hb : 0 + d.toNat * 16384 + a.toNat * 256 + r.toNat * 32 + i.toNat < 1048576 := by omega
  obtain rfl : n = h.enc + 88 * 16777216 + (0 + d.toNat * 16384 + a.toNat * 256 + r.toNat * 32 + i.toNat) := by omega
  refine ⟨word_lt h 88 _ (by decide) hb, fun hg => ?_⟩
  have b0 : bits (h.enc + 88 * 16777216 + (0 + d.toNat * 16384 + a.toNat * 256 + r.toNat * 32 + i.toNat)) 14 6 = d.toNat := by
    rw [word_bits h 88 _ 14 6 (by decide)]; simp only [bits] <;> omega
  have b1 : bits (h.enc + 88 * 16777216 + (0 + d.toNat * 16384 + a.toNat * 256 + r.toNat * 32 + i.toNat)) 8 6 = a.toNat := by
    rw [word_bits h 88 _ 8 6 (by decide)]; simp only [bits] <;> omega
  have b2 : bits (h.enc + 88 * 16777216 + (0 + d.toNat * 16384 + a.toNat * 256 + r.toNat * 32 + i.toNat)) 5 3 = r.toNat := by
    rw [word_bits h 88 _ 5 3 (by decide)]; simp only [bits] <;> omega
  have b3 : bits (h.enc + 88 * 16777216 + (0 + d.toNat * 16384 + a.toNat * 256 + r.toNat * 32 + i.toNat)) 0 5 = i.toNat := by
    rw [word_bits h 88 _ 0 5 (by decide)]; simp only [bits] <;> omega
  rw [decodeNat_of hg, decodeMajor_58 (word_major h 88 _ (by decide) hb)]
  simp only [decode58, word_hdr h 88 _ (by decide) hb, fld_of b0, fld_of b1, fld_of b2, fld_of b3]

theorem WordRoundTrip.stq (h : Hdr) (d : BitVec 6) (a : BitVec 6) (r : BitVec 3) (i : BitVec 5) : WordRoundTrip.Statement (.stq h d a r i) := by
  intro n he
  have i_d := d.isLt
  have i_a := a.isLt
  have i_r := r.isLt
  have i_i := i.isLt
  have he : some (h.enc + 1493172224 + d.toNat * 16384 + a.toNat * 256 + r.toNat * 32 + i.toNat) = some n := he
  injection he with he
  have hb : 0 + d.toNat * 16384 + a.toNat * 256 + r.toNat * 32 + i.toNat < 1048576 := by omega
  obtain rfl : n = h.enc + 89 * 16777216 + (0 + d.toNat * 16384 + a.toNat * 256 + r.toNat * 32 + i.toNat) := by omega
  refine ⟨word_lt h 89 _ (by decide) hb, fun hg => ?_⟩
  have b0 : bits (h.enc + 89 * 16777216 + (0 + d.toNat * 16384 + a.toNat * 256 + r.toNat * 32 + i.toNat)) 14 6 = d.toNat := by
    rw [word_bits h 89 _ 14 6 (by decide)]; simp only [bits] <;> omega
  have b1 : bits (h.enc + 89 * 16777216 + (0 + d.toNat * 16384 + a.toNat * 256 + r.toNat * 32 + i.toNat)) 8 6 = a.toNat := by
    rw [word_bits h 89 _ 8 6 (by decide)]; simp only [bits] <;> omega
  have b2 : bits (h.enc + 89 * 16777216 + (0 + d.toNat * 16384 + a.toNat * 256 + r.toNat * 32 + i.toNat)) 5 3 = r.toNat := by
    rw [word_bits h 89 _ 5 3 (by decide)]; simp only [bits] <;> omega
  have b3 : bits (h.enc + 89 * 16777216 + (0 + d.toNat * 16384 + a.toNat * 256 + r.toNat * 32 + i.toNat)) 0 5 = i.toNat := by
    rw [word_bits h 89 _ 0 5 (by decide)]; simp only [bits] <;> omega
  rw [decodeNat_of hg, decodeMajor_59 (word_major h 89 _ (by decide) hb)]
  simp only [decode59, word_hdr h 89 _ (by decide) hb, fld_of b0, fld_of b1, fld_of b2, fld_of b3]

theorem WordRoundTrip.stn (h : Hdr) (d : BitVec 6) (a : BitVec 6) (hf : BitVec 1) (r : BitVec 2) (i : BitVec 5) : WordRoundTrip.Statement (.stn h d a hf r i) := by
  intro n he
  have i_d := d.isLt
  have i_a := a.isLt
  have i_hf := hf.isLt
  have i_r := r.isLt
  have i_i := i.isLt
  have he : some (h.enc + 1509949440 + d.toNat * 16384 + a.toNat * 256 + hf.toNat * 128 + r.toNat * 32 + i.toNat) = some n := he
  injection he with he
  have hb : 0 + d.toNat * 16384 + a.toNat * 256 + hf.toNat * 128 + r.toNat * 32 + i.toNat < 1048576 := by omega
  obtain rfl : n = h.enc + 90 * 16777216 + (0 + d.toNat * 16384 + a.toNat * 256 + hf.toNat * 128 + r.toNat * 32 + i.toNat) := by omega
  refine ⟨word_lt h 90 _ (by decide) hb, fun hg => ?_⟩
  have b0 : bits (h.enc + 90 * 16777216 + (0 + d.toNat * 16384 + a.toNat * 256 + hf.toNat * 128 + r.toNat * 32 + i.toNat)) 14 6 = d.toNat := by
    rw [word_bits h 90 _ 14 6 (by decide)]; simp only [bits] <;> omega
  have b1 : bits (h.enc + 90 * 16777216 + (0 + d.toNat * 16384 + a.toNat * 256 + hf.toNat * 128 + r.toNat * 32 + i.toNat)) 8 6 = a.toNat := by
    rw [word_bits h 90 _ 8 6 (by decide)]; simp only [bits] <;> omega
  have b2 : bits (h.enc + 90 * 16777216 + (0 + d.toNat * 16384 + a.toNat * 256 + hf.toNat * 128 + r.toNat * 32 + i.toNat)) 7 1 = hf.toNat := by
    rw [word_bits h 90 _ 7 1 (by decide)]; simp only [bits] <;> omega
  have b3 : bits (h.enc + 90 * 16777216 + (0 + d.toNat * 16384 + a.toNat * 256 + hf.toNat * 128 + r.toNat * 32 + i.toNat)) 5 2 = r.toNat := by
    rw [word_bits h 90 _ 5 2 (by decide)]; simp only [bits] <;> omega
  have b4 : bits (h.enc + 90 * 16777216 + (0 + d.toNat * 16384 + a.toNat * 256 + hf.toNat * 128 + r.toNat * 32 + i.toNat)) 0 5 = i.toNat := by
    rw [word_bits h 90 _ 0 5 (by decide)]; simp only [bits] <;> omega
  rw [decodeNat_of hg, decodeMajor_5A (word_major h 90 _ (by decide) hb)]
  simp only [decode5A, word_hdr h 90 _ (by decide) hb, fld_of b0, fld_of b1, fld_of b2, fld_of b3, fld_of b4]

theorem WordRoundTrip.atom (h : Hdr) (d : BitVec 6) (a : BitVec 6) (o : BitVec 3) (t : BitVec 2) : WordRoundTrip.Statement (.atom h d a o t) := by
  intro n he
  have i_d := d.isLt
  have i_a := a.isLt
  have i_o := o.isLt
  have i_t := t.isLt
  have he : some (h.enc + 1526726656 + d.toNat * 16384 + a.toNat * 256 + o.toNat * 32 + t.toNat * 8) = some n := he
  injection he with he
  have hb : 0 + d.toNat * 16384 + a.toNat * 256 + o.toNat * 32 + t.toNat * 8 < 1048576 := by omega
  obtain rfl : n = h.enc + 91 * 16777216 + (0 + d.toNat * 16384 + a.toNat * 256 + o.toNat * 32 + t.toNat * 8) := by omega
  refine ⟨word_lt h 91 _ (by decide) hb, fun hg => ?_⟩
  have b0 : bits (h.enc + 91 * 16777216 + (0 + d.toNat * 16384 + a.toNat * 256 + o.toNat * 32 + t.toNat * 8)) 0 3 = 0 := by
    rw [word_bits h 91 _ 0 3 (by decide)]; simp only [bits] <;> omega
  have b1 : bits (h.enc + 91 * 16777216 + (0 + d.toNat * 16384 + a.toNat * 256 + o.toNat * 32 + t.toNat * 8)) 14 6 = d.toNat := by
    rw [word_bits h 91 _ 14 6 (by decide)]; simp only [bits] <;> omega
  have b2 : bits (h.enc + 91 * 16777216 + (0 + d.toNat * 16384 + a.toNat * 256 + o.toNat * 32 + t.toNat * 8)) 8 6 = a.toNat := by
    rw [word_bits h 91 _ 8 6 (by decide)]; simp only [bits] <;> omega
  have b3 : bits (h.enc + 91 * 16777216 + (0 + d.toNat * 16384 + a.toNat * 256 + o.toNat * 32 + t.toNat * 8)) 5 3 = o.toNat := by
    rw [word_bits h 91 _ 5 3 (by decide)]; simp only [bits] <;> omega
  have b4 : bits (h.enc + 91 * 16777216 + (0 + d.toNat * 16384 + a.toNat * 256 + o.toNat * 32 + t.toNat * 8)) 3 2 = t.toNat := by
    rw [word_bits h 91 _ 3 2 (by decide)]; simp only [bits] <;> omega
  rw [decodeNat_of hg, decodeMajor_5B (word_major h 91 _ (by decide) hb)]
  simp only [decode5B, b0, word_hdr h 91 _ (by decide) hb, fld_of b1, fld_of b2, fld_of b3, fld_of b4, res0, beq_self_eq_true, if_true]

theorem WordRoundTrip.atomf (h : Hdr) (d : BitVec 6) (a : BitVec 6) (o : BitVec 3) : WordRoundTrip.Statement (.atomf h d a o) := by
  intro n he
  have i_d := d.isLt
  have i_a := a.isLt
  have i_o := o.isLt
  have he : some (h.enc + 1543503872 + d.toNat * 16384 + a.toNat * 256 + o.toNat * 32) = some n := he
  injection he with he
  have hb : 0 + d.toNat * 16384 + a.toNat * 256 + o.toNat * 32 < 1048576 := by omega
  obtain rfl : n = h.enc + 92 * 16777216 + (0 + d.toNat * 16384 + a.toNat * 256 + o.toNat * 32) := by omega
  refine ⟨word_lt h 92 _ (by decide) hb, fun hg => ?_⟩
  have b0 : bits (h.enc + 92 * 16777216 + (0 + d.toNat * 16384 + a.toNat * 256 + o.toNat * 32)) 0 5 = 0 := by
    rw [word_bits h 92 _ 0 5 (by decide)]; simp only [bits] <;> omega
  have b1 : bits (h.enc + 92 * 16777216 + (0 + d.toNat * 16384 + a.toNat * 256 + o.toNat * 32)) 14 6 = d.toNat := by
    rw [word_bits h 92 _ 14 6 (by decide)]; simp only [bits] <;> omega
  have b2 : bits (h.enc + 92 * 16777216 + (0 + d.toNat * 16384 + a.toNat * 256 + o.toNat * 32)) 8 6 = a.toNat := by
    rw [word_bits h 92 _ 8 6 (by decide)]; simp only [bits] <;> omega
  have b3 : bits (h.enc + 92 * 16777216 + (0 + d.toNat * 16384 + a.toNat * 256 + o.toNat * 32)) 5 3 = o.toNat := by
    rw [word_bits h 92 _ 5 3 (by decide)]; simp only [bits] <;> omega
  rw [decodeNat_of hg, decodeMajor_5C (word_major h 92 _ (by decide) hb)]
  simp only [decode5C, b0, word_hdr h 92 _ (by decide) hb, fld_of b1, fld_of b2, fld_of b3, res0, beq_self_eq_true, if_true]

theorem WordRoundTrip.cas (h : Hdr) (d : BitVec 6) (a : BitVec 6) (b : BitVec 6) : WordRoundTrip.Statement (.cas h d a b) := by
  intro n he
  have i_d := d.isLt
  have i_a := a.isLt
  have i_b := b.isLt
  have he : some (h.enc + 1560281088 + d.toNat * 16384 + a.toNat * 256 + b.toNat * 4) = some n := he
  injection he with he
  have hb : 0 + d.toNat * 16384 + a.toNat * 256 + b.toNat * 4 < 1048576 := by omega
  obtain rfl : n = h.enc + 93 * 16777216 + (0 + d.toNat * 16384 + a.toNat * 256 + b.toNat * 4) := by omega
  refine ⟨word_lt h 93 _ (by decide) hb, fun hg => ?_⟩
  have b99 : bits (h.enc + 93 * 16777216 + (0 + d.toNat * 16384 + a.toNat * 256 + b.toNat * 4)) 0 2 = 0 := by
    rw [word_bits h 93 _ 0 2 (by decide)]; simp only [bits] <;> omega
  have b0 : bits (h.enc + 93 * 16777216 + (0 + d.toNat * 16384 + a.toNat * 256 + b.toNat * 4)) 14 6 = d.toNat := by
    rw [word_bits h 93 _ 14 6 (by decide)]; simp only [bits] <;> omega
  have b1 : bits (h.enc + 93 * 16777216 + (0 + d.toNat * 16384 + a.toNat * 256 + b.toNat * 4)) 8 6 = a.toNat := by
    rw [word_bits h 93 _ 8 6 (by decide)]; simp only [bits] <;> omega
  have b2 : bits (h.enc + 93 * 16777216 + (0 + d.toNat * 16384 + a.toNat * 256 + b.toNat * 4)) 2 6 = b.toNat := by
    rw [word_bits h 93 _ 2 6 (by decide)]; simp only [bits] <;> omega
  rw [decodeNat_of hg, decodeMajor_5D (word_major h 93 _ (by decide) hb)]
  simp only [decode5D, b99, word_hdr h 93 _ (by decide) hb, fld_of b0, fld_of b1, fld_of b2]

theorem WordRoundTrip.casD (h : Hdr) (d : BitVec 6) (a : BitVec 6) (b : BitVec 6) : WordRoundTrip.Statement (.casD h d a b) := by
  intro n he
  have i_d := d.isLt
  have i_a := a.isLt
  have i_b := b.isLt
  have he : some (h.enc + 1560281089 + d.toNat * 16384 + a.toNat * 256 + b.toNat * 4) = some n := he
  injection he with he
  have hb : 1 + d.toNat * 16384 + a.toNat * 256 + b.toNat * 4 < 1048576 := by omega
  obtain rfl : n = h.enc + 93 * 16777216 + (1 + d.toNat * 16384 + a.toNat * 256 + b.toNat * 4) := by omega
  refine ⟨word_lt h 93 _ (by decide) hb, fun hg => ?_⟩
  have b99 : bits (h.enc + 93 * 16777216 + (1 + d.toNat * 16384 + a.toNat * 256 + b.toNat * 4)) 0 2 = 1 := by
    rw [word_bits h 93 _ 0 2 (by decide)]; simp only [bits] <;> omega
  have b0 : bits (h.enc + 93 * 16777216 + (1 + d.toNat * 16384 + a.toNat * 256 + b.toNat * 4)) 14 6 = d.toNat := by
    rw [word_bits h 93 _ 14 6 (by decide)]; simp only [bits] <;> omega
  have b1 : bits (h.enc + 93 * 16777216 + (1 + d.toNat * 16384 + a.toNat * 256 + b.toNat * 4)) 8 6 = a.toNat := by
    rw [word_bits h 93 _ 8 6 (by decide)]; simp only [bits] <;> omega
  have b2 : bits (h.enc + 93 * 16777216 + (1 + d.toNat * 16384 + a.toNat * 256 + b.toNat * 4)) 2 6 = b.toNat := by
    rw [word_bits h 93 _ 2 6 (by decide)]; simp only [bits] <;> omega
  rw [decodeNat_of hg, decodeMajor_5D (word_major h 93 _ (by decide) hb)]
  simp only [decode5D, b99, word_hdr h 93 _ (by decide) hb, fld_of b0, fld_of b1, fld_of b2]

theorem WordRoundTrip.casQ (h : Hdr) (d : BitVec 6) (a : BitVec 6) (b : BitVec 6) : WordRoundTrip.Statement (.casQ h d a b) := by
  intro n he
  have i_d := d.isLt
  have i_a := a.isLt
  have i_b := b.isLt
  have he : some (h.enc + 1560281090 + d.toNat * 16384 + a.toNat * 256 + b.toNat * 4) = some n := he
  injection he with he
  have hb : 2 + d.toNat * 16384 + a.toNat * 256 + b.toNat * 4 < 1048576 := by omega
  obtain rfl : n = h.enc + 93 * 16777216 + (2 + d.toNat * 16384 + a.toNat * 256 + b.toNat * 4) := by omega
  refine ⟨word_lt h 93 _ (by decide) hb, fun hg => ?_⟩
  have b99 : bits (h.enc + 93 * 16777216 + (2 + d.toNat * 16384 + a.toNat * 256 + b.toNat * 4)) 0 2 = 2 := by
    rw [word_bits h 93 _ 0 2 (by decide)]; simp only [bits] <;> omega
  have b0 : bits (h.enc + 93 * 16777216 + (2 + d.toNat * 16384 + a.toNat * 256 + b.toNat * 4)) 14 6 = d.toNat := by
    rw [word_bits h 93 _ 14 6 (by decide)]; simp only [bits] <;> omega
  have b1 : bits (h.enc + 93 * 16777216 + (2 + d.toNat * 16384 + a.toNat * 256 + b.toNat * 4)) 8 6 = a.toNat := by
    rw [word_bits h 93 _ 8 6 (by decide)]; simp only [bits] <;> omega
  have b2 : bits (h.enc + 93 * 16777216 + (2 + d.toNat * 16384 + a.toNat * 256 + b.toNat * 4)) 2 6 = b.toNat := by
    rw [word_bits h 93 _ 2 6 (by decide)]; simp only [bits] <;> omega
  rw [decodeNat_of hg, decodeMajor_5D (word_major h 93 _ (by decide) hb)]
  simp only [decode5D, b99, word_hdr h 93 _ (by decide) hb, fld_of b0, fld_of b1, fld_of b2]

theorem WordRoundTrip.red (h : Hdr) (o : BitVec 3) (t : BitVec 2) (a : BitVec 6) (b : BitVec 6) : WordRoundTrip.Statement (.red h o t a b) := by
  intro n he
  have i_o := o.isLt
  have i_t := t.isLt
  have i_a := a.isLt
  have i_b := b.isLt
  have he : some (h.enc + 1577058304 + o.toNat * 131072 + t.toNat * 32768 + a.toNat * 256 + b.toNat * 4) = some n := he
  injection he with he
  have hb : 0 + o.toNat * 131072 + t.toNat * 32768 + a.toNat * 256 + b.toNat * 4 < 1048576 := by omega
  obtain rfl : n = h.enc + 94 * 16777216 + (0 + o.toNat * 131072 + t.toNat * 32768 + a.toNat * 256 + b.toNat * 4) := by omega
  refine ⟨word_lt h 94 _ (by decide) hb, fun hg => ?_⟩
  have b0 : bits (h.enc + 94 * 16777216 + (0 + o.toNat * 131072 + t.toNat * 32768 + a.toNat * 256 + b.toNat * 4)) 0 2 = 0 := by
    rw [word_bits h 94 _ 0 2 (by decide)]; simp only [bits] <;> omega
  have b1 : bits (h.enc + 94 * 16777216 + (0 + o.toNat * 131072 + t.toNat * 32768 + a.toNat * 256 + b.toNat * 4)) 14 1 = 0 := by
    rw [word_bits h 94 _ 14 1 (by decide)]; simp only [bits] <;> omega
  have b2 : bits (h.enc + 94 * 16777216 + (0 + o.toNat * 131072 + t.toNat * 32768 + a.toNat * 256 + b.toNat * 4)) 17 3 = o.toNat := by
    rw [word_bits h 94 _ 17 3 (by decide)]; simp only [bits] <;> omega
  have b3 : bits (h.enc + 94 * 16777216 + (0 + o.toNat * 131072 + t.toNat * 32768 + a.toNat * 256 + b.toNat * 4)) 15 2 = t.toNat := by
    rw [word_bits h 94 _ 15 2 (by decide)]; simp only [bits] <;> omega
  have b4 : bits (h.enc + 94 * 16777216 + (0 + o.toNat * 131072 + t.toNat * 32768 + a.toNat * 256 + b.toNat * 4)) 8 6 = a.toNat := by
    rw [word_bits h 94 _ 8 6 (by decide)]; simp only [bits] <;> omega
  have b5 : bits (h.enc + 94 * 16777216 + (0 + o.toNat * 131072 + t.toNat * 32768 + a.toNat * 256 + b.toNat * 4)) 2 6 = b.toNat := by
    rw [word_bits h 94 _ 2 6 (by decide)]; simp only [bits] <;> omega
  rw [decodeNat_of hg, decodeMajor_5E (word_major h 94 _ (by decide) hb)]
  simp only [decode5E, b0, b1, word_hdr h 94 _ (by decide) hb, fld_of b2, fld_of b3, fld_of b4, fld_of b5, res0, beq_self_eq_true, Bool.and_self, if_true]

theorem WordRoundTrip.phase (h : Hdr) (k : BitVec 2) (c : BitVec 3) : WordRoundTrip.Statement (.phase h k c) := by
  intro n he
  have i_k := k.isLt
  have i_c := c.isLt
  have he : some (h.enc + 1593835520 + k.toNat * 16384 + c.toNat * 2048) = some n := he
  injection he with he
  have hb : 0 + k.toNat * 16384 + c.toNat * 2048 < 1048576 := by omega
  obtain rfl : n = h.enc + 95 * 16777216 + (0 + k.toNat * 16384 + c.toNat * 2048) := by omega
  refine ⟨word_lt h 95 _ (by decide) hb, fun hg => ?_⟩
  have b99 : bits (h.enc + 95 * 16777216 + (0 + k.toNat * 16384 + c.toNat * 2048)) 16 4 = 0 := by
    rw [word_bits h 95 _ 16 4 (by decide)]; simp only [bits] <;> omega
  have b0 : bits (h.enc + 95 * 16777216 + (0 + k.toNat * 16384 + c.toNat * 2048)) 0 11 = 0 := by
    rw [word_bits h 95 _ 0 11 (by decide)]; simp only [bits] <;> omega
  have b1 : bits (h.enc + 95 * 16777216 + (0 + k.toNat * 16384 + c.toNat * 2048)) 14 2 = k.toNat := by
    rw [word_bits h 95 _ 14 2 (by decide)]; simp only [bits] <;> omega
  have b2 : bits (h.enc + 95 * 16777216 + (0 + k.toNat * 16384 + c.toNat * 2048)) 11 3 = c.toNat := by
    rw [word_bits h 95 _ 11 3 (by decide)]; simp only [bits] <;> omega
  rw [decodeNat_of hg, decodeMajor_5F (word_major h 95 _ (by decide) hb)]
  simp only [decode5F, b99, b0, word_hdr h 95 _ (by decide) hb, fld_of b1, fld_of b2, res0, beq_self_eq_true, if_true]

theorem WordRoundTrip.pfence (h : Hdr) (c : BitVec 3) : WordRoundTrip.Statement (.pfence h c) := by
  intro n he
  have i_c := c.isLt
  have he : some (h.enc + 1593901056 + c.toNat * 2048) = some n := he
  injection he with he
  have hb : 65536 + c.toNat * 2048 < 1048576 := by omega
  obtain rfl : n = h.enc + 95 * 16777216 + (65536 + c.toNat * 2048) := by omega
  refine ⟨word_lt h 95 _ (by decide) hb, fun hg => ?_⟩
  have b99 : bits (h.enc + 95 * 16777216 + (65536 + c.toNat * 2048)) 16 4 = 1 := by
    rw [word_bits h 95 _ 16 4 (by decide)]; simp only [bits] <;> omega
  have b0 : bits (h.enc + 95 * 16777216 + (65536 + c.toNat * 2048)) 0 11 = 0 := by
    rw [word_bits h 95 _ 0 11 (by decide)]; simp only [bits] <;> omega
  have b1 : bits (h.enc + 95 * 16777216 + (65536 + c.toNat * 2048)) 14 2 = 0 := by
    rw [word_bits h 95 _ 14 2 (by decide)]; simp only [bits] <;> omega
  have b2 : bits (h.enc + 95 * 16777216 + (65536 + c.toNat * 2048)) 11 3 = c.toNat := by
    rw [word_bits h 95 _ 11 3 (by decide)]; simp only [bits] <;> omega
  rw [decodeNat_of hg, decodeMajor_5F (word_major h 95 _ (by decide) hb)]
  simp only [decode5F, b99, b0, b1, word_hdr h 95 _ (by decide) hb, fld_of b2, res0, beq_self_eq_true, Bool.and_self, if_true]

theorem WordRoundTrip.cwb (h : Hdr) (a : BitVec 6) : WordRoundTrip.Statement (.cwb h a) := by
  intro n he
  have i_a := a.isLt
  have he : some (h.enc + 1593966592 + a.toNat * 256) = some n := he
  injection he with he
  have hb : 131072 + a.toNat * 256 < 1048576 := by omega
  obtain rfl : n = h.enc + 95 * 16777216 + (131072 + a.toNat * 256) := by omega
  refine ⟨word_lt h 95 _ (by decide) hb, fun hg => ?_⟩
  have b99 : bits (h.enc + 95 * 16777216 + (131072 + a.toNat * 256)) 16 4 = 2 := by
    rw [word_bits h 95 _ 16 4 (by decide)]; simp only [bits] <;> omega
  have b0 : bits (h.enc + 95 * 16777216 + (131072 + a.toNat * 256)) 0 8 = 0 := by
    rw [word_bits h 95 _ 0 8 (by decide)]; simp only [bits] <;> omega
  have b1 : bits (h.enc + 95 * 16777216 + (131072 + a.toNat * 256)) 14 2 = 0 := by
    rw [word_bits h 95 _ 14 2 (by decide)]; simp only [bits] <;> omega
  have b2 : bits (h.enc + 95 * 16777216 + (131072 + a.toNat * 256)) 8 6 = a.toNat := by
    rw [word_bits h 95 _ 8 6 (by decide)]; simp only [bits] <;> omega
  rw [decodeNat_of hg, decodeMajor_5F (word_major h 95 _ (by decide) hb)]
  simp only [decode5F, b99, b0, b1, word_hdr h 95 _ (by decide) hb, fld_of b2, res0, beq_self_eq_true, Bool.and_self, if_true]

theorem WordRoundTrip.cinv (h : Hdr) (a : BitVec 6) : WordRoundTrip.Statement (.cinv h a) := by
  intro n he
  have i_a := a.isLt
  have he : some (h.enc + 1594032128 + a.toNat * 256) = some n := he
  injection he with he
  have hb : 196608 + a.toNat * 256 < 1048576 := by omega
  obtain rfl : n = h.enc + 95 * 16777216 + (196608 + a.toNat * 256) := by omega
  refine ⟨word_lt h 95 _ (by decide) hb, fun hg => ?_⟩
  have b99 : bits (h.enc + 95 * 16777216 + (196608 + a.toNat * 256)) 16 4 = 3 := by
    rw [word_bits h 95 _ 16 4 (by decide)]; simp only [bits] <;> omega
  have b0 : bits (h.enc + 95 * 16777216 + (196608 + a.toNat * 256)) 0 8 = 0 := by
    rw [word_bits h 95 _ 0 8 (by decide)]; simp only [bits] <;> omega
  have b1 : bits (h.enc + 95 * 16777216 + (196608 + a.toNat * 256)) 14 2 = 0 := by
    rw [word_bits h 95 _ 14 2 (by decide)]; simp only [bits] <;> omega
  have b2 : bits (h.enc + 95 * 16777216 + (196608 + a.toNat * 256)) 8 6 = a.toNat := by
    rw [word_bits h 95 _ 8 6 (by decide)]; simp only [bits] <;> omega
  rw [decodeNat_of hg, decodeMajor_5F (word_major h 95 _ (by decide) hb)]
  simp only [decode5F, b99, b0, b1, word_hdr h 95 _ (by decide) hb, fld_of b2, res0, beq_self_eq_true, Bool.and_self, if_true]

theorem WordRoundTrip.zline (h : Hdr) (a : BitVec 6) : WordRoundTrip.Statement (.zline h a) := by
  intro n he
  have i_a := a.isLt
  have he : some (h.enc + 1594097664 + a.toNat * 256) = some n := he
  injection he with he
  have hb : 262144 + a.toNat * 256 < 1048576 := by omega
  obtain rfl : n = h.enc + 95 * 16777216 + (262144 + a.toNat * 256) := by omega
  refine ⟨word_lt h 95 _ (by decide) hb, fun hg => ?_⟩
  have b99 : bits (h.enc + 95 * 16777216 + (262144 + a.toNat * 256)) 16 4 = 4 := by
    rw [word_bits h 95 _ 16 4 (by decide)]; simp only [bits] <;> omega
  have b0 : bits (h.enc + 95 * 16777216 + (262144 + a.toNat * 256)) 0 8 = 0 := by
    rw [word_bits h 95 _ 0 8 (by decide)]; simp only [bits] <;> omega
  have b1 : bits (h.enc + 95 * 16777216 + (262144 + a.toNat * 256)) 14 2 = 0 := by
    rw [word_bits h 95 _ 14 2 (by decide)]; simp only [bits] <;> omega
  have b2 : bits (h.enc + 95 * 16777216 + (262144 + a.toNat * 256)) 8 6 = a.toNat := by
    rw [word_bits h 95 _ 8 6 (by decide)]; simp only [bits] <;> omega
  rw [decodeNat_of hg, decodeMajor_5F (word_major h 95 _ (by decide) hb)]
  simp only [decode5F, b99, b0, b1, word_hdr h 95 _ (by decide) hb, fld_of b2, res0, beq_self_eq_true, Bool.and_self, if_true]

theorem WordRoundTrip.pref (h : Hdr) (a : BitVec 6) (l : BitVec 2) : WordRoundTrip.Statement (.pref h a l) := by
  intro n he
  have i_a := a.isLt
  have i_l := l.isLt
  have he : some (h.enc + 1594163200 + a.toNat * 256 + l.toNat) = some n := he
  injection he with he
  have hb : 327680 + a.toNat * 256 + l.toNat < 1048576 := by omega
  obtain rfl : n = h.enc + 95 * 16777216 + (327680 + a.toNat * 256 + l.toNat) := by omega
  refine ⟨word_lt h 95 _ (by decide) hb, fun hg => ?_⟩
  have b99 : bits (h.enc + 95 * 16777216 + (327680 + a.toNat * 256 + l.toNat)) 16 4 = 5 := by
    rw [word_bits h 95 _ 16 4 (by decide)]; simp only [bits] <;> omega
  have b0 : bits (h.enc + 95 * 16777216 + (327680 + a.toNat * 256 + l.toNat)) 2 6 = 0 := by
    rw [word_bits h 95 _ 2 6 (by decide)]; simp only [bits] <;> omega
  have b1 : bits (h.enc + 95 * 16777216 + (327680 + a.toNat * 256 + l.toNat)) 14 2 = 0 := by
    rw [word_bits h 95 _ 14 2 (by decide)]; simp only [bits] <;> omega
  have b2 : bits (h.enc + 95 * 16777216 + (327680 + a.toNat * 256 + l.toNat)) 8 6 = a.toNat := by
    rw [word_bits h 95 _ 8 6 (by decide)]; simp only [bits] <;> omega
  have b3 : bits (h.enc + 95 * 16777216 + (327680 + a.toNat * 256 + l.toNat)) 0 2 = l.toNat := by
    rw [word_bits h 95 _ 0 2 (by decide)]; simp only [bits] <;> omega
  rw [decodeNat_of hg, decodeMajor_5F (word_major h 95 _ (by decide) hb)]
  simp only [decode5F, b99, b0, b1, word_hdr h 95 _ (by decide) hb, fld_of b2, fld_of b3, res0, beq_self_eq_true, Bool.and_self, if_true]

theorem WordRoundTrip.pgreq (h : Hdr) (a : BitVec 6) : WordRoundTrip.Statement (.pgreq h a) := by
  intro n he
  have i_a := a.isLt
  have he : some (h.enc + 1594228736 + a.toNat * 256) = some n := he
  injection he with he
  have hb : 393216 + a.toNat * 256 < 1048576 := by omega
  obtain rfl : n = h.enc + 95 * 16777216 + (393216 + a.toNat * 256) := by omega
  refine ⟨word_lt h 95 _ (by decide) hb, fun hg => ?_⟩
  have b99 : bits (h.enc + 95 * 16777216 + (393216 + a.toNat * 256)) 16 4 = 6 := by
    rw [word_bits h 95 _ 16 4 (by decide)]; simp only [bits] <;> omega
  have b0 : bits (h.enc + 95 * 16777216 + (393216 + a.toNat * 256)) 0 8 = 0 := by
    rw [word_bits h 95 _ 0 8 (by decide)]; simp only [bits] <;> omega
  have b1 : bits (h.enc + 95 * 16777216 + (393216 + a.toNat * 256)) 14 2 = 0 := by
    rw [word_bits h 95 _ 14 2 (by decide)]; simp only [bits] <;> omega
  have b2 : bits (h.enc + 95 * 16777216 + (393216 + a.toNat * 256)) 8 6 = a.toNat := by
    rw [word_bits h 95 _ 8 6 (by decide)]; simp only [bits] <;> omega
  rw [decodeNat_of hg, decodeMajor_5F (word_major h 95 _ (by decide) hb)]
  simp only [decode5F, b99, b0, b1, word_hdr h 95 _ (by decide) hb, fld_of b2, res0, beq_self_eq_true, Bool.and_self, if_true]

theorem WordRoundTrip.pgprobe (h : Hdr) (a : BitVec 6) (q : BitVec 4) : WordRoundTrip.Statement (.pgprobe h a q) := by
  intro n he
  have i_a := a.isLt
  have i_q := q.isLt
  have he : some (h.enc + 1594294272 + a.toNat * 256 + q.toNat * 16) = some n := he
  injection he with he
  have hb : 458752 + a.toNat * 256 + q.toNat * 16 < 1048576 := by omega
  obtain rfl : n = h.enc + 95 * 16777216 + (458752 + a.toNat * 256 + q.toNat * 16) := by omega
  refine ⟨word_lt h 95 _ (by decide) hb, fun hg => ?_⟩
  have b99 : bits (h.enc + 95 * 16777216 + (458752 + a.toNat * 256 + q.toNat * 16)) 16 4 = 7 := by
    rw [word_bits h 95 _ 16 4 (by decide)]; simp only [bits] <;> omega
  have b0 : bits (h.enc + 95 * 16777216 + (458752 + a.toNat * 256 + q.toNat * 16)) 0 4 = 0 := by
    rw [word_bits h 95 _ 0 4 (by decide)]; simp only [bits] <;> omega
  have b1 : bits (h.enc + 95 * 16777216 + (458752 + a.toNat * 256 + q.toNat * 16)) 14 2 = 0 := by
    rw [word_bits h 95 _ 14 2 (by decide)]; simp only [bits] <;> omega
  have b2 : bits (h.enc + 95 * 16777216 + (458752 + a.toNat * 256 + q.toNat * 16)) 8 6 = a.toNat := by
    rw [word_bits h 95 _ 8 6 (by decide)]; simp only [bits] <;> omega
  have b3 : bits (h.enc + 95 * 16777216 + (458752 + a.toNat * 256 + q.toNat * 16)) 4 4 = q.toNat := by
    rw [word_bits h 95 _ 4 4 (by decide)]; simp only [bits] <;> omega
  rw [decodeNat_of hg, decodeMajor_5F (word_major h 95 _ (by decide) hb)]
  simp only [decode5F, b99, b0, b1, word_hdr h 95 _ (by decide) hb, fld_of b2, fld_of b3, res0, beq_self_eq_true, Bool.and_self, if_true]

theorem WordRoundTrip.acpy (h : Hdr) (x : BitVec 4) (y : BitVec 4) (e : BitVec 4) (f : BitVec 1) : WordRoundTrip.Statement (.acpy h x y e f) := by
  intro n he
  have i_x := x.isLt
  have i_y := y.isLt
  have i_e := e.isLt
  have i_f := f.isLt
  have he : some (h.enc + 1610612736 + x.toNat * 65536 + y.toNat * 4096 + e.toNat * 16 + f.toNat) = some n := he
  injection he with he
  have hb : 0 + x.toNat * 65536 + y.toNat * 4096 + e.toNat * 16 + f.toNat < 1048576 := by omega
  obtain rfl : n = h.enc + 96 * 16777216 + (0 + x.toNat * 65536 + y.toNat * 4096 + e.toNat * 16 + f.toNat) := by omega
  refine ⟨word_lt h 96 _ (by decide) hb, fun hg => ?_⟩
  have b0 : bits (h.enc + 96 * 16777216 + (0 + x.toNat * 65536 + y.toNat * 4096 + e.toNat * 16 + f.toNat)) 1 3 = 0 := by
    rw [word_bits h 96 _ 1 3 (by decide)]; simp only [bits] <;> omega
  have b1 : bits (h.enc + 96 * 16777216 + (0 + x.toNat * 65536 + y.toNat * 4096 + e.toNat * 16 + f.toNat)) 8 4 = 0 := by
    rw [word_bits h 96 _ 8 4 (by decide)]; simp only [bits] <;> omega
  have b2 : bits (h.enc + 96 * 16777216 + (0 + x.toNat * 65536 + y.toNat * 4096 + e.toNat * 16 + f.toNat)) 16 4 = x.toNat := by
    rw [word_bits h 96 _ 16 4 (by decide)]; simp only [bits] <;> omega
  have b3 : bits (h.enc + 96 * 16777216 + (0 + x.toNat * 65536 + y.toNat * 4096 + e.toNat * 16 + f.toNat)) 12 4 = y.toNat := by
    rw [word_bits h 96 _ 12 4 (by decide)]; simp only [bits] <;> omega
  have b4 : bits (h.enc + 96 * 16777216 + (0 + x.toNat * 65536 + y.toNat * 4096 + e.toNat * 16 + f.toNat)) 4 4 = e.toNat := by
    rw [word_bits h 96 _ 4 4 (by decide)]; simp only [bits] <;> omega
  have b5 : bits (h.enc + 96 * 16777216 + (0 + x.toNat * 65536 + y.toNat * 4096 + e.toNat * 16 + f.toNat)) 0 1 = f.toNat := by
    rw [word_bits h 96 _ 0 1 (by decide)]; simp only [bits] <;> omega
  rw [decodeNat_of hg, decodeMajor_60 (word_major h 96 _ (by decide) hb)]
  simp only [decode60, b0, b1, word_hdr h 96 _ (by decide) hb, fld_of b2, fld_of b3, fld_of b4, fld_of b5, res0, beq_self_eq_true, Bool.and_self, if_true]

theorem WordRoundTrip.acpym (h : Hdr) (x : BitVec 4) (y : BitVec 4) (e : BitVec 4) (f : BitVec 1) : WordRoundTrip.Statement (.acpym h x y e f) := by
  intro n he
  have i_x := x.isLt
  have i_y := y.isLt
  have i_e := e.isLt
  have i_f := f.isLt
  have he : some (h.enc + 1627389952 + x.toNat * 65536 + y.toNat * 4096 + e.toNat * 16 + f.toNat) = some n := he
  injection he with he
  have hb : 0 + x.toNat * 65536 + y.toNat * 4096 + e.toNat * 16 + f.toNat < 1048576 := by omega
  obtain rfl : n = h.enc + 97 * 16777216 + (0 + x.toNat * 65536 + y.toNat * 4096 + e.toNat * 16 + f.toNat) := by omega
  refine ⟨word_lt h 97 _ (by decide) hb, fun hg => ?_⟩
  have b0 : bits (h.enc + 97 * 16777216 + (0 + x.toNat * 65536 + y.toNat * 4096 + e.toNat * 16 + f.toNat)) 1 3 = 0 := by
    rw [word_bits h 97 _ 1 3 (by decide)]; simp only [bits] <;> omega
  have b1 : bits (h.enc + 97 * 16777216 + (0 + x.toNat * 65536 + y.toNat * 4096 + e.toNat * 16 + f.toNat)) 8 4 = 0 := by
    rw [word_bits h 97 _ 8 4 (by decide)]; simp only [bits] <;> omega
  have b2 : bits (h.enc + 97 * 16777216 + (0 + x.toNat * 65536 + y.toNat * 4096 + e.toNat * 16 + f.toNat)) 16 4 = x.toNat := by
    rw [word_bits h 97 _ 16 4 (by decide)]; simp only [bits] <;> omega
  have b3 : bits (h.enc + 97 * 16777216 + (0 + x.toNat * 65536 + y.toNat * 4096 + e.toNat * 16 + f.toNat)) 12 4 = y.toNat := by
    rw [word_bits h 97 _ 12 4 (by decide)]; simp only [bits] <;> omega
  have b4 : bits (h.enc + 97 * 16777216 + (0 + x.toNat * 65536 + y.toNat * 4096 + e.toNat * 16 + f.toNat)) 4 4 = e.toNat := by
    rw [word_bits h 97 _ 4 4 (by decide)]; simp only [bits] <;> omega
  have b5 : bits (h.enc + 97 * 16777216 + (0 + x.toNat * 65536 + y.toNat * 4096 + e.toNat * 16 + f.toNat)) 0 1 = f.toNat := by
    rw [word_bits h 97 _ 0 1 (by decide)]; simp only [bits] <;> omega
  rw [decodeNat_of hg, decodeMajor_61 (word_major h 97 _ (by decide) hb)]
  simp only [decode61, b0, b1, word_hdr h 97 _ (by decide) hb, fld_of b2, fld_of b3, fld_of b4, fld_of b5, res0, beq_self_eq_true, Bool.and_self, if_true]

theorem WordRoundTrip.afill (h : Hdr) (x : BitVec 4) (e : BitVec 4) (f : BitVec 1) : WordRoundTrip.Statement (.afill h x e f) := by
  intro n he
  have i_x := x.isLt
  have i_e := e.isLt
  have i_f := f.isLt
  have he : some (h.enc + 1644167168 + x.toNat * 65536 + e.toNat * 16 + f.toNat) = some n := he
  injection he with he
  have hb : 0 + x.toNat * 65536 + e.toNat * 16 + f.toNat < 1048576 := by omega
  obtain rfl : n = h.enc + 98 * 16777216 + (0 + x.toNat * 65536 + e.toNat * 16 + f.toNat) := by omega
  refine ⟨word_lt h 98 _ (by decide) hb, fun hg => ?_⟩
  have b0 : bits (h.enc + 98 * 16777216 + (0 + x.toNat * 65536 + e.toNat * 16 + f.toNat)) 1 3 = 0 := by
    rw [word_bits h 98 _ 1 3 (by decide)]; simp only [bits] <;> omega
  have b1 : bits (h.enc + 98 * 16777216 + (0 + x.toNat * 65536 + e.toNat * 16 + f.toNat)) 8 8 = 0 := by
    rw [word_bits h 98 _ 8 8 (by decide)]; simp only [bits] <;> omega
  have b2 : bits (h.enc + 98 * 16777216 + (0 + x.toNat * 65536 + e.toNat * 16 + f.toNat)) 16 4 = x.toNat := by
    rw [word_bits h 98 _ 16 4 (by decide)]; simp only [bits] <;> omega
  have b3 : bits (h.enc + 98 * 16777216 + (0 + x.toNat * 65536 + e.toNat * 16 + f.toNat)) 4 4 = e.toNat := by
    rw [word_bits h 98 _ 4 4 (by decide)]; simp only [bits] <;> omega
  have b4 : bits (h.enc + 98 * 16777216 + (0 + x.toNat * 65536 + e.toNat * 16 + f.toNat)) 0 1 = f.toNat := by
    rw [word_bits h 98 _ 0 1 (by decide)]; simp only [bits] <;> omega
  rw [decodeNat_of hg, decodeMajor_62 (word_major h 98 _ (by decide) hb)]
  simp only [decode62, b0, b1, word_hdr h 98 _ (by decide) hb, fld_of b2, fld_of b3, fld_of b4, res0, beq_self_eq_true, Bool.and_self, if_true]

theorem WordRoundTrip.agthr (h : Hdr) (x : BitVec 4) (y : BitVec 4) (z : BitVec 4) (e : BitVec 4) (f : BitVec 1) : WordRoundTrip.Statement (.agthr h x y z e f) := by
  intro n he
  have i_x := x.isLt
  have i_y := y.isLt
  have i_z := z.isLt
  have i_e := e.isLt
  have i_f := f.isLt
  have he : some (h.enc + 1660944384 + x.toNat * 65536 + y.toNat * 4096 + z.toNat * 256 + e.toNat * 16 + f.toNat) = some n := he
  injection he with he
  have hb : 0 + x.toNat * 65536 + y.toNat * 4096 + z.toNat * 256 + e.toNat * 16 + f.toNat < 1048576 := by omega
  obtain rfl : n = h.enc + 99 * 16777216 + (0 + x.toNat * 65536 + y.toNat * 4096 + z.toNat * 256 + e.toNat * 16 + f.toNat) := by omega
  refine ⟨word_lt h 99 _ (by decide) hb, fun hg => ?_⟩
  have b0 : bits (h.enc + 99 * 16777216 + (0 + x.toNat * 65536 + y.toNat * 4096 + z.toNat * 256 + e.toNat * 16 + f.toNat)) 1 3 = 0 := by
    rw [word_bits h 99 _ 1 3 (by decide)]; simp only [bits] <;> omega
  have b1 : bits (h.enc + 99 * 16777216 + (0 + x.toNat * 65536 + y.toNat * 4096 + z.toNat * 256 + e.toNat * 16 + f.toNat)) 16 4 = x.toNat := by
    rw [word_bits h 99 _ 16 4 (by decide)]; simp only [bits] <;> omega
  have b2 : bits (h.enc + 99 * 16777216 + (0 + x.toNat * 65536 + y.toNat * 4096 + z.toNat * 256 + e.toNat * 16 + f.toNat)) 12 4 = y.toNat := by
    rw [word_bits h 99 _ 12 4 (by decide)]; simp only [bits] <;> omega
  have b3 : bits (h.enc + 99 * 16777216 + (0 + x.toNat * 65536 + y.toNat * 4096 + z.toNat * 256 + e.toNat * 16 + f.toNat)) 8 4 = z.toNat := by
    rw [word_bits h 99 _ 8 4 (by decide)]; simp only [bits] <;> omega
  have b4 : bits (h.enc + 99 * 16777216 + (0 + x.toNat * 65536 + y.toNat * 4096 + z.toNat * 256 + e.toNat * 16 + f.toNat)) 4 4 = e.toNat := by
    rw [word_bits h 99 _ 4 4 (by decide)]; simp only [bits] <;> omega
  have b5 : bits (h.enc + 99 * 16777216 + (0 + x.toNat * 65536 + y.toNat * 4096 + z.toNat * 256 + e.toNat * 16 + f.toNat)) 0 1 = f.toNat := by
    rw [word_bits h 99 _ 0 1 (by decide)]; simp only [bits] <;> omega
  rw [decodeNat_of hg, decodeMajor_63 (word_major h 99 _ (by decide) hb)]
  simp only [decode63, b0, word_hdr h 99 _ (by decide) hb, fld_of b1, fld_of b2, fld_of b3, fld_of b4, fld_of b5, res0, beq_self_eq_true, if_true]

theorem WordRoundTrip.chain (h : Hdr) (a : BitVec 6) (b : BitVec 6) : WordRoundTrip.Statement (.chain h a b) := by
  intro n he
  have i_a := a.isLt
  have i_b := b.isLt
  have he : some (h.enc + 1677721600 + a.toNat * 256 + b.toNat * 4) = some n := he
  injection he with he
  have hb : 0 + a.toNat * 256 + b.toNat * 4 < 1048576 := by omega
  obtain rfl : n = h.enc + 100 * 16777216 + (0 + a.toNat * 256 + b.toNat * 4) := by omega
  refine ⟨word_lt h 100 _ (by decide) hb, fun hg => ?_⟩
  have b99 : bits (h.enc + 100 * 16777216 + (0 + a.toNat * 256 + b.toNat * 4)) 0 2 = 0 := by
    rw [word_bits h 100 _ 0 2 (by decide)]; simp only [bits] <;> omega
  have b0 : bits (h.enc + 100 * 16777216 + (0 + a.toNat * 256 + b.toNat * 4)) 14 6 = 0 := by
    rw [word_bits h 100 _ 14 6 (by decide)]; simp only [bits] <;> omega
  have b1 : bits (h.enc + 100 * 16777216 + (0 + a.toNat * 256 + b.toNat * 4)) 8 6 = a.toNat := by
    rw [word_bits h 100 _ 8 6 (by decide)]; simp only [bits] <;> omega
  have b2 : bits (h.enc + 100 * 16777216 + (0 + a.toNat * 256 + b.toNat * 4)) 2 6 = b.toNat := by
    rw [word_bits h 100 _ 2 6 (by decide)]; simp only [bits] <;> omega
  rw [decodeNat_of hg, decodeMajor_64 (word_major h 100 _ (by decide) hb)]
  simp only [decode64, b99, b0, word_hdr h 100 _ (by decide) hb, fld_of b1, fld_of b2, res0, beq_self_eq_true, if_true]

theorem WordRoundTrip.balloc (h : Hdr) (d : BitVec 6) (a : BitVec 6) : WordRoundTrip.Statement (.balloc h d a) := by
  intro n he
  have i_d := d.isLt
  have i_a := a.isLt
  have he : some (h.enc + 1744830464 + d.toNat * 16384 + a.toNat * 256) = some n := he
  injection he with he
  have hb : 0 + d.toNat * 16384 + a.toNat * 256 < 1048576 := by omega
  obtain rfl : n = h.enc + 104 * 16777216 + (0 + d.toNat * 16384 + a.toNat * 256) := by omega
  refine ⟨word_lt h 104 _ (by decide) hb, fun hg => ?_⟩
  have b99 : bits (h.enc + 104 * 16777216 + (0 + d.toNat * 16384 + a.toNat * 256)) 0 2 = 0 := by
    rw [word_bits h 104 _ 0 2 (by decide)]; simp only [bits] <;> omega
  have b0 : bits (h.enc + 104 * 16777216 + (0 + d.toNat * 16384 + a.toNat * 256)) 2 6 = 0 := by
    rw [word_bits h 104 _ 2 6 (by decide)]; simp only [bits] <;> omega
  have b1 : bits (h.enc + 104 * 16777216 + (0 + d.toNat * 16384 + a.toNat * 256)) 14 6 = d.toNat := by
    rw [word_bits h 104 _ 14 6 (by decide)]; simp only [bits] <;> omega
  have b2 : bits (h.enc + 104 * 16777216 + (0 + d.toNat * 16384 + a.toNat * 256)) 8 6 = a.toNat := by
    rw [word_bits h 104 _ 8 6 (by decide)]; simp only [bits] <;> omega
  rw [decodeNat_of hg, decodeMajor_68 (word_major h 104 _ (by decide) hb)]
  simp only [decode68, b99, b0, word_hdr h 104 _ (by decide) hb, fld_of b1, fld_of b2, res0, beq_self_eq_true, if_true]

theorem WordRoundTrip.bfree (h : Hdr) (a : BitVec 6) : WordRoundTrip.Statement (.bfree h a) := by
  intro n he
  have i_a := a.isLt
  have he : some (h.enc + 1744830465 + a.toNat * 256) = some n := he
  injection he with he
  have hb : 1 + a.toNat * 256 < 1048576 := by omega
  obtain rfl : n = h.enc + 104 * 16777216 + (1 + a.toNat * 256) := by omega
  refine ⟨word_lt h 104 _ (by decide) hb, fun hg => ?_⟩
  have b99 : bits (h.enc + 104 * 16777216 + (1 + a.toNat * 256)) 0 2 = 1 := by
    rw [word_bits h 104 _ 0 2 (by decide)]; simp only [bits] <;> omega
  have b0 : bits (h.enc + 104 * 16777216 + (1 + a.toNat * 256)) 2 6 = 0 := by
    rw [word_bits h 104 _ 2 6 (by decide)]; simp only [bits] <;> omega
  have b1 : bits (h.enc + 104 * 16777216 + (1 + a.toNat * 256)) 14 6 = 0 := by
    rw [word_bits h 104 _ 14 6 (by decide)]; simp only [bits] <;> omega
  have b2 : bits (h.enc + 104 * 16777216 + (1 + a.toNat * 256)) 8 6 = a.toNat := by
    rw [word_bits h 104 _ 8 6 (by decide)]; simp only [bits] <;> omega
  rw [decodeNat_of hg, decodeMajor_68 (word_major h 104 _ (by decide) hb)]
  simp only [decode68, b99, b0, b1, word_hdr h 104 _ (by decide) hb, fld_of b2, res0, beq_self_eq_true, Bool.and_self, if_true]

theorem WordRoundTrip.bmode (h : Hdr) (a : BitVec 6) (b : BitVec 6) : WordRoundTrip.Statement (.bmode h a b) := by
  intro n he
  have i_a := a.isLt
  have i_b := b.isLt
  have he : some (h.enc + 1744830466 + a.toNat * 256 + b.toNat * 4) = some n := he
  injection he with he
  have hb : 2 + a.toNat * 256 + b.toNat * 4 < 1048576 := by omega
  obtain rfl : n = h.enc + 104 * 16777216 + (2 + a.toNat * 256 + b.toNat * 4) := by omega
  refine ⟨word_lt h 104 _ (by decide) hb, fun hg => ?_⟩
  have b99 : bits (h.enc + 104 * 16777216 + (2 + a.toNat * 256 + b.toNat * 4)) 0 2 = 2 := by
    rw [word_bits h 104 _ 0 2 (by decide)]; simp only [bits] <;> omega
  have b0 : bits (h.enc + 104 * 16777216 + (2 + a.toNat * 256 + b.toNat * 4)) 14 6 = 0 := by
    rw [word_bits h 104 _ 14 6 (by decide)]; simp only [bits] <;> omega
  have b1 : bits (h.enc + 104 * 16777216 + (2 + a.toNat * 256 + b.toNat * 4)) 8 6 = a.toNat := by
    rw [word_bits h 104 _ 8 6 (by decide)]; simp only [bits] <;> omega
  have b2 : bits (h.enc + 104 * 16777216 + (2 + a.toNat * 256 + b.toNat * 4)) 2 6 = b.toNat := by
    rw [word_bits h 104 _ 2 6 (by decide)]; simp only [bits] <;> omega
  rw [decodeNat_of hg, decodeMajor_68 (word_major h 104 _ (by decide) hb)]
  simp only [decode68, b99, b0, word_hdr h 104 _ (by decide) hb, fld_of b1, fld_of b2, res0, beq_self_eq_true, if_true]

theorem WordRoundTrip.bstat (h : Hdr) (d : BitVec 6) (a : BitVec 6) : WordRoundTrip.Statement (.bstat h d a) := by
  intro n he
  have i_d := d.isLt
  have i_a := a.isLt
  have he : some (h.enc + 1744830467 + d.toNat * 16384 + a.toNat * 256) = some n := he
  injection he with he
  have hb : 3 + d.toNat * 16384 + a.toNat * 256 < 1048576 := by omega
  obtain rfl : n = h.enc + 104 * 16777216 + (3 + d.toNat * 16384 + a.toNat * 256) := by omega
  refine ⟨word_lt h 104 _ (by decide) hb, fun hg => ?_⟩
  have b99 : bits (h.enc + 104 * 16777216 + (3 + d.toNat * 16384 + a.toNat * 256)) 0 2 = 3 := by
    rw [word_bits h 104 _ 0 2 (by decide)]; simp only [bits] <;> omega
  have b0 : bits (h.enc + 104 * 16777216 + (3 + d.toNat * 16384 + a.toNat * 256)) 2 6 = 0 := by
    rw [word_bits h 104 _ 2 6 (by decide)]; simp only [bits] <;> omega
  have b1 : bits (h.enc + 104 * 16777216 + (3 + d.toNat * 16384 + a.toNat * 256)) 14 6 = d.toNat := by
    rw [word_bits h 104 _ 14 6 (by decide)]; simp only [bits] <;> omega
  have b2 : bits (h.enc + 104 * 16777216 + (3 + d.toNat * 16384 + a.toNat * 256)) 8 6 = a.toNat := by
    rw [word_bits h 104 _ 8 6 (by decide)]; simp only [bits] <;> omega
  rw [decodeNat_of hg, decodeMajor_68 (word_major h 104 _ (by decide) hb)]
  simp only [decode68, b99, b0, word_hdr h 104 _ (by decide) hb, fld_of b1, fld_of b2, res0, beq_self_eq_true, if_true]

theorem WordRoundTrip.mloop (h : Hdr) (x : BitVec 4) (y : BitVec 4) (z : BitVec 4) (e : BitVec 4) (f : BitVec 4) : WordRoundTrip.Statement (.mloop h x y z e f) := by
  intro n he
  have i_x := x.isLt
  have i_y := y.isLt
  have i_z := z.isLt
  have i_e := e.isLt
  have i_f := f.isLt
  have he : some (h.enc + 1761607680 + x.toNat * 65536 + y.toNat * 4096 + z.toNat * 256 + e.toNat * 16 + f.toNat) = some n := he
  injection he with he
  have hb : 0 + x.toNat * 65536 + y.toNat * 4096 + z.toNat * 256 + e.toNat * 16 + f.toNat < 1048576 := by omega
  obtain rfl : n = h.enc + 105 * 16777216 + (0 + x.toNat * 65536 + y.toNat * 4096 + z.toNat * 256 + e.toNat * 16 + f.toNat) := by omega
  refine ⟨word_lt h 105 _ (by decide) hb, fun hg => ?_⟩
  have b0 : bits (h.enc + 105 * 16777216 + (0 + x.toNat * 65536 + y.toNat * 4096 + z.toNat * 256 + e.toNat * 16 + f.toNat)) 16 4 = x.toNat := by
    rw [word_bits h 105 _ 16 4 (by decide)]; simp only [bits] <;> omega
  have b1 : bits (h.enc + 105 * 16777216 + (0 + x.toNat * 65536 + y.toNat * 4096 + z.toNat * 256 + e.toNat * 16 + f.toNat)) 12 4 = y.toNat := by
    rw [word_bits h 105 _ 12 4 (by decide)]; simp only [bits] <;> omega
  have b2 : bits (h.enc + 105 * 16777216 + (0 + x.toNat * 65536 + y.toNat * 4096 + z.toNat * 256 + e.toNat * 16 + f.toNat)) 8 4 = z.toNat := by
    rw [word_bits h 105 _ 8 4 (by decide)]; simp only [bits] <;> omega
  have b3 : bits (h.enc + 105 * 16777216 + (0 + x.toNat * 65536 + y.toNat * 4096 + z.toNat * 256 + e.toNat * 16 + f.toNat)) 4 4 = e.toNat := by
    rw [word_bits h 105 _ 4 4 (by decide)]; simp only [bits] <;> omega
  have b4 : bits (h.enc + 105 * 16777216 + (0 + x.toNat * 65536 + y.toNat * 4096 + z.toNat * 256 + e.toNat * 16 + f.toNat)) 0 4 = f.toNat := by
    rw [word_bits h 105 _ 0 4 (by decide)]; simp only [bits] <;> omega
  rw [decodeNat_of hg, decodeMajor_69 (word_major h 105 _ (by decide) hb)]
  simp only [decode69, word_hdr h 105 _ (by decide) hb, fld_of b0, fld_of b1, fld_of b2, fld_of b3, fld_of b4]

theorem WordRoundTrip.accrd (h : Hdr) (d : BitVec 6) (a : BitVec 6) : WordRoundTrip.Statement (.accrd h d a) := by
  intro n he
  have i_d := d.isLt
  have i_a := a.isLt
  have he : some (h.enc + 1778384896 + d.toNat * 16384 + a.toNat * 256) = some n := he
  injection he with he
  have hb : 0 + d.toNat * 16384 + a.toNat * 256 < 1048576 := by omega
  obtain rfl : n = h.enc + 106 * 16777216 + (0 + d.toNat * 16384 + a.toNat * 256) := by omega
  refine ⟨word_lt h 106 _ (by decide) hb, fun hg => ?_⟩
  have b99 : bits (h.enc + 106 * 16777216 + (0 + d.toNat * 16384 + a.toNat * 256)) 0 2 = 0 := by
    rw [word_bits h 106 _ 0 2 (by decide)]; simp only [bits] <;> omega
  have b0 : bits (h.enc + 106 * 16777216 + (0 + d.toNat * 16384 + a.toNat * 256)) 2 6 = 0 := by
    rw [word_bits h 106 _ 2 6 (by decide)]; simp only [bits] <;> omega
  have b1 : bits (h.enc + 106 * 16777216 + (0 + d.toNat * 16384 + a.toNat * 256)) 14 6 = d.toNat := by
    rw [word_bits h 106 _ 14 6 (by decide)]; simp only [bits] <;> omega
  have b2 : bits (h.enc + 106 * 16777216 + (0 + d.toNat * 16384 + a.toNat * 256)) 8 6 = a.toNat := by
    rw [word_bits h 106 _ 8 6 (by decide)]; simp only [bits] <;> omega
  rw [decodeNat_of hg, decodeMajor_6A (word_major h 106 _ (by decide) hb)]
  simp only [decode6A, b99, b0, word_hdr h 106 _ (by decide) hb, fld_of b1, fld_of b2, res0, beq_self_eq_true, if_true]

theorem WordRoundTrip.accld (h : Hdr) (a : BitVec 6) (b : BitVec 6) : WordRoundTrip.Statement (.accld h a b) := by
  intro n he
  have i_a := a.isLt
  have i_b := b.isLt
  have he : some (h.enc + 1778384897 + a.toNat * 256 + b.toNat * 4) = some n := he
  injection he with he
  have hb : 1 + a.toNat * 256 + b.toNat * 4 < 1048576 := by omega
  obtain rfl : n = h.enc + 106 * 16777216 + (1 + a.toNat * 256 + b.toNat * 4) := by omega
  refine ⟨word_lt h 106 _ (by decide) hb, fun hg => ?_⟩
  have b99 : bits (h.enc + 106 * 16777216 + (1 + a.toNat * 256 + b.toNat * 4)) 0 2 = 1 := by
    rw [word_bits h 106 _ 0 2 (by decide)]; simp only [bits] <;> omega
  have b0 : bits (h.enc + 106 * 16777216 + (1 + a.toNat * 256 + b.toNat * 4)) 14 6 = 0 := by
    rw [word_bits h 106 _ 14 6 (by decide)]; simp only [bits] <;> omega
  have b1 : bits (h.enc + 106 * 16777216 + (1 + a.toNat * 256 + b.toNat * 4)) 8 6 = a.toNat := by
    rw [word_bits h 106 _ 8 6 (by decide)]; simp only [bits] <;> omega
  have b2 : bits (h.enc + 106 * 16777216 + (1 + a.toNat * 256 + b.toNat * 4)) 2 6 = b.toNat := by
    rw [word_bits h 106 _ 2 6 (by decide)]; simp only [bits] <;> omega
  rw [decodeNat_of hg, decodeMajor_6A (word_major h 106 _ (by decide) hb)]
  simp only [decode6A, b99, b0, word_hdr h 106 _ (by decide) hb, fld_of b1, fld_of b2, res0, beq_self_eq_true, if_true]

theorem WordRoundTrip.accclr (h : Hdr) (a : BitVec 6) : WordRoundTrip.Statement (.accclr h a) := by
  intro n he
  have i_a := a.isLt
  have he : some (h.enc + 1778384898 + a.toNat * 256) = some n := he
  injection he with he
  have hb : 2 + a.toNat * 256 < 1048576 := by omega
  obtain rfl : n = h.enc + 106 * 16777216 + (2 + a.toNat * 256) := by omega
  refine ⟨word_lt h 106 _ (by decide) hb, fun hg => ?_⟩
  have b99 : bits (h.enc + 106 * 16777216 + (2 + a.toNat * 256)) 0 2 = 2 := by
    rw [word_bits h 106 _ 0 2 (by decide)]; simp only [bits] <;> omega
  have b0 : bits (h.enc + 106 * 16777216 + (2 + a.toNat * 256)) 2 6 = 0 := by
    rw [word_bits h 106 _ 2 6 (by decide)]; simp only [bits] <;> omega
  have b1 : bits (h.enc + 106 * 16777216 + (2 + a.toNat * 256)) 14 6 = 0 := by
    rw [word_bits h 106 _ 14 6 (by decide)]; simp only [bits] <;> omega
  have b2 : bits (h.enc + 106 * 16777216 + (2 + a.toNat * 256)) 8 6 = a.toNat := by
    rw [word_bits h 106 _ 8 6 (by decide)]; simp only [bits] <;> omega
  rw [decodeNat_of hg, decodeMajor_6A (word_major h 106 _ (by decide) hb)]
  simp only [decode6A, b99, b0, b1, word_hdr h 106 _ (by decide) hb, fld_of b2, res0, beq_self_eq_true, Bool.and_self, if_true]

theorem WordRoundTrip.accst (h : Hdr) (x : BitVec 4) (y : BitVec 4) (e : BitVec 4) (f : BitVec 2) : WordRoundTrip.Statement (.accst h x y e f) := by
  intro n he
  have i_x := x.isLt
  have i_y := y.isLt
  have i_e := e.isLt
  have i_f := f.isLt
  have he : some (h.enc + 1795162112 + x.toNat * 65536 + y.toNat * 4096 + e.toNat * 16 + f.toNat) = some n := he
  injection he with he
  have hb : 0 + x.toNat * 65536 + y.toNat * 4096 + e.toNat * 16 + f.toNat < 1048576 := by omega
  obtain rfl : n = h.enc + 107 * 16777216 + (0 + x.toNat * 65536 + y.toNat * 4096 + e.toNat * 16 + f.toNat) := by omega
  refine ⟨word_lt h 107 _ (by decide) hb, fun hg => ?_⟩
  have b0 : bits (h.enc + 107 * 16777216 + (0 + x.toNat * 65536 + y.toNat * 4096 + e.toNat * 16 + f.toNat)) 2 2 = 0 := by
    rw [word_bits h 107 _ 2 2 (by decide)]; simp only [bits] <;> omega
  have b1 : bits (h.enc + 107 * 16777216 + (0 + x.toNat * 65536 + y.toNat * 4096 + e.toNat * 16 + f.toNat)) 8 4 = 0 := by
    rw [word_bits h 107 _ 8 4 (by decide)]; simp only [bits] <;> omega
  have b2 : bits (h.enc + 107 * 16777216 + (0 + x.toNat * 65536 + y.toNat * 4096 + e.toNat * 16 + f.toNat)) 16 4 = x.toNat := by
    rw [word_bits h 107 _ 16 4 (by decide)]; simp only [bits] <;> omega
  have b3 : bits (h.enc + 107 * 16777216 + (0 + x.toNat * 65536 + y.toNat * 4096 + e.toNat * 16 + f.toNat)) 12 4 = y.toNat := by
    rw [word_bits h 107 _ 12 4 (by decide)]; simp only [bits] <;> omega
  have b4 : bits (h.enc + 107 * 16777216 + (0 + x.toNat * 65536 + y.toNat * 4096 + e.toNat * 16 + f.toNat)) 4 4 = e.toNat := by
    rw [word_bits h 107 _ 4 4 (by decide)]; simp only [bits] <;> omega
  have b5 : bits (h.enc + 107 * 16777216 + (0 + x.toNat * 65536 + y.toNat * 4096 + e.toNat * 16 + f.toNat)) 0 2 = f.toNat := by
    rw [word_bits h 107 _ 0 2 (by decide)]; simp only [bits] <;> omega
  rw [decodeNat_of hg, decodeMajor_6B (word_major h 107 _ (by decide) hb)]
  simp only [decode6B, b0, b1, word_hdr h 107 _ (by decide) hb, fld_of b2, fld_of b3, fld_of b4, fld_of b5, res0, beq_self_eq_true, Bool.and_self, if_true]

theorem WordRoundTrip.bchk (h : Hdr) (a : BitVec 6) : WordRoundTrip.Statement (.bchk h a) := by
  intro n he
  have i_a := a.isLt
  have he : some (h.enc + 1811939328 + a.toNat * 256) = some n := he
  injection he with he
  have hb : 0 + a.toNat * 256 < 1048576 := by omega
  obtain rfl : n = h.enc + 108 * 16777216 + (0 + a.toNat * 256) := by omega
  refine ⟨word_lt h 108 _ (by decide) hb, fun hg => ?_⟩
  have b99 : bits (h.enc + 108 * 16777216 + (0 + a.toNat * 256)) 0 2 = 0 := by
    rw [word_bits h 108 _ 0 2 (by decide)]; simp only [bits] <;> omega
  have b0 : bits (h.enc + 108 * 16777216 + (0 + a.toNat * 256)) 2 6 = 0 := by
    rw [word_bits h 108 _ 2 6 (by decide)]; simp only [bits] <;> omega
  have b1 : bits (h.enc + 108 * 16777216 + (0 + a.toNat * 256)) 14 6 = 0 := by
    rw [word_bits h 108 _ 14 6 (by decide)]; simp only [bits] <;> omega
  have b2 : bits (h.enc + 108 * 16777216 + (0 + a.toNat * 256)) 8 6 = a.toNat := by
    rw [word_bits h 108 _ 8 6 (by decide)]; simp only [bits] <;> omega
  rw [decodeNat_of hg, decodeMajor_6C (word_major h 108 _ (by decide) hb)]
  simp only [decode6C, b99, b0, b1, word_hdr h 108 _ (by decide) hb, fld_of b2, res0, beq_self_eq_true, Bool.and_self, if_true]

theorem WordRoundTrip.rcopy (h : Hdr) (x : BitVec 4) (y : BitVec 4) (e : BitVec 4) : WordRoundTrip.Statement (.rcopy h x y e) := by
  intro n he
  have i_x := x.isLt
  have i_y := y.isLt
  have i_e := e.isLt
  have he : some (h.enc + 1879048192 + x.toNat * 65536 + y.toNat * 4096 + e.toNat * 16) = some n := he
  injection he with he
  have hb : 0 + x.toNat * 65536 + y.toNat * 4096 + e.toNat * 16 < 1048576 := by omega
  obtain rfl : n = h.enc + 112 * 16777216 + (0 + x.toNat * 65536 + y.toNat * 4096 + e.toNat * 16) := by omega
  refine ⟨word_lt h 112 _ (by decide) hb, fun hg => ?_⟩
  have b0 : bits (h.enc + 112 * 16777216 + (0 + x.toNat * 65536 + y.toNat * 4096 + e.toNat * 16)) 0 4 = 0 := by
    rw [word_bits h 112 _ 0 4 (by decide)]; simp only [bits] <;> omega
  have b1 : bits (h.enc + 112 * 16777216 + (0 + x.toNat * 65536 + y.toNat * 4096 + e.toNat * 16)) 8 4 = 0 := by
    rw [word_bits h 112 _ 8 4 (by decide)]; simp only [bits] <;> omega
  have b2 : bits (h.enc + 112 * 16777216 + (0 + x.toNat * 65536 + y.toNat * 4096 + e.toNat * 16)) 16 4 = x.toNat := by
    rw [word_bits h 112 _ 16 4 (by decide)]; simp only [bits] <;> omega
  have b3 : bits (h.enc + 112 * 16777216 + (0 + x.toNat * 65536 + y.toNat * 4096 + e.toNat * 16)) 12 4 = y.toNat := by
    rw [word_bits h 112 _ 12 4 (by decide)]; simp only [bits] <;> omega
  have b4 : bits (h.enc + 112 * 16777216 + (0 + x.toNat * 65536 + y.toNat * 4096 + e.toNat * 16)) 4 4 = e.toNat := by
    rw [word_bits h 112 _ 4 4 (by decide)]; simp only [bits] <;> omega
  rw [decodeNat_of hg, decodeMajor_70 (word_major h 112 _ (by decide) hb)]
  simp only [decode70, b0, b1, word_hdr h 112 _ (by decide) hb, fld_of b2, fld_of b3, fld_of b4, res0, beq_self_eq_true, Bool.and_self, if_true]

theorem WordRoundTrip.rfill (h : Hdr) (x : BitVec 4) (e : BitVec 4) (f : BitVec 1) : WordRoundTrip.Statement (.rfill h x e f) := by
  intro n he
  have i_x := x.isLt
  have i_e := e.isLt
  have i_f := f.isLt
  have he : some (h.enc + 1895825408 + x.toNat * 65536 + e.toNat * 16 + f.toNat) = some n := he
  injection he with he
  have hb : 0 + x.toNat * 65536 + e.toNat * 16 + f.toNat < 1048576 := by omega
  obtain rfl : n = h.enc + 113 * 16777216 + (0 + x.toNat * 65536 + e.toNat * 16 + f.toNat) := by omega
  refine ⟨word_lt h 113 _ (by decide) hb, fun hg => ?_⟩
  have b99 : bits (h.enc + 113 * 16777216 + (0 + x.toNat * 65536 + e.toNat * 16 + f.toNat)) 0 4 = f.toNat := by
    rw [word_bits h 113 _ 0 4 (by decide)]; simp only [bits] <;> omega
  have b0 : bits (h.enc + 113 * 16777216 + (0 + x.toNat * 65536 + e.toNat * 16 + f.toNat)) 1 2 = 0 := by
    rw [word_bits h 113 _ 1 2 (by decide)]; simp only [bits] <;> omega
  have b1 : bits (h.enc + 113 * 16777216 + (0 + x.toNat * 65536 + e.toNat * 16 + f.toNat)) 8 8 = 0 := by
    rw [word_bits h 113 _ 8 8 (by decide)]; simp only [bits] <;> omega
  have b2 : bits (h.enc + 113 * 16777216 + (0 + x.toNat * 65536 + e.toNat * 16 + f.toNat)) 16 4 = x.toNat := by
    rw [word_bits h 113 _ 16 4 (by decide)]; simp only [bits] <;> omega
  have b3 : bits (h.enc + 113 * 16777216 + (0 + x.toNat * 65536 + e.toNat * 16 + f.toNat)) 4 4 = e.toNat := by
    rw [word_bits h 113 _ 4 4 (by decide)]; simp only [bits] <;> omega
  have b4 : bits (h.enc + 113 * 16777216 + (0 + x.toNat * 65536 + e.toNat * 16 + f.toNat)) 0 1 = f.toNat := by
    rw [word_bits h 113 _ 0 1 (by decide)]; simp only [bits] <;> omega
  rw [decodeNat_of hg, decodeMajor_71 (word_major h 113 _ (by decide) hb)]
  simp only [decode71_fill b99 (by omega), b0, b1, word_hdr h 113 _ (by decide) hb, fld_of b2, fld_of b3, fld_of b4, res0, beq_self_eq_true, Bool.and_self, if_true]

theorem WordRoundTrip.rbitAnd (h : Hdr) (x : BitVec 4) (y : BitVec 4) (z : BitVec 4) (e : BitVec 4) : WordRoundTrip.Statement (.rbitAnd h x y z e) := by
  intro n he
  have i_x := x.isLt
  have i_y := y.isLt
  have i_z := z.isLt
  have i_e := e.isLt
  have he : some (h.enc + 1895825416 + x.toNat * 65536 + y.toNat * 4096 + z.toNat * 256 + e.toNat * 16) = some n := he
  injection he with he
  have hb : 8 + x.toNat * 65536 + y.toNat * 4096 + z.toNat * 256 + e.toNat * 16 < 1048576 := by omega
  obtain rfl : n = h.enc + 113 * 16777216 + (8 + x.toNat * 65536 + y.toNat * 4096 + z.toNat * 256 + e.toNat * 16) := by omega
  refine ⟨word_lt h 113 _ (by decide) hb, fun hg => ?_⟩
  have b99 : bits (h.enc + 113 * 16777216 + (8 + x.toNat * 65536 + y.toNat * 4096 + z.toNat * 256 + e.toNat * 16)) 0 4 = 8 := by
    rw [word_bits h 113 _ 0 4 (by decide)]; simp only [bits] <;> omega
  have b0 : bits (h.enc + 113 * 16777216 + (8 + x.toNat * 65536 + y.toNat * 4096 + z.toNat * 256 + e.toNat * 16)) 16 4 = x.toNat := by
    rw [word_bits h 113 _ 16 4 (by decide)]; simp only [bits] <;> omega
  have b1 : bits (h.enc + 113 * 16777216 + (8 + x.toNat * 65536 + y.toNat * 4096 + z.toNat * 256 + e.toNat * 16)) 12 4 = y.toNat := by
    rw [word_bits h 113 _ 12 4 (by decide)]; simp only [bits] <;> omega
  have b2 : bits (h.enc + 113 * 16777216 + (8 + x.toNat * 65536 + y.toNat * 4096 + z.toNat * 256 + e.toNat * 16)) 8 4 = z.toNat := by
    rw [word_bits h 113 _ 8 4 (by decide)]; simp only [bits] <;> omega
  have b3 : bits (h.enc + 113 * 16777216 + (8 + x.toNat * 65536 + y.toNat * 4096 + z.toNat * 256 + e.toNat * 16)) 4 4 = e.toNat := by
    rw [word_bits h 113 _ 4 4 (by decide)]; simp only [bits] <;> omega
  rw [decodeNat_of hg, decodeMajor_71 (word_major h 113 _ (by decide) hb)]
  simp only [decode71, b99, word_hdr h 113 _ (by decide) hb, fld_of b0, fld_of b1, fld_of b2, fld_of b3]

theorem WordRoundTrip.rbitOr (h : Hdr) (x : BitVec 4) (y : BitVec 4) (z : BitVec 4) (e : BitVec 4) : WordRoundTrip.Statement (.rbitOr h x y z e) := by
  intro n he
  have i_x := x.isLt
  have i_y := y.isLt
  have i_z := z.isLt
  have i_e := e.isLt
  have he : some (h.enc + 1895825417 + x.toNat * 65536 + y.toNat * 4096 + z.toNat * 256 + e.toNat * 16) = some n := he
  injection he with he
  have hb : 9 + x.toNat * 65536 + y.toNat * 4096 + z.toNat * 256 + e.toNat * 16 < 1048576 := by omega
  obtain rfl : n = h.enc + 113 * 16777216 + (9 + x.toNat * 65536 + y.toNat * 4096 + z.toNat * 256 + e.toNat * 16) := by omega
  refine ⟨word_lt h 113 _ (by decide) hb, fun hg => ?_⟩
  have b99 : bits (h.enc + 113 * 16777216 + (9 + x.toNat * 65536 + y.toNat * 4096 + z.toNat * 256 + e.toNat * 16)) 0 4 = 9 := by
    rw [word_bits h 113 _ 0 4 (by decide)]; simp only [bits] <;> omega
  have b0 : bits (h.enc + 113 * 16777216 + (9 + x.toNat * 65536 + y.toNat * 4096 + z.toNat * 256 + e.toNat * 16)) 16 4 = x.toNat := by
    rw [word_bits h 113 _ 16 4 (by decide)]; simp only [bits] <;> omega
  have b1 : bits (h.enc + 113 * 16777216 + (9 + x.toNat * 65536 + y.toNat * 4096 + z.toNat * 256 + e.toNat * 16)) 12 4 = y.toNat := by
    rw [word_bits h 113 _ 12 4 (by decide)]; simp only [bits] <;> omega
  have b2 : bits (h.enc + 113 * 16777216 + (9 + x.toNat * 65536 + y.toNat * 4096 + z.toNat * 256 + e.toNat * 16)) 8 4 = z.toNat := by
    rw [word_bits h 113 _ 8 4 (by decide)]; simp only [bits] <;> omega
  have b3 : bits (h.enc + 113 * 16777216 + (9 + x.toNat * 65536 + y.toNat * 4096 + z.toNat * 256 + e.toNat * 16)) 4 4 = e.toNat := by
    rw [word_bits h 113 _ 4 4 (by decide)]; simp only [bits] <;> omega
  rw [decodeNat_of hg, decodeMajor_71 (word_major h 113 _ (by decide) hb)]
  simp only [decode71, b99, word_hdr h 113 _ (by decide) hb, fld_of b0, fld_of b1, fld_of b2, fld_of b3]

theorem WordRoundTrip.rbitMaj3 (h : Hdr) (x : BitVec 4) (y : BitVec 4) (z : BitVec 4) (e : BitVec 4) : WordRoundTrip.Statement (.rbitMaj3 h x y z e) := by
  intro n he
  have i_x := x.isLt
  have i_y := y.isLt
  have i_z := z.isLt
  have i_e := e.isLt
  have he : some (h.enc + 1895825418 + x.toNat * 65536 + y.toNat * 4096 + z.toNat * 256 + e.toNat * 16) = some n := he
  injection he with he
  have hb : 10 + x.toNat * 65536 + y.toNat * 4096 + z.toNat * 256 + e.toNat * 16 < 1048576 := by omega
  obtain rfl : n = h.enc + 113 * 16777216 + (10 + x.toNat * 65536 + y.toNat * 4096 + z.toNat * 256 + e.toNat * 16) := by omega
  refine ⟨word_lt h 113 _ (by decide) hb, fun hg => ?_⟩
  have b99 : bits (h.enc + 113 * 16777216 + (10 + x.toNat * 65536 + y.toNat * 4096 + z.toNat * 256 + e.toNat * 16)) 0 4 = 10 := by
    rw [word_bits h 113 _ 0 4 (by decide)]; simp only [bits] <;> omega
  have b0 : bits (h.enc + 113 * 16777216 + (10 + x.toNat * 65536 + y.toNat * 4096 + z.toNat * 256 + e.toNat * 16)) 16 4 = x.toNat := by
    rw [word_bits h 113 _ 16 4 (by decide)]; simp only [bits] <;> omega
  have b1 : bits (h.enc + 113 * 16777216 + (10 + x.toNat * 65536 + y.toNat * 4096 + z.toNat * 256 + e.toNat * 16)) 12 4 = y.toNat := by
    rw [word_bits h 113 _ 12 4 (by decide)]; simp only [bits] <;> omega
  have b2 : bits (h.enc + 113 * 16777216 + (10 + x.toNat * 65536 + y.toNat * 4096 + z.toNat * 256 + e.toNat * 16)) 8 4 = z.toNat := by
    rw [word_bits h 113 _ 8 4 (by decide)]; simp only [bits] <;> omega
  have b3 : bits (h.enc + 113 * 16777216 + (10 + x.toNat * 65536 + y.toNat * 4096 + z.toNat * 256 + e.toNat * 16)) 4 4 = e.toNat := by
    rw [word_bits h 113 _ 4 4 (by decide)]; simp only [bits] <;> omega
  rw [decodeNat_of hg, decodeMajor_71 (word_major h 113 _ (by decide) hb)]
  simp only [decode71, b99, word_hdr h 113 _ (by decide) hb, fld_of b0, fld_of b1, fld_of b2, fld_of b3]

theorem WordRoundTrip.rbitNot (h : Hdr) (x : BitVec 4) (y : BitVec 4) (e : BitVec 4) : WordRoundTrip.Statement (.rbitNot h x y e) := by
  intro n he
  have i_x := x.isLt
  have i_y := y.isLt
  have i_e := e.isLt
  have he : some (h.enc + 1895825419 + x.toNat * 65536 + y.toNat * 4096 + e.toNat * 16) = some n := he
  injection he with he
  have hb : 11 + x.toNat * 65536 + y.toNat * 4096 + e.toNat * 16 < 1048576 := by omega
  obtain rfl : n = h.enc + 113 * 16777216 + (11 + x.toNat * 65536 + y.toNat * 4096 + e.toNat * 16) := by omega
  refine ⟨word_lt h 113 _ (by decide) hb, fun hg => ?_⟩
  have b99 : bits (h.enc + 113 * 16777216 + (11 + x.toNat * 65536 + y.toNat * 4096 + e.toNat * 16)) 0 4 = 11 := by
    rw [word_bits h 113 _ 0 4 (by decide)]; simp only [bits] <;> omega
  have b0 : bits (h.enc + 113 * 16777216 + (11 + x.toNat * 65536 + y.toNat * 4096 + e.toNat * 16)) 8 4 = 0 := by
    rw [word_bits h 113 _ 8 4 (by decide)]; simp only [bits] <;> omega
  have b1 : bits (h.enc + 113 * 16777216 + (11 + x.toNat * 65536 + y.toNat * 4096 + e.toNat * 16)) 16 4 = x.toNat := by
    rw [word_bits h 113 _ 16 4 (by decide)]; simp only [bits] <;> omega
  have b2 : bits (h.enc + 113 * 16777216 + (11 + x.toNat * 65536 + y.toNat * 4096 + e.toNat * 16)) 12 4 = y.toNat := by
    rw [word_bits h 113 _ 12 4 (by decide)]; simp only [bits] <;> omega
  have b3 : bits (h.enc + 113 * 16777216 + (11 + x.toNat * 65536 + y.toNat * 4096 + e.toNat * 16)) 4 4 = e.toNat := by
    rw [word_bits h 113 _ 4 4 (by decide)]; simp only [bits] <;> omega
  rw [decodeNat_of hg, decodeMajor_71 (word_major h 113 _ (by decide) hb)]
  simp only [decode71, b99, b0, word_hdr h 113 _ (by decide) hb, fld_of b1, fld_of b2, fld_of b3, res0, beq_self_eq_true, if_true]

theorem WordRoundTrip.rbitXor (h : Hdr) (x : BitVec 4) (y : BitVec 4) (z : BitVec 4) (e : BitVec 4) : WordRoundTrip.Statement (.rbitXor h x y z e) := by
  intro n he
  have i_x := x.isLt
  have i_y := y.isLt
  have i_z := z.isLt
  have i_e := e.isLt
  have he : some (h.enc + 1895825420 + x.toNat * 65536 + y.toNat * 4096 + z.toNat * 256 + e.toNat * 16) = some n := he
  injection he with he
  have hb : 12 + x.toNat * 65536 + y.toNat * 4096 + z.toNat * 256 + e.toNat * 16 < 1048576 := by omega
  obtain rfl : n = h.enc + 113 * 16777216 + (12 + x.toNat * 65536 + y.toNat * 4096 + z.toNat * 256 + e.toNat * 16) := by omega
  refine ⟨word_lt h 113 _ (by decide) hb, fun hg => ?_⟩
  have b99 : bits (h.enc + 113 * 16777216 + (12 + x.toNat * 65536 + y.toNat * 4096 + z.toNat * 256 + e.toNat * 16)) 0 4 = 12 := by
    rw [word_bits h 113 _ 0 4 (by decide)]; simp only [bits] <;> omega
  have b0 : bits (h.enc + 113 * 16777216 + (12 + x.toNat * 65536 + y.toNat * 4096 + z.toNat * 256 + e.toNat * 16)) 16 4 = x.toNat := by
    rw [word_bits h 113 _ 16 4 (by decide)]; simp only [bits] <;> omega
  have b1 : bits (h.enc + 113 * 16777216 + (12 + x.toNat * 65536 + y.toNat * 4096 + z.toNat * 256 + e.toNat * 16)) 12 4 = y.toNat := by
    rw [word_bits h 113 _ 12 4 (by decide)]; simp only [bits] <;> omega
  have b2 : bits (h.enc + 113 * 16777216 + (12 + x.toNat * 65536 + y.toNat * 4096 + z.toNat * 256 + e.toNat * 16)) 8 4 = z.toNat := by
    rw [word_bits h 113 _ 8 4 (by decide)]; simp only [bits] <;> omega
  have b3 : bits (h.enc + 113 * 16777216 + (12 + x.toNat * 65536 + y.toNat * 4096 + z.toNat * 256 + e.toNat * 16)) 4 4 = e.toNat := by
    rw [word_bits h 113 _ 4 4 (by decide)]; simp only [bits] <;> omega
  rw [decodeNat_of hg, decodeMajor_71 (word_major h 113 _ (by decide) hb)]
  simp only [decode71, b99, word_hdr h 113 _ (by decide) hb, fld_of b0, fld_of b1, fld_of b2, fld_of b3]

theorem WordRoundTrip.nmx (h : Hdr) (x : BitVec 4) (y : BitVec 4) (z : BitVec 4) (e : BitVec 4) : WordRoundTrip.Statement (.nmx h x y z e) := by
  intro n he
  have i_x := x.isLt
  have i_y := y.isLt
  have i_z := z.isLt
  have i_e := e.isLt
  have he : some (h.enc + 1912602624 + x.toNat * 65536 + y.toNat * 4096 + z.toNat * 256 + e.toNat * 16) = some n := he
  injection he with he
  have hb : 0 + x.toNat * 65536 + y.toNat * 4096 + z.toNat * 256 + e.toNat * 16 < 1048576 := by omega
  obtain rfl : n = h.enc + 114 * 16777216 + (0 + x.toNat * 65536 + y.toNat * 4096 + z.toNat * 256 + e.toNat * 16) := by omega
  refine ⟨word_lt h 114 _ (by decide) hb, fun hg => ?_⟩
  have b0 : bits (h.enc + 114 * 16777216 + (0 + x.toNat * 65536 + y.toNat * 4096 + z.toNat * 256 + e.toNat * 16)) 0 4 = 0 := by
    rw [word_bits h 114 _ 0 4 (by decide)]; simp only [bits] <;> omega
  have b1 : bits (h.enc + 114 * 16777216 + (0 + x.toNat * 65536 + y.toNat * 4096 + z.toNat * 256 + e.toNat * 16)) 16 4 = x.toNat := by
    rw [word_bits h 114 _ 16 4 (by decide)]; simp only [bits] <;> omega
  have b2 : bits (h.enc + 114 * 16777216 + (0 + x.toNat * 65536 + y.toNat * 4096 + z.toNat * 256 + e.toNat * 16)) 12 4 = y.toNat := by
    rw [word_bits h 114 _ 12 4 (by decide)]; simp only [bits] <;> omega
  have b3 : bits (h.enc + 114 * 16777216 + (0 + x.toNat * 65536 + y.toNat * 4096 + z.toNat * 256 + e.toNat * 16)) 8 4 = z.toNat := by
    rw [word_bits h 114 _ 8 4 (by decide)]; simp only [bits] <;> omega
  have b4 : bits (h.enc + 114 * 16777216 + (0 + x.toNat * 65536 + y.toNat * 4096 + z.toNat * 256 + e.toNat * 16)) 4 4 = e.toNat := by
    rw [word_bits h 114 _ 4 4 (by decide)]; simp only [bits] <;> omega
  rw [decodeNat_of hg, decodeMajor_72 (word_major h 114 _ (by decide) hb)]
  simp only [decode72, b0, word_hdr h 114 _ (by decide) hb, fld_of b1, fld_of b2, fld_of b3, fld_of b4, res0, beq_self_eq_true, if_true]

theorem WordRoundTrip.nseg (h : Hdr) (x : BitVec 4) (y : BitVec 4) (z : BitVec 4) (e : BitVec 4) (f : BitVec 1) (m : BitVec 2) : WordRoundTrip.Statement (.nseg h x y z e f m) := by
  intro n he
  have i_x := x.isLt
  have i_y := y.isLt
  have i_z := z.isLt
  have i_e := e.isLt
  have i_f := f.isLt
  have i_m := m.isLt
  have he : some (h.enc + 1929379840 + x.toNat * 65536 + y.toNat * 4096 + z.toNat * 256 + e.toNat * 16 + f.toNat * 4 + m.toNat) = some n := he
  injection he with he
  have hb : 0 + x.toNat * 65536 + y.toNat * 4096 + z.toNat * 256 + e.toNat * 16 + f.toNat * 4 + m.toNat < 1048576 := by omega
  obtain rfl : n = h.enc + 115 * 16777216 + (0 + x.toNat * 65536 + y.toNat * 4096 + z.toNat * 256 + e.toNat * 16 + f.toNat * 4 + m.toNat) := by omega
  refine ⟨word_lt h 115 _ (by decide) hb, fun hg => ?_⟩
  have b0 : bits (h.enc + 115 * 16777216 + (0 + x.toNat * 65536 + y.toNat * 4096 + z.toNat * 256 + e.toNat * 16 + f.toNat * 4 + m.toNat)) 3 1 = 0 := by
    rw [word_bits h 115 _ 3 1 (by decide)]; simp only [bits] <;> omega
  have b1 : bits (h.enc + 115 * 16777216 + (0 + x.toNat * 65536 + y.toNat * 4096 + z.toNat * 256 + e.toNat * 16 + f.toNat * 4 + m.toNat)) 16 4 = x.toNat := by
    rw [word_bits h 115 _ 16 4 (by decide)]; simp only [bits] <;> omega
  have b2 : bits (h.enc + 115 * 16777216 + (0 + x.toNat * 65536 + y.toNat * 4096 + z.toNat * 256 + e.toNat * 16 + f.toNat * 4 + m.toNat)) 12 4 = y.toNat := by
    rw [word_bits h 115 _ 12 4 (by decide)]; simp only [bits] <;> omega
  have b3 : bits (h.enc + 115 * 16777216 + (0 + x.toNat * 65536 + y.toNat * 4096 + z.toNat * 256 + e.toNat * 16 + f.toNat * 4 + m.toNat)) 8 4 = z.toNat := by
    rw [word_bits h 115 _ 8 4 (by decide)]; simp only [bits] <;> omega
  have b4 : bits (h.enc + 115 * 16777216 + (0 + x.toNat * 65536 + y.toNat * 4096 + z.toNat * 256 + e.toNat * 16 + f.toNat * 4 + m.toNat)) 4 4 = e.toNat := by
    rw [word_bits h 115 _ 4 4 (by decide)]; simp only [bits] <;> omega
  have b5 : bits (h.enc + 115 * 16777216 + (0 + x.toNat * 65536 + y.toNat * 4096 + z.toNat * 256 + e.toNat * 16 + f.toNat * 4 + m.toNat)) 2 1 = f.toNat := by
    rw [word_bits h 115 _ 2 1 (by decide)]; simp only [bits] <;> omega
  have b6 : bits (h.enc + 115 * 16777216 + (0 + x.toNat * 65536 + y.toNat * 4096 + z.toNat * 256 + e.toNat * 16 + f.toNat * 4 + m.toNat)) 0 2 = m.toNat := by
    rw [word_bits h 115 _ 0 2 (by decide)]; simp only [bits] <;> omega
  rw [decodeNat_of hg, decodeMajor_73 (word_major h 115 _ (by decide) hb)]
  simp only [decode73, b0, word_hdr h 115 _ (by decide) hb, fld_of b1, fld_of b2, fld_of b3, fld_of b4, fld_of b5, fld_of b6, res0, beq_self_eq_true, if_true]

theorem WordRoundTrip.mbbind (h : Hdr) (d : BitVec 6) (a : BitVec 6) (b : BitVec 6) : WordRoundTrip.Statement (.mbbind h d a b) := by
  intro n he
  have i_d := d.isLt
  have i_a := a.isLt
  have i_b := b.isLt
  have he : some (h.enc + 1946157056 + d.toNat * 16384 + a.toNat * 256 + b.toNat * 4) = some n := he
  injection he with he
  have hb : 0 + d.toNat * 16384 + a.toNat * 256 + b.toNat * 4 < 1048576 := by omega
  obtain rfl : n = h.enc + 116 * 16777216 + (0 + d.toNat * 16384 + a.toNat * 256 + b.toNat * 4) := by omega
  refine ⟨word_lt h 116 _ (by decide) hb, fun hg => ?_⟩
  have b99 : bits (h.enc + 116 * 16777216 + (0 + d.toNat * 16384 + a.toNat * 256 + b.toNat * 4)) 0 2 = 0 := by
    rw [word_bits h 116 _ 0 2 (by decide)]; simp only [bits] <;> omega
  have b0 : bits (h.enc + 116 * 16777216 + (0 + d.toNat * 16384 + a.toNat * 256 + b.toNat * 4)) 14 6 = d.toNat := by
    rw [word_bits h 116 _ 14 6 (by decide)]; simp only [bits] <;> omega
  have b1 : bits (h.enc + 116 * 16777216 + (0 + d.toNat * 16384 + a.toNat * 256 + b.toNat * 4)) 8 6 = a.toNat := by
    rw [word_bits h 116 _ 8 6 (by decide)]; simp only [bits] <;> omega
  have b2 : bits (h.enc + 116 * 16777216 + (0 + d.toNat * 16384 + a.toNat * 256 + b.toNat * 4)) 2 6 = b.toNat := by
    rw [word_bits h 116 _ 2 6 (by decide)]; simp only [bits] <;> omega
  rw [decodeNat_of hg, decodeMajor_74 (word_major h 116 _ (by decide) hb)]
  simp only [decode74, b99, word_hdr h 116 _ (by decide) hb, fld_of b0, fld_of b1, fld_of b2]

theorem WordRoundTrip.mbfree (h : Hdr) (d : BitVec 6) (a : BitVec 6) : WordRoundTrip.Statement (.mbfree h d a) := by
  intro n he
  have i_d := d.isLt
  have i_a := a.isLt
  have he : some (h.enc + 1946157057 + d.toNat * 16384 + a.toNat * 256) = some n := he
  injection he with he
  have hb : 1 + d.toNat * 16384 + a.toNat * 256 < 1048576 := by omega
  obtain rfl : n = h.enc + 116 * 16777216 + (1 + d.toNat * 16384 + a.toNat * 256) := by omega
  refine ⟨word_lt h 116 _ (by decide) hb, fun hg => ?_⟩
  have b99 : bits (h.enc + 116 * 16777216 + (1 + d.toNat * 16384 + a.toNat * 256)) 0 2 = 1 := by
    rw [word_bits h 116 _ 0 2 (by decide)]; simp only [bits] <;> omega
  have b0 : bits (h.enc + 116 * 16777216 + (1 + d.toNat * 16384 + a.toNat * 256)) 2 6 = 0 := by
    rw [word_bits h 116 _ 2 6 (by decide)]; simp only [bits] <;> omega
  have b1 : bits (h.enc + 116 * 16777216 + (1 + d.toNat * 16384 + a.toNat * 256)) 14 6 = d.toNat := by
    rw [word_bits h 116 _ 14 6 (by decide)]; simp only [bits] <;> omega
  have b2 : bits (h.enc + 116 * 16777216 + (1 + d.toNat * 16384 + a.toNat * 256)) 8 6 = a.toNat := by
    rw [word_bits h 116 _ 8 6 (by decide)]; simp only [bits] <;> omega
  rw [decodeNat_of hg, decodeMajor_74 (word_major h 116 _ (by decide) hb)]
  simp only [decode74, b99, b0, word_hdr h 116 _ (by decide) hb, fld_of b1, fld_of b2, res0, beq_self_eq_true, if_true]

theorem WordRoundTrip.mbpost (h : Hdr) (d : BitVec 6) (a : BitVec 6) (b : BitVec 6) : WordRoundTrip.Statement (.mbpost h d a b) := by
  intro n he
  have i_d := d.isLt
  have i_a := a.isLt
  have i_b := b.isLt
  have he : some (h.enc + 1946157058 + d.toNat * 16384 + a.toNat * 256 + b.toNat * 4) = some n := he
  injection he with he
  have hb : 2 + d.toNat * 16384 + a.toNat * 256 + b.toNat * 4 < 1048576 := by omega
  obtain rfl : n = h.enc + 116 * 16777216 + (2 + d.toNat * 16384 + a.toNat * 256 + b.toNat * 4) := by omega
  refine ⟨word_lt h 116 _ (by decide) hb, fun hg => ?_⟩
  have b99 : bits (h.enc + 116 * 16777216 + (2 + d.toNat * 16384 + a.toNat * 256 + b.toNat * 4)) 0 2 = 2 := by
    rw [word_bits h 116 _ 0 2 (by decide)]; simp only [bits] <;> omega
  have b0 : bits (h.enc + 116 * 16777216 + (2 + d.toNat * 16384 + a.toNat * 256 + b.toNat * 4)) 14 6 = d.toNat := by
    rw [word_bits h 116 _ 14 6 (by decide)]; simp only [bits] <;> omega
  have b1 : bits (h.enc + 116 * 16777216 + (2 + d.toNat * 16384 + a.toNat * 256 + b.toNat * 4)) 8 6 = a.toNat := by
    rw [word_bits h 116 _ 8 6 (by decide)]; simp only [bits] <;> omega
  have b2 : bits (h.enc + 116 * 16777216 + (2 + d.toNat * 16384 + a.toNat * 256 + b.toNat * 4)) 2 6 = b.toNat := by
    rw [word_bits h 116 _ 2 6 (by decide)]; simp only [bits] <;> omega
  rw [decodeNat_of hg, decodeMajor_74 (word_major h 116 _ (by decide) hb)]
  simp only [decode74, b99, word_hdr h 116 _ (by decide) hb, fld_of b0, fld_of b1, fld_of b2]

theorem WordRoundTrip.qput (h : Hdr) (a : BitVec 6) (b : BitVec 6) : WordRoundTrip.Statement (.qput h a b) := by
  intro n he
  have i_a := a.isLt
  have i_b := b.isLt
  have he : some (h.enc + 1962934272 + a.toNat * 256 + b.toNat * 4) = some n := he
  injection he with he
  have hb : 0 + a.toNat * 256 + b.toNat * 4 < 1048576 := by omega
  obtain rfl : n = h.enc + 117 * 16777216 + (0 + a.toNat * 256 + b.toNat * 4) := by omega
  refine ⟨word_lt h 117 _ (by decide) hb, fun hg => ?_⟩
  have b99 : bits (h.enc + 117 * 16777216 + (0 + a.toNat * 256 + b.toNat * 4)) 0 2 = 0 := by
    rw [word_bits h 117 _ 0 2 (by decide)]; simp only [bits] <;> omega
  have b0 : bits (h.enc + 117 * 16777216 + (0 + a.toNat * 256 + b.toNat * 4)) 14 6 = 0 := by
    rw [word_bits h 117 _ 14 6 (by decide)]; simp only [bits] <;> omega
  have b1 : bits (h.enc + 117 * 16777216 + (0 + a.toNat * 256 + b.toNat * 4)) 8 6 = a.toNat := by
    rw [word_bits h 117 _ 8 6 (by decide)]; simp only [bits] <;> omega
  have b2 : bits (h.enc + 117 * 16777216 + (0 + a.toNat * 256 + b.toNat * 4)) 2 6 = b.toNat := by
    rw [word_bits h 117 _ 2 6 (by decide)]; simp only [bits] <;> omega
  rw [decodeNat_of hg, decodeMajor_75 (word_major h 117 _ (by decide) hb)]
  simp only [decode75, b99, b0, word_hdr h 117 _ (by decide) hb, fld_of b1, fld_of b2, res0, beq_self_eq_true, if_true]

theorem WordRoundTrip.qtake (h : Hdr) (d : BitVec 6) (a : BitVec 6) (b : BitVec 6) : WordRoundTrip.Statement (.qtake h d a b) := by
  intro n he
  have i_d := d.isLt
  have i_a := a.isLt
  have i_b := b.isLt
  have he : some (h.enc + 1962934273 + d.toNat * 16384 + a.toNat * 256 + b.toNat * 4) = some n := he
  injection he with he
  have hb : 1 + d.toNat * 16384 + a.toNat * 256 + b.toNat * 4 < 1048576 := by omega
  obtain rfl : n = h.enc + 117 * 16777216 + (1 + d.toNat * 16384 + a.toNat * 256 + b.toNat * 4) := by omega
  refine ⟨word_lt h 117 _ (by decide) hb, fun hg => ?_⟩
  have b99 : bits (h.enc + 117 * 16777216 + (1 + d.toNat * 16384 + a.toNat * 256 + b.toNat * 4)) 0 2 = 1 := by
    rw [word_bits h 117 _ 0 2 (by decide)]; simp only [bits] <;> omega
  have b0 : bits (h.enc + 117 * 16777216 + (1 + d.toNat * 16384 + a.toNat * 256 + b.toNat * 4)) 14 6 = d.toNat := by
    rw [word_bits h 117 _ 14 6 (by decide)]; simp only [bits] <;> omega
  have b1 : bits (h.enc + 117 * 16777216 + (1 + d.toNat * 16384 + a.toNat * 256 + b.toNat * 4)) 8 6 = a.toNat := by
    rw [word_bits h 117 _ 8 6 (by decide)]; simp only [bits] <;> omega
  have b2 : bits (h.enc + 117 * 16777216 + (1 + d.toNat * 16384 + a.toNat * 256 + b.toNat * 4)) 2 6 = b.toNat := by
    rw [word_bits h 117 _ 2 6 (by decide)]; simp only [bits] <;> omega
  rw [decodeNat_of hg, decodeMajor_75 (word_major h 117 _ (by decide) hb)]
  simp only [decode75, b99, word_hdr h 117 _ (by decide) hb, fld_of b0, fld_of b1, fld_of b2]

theorem WordRoundTrip.qstat (h : Hdr) (d : BitVec 6) (b : BitVec 6) : WordRoundTrip.Statement (.qstat h d b) := by
  intro n he
  have i_d := d.isLt
  have i_b := b.isLt
  have he : some (h.enc + 1962934274 + d.toNat * 16384 + b.toNat * 4) = some n := he
  injection he with he
  have hb : 2 + d.toNat * 16384 + b.toNat * 4 < 1048576 := by omega
  obtain rfl : n = h.enc + 117 * 16777216 + (2 + d.toNat * 16384 + b.toNat * 4) := by omega
  refine ⟨word_lt h 117 _ (by decide) hb, fun hg => ?_⟩
  have b99 : bits (h.enc + 117 * 16777216 + (2 + d.toNat * 16384 + b.toNat * 4)) 0 2 = 2 := by
    rw [word_bits h 117 _ 0 2 (by decide)]; simp only [bits] <;> omega
  have b0 : bits (h.enc + 117 * 16777216 + (2 + d.toNat * 16384 + b.toNat * 4)) 8 6 = 0 := by
    rw [word_bits h 117 _ 8 6 (by decide)]; simp only [bits] <;> omega
  have b1 : bits (h.enc + 117 * 16777216 + (2 + d.toNat * 16384 + b.toNat * 4)) 14 6 = d.toNat := by
    rw [word_bits h 117 _ 14 6 (by decide)]; simp only [bits] <;> omega
  have b2 : bits (h.enc + 117 * 16777216 + (2 + d.toNat * 16384 + b.toNat * 4)) 2 6 = b.toNat := by
    rw [word_bits h 117 _ 2 6 (by decide)]; simp only [bits] <;> omega
  rw [decodeNat_of hg, decodeMajor_75 (word_major h 117 _ (by decide) hb)]
  simp only [decode75, b99, b0, word_hdr h 117 _ (by decide) hb, fld_of b1, fld_of b2, res0, beq_self_eq_true, if_true]

theorem WordRoundTrip.efork (h : Hdr) (c : BitVec 6) (o : BitVec 14) : WordRoundTrip.Statement (.efork h c o) := by
  intro n he
  have i_c := c.isLt
  have i_o := o.isLt
  have he : some (h.enc + 1979711488 + c.toNat * 16384 + o.toNat) = some n := he
  injection he with he
  have hb : 0 + c.toNat * 16384 + o.toNat < 1048576 := by omega
  obtain rfl : n = h.enc + 118 * 16777216 + (0 + c.toNat * 16384 + o.toNat) := by omega
  refine ⟨word_lt h 118 _ (by decide) hb, fun hg => ?_⟩
  have b0 : bits (h.enc + 118 * 16777216 + (0 + c.toNat * 16384 + o.toNat)) 14 6 = c.toNat := by
    rw [word_bits h 118 _ 14 6 (by decide)]; simp only [bits] <;> omega
  have b1 : bits (h.enc + 118 * 16777216 + (0 + c.toNat * 16384 + o.toNat)) 0 14 = o.toNat := by
    rw [word_bits h 118 _ 0 14 (by decide)]; simp only [bits] <;> omega
  rw [decodeNat_of hg, decodeMajor_76 (word_major h 118 _ (by decide) hb)]
  simp only [decode76, word_hdr h 118 _ (by decide) hb, fld_of b0, fld_of b1]

theorem WordRoundTrip.erdv (h : Hdr) : WordRoundTrip.Statement (.erdv h) := by
  intro n he
  have he : some (h.enc + 1996488704) = some n := he
  injection he with he
  have hb : 0 < 1048576 := by omega
  obtain rfl : n = h.enc + 119 * 16777216 + (0) := by omega
  refine ⟨word_lt h 119 _ (by decide) hb, fun hg => ?_⟩
  have b0 : bits (h.enc + 119 * 16777216 + (0)) 0 20 = 0 := by
    rw [word_bits h 119 _ 0 20 (by decide)]; simp only [bits] <;> omega
  rw [decodeNat_of hg, decodeMajor_77 (word_major h 119 _ (by decide) hb)]
  simp only [decode77, b0, word_hdr h 119 _ (by decide) hb, res0, beq_self_eq_true, if_true]

theorem WordRoundTrip.cwait (h : Hdr) (q : BitVec 4) (a : BitVec 6) (b : BitVec 6) : WordRoundTrip.Statement (.cwait h q a b) := by
  intro n he
  have i_q := q.isLt
  have i_a := a.isLt
  have i_b := b.isLt
  have he : some (h.enc + 2013265920 + q.toNat * 65536 + a.toNat * 1024 + b.toNat * 16) = some n := he
  injection he with he
  have hb : 0 + q.toNat * 65536 + a.toNat * 1024 + b.toNat * 16 < 1048576 := by omega
  obtain rfl : n = h.enc + 120 * 16777216 + (0 + q.toNat * 65536 + a.toNat * 1024 + b.toNat * 16) := by omega
  refine ⟨word_lt h 120 _ (by decide) hb, fun hg => ?_⟩
  have b99 : bits (h.enc + 120 * 16777216 + (0 + q.toNat * 65536 + a.toNat * 1024 + b.toNat * 16)) 0 1 = 0 := by
    rw [word_bits h 120 _ 0 1 (by decide)]; simp only [bits] <;> omega
  have b0 : bits (h.enc + 120 * 16777216 + (0 + q.toNat * 65536 + a.toNat * 1024 + b.toNat * 16)) 1 3 = 0 := by
    rw [word_bits h 120 _ 1 3 (by decide)]; simp only [bits] <;> omega
  have b1 : bits (h.enc + 120 * 16777216 + (0 + q.toNat * 65536 + a.toNat * 1024 + b.toNat * 16)) 16 4 = q.toNat := by
    rw [word_bits h 120 _ 16 4 (by decide)]; simp only [bits] <;> omega
  have b2 : bits (h.enc + 120 * 16777216 + (0 + q.toNat * 65536 + a.toNat * 1024 + b.toNat * 16)) 10 6 = a.toNat := by
    rw [word_bits h 120 _ 10 6 (by decide)]; simp only [bits] <;> omega
  have b3 : bits (h.enc + 120 * 16777216 + (0 + q.toNat * 65536 + a.toNat * 1024 + b.toNat * 16)) 4 6 = b.toNat := by
    rw [word_bits h 120 _ 4 6 (by decide)]; simp only [bits] <;> omega
  rw [decodeNat_of hg, decodeMajor_78 (word_major h 120 _ (by decide) hb)]
  simp only [decode78, b99, b0, word_hdr h 120 _ (by decide) hb, fld_of b1, fld_of b2, fld_of b3, res0, beq_self_eq_true, if_true]

theorem WordRoundTrip.ctest (h : Hdr) (q : BitVec 4) (a : BitVec 6) (b : BitVec 6) : WordRoundTrip.Statement (.ctest h q a b) := by
  intro n he
  have i_q := q.isLt
  have i_a := a.isLt
  have i_b := b.isLt
  have he : some (h.enc + 2013265921 + q.toNat * 65536 + a.toNat * 1024 + b.toNat * 16) = some n := he
  injection he with he
  have hb : 1 + q.toNat * 65536 + a.toNat * 1024 + b.toNat * 16 < 1048576 := by omega
  obtain rfl : n = h.enc + 120 * 16777216 + (1 + q.toNat * 65536 + a.toNat * 1024 + b.toNat * 16) := by omega
  refine ⟨word_lt h 120 _ (by decide) hb, fun hg => ?_⟩
  have b99 : bits (h.enc + 120 * 16777216 + (1 + q.toNat * 65536 + a.toNat * 1024 + b.toNat * 16)) 0 1 = 1 := by
    rw [word_bits h 120 _ 0 1 (by decide)]; simp only [bits] <;> omega
  have b0 : bits (h.enc + 120 * 16777216 + (1 + q.toNat * 65536 + a.toNat * 1024 + b.toNat * 16)) 1 3 = 0 := by
    rw [word_bits h 120 _ 1 3 (by decide)]; simp only [bits] <;> omega
  have b1 : bits (h.enc + 120 * 16777216 + (1 + q.toNat * 65536 + a.toNat * 1024 + b.toNat * 16)) 16 4 = q.toNat := by
    rw [word_bits h 120 _ 16 4 (by decide)]; simp only [bits] <;> omega
  have b2 : bits (h.enc + 120 * 16777216 + (1 + q.toNat * 65536 + a.toNat * 1024 + b.toNat * 16)) 10 6 = a.toNat := by
    rw [word_bits h 120 _ 10 6 (by decide)]; simp only [bits] <;> omega
  have b3 : bits (h.enc + 120 * 16777216 + (1 + q.toNat * 65536 + a.toNat * 1024 + b.toNat * 16)) 4 6 = b.toNat := by
    rw [word_bits h 120 _ 4 6 (by decide)]; simp only [bits] <;> omega
  rw [decodeNat_of hg, decodeMajor_78 (word_major h 120 _ (by decide) hb)]
  simp only [decode78, b99, b0, word_hdr h 120 _ (by decide) hb, fld_of b1, fld_of b2, fld_of b3, res0, beq_self_eq_true, if_true]

theorem WordRoundTrip.bwinit (h : Hdr) (a : BitVec 6) (b : BitVec 6) : WordRoundTrip.Statement (.bwinit h a b) := by
  intro n he
  have i_a := a.isLt
  have i_b := b.isLt
  have he : some (h.enc + 2030043136 + a.toNat * 256 + b.toNat * 4) = some n := he
  injection he with he
  have hb : 0 + a.toNat * 256 + b.toNat * 4 < 1048576 := by omega
  obtain rfl : n = h.enc + 121 * 16777216 + (0 + a.toNat * 256 + b.toNat * 4) := by omega
  refine ⟨word_lt h 121 _ (by decide) hb, fun hg => ?_⟩
  have b99 : bits (h.enc + 121 * 16777216 + (0 + a.toNat * 256 + b.toNat * 4)) 17 3 = 0 := by
    rw [word_bits h 121 _ 17 3 (by decide)]; simp only [bits] <;> omega
  have b0 : bits (h.enc + 121 * 16777216 + (0 + a.toNat * 256 + b.toNat * 4)) 0 2 = 0 := by
    rw [word_bits h 121 _ 0 2 (by decide)]; simp only [bits] <;> omega
  have b1 : bits (h.enc + 121 * 16777216 + (0 + a.toNat * 256 + b.toNat * 4)) 14 3 = 0 := by
    rw [word_bits h 121 _ 14 3 (by decide)]; simp only [bits] <;> omega
  have b2 : bits (h.enc + 121 * 16777216 + (0 + a.toNat * 256 + b.toNat * 4)) 8 6 = a.toNat := by
    rw [word_bits h 121 _ 8 6 (by decide)]; simp only [bits] <;> omega
  have b3 : bits (h.enc + 121 * 16777216 + (0 + a.toNat * 256 + b.toNat * 4)) 2 6 = b.toNat := by
    rw [word_bits h 121 _ 2 6 (by decide)]; simp only [bits] <;> omega
  rw [decodeNat_of hg, decodeMajor_79 (word_major h 121 _ (by decide) hb)]
  simp only [decode79, b99, b0, b1, word_hdr h 121 _ (by decide) hb, fld_of b2, fld_of b3, res0, beq_self_eq_true, Bool.and_self, if_true]

theorem WordRoundTrip.bwarr (h : Hdr) (a : BitVec 6) (b : BitVec 6) : WordRoundTrip.Statement (.bwarr h a b) := by
  intro n he
  have i_a := a.isLt
  have i_b := b.isLt
  have he : some (h.enc + 2030174208 + a.toNat * 256 + b.toNat * 4) = some n := he
  injection he with he
  have hb : 131072 + a.toNat * 256 + b.toNat * 4 < 1048576 := by omega
  obtain rfl : n = h.enc + 121 * 16777216 + (131072 + a.toNat * 256 + b.toNat * 4) := by omega
  refine ⟨word_lt h 121 _ (by decide) hb, fun hg => ?_⟩
  have b99 : bits (h.enc + 121 * 16777216 + (131072 + a.toNat * 256 + b.toNat * 4)) 17 3 = 1 := by
    rw [word_bits h 121 _ 17 3 (by decide)]; simp only [bits] <;> omega
  have b0 : bits (h.enc + 121 * 16777216 + (131072 + a.toNat * 256 + b.toNat * 4)) 0 2 = 0 := by
    rw [word_bits h 121 _ 0 2 (by decide)]; simp only [bits] <;> omega
  have b1 : bits (h.enc + 121 * 16777216 + (131072 + a.toNat * 256 + b.toNat * 4)) 14 3 = 0 := by
    rw [word_bits h 121 _ 14 3 (by decide)]; simp only [bits] <;> omega
  have b2 : bits (h.enc + 121 * 16777216 + (131072 + a.toNat * 256 + b.toNat * 4)) 8 6 = a.toNat := by
    rw [word_bits h 121 _ 8 6 (by decide)]; simp only [bits] <;> omega
  have b3 : bits (h.enc + 121 * 16777216 + (131072 + a.toNat * 256 + b.toNat * 4)) 2 6 = b.toNat := by
    rw [word_bits h 121 _ 2 6 (by decide)]; simp only [bits] <;> omega
  rw [decodeNat_of hg, decodeMajor_79 (word_major h 121 _ (by decide) hb)]
  simp only [decode79, b99, b0, b1, word_hdr h 121 _ (by decide) hb, fld_of b2, fld_of b3, res0, beq_self_eq_true, Bool.and_self, if_true]

theorem WordRoundTrip.bwwait (h : Hdr) (a : BitVec 6) (b : BitVec 6) : WordRoundTrip.Statement (.bwwait h a b) := by
  intro n he
  have i_a := a.isLt
  have i_b := b.isLt
  have he : some (h.enc + 2030305280 + a.toNat * 256 + b.toNat * 4) = some n := he
  injection he with he
  have hb : 262144 + a.toNat * 256 + b.toNat * 4 < 1048576 := by omega
  obtain rfl : n = h.enc + 121 * 16777216 + (262144 + a.toNat * 256 + b.toNat * 4) := by omega
  refine ⟨word_lt h 121 _ (by decide) hb, fun hg => ?_⟩
  have b99 : bits (h.enc + 121 * 16777216 + (262144 + a.toNat * 256 + b.toNat * 4)) 17 3 = 2 := by
    rw [word_bits h 121 _ 17 3 (by decide)]; simp only [bits] <;> omega
  have b0 : bits (h.enc + 121 * 16777216 + (262144 + a.toNat * 256 + b.toNat * 4)) 0 2 = 0 := by
    rw [word_bits h 121 _ 0 2 (by decide)]; simp only [bits] <;> omega
  have b1 : bits (h.enc + 121 * 16777216 + (262144 + a.toNat * 256 + b.toNat * 4)) 14 3 = 0 := by
    rw [word_bits h 121 _ 14 3 (by decide)]; simp only [bits] <;> omega
  have b2 : bits (h.enc + 121 * 16777216 + (262144 + a.toNat * 256 + b.toNat * 4)) 8 6 = a.toNat := by
    rw [word_bits h 121 _ 8 6 (by decide)]; simp only [bits] <;> omega
  have b3 : bits (h.enc + 121 * 16777216 + (262144 + a.toNat * 256 + b.toNat * 4)) 2 6 = b.toNat := by
    rw [word_bits h 121 _ 2 6 (by decide)]; simp only [bits] <;> omega
  rw [decodeNat_of hg, decodeMajor_79 (word_major h 121 _ (by decide) hb)]
  simp only [decode79, b99, b0, b1, word_hdr h 121 _ (by decide) hb, fld_of b2, fld_of b3, res0, beq_self_eq_true, Bool.and_self, if_true]

theorem WordRoundTrip.bwtest (h : Hdr) (q : BitVec 3) (a : BitVec 6) (b : BitVec 6) : WordRoundTrip.Statement (.bwtest h q a b) := by
  intro n he
  have i_q := q.isLt
  have i_a := a.isLt
  have i_b := b.isLt
  have he : some (h.enc + 2030436352 + q.toNat * 16384 + a.toNat * 256 + b.toNat * 4) = some n := he
  injection he with he
  have hb : 393216 + q.toNat * 16384 + a.toNat * 256 + b.toNat * 4 < 1048576 := by omega
  obtain rfl : n = h.enc + 121 * 16777216 + (393216 + q.toNat * 16384 + a.toNat * 256 + b.toNat * 4) := by omega
  refine ⟨word_lt h 121 _ (by decide) hb, fun hg => ?_⟩
  have b99 : bits (h.enc + 121 * 16777216 + (393216 + q.toNat * 16384 + a.toNat * 256 + b.toNat * 4)) 17 3 = 3 := by
    rw [word_bits h 121 _ 17 3 (by decide)]; simp only [bits] <;> omega
  have b0 : bits (h.enc + 121 * 16777216 + (393216 + q.toNat * 16384 + a.toNat * 256 + b.toNat * 4)) 0 2 = 0 := by
    rw [word_bits h 121 _ 0 2 (by decide)]; simp only [bits] <;> omega
  have b1 : bits (h.enc + 121 * 16777216 + (393216 + q.toNat * 16384 + a.toNat * 256 + b.toNat * 4)) 14 3 = q.toNat := by
    rw [word_bits h 121 _ 14 3 (by decide)]; simp only [bits] <;> omega
  have b2 : bits (h.enc + 121 * 16777216 + (393216 + q.toNat * 16384 + a.toNat * 256 + b.toNat * 4)) 8 6 = a.toNat := by
    rw [word_bits h 121 _ 8 6 (by decide)]; simp only [bits] <;> omega
  have b3 : bits (h.enc + 121 * 16777216 + (393216 + q.toNat * 16384 + a.toNat * 256 + b.toNat * 4)) 2 6 = b.toNat := by
    rw [word_bits h 121 _ 2 6 (by decide)]; simp only [bits] <;> omega
  rw [decodeNat_of hg, decodeMajor_79 (word_major h 121 _ (by decide) hb)]
  simp only [decode79, b99, b0, word_hdr h 121 _ (by decide) hb, fld_of b1, fld_of b2, fld_of b3, res0, beq_self_eq_true, if_true]

theorem WordRoundTrip.bwdrop (h : Hdr) (a : BitVec 6) : WordRoundTrip.Statement (.bwdrop h a) := by
  intro n he
  have i_a := a.isLt
  have he : some (h.enc + 2030567424 + a.toNat * 256) = some n := he
  injection he with he
  have hb : 524288 + a.toNat * 256 < 1048576 := by omega
  obtain rfl : n = h.enc + 121 * 16777216 + (524288 + a.toNat * 256) := by omega
  refine ⟨word_lt h 121 _ (by decide) hb, fun hg => ?_⟩
  have b99 : bits (h.enc + 121 * 16777216 + (524288 + a.toNat * 256)) 17 3 = 4 := by
    rw [word_bits h 121 _ 17 3 (by decide)]; simp only [bits] <;> omega
  have b0 : bits (h.enc + 121 * 16777216 + (524288 + a.toNat * 256)) 0 8 = 0 := by
    rw [word_bits h 121 _ 0 8 (by decide)]; simp only [bits] <;> omega
  have b1 : bits (h.enc + 121 * 16777216 + (524288 + a.toNat * 256)) 14 3 = 0 := by
    rw [word_bits h 121 _ 14 3 (by decide)]; simp only [bits] <;> omega
  have b2 : bits (h.enc + 121 * 16777216 + (524288 + a.toNat * 256)) 8 6 = a.toNat := by
    rw [word_bits h 121 _ 8 6 (by decide)]; simp only [bits] <;> omega
  rw [decodeNat_of hg, decodeMajor_79 (word_major h 121 _ (by decide) hb)]
  simp only [decode79, b99, b0, b1, word_hdr h 121 _ (by decide) hb, fld_of b2, res0, beq_self_eq_true, Bool.and_self, if_true]

theorem WordRoundTrip.lbarv (h : Hdr) (l : BitVec 6) : WordRoundTrip.Statement (.lbarv h l) := by
  intro n he
  have i_l := l.isLt
  have he : some (h.enc + 2046820352 + l.toNat * 4096) = some n := he
  injection he with he
  have hb : 0 + l.toNat * 4096 < 1048576 := by omega
  obtain rfl : n = h.enc + 122 * 16777216 + (0 + l.toNat * 4096) := by omega
  refine ⟨word_lt h 122 _ (by decide) hb, fun hg => ?_⟩
  have b99 : bits (h.enc + 122 * 16777216 + (0 + l.toNat * 4096)) 18 2 = 0 := by
    rw [word_bits h 122 _ 18 2 (by decide)]; simp only [bits] <;> omega
  have b0 : bits (h.enc + 122 * 16777216 + (0 + l.toNat * 4096)) 0 12 = 0 := by
    rw [word_bits h 122 _ 0 12 (by decide)]; simp only [bits] <;> omega
  have b1 : bits (h.enc + 122 * 16777216 + (0 + l.toNat * 4096)) 12 6 = l.toNat := by
    rw [word_bits h 122 _ 12 6 (by decide)]; simp only [bits] <;> omega
  rw [decodeNat_of hg, decodeMajor_7A (word_major h 122 _ (by decide) hb)]
  simp only [decode7A, b99, b0, word_hdr h 122 _ (by decide) hb, fld_of b1, res0, beq_self_eq_true, if_true]

theorem WordRoundTrip.lbwait (h : Hdr) (l : BitVec 6) : WordRoundTrip.Statement (.lbwait h l) := by
  intro n he
  have i_l := l.isLt
  have he : some (h.enc + 2047082496 + l.toNat * 4096) = some n := he
  injection he with he
  have hb : 262144 + l.toNat * 4096 < 1048576 := by omega
  obtain rfl : n = h.enc + 122 * 16777216 + (262144 + l.toNat * 4096) := by omega
  refine ⟨word_lt h 122 _ (by decide) hb, fun hg => ?_⟩
  have b99 : bits (h.enc + 122 * 16777216 + (262144 + l.toNat * 4096)) 18 2 = 1 := by
    rw [word_bits h 122 _ 18 2 (by decide)]; simp only [bits] <;> omega
  have b0 : bits (h.enc + 122 * 16777216 + (262144 + l.toNat * 4096)) 0 12 = 0 := by
    rw [word_bits h 122 _ 0 12 (by decide)]; simp only [bits] <;> omega
  have b1 : bits (h.enc + 122 * 16777216 + (262144 + l.toNat * 4096)) 12 6 = l.toNat := by
    rw [word_bits h 122 _ 12 6 (by decide)]; simp only [bits] <;> omega
  rw [decodeNat_of hg, decodeMajor_7A (word_major h 122 _ (by decide) hb)]
  simp only [decode7A, b99, b0, word_hdr h 122 _ (by decide) hb, fld_of b1, res0, beq_self_eq_true, if_true]

theorem WordRoundTrip.lbset (h : Hdr) (l : BitVec 6) (a : BitVec 6) : WordRoundTrip.Statement (.lbset h l a) := by
  intro n he
  have i_l := l.isLt
  have i_a := a.isLt
  have he : some (h.enc + 2047344640 + l.toNat * 4096 + a.toNat * 64) = some n := he
  injection he with he
  have hb : 524288 + l.toNat * 4096 + a.toNat * 64 < 1048576 := by omega
  obtain rfl : n = h.enc + 122 * 16777216 + (524288 + l.toNat * 4096 + a.toNat * 64) := by omega
  refine ⟨word_lt h 122 _ (by decide) hb, fun hg => ?_⟩
  have b99 : bits (h.enc + 122 * 16777216 + (524288 + l.toNat * 4096 + a.toNat * 64)) 18 2 = 2 := by
    rw [word_bits h 122 _ 18 2 (by decide)]; simp only [bits] <;> omega
  have b0 : bits (h.enc + 122 * 16777216 + (524288 + l.toNat * 4096 + a.toNat * 64)) 0 6 = 0 := by
    rw [word_bits h 122 _ 0 6 (by decide)]; simp only [bits] <;> omega
  have b1 : bits (h.enc + 122 * 16777216 + (524288 + l.toNat * 4096 + a.toNat * 64)) 12 6 = l.toNat := by
    rw [word_bits h 122 _ 12 6 (by decide)]; simp only [bits] <;> omega
  have b2 : bits (h.enc + 122 * 16777216 + (524288 + l.toNat * 4096 + a.toNat * 64)) 6 6 = a.toNat := by
    rw [word_bits h 122 _ 6 6 (by decide)]; simp only [bits] <;> omega
  rw [decodeNat_of hg, decodeMajor_7A (word_major h 122 _ (by decide) hb)]
  simp only [decode7A, b99, b0, word_hdr h 122 _ (by decide) hb, fld_of b1, fld_of b2, res0, beq_self_eq_true, if_true]

theorem WordRoundTrip.migto (h : Hdr) (a : BitVec 6) : WordRoundTrip.Statement (.migto h a) := by
  intro n he
  have i_a := a.isLt
  have he : some (h.enc + 2063597568 + a.toNat * 256) = some n := he
  injection he with he
  have hb : 0 + a.toNat * 256 < 1048576 := by omega
  obtain rfl : n = h.enc + 123 * 16777216 + (0 + a.toNat * 256) := by omega
  refine ⟨word_lt h 123 _ (by decide) hb, fun hg => ?_⟩
  have b99 : bits (h.enc + 123 * 16777216 + (0 + a.toNat * 256)) 0 2 = 0 := by
    rw [word_bits h 123 _ 0 2 (by decide)]; simp only [bits] <;> omega
  have b0 : bits (h.enc + 123 * 16777216 + (0 + a.toNat * 256)) 2 6 = 0 := by
    rw [word_bits h 123 _ 2 6 (by decide)]; simp only [bits] <;> omega
  have b1 : bits (h.enc + 123 * 16777216 + (0 + a.toNat * 256)) 14 6 = 0 := by
    rw [word_bits h 123 _ 14 6 (by decide)]; simp only [bits] <;> omega
  have b2 : bits (h.enc + 123 * 16777216 + (0 + a.toNat * 256)) 8 6 = a.toNat := by
    rw [word_bits h 123 _ 8 6 (by decide)]; simp only [bits] <;> omega
  rw [decodeNat_of hg, decodeMajor_7B (word_major h 123 _ (by decide) hb)]
  simp only [decode7B, b99, b0, b1, word_hdr h 123 _ (by decide) hb, fld_of b2, res0, beq_self_eq_true, Bool.and_self, if_true]

theorem WordRoundTrip.migret (h : Hdr) : WordRoundTrip.Statement (.migret h) := by
  intro n he
  have he : some (h.enc + 2063597569) = some n := he
  injection he with he
  have hb : 1 < 1048576 := by omega
  obtain rfl : n = h.enc + 123 * 16777216 + (1) := by omega
  refine ⟨word_lt h 123 _ (by decide) hb, fun hg => ?_⟩
  have b99 : bits (h.enc + 123 * 16777216 + (1)) 0 2 = 1 := by
    rw [word_bits h 123 _ 0 2 (by decide)]; simp only [bits] <;> omega
  have b0 : bits (h.enc + 123 * 16777216 + (1)) 2 18 = 0 := by
    rw [word_bits h 123 _ 2 18 (by decide)]; simp only [bits] <;> omega
  rw [decodeNat_of hg, decodeMajor_7B (word_major h 123 _ (by decide) hb)]
  simp only [decode7B, b99, b0, word_hdr h 123 _ (by decide) hb, res0, beq_self_eq_true, if_true]

theorem WordRoundTrip.regrp (h : Hdr) (m : BitVec 4) : WordRoundTrip.Statement (.regrp h m) := by
  intro n he
  have i_m := m.isLt
  have he : some (h.enc + 2063597570 + m.toNat * 65536) = some n := he
  injection he with he
  have hb : 2 + m.toNat * 65536 < 1048576 := by omega
  obtain rfl : n = h.enc + 123 * 16777216 + (2 + m.toNat * 65536) := by omega
  refine ⟨word_lt h 123 _ (by decide) hb, fun hg => ?_⟩
  have b99 : bits (h.enc + 123 * 16777216 + (2 + m.toNat * 65536)) 0 2 = 2 := by
    rw [word_bits h 123 _ 0 2 (by decide)]; simp only [bits] <;> omega
  have b0 : bits (h.enc + 123 * 16777216 + (2 + m.toNat * 65536)) 2 14 = 0 := by
    rw [word_bits h 123 _ 2 14 (by decide)]; simp only [bits] <;> omega
  have b1 : bits (h.enc + 123 * 16777216 + (2 + m.toNat * 65536)) 16 4 = m.toNat := by
    rw [word_bits h 123 _ 16 4 (by decide)]; simp only [bits] <;> omega
  rw [decodeNat_of hg, decodeMajor_7B (word_major h 123 _ (by decide) hb)]
  simp only [decode7B, b99, b0, word_hdr h 123 _ (by decide) hb, fld_of b1, res0, beq_self_eq_true, if_true]

theorem WordRoundTrip.shld (h : Hdr) (hf : BitVec 4) (a : BitVec 6) : WordRoundTrip.Statement (.shld h hf a) := by
  intro n he
  have i_hf := hf.isLt
  have i_a := a.isLt
  have he : some (h.enc + 2080374784 + hf.toNat * 65536 + a.toNat * 256) = some n := he
  injection he with he
  have hb : 0 + hf.toNat * 65536 + a.toNat * 256 < 1048576 := by omega
  obtain rfl : n = h.enc + 124 * 16777216 + (0 + hf.toNat * 65536 + a.toNat * 256) := by omega
  refine ⟨word_lt h 124 _ (by decide) hb, fun hg => ?_⟩
  have b99 : bits (h.enc + 124 * 16777216 + (0 + hf.toNat * 65536 + a.toNat * 256)) 0 2 = 0 := by
    rw [word_bits h 124 _ 0 2 (by decide)]; simp only [bits] <;> omega
  have b0 : bits (h.enc + 124 * 16777216 + (0 + hf.toNat * 65536 + a.toNat * 256)) 2 6 = 0 := by
    rw [word_bits h 124 _ 2 6 (by decide)]; simp only [bits] <;> omega
  have b1 : bits (h.enc + 124 * 16777216 + (0 + hf.toNat * 65536 + a.toNat * 256)) 14 2 = 0 := by
    rw [word_bits h 124 _ 14 2 (by decide)]; simp only [bits] <;> omega
  have b2 : bits (h.enc + 124 * 16777216 + (0 + hf.toNat * 65536 + a.toNat * 256)) 16 4 = hf.toNat := by
    rw [word_bits h 124 _ 16 4 (by decide)]; simp only [bits] <;> omega
  have b3 : bits (h.enc + 124 * 16777216 + (0 + hf.toNat * 65536 + a.toNat * 256)) 8 6 = a.toNat := by
    rw [word_bits h 124 _ 8 6 (by decide)]; simp only [bits] <;> omega
  rw [decodeNat_of hg, decodeMajor_7C (word_major h 124 _ (by decide) hb)]
  simp only [decode7C, b99, b0, b1, word_hdr h 124 _ (by decide) hb, fld_of b2, fld_of b3, res0, beq_self_eq_true, Bool.and_self, if_true]

theorem WordRoundTrip.shst (h : Hdr) (hf : BitVec 4) (a : BitVec 6) : WordRoundTrip.Statement (.shst h hf a) := by
  intro n he
  have i_hf := hf.isLt
  have i_a := a.isLt
  have he : some (h.enc + 2080374785 + hf.toNat * 65536 + a.toNat * 256) = some n := he
  injection he with he
  have hb : 1 + hf.toNat * 65536 + a.toNat * 256 < 1048576 := by omega
  obtain rfl : n = h.enc + 124 * 16777216 + (1 + hf.toNat * 65536 + a.toNat * 256) := by omega
  refine ⟨word_lt h 124 _ (by decide) hb, fun hg => ?_⟩
  have b99 : bits (h.enc + 124 * 16777216 + (1 + hf.toNat * 65536 + a.toNat * 256)) 0 2 = 1 := by
    rw [word_bits h 124 _ 0 2 (by decide)]; simp only [bits] <;> omega
  have b0 : bits (h.enc + 124 * 16777216 + (1 + hf.toNat * 65536 + a.toNat * 256)) 2 6 = 0 := by
    rw [word_bits h 124 _ 2 6 (by decide)]; simp only [bits] <;> omega
  have b1 : bits (h.enc + 124 * 16777216 + (1 + hf.toNat * 65536 + a.toNat * 256)) 14 2 = 0 := by
    rw [word_bits h 124 _ 14 2 (by decide)]; simp only [bits] <;> omega
  have b2 : bits (h.enc + 124 * 16777216 + (1 + hf.toNat * 65536 + a.toNat * 256)) 16 4 = hf.toNat := by
    rw [word_bits h 124 _ 16 4 (by decide)]; simp only [bits] <;> omega
  have b3 : bits (h.enc + 124 * 16777216 + (1 + hf.toNat * 65536 + a.toNat * 256)) 8 6 = a.toNat := by
    rw [word_bits h 124 _ 8 6 (by decide)]; simp only [bits] <;> omega
  rw [decodeNat_of hg, decodeMajor_7C (word_major h 124 _ (by decide) hb)]
  simp only [decode7C, b99, b0, b1, word_hdr h 124 _ (by decide) hb, fld_of b2, fld_of b3, res0, beq_self_eq_true, Bool.and_self, if_true]

theorem WordRoundTrip.shget (h : Hdr) (hf : BitVec 4) (a : BitVec 6) (f : BitVec 6) : WordRoundTrip.Statement (.shget h hf a f) := by
  intro n he
  have i_hf := hf.isLt
  have i_a := a.isLt
  have i_f := f.isLt
  have he : some (h.enc + 2080374786 + hf.toNat * 65536 + a.toNat * 256 + f.toNat * 4) = some n := he
  injection he with he
  have hb : 2 + hf.toNat * 65536 + a.toNat * 256 + f.toNat * 4 < 1048576 := by omega
  obtain rfl : n = h.enc + 124 * 16777216 + (2 + hf.toNat * 65536 + a.toNat * 256 + f.toNat * 4) := by omega
  refine ⟨word_lt h 124 _ (by decide) hb, fun hg => ?_⟩
  have b99 : bits (h.enc + 124 * 16777216 + (2 + hf.toNat * 65536 + a.toNat * 256 + f.toNat * 4)) 0 2 = 2 := by
    rw [word_bits h 124 _ 0 2 (by decide)]; simp only [bits] <;> omega
  have b0 : bits (h.enc + 124 * 16777216 + (2 + hf.toNat * 65536 + a.toNat * 256 + f.toNat * 4)) 14 2 = 0 := by
    rw [word_bits h 124 _ 14 2 (by decide)]; simp only [bits] <;> omega
  have b1 : bits (h.enc + 124 * 16777216 + (2 + hf.toNat * 65536 + a.toNat * 256 + f.toNat * 4)) 16 4 = hf.toNat := by
    rw [word_bits h 124 _ 16 4 (by decide)]; simp only [bits] <;> omega
  have b2 : bits (h.enc + 124 * 16777216 + (2 + hf.toNat * 65536 + a.toNat * 256 + f.toNat * 4)) 8 6 = a.toNat := by
    rw [word_bits h 124 _ 8 6 (by decide)]; simp only [bits] <;> omega
  have b3 : bits (h.enc + 124 * 16777216 + (2 + hf.toNat * 65536 + a.toNat * 256 + f.toNat * 4)) 2 6 = f.toNat := by
    rw [word_bits h 124 _ 2 6 (by decide)]; simp only [bits] <;> omega
  rw [decodeNat_of hg, decodeMajor_7C (word_major h 124 _ (by decide) hb)]
  simp only [decode7C, b99, b0, word_hdr h 124 _ (by decide) hb, fld_of b1, fld_of b2, fld_of b3, res0, beq_self_eq_true, if_true]

theorem WordRoundTrip.shset (h : Hdr) (hf : BitVec 4) (a : BitVec 6) (f : BitVec 6) : WordRoundTrip.Statement (.shset h hf a f) := by
  intro n he
  have i_hf := hf.isLt
  have i_a := a.isLt
  have i_f := f.isLt
  have he : some (h.enc + 2080374787 + hf.toNat * 65536 + a.toNat * 256 + f.toNat * 4) = some n := he
  injection he with he
  have hb : 3 + hf.toNat * 65536 + a.toNat * 256 + f.toNat * 4 < 1048576 := by omega
  obtain rfl : n = h.enc + 124 * 16777216 + (3 + hf.toNat * 65536 + a.toNat * 256 + f.toNat * 4) := by omega
  refine ⟨word_lt h 124 _ (by decide) hb, fun hg => ?_⟩
  have b99 : bits (h.enc + 124 * 16777216 + (3 + hf.toNat * 65536 + a.toNat * 256 + f.toNat * 4)) 0 2 = 3 := by
    rw [word_bits h 124 _ 0 2 (by decide)]; simp only [bits] <;> omega
  have b0 : bits (h.enc + 124 * 16777216 + (3 + hf.toNat * 65536 + a.toNat * 256 + f.toNat * 4)) 14 2 = 0 := by
    rw [word_bits h 124 _ 14 2 (by decide)]; simp only [bits] <;> omega
  have b1 : bits (h.enc + 124 * 16777216 + (3 + hf.toNat * 65536 + a.toNat * 256 + f.toNat * 4)) 16 4 = hf.toNat := by
    rw [word_bits h 124 _ 16 4 (by decide)]; simp only [bits] <;> omega
  have b2 : bits (h.enc + 124 * 16777216 + (3 + hf.toNat * 65536 + a.toNat * 256 + f.toNat * 4)) 8 6 = a.toNat := by
    rw [word_bits h 124 _ 8 6 (by decide)]; simp only [bits] <;> omega
  have b3 : bits (h.enc + 124 * 16777216 + (3 + hf.toNat * 65536 + a.toNat * 256 + f.toNat * 4)) 2 6 = f.toNat := by
    rw [word_bits h 124 _ 2 6 (by decide)]; simp only [bits] <;> omega
  rw [decodeNat_of hg, decodeMajor_7C (word_major h 124 _ (by decide) hb)]
  simp only [decode7C, b99, b0, word_hdr h 124 _ (by decide) hb, fld_of b1, fld_of b2, fld_of b3, res0, beq_self_eq_true, if_true]

theorem WordRoundTrip.csrr (h : Hdr) (d : BitVec 6) (c : BitVec 12) : WordRoundTrip.Statement (.csrr h d c) := by
  intro n he
  have i_d := d.isLt
  have i_c := c.isLt
  have he : some (h.enc + 2097152000 + d.toNat * 16384 + c.toNat * 4) = some n := he
  injection he with he
  have hb : 0 + d.toNat * 16384 + c.toNat * 4 < 1048576 := by omega
  obtain rfl : n = h.enc + 125 * 16777216 + (0 + d.toNat * 16384 + c.toNat * 4) := by omega
  refine ⟨word_lt h 125 _ (by decide) hb, fun hg => ?_⟩
  have b99 : bits (h.enc + 125 * 16777216 + (0 + d.toNat * 16384 + c.toNat * 4)) 0 2 = 0 := by
    rw [word_bits h 125 _ 0 2 (by decide)]; simp only [bits] <;> omega
  have b0 : bits (h.enc + 125 * 16777216 + (0 + d.toNat * 16384 + c.toNat * 4)) 14 6 = d.toNat := by
    rw [word_bits h 125 _ 14 6 (by decide)]; simp only [bits] <;> omega
  have b1 : bits (h.enc + 125 * 16777216 + (0 + d.toNat * 16384 + c.toNat * 4)) 2 12 = c.toNat := by
    rw [word_bits h 125 _ 2 12 (by decide)]; simp only [bits] <;> omega
  rw [decodeNat_of hg, decodeMajor_7D (word_major h 125 _ (by decide) hb)]
  simp only [decode7D, b99, word_hdr h 125 _ (by decide) hb, fld_of b0, fld_of b1]

theorem WordRoundTrip.csrw (h : Hdr) (d : BitVec 6) (c : BitVec 12) : WordRoundTrip.Statement (.csrw h d c) := by
  intro n he
  have i_d := d.isLt
  have i_c := c.isLt
  have he : some (h.enc + 2097152001 + d.toNat * 16384 + c.toNat * 4) = some n := he
  injection he with he
  have hb : 1 + d.toNat * 16384 + c.toNat * 4 < 1048576 := by omega
  obtain rfl : n = h.enc + 125 * 16777216 + (1 + d.toNat * 16384 + c.toNat * 4) := by omega
  refine ⟨word_lt h 125 _ (by decide) hb, fun hg => ?_⟩
  have b99 : bits (h.enc + 125 * 16777216 + (1 + d.toNat * 16384 + c.toNat * 4)) 0 2 = 1 := by
    rw [word_bits h 125 _ 0 2 (by decide)]; simp only [bits] <;> omega
  have b0 : bits (h.enc + 125 * 16777216 + (1 + d.toNat * 16384 + c.toNat * 4)) 14 6 = d.toNat := by
    rw [word_bits h 125 _ 14 6 (by decide)]; simp only [bits] <;> omega
  have b1 : bits (h.enc + 125 * 16777216 + (1 + d.toNat * 16384 + c.toNat * 4)) 2 12 = c.toNat := by
    rw [word_bits h 125 _ 2 12 (by decide)]; simp only [bits] <;> omega
  rw [decodeNat_of hg, decodeMajor_7D (word_major h 125 _ (by decide) hb)]
  simp only [decode7D, b99, word_hdr h 125 _ (by decide) hb, fld_of b0, fld_of b1]

theorem WordRoundTrip.csrs (h : Hdr) (d : BitVec 6) (c : BitVec 12) : WordRoundTrip.Statement (.csrs h d c) := by
  intro n he
  have i_d := d.isLt
  have i_c := c.isLt
  have he : some (h.enc + 2097152002 + d.toNat * 16384 + c.toNat * 4) = some n := he
  injection he with he
  have hb : 2 + d.toNat * 16384 + c.toNat * 4 < 1048576 := by omega
  obtain rfl : n = h.enc + 125 * 16777216 + (2 + d.toNat * 16384 + c.toNat * 4) := by omega
  refine ⟨word_lt h 125 _ (by decide) hb, fun hg => ?_⟩
  have b99 : bits (h.enc + 125 * 16777216 + (2 + d.toNat * 16384 + c.toNat * 4)) 0 2 = 2 := by
    rw [word_bits h 125 _ 0 2 (by decide)]; simp only [bits] <;> omega
  have b0 : bits (h.enc + 125 * 16777216 + (2 + d.toNat * 16384 + c.toNat * 4)) 14 6 = d.toNat := by
    rw [word_bits h 125 _ 14 6 (by decide)]; simp only [bits] <;> omega
  have b1 : bits (h.enc + 125 * 16777216 + (2 + d.toNat * 16384 + c.toNat * 4)) 2 12 = c.toNat := by
    rw [word_bits h 125 _ 2 12 (by decide)]; simp only [bits] <;> omega
  rw [decodeNat_of hg, decodeMajor_7D (word_major h 125 _ (by decide) hb)]
  simp only [decode7D, b99, word_hdr h 125 _ (by decide) hb, fld_of b0, fld_of b1]

theorem WordRoundTrip.csrc (h : Hdr) (d : BitVec 6) (c : BitVec 12) : WordRoundTrip.Statement (.csrc h d c) := by
  intro n he
  have i_d := d.isLt
  have i_c := c.isLt
  have he : some (h.enc + 2097152003 + d.toNat * 16384 + c.toNat * 4) = some n := he
  injection he with he
  have hb : 3 + d.toNat * 16384 + c.toNat * 4 < 1048576 := by omega
  obtain rfl : n = h.enc + 125 * 16777216 + (3 + d.toNat * 16384 + c.toNat * 4) := by omega
  refine ⟨word_lt h 125 _ (by decide) hb, fun hg => ?_⟩
  have b99 : bits (h.enc + 125 * 16777216 + (3 + d.toNat * 16384 + c.toNat * 4)) 0 2 = 3 := by
    rw [word_bits h 125 _ 0 2 (by decide)]; simp only [bits] <;> omega
  have b0 : bits (h.enc + 125 * 16777216 + (3 + d.toNat * 16384 + c.toNat * 4)) 14 6 = d.toNat := by
    rw [word_bits h 125 _ 14 6 (by decide)]; simp only [bits] <;> omega
  have b1 : bits (h.enc + 125 * 16777216 + (3 + d.toNat * 16384 + c.toNat * 4)) 2 12 = c.toNat := by
    rw [word_bits h 125 _ 2 12 (by decide)]; simp only [bits] <;> omega
  rw [decodeNat_of hg, decodeMajor_7D (word_major h 125 _ (by decide) hb)]
  simp only [decode7D, b99, word_hdr h 125 _ (by decide) hb, fld_of b0, fld_of b1]

theorem WordRoundTrip.immx (i : BitVec 20) : WordRoundTrip.Statement (.immx i) := by
  intro n he
  have i_i := i.isLt
  have he : some (2113929216 + i.toNat) = some n := he
  injection he with he
  subst he
  refine ⟨by omega, fun hg => ?_⟩
  have b90 : bits (2113929216 + i.toNat) 24 7 = 126 := by simp only [bits]; omega
  have b91 : bits (2113929216 + i.toNat) 31 1 = 0 := by simp only [bits]; omega
  have b92 : bits (2113929216 + i.toNat) 20 4 = 0 := by simp only [bits]; omega
  have b0 : bits (2113929216 + i.toNat) 0 20 = i.toNat := by simp only [bits]; omega
  rw [decodeNat_of hg, decodeMajor_7E b90]
  simp only [decode7E, b91, b92, fld_of b0, Nat.reduceBEq, Bool.false_eq_true, if_false]

theorem WordRoundTrip.opndReg (r : BitVec 6) : WordRoundTrip.Statement (.opndReg r) := by
  intro n he
  have i_r := r.isLt
  have he : some (2114977792 + r.toNat) = some n := he
  injection he with he
  subst he
  refine ⟨by omega, fun hg => ?_⟩
  have b90 : bits (2114977792 + r.toNat) 24 7 = 126 := by simp only [bits]; omega
  have b91 : bits (2114977792 + r.toNat) 31 1 = 0 := by simp only [bits]; omega
  have b92 : bits (2114977792 + r.toNat) 20 4 = 1 := by simp only [bits]; omega
  have b93 : bits (2114977792 + r.toNat) 19 1 = 0 := by simp only [bits]; omega
  have b0 : bits (2114977792 + r.toNat) 6 13 = 0 := by simp only [bits]; omega
  have b1 : bits (2114977792 + r.toNat) 0 6 = r.toNat := by simp only [bits]; omega
  rw [decodeNat_of hg, decodeMajor_7E b90]
  simp only [decode7E, b91, b92, b93, b0, fld_of b1, res0, beq_self_eq_true, if_true, Nat.reduceBEq, Bool.false_eq_true, if_false]

theorem WordRoundTrip.opndPred (p : BitVec 4) : WordRoundTrip.Statement (.opndPred p) := by
  intro n he
  have i_p := p.isLt
  have he : some (2115502080 + p.toNat) = some n := he
  injection he with he
  subst he
  refine ⟨by omega, fun hg => ?_⟩
  have b90 : bits (2115502080 + p.toNat) 24 7 = 126 := by simp only [bits]; omega
  have b91 : bits (2115502080 + p.toNat) 31 1 = 0 := by simp only [bits]; omega
  have b92 : bits (2115502080 + p.toNat) 20 4 = 1 := by simp only [bits]; omega
  have b93 : bits (2115502080 + p.toNat) 19 1 = 1 := by simp only [bits]; omega
  have b0 : bits (2115502080 + p.toNat) 4 15 = 0 := by simp only [bits]; omega
  have b1 : bits (2115502080 + p.toNat) 0 4 = p.toNat := by simp only [bits]; omega
  rw [decodeNat_of hg, decodeMajor_7E b90]
  simp only [decode7E, b91, b92, b93, b0, fld_of b1, res0, beq_self_eq_true, if_true, Nat.reduceBEq, Bool.false_eq_true, if_false]

theorem WordRoundTrip.modr (v : BitVec 1) (m : BitVec 2) (t : BitVec 1) (c : BitVec 3) (k : BitVec 3) (o : BitVec 2) (w : BitVec 2) : WordRoundTrip.Statement (.modr v m t c k o w) := by
  intro n he
  have i_v := v.isLt
  have i_m := m.isLt
  have i_t := t.isLt
  have i_c := c.isLt
  have i_k := k.isLt
  have i_o := o.isLt
  have i_w := w.isLt
  have he : some (2116026368 + v.toNat * 524288 + m.toNat * 131072 + t.toNat * 65536 + c.toNat * 8192 + k.toNat * 1024 + o.toNat * 256 + w.toNat * 64) = some n := he
  injection he with he
  subst he
  refine ⟨by omega, fun hg => ?_⟩
  have b90 : bits (2116026368 + v.toNat * 524288 + m.toNat * 131072 + t.toNat * 65536 + c.toNat * 8192 + k.toNat * 1024 + o.toNat * 256 + w.toNat * 64) 24 7 = 126 := by simp only [bits]; omega
  have b91 : bits (2116026368 + v.toNat * 524288 + m.toNat * 131072 + t.toNat * 65536 + c.toNat * 8192 + k.toNat * 1024 + o.toNat * 256 + w.toNat * 64) 31 1 = 0 := by simp only [bits]; omega
  have b92 : bits (2116026368 + v.toNat * 524288 + m.toNat * 131072 + t.toNat * 65536 + c.toNat * 8192 + k.toNat * 1024 + o.toNat * 256 + w.toNat * 64) 20 4 = 2 := by simp only [bits]; omega
  have b0 : bits (2116026368 + v.toNat * 524288 + m.toNat * 131072 + t.toNat * 65536 + c.toNat * 8192 + k.toNat * 1024 + o.toNat * 256 + w.toNat * 64) 0 6 = 0 := by simp only [bits]; omega
  have b1 : bits (2116026368 + v.toNat * 524288 + m.toNat * 131072 + t.toNat * 65536 + c.toNat * 8192 + k.toNat * 1024 + o.toNat * 256 + w.toNat * 64) 19 1 = v.toNat := by simp only [bits]; omega
  have b2 : bits (2116026368 + v.toNat * 524288 + m.toNat * 131072 + t.toNat * 65536 + c.toNat * 8192 + k.toNat * 1024 + o.toNat * 256 + w.toNat * 64) 17 2 = m.toNat := by simp only [bits]; omega
  have b3 : bits (2116026368 + v.toNat * 524288 + m.toNat * 131072 + t.toNat * 65536 + c.toNat * 8192 + k.toNat * 1024 + o.toNat * 256 + w.toNat * 64) 16 1 = t.toNat := by simp only [bits]; omega
  have b4 : bits (2116026368 + v.toNat * 524288 + m.toNat * 131072 + t.toNat * 65536 + c.toNat * 8192 + k.toNat * 1024 + o.toNat * 256 + w.toNat * 64) 13 3 = c.toNat := by simp only [bits]; omega
  have b5 : bits (2116026368 + v.toNat * 524288 + m.toNat * 131072 + t.toNat * 65536 + c.toNat * 8192 + k.toNat * 1024 + o.toNat * 256 + w.toNat * 64) 10 3 = k.toNat := by simp only [bits]; omega
  have b6 : bits (2116026368 + v.toNat * 524288 + m.toNat * 131072 + t.toNat * 65536 + c.toNat * 8192 + k.toNat * 1024 + o.toNat * 256 + w.toNat * 64) 8 2 = o.toNat := by simp only [bits]; omega
  have b7 : bits (2116026368 + v.toNat * 524288 + m.toNat * 131072 + t.toNat * 65536 + c.toNat * 8192 + k.toNat * 1024 + o.toNat * 256 + w.toNat * 64) 6 2 = w.toNat := by simp only [bits]; omega
  rw [decodeNat_of hg, decodeMajor_7E b90]
  simp only [decode7E, b91, b92, b0, fld_of b1, fld_of b2, fld_of b3, fld_of b4, fld_of b5, fld_of b6, fld_of b7, res0, beq_self_eq_true, if_true, Nat.reduceBEq, Bool.false_eq_true, if_false]

theorem WordRoundTrip.schd (y : BitVec 1) (u : BitVec 3) : WordRoundTrip.Statement (.schd y u) := by
  intro n he
  have i_y := y.isLt
  have i_u := u.isLt
  have he : some (2117074944 + y.toNat * 524288 + u.toNat * 65536) = some n := he
  injection he with he
  subst he
  refine ⟨by omega, fun hg => ?_⟩
  have b90 : bits (2117074944 + y.toNat * 524288 + u.toNat * 65536) 24 7 = 126 := by simp only [bits]; omega
  have b91 : bits (2117074944 + y.toNat * 524288 + u.toNat * 65536) 31 1 = 0 := by simp only [bits]; omega
  have b92 : bits (2117074944 + y.toNat * 524288 + u.toNat * 65536) 20 4 = 3 := by simp only [bits]; omega
  have b0 : bits (2117074944 + y.toNat * 524288 + u.toNat * 65536) 0 16 = 0 := by simp only [bits]; omega
  have b1 : bits (2117074944 + y.toNat * 524288 + u.toNat * 65536) 19 1 = y.toNat := by simp only [bits]; omega
  have b2 : bits (2117074944 + y.toNat * 524288 + u.toNat * 65536) 16 3 = u.toNat := by simp only [bits]; omega
  rw [decodeNat_of hg, decodeMajor_7E b90]
  simp only [decode7E, b91, b92, b0, fld_of b1, fld_of b2, res0, beq_self_eq_true, if_true, Nat.reduceBEq, Bool.false_eq_true, if_false]

theorem WordRoundTrip.ecls (e : BitVec 4) : WordRoundTrip.Statement (.ecls e) := by
  intro n he
  have i_e := e.isLt
  have he : some (2118123520 + e.toNat) = some n := he
  injection he with he
  subst he
  refine ⟨by omega, fun hg => ?_⟩
  have b90 : bits (2118123520 + e.toNat) 24 7 = 126 := by simp only [bits]; omega
  have b91 : bits (2118123520 + e.toNat) 31 1 = 0 := by simp only [bits]; omega
  have b92 : bits (2118123520 + e.toNat) 20 4 = 4 := by simp only [bits]; omega
  have b0 : bits (2118123520 + e.toNat) 4 16 = 0 := by simp only [bits]; omega
  have b1 : bits (2118123520 + e.toNat) 0 4 = e.toNat := by simp only [bits]; omega
  rw [decodeNat_of hg, decodeMajor_7E b90]
  simp only [decode7E, b91, b92, b0, fld_of b1, res0, beq_self_eq_true, if_true, Nat.reduceBEq, Bool.false_eq_true, if_false]

theorem WordRoundTrip.dump (h : Hdr) : WordRoundTrip.Statement (.dump h) := by
  intro n he
  have he : some (h.enc + 2130706432) = some n := he
  injection he with he
  have hb : 0 < 1048576 := by omega
  obtain rfl : n = h.enc + 127 * 16777216 + (0) := by omega
  refine ⟨word_lt h 127 _ (by decide) hb, fun hg => ?_⟩
  have b99 : bits (h.enc + 127 * 16777216 + (0)) 16 4 = 0 := by
    rw [word_bits h 127 _ 16 4 (by decide)]; simp only [bits] <;> omega
  have b0 : bits (h.enc + 127 * 16777216 + (0)) 0 16 = 0 := by
    rw [word_bits h 127 _ 0 16 (by decide)]; simp only [bits] <;> omega
  rw [decodeNat_of hg, decodeMajor_7F (word_major h 127 _ (by decide) hb)]
  simp only [decode7F, b99, b0, word_hdr h 127 _ (by decide) hb, res0, beq_self_eq_true, if_true]

theorem WordRoundTrip.tmark (h : Hdr) (c : BitVec 16) : WordRoundTrip.Statement (.tmark h c) := by
  intro n he
  have i_c := c.isLt
  have he : some (h.enc + 2130771968 + c.toNat) = some n := he
  injection he with he
  have hb : 65536 + c.toNat < 1048576 := by omega
  obtain rfl : n = h.enc + 127 * 16777216 + (65536 + c.toNat) := by omega
  refine ⟨word_lt h 127 _ (by decide) hb, fun hg => ?_⟩
  have b99 : bits (h.enc + 127 * 16777216 + (65536 + c.toNat)) 16 4 = 1 := by
    rw [word_bits h 127 _ 16 4 (by decide)]; simp only [bits] <;> omega
  have b0 : bits (h.enc + 127 * 16777216 + (65536 + c.toNat)) 0 16 = c.toNat := by
    rw [word_bits h 127 _ 0 16 (by decide)]; simp only [bits] <;> omega
  rw [decodeNat_of hg, decodeMajor_7F (word_major h 127 _ (by decide) hb)]
  simp only [decode7F, b99, word_hdr h 127 _ (by decide) hb, fld_of b0]

theorem WordRoundTrip.brk (u : BitVec 1) (v : BitVec 4) (c : BitVec 16) : WordRoundTrip.Statement (.brk u v c) := by
  intro n he
  have i_u := u.isLt
  have i_v := v.isLt
  have i_c := c.isLt
  have he : some (2131689472 + u.toNat * 2147483648 + v.toNat * 1048576 + c.toNat) = some n := he
  injection he with he
  subst he
  refine ⟨by omega, fun hg => ?_⟩
  have b90 : bits (2131689472 + u.toNat * 2147483648 + v.toNat * 1048576 + c.toNat) 24 7 = 127 := by simp only [bits]; omega
  have b99 : bits (2131689472 + u.toNat * 2147483648 + v.toNat * 1048576 + c.toNat) 16 4 = 15 := by simp only [bits]; omega
  have b0 : bits (2131689472 + u.toNat * 2147483648 + v.toNat * 1048576 + c.toNat) 31 1 = u.toNat := by simp only [bits]; omega
  have b1 : bits (2131689472 + u.toNat * 2147483648 + v.toNat * 1048576 + c.toNat) 20 4 = v.toNat := by simp only [bits]; omega
  have b2 : bits (2131689472 + u.toNat * 2147483648 + v.toNat * 1048576 + c.toNat) 0 16 = c.toNat := by simp only [bits]; omega
  rw [decodeNat_of hg, decodeMajor_7F b90]
  simp only [decode7F, b99, fld_of b0, fld_of b1, fld_of b2]

theorem WordRoundTrip.moduleReset : WordRoundTrip.Statement (.moduleReset) := by
  intro n he; cases he

theorem WordRoundTrip.firmwareBoot : WordRoundTrip.Statement (.firmwareBoot) := by
  intro n he; cases he

theorem WordRoundTrip.imageWrite (master : Nat) (die : Nat) (slot : Nat) (image : List (BitVec 8)) : WordRoundTrip.Statement (.imageWrite master die slot image) := by
  intro n he; cases he

theorem WordRoundTrip.modulePowerLoss : WordRoundTrip.Statement (.modulePowerLoss) := by
  intro n he; cases he

theorem WordRoundTrip.corePowerLoss (core : Nat) : WordRoundTrip.Statement (.corePowerLoss core) := by
  intro n he; cases he

theorem WordRoundTrip.motifPowerLoss (motif : Nat) : WordRoundTrip.Statement (.motifPowerLoss motif) := by
  intro n he; cases he

theorem WordRoundTrip.motifRestore (motif : Nat) : WordRoundTrip.Statement (.motifRestore motif) := by
  intro n he; cases he

theorem WordRoundTrip.coreResume (core : Nat) : WordRoundTrip.Statement (.coreResume core) := by
  intro n he; cases he

theorem WordRoundTrip.bankReload (core : Nat) (bank : Nat) : WordRoundTrip.Statement (.bankReload core bank) := by
  intro n he; cases he

theorem WordRoundTrip.coreGate (core : Nat) : WordRoundTrip.Statement (.coreGate core) := by
  intro n he; cases he

theorem WordRoundTrip.hostAccess (master : Nat) (part : Nat) (off : Nat) (len : Nat) (write : Option (List (BitVec 8))) : WordRoundTrip.Statement (.hostAccess master part off len write) := by
  intro n he; cases he

theorem WordRoundTrip.peerAccess (port : Nat) (off : Nat) (len : Nat) (write : Option (List (BitVec 8))) : WordRoundTrip.Statement (.peerAccess port off len write) := by
  intro n he; cases he

theorem WordRoundTrip.storePost (part : Nat) (window : Nat) : WordRoundTrip.Statement (.storePost part window) := by
  intro n he; cases he

theorem WordRoundTrip.dependencyMet (launch : Nat) : WordRoundTrip.Statement (.dependencyMet launch) := by
  intro n he; cases he

theorem WordRoundTrip.groupPlacement (part : Nat) : WordRoundTrip.Statement (.groupPlacement part) := by
  intro n he; cases he

theorem WordRoundTrip.preemptionSave (core : Nat) (group : Nat) : WordRoundTrip.Statement (.preemptionSave core group) := by
  intro n he; cases he

theorem WordRoundTrip.groupEnd (core : Nat) (group : Nat) : WordRoundTrip.Statement (.groupEnd core group) := by
  intro n he; cases he

theorem WordRoundTrip.sParkRelease (core : Nat) (slot : Nat) (lanes : BitVec 32) : WordRoundTrip.Statement (.sParkRelease core slot lanes) := by
  intro n he; cases he

theorem WordRoundTrip.cwaitRelease (core : Nat) (slot : Nat) (tag : Nat) : WordRoundTrip.Statement (.cwaitRelease core slot tag) := by
  intro n he; cases he

theorem WordRoundTrip.lbwaitRelease (core : Nat) (lgroup : Nat) : WordRoundTrip.Statement (.lbwaitRelease core lgroup) := by
  intro n he; cases he

theorem WordRoundTrip.queueParkRelease (core : Nat) (slot : Nat) (tag : Nat) : WordRoundTrip.Statement (.queueParkRelease core slot tag) := by
  intro n he; cases he

theorem WordRoundTrip.stageReassign (core : Nat) (slot : Nat) : WordRoundTrip.Statement (.stageReassign core slot) := by
  intro n he; cases he

theorem WordRoundTrip.napWake (core : Nat) (slot : Nat) (lane : Nat) : WordRoundTrip.Statement (.napWake core slot lane) := by
  intro n he; cases he

theorem WordRoundTrip.yieldExpiry (core : Nat) (slot : Nat) : WordRoundTrip.Statement (.yieldExpiry core slot) := by
  intro n he; cases he

theorem WordRoundTrip.holdGrant (core : Nat) (hold : Nat) : WordRoundTrip.Statement (.holdGrant core hold) := by
  intro n he; cases he

theorem WordRoundTrip.bankClearDone (core : Nat) (bank : Nat) : WordRoundTrip.Statement (.bankClearDone core bank) := by
  intro n he; cases he

theorem WordRoundTrip.bankRunComplete (op : Nat) : WordRoundTrip.Statement (.bankRunComplete op) := by
  intro n he; cases he

theorem WordRoundTrip.copyCompletion (op : Nat) : WordRoundTrip.Statement (.copyCompletion op) := by
  intro n he; cases he

theorem WordRoundTrip.copyFailure (op : Nat) : WordRoundTrip.Statement (.copyFailure op) := by
  intro n he; cases he

theorem WordRoundTrip.mloopCompletion (op : Nat) : WordRoundTrip.Statement (.mloopCompletion op) := by
  intro n he; cases he

theorem WordRoundTrip.bchkCompletion (op : Nat) : WordRoundTrip.Statement (.bchkCompletion op) := by
  intro n he; cases he

theorem WordRoundTrip.rowSegment (op : Nat) : WordRoundTrip.Statement (.rowSegment op) := by
  intro n he; cases he

theorem WordRoundTrip.stackEngineCompletion (op : Nat) : WordRoundTrip.Statement (.stackEngineCompletion op) := by
  intro n he; cases he

theorem WordRoundTrip.lineWriteback (line : Nat) : WordRoundTrip.Statement (.lineWriteback line) := by
  intro n he; cases he

theorem WordRoundTrip.dramRefresh (stack : Nat) (channel : Nat) (bank : Nat) : WordRoundTrip.Statement (.dramRefresh stack channel bank) := by
  intro n he; cases he

theorem WordRoundTrip.refreshBoundExpiry (stack : Nat) (channel : Nat) (bank : Nat) : WordRoundTrip.Statement (.refreshBoundExpiry stack channel bank) := by
  intro n he; cases he

theorem WordRoundTrip.streamWord (core : Nat) (slot : Nat) : WordRoundTrip.Statement (.streamWord core slot) := by
  intro n he; cases he

theorem WordRoundTrip.chheadWrite (master : Nat) (ch : Nat) (v : BitVec 64) : WordRoundTrip.Statement (.chheadWrite master ch v) := by
  intro n he; cases he

theorem WordRoundTrip.channelRecord (ch : Nat) : WordRoundTrip.Statement (.channelRecord ch) := by
  intro n he; cases he

theorem WordRoundTrip.channelCopyCompletion (ch : Nat) : WordRoundTrip.Statement (.channelCopyCompletion ch) := by
  intro n he; cases he

theorem WordRoundTrip.shuttleArrival (gtag : Nat) : WordRoundTrip.Statement (.shuttleArrival gtag) := by
  intro n he; cases he

theorem WordRoundTrip.guestPlacement (core : Nat) : WordRoundTrip.Statement (.guestPlacement core) := by
  intro n he; cases he

theorem WordRoundTrip.shuttleBounce (core : Nat) (gtag : Nat) : WordRoundTrip.Statement (.shuttleBounce core gtag) := by
  intro n he; cases he

theorem WordRoundTrip.homeArrival (shuttle : Nat) : WordRoundTrip.Statement (.homeArrival shuttle) := by
  intro n he; cases he

theorem WordRoundTrip.shuttleResend (shuttle : Nat) : WordRoundTrip.Statement (.shuttleResend shuttle) := by
  intro n he; cases he

theorem WordRoundTrip.groupMove (core : Nat) (group : Nat) (dst : Nat) : WordRoundTrip.Statement (.groupMove core group dst) := by
  intro n he; cases he

theorem WordRoundTrip.egressDrain (core : Nat) : WordRoundTrip.Statement (.egressDrain core) := by
  intro n he; cases he

theorem WordRoundTrip.journalApply (core : Nat) : WordRoundTrip.Statement (.journalApply core) := by
  intro n he; cases he

theorem WordRoundTrip.stackSpill (core : Nat) (slot : Nat) (lane : Nat) : WordRoundTrip.Statement (.stackSpill core slot lane) := by
  intro n he; cases he

theorem WordRoundTrip.fetchRetry (core : Nat) (slot : Nat) : WordRoundTrip.Statement (.fetchRetry core slot) := by
  intro n he; cases he

theorem WordRoundTrip.fetchRewalk (motif : Nat) : WordRoundTrip.Statement (.fetchRewalk motif) := by
  intro n he; cases he

theorem WordRoundTrip.deadlineExpiry (core : Nat) (launch : Nat) : WordRoundTrip.Statement (.deadlineExpiry core launch) := by
  intro n he; cases he

theorem WordRoundTrip.dumpWrite (part : Nat) : WordRoundTrip.Statement (.dumpWrite part) := by
  intro n he; cases he

theorem WordRoundTrip.energyRefill (core : Nat) (launch : Nat) : WordRoundTrip.Statement (.energyRefill core launch) := by
  intro n he; cases he

theorem WordRoundTrip.guestDebit (index : Nat) : WordRoundTrip.Statement (.guestDebit index) := by
  intro n he; cases he

theorem WordRoundTrip.ebudgetReport (index : Nat) : WordRoundTrip.Statement (.ebudgetReport index) := by
  intro n he; cases he

theorem WordRoundTrip.handlerPostRetry (core : Nat) (slot : Nat) : WordRoundTrip.Statement (.handlerPostRetry core slot) := by
  intro n he; cases he

theorem WordRoundTrip.currentAlarm (motif : Nat) : WordRoundTrip.Statement (.currentAlarm motif) := by
  intro n he; cases he

theorem WordRoundTrip.sensitivityWindow (motif : Nat) : WordRoundTrip.Statement (.sensitivityWindow motif) := by
  intro n he; cases he

theorem WordRoundTrip.controlInterval (motif : Nat) (temp : Nat) (estimate : Nat × Nat) : WordRoundTrip.Statement (.controlInterval motif temp estimate) := by
  intro n he; cases he

theorem WordRoundTrip.stepPhaseEnd (motif : Nat) : WordRoundTrip.Statement (.stepPhaseEnd motif) := by
  intro n he; cases he

theorem WordRoundTrip.hostLinkChange (master : Nat) (up : Bool) : WordRoundTrip.Statement (.hostLinkChange master up) := by
  intro n he; cases he

theorem WordRoundTrip.bmcPoll (answered : Bool) : WordRoundTrip.Statement (.bmcPoll answered) := by
  intro n he; cases he

theorem WordRoundTrip.ownerTimeout : WordRoundTrip.Statement (.ownerTimeout) := by
  intro n he; cases he

theorem WordRoundTrip.peerLinkDown (port : Nat) : WordRoundTrip.Statement (.peerLinkDown port) := by
  intro n he; cases he

theorem WordRoundTrip.debugTokenExpiry (part : Nat) : WordRoundTrip.Statement (.debugTokenExpiry part) := by
  intro n he; cases he

theorem WordRoundTrip.shootdown (master : Nat) (part : Nat) (value : BitVec 32) : WordRoundTrip.Statement (.shootdown master part value) := by
  intro n he; cases he

theorem WordRoundTrip.shootdownDone (part : Nat) : WordRoundTrip.Statement (.shootdownDone part) := by
  intro n he; cases he

theorem WordRoundTrip.aperrRead (master : Nat) (part : Nat) : WordRoundTrip.Statement (.aperrRead master part) := by
  intro n he; cases he

theorem WordRoundTrip.debugWindowAccess (master : Nat) (off : Nat) (len : Nat) (write : Option (List (BitVec 8))) : WordRoundTrip.Statement (.debugWindowAccess master off len write) := by
  intro n he; cases he

theorem WordRoundTrip.mmioWrite (master : Nat) (off : Nat) (bytes : List (BitVec 8)) : WordRoundTrip.Statement (.mmioWrite master off bytes) := by
  intro n he; cases he

theorem WordRoundTrip.cmdRead (master : Nat) : WordRoundTrip.Statement (.cmdRead master) := by
  intro n he; cases he

theorem WordRoundTrip.cmdClaim (master : Nat) : WordRoundTrip.Statement (.cmdClaim master) := by
  intro n he; cases he

theorem WordRoundTrip.cmdHandover (master : Nat) (succ : Nat) : WordRoundTrip.Statement (.cmdHandover master succ) := by
  intro n he; cases he

theorem WordRoundTrip.cmdGrant (master : Nat) (part : Nat) (grantee : Nat) : WordRoundTrip.Statement (.cmdGrant master part grantee) := by
  intro n he; cases he

theorem WordRoundTrip.cmdPset (master : Nat) (part : Nat) (field : Nat) (value : Nat) : WordRoundTrip.Statement (.cmdPset master part field value) := by
  intro n he; cases he

theorem WordRoundTrip.cmdErase (master : Nat) (part : Nat) : WordRoundTrip.Statement (.cmdErase master part) := by
  intro n he; cases he

theorem WordRoundTrip.cmdTbind (master : Nat) (part : Nat) (handle : BitVec 32) : WordRoundTrip.Statement (.cmdTbind master part handle) := by
  intro n he; cases he

theorem WordRoundTrip.cmdTunbind (master : Nat) (part : Nat) : WordRoundTrip.Statement (.cmdTunbind master part) := by
  intro n he; cases he

theorem WordRoundTrip.cmdDebug (master : Nat) (part : Nat) (state : Nat) : WordRoundTrip.Statement (.cmdDebug master part state) := by
  intro n he; cases he

theorem WordRoundTrip.cmdDstop (master : Nat) (core : Nat) : WordRoundTrip.Statement (.cmdDstop master core) := by
  intro n he; cases he

theorem WordRoundTrip.cmdDresume (master : Nat) (core : Nat) : WordRoundTrip.Statement (.cmdDresume master core) := by
  intro n he; cases he

theorem WordRoundTrip.cmdTraceread (master : Nat) (core : Nat) : WordRoundTrip.Statement (.cmdTraceread master core) := by
  intro n he; cases he

theorem WordRoundTrip.cmdDumpread (master : Nat) (part : Nat) (off : Nat) : WordRoundTrip.Statement (.cmdDumpread master part off) := by
  intro n he; cases he

theorem WordRoundTrip.cmdChallenge (master : Nat) : WordRoundTrip.Statement (.cmdChallenge master) := by
  intro n he; cases he

theorem WordRoundTrip.cmdProvision (master : Nat) : WordRoundTrip.Statement (.cmdProvision master) := by
  intro n he; cases he

theorem WordRoundTrip.cmdRetire (master : Nat) : WordRoundTrip.Statement (.cmdRetire master) := by
  intro n he; cases he

theorem WordRoundTrip.cmdAttest (master : Nat) (nonce : List (BitVec 8)) : WordRoundTrip.Statement (.cmdAttest master nonce) := by
  intro n he; cases he

theorem WordRoundTrip.classDResult (core : Nat) (slot : Nat) (res : Nat) : WordRoundTrip.Statement (.classDResult core slot res) := by
  intro n he; cases he

theorem WordRoundTrip.illegalOpWord (word : BitVec 32) : WordRoundTrip.Statement (.illegalOpWord word) := by
  intro n he; cases he

theorem WordRoundTrip.peerLinkUp (port : Nat) : WordRoundTrip.Statement (.peerLinkUp port) := by
  intro n he; cases he

end Sys2Proof.Laws
end

