-- ==== Sys2Proof/Machine/Record.lean ====
section
/-! DEFINITION. The MRAM beneath a motif and the journal's records as bytes (08_memories.md R166, R168, R169, Tables 8-4 to 8-7). The machine
keeps images, epochs and summaries as state (log 16); these functions say which bytes hold them. -/

namespace Sys2Proof.Machine

/-! ## The division of the MRAM (Table 8-4) -/

/-- Offsets of the areas of core `j` of a motif. -/
def mramScratch (j : Nat) : Nat := j * 0x800000
def mramRegs (j : Nat) : Nat := 0x4000000 + j * 0x100000
def mramAcc (j : Nat) : Nat := 0x4800000 + j * 0x40000
def mramState (j : Nat) : Nat := 0x4A00000 + j * 0x40000
def mramShuttles (j : Nat) : Nat := 0x4C00000 + j * 0x10000
def mramTrace (j : Nat) : Nat := 0x4C80000 + j * 0x2000

/-- The L2 shadow, the buffers of the journals, the configuration records and the dump summaries. -/
def mramShadow : Nat := 0x5000000
def mramJournal (j b : Nat) : Nat := 0x7000000 + (2 * j + b) * 0xE0000
def mramConfig : Nat := 0x7E00000
def mramSummaries : Nat := 0x7F00000

/-! ## Records (R168, Table 8-5) -/

/-- CRC-32C, reflected. -/
def crcBit (c : Nat) : Nat := if c % 2 = 1 then c / 2 ^^^ 0x82F63B78 else c / 2
def crcByte (c : Nat) (b : Byte) : Nat := (upFrom 8 0).foldl (fun c _ => crcBit c) (c ^^^ b.toNat)
def crc32c (bs : List Byte) : Nat := bs.foldl crcByte 0xFFFFFFFF ^^^ 0xFFFFFFFF

/-- A record before its bytes: kind, target, payload. -/
structure Record where
  kind : Nat
  target : Nat
  payload : List Byte
  deriving DecidableEq, Repr

/-- The 16 bytes before the payload. -/
def Record.head (r : Record) (seq : Nat) : List Byte :=
  bytesLE 1 r.kind ++ [0] ++ bytesLE 2 r.payload.length ++ bytesLE 4 seq ++ bytesLE 8 r.target

/-- The CRC of a record: over its bytes 0 to 15 + LEN - 1 (R168). -/
def Record.crc (r : Record) (seq : Nat) : Nat := crc32c ((r.head seq ++ r.payload).take (15 + r.payload.length))

/-- A record's bytes. -/
def Record.bytes (r : Record) (seq : Nat) : List Byte := r.head seq ++ r.payload ++ bytesLE 4 (r.crc seq) ++ bytesLE 4 0

/-! ## The records of an epoch (R168, R169, R171; Table 8-6) -/

/-- A lane of a warp slot of a core's state, with the warp's registers per lane. -/
def CoreSt.laneAt (k : CoreSt) (slot l : Nat) : Nat × Lane := match mfind k.warps slot with | some w => (w.nreg, w.lane l) | none => (0, {})

/-- The registers of a lane slot, which fill its 512 bytes of the image. -/
def regBytes (x : Nat × Lane) : List Byte := (upFrom 128 0).flatMap (fun p => bytesLE 4 (x.2.physReg x.1 p).toNat)

/-- The payload of a register image: the bytes from TARGET on, then the poison marks, one bit for each register. Table 8-4 gives the registers
all 8 MiB of their images: the marks lie beside them, under no offset (log 16). -/
def laneBytes (x : Nat × Lane) : List Byte := regBytes x ++ x.2.markImage x.1

/-- KIND 0x01: the lane slots whose registers or marks have changed. -/
def regRecords (old new : CoreSt) (j : Nat) : List Record :=
  (upFrom 64 0).flatMap (fun i => (upFrom 32 0).filterMap (fun l =>
    if laneBytes (old.laneAt i l) = laneBytes (new.laneAt i l) then none
    else some ⟨0x01, mramRegs j + 16384 * i + 512 * l, laneBytes (new.laneAt i l)⟩))

/-- KIND 0x02: the rows of 128 bytes that were written, or that a clearing or a move has changed, each whole and once (R171). -/
def rowRecords (old new : CoreSt) (j : Nat) : List Record :=
  (new.rows ++ ((old.scratch ++ new.scratch).map (fun (x : Host.Cell) => x.1 / 128)).filter (fun r =>
    memReads old.scratch (128 * r) 128 != memReads new.scratch (128 * r) 128)).eraseDups.map (fun r =>
      ⟨0x02, mramScratch j + 128 * r, memReads new.scratch (128 * r) 128⟩)

/-- KIND 0x03: pairs of accumulator entries that have changed. -/
def accRecords (old new : CoreSt) (j : Nat) : List Record :=
  let two (k : CoreSt) (i : Nat) : List Byte := bytesLE 4 (mget k.acc (2 * i) 0).toNat ++ bytesLE 4 (mget k.acc (2 * i + 1) 0).toNat
  (((old.acc ++ new.acc).map (fun (x : Nat × Word) => x.1 / 2)).eraseDups.filter (fun i => two old i != two new i)).map (fun i =>
    ⟨0x03, mramAcc j + 8 * i, two new i⟩)

/-- The entries of a list that differ from another's, by their number. -/
def changed {α : Type} [DecidableEq α] (old new : List α) : List (Nat × α) :=
  ((upFrom new.length 0).zip new).filter (fun x => old[x.1]? != some x.2)

/-- KINDs 0x05 and 0x06: entries of the shuttle queue and of the trace ring. -/
def queueRecords (old new : CoreSt) (j : Nat) : List Record :=
  (changed (old.shuttles.map shuttleImage) (new.shuttles.map shuttleImage)).map (fun x => ⟨0x05, mramShuttles j + 128 * x.1, x.2⟩)

def ringRecords (old new : CoreSt) (j : Nat) : List Record :=
  (new.trace.filter (fun x => mfind old.trace x.1 != some x.2)).map (fun x => ⟨0x06, mramTrace j + 16 * x.1, x.2.image⟩)

/-- KIND 0x07: the lines with dirty bytes, by the virtual line that wrote them: the mask, and the line. -/
def dirtyRecords (dirty : PMap Byte) (lines : PMap Nat) : List Record :=
  ((dirty.map (fun (x : Nat × Byte) => x.1 / 128)).eraseDups).map (fun ln =>
    ⟨0x07, 128 * mget lines ln 0, bytesLE 16 ((upFrom 128 0).foldl (fun a i => a + (if (mfind dirty (128 * ln + i)).isSome then 2 ^ i else 0)) 0) ++
      (upFrom 128 (128 * ln)).map (fun a => mget dirty a 0)⟩)

/-- A byte that the spec leaves open, fixed at the commit (log 16). -/
def Epoch.open (e : Epoch) (i : Nat) : Byte := BitVec.ofNat 8 (Config.free e.free (990000 + i))

/-- KINDs 0x08 and 0x0A: the requests and commands as sent and captured. The spec leaves the layout of a request open: its bytes are free
(log 16). A channel's command is its word and head, and adds to no counter of the instruction. -/
def Epoch.intentRecord (e : Epoch) (i : Intent) : Record :=
  match i with
  | .atomic slot l dests _ => ⟨0x08, atomTarget slot l (dests.headD 0), (upFrom 64 0).map e.open⟩
  | .engine op => match e.commands.find? (fun c => c.1 == op) with
    | some c => ⟨0x0A, c.2.1, bytesLE 8 c.2.2.1.toNat ++ c.2.2.2.flatMap (fun v => bytesLE 64 v.toNat)⟩
    | none => ⟨0x0A, 0, []⟩
  | .chain ch head w => ⟨0x0A, 0, bytesLE 4 w.toNat ++ bytesLE 4 ch ++ bytesLE 8 head⟩

/-- KIND 0x09: the old values that atomics have returned, each a multiple of 8 bytes. -/
def Epoch.resultRecords (e : Epoch) : List Record :=
  e.results.map (fun x => ⟨0x09, x.1, x.2 ++ List.replicate (x.2.length % 8) 0⟩)

/-- The state area of a core as an epoch leaves it: the spec leaves its layout open, so its bytes are free, fixed at the commit (log 16). -/
def Epoch.stateByte (e : Epoch) (off : Nat) : Byte := e.open (64 + off)

/-- KIND 0x04: context and warp state, when it has changed. -/
def Epoch.stateRecords (e : Epoch) (j : Nat) : List Record :=
  let old := e.prior
  let new := e.snap
  if old.warps = new.warps ∧ old.ctxs = new.ctxs ∧ old.groups = new.groups ∧ old.banks = new.banks then []
  else [⟨0x04, mramState j, (upFrom 1024 0).map e.stateByte⟩]

/-- The records of an epoch after the state that the epoch before it left. -/
def Epoch.records (e : Epoch) (j : Nat) : List Record :=
  regRecords e.prior e.snap j ++ rowRecords e.prior e.snap j ++ accRecords e.prior e.snap j ++ e.stateRecords j ++
  queueRecords e.prior e.snap j ++ ringRecords e.prior e.snap j ++ dirtyRecords e.dirty e.lines ++ e.resultRecords ++
  e.intents.map e.intentRecord

/-- The commit record (Table 8-7). -/
def Epoch.commit (e : Epoch) (rs : List Record) : Record :=
  ⟨0x0F, e.seq, bytesLE 4 rs.length ++ bytesLE 4 (crc32c (rs.flatMap (fun r => bytesLE 4 (r.crc e.seq)))) ++ bytesLE 8 e.time ++ bytesLE 8 e.cause⟩

/-- The bytes that an epoch has in its core's journal; a torn one has no commit record (R170). -/
def Epoch.journal (j : Nat) (e : Epoch) : List Byte :=
  let rs := e.records j
  rs.flatMap (fun r => r.bytes e.seq) ++ (if e.intact then (e.commit rs).bytes e.seq else [])

/-! ## Bytes of the MRAM -/

/-- A byte of core `j`'s images. -/
def imageByte (e : Epoch) (j off : Nat) : Byte :=
  let k := e.snap
  if off < 0x4000000 then memRead k.scratch (off - mramScratch j)
  else if off < 0x4800000 then
    let o := off - mramRegs j
    (regBytes (k.laneAt (o / 16384) (o % 16384 / 512))).getD (o % 512) 0
  else if off < 0x4A00000 then (bytesLE 4 (mget k.acc ((off - mramAcc j) / 4) 0).toNat).getD (off % 4) 0
  else if off < 0x4C00000 then e.stateByte (off - mramState j)
  else if off < 0x4C80000 then ((k.shuttles[(off - mramShuttles j) / 128]?).map (fun x => (shuttleImage x).getD (off % 128) 0)).getD 0
  else ((mfind k.trace ((off - mramTrace j) / 16)).map (fun x => x.image.getD (off % 16) 0)).getD 0

/-- The poison mark of register `r` beside the image of a lane slot. -/
def imageMark (e : Epoch) (slot l r : Nat) : Bool := (e.snap.laneAt slot l).2.physMark (e.snap.laneAt slot l).1 r

/-- The core of a motif whose area an offset lies in. -/
def mramCore (off : Nat) : Option Nat :=
  if off < 0x4000000 then some (off / 0x800000)
  else if off < 0x4800000 then some ((off - 0x4000000) / 0x100000)
  else if off < 0x4C00000 then some ((off - 0x4800000) % 0x200000 / 0x40000)
  else if off < 0x4C80000 then some ((off - 0x4C00000) / 0x10000)
  else if off < 0x4C90000 then some ((off - 0x4C80000) / 0x2000)
  else none

/-- A byte of buffer `b` of core `j`'s journal: the records of its epochs, packed, oldest first. Beyond them stand older ones, whose bytes
are free. -/
def journalByte (s : State) (k : Core) (j b off : Nat) : Byte :=
  match (((k.journals.filter (fun e => e.buf == b)).flatMap (Epoch.journal j))[off]?) with
  | some x => x
  | none => BitVec.ofNat 8 (Config.free s.free (960000 + 2 * off + b))

/-- The part of the L2 shadow: the spec does not say where in it a line lies, so its bytes are free; `l2shadow` and `shadowTag` hold the
lines and their tags (log 16). -/
def shadowByte (s : State) (off : Nat) : Byte := BitVec.ofNat 8 (Config.free s.free (970000 + off))

/-- The dump summaries, one after another in motif 0 (17_faults.md R353 names no motif: log 16), and the firmware area, whose contents the
spec leaves open. -/
def summaryByte (s : State) (motif off : Nat) : Byte :=
  match (if motif = 0 then s.summaries.flatten else [])[off]? with
  | some x => x
  | none => BitVec.ofNat 8 (Config.free s.free (980000 + off + motif))

/-- A byte of a motif's MRAM (Table 8-4): the images as the last applied epoch left them, reserved bytes as zero, the L2 shadow, the
journals, and in motif 0 the configuration records and the dump summaries. -/
def mramByte (s : State) (motif off : Nat) : Byte :=
  match mramCore off with
  | some j => imageByte (s.core (8 * motif + j)).image j off
  | none =>
    if off < mramShadow then 0
    else if off < mramJournal 0 0 then shadowByte s (off - mramShadow)
    else if off < mramConfig then
      let o := off - mramJournal 0 0
      let j := o / 0x1C0000
      journalByte s (s.core (8 * motif + j)) j (o / 0xE0000 % 2) (o % 0xE0000)
    else if off < mramSummaries then (if motif = 0 then s.cfgRecords.flatten.getD (off - mramConfig) 0 else 0)
    else summaryByte s motif (off - mramSummaries)

end Sys2Proof.Machine
end

