-- ==== Sys2Proof/Tests/Slice0.lean ====
section
/-! SUPPORT. Tests of the model: ill-formed terms and words are refused, words worked out in the spec decode to what they stand
for, worked examples of the spec come out as it states, and every hypothesis of the statements is met by some state. -/

open Sys2Proof Sys2Proof.Machine

namespace Sys2Proof.Tests

set_option Elab.async false
set_option maxRecDepth 100000
set_option exponentiation.threshold 600

/-! ## States -/

/-- No marker, no guard. -/
def p0 : Hdr := ⟨false, false, 0⟩

/-- The registers of the lanes of `run`: small numbers, the address 0x2000 of memory in g4, the offset 0x40 of the core's scratchpad in g6. -/
def low : PMap Word :=
  [(1, 7), (2, 3), (3, 5), (4, 0x2000), (6, 0x40), (7, 0x01FFFF01), (8, 1), (9, 2), (10, 3), (11, 4), (12, 0x3F800000), (13, 0x40000000)]

/-- Lanes 0 and 1 READY at 0x1000 in a task that owns banks 0 and 1 of core 0, about to issue. -/
def here (r0 r1 : PMap Word) : State :=
  let s := loadTask State.reset 0
  let s := s.modWarp 0 0 (fun w => { w with
    lanes := [(0, { state := .ready, pc := 0x1000, pw := 3, regs := r0 }), (1, { state := .ready, pc := 0x1000, regs := r1 })] })
  let s := s.modSt 0 (fun k => { k with banks := [(0, { owner := some 2 }), (1, { owner := some 2 })] })
  { s with cur := { core := 0, slot := 0, lanes := 3, pc := 0x1000, hpc := 0x1000 } }

def run : State := here low low

/-- With hints before the instruction. -/
def hinted (s : State) (hs : List Hint) : State := { s with cur := { s.cur with hints := hs } }

/-- With scalar registers. -/
def scalars (s : State) (m : PMap Word) : State := s.modCurWarp (fun w => { w with s := m })

/-- With a change of lane 0. -/
def lane0 (s : State) (f : Lane → Lane) : State := s.modCurLane 0 f

/-- With shape registers. -/
def shapes (s : State) (m : PMap (BitVec 512)) : State :=
  s.modSt 0 (fun k => { k with ctxs := k.ctxs.map (fun c => (c.1, { c.2 with sh := m })) })

/-- All these forms are performed. -/
def allPerform (s : State) (fs : List Form) : Bool := fs.all (fun f => performs f s)

/-- What an instruction leaves. -/
def aft {α : Type} (i : Instr) (s : State) (f : State → α) : Option α :=
  match exec i s with
  | .next t => some (f t)
  | _ => none

/-- The state that a meaning leaves. -/
def nextOf (o : Host.Outcome State Fault Refusal) (s : State) : State := match o with | .next t => t | _ => s
def next (i : Instr) (s : State) : State := nextOf (exec i s) s

/-- A register of lane 0 after an instruction that writes it at once. -/
def reg (r : Nat) (t : State) : Word := t.g 0 r

/-- What a class-D instruction leaves pending for lane 0's register. -/
def pends (r : Nat) (t : State) : List Word := pendG t.curWarp.pend 0 r

/-- The first result left pending that sets a predicate of lane 0. -/
def pendsP (k : Nat) (t : State) : List Bool := pendP t.curWarp.pend 0 k

/-- Flags of the results left pending. -/
def flags (t : State) : List Nat := t.curWarp.pend.map (fun r => r.flags.toNat)

/-! ## Well-formed terms and words (03_instruction_words.md R55, R56, R59, R60) -/

theorem smoke_event_has_no_word : wfError (.bankClearDone 0 0) = some .noWord := by decide
theorem smoke_never_guard : wfError (.iadd ⟨false, true, 0⟩ 1 2 3) = some .neverGuard := by decide
theorem smoke_odd_pair : wfError (.iadd64 p0 3 4 6) = some .illegalOperand := by decide
theorem smoke_mask_number : wfError (.join p0 12) = some .illegalOperand := by decide
theorem smoke_reserved_code : wfError (.icmp p0 1 2 3 0xB) = some .illegalOperand := by decide
theorem smoke_well_formed : wfError (.iadd p0 1 2 3) = none ∧ Instr.wf (.stq p0 8 4 0 1) = true := by decide

/-- Why a word is no instruction. -/
def whyNot (n : Nat) : Option DecodeError := match decodeNat n with | .error e => some e | .ok _ => none

theorem smoke_unassigned_major : whyNot 0x0C000000 = some .unassignedMajor := by decide
theorem smoke_reserved_minor : whyNot 0x43000003 = some .reservedMinor := by decide
theorem smoke_res0 : whyNot 0x00000006 = some .nonzeroRes0 := by decide
theorem smoke_guard_never_true : whyNot 0x00814518 = some .neverGuard := by decide
theorem smoke_bad_hint : whyNot 0xFE012345 = some .badHint ∧ whyNot 0x7E700000 = some .badHint := by decide
theorem smoke_truncated : (decodeBytes [0x18, 0x45, 0x31]).toOption = none := by decide

/-! ## Words worked out in the spec, field by field: the word, and the instruction that it stands for -/

/-- 03 Worked encodings: D = 5 at [19:14], A = 5 at [13:8], B = 6 at [7:2], GP = 3 at [22:20]. -/
theorem word_iadd : decodeTableWord 32 (3 * 2 ^ 20 + 5 * 2 ^ 14 + 5 * 2 ^ 8 + 6 * 2 ^ 2) = some (.iadd ⟨false, false, 3⟩ 5 5 6) ∧
    0x00314518 = 3 * 2 ^ 20 + 5 * 2 ^ 14 + 5 * 2 ^ 8 + 6 * 2 ^ 2 := by decide
/-- 04, the 128-bit add. -/
theorem word_addc : decodeTableWord 32 0x0B030422 = some (.addc p0 12 4 8) ∧ decodeTableWord 32 0x0B03C72E = some (.addc p0 15 7 11) ∧
    decodeTableWord 32 0x1D030000 = some (.plop p0 3 0 0 0) ∧ decodeTableWord 32 0x7E180003 = some (.opndPred 3) := by decide
theorem word_compares : decodeTableWord 32 0x18021462 = some (.icmp p0 2 5 6 2) ∧ decodeTableWord 32 0x2403515A = some (.fcmp p0 3 20 21 0xA) := by decide
theorem word_moves : decodeTableWord 32 0x1B024000 = some (.movi p0 9 0) ∧ decodeTableWord 32 0x3E00C900 = some (.smovS p0 3 9) := by decide
theorem word_packed : decodeTableWord 32 0x27030C31 = some (.pkmulF16 p0 12 12 12) := by decide
theorem word_conversion : decodeTableWord 32 0x31014643 = some (.cvt p0 5 6 8 0xB) ∧ decodeTableWord 32 0x36014602 = some (.frnd p0 5 6 2) ∧
    decodeTableWord 32 0x37028400 = some (.qblk p0 10 4 0) := by decide
theorem word_exchange : decodeTableWord 32 0x3801461F = some (.shflBfly p0 5 6 7) ∧ decodeTableWord 32 0x39021403 = some (.voteOdd p0 2 5) ∧
    decodeTableWord 32 0x3C014608 = some (.redw p0 5 6 0 2) ∧ decodeTableWord 32 0x3D014601 = some (.scanwExcl p0 5 6 0 0) := by decide
theorem word_control : decodeTableWord 32 0x43000002 = some (.waitm p0 0) ∧ decodeTableWord 32 0x43010000 = some (.join p0 1) ∧
    decodeTableWord 32 0x40000005 = some (.bra p0 5) ∧ decodeTableWord 32 0x41020100 = some (.call p0 2 0x100) ∧ decodeTableWord 32 0x4700FFFF = some (.safe p0 0xFFFF) := by decide
theorem word_memory : decodeTableWord 32 0xD201C404 = some (.ldw ⟨true, false, 0⟩ 7 4 0 4) ∧ decodeTableWord 32 0x5701C402 = some (.stw p0 7 4 0 2) ∧
    decodeTableWord 32 0x5D020432 = some (.casQ p0 8 4 12) ∧ decodeTableWord 32 0x5B020408 = some (.atom p0 8 4 0 1) := by decide
theorem word_lines : decodeTableWord 32 0x5F006000 = some (.phase p0 1 4) ∧ decodeTableWord 32 0x5F011800 = some (.pfence p0 3) ∧
    decodeTableWord 32 0x5F040400 = some (.zline p0 4) ∧ decodeTableWord 32 0x5F070490 = some (.pgprobe p0 4 9) := by decide
theorem word_copies : decodeTableWord 32 0x60023010 = some (.acpy p0 2 3 1 0) ∧ decodeTableWord 32 0x62040000 = some (.afill p0 4 0 0) ∧
    decodeTableWord 32 0x64000518 = some (.chain p0 5 6) := by decide
theorem word_matrix : decodeTableWord 32 0x69045601 = some (.mloop p0 4 5 6 0 1) ∧ decodeTableWord 32 0xEA050600 = some (.accrd ⟨true, false, 0⟩ 20 6) := by decide
theorem word_stacks : decodeTableWord 32 0x70034000 = some (.rcopy p0 3 4 0) ∧ decodeTableWord 32 0x73023405 = some (.nseg p0 2 3 4 0 1 1) := by decide
theorem word_counters : decodeTableWord 32 0xF80020A0 = some (.cwait ⟨true, false, 0⟩ 0 8 10) ∧ decodeTableWord 32 0x79000E24 = some (.bwinit p0 14 9) ∧
    decodeTableWord 32 0xF9078E00 = some (.bwtest ⟨true, false, 0⟩ 6 14 0) ∧ decodeTableWord 32 0x7A047000 = some (.lbwait p0 7) := by decide
theorem word_hints : decodeTableWord 32 0x7E012345 = some (.immx 0x12345) ∧ decodeTableWord 32 0x7E200B00 = some (.modr 0 0 0 0 2 3 0) := by decide

/-- 08 Worked example: the line at 0x32_1234_5678 is homed in motif 12. -/
theorem home_of_line : homeMotif 0x3212345678 = 12 ∧ stackOf 0x3212345678 = 3 := by decide
/-- 12 Worked example: the line of words 0x1000_0000 + i has the tag 6. -/
theorem line_tag : encodeTag ((upFrom 32 0).flatMap (fun i => bytesLE 4 (0x10000000 + i))) = 6 := by decide

/-! ## Instructions that write registers: the hypothesis of their statements is met, with and without hints -/

theorem witness_integer : allPerform run [{ formInt p0 14 1 2 with acc := { imm1 := true, sat := true } },
    { formInt1 p0 14 1 with acc := { imm1 := true, sat := true }, immZero := (3 : BitVec 8) == 0 }, formInt1 p0 14 1, formInt p0 0 1 63,
    formFC p0 14 1 2 run, { formInt p0 14 1 2 with src := [1, 2, 14] }] = true := by decide

theorem witness_integer_hinted : allPerform (hinted run [.immx 5, .modr false 0 true 0 0 0 0]) [{ formInt p0 14 1 0 with acc := { imm1 := true, sat := true } },
      { formInt1 p0 14 1 with acc := { imm1 := true, sat := true }, immZero := (0 : BitVec 8) == 0 }] = true ∧
    allPerform (hinted run [.opndReg 3]) [formFC p0 14 1 2 (hinted run [.opndReg 3])] = true := by decide

theorem witness_wide_moves : allPerform run [
    { h := p0, ok := evenReg 14 && evenReg 4, acc := { imm1 := true, imm2 := true }, immZero := (2 : BitVec 6) == 0,
      src := regsOf 4 2 ++ [2], dst := regsOf 14 2 }, formPair p0 14 4 6 (evenReg 14 && evenReg 4 && evenReg 6) run, formInt1 p0 14 1,
      { h := p0, acc := { imm1 := true, imm2 := true }, immZero := (3 : BitVec 14) == 0, dst := [14] }, { h := p0, psrc := upFrom 15 1, dst := [14] },
      { h := p0, src := [1], pdst := upFrom 15 1 }] = true ∧
    allPerform (hinted run [.opndPred 3]) [{ formInt p0 14 1 2 with acc := { imm1 := true, opndP := true, opndNeed := true } }] = true := by decide

theorem witness_compares : allPerform run [
      { h := p0, ok := intCondOk 0xA, acc := { imm1 := true }, immZero := (2 : BitVec 6) == 0, src := [1, 2], pdst := [15] },
      { h := p0, ok := intCondOk 0, acc := { imm1 := true }, immZero := (2 : BitVec 6) == 0, src := [1], pdst := [1] },
      { h := p0, psrc := [1, 15], pdst := [0] }] = true := by decide

theorem witness_scalars : allPerform run [formSop p0 1 2 (sReg 31 && sReg 1 && sReg 2) run,
      { h := p0, ok := intCondOk 3, acc := { imm1 := true }, immZero := (2 : BitVec 5) == 0, uniform := true, pdst := [1],
        ssrc := [1] ++ (if run.immxs.isEmpty then [2] else []) },
      { h := p0, ok := sReg 3, src := [1], uniform := true, guestOk := false },
      { h := p0, ok := sReg 3, dst := [9], ssrc := [3], uniform := true, guestOk := false }] = true := by decide

theorem witness_float : allPerform run [formF p0 14 12 13 true, formF p0 14 12 13 false, formF1 p0 14 12 true, formF1 p0 14 12 false,
      { h := p0, acc := { opndG := true, rnd := true }, src := [12, 13] ++ (if run.opnd.isSome then [] else [14]), dst := [14] },
      { h := p0, ok := floatCondOk 0xD, src := [12, 13], pdst := [1] }, formPk p0 14 12 13, formPkFma p0 14 12 13 run] = true := by decide

theorem witness_conversions : allPerform run [
      { h := p0, ok := cvtOk 14 12 8 0xB, acc := { rnd := true, sat := true }, src := elemRegs 12 8, dst := elemRegs 14 0xB },
      { h := p0, src := [12], dst := [14] }, { h := p0, ok := evenReg 14 && mxOk 5, src := [12], dst := regsOf 14 2 },
      { h := p0, ok := evenReg 12 && mxOk 0, src := regsOf 12 2, dst := [14] }] = true ∧
    allPerform (hinted run [.opndPred 2]) [
    { h := p0, ok := evenReg 14 && evenReg 12 && mxOk 0, acc := { opndPDst := true, opndNeed := true },
      src := regsOf 12 2, dst := regsOf 14 2, shsrc := [7] }] = true := by decide

theorem witness_cross_lane : allPerform run [formShfl p0 14 1 2 run, formVote p0 1 2, { h := p0, psrc := [1], dst := [14] }, { h := p0, src := [1], dst := [14] },
      { h := p0, ok := redOk 14 1 5 1, src := redRegs 1 1, dst := redRegs 14 1 },
      { h := p0, ok := redOk 14 4 2 3, src := redRegs 4 3, dst := redRegs 14 3 }] = true := by decide

/-! ## Worked results of the spec -/

/-- R77: the sum wraps at 2^32 and saturates under .sat. -/
theorem test_iadd : aft (.iadd p0 14 15 1) (here [(15, 0xFFFFFFFF), (1, 2)] []) (reg 14) = some 1 ∧
    aft (.iadd p0 14 15 1) (hinted (here [(15, 0x7FFFFFFF), (1, 2)] []) [.modr false 0 true 0 0 0 0]) (reg 14) = some 0x7FFFFFFF := by decide
/-- R77: a register that is source and destination; the absolute value of the most negative number is itself. -/
theorem test_isub_iabs : aft (.isub p0 1 2 1) run (reg 1) = some 0xFFFFFFFC ∧ aft (.iabs p0 14 15) (here [(15, 0x80000000)] []) (reg 14) = some 0x80000000 := by decide
theorem test_mul : aft (.imulhI32 p0 14 15 1) (here [(15, 0xFFFFFFFF), (1, 2)] []) (reg 14) = some 0xFFFFFFFF ∧
    aft (.imulhN32 p0 14 15 1) (here [(15, 0xFFFFFFFF), (1, 2)] []) (reg 14) = some 1 := by decide
/-- 04 R81, the example below it. -/
theorem test_bfx : aft (.bfxN32 p0 14 15 1) (here [(15, 0xABCD), (1, 0x804)] []) (reg 14) = some 0xBC ∧
    aft (.bfxI32 p0 14 15 1) (here [(15, 0xABCD), (1, 0x804)] []) (reg 14) = some 0xFFFFFFBC := by decide
/-- 04 R82, the selectors named there. -/
theorem test_perm : aft (.perm p0 14 15 1) (here [(15, 0x00008123), (1, 0x55667788), (14, 0x9910)] []) (reg 14) = some 0xFFFF8123 ∧
    aft (.perm p0 14 15 1) (here [(15, 0x00008123), (1, 0x55667788), (14, 0x7654)] []) (reg 14) = some 0x55667788 := by decide
/-- 04 Worked example: the first step of the 128-bit add. -/
theorem test_addc : aft (.addc p0 12 4 8) (hinted (here [(4, 0xFFFFFFFF), (8, 1)] []) [.opndPred 3]) (fun t => (reg 12 t, t.p 0 3)) = some (0, true) := by decide
/-- R80: a shift by 32 or more; R84 the sign of a literal. -/
theorem test_shift_move : aft (.sar p0 14 15 1) (here [(15, 0x80000000), (1, 32)] []) (reg 14) = some 0xFFFFFFFF ∧
    aft (.movi p0 14 0x3FFF) run (reg 14) = some 0xFFFFFFFF := by decide
theorem test_lea : aft (.lea p0 14 4 1 3) (here [(4, 0xFFFFFFFF), (1, 0xFFFFFFFF)] []) (fun t => t.gd 0 14) = some 0xFFFFFFEF := by decide
/-- R69: a write to g0 is discarded. -/
theorem test_g0 : aft (.iadd p0 0 1 2) run (fun t => (reg 0 t, reg 1 t)) = some (0, 7) := by decide
/-- R51: a false guard: lane 1 has p1 false. -/
theorem test_guard : aft (.mov ⟨false, false, 1⟩ 14 1) run (fun t => (t.g 0 14, t.g 1 14, (t.curLane 1).pc)) = some (7, 0, 0x1004) := by decide
theorem test_scalar : aft (.sopAdd p0 3 1 2) (scalars run [(1, 0xFFFFFFFF), (2, 2)]) (fun t => t.sr 3) = some 1 := by decide
/-- R93: 1.0 + 2.0, and the flags of an inexact and of an invalid operation. -/
theorem test_fadd : aft (.fadd p0 14 12 13) run (pends 14) = some [0x40400000] ∧
    aft (.fadd p0 14 12 13) (here [(12, 0x7F800000), (13, 0xFF800000)] []) (pends 14) = some [0x7FC00000] := by decide
/-- R94: FMIN of -0 and +0. -/
theorem test_fmin : aft (.fmin p0 14 12 13) (here [(12, 0x80000000), (13, 0)] []) (pends 14) = some [0x80000000] := by decide
theorem test_fdiv_by_zero : aft (.frcp p0 14 12) (here [(12, 0)] []) (pends 14) = some [0x7F800000] := by decide
/-- 02 Table 2-4: the codes of 3.0 and -0.1 in five formats. -/
theorem test_formats : (FFmt.bf16.round .rn false (FFmt.f32.decode 0xBDCCCCCD)).1 = 0xBDCD ∧ (FFmt.f16.round .rn false (FFmt.f32.decode 0xBDCCCCCD)).1 = 0xAE66 ∧
    (FFmt.e4m3.round .rn false (FFmt.f32.decode 0xBDCCCCCD)).1 = 0x9D ∧ (FFmt.e2m1.round .rn false (FFmt.f32.decode 0xBDCCCCCD)).1 = 8 ∧
    (FFmt.e5m2.round .rn false (FFmt.f32.decode 0x40400000)).1 = 0x42 := by decide
/-- 02 Worked encodings: 3.0 and 0.1 in the tapered formats. -/
theorem test_tapered : (roundTapered 8 (FFmt.f32.decode 0x40400000)).1 = 0x58 ∧ (roundTapered 6 (FFmt.f32.decode 0x40400000)).1 = 0x16 ∧
    (roundTapered 8 (FFmt.f32.decode 0x3DCCCCCD)).1 = 0x15 ∧ (roundTapered 6 (FFmt.f32.decode 0xBDCCCCCD)).1 = 0x25 := by decide
/-- 02 Worked example: a block of 0.07 and zeros has the scale 0x79 and the element code 6; DQBLK gives 0.0625 back. -/
theorem test_block : (quantBlock (mxOf 0) (FFmt.f32.decode 0x3D8F5C29 :: List.replicate 31 (FFmt.f32.decode 0))).1 = 0x79 ∧
    ((quantBlock (mxOf 0) (FFmt.f32.decode 0x3D8F5C29 :: List.replicate 31 (FFmt.f32.decode 0))).2.getD 0 (0, false, false)).1 = 6 ∧
    (dequant (mxOf 0) 6 0x79).1 = 0x3D800000 := by decide
/-- 02 R47, R48 Worked example: the tree over 2^24, 1 and 1 gives 2^24. -/
theorem test_tree : redTree (redOp 0 2) [some (0x4B800000, (0 : OpFlags)), some (0x3F800000, 0), some (0x3F800000, 0), none] =
    some (0x4B800000, OpFlags.when true .nx) := by decide
theorem test_exchange : aft (.shflBfly p0 14 1 2) (here [(1, 10), (2, 1)] [(1, 11), (2, 1)]) (fun t => pendG t.curWarp.pend 0 14 ++ pendG t.curWarp.pend 1 14) =
    some [11, 10] := by decide

/-- R97: the special functions complete on ordinary data, here 1.0 in g12: 1.0, 1.0, 1.0, 2.0, 0.0 exactly. -/
theorem test_special : ([Instr.frcp p0 14 12, .frsq p0 14 12, .fsqrt p0 14 12, .fex2 p0 14 12, .flg2 p0 14 12].map (fun i => aft i run (pends 14))) =
    [some [0x3F800000], some [0x3F800000], some [0x3F800000], some [0x40000000], some [0]] := by decide
/-- What the statement on special functions assumes is met, with FSIN, FCOS and FTANH of 1.0 pending. -/
theorem test_special_meets : performs (formF1 p0 14 12 true) run = true ∧
    ([Instr.fsin p0 14 12, .fcos p0 14 12, .ftanh p0 14 12].map (fun i => (aft i run (pends 14)).map List.length)) = [some 1, some 1, some 1] := by decide
/-- R29: a lone member's signalling NaN leaves a reduction as the canonical NaN, with NV; NMX's NEG of a NaN too. -/
theorem test_lone_nan : redLeaf 2 0xFF800001 = (0x7FC00000, .nv) ∧ nmxOp ⟨0, 0, 0, 0, 0, 0, 0⟩ 0x0F [0x7FC00001] = [0x7FC00000] := by decide
/-! ## Control -/

/-- A header with the bytes at these offsets. -/
def header (fs : List (Nat × Nat)) : Header := ⟨fs.foldl (fun bs f => bs.set f.1 (BitVec.ofNat 8 f.2)) loadHeader.bytes⟩

/-- The stack of 06 Worked example, at a mapped address: SIZE 64 KiB, FRAME 256 bytes, SP at the top. -/
def stacked : State :=
  (run.modCurWarp (fun w => { w with stkbase := 0x2000000, stklim := 0x1000100 })).modCurWarp (fun w =>
    { w with lanes := w.lanes.map (fun x => (x.1, { x.2 with sp := w.stackTop x.1 })) })

/-- A fibre of its caller's frame: SP 304 bytes lower, where a link record of zeros stands. -/
def called : State := stacked.modCurWarp (fun w => { w with lanes := w.lanes.map (fun x => (x.1, { x.2 with sp := x.2.sp - 304, lk := 0x1004 })) })

theorem witness_branches : allPerform run [{ h := p0 }, { h := p0, ok := evenReg 4, src := regsOf 4 2 }] = true ∧
    (∀ l ∈ run.active p0, (run.gd l 4).toNat % 4 = 0 ∧ (run.gd l 4).toNat < 2 ^ 57) := by decide

theorem witness_calls : let s := stacked
    let f : Form := { h := p0, guestOk := false }
    performs f s = true ∧ accessWait (s.charged f) false true 0 false (fun l => okHalves (callCheck (s.charged f) 2 none l)) (s.active p0) = none ∧
    (∀ l ∈ s.active p0, stackFault (callCheck (s.charged f) 2 none l) = none) ∧ (∀ l ∈ s.active p0, nonResident (callCheck (s.issued f) 2 none l) = false) := by
  decide

theorem witness_callx : let s := stacked
    let f : Form := { h := p0, ok := evenReg 4, src := regsOf 4 2, guestOk := false }
    let room := fun (u : State) (l : Nat) => callCheck u 15 (some (u.gd l 4).toNat) l
    performs f s = true ∧ accessWait (s.charged f) false true 0 false (fun l => okHalves (room (s.charged f) l)) (s.active p0) = none ∧
    (∀ l ∈ s.active p0, stackFault (room (s.charged f) l) = none) ∧ (∀ l ∈ s.active p0, nonResident (room (s.issued f) l) = false) := by decide

theorem witness_ret : let s := called
    let f : Form := { h := p0, guestOk := false }
    performs f s = true ∧ accessWait (s.charged f) true false 0 false (fun l => okHalves (retLoad (s.charged f) l) ++
          (retFills (s.charged f) l).flatMap (fun x => okHalves x.2.2)) (s.active p0) = none ∧
    (∀ l ∈ s.active p0, retFault (s.charged f) l = none) ∧ (∀ l ∈ s.active p0, retPage (s.issued f) l = none) := by decide

/-- 06 Worked example: CALL.w 8 to 0x1400. -/
theorem test_call : aft (.call p0 2 0x100) stacked (fun t => ((t.curLane 0).pc, (t.curLane 0).lk, (t.curLane 0).wbase, (t.curLane 0).sp)) =
    some (0x1400, 0x1004, 8, 0x1FFFED0) ∧ aft (.call p0 2 0x100) stacked (fun t => (t.g 0 1, t.g 0 56)) = some (2, 0) := by decide
theorem test_ret : aft (.ret p0) called (fun t => ((t.curLane 1).pc, (t.curLane 1).lk, (t.curLane 1).wbase)) = some (0x1004, 0, 0) := by decide
theorem test_bra : aft (.bra ⟨false, false, 1⟩ 0xFFFFF) run (fun t => ((t.curLane 0).pc, (t.curLane 1).pc)) = some (0xFFC, 0x1004) := by decide

theorem witness_masks : allPerform run [{ h := p0, ok := maskReg 11, guestOk := false }, { h := p0, ok := maskReg 0, src := [1], uniform := true, guestOk := false },
    { h := p0, ok := maskReg 0 && maskReg 11 && maskReg 5, uniform := true, guestOk := false }, { h := p0, ok := maskReg 3, uniform := true, guestOk := false },
    { h := p0, ok := maskReg 3, psrc := [1], uniform := true, guestOk := false }] = true := by decide

/-- Both lanes wait on m2, which counts them; or lane 1 does not. -/
def waiting (x : LaneState) : State := run.modCurWarp (fun w => { w with
  m := [(2, 3)], lanes := [(0, { state := .parked, park := .waitm 2 }), (1, { state := x, park := if x = .parked then .waitm 2 else .none })] })

theorem witness_release : let s := waiting .parked
    Home s ∧ waiters s.curWarp 2 ≠ [] ∧ (∀ l ∈ countedLanes s.curWarp 2, waitsOn s.curWarp 2 l = true) ∧
    (∀ l ∈ waiters s.curWarp 2, (s.curLane l).owed = []) ∧
    Home (waiting .ready) ∧ (∃ l ∈ countedLanes (waiting .ready).curWarp 2, waitsOn (waiting .ready).curWarp 2 l = false) := by
  unfold Home; decide

theorem test_mask : aft (.mopBallot p0 3 1) run (fun t => t.curWarp.mask 3) = some 1 ∧ aft (.join ⟨false, true, 1⟩ 3) run (fun t => t.curWarp.mask 3) = some 2 := by decide

/-- A launch whose work field 0 is eight bits wide. -/
def spawning : State := { run with launches := [(1, { loadLaunch State.reset with header := header [(48, 8)] })] }

theorem witness_spawn : allPerform run [{ h := p0, ok := evenReg 4, src := regsOf 4 2 ++ [1], pdst := [2] }, { h := p0 }] = true ∧
    (∀ l ∈ run.active p0, (run.gd l 4).toNat % 4 = 0) ∧
    Home spawning ∧ spawning.cur.stream = false ∧ (spawning.curLane 0).guest = none ∧ (spawning.curLane 0).state = .ready ∧
    (spawning.curLane 2).state = .empty ∧ (∀ k, k < 2 → (spawning.curLane k).state ≠ .empty) ∧ spawning.curWarp.pend = [] ∧
    32 * spawning.curWarp.index + 2 < 2 ^ fieldWidth0 spawning spawning.curWarp.launch := by
  unfold Home; decide

theorem test_fspawn : aft (.fspawn p0 2 4 1) spawning (fun t => ((t.curLane 2).state, (t.curLane 2).pc, t.g 2 1, t.p 0 2)) = some (.ready, 0x2000, 7, true) := by
  decide
theorem test_fend_exit : aft (.fend ⟨false, false, 1⟩) run (fun t => ((t.curLane 0).state, (t.curLane 1).state)) = some (.ended, .ready) ∧
    aft (.exit ⟨false, true, 1⟩) run (fun t => ((t.curLane 0).state, (t.curLane 1).state)) = some (.ready, .empty) := by decide

theorem witness_yield : allPerform run [{ h := p0 }, { h := p0, src := [1] }, { h := p0, isSafe := true }] = true ∧
    performs { h := p0, isSafe := true } (lane0 run (fun x => { x with safecnt := 2048 })) = true := by decide

theorem test_safe : aft (.safe p0 0xF) (lane0 run (fun x => { x with safecnt := 2048 })) (fun t => ((t.curLane 0).safecnt, (t.curLane 0).live)) = some (0, 0xF) := by
  decide

/-- A partition in debug state HALT. -/
def halted : State := { run with parts := [(0, { (run.part 0) with debug := 2 })] }

theorem witness_traps : allPerform run [{ h := p0 }] = true ∧ inHalt run run.cur.core = false ∧ performs { h := p0 } halted = true ∧
    inHalt halted halted.cur.core = true := by decide

theorem test_trap : aft (.trap p0 5) run (fun t => ((t.curLane 0).state, (t.curLane 0).pc, (t.curLane 0).fseq)) = some (.faulted, 0x1000, 1) ∧
    aft (.trap p0 5) run (fun t => (t.curLane 0).record.map (fun r => (r.code, r.addr, r.after))) = some (some (0x60, 5, 0x1004)) := by decide

/-- A FAULTED fibre of warp 1, of a task that names the issuing task's mailbox as its handler; g4 holds its handle. -/
def handler : State :=
  let bad : FaultRec := { FaultRec.blank with code := 0x12, pc := 0x3000, after := 0x3004 }
  let s := { run with launches := [(1, { loadLaunch State.reset with window := 0x80 }), (5, { loadLaunch State.reset with header := header [(200, 0x80)] })] }
  let s := s.modSt 0 (fun k => { k with warps := k.warps ++ [(1, { launch := 5, lanes := [(0, { state := .faulted, pc := 0x3000, fseq := 1, record := some bad })] })] })
  let n := handleOf 0 1 0 1
  s.modCurWarp (fun w => { w with lanes := [(0, { state := .ready, pc := 0x1000, regs := [(4, BitVec.ofNat 32 n), (5, BitVec.ofNat 32 (n / 2 ^ 32))] })] })

def handlerCur : State := { handler with cur := { handler.cur with lanes := 1 } }

theorem witness_tret : let s := handlerCur
    let f : Form := { h := p0, ok := evenReg 4, src := regsOf 4 2 }
    let act := fun (k : TretKind) (u : State) => (s.active p0).foldl (tretOne k (fun l => s.gd l 4)) (u, [])
    performs f s = true ∧ (∀ k ∈ [TretKind.resume, .skip, .ended], (act k (s.issued f)).2 = []) ∧
    (∀ l ∈ s.active p0, ((s.charged f).core (bits (s.gd l 4).toNat 56 8)).resuming = false) := by decide

theorem test_tret : aft (.tretResume p0 4) handlerCur (fun t => (t.warp? 0 1).map (fun w => ((w.lane 0).state, (w.lane 0).pc))) = some (some (.ready, 0x3000)) ∧
    aft (.tretSkip p0 4) handlerCur (fun t => (t.warp? 0 1).map (fun w => ((w.lane 0).state, (w.lane 0).pc))) = some (some (.ready, 0x3004)) := by decide

/-! ## Faults before an effect (R51, R56, R74, R126) -/

theorem witness_faults : run.cur.stream = false ∧ run.cur.counted = false ∧ hazOn run run.cur.core = false ∧ run.curWarp.isGuest = false ∧
    (∀ l ∈ run.members, (run.curLane l).safecnt + 1 + run.cur.hints.length ≤ 2048) ∧
    run.active ⟨false, false, 7⟩ = [] ∧ run.active p0 ≠ [] ∧ (formInt1 p0 14 1).legal run = true ∧ Form.legal { h := p0, ok := false } run = false := by decide

theorem witness_poison_gap : let s := lane0 run (fun x => { x with poison := [(1, true)], safecnt := 2048 })
    (∀ l ∈ s.active ⟨false, false, 1⟩, unpoisoned (s.curLane l) 1 = false) ∧
    ((formInt1 ⟨false, false, 1⟩ 14 1).srcs s).find? (fun i => i != 0) = some 1 ∧
    (let u := { s with cur := { s.cur with lanes := 1 } }
     u.members ≠ [] ∧ ∀ l ∈ u.members, 2048 < (u.curLane l).safecnt + 1 + u.cur.hints.length) := by decide

theorem test_faults : aft (.iadd64 p0 3 4 6) run (fun t => (t.curLane 0).record.map (fun r => r.code)) = some (some 0x01) ∧
    aft (.mov p0 14 1) (lane0 run (fun x => { x with poison := [(1, true)] })) (fun t => (t.curLane 0).record.map (fun r => (r.code, r.addr))) = some (some (0x43, 1)) ∧
    aft (.mov p0 14 1) (lane0 run (fun x => { x with safecnt := 2048 })) (fun t => (t.curLane 0).record.map (fun r => r.code)) = some (some 0x40) := by decide

theorem witness_fault_entry : (run.warp? 0 0).isSome = true ∧ ((run.warp? 0 0).map (fun w => (w.lane 0).guest)) = some none := by decide

/-! ## Memory -/

/-- A load, at the address in a pair, meets the hypotheses of its statement. -/
def loadFine (s : State) (a : BitVec 6) (ok : Bool) (n words : Nat) : Bool :=
  performs (formLoad p0 8 a 0 ok words 0) s && accessesHere (memLoad a 0 8 n) false true (formLoad p0 8 a 0 ok words 0) s

theorem witness_loads : [(1, 1), (2, 1), (4, 1), (8, 2), (16, 4)].all (fun x => loadFine run 4 true x.1 x.2 && loadFine run 6 true x.1 x.2) = true := by decide

/-- So does a store. -/
def storeFine (s : State) (a : BitVec 6) (n words : Nat) : Bool :=
  let f := formStore p0 8 a 0 true words
  let m := memStore a 0 n 0
  let u := s.accessing f
  let after := storeEach u u.modrCp false (m.halves u) (storeLane m (fun _ => 1) u) (s.active p0)
  performs f s && storesHere m f s && accessesHere m true false f s && !m.posts (s.charged f) (s.active p0) &&
  !m.posts (s.issued f) (s.active p0) && after.2.isEmpty && !egressFull after.1 s.cur.core

theorem witness_stores : run.memOk = true ∧
    [(1, 1), (2, 1), (4, 1), (8, 2), (16, 4)].all (fun x => storeFine run 4 x.1 x.2 && storeFine run 6 x.1 x.2) = true := by decide
theorem witness_stn : performs (formStore p0 8 4 0 (evenReg 4 && decide ((2 : Nat) ≤ 2)) 1) run = true ∧
    storesHere (memStn 4 0 2) (formStore p0 8 4 0 (evenReg 4 && decide ((2 : Nat) ≤ 2)) 1) run = true := by decide

/-- The halves of an access: an own bank, another core's, a line through the L1 and its last bytes through the egress buffer. -/
def halfOf (w : Who) (va n : Nat) : List Half := okHalves (accessCheck run w .store va n 1)

theorem witness_halves : let w := whoOf run 0 0 0
    (halfOf w 0x01FFFF0100000040 4).map (·.spot) = [.bank w.core 0x40 none] ∧ viaEgress w 0 false ⟨0x01FFFF0001000040, 4, .bank 1 0x40 (some 1)⟩ = true ∧
    ((halfOf w 0x2070 16).map (fun x => (viaEgress w 0 false x, viaEgress w 1 false x, x.len, x.va % 128 + x.len))) = [(false, true, 16, 128)] ∧
    (halfOf w 0x2070 16).all (fun x => match x.spot with | .glob _ _ => true | _ => false) = true := by decide

/-- R199, R7: little-endian bytes, that the core reads back; the home keeps its bytes until they are published. -/
theorem test_store : aft (.stw p0 8 4 0 0) (here [(4, 0x2000), (8, 0x04030201)] []) (fun t => ((upFrom 4 0x40002000).map (coreByte t 0 true), homeByte t 0x40002000)) =
    some ([1, 2, 3, 4], 0) := by decide
theorem test_store_scratch : aft (.sth ⟨false, false, 1⟩ 8 6 0 1) (here [(6, 0x40), (7, 0x01FFFF01), (8, 0xAABB)] []) (fun t => memReads (t.core 0).st.scratch 0x41 3) =
    some [0, 0xBB, 0xAA] := by decide
/-- R194: the offset scales by the width; R200: a nibble is merged. -/
theorem test_load : aft (.ldb p0 14 4 0 1) { run with hbm := memWrite run.hbm 0x40002001 0x80 } (pends 14) = some [0x80] := by decide

theorem witness_atomics :
    (let f := formAtom p0 (evenReg 4 && decide ((6 : Nat) ≤ 6) && (decide ((0 : Nat) ≤ 1) || evenReg 8)) (regsOf 4 2 ++ regsOf 8 (wideT 0)) (regsOf 8 (wideT 0))
     performsPersist f run = true ∧ accessesHere (AtomForm.mem { size := 4, addr := 4, dst := 8, words := 1 }) false true f run = true) ∧
    (let f := formAtom p0 (evenReg 4 && decide ((0 : Nat) ≤ 6) && (decide ((3 : Nat) ≤ 1) || evenReg 8)) (regsOf 4 2 ++ regsOf 8 (wideT 3)) (regsOf 8 (wideT 3))
     performsPersist f run = true ∧ accessesHere (AtomForm.mem { size := 8, addr := 4, dst := 8, words := 2 }) false true f run = true) ∧
    (let f := formAtom p0 (evenReg 4 && decide ((2 : Nat) ≤ 2)) (regsOf 4 2 ++ [8]) [8]
     performsPersist f run = true ∧ accessesHere (AtomForm.mem { size := 4, addr := 4, dst := 8, words := 1 }) false true f run = true) ∧
    (let f := formAtom p0 (evenReg 6 && decide ((6 : Nat) ≤ 6) && (6 : BitVec 3) != 1 && (decide ((0 : Nat) ≤ 1) || evenReg 8)) (regsOf 6 2 ++ regsOf 8 (wideT 0)) []
     performsPersist f run = true ∧ accessesHere (AtomForm.mem { size := 4, addr := 6, dst := 0, words := 0 }) false true f run = true) := by decide
theorem witness_cas : [1, 2, 4].all (fun n => performsPersist (casForm p0 8 4 12 n true) run &&
    accessesHere (AtomForm.mem { size := 4 * n, addr := 4, dst := 8, words := n }) false true (casForm p0 8 4 12 n true) run) = true := by decide
theorem witness_atomic_home : (match (AtomForm.mem { size := 4, addr := 4, dst := 8, words := 1 }).halves run 0 with
    | x :: _ => (match x.spot with | .glob pa _ => pa == 0x40002000 | _ => false)
    | [] => false) = true := by decide

/-- 10 Worked example, with two lanes: each holds 100 and lane l's new value is 1000 + l; lane 0 succeeds, lane 1 fails and receives 1000. -/
theorem test_cas : let s := here [(6, 0x40), (7, 0x01FFFF01), (8, 100), (9, 1000)] [(6, 0x40), (7, 0x01FFFF01), (8, 100), (9, 1001)]
    aft (.cas p0 8 6 9) (s.modSt 0 (fun k => { k with scratch := [(0x40, 100)] })) (fun t =>
      (ofBytesLE (memReads (t.core 0).st.scratch 0x40 4), pendG t.curWarp.pend 0 8, pendG t.curWarp.pend 1 8)) = some (1000, [100], [1000]) := by decide

theorem witness_phases : let f := fun (k : BitVec 2) (c : BitVec 3) =>
      ({ h := p0, ok := legal (.phase p0 k c), persist := (k == 1 || k == 2) && decide (3 ≤ (if c.toNat = 0 then 4 else c.toNat)) } : Form)
    [(0, 0), (0, 5), (1, 1), (1, 2), (2, 1)].all (fun x => performs (f x.1 x.2) run) = true ∧
    [(1, 3), (1, 4), (1, 5), (2, 3), (2, 0), (2, 5)].all (fun x => performsPersist (f x.1 x.2) run) = true ∧
    performsPersist { h := p0, ok := legal (.pfence p0 3), persist := true } run = true := by decide

/-- A WRITTEN byte in the L1 and no waiting store. -/
def dirty : State := run.modCore 0 (fun k => { k with l1w := [(0x40002000, 5)], l1s := [(0x40003000, 6)] })

theorem witness_publication : ((dirty.core 0).egress = [] ∧ dirty.held = [] ∧ dirty.engines = [] ∧ (∀ x ∈ (dirty.core 0).l1w, paTarget x.1 = .hbm) ∧
    (dirty.core 0).l1w.Pairwise (fun x y => x.1 < y.1)) ∧ ∀ m, (dirty.motif m).loaded = true := ⟨by decide, fun _ => rfl⟩
/-- R207: what a release has pushed out of the L1 stands at its home before anything that another agent can see. -/
theorem test_phase : aft (.phase p0 1 4) dirty (fun t => (homeByte (releaseDue t 0) 0x40002000, (t.core 0).l1w)) = some (5, []) ∧
    aft (.phase p0 0 4) dirty (fun t => ((t.core 0).l1s, (t.core 0).l1w)) = some ([], [(0x40002000, 5)]) := by decide

theorem witness_lines : (let f := fun (i : Instr) => formLine p0 4 (legal i)
      [Instr.cwb p0 4, .cinv p0 4, .pref p0 4 1, .pref p0 4 0].all (fun i => performs (f i) run) = true ∧
      egressFull (run.charged (f (.cwb p0 4))) 0 = false ∧ egressFull (run.charged (f (.cinv p0 4))) 0 = false ∧
      performs (f (.zline p0 4)) run = true ∧ storesHere (memZline 4) (f (.zline p0 4)) run = true) := by decide

theorem test_lines : aft (.cinv p0 4) dirty (fun t => ((t.core 0).l1w, (t.core 0).egress.length)) = some ([], 1) := by decide

/-- A page that is mapped and not resident stands at 1 GiB. -/
def absent : State := { (here [(4, 0x40000000), (9, 5)] [(4, 0x40000000), (9, 5)]) with hbm := loadBytes run.hbm 0x12008 8 0x8000003D }

theorem witness_pages : let f : Form := { formLine p0 4 (legal (.pgreq p0 4)) with persist := true }
    performsPersist f run = true ∧ (∀ l ∈ run.active p0, pgCheck (run.charged f) 4 l = none) ∧ pgPosts (run.issued f) 4 (run.active p0) = [] ∧
    performs { formLine p0 4 (legal (.pgprobe p0 4 9)) with pdst := [9] } run = true := by decide
/-- The same page, with a pager mailbox of the partition. -/
def paged : State := { absent with parts := [(0, { absent.part 0 with pgmbx := 0x80, binds := [(0, { window := 0x80, header := 0, size := 32, depth := 4 })] })] }

theorem witness_pgreq : let f : Form := { formLine p0 4 (legal (.pgreq p0 4)) with persist := true }
    performsPersist f paged = true ∧ (∀ l ∈ paged.active p0, pgCheck (paged.charged f) 4 l = none) ∧
    pgPosts (paged.issued f) 4 (paged.active p0) = [(0x4000, 0)] ∧
    (pgSend (persistPoint (paged.issued f) (paged.issued f).cur.core []) [(0x4000, 0)]).2 = [] := by decide
theorem test_pgprobe : aft (.pgprobe p0 4 9) run (pendsP 9) = some [true] ∧ aft (.pgprobe p0 4 9) absent (pendsP 9) = some [false] := by decide

/-! ## Copies, banks, matrix loops and stacks -/

/-- A shape register: BASE, FMT, RANK, PLACE, extents and the stride of dimension 1. -/
def sh (base fmt place : Nat) (exts : List Nat) (str1 : Nat) : BitVec 512 :=
  let f := fun (v n : Nat) => BitVec.ofNat 512 v <<< n
  f base 0 ||| f fmt 192 ||| f exts.length 197 ||| f place 200 ||| f (exts.getD 0 0) 256 ||| f (exts.getD 1 0) 276 ||| f str1 384

/-- A shape in a bank set, with STEP 32. -/
def bankSh (fmt place planes first kb nb : Nat) (exts : List Nat) : BitVec 512 :=
  let f := fun (v n : Nat) => BitVec.ofNat 512 v <<< n
  sh 0 fmt place exts 32 ||| f planes 202 ||| f first 224 ||| f kb 230 ||| f nb 237 ||| f 32 360

/-- Tensors of bytes in memory and in the scratchpad, rows and an index list, an accumulator region, an A tile and a panel, rows of 128 bytes. -/
def tensors : PMap (BitVec 512) :=
  [(1, sh 0x4000 0 0 [32] 0), (2, sh 0x6000 0 0 [32] 0), (3, sh 0x80 0 1 [32] 0), (4, sh 0x8000 0 0 [4, 2] 4), (5, sh 0xA000 0 0 [4, 8] 4),
   (6, sh 0xC000 6 0 [2] 0), (7, sh 0 2 0 [2, 2] 2), (8, sh 0x400 2 1 [2, 2] 2), (9, bankSh 0 2 0 0 1 1 [32, 2]), (10, bankSh 0 3 8 1 1 1 [32, 2]),
   (11, sh 0x10000 4 0 [128] 0), (12, sh 0x20000 4 0 [128] 0), (13, sh 0x30000 4 0 [128] 0), (14, sh 0x4000 8 0 [4] 0), (15, sh 0x5000 8 0 [4] 0)]

/-- The task with these tensors, a completion counter at 0x3000 and a compute bank 1. -/
def engines : State :=
  (shapes (scalars run [(23, 0x100), (24, 1), (28, 0xAB), (29, 1), (30, 0x3000)]) tensors).modSt 0 (fun k =>
    { k with banks := [(0, { owner := some 2 }), (1, { owner := some 2, compute := true })] })

/-- An engine instruction meets the hypotheses of its statement. -/
def startFine (s : State) (f : Form) (check : State → Option Flt) : Bool :=
  performsPersist f s && (check (s.charged f)).isNone && decide (slotsUsed (s.charged f) (s.charged f).cur.core < 48)

theorem witness_copies : startFine engines (formEng p0 0 (legal (.acpy p0 1 2 0 0)) 1 [30, 31] [1, 2]) (fun u => acpyFault u 1 2 false) = true ∧
    startFine engines (formEng p0 0 (legal (.acpym p0 3 2 0 0)) 1 [29, 30, 31] [3, 2]) (fun u => acpymFault u 3 2 false) = true ∧
    startFine engines (formEng p0 0 (legal (.afill p0 1 0 0)) 1 ([28, 30, 31] ++ []) [1]) (fun u => afillFault u 1 false) = true ∧
    startFine engines (formEng p0 0 (legal (.agthr p0 4 5 6 0 0)) 1 [30, 31] [4, 5, 6]) (fun u => agthrFault u 4 5 6 false) = true ∧
    startFine engines { formEng p0 0 (legal (.accst p0 8 7 0 2)) 1 [30, 31] [8, 7] with streamOk := false } (fun u => accstFault u 8 7 false) = true := by
  decide +kernel

/-- A partition that may use channel 5; g1 names it, g4 a record or, in lane 0 of the second, none. -/
def chaining (head : Word) : State :=
  { here [(1, 5), (4, head)] [(1, 5), (4, head)] with parts := [(0, { run.part 0 with chgrant := 32 })] }

theorem witness_chain : let f : Form := { h := p0, ok := legal (.chain p0 1 4), src := 1 :: regsOf 4 2, uniform := true, guestOk := false, streamOk := true, persist := true }
    performsPersist f (chaining 0) = true ∧ chainFault ((chaining 0).charged f) 5 0 = none ∧ ((chaining 0).issued f).gd 0 4 = 0 ∧ ((chaining 0).charged f).gd 0 4 = 0 ∧
    performsPersist f (chaining 0x40) = true ∧ chainFault ((chaining 0x40).charged f) 5 0x40 = none ∧ ((chaining 0x40).issued f).gd 0 4 = 0x40 ∧
    (((chaining 0x40).charged f).channel 5).busy = false := by decide +kernel

/-- The state after an instruction. -/

theorem test_acpy : aft (.acpy p0 1 2 0 0) engines (fun t => (t.engines.length, (t.core 0).epochs.length)) = some (1, 1) := by decide +kernel
/-- R217, R215: the elements arrive, and the counter advances by their bytes. -/
theorem test_copy_completes : aft (.copyCompletion 3) (next (.afill p0 1 0 0) engines) (fun t => (homeByte t 0x40004000, homeByte t 0x4000401F, homeByte t 0x40004020,
    homeByte t 0x40003000, t.engines.length)) = some (0xAB, 0xAB, 0, 32, 0) := by decide +kernel

/-- Engines in flight: a fill, a row operation with and without segments left, NMX, and a copy whose source bank has changed. -/
def filled : State := next (.afill p0 1 0 0) engines
def rowed : State := next (.rcopy p0 11 12 0) engines
def rowsDone : State := rowed.modEngine 3 (fun e => { e with next := e.total })
def nmxed : State := next (.nmx p0 14 15 15 0) engines
def stale : State := (next (.acpy p0 1 3 0 0) engines).modSt 0 (fun k => k.modBank 0 (fun b => { b with stamp := 99 }))

/-- An engine of this kind may act, and the work left of it succeeds. -/
def worksOut (s : State) (kind : EngKind → Bool) (work : State → Engine → Except (Nat × Nat) State) : Bool :=
  match mfind s.engines 3 with
  | some e => kind e.kind && engReady s e && (match work s e with | .ok _ => true | .error _ => false)
  | none => false

theorem witness_engines :
    worksOut filled (·.isCopy) (fun s e => if staleBank s e = none then unitsE copyUnit 3 s e.rest else .error (0, 0)) = true ∧
    worksOut rowed (·.isRow) (fun s e => if e.next < e.total then rowSegment s e e.next else .error (0, 0)) = true ∧
    worksOut rowsDone (·.isRow) (fun s e => if e.total ≤ e.next then .ok s else .error (0, 0)) = true ∧
    worksOut nmxed (·.isNear) (fun s e => unitsE engUnit 3 s e.rest) = true ∧
    worksOut stale (·.isCopy) (fun s e => if (engFailure s e).isSome then .ok s else .error (0, 0)) = true := by decide +kernel

/-- Two requests for one bank: the first is granted, the second waits and is not granted; a third for another bank is asked for. -/
def requests : State := run.modCore 0 (fun k => { k with holds := [
  { id := 7, banks := [0], entries := [], excl := true, exclEntries := false, op := none },
  { id := 8, banks := [1], entries := [], excl := true, exclEntries := false, op := none }] })

theorem witness_holds : ((requests.core 0).holds.find? (fun x => x.id == 8)).map (fun h => (h.granted, holdFree ((requests.core 0).holds.takeWhile (fun x => x.id != 8)) h,
    holdTurn requests h)) = some (false, true, true) := by decide +kernel

theorem witness_counter : findBind run 0x3000 = none ∧ ctrSpot run 0 0 0x3000 = some (.glob 0x40003000 false) ∧ run.memOk = true ∧ run.held = [] ∧
    (∀ i, i < 16 → paTarget (0x40003000 + i) = .hbm) ∧ ctrCode (ctrRead run (.glob 0x40003000 false)) = 0 ∧
    ctrCode (ctrRead { run with hbm := memWrite run.hbm 0x40003008 5 } (.glob 0x40003000 false)) = 5 := by decide +kernel

/-- Banks: g1 asks for one bank; g8 names bank 0; g10 bank 1 as a mask. -/
def banking : State :=
  (here [(1, 1), (8, 0x100), (2, 1), (10, 2)] [(1, 1), (8, 0x100), (2, 1), (10, 2)]).modSt 0 (fun k =>
    { k with banks := [(0, { owner := some 2 }), (1, { owner := some 2, compute := true })] })

theorem witness_banks :
    (let f : Form := { h := p0, ok := legal (.balloc p0 14 1), src := [1], dst := [14], uniform := true, guestOk := false, persist := true }
     performsPersist f banking = true ∧ ballocRun (banking.charged f) 1 0 = some (2, 1) ∧ ballocRun (banking.issued f) 1 0 = some (2, 1) ∧
     (∀ c ∈ (banking.charged f).curSpan, ∀ k ∈ upFrom 1 2, (((banking.charged f).core c).st.bank k).clearing = false ∧
       lazyBusy (banking.charged f) c k = false)) ∧
    (let f : Form := { h := p0, ok := legal (.bfree p0 8), src := [8], uniform := true, guestOk := false, persist := true }
     performsPersist f banking = true ∧ runFault (banking.charged f) ((banking.charged f).g 0 8) = none ∧ runBusyWord (banking.charged f) ((banking.charged f).g 0 8) = none) ∧
    (let f : Form := { h := p0, ok := legal (.bmode p0 8 2), src := [8, 2], uniform := true, guestOk := false, persist := true }
     performsPersist f banking = true ∧ runFault (banking.charged f) ((banking.charged f).g 0 8) = none) ∧
    (let f : Form := { h := p0, ok := legal (.bstat p0 14 8), src := [8], dst := [14], uniform := true, guestOk := false }
     performs f banking = true) ∧
    (let f : Form := { h := p0, ok := legal (.bchk p0 10), src := regsOf 10 2, uniform := true, guestOk := false, mult := popcount 64 (banking.gd (banking.leader p0) 10).toNat }
     performs f banking = true ∧ bchkFault (banking.charged f) ((banking.charged f).gd 0 10).toNat = none) := by decide +kernel

/-- Every bank of the core is owned: no run is open. -/
def crowded : State := banking.modSt 0 (fun k => { k with banks := (upFrom 64 0).map (fun b => (b, { owner := some 2 })) })

theorem witness_balloc_none : let f : Form := { h := p0, ok := legal (.balloc p0 14 1), src := [1], dst := [14], uniform := true, guestOk := false, persist := true }
    performsPersist f crowded = true ∧ ballocRun (crowded.charged f) 1 0 = none ∧ ballocRun (crowded.issued f) 1 0 = none := by decide +kernel

theorem test_balloc : aft (.balloc p0 14 1) banking (fun t => (reg 14 t, ((t.core 0).st.bank 2).owner)) = some (2, some 2) ∧
    aft (.balloc p0 14 1) crowded (reg 14) = some 0xFFFFFFFF := by decide +kernel

def freeing : State := next (.bfree p0 8) banking
def moding : State := next (.bmode p0 8 2) banking
def checking : State := next (.bchk p0 10) banking

/-- The check after its last bank. -/
def checked : State := checking.modEngine ((checking.engines.map (·.1)).headD 0) (fun e => { e with next := 1 })

theorem witness_bank_events : (((freeing.modSt 0 (fun k => k.modBank 0 (fun b => { b with clearing := true }))).core 0).st.bank 0).clearing = true ∧
    freeing.memOk = true ∧ (mfind freeing.engines 3).map (fun e => (e.kind, engMay freeing e)) = some (.bfree 0 1, true) ∧ commitWaits freeing 0 = false ∧
    (mfind moding.engines 3).map (fun e => (e.kind, engMay moding e)) = some (.bmode 0 1 true, true) ∧ commitWaits moding 0 = false ∧
    (checking.engines.map (fun e => (e.2.kind, (maskBanks 2)[e.2.next]?, engPaused checking e.2))) = [(.bchk 2, some 1, false)] ∧
    ((checking.core 0).holds.map (fun h => (h.op == (checking.engines.map (·.1)).head?, h.banks, h.granted))) = [(true, [1], true)] ∧
    (checking.core 0).restoring = [] ∧
    ((bchkRest checked ((checking.engines.map (·.1)).headD 0)).engines.map (fun e => decide ((maskBanks 2).length ≤ e.2.next))) = [true] := by decide +kernel
theorem witness_give_bank : ((run.core 0).st.bank 63).owner = none ∧ run.memOk = true := by decide +kernel

/-- 11 Worked example: the place of a weight, and the byte of a plane. -/
theorem test_panel : panelSpot (bankSh 0x12 3 4 8 4 2 [1024, 2048]) 300 1500 = (13, 476, 176) := by decide +kernel

def looping : State := hinted engines [.immx 1]

theorem witness_mloop : let f : Form := { formEng p0 0 (legal (.mloop p0 9 10 7 0 1)) 1 [] [9, 10, 7] with acc := { ecls := false, imm1 := true, imm2 := true, opndS := true } }
    performsPersist f looping = true ∧ mloopFault (looping.charged f) 9 10 7 false = none := by decide +kernel

/-- Accumulator ranges: g1 an entry, g8 an offset, g9 a range of two entries. -/
def ranged : State := here [(1, 0), (8, 0x40), (9, 0x20000)] [(1, 1023), (8, 0x40), (9, 0x20000)]

theorem witness_accumulators :
    (let f : Form := { h := p0, ok := legal (.accrd p0 14 1), src := [1], dst := [14], guestOk := false }
     performs f ranged = true ∧ ∀ l ∈ ranged.active p0, runEntryFault (ranged.charged f) 0 2 (((ranged.charged f).g l 1).toNat, 1) = none) ∧
    (let f : Form := { h := p0, ok := legal (.accrd p0 0 1), src := [1], dst := [0], guestOk := false }
     performs f ranged = true ∧ ∀ l ∈ ranged.active p0, runEntryFault (ranged.charged f) 0 2 (((ranged.charged f).g l 1).toNat, 1) = none) ∧
    (let f : Form := { h := p0, ok := legal (.accld p0 8 9), src := [8, 9], uniform := true, guestOk := false }
     performs f ranged = true ∧ accldFault (ranged.charged f) 0x40 0x20000 = none) ∧
    (let f : Form := { h := p0, ok := legal (.accclr p0 9), src := [9], uniform := true, guestOk := false }
     performs f ranged = true ∧ rangeFault (ranged.charged f) 0x20000 = none) := by decide +kernel

theorem test_accld : aft (.accld p0 8 9) (ranged.modSt 0 (fun k => { k with scratch := [(0x40, 1), (0x45, 2)] })) (fun t =>
    (mget (t.core 0).st.acc 0 0, mget (t.core 0).st.acc 1 0)) = some (1, 0x200) := by decide +kernel

def loopOn : State := next (.mloop p0 9 10 7 0 1) looping
theorem witness_loop_ends : (loopOn.engines.map (fun e => (e.2.kind, loopReady loopOn e.1))) = [(.mloop 1 true false false false, true)] ∧
    shFmt (sh 0 2 0 [2, 2] 2) = 0x02 := by decide +kernel

theorem test_int_acc : intAcc true 0x7FFFFFFF 1 = (0x7FFFFFFF, true) ∧ intAcc false 0x7FFFFFFF 1 = (0x80000000, false) := by decide +kernel

theorem witness_rows : startFine engines (formEng p0 0 (legal (.rcopy p0 11 12 0)) 1 [30, 31] [11, 12]) (fun u => rowFault u [11, 12]) = true ∧
    startFine engines (formEng p0 0 (legal (.rfill p0 11 0 1)) 1 [30, 31] [11]) (fun u => rowFault u [11]) = true ∧
    [Instr.rbitAnd p0 11 12 13 0, .rbitOr p0 11 12 13 0, .rbitMaj3 p0 11 12 13 0, .rbitXor p0 11 12 13 0].all (fun i =>
      startFine engines (formEng p0 0 (legal i) 1 [30, 31] [11, 12, 13]) (fun u => rowFault u [11, 12, 13])) = true ∧
    startFine engines (formEng p0 0 (legal (.rbitNot p0 11 12 0)) 1 [30, 31] [11, 12]) (fun u => rowFault u [11, 12]) = true ∧
    rowSegs (engines.shape 11) = 1 := by decide +kernel
theorem witness_nmx : startFine engines (formEng p0 0 (legal (.nmx p0 14 15 15 0)) 1 (upFrom 9 21 ++ [30, 31]) [14, 15, 15]) (fun u => nmxFault u 14 15 15) = true := by
  decide +kernel

/-- 12 Worked example of NSEG: the table, the indices, the segments and the destination. -/
def segments : State :=
  let s := shapes (scalars run [(23, 3), (30, 0x3000)]) [(0, sh 0x7000 8 0 [1, 2] 1), (1, sh 0x7100 8 0 [1, 3] 1), (2, sh 0x7200 6 0 [6] 0), (3, sh 0x7300 6 0 [6] 0)]
  { s with hbm := memWrites (memWrites (memWrites s.hbm 0x40007100 (bytesLE 12 0x3F8000003F8000004B800000))
      0x40007200 (bytesLE 24 (1 * 2 ^ 32 + 2 * 2 ^ 64 + 0xFFFFFFFF * 2 ^ 96 + 7 * 2 ^ 128 + 1 * 2 ^ 160))) 0x4000730C (bytesLE 12 (1 + 2 ^ 32 + 2 ^ 64)) }

theorem witness_nseg : startFine segments (formEng p0 0 (legal (.nseg p0 0 1 2 0 0 0)) 1 [23, 30, 31] [0, 1, 2, 3]) (fun u => nsegFault u 0 1 2) = true := by decide +kernel
theorem test_nseg : aft (.stackEngineCompletion 3) (next (.nseg p0 0 1 2 0 0 0) segments) (fun t =>
    (ofBytesLE (homeBytes t 0x40007000 4), ofBytesLE (homeBytes t 0x40007004 4), homeByte t 0x40003000, homeByte t 0x40003008)) =
    some (0x4B800000, 0x3F800000, 8, 4) := by decide +kernel

/-- A dirty line, a bank's queue of waiting lines. -/
def dirtyLine : State := { run with l2 := [(0x40002000, 9)], refresh := [(3 * 2 ^ 20 + 2 * 2 ^ 8 + 1, [0x800040])] }
theorem witness_lines_written : dirtyLine.memOk = true ∧ dirtyLine.tagOf 0x800040 < 8 ∧ (∃ q, mget dirtyLine.refresh (3 * 2 ^ 20 + 2 * 2 ^ 8 + 1) [] = 0x800040 :: q) := by
  refine ⟨by decide, by decide, [], by decide⟩
theorem test_write_back : homeByte (writeBackLine dirtyLine 0x800040) 0x40002000 = 9 ∧ (writeBackLine dirtyLine 0x800040).l2 = [] := by decide +kernel

/-! ## Mailboxes, queues, streams, counters and barriers -/

/-- A task whose header names 3 stage queues; queue 1 has two slots and one entry, queue 2 none and a warp that is past it. -/
def queued : State :=
  let s := here [(1, 7), (9, 0x40), (14, 0x40000), (4, 0x5000), (6, 0x6000), (2, 0x40)] [(1, 7), (9, 0x40), (14, 0x40000), (4, 0x5000), (6, 0x6000), (2, 0x40)]
  let s := { s with launches := s.launches.map (fun (l : Nat × Launch) => (l.1, { l.2 with header := ⟨setByte l.2.header.bytes 55 4⟩ })) }
  let s := s.modCore 0 (fun k => { k with st := { k.st with scratch := [(0x1000, 0xAB)] } })
  (s.modGroup 0 2 (fun g => { g with queues := [(1, { base := 0x1000, depth := 2, tail := 1, occ := 1 }), (2, { base := 0x1020, depth := 2 })] })).modCurWarp
    (fun w => { w with stage := 2 })
where setByte (bs : List Byte) (i : Nat) (v : Byte) : List Byte := bs.set i v

/-- The lanes' registers replaced. -/
def withRegs (s : State) (m : PMap Word) : State := (s.modCurLane 0 (fun x => { x with regs := m })).modCurLane 1 (fun x => { x with regs := m })

/-- MBBIND of the window 0x5000, 64 bytes, 4 messages, with its header at 0x6000. -/
def binding (d : Word) : State := withRegs queued [(4, 0x5000), (6, 0x6000), (14, d)]
/-- The same, bound already. -/
def bound : State := { binding 0x40040 with parts := [(0, { run.part 0 with binds := [(0, { window := 0x5000, header := 0x6000, size := 64, depth := 1 })] })] }
/-- The same, with a message that waits. -/
def postedOnce : State := { bound with parts := [(0, { run.part 0 with binds := [(0, { window := 0x5000, header := 0x6000, size := 64, depth := 1, queued := 1 })] })] }

def bindForm : Form := { h := p0, ok := legal (.mbbind p0 14 4 6), src := 14 :: regsOf 4 2 ++ regsOf 6 2, dst := [14], uniform := true, guestOk := false }
def postForm : Form := { h := p0, ok := legal (.mbpost p0 14 4 2), src := regsOf 4 2 ++ [2], dst := [14], uniform := true, guestOk := false, persist := true }
def freeForm : Form := { h := p0, ok := legal (.mbfree p0 14 4), src := regsOf 4 2, dst := [14], uniform := true, guestOk := false }

theorem witness_mailbox : performs bindForm (binding 0x40040) = true ∧ performs freeForm bound = true ∧
    (findBind (bound.issued freeForm) ((bound.issued freeForm).gd 0 4).toNat).map (fun x => (x.1, x.2.1)) = some ((bound.issued freeForm).curPart, 0) ∧
    performs freeForm (binding 0) = true ∧ findBind ((binding 0).issued freeForm) (((binding 0).issued freeForm).gd 0 4).toNat = none ∧
    performsPersist postForm (withRegs bound [(2, 0x40), (4, 0x5000)]) = true ∧
    offsetFault ((withRegs bound [(2, 0x40), (4, 0x5000)]).charged postForm) 0x5000 0x40 = none ∧
    performsPersist postForm (withRegs (binding 0) [(2, 0x40), (4, 0x5000)]) = true ∧ offsetFault (withRegs (binding 0) []) 0x5000 0x40 = none := by decide +kernel

/-- R263, R275: the statuses of MBBIND; R265: those of MBPOST. -/
theorem test_mbbind : ([0x40040, 0x40041, 0x40000, 0x40110, 0x40100, 0x040, 0x4000040, 0x4010040].map (fun (d : Word) =>
      aft (.mbbind p0 14 4 6) (binding d) (fun t => (pends 14 t).headD (reg 14 t)))) = [some 0, some 3, some 3, some 3, some 0, some 3, some 0, some 3] ∧
    aft (.mbbind p0 14 4 6) bound (fun t => (pends 14 t).headD (reg 14 t)) = some 1 := by decide +kernel
theorem test_mbpost : [binding 0, bound, postedOnce].map (fun s => aft (.mbpost p0 14 4 2) (withRegs s [(2, 0x40), (4, 0x5000)]) (fun t => (pends 14 t).headD (reg 14 t))) =
    [some 2, some 0, some 1] := by decide +kernel

theorem witness_queues :
    (let f : Form := { formQueue queued p0 (legal (.qput p0 4 1)) 1 with src := regsOf 4 4 }
     performs f queued = true ∧ ((queued.charged f).curQueue 1).occ < ((queued.charged f).curQueue 1).depth) ∧
    (let f : Form := { formQueue queued p0 (legal (.qtake p0 8 14 1)) 1 with dst := regsOf 8 4 ++ [14] }
     performs f queued = true ∧ ((queued.charged f).curQueue 1).occ ≠ 0 ∧ ((queued.issued f).curQueue 1).occ ≠ 0) ∧
    (let f : Form := { formQueue queued p0 (legal (.qtake p0 8 14 2)) 2 with dst := regsOf 8 4 ++ [14] }
     let s := queued.modGroup 0 2 (fun g => { g with queues := mset g.queues 1 { base := 0x1000, depth := 2 } })
     performs f s = true ∧ ((s.issued f).curQueue 2).occ = 0 ∧ (s.charged f).curClosed 2 = true) ∧
    (let f : Form := { formQueue queued p0 (legal (.qstat p0 14 1)) 1 with dst := [14] }
     performs f queued = true) := by decide +kernel

theorem witness_queue_entries : (match queued.curGroup with
    | some g => match mfind g.queues 1 with
      | some q => decide (0 < q.depth ∧ q.head < q.depth ∧ q.tail = (q.head + q.occ) % q.depth ∧ q.occ < q.depth ∧ 0 < q.occ)
      | none => false
    | none => false) = true ∧ queued.memOk = true := by decide +kernel

/-- R274: an entry joins behind the others, across the end of the ring; the oldest is taken. -/
theorem test_queue : aft (.qput p0 4 1) queued (fun t => ((t.curQueue 1).occ, (t.curQueue 1).tail, memRead (t.core 0).st.scratch 0x1011)) = some (2, 0, 0x50) ∧
    aft (.qtake p0 8 14 1) queued (fun t => (pends 8 t, pends 14 t, (t.curQueue 1).occ, (t.curQueue 1).head)) = some ([0xAB], [1], 0, 1) := by decide +kernel

/-- A warp whose stream has ended, or runs. -/
def streaming (ended : Bool) : State := run.modCurWarp (fun w => { w with stream := some { base := 0x1010, count := 2, s := [(16, 9)], leader := 0, ended := ended, status := 7 } })

theorem witness_streams :
    (let f : Form := { h := p0, ok := legal (.efork p0 63 0x2000), ssrc := upFrom 32 0, uniform := true, guestOk := false }
     performs f run = true ∧ streamRuns (run.charged f) = false ∧ streamsRunning (run.charged f) (run.charged f).cur.core < 16) ∧
    (let f : Form := { h := p0, ok := legal (.erdv p0), uniform := true, guestOk := false }
     performs f run = true ∧ streamRuns (run.charged f) = false ∧ (run.issued f).curWarp.stream = none ∧
     performs f (streaming true) = true ∧ streamRuns ((streaming true).charged f) = false ∧ (((streaming true).issued f).curWarp.stream).isSome = true) := by decide +kernel

/-- R276: the base is relative to EFORK; R277: s15 receives the status and s16 the stream's. -/
theorem test_streams : aft (.efork p0 2 0x3FFF) run (fun t => t.curWarp.stream.map (fun x => (x.base.toNat, x.count))) = some (some (0xFFC, 3)) ∧
    aft (.erdv p0) (streaming true) (fun t => t.curWarp.pend.map (fun r => r.effs.take 2)) = some [[.s 15 7, .s 16 9]] := by decide +kernel

/-- A stream of one word that stands in the instruction cache; the page of the second lies at 1 GiB. -/
def wordsOf (x : Word) : State := (streaming false).modCore 0 (fun k => { k with icache := [(0x1010, x)] })
def awayStream : State := { (run.modCurWarp (fun w => { w with stream := some { base := 0x40000000, count := 1, s := [], leader := 0 } })) with
  hbm := loadBytes run.hbm 0x12008 8 0x8000003D }
/-- What the next word of the warp's stream is fetched as. -/
def streamFetch (s : State) : Option Word := match s.curWarp.stream with
  | some t => (match fetch s 0 0 t.pc.toNat with | .word x => some x | _ => none)
  | none => none
def streamAbsent (s : State) : Bool := match s.curWarp.stream with
  | some t => (match fetch s 0 0 t.pc.toNat with | .absent => true | _ => false)
  | none => false
def opens (s : State) : Bool := match s.curWarp.stream with | some t => streamOpen s 0 s.curWarp t | none => false

/-- The word of an instruction. -/
def wordOf (i : Instr) : Word := BitVec.ofNat 32 ((encodeNat i).getD 0)

theorem witness_stream_words : opens (streaming true) = false ∧
    [Instr.sopAdd p0 16 16 16, .sopMul p0 1 16 16, .mloop p0 9 10 7 0 1, .acpy p0 1 2 0 0, .exit p0, .iadd p0 1 2 3].all (fun i =>
      opens (wordsOf (wordOf i)) && streamFetch (wordsOf (wordOf i)) == some (wordOf i) && instrOf (wordOf i) == i) = true ∧
    opens (wordsOf 0x7E500000) = true ∧ instrOf 0x7E500000 = .illegalOpWord 0x7E500000 ∧
    legal (.sopAdd p0 16 16 16) = true ∧ opens awayStream = true ∧ streamAbsent awayStream = true := by decide +kernel

/-- R89 in a stream: the stream's register, not the warp's; R64: a word that no stream holds ends it with the code and its index. -/
theorem test_stream_word : [wordOf (.sopAdd p0 16 16 16), wordOf (.exit p0)].map (fun x => aft (.streamWord 0 0) (wordsOf x) (fun t =>
    t.curWarp.stream.map (fun y => (mget y.s 16 0, y.idx, y.ended, y.status)))) = [some (some (18, 1, false, 7)), some (some (9, 0, true, 1))] := by decide +kernel

/-- A counter at 0x3000 with this value and code; g4 its address, g6 the target 5. -/
def counting (v : Nat) : State :=
  let s := withRegs run [(4, 0x3000), (6, 5)]
  { s with hbm := memWrites s.hbm 0x40003000 (bytesLE 16 v) }

theorem witness_counter_waits :
    let f := formWait p0 2 4 6 (legal (.cwait p0 2 4 6))
    [counting 5, counting (4 + 3 * 2 ^ 64)].all (fun s => performs f s && (waitFault (s.charged f) (waitAddr 4 (s.charged f) (s.active p0))).isNone &&
      (restoringAt (s.charged f) (waitAddr 4 (s.charged f) (s.active p0))).isNone && (reached 4 6 (s.charged f) (s.active p0) || inError 4 (s.charged f) (s.active p0))) = true ∧
    (let f := formWait p0 2 4 6 (legal (.ctest p0 2 4 6))
     performs f (counting 4) = true ∧ waitFault ((counting 4).charged f) (waitAddr 4 ((counting 4).charged f) [0, 1]) = none ∧
     restoringAt ((counting 4).charged f) (waitAddr 4 ((counting 4).charged f) [0, 1]) = none ∧ (counting 4).active p0 = [0, 1]) := by decide +kernel

/-- R300: CTEST; R301: CWAIT's predicate is the error, and below the target the batch parks. -/
theorem test_counter : [4, 5, 5 + 3 * 2 ^ 64].map (fun v => aft (.ctest p0 2 4 6) (counting v) (pendsP 2)) = [some [false], some [true], some [false]] ∧
    [4, 5, 4 + 3 * 2 ^ 64].map (fun v => aft (.cwait p0 2 4 6) (counting v) (fun t => (pendsP 2 t, (t.curLane 0).park))) =
      [some ([], .cwait 0x3000 5), some ([false], .none), some ([true], .none)] := by decide +kernel

/-- A barrier word at offset 0x40 of the own scratchpad: live with these contents, g2 the operand of the barrier instructions. -/
def barrier (v : Nat) (g2 : Word) : State :=
  (withRegs run [(6, 0x40), (7, 0x01FFFF01), (2, g2)]).modSt 0 (fun k =>
    { k with scratch := memWrites [] 0x40 (bytesLE 16 v), banks := [(0, { owner := some 2, live := [(4, true)] })] })
/-- The same bytes, not live. -/
def unlive (g2 : Word) : State := withRegs run [(6, 0x40), (7, 0x01FFFF01), (2, g2)]

theorem witness_barriers :
    let clear := fun (s : State) (f : Form) => s.memOk && performs f s && (s.active p0).all (fun l => (restoringAt (s.charged f) ((s.charged f).gd l 6).toNat).isNone &&
      (wordFault (s.charged f) true ((s.charged f).gd l 6).toNat).isNone)
    (let f := formWord p0 6 2 (legal (.bwinit p0 6 2)) true
     [1, 4095].all (fun n => let u := (unlive n).charged f
      performs f (unlive n) && (wordFault u false (u.gd 0 6).toNat).isNone && (u.g 0 2).toNat % 4096 != 0 &&
      (restoringAt u (waitAddr 6 u [0, 1])).isNone && !bankOwned u u.cur.core (wordAt u 6 0 / 131072)) = true) ∧
    (let f : Form := { formWord p0 6 2 (legal (.bwarr p0 6 2)) false with streamOk := true }
     let s := barrier 0x20002 0
     clear s f = true ∧ ((s.active p0).foldl (fun (r : State × List (Nat × Flt)) l =>
        match bwArrive (bwRead r.1 0 (wordAt (s.issued f) 6 l)) (((s.issued f).g l 2).toNat % 65536) with
        | none => (r.1, r.2 ++ [(l, ⟨fcBarrierState, ((s.issued f).gd l 6).toNat, false⟩)])
        | some v => (bwWrite r.1 0 (wordAt (s.issued f) 6 l) v, r.2)) (s.issued f, [])).2 = []) ∧
    [0, 1].all (fun x => clear (barrier 0x10001 x) (formWord p0 6 2 (legal (.bwwait p0 6 2)) false) &&
      clear (barrier 0x10001 x) { formWord p0 6 2 (legal (.bwtest p0 3 6 2)) false with pdst := [3] }) = true ∧
    (let f : Form := { h := p0, ok := legal (.bwdrop p0 6), src := regsOf 6 2, uniform := true, guestOk := false }
     clear (barrier 0x10001 0) f = true ∧ wordInUse ((barrier 0x10001 0).charged f) 0 (wordAt ((barrier 0x10001 0).charged f) 6 0) = false) := by decide +kernel

/-- R303, R306: two arrivals at the last two turn the phase; what is announced holds it. -/
theorem test_barriers : aft (.bwinit p0 6 2) (unlive 0xF003) (fun t => (memReads (t.core 0).st.scratch 0x40 4, isLive t 0 0x40)) = some ([3, 0, 3, 0], true) ∧
    [0, 7].map (fun (owed : Word) => aft (.bwarr p0 6 2) (barrier 0x20002 owed) (fun t => let v := bwRead t 0 0x40; (bwPhase v, bwPending v, bwDue v))) =
      [some (true, 2, 0), some (false, 0, 14)] ∧
    aft (.bwwait p0 6 2) (barrier 0x10001 0) (fun t => (t.curLane 0).park) = some (.bwwait 0x40 false) ∧
    aft (.bwtest p0 3 6 2) (barrier 0x10001 1) (pendsP 3) = some [true] := by decide +kernel

/-- The clauses of an arrival at values that meet them: none pending, the last, another; DUE at -1 and 1 announced. -/
theorem witness_arrivals : bwPending 0x10000 = 0 ∧ bwPending 0x10001 = 1 ∧ bwPending 0x20002 = 2 ∧
    (let v := 0x10001 + 0xFFFFFFFF * 2 ^ 64
     v < 2 ^ 128 ∧ bwPending v = 1 ∧ (bwDue v + 1) % 2 ^ 32 = 0 ∧ (bwArrive v 1).map (fun x => (bwPhase x, bwDue x)) = some (true, 0)) := by decide +kernel

/-- A lacing group 5 of these states; g4 the address of a mask that names core 0. -/
def laced (x : Lacing) : State :=
  let s := withRegs run [(4, 0x3000)]
  { s with hbm := memWrite s.hbm 0x40003000 1, parts := [(0, { run.part 0 with lacing := [(5, x)] })] }
def lone : Lacing := { mask := 1 }
def pair (arrived early : Nat) : Lacing := { mask := 3, arrived := arrived, early := early, tickets := [(0, 0)] }

theorem witness_lacing :
    (let f : Form := { formLace p0 (legal (.lbarv p0 5)) true with persist := true }
     [lone, pair 2 0, pair 1 0].all (fun x => performsPersist f (laced x) && bitOf (((laced x).charged f).lacing 0 5).mask 0 &&
      ((((laced x).charged f).lacing 0 5).arrive 0).isSome && (((releaseWide ((laced x).issued f) 0).lacing 0 5).arrive 0).isSome) = true) ∧
    (let f := formLace p0 (legal (.lbwait p0 5)) false
     performs f (laced lone) = true ∧ performs f (laced (pair 1 0)) = true ∧
     Machine.laced ((laced lone).issued f) 0 5 (mfind (((laced lone).issued f).lacing 0 5).tickets 0) = true ∧
     Machine.laced ((laced (pair 1 0)).issued f) 0 5 (mfind (((laced (pair 1 0)).issued f).lacing 0 5).tickets 0) = false) ∧
    (let f : Form := { formLace p0 (legal (.lbset p0 5 4)) false with src := regsOf 4 2 }
     performs f (laced lone) = true ∧ restoringAt ((laced lone).charged f) (waitAddr 4 ((laced lone).charged f) [0, 1]) = none ∧
     lbsetFault ((laced lone).charged f) (waitAddr 4 ((laced lone).charged f) [0, 1]) 5 = none ∧ (laced lone).active p0 = [0, 1]) := by decide +kernel

theorem witness_generations : (pair 1 0).full = false ∧ (pair 3 1).full = true ∧ (pair 3 1).turn.full = false ∧ (pair 1 0).arrive 1 = some { pair 3 0 with tickets := [(0, 0), (1, 0)] } ∧
    (pair 1 0).arrive 0 = some { pair 1 1 with tickets := [(0, 1)] } := by decide +kernel

/-- R309, R310: the last arrival ends generation 0, and the early arrival of core 0 stands in generation 1. -/
theorem test_lacing : aft (.lbarv p0 5) (laced lone) (fun t => ((t.lacing 0 5).gen, (t.lacing 0 5).arrived)) = some (1, 0) ∧
    (pair 3 1).settle = { pair 1 0 with gen := 1 } ∧
    aft (.lbwait p0 5) (laced (pair 1 0)) (fun t => (t.curLane 1).park) = some (.lbwait 5 0) ∧
    aft (.lbset p0 5 4) (laced (pair 1 0)) (fun t => (t.lacing 0 5).next) = some 1 := by decide +kernel
/-! ## Launches, groups and the ends of waits -/

/-- A header: bytes of zeros with these fields (offset, bytes, value) written over them. -/
def taskHeader (fs : List (Nat × Nat × Nat)) : Header :=
  ⟨fs.foldl (fun bs f => bs.take f.1 ++ bytesLE f.2.1 f.2.2 ++ bs.drop (f.1 + f.2.1)) (List.replicate 256 0)⟩
/-- The fields of a task of two warps of 40 fibres, with a deadline. -/
def fields : List (Nat × Nat × Nat) := [(0, 2, 1), (8, 8, 0x1000), (48, 1, 6), (56, 8, 39), (104, 1, 2), (105, 1, 8), (106, 1, 1), (128, 8, 1000)]
/-- A launch with number 7 in this state, more fields and a message; core 0 is idle. -/
def launched (st : LaunchState) (fs : List (Nat × Nat × Nat)) : State :=
  let s := run.modSt 0 (fun k => { k with warps := [], groups := [], ctxs := [], banks := [] })
  { s with launches := [(7, { part := 0, state := st, header := taskHeader (fields ++ fs), images := List.replicate 16 0, message := [1, 0, 0, 0, 2]
                              window := 0x5000, seq := 9, time := 0 })] }
def launchOf (s : State) : Launch := (mfind s.launches 7).getD (loadLaunch s)
/-- What a launch depends on: a counter of value 5, and one in error. -/
def withCounter (s : State) (v : Nat) : State := { s with hbm := memWrites s.hbm 0x40003000 (bytesLE 16 v) }
def depends : List (Nat × Nat × Nat) := [(160, 8, 0x3000), (168, 8, 5)]
/-- A post by store that is due. -/
def due (n : Nat) : State := { bound with postsDue := [(n, 0, 0x5000, [7])] }

theorem witness_judged : (run.part 0).state = 1 ∧
    headerFault (launched .header [(128, 8, 0)]) (launchOf (launched .header [(128, 8, 0)])) = some 128 ∧
    headerFault (launched .header []) (launchOf (launched .header [])) = none ∧
    (launchOf (launched .waitdep [])).header.depctr = 0 ∧ (launchOf (launched .waitdep [])).header.empty = false ∧
    (launchOf (launched .waitdep depends)).header.depctr ≠ 0 ∧
    depValue (launched .waitdep [(160, 8, 0x7FFFFFFF0000)]) (launchOf (launched .waitdep [(160, 8, 0x7FFFFFFF0000)])) = none ∧
    [4, 5, 2 ^ 64].map (fun v => (depValue (withCounter (launched .waitdep depends) v) (launchOf (launched .waitdep depends))).map
      (fun x => (ctrCode x != 0, decide ((launchOf (launched .waitdep depends)).header.field 168 8 ≤ ctrValue x)))) =
      [some (false, false), some (false, true), some (true, false)] ∧
    (launchOf (launched .waitdep [(3, 1, 2)])).header.empty = true ∧ mayRelease (launched .waitdep [(3, 1, 2)]) 0 = true := by decide +kernel
theorem witness_store_post : (due 0).postsDue.find? (fun x => x.2.1 == 0 && x.2.2.1 == 0x5000) = some (0, 0, 0x5000, [7]) ∧
    (post { due 0 with postsDue := [] } (.device 0) 0x5000 (some [7])).1 = 0 ∧ (post { due 1 with postsDue := [] } (.device 1) 0x5000 (some [7])).1 = 3 := by decide +kernel

/-- R262: the offsets of the failing fields; R266: an order follows when the dependency is met. -/
theorem test_judged : [[(104, 1, 33)], [(105, 1, 9)], [(106, 1, 3)], [(2, 1, 8)], [(56, 8, 63)], [(56, 8, 64)], [(128, 8, 0)], [(55, 1, 5)]].map (fun fs =>
      headerFault (launched .header fs) (launchOf (launched .header fs))) =
      [some 104, some 105, some 106, some 2, none, some 56, some 128, some 55] ∧
    [4, 5, 2 ^ 64].map (fun v => aft (.dependencyMet 7) (withCounter (launched .waitdep depends) v) (fun t => (launchOf t).state)) =
      [some .waitdep, some .ordered, some .refused] := by decide +kernel

theorem witness_messages : (findBind bound 0x9000) = none ∧ (findBind bound 0x5000).map (fun x => (x.1, x.2.1)) = some (0, 0) ∧
    mayPost bound (.device 1) 0 = false ∧ mayPost bound (.device 0) 0 = true ∧ (mfind (bound.part 0).binds 0).isSome = true ∧
    (findBind postedOnce 0x5000).map (fun x => (x.2.2.depth, x.2.2.queued)) = some (1, 1) ∧ mayPost bound (.master 7) 0 = true ∧ mayPost bound (.peer 3) 0 = false := by
  decide +kernel

/-- Nothing to place; a group that fits; one that does not, behind a group of lower priority; banks that are still cleared. -/
def ordered : State := launched .ordered []
def tooBig : State := launched .ordered [(107, 1, 64), (108, 4, 16)]
def clearing : State := (launched .ordered [(112, 1, 64)]).modSt 0 (fun k => { k with banks := [(63, { clearing := true })] })
def placed : State := match execGroupPlacement 0 ordered with | .next t => t | _ => ordered

theorem witness_placement : headLaunch run 0 = none ∧
    [ordered, tooBig, clearing].all (fun s => (headLaunch s 0).isSome && (s.part 0).state == 1) = true ∧
    (match headLaunch ordered 0 with
      | some x => (match placeNext ordered x with
        | some s1 => (upFrom (s1.fresh - ordered.fresh) ordered.fresh).all (fun g => !stillClearing ordered s1 g)
        | none => false)
      | none => false) = true ∧
    (match headLaunch tooBig 0 with | some x => (placeNext tooBig x).isNone | none => false) = true ∧
    (match headLaunch clearing 0 with
      | some x => (match placeNext clearing x with
        | some s1 => (upFrom (s1.fresh - clearing.fresh) clearing.fresh).any (fun g => stillClearing clearing s1 g)
        | none => false)
      | none => false) = true := by decide +kernel

/-- R22, R268, R269: 40 fibres in two warps, on different schedulers, with the message and the work identifiers. -/
theorem test_placement : (placed.core 0).st.warps.map (fun w => (w.1, w.2.index, (w.2.lanes.filter (fun l => l.2.state == .ready)).length, [0, 1, 9, 12].map (fun r => mget w.2.s r 0))) =
      [(0, 0, 32, [1, 2, 5, 9]), (16, 1, 8, [1, 2, 5, 9])] ∧
    ((mget (placed.core 0).st.warps 16 (loadWarp 0 0)).lane 3).workid = 35 ∧ (launchOf placed).state = .placed := by decide +kernel

/-- A group that leaves: its fibres have ended, or it is asked to stop and stands still, or not. -/
def ends : State := (run.modCurWarp (fun w => { w with lanes := [(0, { state := .ended }), (1, { state := .ended })] })).modSt 0 (fun k => { k with banks := [(0, { owner := some 2 })] })
def asked (park : Park) : State :=
  (run.modCurWarp (fun w => { w with lanes := [(0, { state := .parked, park := park, pc := 0x1000 })] })).modGroup 0 2 (fun g => { g with preempt := true })
def groupOf (s : State) : Group := (mfind (s.core 0).st.groups 2).getD { launch := 0, coords := [], number := 0, warps := [] }

theorem witness_groups : (mfind (run.core 0).st.groups 2).isSome = true ∧ (groupOf run).preempt = false ∧ (run.part 0).dumpReq = none ∧ (groupOf run).lazyOf = none ∧
    (mfind run.launches (groupOf run).launch).isSome = true ∧
    groupStopped (asked .safePoint) 0 2 = true ∧ commitWaits (asked .safePoint) 0 = false ∧ ((asked .safePoint).core 0).power = .active ∧
    groupStopped ((asked .safePoint).modCurWarp (fun w => { w with lanes := [(0, { state := .ready, pc := 0x1000 })] })) 0 2 = false ∧
    groupOver run 0 2 (groupOf run) = false ∧ groupOver ends 0 2 (groupOf ends) = true ∧ mayRelease ends 0 = true ∧ (groupOf run).span = 1 ∧
    ((mfind (ends.core 0).st.banks 0).map (·.owner)) = some (some 2) ∧ (mfind ends.cores 0).isSome = true ∧
    (ends.launches.map (fun x => (launchOver (ends.modLaunch x.1 (fun l => { l with ended := 1 })) x.1 { x.2 with ended := 1 },
      launchOver ends x.1 x.2))) = [(true, false)] := by decide +kernel

theorem test_group_end : aft (.groupEnd 0 2) ends (fun t => ((t.core 0).st.groups.length, (t.core 0).st.warps.length, ((t.core 0).st.bank 0).owner, t.launches.map (·.2.state))) =
    some (0, 0, none, [.done]) := by decide +kernel
/-- R347: a group whose save slot cannot be written runs on. -/
def unsaved : State :=
  let s := asked .safePoint
  { s with launches := s.launches.map (fun (x : Nat × Launch) => (x.1, { x.2 with header := taskHeader (fields ++ [(120, 8, 0x100000000000)]) })) }
theorem test_save : aft (.preemptionSave 0 2) unsaved (fun t => ((groupOf t).kept, (t.curLane 0).state, t.saved.length)) = some (true, .ready, 0) := by
  decide +kernel
/-- A warp of lane 0 with a change. -/
def oneLane (f : Lane → Lane) : State := (run.modCurWarp (fun w => { w with lanes := [(0, f { state := .ready, pc := 0x1000 })] }))
/-- A warp of one lane parked at an S mark, with these results. -/
def marked (rs : List PRes) : State := (oneLane (fun x => { x with state := .parked, park := .switchMark, owed := [(1, 5)], tag := 5 })).modCurWarp (fun w => { w with pend := rs })

theorem witness_results : ((marked [{ id := 4, lanes := 1, effs := [.g 0 9 77] }]).curWarp.pend.find? (fun x => x.id == 4)).map (fun r => (r.ready, r.effs)) =
      some (true, [.g 0 9 77]) ∧
    ((marked [{ id := 4, lanes := 1, effs := [], hold := some 3 }]).curWarp.pend.find? (fun x => x.id == 4)).map PRes.ready = some false ∧
    parkOver (marked [{ id := 4, lanes := 1, effs := [.g 0 9 77] }]) 0 (marked [{ id := 4, lanes := 1, effs := [.g 0 9 77] }]).curWarp 0 = false ∧
    parkOver (marked []) 0 (marked []).curWarp 0 = true := by decide +kernel
theorem test_results : aft (.classDResult 0 0 4) (marked [{ id := 4, lanes := 1, effs := [.g 0 9 77] }]) (fun t => (reg 9 t, (t.curLane 0).state)) = some (77, .parked) ∧
    aft (.sParkRelease 0 0 1) (marked []) (fun t => (t.curLane 0).state) = some .ready := by decide +kernel

/-- Fibres that wait: napping, at a CWAIT on a counter, at a queue, at LBWAIT. -/
def napping (time : Nat) : State := { (oneLane (fun x => { x with state := .napping, wake := 100 })) with time := time }
/-- A warp whose lane 0 is parked for a reason at an instruction, with tag 5. -/
def parkedAt (s : State) (i : Instr) (why : Park) : State :=
  (s.modCurWarp (fun w => { w with lanes := w.lanes.map (fun x => (x.1, if x.1 = 0 then { x.2 with state := .parked, park := why, tag := 5 } else { x.2 with state := .ended })) })).modCore 0
    (fun k => { k with icache := [(0x1000, wordOf i)] })
def counterPark (v : Nat) : State := parkedAt (counting v) (.cwait p0 2 4 6) (.cwait 0x3000 5)
def queuePark (i : Instr) (n : Nat) (put : Bool) (occ : Nat) : State :=
  (parkedAt queued i (.queue n put)).modGroup 0 2 (fun g => { g with queues := mset g.queues 1 { base := 0x1000, depth := 2, occ := occ } })
def again (s : State) (i : Instr) (why : Park → Bool) : State := reissue s 0 0 (taggedLanes s.curWarp 5 why) (wordOf i)
def lacingPark (gen : Nat) : State :=
  { (oneLane (fun x => { x with state := .parked, park := .lbwait 5 3 })) with parts := [(0, { run.part 0 with lacing := [(5, { gen := gen, mask := 1 })] })] }

theorem witness_ends : ((napping 100).curLane 0).state = .napping ∧ ((napping 100).curLane 0).wake ≤ (napping 100).time ∧ (napping 99).time < ((napping 99).curLane 0).wake ∧
    (napping 0).partOfCore 0 = some 0 ∧ ((lacingPark 3).core 0).st.warps.map (·.1) = [0] ∧
    [2, 3, 4].map (fun g => Machine.laced (lacingPark g) 0 5 (some 3)) = [false, false, true] ∧ openBatches (napping 0) 0 false (napping 0).curWarp = [] := by decide +kernel
theorem witness_cwait_ends : let i := Instr.cwait p0 2 4 6
    let q := Park.isCwait
    let s1 := fun v => again (counterPark v) i q
    let met := fun (e : Bool) => parkedAt (counting 4) i (.cwaitMet e)
    coreRuns (counterPark 4) 0 = true ∧ taggedLanes (counterPark 4).curWarp 5 q = [0] ∧ parkedWord (counterPark 4) 0 (counterPark 4).curWarp [0] = .word (wordOf i) ∧
    instrOf (wordOf i) = i ∧ reached 4 6 (s1 5) ((s1 5).active p0) = true ∧
    waitFault (s1 4) (waitAddr 4 (s1 4) ((s1 4).active p0)) = none ∧ reached 4 6 (s1 4) ((s1 4).active p0) = false ∧ inError 4 (s1 4) ((s1 4).active p0) = false ∧
    inError 4 (s1 (4 + 3 * 2 ^ 64)) ((s1 (4 + 3 * 2 ^ 64)).active p0) = true ∧
    ([true, false].map (fun e => ((met e).curLane 0).park) = [.cwaitMet true, .cwaitMet false]) ∧ (again (met true) i q).cur.met = some true := by
  decide +kernel
theorem witness_queue_ends : let put := Instr.qput p0 4 1
    let take := Instr.qtake p0 8 14 1
    let q := fun (p : Park) => match p with | .queue _ _ => true | _ => false
    [(put, true), (take, false)].all (fun x => taggedLanes (queuePark x.1 1 x.2 0).curWarp 5 q == [0] && instrOf (wordOf x.1) == x.1 &&
      parkedWord (queuePark x.1 1 x.2 0) 0 (queuePark x.1 1 x.2 0).curWarp [0] == .word (wordOf x.1)) = true ∧
    [1, 2].map (fun n => let u := again (queuePark put 1 true n) put q; decide ((u.curQueue 1).occ < (u.curQueue 1).depth)) = [true, false] ∧
    [0, 1].map (fun n => let u := again (queuePark take 1 false n) take q; decide ((u.curQueue 1).occ = 0)) = [true, false] ∧
    (let u := again ((queuePark take 1 false 0).modCurWarp (fun w => { w with stage := 0 })) take q
     u.curClosed 1 = false) := by decide +kernel
theorem test_ends : aft (.napWake 0 0 0) (napping 100) (fun t => (t.curLane 0).state) = some .ready ∧
    aft (.cwaitRelease 0 0 5) (counterPark 5) (fun t => ((t.curLane 0).state, (t.curLane 0).pc)) = some (.ready, 0x1004) ∧
    aft (.cwaitRelease 0 0 5) (parkedAt (counting 4) (.cwait p0 2 4 6) (.cwaitMet true)) (fun t => (pendsP 2 t, (t.curLane 0).state)) = some ([true], .ready) ∧
    aft (.queueParkRelease 0 0 5) (queuePark (.qput p0 4 1) 1 true 1) (fun t => (t.curQueue 1).occ) = some 2 ∧
    aft (.lbwaitRelease 0 5) (lacingPark 4) (fun t => (t.curLane 0).state) = some .ready := by decide +kernel

/-- An idle warp, with a stage whose queue holds an entry. -/
def idle : State := queued.modCurWarp (fun w => { w with stage := 0, lanes := [(0, { state := .ended })] })
theorem witness_stages : idle.curWarp.isGuest = false ∧ idle.curWarp.idle = true ∧ run.curWarp.idle = false ∧
    ((mfind (idle.core 0).st.groups idle.curWarp.group).map stageWithWork) = some (some 1) ∧ (mfind idle.launches idle.curWarp.launch).isSome = true ∧
    stageWithWork (groupOf run) = none := by decide +kernel
theorem test_stage : aft (.stageReassign 0 0) idle (fun t => (t.curWarp.stage, (t.curLane 0).state, (t.curLane 1).state)) = some (1, .ready, .empty) := by decide +kernel

/-- A fibre parked for the page of 0x1000, and one for a page that is mapped and not resident; a frame to spill. -/
def forPage (k : Nat) : State := { (oneLane (fun x => { x with state := .parked, park := .fetch k })) with hbm := loadBytes run.hbm 0x12008 8 0x8000003D }
/-- A frame of 10 registers with register 9 alone, or none, left in the stack cache. -/
def framed (sp : DWord) (gone : Nat) : State :=
  oneLane (fun x => { x with regs := [(9, 5)], frames := [{ slot := sp, count := 10, wbase := 0, spilled := upFrom gone 0 }] })
/-- The access that a spill of register 9 makes. -/
def spillAccess (s : State) (sp : Nat) : Except Flt (List Half) := accessCheck s (whoOf s 0 0 0) .store (sp + 36) 4 1
def farFrame : State := { (framed 0x40000000 9) with hbm := loadBytes run.hbm 0x12008 8 0x8000003D }
theorem witness_pages_arrive : [(0, true), (2 ^ 30 / 65536, false)].all (fun x => match waitedPage ((forPage x.1).curLane 0) with
      | some k => pageSettled (forPage x.1) k == x.2
      | none => false) = true ∧
    ((forPage 0).core 0).st.warps.map (fun x => (x.1, (upFrom 31 1).filter (fun l => (waitedPage (x.2.lane l)).isSome))) = [(0, [])] ∧
    (forPage 0).cores.map (·.1) = [0] ∧
    cachedRegs (framed 0x8000 10).curWarp 0 = [] ∧ (cachedRegs (framed 0x8000 9).curWarp 0).map (·.2) = [9] ∧
    cachedRegs ((framed 0x8000 9).modCurWarp (fun w => { w with pend := [{ id := 1, lanes := 1, effs := [.g 0 9 1] }] })).curWarp 0 = [] ∧
    (match spillAccess (framed 0x8000 9) 0x8000 with
      | .ok hs => !hs.any (mustWait (framed 0x8000 9) (whoOf (framed 0x8000 9) 0 0 0) false 0) && egressRoom (framed 0x8000 9) (whoOf (framed 0x8000 9) 0 0 0) 0 false hs
      | .error _ => false) = true ∧
    nonResident (spillAccess farFrame 0x40000000) = true ∧
    (match spillAccess (framed 0x800000000000 9) 0x800000000000 with | .ok _ => false | .error _ => !nonResident (spillAccess (framed 0x800000000000 9) 0x800000000000)) = true := by
  decide +kernel
/-- The one register left is the one that is picked, whichever value the choice has. -/
theorem witness_spill_choice (n : Nat) : (cachedRegs (framed 0x8000 9).curWarp 0)[n % (cachedRegs (framed 0x8000 9).curWarp 0).length]? =
    some ({ slot := 0x8000, count := 10, wbase := 0, spilled := [0, 1, 2, 3, 4, 5, 6, 7, 8] }, 9) := by
  have h : cachedRegs (framed 0x8000 9).curWarp 0 = [({ slot := 0x8000, count := 10, wbase := 0, spilled := [0, 1, 2, 3, 4, 5, 6, 7, 8] }, 9)] := by decide +kernel
  rw [h]
  simp [Nat.mod_one]
/-- R122: the bytes of a spilled register stand at its place of the slot. -/
theorem test_spill : (let s := framed 0x8000 9
    let f : Frame := { slot := 0x8000, count := 10, wbase := 0 }
    (coreByte (spillByte s 0 0 0 s.curWarp f 9 0) 0 true 0x40008024, coreByte (spillByte s 0 0 0 s.curWarp f 9 1) 0 true 0x40008024)) = (5, 0) := by decide +kernel

/-- An entry that waits in the egress buffer since TIME 0; a context whose time or budget is over; debits, reports and a refused post. -/
def waitingStore (time : Nat) : State := { (run.modCore 0 (fun k => { k with egress := [{ kind := .phys 0x40002000 [7] }] })) with time := time }
def metered (time : Nat) (dl : DWord) : State := { (run.modCtx 0 1 (fun c => { c with ebudget := 0xFFFFFFFF, ebrate := 10, ebmax := 100, dlrem := dl })) with time := time }
def reported : State := { run with debits := [(0, 1, 5)], reports := [(0, 1, 2, false), (0, 1, 2, true)] }
def retried (state : LaneState) (time : Nat) : State := { (oneLane (fun x => { x with state := state })).modCurWarp (fun w => { w with posted := true, retryAt := some 100 }) with time := time }

theorem witness_times : ((waitingStore 999).core 0).egress.map (fun e => decide (e.since + 1000 ≤ 999)) = [false] ∧ ((waitingStore 1000).core 0).egress.map (fun e => decide (e.since + 1000 ≤ 1000)) = [true] ∧
    egressFull (waitingStore 999) 0 = false ∧ egressFull (run.modCore 0 (fun k => { k with egress := List.replicate 16 { kind := .zero 0 } })) 0 = true ∧
    commitWaits (waitingStore 0) 0 = false ∧ ((waitingStore 0).core 0).power = .active ∧
    (((metered 1000 0).core 0).st.ctx? 1).map (fun c => (c.dlrem, meteringOff c)) = some (0, false) ∧
    [999, 1000, 2500].map (fun n => ((passTime (metered 0 5000) n).curCtx.refills, (passTime (metered 0 5000) n).curCtx.dlrem)) = [(0, 4001), (1, 4000), (2, 2500)] ∧
    (passTime (metered 500 (-1)) 100).curCtx.dlrem = -1 ∧ (mfind run.cores 0).isSome = true ∧ (mfind (metered 0 0).launches 1).isSome = true ∧
    ((run.core 0).st.ctx? 1).map meteringOff = some true ∧
    reported.debits[0]? = some (0, 1, 5) ∧ reported.debits[1]? = none ∧ reported.reports[0]? = some (0, 1, 2, false) ∧ reported.reports[1]? = some (0, 1, 2, true) ∧
    run.curWarp.retryAt = none ∧ (retried .ready 100).curWarp.retryAt = some 100 ∧ postReason (retried .ready 100).curWarp = none ∧
    (postReason (retried .faulted 100).curWarp).isSome = true := by decide +kernel
theorem test_times : aft (.egressDrain 0) (waitingStore 1000) (fun t => (homeByte t 0x40002000, (t.core 0).egress)) = some (7, []) ∧
    aft (.egressDrain 0) (waitingStore 999) (fun t => homeByte t 0x40002000) = some 0 ∧
    [999, 1000].map (fun n => aft (.energyRefill 0 1) (passTime (metered 0 5000) n) (fun t => t.curCtx.ebudget)) = [some 0xFFFFFFFF, some 9] ∧
    aft (.deadlineExpiry 0 1) (metered 0 0) (fun t => (t.part 0).state) = some 2 ∧
    aft (.ebudgetReport 0) reported (fun t => ((t.core 2).guestStalls, t.reports.length)) = some ([(0, 1)], 1) ∧
    aft (.ebudgetReport 1) reported (fun t => t.reports.length) = some 2 := by decide +kernel

/-! ## Channels, migration, shapes, system registers, hints and dumps -/

/-- Channel 5 of partition 0, with this head, operations and record at 0x3000 (flags, destination), whose copy reads 16 bytes of 0x4000. -/
def record (fl dst : Nat) : List Byte := bytesLE 8 0 ++ bytesLE 8 0x4000 ++ bytesLE 8 dst ++ bytesLE 8 16 ++ bytesLE 8 0 ++ bytesLE 1 fl ++ List.replicate 23 0
def channeled (busy : Bool) (head : DWord) (ops : List Nat) (fl : Nat) : State :=
  { run with
    channels := [(5, { busy := busy, head := head, ops := ops, part := some 0 })], owner := 0
    parts := [(0, { run.part 0 with chgrant := 32 })]
    hbm := memWrites (memWrites run.hbm 0x40004000 [1, 2, 3]) 0x40003000 (record fl 0x6000) }
def copying : State := nextOf (execChannelRecord 5 (channeled true 0x3000 [] 1)) run
def badCopy : State := nextOf (execChannelRecord 5 { channeled true 0x3000 [] 1 with hbm := memWrites run.hbm 0x40003000 (record 1 0x7FFFFFFF0000) }) run
/-- The record that a channel reads. -/
def recordRead (s : State) : Option (List Byte) := match chanRead s 0 (s.channel 5) (s.channel 5).head.toNat with | .ok r => some r | .error _ => none

theorem witness_channels : chanMaster (channeled false 0 [] 1) 0 5 = true ∧ chanMaster (channeled false 0 [] 1) 3 5 = false ∧ ((channeled false 0 [] 1).channel 5).busy = false ∧
    ((channeled true 0 [] 1).channel 5).busy = true ∧ ((channeled true 0 [] 1).channel 5).head = 0 ∧ ((channeled true 0 [] 1).channel 5).ops = [] ∧
    chanActive (channeled true 0x3000 [] 1) 5 = some 0 ∧
    (let lost := fun (ops : List Nat) => (channeled true 0x3000 ops 1).modChannel 5 (fun c => { c with part := none })
     [chanActive (lost []) 5, chanActive (lost [8]) 5] = [none, none] ∧ ((lost []).channel 5).busy = true ∧ ((lost [8]).channel 5).ops = [8] ∧
     ((keepGrants (channeled true 0x3000 [] 1) 0 0).channel 5).part = none) ∧
    [(channeled true 0x3000 [] 0), (channeled true 0x3000 [] 5), (channeled true 0x3000 [8] 3), (channeled true 0x3000 [8] 1), (channeled true 0x3000 [] 3)].map (fun s =>
      (recordRead s).map (fun r => (recField r 40 1 % 2, recordOk s r, bitOf (recField r 40 1) 1))) =
      [some (0, true, false), some (1, false, false), some (1, true, true), some (1, true, false), some (1, true, true)] ∧
    recordRead (channeled true 0x7FFFFFFF0000 [] 1) = none ∧
    (match mfind copying.engines 3 with
      | some e => engReady copying e && (copying.channel 5).ops == [3] && (match unitsE chanUnit 3 copying e.rest with | .ok _ => true | .error _ => false)
      | none => false) = true ∧
    (match mfind badCopy.engines 3 with
      | some e => engReady badCopy e && (badCopy.channel 5).ops == [3] && (match unitsE chanUnit 3 badCopy e.rest with | .ok _ => false | .error _ => true)
      | none => false) = true := by decide +kernel
/-- R281: the bytes move, OWN is cleared and the channel stops after the last record; a copy that fails leaves OWN and its code. -/
theorem test_channels : aft (.channelCopyCompletion 5) copying (fun t => (homeBytes t 0x40006000 3, homeByte t 0x40003028, (t.channel 5).ops)) = some ([1, 2, 3], 0, []) ∧
    aft (.channelRecord 5) copying (fun t => ((t.channel 5).busy, (t.channel 5).ops)) = some (false, [3]) ∧
    aft (.channelCopyCompletion 5) badCopy (fun t => (homeByte t 0x40003028, (t.channel 5).busy, (t.channel 5).code)) = some (1, false, 1) := by decide +kernel

/-- g4 names memory of stack 1, at VA 1 GiB; core 32 of that stack is active in the partition, or not. -/
def far (active : Bool) : State :=
  let s := here [(4, 0x40000000)] [(4, 0x2000)]
  { s with
    hbm := loadBytes s.hbm 0x12008 8 0x100000043F
    parts := [(0, { s.part 0 with cores := 1 + 2 ^ 32 })]
    cores := mset s.cores 32 { power := if active then .active else .coreGated } }
/-- Lane 0 is AWAY; the other executes. -/
def oneAway : State := { (run.modCurLane 0 (fun x => { x with state := .away })).modCurWarp (fun w => { w with m := [(0, 3)] }) with cur := { run.cur with lanes := 2 } }

theorem witness_migration :
    (let f : Form := { h := p0, ok := legal (.migto p0 4), src := regsOf 4 2 }
     [far true, far false].all (fun s => performs f s && !migWaits (s.charged f) (migtoDest (s.charged f) 4) [0, 1] && s.active p0 == [0, 1] &&
       [0, 1].all (fun l => (locate (s.charged f) (whoOf (s.charged f) 0 0 l) ((s.charged f).gd l 4).toNat).isSome && (migPoison (s.charged f) l).isNone)) = true ∧
     migtoDest (far true) 4 0 = .away 32 ∧ migtoDest (far true) 4 1 = .stay) ∧
    (let f : Form := { h := p0 }
     performs f run = true ∧ migWaits (run.charged f) (fun _ => .stay) [0, 1] = false ∧ ([0, 1].all (fun l => ((run.charged f).curLane l).guest.isNone)) = true) ∧
    (let f : Form := { h := p0, ok := legal (.regrp p0 0), uniform := true, guestOk := false }
     performs f run = true ∧ ((upFrom 32 0).all (fun l => ((run.issued f).curLane l).state != .away)) = true ∧
     performs f oneAway = true ∧ ((oneAway.issued f).curLane 0).state = .away ∧ ((oneAway.issued f).curWarp.mask 0).getLsbD 0 = true) := by decide +kernel

theorem witness_acceptance : migAccepts (far true) 32 0 256 = true ∧ migAccepts (far true) 32 0 257 = false ∧ migAccepts (far false) 32 0 1 = false ∧
    migAccepts (far true) 32 1 1 = false := by decide +kernel

/-- R285, R287: the fibre leaves, or stays and is counted. -/
def moved : State := next (.migto p0 4) (far true)
theorem test_migto : ((moved.curLane 0).state, (moved.curLane 0).pc, moved.transit.map (fun x => (x.target, x.pc, x.g.hops)), (moved.curLane 1).state) =
      (.away, 0x1004, [(32, 0x1004, 1)], .ready) ∧
    aft (.migto p0 4) (far false) (fun t => ((t.curLane 0).state, (t.core 0).st.migfallback, t.transit.length)) = some (.ready, 1, 0) := by decide +kernel

/-- The shuttle has arrived, has become a guest, has waited, and goes home. -/
def gtagOf (s : State) : Nat := (s.transit.map (fun x => x.g.gtag)).headD 0
def arrived : State := nextOf (execShuttleArrival (gtagOf moved) moved) run
def guested : State := nextOf (execGuestPlacement 32 arrived) run
def tired : State := { arrived with time := 10000 }
def returning : State := next (.migret p0) { guested with cur := { guested.cur with core := 32, lanes := 1, pc := 0x1004, hpc := 0x1004 } }
def homeId (s : State) : Nat := ((s.transit.filter (fun x => x.homeward)).map (fun x => x.id)).headD 0
def forgotten : State := arrived.modSt 32 (fun k => { k with seen := [], shuttles := [] })

theorem witness_shuttles : ((moved.transit.filter (fun y => !y.homeward && y.g.gtag == gtagOf moved && !y.settled && receives moved y.target)).map (fun x =>
      (moved.core x.target).st.seen.contains x.key)) = [false] ∧
    receives arrived 32 = true ∧ ((arrived.core 32).st.shuttles.findSome? (fun y => (guestSlot arrived 32 y).map (fun r => r.2))).isSome = true ∧
    ((tired.core 32).st.shuttles.filter (fun x => x.g.gtag == gtagOf moved && decide (x.queuedAt + 10000 ≤ tired.time) && receives tired x.fromCore)).length = 1 ∧
    commitWaits tired 32 = false ∧ commitWaits tired 0 = false ∧
    (match returning.transit.find? (fun y => y.homeward && y.id == homeId returning && !y.settled) with
      | some x => receives returning x.g.origin && !((markReceived returning x.id).core x.g.origin).st.seen.contains x.key
      | none => false) = true ∧
    (forgotten.transit.all (fun x => x.settled && !(forgotten.core x.target).st.seen.contains x.key)) = true ∧ forgotten.transit.length = 1 := by decide +kernel
theorem test_shuttles : ((guested.core 32).st.warps.map (fun w => (w.2.isGuest, w.2.lanes.map (fun l => (l.1, l.2.state, l.2.pc))))) = [(true, [(0, .ready, 0x1004)])] ∧
    aft (.shuttleBounce 32 (gtagOf moved)) tired (fun t => ((t.curLane 0).state, (t.core 0).st.migfallback, (t.core 32).st.shuttles.length)) = some (.ready, 1, 0) ∧
    aft (.homeArrival (homeId returning)) returning (fun t => ((t.warp? 0 0).map (fun w => ((w.lane 0).state, (w.lane 0).pc)))) = some (some (.ready, 0x1008)) := by decide +kernel

/-- A group that stands at a safe point, and an empty core of its motif. -/
def still : State :=
  let s := (run.modCurWarp (fun w => { w with lanes := [(0, { state := .napping, pc := 0x1000 })] })).modSt 0 (fun k => { k with banks := [(3, { owner := some 2 })] })
  { s with parts := [(0, { s.part 0 with cores := 3 })], cores := mset s.cores 1 { power := .active } }
theorem witness_move : (mfind (still.core 0).st.groups 2).map (fun g => mayMove still 0 2 1 g) = some true := by decide +kernel
theorem test_move : aft (.groupMove 0 2 1) still (fun t => ((t.core 0).st.warps.length, (t.core 1).st.warps.length, ((t.core 1).st.bank 3).owner, ((t.core 0).st.bank 3).forward)) =
    some (0, 1, some 2, some 1) := by decide +kernel

/-- Shape registers. -/
theorem witness_shapes :
    (let f : Form := { h := p0, ok := legal (.shld p0 3 4), src := regsOf 4 2, uniform := true, guestOk := false }
     performs f run = true ∧ accessWait (run.charged f) true false 0 false (fun _ => okHalves (shapeCheck (run.charged f) .load 0x2000)) [0] = none ∧
     errFault (shapeCheck (run.charged f) .load 0x2000) = none ∧ (run.charged f).gd 0 4 = 0x2000 ∧
     (okHalves (shapeCheck (run.issued f) .load 0x2000)).any (meetsBadTag (run.issued f) (engWho (run.issued f)) 0) = false) ∧
    (let f : Form := { h := p0, ok := legal (.shst p0 3 4), src := regsOf 4 2, shsrc := [3], uniform := true, guestOk := false }
     performs f run = true ∧ accessWait (run.charged f) false true 0 false (fun _ => okHalves (shapeCheck (run.charged f) .store 0x2000)) [0] = none ∧
     errFault (shapeCheck (run.charged f) .store 0x2000) = none) ∧
    [(0 : BitVec 6), 25].all (fun fd => performs { h := p0, ok := legal (.shget p0 3 4 fd), dst := regsOf 4 (if shapeWidth fd.toNat == 64 then 2 else 1), shsrc := [3], uniform := true, guestOk := false } run &&
      performs { h := p0, ok := legal (.shset p0 3 4 fd), src := regsOf 4 (if shapeWidth fd.toNat == 64 then 2 else 1), uniform := true, guestOk := false } run) = true := by
  decide +kernel
theorem test_shapes : aft (.shld p0 3 4) { run with hbm := memWrite run.hbm 0x40002019 2 } (fun t => t.curWarp.pend.map (fun r => r.effs)) = some [[.shape 3 (2 <<< 200)]] ∧
    aft (.shget p0 3 14 7) (shapes run [(3, 5 <<< 296)]) (pends 14) = some [5] := by decide +kernel

/-- System registers. -/
theorem witness_system_registers :
    [(0x000, 2), (0x002, 1), (0x0C0, 1), (0x042, 2)].all (fun (x : Nat × Nat) => performs { h := p0, ok := legal (.csrr p0 4 (BitVec.ofNat 12 x.1)), dst := regsOf 4 x.2 } run &&
      [0, 1].all (fun l => (guestCsrFault (BitVec.ofNat 12 x.1) true (run.charged { h := p0 }) l).isNone)) = true ∧
    [Instr.csrw p0 4 0x040, .csrs p0 4 0x040, .csrc p0 4 0x040, .csrw p0 4 0x032, .csrw p0 4 0x063].all (fun i => legal i) = true ∧
    [(0x040 : BitVec 12), 0x041, 0x032, 0x063].all (fun c => performs (formCsr p0 4 c true) run && (guestCsrFault c false run 0).isNone && (csrWriteFault run 4 c (fun _ v => v) 0).isNone) = true ∧
    csrBase 0x002 ∉ [0x032, 0x040, 0x041] ∧ (csrBase 0x002 ≠ 0x063) ∧ inHalt { run with parts := [(0, { run.part 0 with debug := 2 })] } 0 = true ∧
    popcount 64 (csrNext run 4 0x032 (fun _ v => v) 0) ≤ 16 ∧ ((run.core run.cur.core).st.ctx? run.curWarp.launch).isSome = true := by decide +kernel
theorem test_system_registers : aft (.csrw p0 1 0x040) run (fun t => t.curCtx.opf) = some 7 ∧ aft (.csrs p0 8 0x041) run (fun t => t.curCtx.accsat) = some 1 ∧
    [0x002, 0x042, 0x060].map (fun c => (csrWriteFault run 4 c (fun _ v => v) 0).map (·.code)) = [some fcIllegalOp, some fcPriv, some fcPriv] := by decide +kernel

/-- Hints. -/
theorem witness_hints : run.cur.stream = false ∧ legal (.immx 5) = true ∧ hintLimits ([] ++ [Hint.immx 5]) = true ∧ hintLimits [Hint.immx 5, .immx 6, .immx 7] = false ∧
    [Instr.opndReg 63, .opndPred 15, .schd 1 7, .ecls 15, .modr 0 0 0 0 0 1 0].all legal = true ∧ legal (.modr 0 0 0 7 0 0 0) = false := by decide +kernel

/-- Dumps: a task that asks for one, a partition that waits for one. -/
def dumping : State := next (.dump p0) run
theorem witness_dumps : performs { h := p0, uniform := true, guestOk := false } run = true ∧ performs { h := p0, uniform := true } run = true ∧
    ((run.charged { h := p0, uniform := true, guestOk := false }).part 0).dumpReq = none ∧ (run.part 0).dumpReq = none ∧
    (match (dumping.part 0).dumpReq with | some q => dumpReady dumping 0 q.1 q.2.2.2 | none => false) = true ∧
    performs { h := wordHdr 0x4A000000 } run = true ∧ isHintWord (0x4A000000#32).toNat = false ∧ isHintWord (0x7E500000#32).toNat = true ∧ run.cur.stream = false := by decide +kernel
theorem test_dump : ((dumping.curLane 0).state, (dumping.curLane 0).park) = (.parked, .dump) ∧
    [0x4A000000, 0x7E500000].map (fun x => aft (.illegalOpWord x) run (fun t => ((t.curLane 0).state, (t.curLane 0).record.map (·.code)))) =
      [some (.faulted, some fcIllegalOp), some (.faulted, some fcIllegalOp)] := by decide +kernel
/-! ## Journal, power, reset and boot -/

/-- A motif that has lost power; a dirty line in its slice, and its mirror. -/
def dark (loaded : Bool) : State := { run with motifs := [(0, { (run.motif 0) with loaded := loaded, powered := false })], l2shadow := [(0x40002000, 8)] }
/-- Core 0 with committed epochs, the oldest torn. -/
def epochs : State := run.modCore 0 (fun k => { k with epochs := [{ snap := k.st, intact := false }, { snap := { k.st with traceCount := 9 }, time := 3 }], image := { snap := k.st } })
/-- The last epoch of a journal whose both buffers are full. -/
def full : State := run.modCore 0 (fun k => { k with epochs := [{ snap := k.st }], journalFull := true })
/-- The only powered motif of a module that stands in HALT. -/
def lastMotif : State := { run with parts := [(0, { run.part 0 with debug := 2 })], motifs := (upFrom 31 1).map (fun m => (m, { powered := false })) }
/-- Core 0 gated, restoring bank 1; lane 0 waits for the bank, lane 1 stands at an instruction. -/
def gated : State := run.modCore 0 (fun k => { k with power := .coreGated, resuming := true })
def reloading : State := (run.modCurLane 0 (fun x => { x with state := .parked, park := .restoring 0 1 })).modCore 0 (fun k => { k with restoring := [1, 2] })
/-- Core 0 without a task. -/
def bare : State := (run.modSt 0 (fun k => { k with warps := [], groups := [] })).modCore 0 (fun k => { k with egress := [{ kind := .phys 0x40002000 [7] }] })

theorem witness_loss : standbyInHalt (dark true) 0 = false ∧ standbyInHalt lastMotif 0 = true ∧
    (full.core 0).journalFull = true ∧ (full.core 0).epochs.length = 1 ∧ commitWaits full 0 = false ∧ (epochs.core 0).journalFull = false ∧ ((dark true).motif 0).loaded = true ∧ ((dark false).motif 0).loaded = false ∧
    (run.core 0).epochs = [] ∧ ((epochs.core 0).epochs.map (·.intact)) = [false, true] ∧ (gated.core 0).power ≠ .active ∧
    (epochs.core 0).power = .active ∧ epochs.engines = [] ∧ (∀ g ∈ (epochs.core 0).st.groups, (mfind (epochs.core 0).lastEpoch.snap.groups g.1).isSome = true) ∧
    ((epochs.core 0).epochs.filter (·.intact)) ≠ [] ∧ (run.core 0).epochs.filter (·.intact) = [] := by decide +kernel
theorem test_loss : aft .modulePowerLoss run (fun t => (t.hbm, t.powered)) = some ([], false) ∧
    aft (.corePowerLoss 0) epochs (fun t => ((t.core 0).st.traceCount, (t.core 0).power)) = some (9, .coreGated) ∧
    aft (.journalApply 0) epochs (fun t => ((t.core 0).epochs.length, (t.core 0).image.time)) = some (1, 0) ∧
    aft (.motifRestore 0) (dark false) (fun t => homeByte t 0x40002000) = some 8 := by decide +kernel

theorem witness_resume : gated.powered = true ∧ (gated.motif 0).powered = true ∧ (gated.motif 0).loaded = true ∧ gated.partOfCore 0 = some 0 ∧ (gated.part 0).state ≠ 0 ∧
    (gated.core 0).power ≠ .active ∧ (run.core 0).power = .active ∧ (reloading.core 0).restoring.head? = some 1 ∧ (reloading.core 0).power = .active ∧
    ((reloading.curLane 0).state, (reloading.curLane 0).park) = (.parked, .restoring 0 1) ∧ (mfind reloading.curWarp.lanes 0).isSome = true := by decide +kernel
theorem test_resume : aft (.coreResume 0) gated (fun t => ((t.core 0).power, (t.curLane 0).state)) = some (.active, .ready) ∧
    (resumeLane { state := .ready, pc := 0x1008, hints := [.immx 1], hpc := 0x1004 }).pc = 0x1004 ∧
    [1, 2].map (fun b => aft (.bankReload 0 b) reloading (fun t => ((t.curLane 0).state, (t.core 0).restoring))) = [some (.ready, [2]), some (.parked, [1, 2])] := by decide +kernel

/-- A core with a bank held. -/
def busy : State := run.modCore 0 (fun k => { k with holds := [{ id := 7, banks := [0], entries := [], excl := true, exclEntries := false, op := none, granted := true }] })
theorem witness_gate : (gated.core 0).power ≠ .active ∧ (run.core 0).power = .active ∧
    (let u := recallFrom (busy.modCore 0 (fun k => { k with gateReq := true })) 0 (fun _ => true)
     commitWaits (busy.modCore 0 (fun k => { k with gateReq := true })) 0 = false ∧ (guestFree u 0 && coreQuiet u 0) = false) ∧
    (bare.core 0).power = .active ∧ (bare.core 0).holds = [] ∧ bare.engines = [] ∧ bare.transit = [] ∧ (bare.core 0).st.shuttles = [] ∧ (bare.core 0).st.warps = [] := by
  decide +kernel
theorem test_gate : aft (.coreGate 0) bare (fun t => ((t.core 0).power, homeByte t 0x40002000)) = some (.coreGated, 7) ∧
    aft (.coreGate 0) busy (fun t => ((t.core 0).power, (t.core 0).gateReq)) = some (.active, true) := by decide +kernel

/-- Windows and intervals of a motif at a TIME. -/
def ticking (time : Nat) (f : Motif → Motif) : State := { run with time := time, motifs := [(0, f (run.motif 0))] }
/-- The classes of Table 18-2 at their boundaries, for one core, 1,000 cycles and 2,000 lane cycles. -/
def sums (issu mstl lbsy : Nat) : WinSums := ⟨1, 1000, issu, mstl, lbsy, 2000⟩

theorem witness_windows : (ticking 10000 id).time % 10000 = 0 ∧ ((ticking 10000 id).motif 0).lastWin ≠ 10000 ∧ (ticking 9999 id).time % 10000 ≠ 0 ∧ (ticking 10000 id).powered = true ∧
    [sums 0 400 0, sums 0 399 1500, sums 600 0 999, sums 599 0 0, sums 600 0 1000].map (fun w => (decide (2 * w.cycf ≤ 5 * w.mstl), decide (3 * (w.lane * w.cores) ≤ 4 * w.lbsy),
      decide (3 * w.cycf ≤ 5 * w.issu), decide (2 * w.lbsy < w.lane * w.cores))) =
      [(true, false, false, true), (false, true, false, false), (false, false, true, true), (false, false, false, true), (false, false, true, false)] := by decide +kernel
theorem test_windows : [sums 0 400 0, sums 0 399 1500, sums 600 0 999, sums 599 0 0, sums 600 0 1000, ⟨0, 0, 0, 0, 0, 2000⟩].map (·.winClass) =
      [.mem, .lane, .front, .balanced, .balanced, .idle] ∧
    aft (.sensitivityWindow 0) (ticking 10000 id) (fun t => (t.motif 0).lastWin) = some 10000 ∧ aft (.sensitivityWindow 0) (ticking 9999 id) (fun t => (t.motif 0).lastWin) = some 0 := by
  decide +kernel

/-- The cases of an interval: a step in progress, a ceiling, a boost that may not last, and what a window asks for. -/
def limited (m : Motif) : Motif := (m.currentLimit.thermalLimit 50).checkLimits 1000
theorem witness_intervals : (ticking 1000 id).time % 1000 = 0 ∧ ((ticking 1000 id).motif 0).lastIval ≠ 1000 ∧ (ticking 1000 id).powered = true ∧ ((ticking 1000 id).motif 0).powered = true ∧
    (ticking 999 id).time % 1000 ≠ 0 ∧ (ticking 10000 id).time % 10000 = 0 ∧ ((ticking 10000 (fun m => { m with lastWin := 10000 })).motif 0).lastWin = 10000 ∧
    [0, 1, 2].map (fun n => decide (2 ≤ ((ticking 1000 (fun m => { m with passcnt := n })).motif 0).passcnt)) = [false, false, true] ∧
    ({ opl := 2, chc := 3 } : Motif).opl < (limited { opl := 2, chc := 3 }).ceiling ∧
    ((limited { opl := 0 }).ceiling, ({ opl := 0 } : Motif).step) = (0, none) ∧ (limited { opl := 0, passcnt := 1 }).passcnt = 1 ∧
    (limited { opl := 1 }).ceiling ≤ 1 ∧ (limited { opl := 2 }).ceiling < 2 := by decide +kernel
theorem test_intervals : aft (.currentAlarm 0) (ticking 0 (fun m => { m with passcnt := 2 })) (fun t => ((t.motif 0).passcnt, (t.motif 0).cuc)) = some (2, 2) ∧
    aft (.currentAlarm 0) (ticking 0 id) (fun t => ((t.motif 0).passcnt, (t.motif 0).cuc)) = some (1, 0) ∧
    [({ opl := 2, chc := 3 } : Motif), { opl := 0, passcnt := 1 }, { opl := 1, lratio := 0, request := some .mem }, { opl := 2, lratio := 0, request := some .front },
      { opl := 1, lratio := 0, request := some .lane }, { opl := 1 }].map (fun m => (m.interval 1000 ⟨50, 0, 0, 62⟩).step) =
      [some ⟨false, 3, 1, 1250⟩, some ⟨false, 1, 1, 1250⟩, some ⟨false, 2, 1, 1250⟩, some ⟨false, 1, 1, 2000⟩, some ⟨true, 1, 1, 1250⟩, none] ∧
    (({ opl := 1, request := some .mem, step := some ⟨false, 2, 1, 1250⟩ } : Motif).interval 1000 ⟨50, 0, 0, 62⟩).request = some .mem ∧
    (({ opl := 1, lratio := 0, request := some .lane } : Motif).interval 1000 ⟨50, 0, 62001, 62⟩).step = none := by decide +kernel

/-- R360: the phases of a step of LRATIO, up and down. -/
theorem witness_steps : (({ opl := 2, step := some ⟨false, 1, 1, 2000⟩ } : Motif).phaseEnd 1999).step = some ⟨false, 1, 1, 2000⟩ ∧
    (({ opl := 2, step := some ⟨false, 1, 1, 2000⟩ } : Motif).phaseEnd 2000).step = some ⟨false, 1, 2, 2250⟩ ∧
    (({ opl := 2, step := some ⟨false, 1, 2, 2250⟩ } : Motif).phaseEnd 2250).opl = 1 ∧
    (({ opl := 2, step := some ⟨false, 3, 1, 250⟩ } : Motif).phaseEnd 250).step = some ⟨false, 3, 2, 1250⟩ ∧
    (({ opl := 3, step := some ⟨false, 3, 2, 1250⟩ } : Motif).phaseEnd 1250).step = none ∧
    (({ lratio := 1, step := some ⟨true, 0, 1, 250⟩ } : Motif).phaseEnd 250).lratio = 0 := by decide +kernel

/-- Reset and boot: no usable record and no image. That a signature verifies is an opaque value: no closed state decides it. -/
def unbooted : State := { run with released := false, recovery := false }
theorem witness_boot : cfgChosen State.reset = none ∧ unbooted.powered = true ∧ unbooted.released = false ∧ run.released = true ∧ dieImage unbooted 0 = none ∧
    ({ unbooted with recovery := true } : State).recovery = true ∧ unbooted.recovery = false := by decide +kernel
theorem test_boot : aft .moduleReset run (fun t => (t.hbm, t.boot, t.released, (t.motif 3).opl)) = some ([], run.boot + 1, false, 1) ∧
    aft .firmwareBoot unbooted (fun t => (t.released, t.recovery)) = some (false, true) ∧
    aft (.imageWrite 4 1 1 [1, 2]) { unbooted with recovery := true } (fun t => t.flash) = some [(3, [1, 2])] ∧
    aft (.imageWrite 5 1 1 [1, 2]) { unbooted with recovery := true } (fun t => t.flash) = some [] := by decide +kernel
/-! ## The host, its peers and the commands -/

/-- Master 1 holds partition 0, master 0 owns the module, peer port 2 is in partition 0. -/
def hosted : State :=
  { run with linkcfg := 1, owner := 0, parts := [(0, { run.part 0 with master := 1 })], peers := [(2, { part := 0, up := true })]
             masters := [(0, { link := true }), (1, { link := true })] }
/-- Partition 0 with a change. -/
def parted (f : Part → Part) : State := { hosted with parts := [(0, f (hosted.part 0))] }

theorem witness_outside : hosted.powered = true ∧ (hosted.part 0).master = 1 ∧ (hosted.part 1).master ≠ 1 ∧ (hosted.part 0).apbase = 0 ∧
    (match devRead hosted 0 0x2000 4 with | .ok bs => bs.length == 4 | .error _ => false) = true ∧
    (match devRead hosted 0 0x4000000000 4 with | .ok _ => false | .error _ => true) = true ∧
    (match devPas hosted 0 0x2000 2 with | .ok ps => ps.length == 2 | .error _ => false) = true ∧
    (match devPas hosted 0 0x3FFFFFFF 2 with | .ok _ => false | .error _ => true) = true ∧
    (hosted.peer 2).up = true ∧ (hosted.peer 2).part = 0 := by decide +kernel
theorem test_outside : aft (.hostAccess 1 0 0x2000 0 (some [5, 6])) hosted (fun t => (homeByte t 0x40002000, homeByte t 0x40002001)) = some (5, 6) ∧
    aft (.hostAccess 2 0 0x2000 4 none) hosted (fun t => ((t.part 0).aperr, (t.master 2).answer)) = some (1, []) ∧
    aft (.peerAccess 2 0x1000 1 none) { hosted with hbm := memWrite hosted.hbm 0x40001000 9 } (fun t => (t.peer 2).answer) = some [9] := by decide +kernel

theorem witness_links : hosted.powered = true ∧ ({ hosted with linkcfg := 1 } : State).linkcfg = 1 ∧ hosted.owner ≤ 4 ∧ (hosted.master hosted.owner).link = true ∧
    (let s := { hosted with masters := [(0, { downAt := 5 })], time := 100000005 }
     (s.master s.owner).link = false ∧ (s.master s.owner).downAt + 100000000 ≤ s.time) ∧
    (let s := { hosted with masters := [(0, { downAt := 5 })], time := 100000004 }
     s.time < (s.master s.owner).downAt + 100000000) ∧ ownerOrMaster hosted 1 0 = true ∧ ownerOrMaster hosted 0 0 = true ∧ ownerOrMaster hosted 2 0 = false ∧
    ownerOrMaster { hosted with owner := 5 } 5 0 = false := by decide +kernel
theorem test_links : aft .ownerTimeout { hosted with masters := [(0, { downAt := 5 })], time := 100000005 } (fun t => t.owner) = some 7 ∧
    [0, 1].map (fun x => aft (.hostLinkChange 2 true) { hosted with linkcfg := x } (fun t => (t.master 2).link)) = [some false, some true] ∧
    [0, 1, 3, 4, 5].map (fun m => (run.hasMaster m, hosted.hasMaster m)) = [(true, true), (false, true), (false, true), (true, true), (false, false)] ∧
    aft (.aperrRead 1 0) (parted (fun p => { p with aperr := 258 })) (fun t => ((t.master 1).answer.take 2, (t.part 0).aperr)) = some ([2, 1], 0) := by decide +kernel

/-- SHOOTVA 0x10000 and a length, in units of 64 KiB; what the caches hold. -/
def shot (len : Nat) (f : Part → Part) : State :=
  (parted (fun p => f { p with shootva := 0x10000, shootlen := BitVec.ofNat 64 (len * 65536) })).modCore 0 (fun k =>
    { k with icache := [(0xFFFC, 1), (0x10000, 2), (0x1FFFC, 3), (0x20000, 4)], l1s := [(0x40010000, 7)] })
theorem witness_shootdown : ownerOrMaster (shot 1 id) 1 0 = true ∧ ((shot 1 id).part 0).shootRange = (0x10000, 0x10000) ∧ ((shot 0 id).part 0).shootRange.2 = 0 ∧
    (let r := ((shot (2 ^ 41 - 1) id).part 0).shootRange
     r.1 + r.2 = 2 ^ 57) ∧
    2 ^ 57 < ((parted (fun p => { p with shootva := 0x20000, shootlen := 0xFFFFFFFFFFFF0000 })).part 0).shootRange.1 +
      ((parted (fun p => { p with shootva := 0x20000, shootlen := 0xFFFFFFFFFFFF0000 })).part 0).shootRange.2 ∧
    ((shot 1 (fun p => { p with shootBusy := true })).part 0).shootBusy = true ∧ shootOver (shot 1 (fun p => { p with shootBusy := true })) 0 = true ∧
    (1 : BitVec 32).getLsbD 0 = true ∧ (2 : BitVec 32).getLsbD 0 = false ∧
    shootOver { (shot 1 (fun p => { p with shootBusy := true, shootOps := [3] })) with engines := filled.engines } 0 = false := by decide +kernel
theorem test_shootdown : aft (.shootdown 1 0 1) (shot 1 id) (fun t => ((t.core 0).icache.map (·.1), (t.core 0).l1s, (t.part 0).shootBusy)) = some ([0xFFFC, 0x20000], [], true) ∧
    aft (.shootdown 1 0 1) (shot 0 id) (fun t => ((t.part 0).shootErr, (t.part 0).shootDone)) = some (true, 1) ∧
    aft (.shootdown 1 0 1) (shot 1 (fun p => { p with shootBusy := true })) (fun t => (t.part 0).shootLost) = some true := by decide +kernel

/-- Core 0 stopped in HALT, selected with a region. -/
def inspected (region : Nat) : State :=
  ({ hosted with parts := [(0, { hosted.part 0 with debug := 2, tokenExpiry := some 50 })], masters := [(1, { dbgsel := BitVec.ofNat 32 (region * 256) })] }).modCore 0
    (fun k => { k with stopped := true, st := { k.st with scratch := [(0x40, 9)] } })
theorem witness_debug_window : debugOpen (inspected 1) 1 (dbgCore ((inspected 1).master 1).dbgsel) = true ∧ debugOpen hosted 1 0 = false ∧
    [0, 1].map (fun r => dbgRegion ((inspected r).master 1).dbgsel) = [0, 1] ∧ dbgWin ((inspected 1).master 1).dbgsel = 0 ∧
    Memory.wf ((inspected 1).core 0).st.scratch = true ∧ ((inspected 1).part 0).tokenExpiry = some 50 ∧ (hosted.part 0).tokenExpiry = none ∧
    (inspected 1).time < 50 ∧ 50 ≤ ({ inspected 1 with time := 50 } : State).time := by decide +kernel
theorem test_debug_window : aft (.debugWindowAccess 1 0x40 1 none) (inspected 1) (fun t => (t.master 1).answer) = some [9] ∧
    aft (.debugWindowAccess 1 0x40 1 none) hosted (fun t => (t.master 1).answer) = some [0] ∧
    aft (.debugWindowAccess 1 0x41 0 (some [3])) (inspected 1) (fun t => (t.core 0).st.scratch) = some [(0x40, 9), (0x41, 3)] ∧
    [49, 50].map (fun n => aft (.debugTokenExpiry 0) { inspected 1 with time := n } (fun t => (t.part 0).debug)) = [some 2, some 0] := by decide +kernel

/-- R328: a block in which a warp runs on is kept until the warp has left it. -/
def midway : State := (shot 1 id).modCurLane 0 (fun x => { x with pc := 0x10004 })
theorem test_mid_block : midBlocks midway 0 0x10000 0x10000 = [512] ∧
    aft (.shootdown 1 0 1) (midway.modCore 0 (fun k => { k with icache := [(0x10004, 2), (0x10080, 3)] })) (fun t => (t.core 0).icache.map (·.1)) = some [0x10004] ∧
    shootOver (shootBlocks (shot 1 (fun p => { p with shootBusy := true })) 0) 0 = true ∧
    shootOver (shootBlocks { (shot 1 (fun p => { p with shootBusy := true, shootOps := [3] })) with engines := filled.engines } 0) 0 = false := by decide +kernel

/-- R2, R9: firmware's writes, one of a reserved value among them. -/
theorem witness_firmware : hosted.powered = true ∧ inHalt (inspected 0) 0 = true ∧ inHalt hosted 0 = false ∧ (hosted.warp? 0 0).isSome = true ∧
    (hosted.core 0).st.ctx? 1 ≠ none ∧ (hosted.warp? 0 0).map (fun w => (w.launch, (mfind w.lanes 0).isSome)) = some (1, true) := by decide +kernel
theorem test_firmware : [2, 3].map (fun v => ((firmwareTurn hosted (.csr 0 0 0 0x061) v).motif 0).lratio) = [2, 1] ∧
    [0x8000000E, 0x80000A0F].map (fun v => mget ((firmwareTurn hosted (.csr 0 0 0 0x0C3) v).core 0).evsel 3 0) = [0x8000000E, 0x80000000] ∧
    ((firmwareTurn (inspected 0) (.csr 0 0 0 0x063) 3).core 0).hazchk = true ∧ ((firmwareTurn hosted (.csr 0 0 0 0x063) 3).core 0).hazchk = false ∧
    (firmwareTurn hosted (.ecost 3) 0x10007).ecostOf 3 = 7 ∧ (firmwareTurn hosted (.csr 0 0 0 0x042) 99).curCtx.dlrem = 99 := by decide +kernel

theorem witness_mmio : hosted.powered = true ∧ (1 : Nat) ≤ 4 ∧ [0x4000 + 8, 0x8000].all (fun e => decide (e ≤ 0x8000)) = true ∧ hosted.owner = 0 := by decide +kernel
theorem test_mmio : aft (.mmioWrite 1 0x7FF8 (bytesLE 8 0x0102)) hosted (fun t => (mget (t.master 1).ownbuf 0x3FF8 0, mget (t.master 1).ownbuf 0x3FF9 0)) = some (2, 1) ∧
    aft (.mmioWrite 1 0x200000 (bytesLE 8 0x12345)) hosted (fun t => (t.part 0).shootva) = some 0x10000 ∧
    aft (.mmioWrite 2 0x200000 (bytesLE 8 0x12345)) hosted (fun t => (t.part 0).shootva) = some 0 ∧
    aft (.mmioWrite 1 0x400000 [1]) hosted (fun t => t.hbm == hosted.hbm) = some true := by decide +kernel

theorem witness_ownership : hosted.powered = true ∧ hosted.released = true ∧ hosted.owner = 0 ∧ ({ hosted with owner := 7 } : State).owner = 7 ∧
    [1, 2].map (fun m => (hosted.master m).link) = [true, false] ∧ ({ hosted with released := false } : State).released = false := by decide +kernel
theorem test_ownership : [1, 2, 7, 5].map (fun n => aft (.cmdHandover 0 n) hosted (fun t => ((t.master 0).ownstat, t.owner))) =
      [some (0, 1), some (3, 0), some (0, 7), some (4, 0)] ∧
    aft (.cmdClaim 2) hosted (fun t => (t.master 2).ownstat) = some 2 ∧ aft (.cmdClaim 2) { hosted with owner := 7 } (fun t => t.owner) = some 2 ∧
    aft (.cmdGrant 0 3 4) hosted (fun t => (t.part 3).master) = some 4 := by decide +kernel

/-- A free partition 1 beside partition 0, and values at the limits of the fields. -/
theorem witness_pset : hosted.owner = 0 ∧ (hosted.part 1).state = 0 ∧ ((parted (fun p => { p with state := 2 })).part 0).state = 2 ∧ (hosted.part 0).dumpReq = none ∧
    ((parted (fun p => { p with dumpReq := some (1, 2, 3, 4) })).part 0).dumpReq ≠ none ∧
    ((upFrom 16 0).all (fun q => q == 1 || (hosted.part q).state != 1 || (hosted.part q).asid != (hosted.part 1).asid)) = true ∧
    ((hosted.part 0).cores &&& 1) ≠ 0 ∧ (hosted.part 0).state = 1 ∧ (hosted.part 0).asid = 1 ∧ paTarget 0x7FFFFFF000 = .hbm ∧
    62 * motifsOf (hosted.part 0).cores = 62 ∧ 62 + (otherParts hosted 0).foldl (fun a x => a + x.budget) 0 ≤ 1984 ∧
    ((upFrom 16 0).all (fun q => q == 0 || (hosted.part q).chgrant &&& 0xFFFF == 0)) = true ∧ (2 ^ 39 - 65536) % 65536 = 0 ∧
    65536 + ((parted (fun p => { p with dumpbase := 2 ^ 39 - 65536 })).part 0).dumpbase ≤ 2 ^ 39 := by decide +kernel
theorem test_pset : [(0, 1, 0), (0, 2, 4), (2, 4, 0), (2, 5, 4), (3, 1, 0), (3, 2, 0), (4, 0x7FFFFFF000, 0), (4, 0x800, 4), (6, 0, 0), (6, 1, 4), (10, 65536, 0), (10, 1, 4), (12, 0, 4)].map (fun x =>
      aft (.cmdPset 0 1 x.1 x.2.1) (parted (fun p => p)) (fun t => decide ((t.master 0).ownstat = x.2.2))) =
      [some true, some true, some true, some true, some true, some true, some true, some true, some true, some true, some true, some true, some true] ∧
    aft (.cmdPset 0 0 0 0) hosted (fun t => ((t.part 0).state, (t.part 0).master, (t.core 0).st.warps.length, t.launches.length)) = some (0, 7, 0, 0) ∧
    aft (.cmdPset 1 0 0 0) hosted (fun t => ((t.master 1).ownstat, (t.part 0).state)) = some (1, 1) := by decide +kernel

theorem witness_reads : hosted.owner = 0 ∧ hosted.security = .manufacture ∧ ({ hosted with security := .secured } : State).security ≠ .manufacture ∧ hosted.partOfCore 0 = some 0 ∧
    (hosted.part 0).debug = 0 ∧ (hosted.part 0).state = 1 ∧ readRight hosted 0 0 (cmdBlock 11 0 0 0) = (0, hosted) ∧
    ((parted (fun p => { p with state := 2, dumpsize := 65536 })).part 0).state ≠ 1 ∧ 49152 + 16384 ≤ ((parted (fun p => { p with dumpsize := 65536 })).part 0).dumpsize ∧
    ((parted (fun p => { p with tenant := 5 })).part 0).tenant ≠ 0 ∧ (hosted.master 1).nonce = none := by decide +kernel
theorem test_reads : aft (.cmdTraceread 0 0) hosted (fun t => (t.master 0).ownstat) = some 5 ∧ aft (.cmdTraceread 0 256) hosted (fun t => (t.master 0).ownstat) = some 4 ∧
    aft (.cmdTraceread 0 0) (parted (fun p => { p with state := 2 })) (fun t => (t.master 0).ownstat) = some 0 ∧
    aft (.cmdTraceread 1 0) hosted (fun t => (t.master 1).ownstat) = some 1 ∧ aft (.cmdErase 0 0) hosted (fun t => (t.master 0).ownstat) = some 5 := by decide +kernel

/-- The life of the module. That a credential verifies, and what a carried key opens, are opaque values. -/
def secured : State := { hosted with security := .secured }
theorem witness_security : (∀ q, q < 16 → (hosted.part q).debug = 0) ∧ secured.owner = 0 ∧ secured.security = .secured ∧ (secured.part 0).tenant = 0 ∧
    (let s := { (parted (fun p => { p with tenant := 5 })) with security := .tenant }
     (s.part 0).tenant ≠ 0 ∧ (s.part 0).dumpReq = none ∧ ((upFrom 16 0).all (fun q => q == 0 || (s.part q).tenant == 0)) = true) ∧
    leavesDone { hosted with leaf := 2 ^ 20 } = true ∧ leavesDone { hosted with leaf := 2 ^ 20 - 1 } = false ∧ ({ hosted with security := .retired } : State).security = .retired := by
  decide +kernel
theorem test_security : aft (.cmdTbind 0 0 5) hosted (fun t => (t.master 0).ownstat) = some 5 ∧ aft (.cmdTbind 0 0 0) secured (fun t => (t.master 0).ownstat) = some 4 ∧
    aft (.cmdTunbind 0 0) { (parted (fun p => { p with tenant := 5 })) with security := .tenant } (fun t => ((t.master 0).ownstat, t.security, (t.part 0).tenant)) = some (0, .secured, 0) ∧
    aft (.cmdProvision 0) secured (fun t => (t.master 0).ownstat) = some 5 ∧
    aft (.cmdAttest 0 []) { hosted with leaf := 2 ^ 20 } (fun t => (t.master 0).ownstat) = some 9 ∧
    aft (.cmdChallenge 0) hosted (fun t => (((t.master 0).owncmd.drop 8).length, (t.master 0).nonce.isSome)) = some (56, true) := by decide +kernel

theorem witness_debug_commands : (hosted.part 0).master = 1 ∧ (hosted.part 0).debug ≠ 2 ∧ ((inspected 0).part 0).debug = 2 ∧ tokenOk hosted 1 0 1 = false ∧ inStandby hosted = false ∧
    inStandby { hosted with motifs := (upFrom 32 0).map (fun m => (m, { powered := false })) } = true ∧ tenantOwned hosted 0 = false ∧
    tenantOwned { (parted (fun p => { p with tenant := 5 })) with security := .tenant } 0 = true ∧ consentOk hosted 1 0 1 = false ∧
    hosted.partOfCore 0 = some 0 ∧ hosted.partOfCore 255 = none ∧ ((inspected 0).core 0).debugWrites = [] := by decide +kernel
theorem test_debug_commands : aft (.cmdDebug 1 0 1) hosted (fun t => (t.master 1).ownstat) = some 7 ∧ aft (.cmdDebug 0 0 1) hosted (fun t => (t.master 0).ownstat) = some 1 ∧
    aft (.cmdDebug 1 0 3) hosted (fun t => (t.master 1).ownstat) = some 4 ∧ aft (.cmdDstop 1 0) hosted (fun t => (t.master 1).ownstat) = some 5 ∧
    aft (.cmdDresume 1 0) (inspected 0) (fun t => ((t.master 1).ownstat, (t.core 0).stopped)) = some (0, false) := by decide +kernel
/-! ## Steps, words and the state as a whole -/

/-- Scheduler 0 of core 0 is selected next; lane 0 and lane 1 stand at the word of IADD g5, g5, g6 in the instruction cache. -/
def scheduled (ts : List Turn) : State := { (run.modCore 0 (fun k => { k with icache := [(0x1000, 0x00014518)] })) with turns := ts }
/-- The state in which a turn is taken. -/
def begun (ts : List Turn) : State := { scheduled ts with free := (scheduled ts).free + 1 }
theorem witness_steps_run : [scheduled [.select 0 0], scheduled []].all (fun s => s.postsDue == [] && (firstRefill s).isNone && (heldDue { s with free := s.free + 1 }).isNone) = true ∧
    (round (begun [])).head? = some (.select 0 0) ∧
    (let s2 := cycle (begun []) 0
     (select (begun []) 0 0).map (fun x => (x.1, x.2.2.lanes, x.2.2.pc)) = some (0, [0, 1], 0x1000) ∧
     fetch s2 0 (s2.launchPart s2.curWarp.launch) 0x1000 = .word 0x00014518) ∧
    (decodeNat 0x00014518).toOption = some (.iadd p0 5 5 6) ∧ encodeNat (.napWake 0 0 0) = none ∧ (due 0).postsDue = [(0, 0, 0x5000, [7])] ∧
    firstRefill (passTime (metered 0 5000) 1000) = some (0, 1) ∧ (passTime (metered 0 5000) 1000).postsDue = [] ∧
    (match (round { run with cores := [] }).head? with | some (.own _) => true | _ => false) = true := by decide +kernel
/-- R25: what a round of the machine takes in: here both a batch and a pending result, a counter wait and a launch. -/
theorem test_round : (round (marked [{ id := 4, lanes := 1, effs := [] }])).contains (.own (.result 0 0 4)) = true ∧
    (round (marked [])).contains (.own (.parks 0 0)) = true ∧ (round (counterPark 5)).contains (.own (.cwait 0 0 5)) = true ∧
    (round (streaming false)).contains (.own (.stream 0 0)) = true ∧ (round ordered).contains (.own (.launch 7)) = true ∧
    (round moved).contains (.own (.arrive (gtagOf moved))) = true ∧ (round (epochs)).contains (.own (.apply 0)) = true ∧
    (round (channeled true 0x3000 [] 1)).contains (.own (.channel 5)) = true := by decide +kernel
/-- A step of the schedule, of the machine by itself, of an event, and a word that is no instruction. -/
theorem test_step : [scheduled [.select 0 0], scheduled []].map (fun s => (match step s with | .next t => some ((t.curLane 0).pc, reg 5 t) | _ => none)) =
      [some (0x1004, 0x40), some (0x1004, 0x40)] ∧
    (match step (scheduled [.act (.napWake 0 0 0), .pass 5]) with | .next t => some (t.turns.length, t.time) | _ => none) = some (1, 0) ∧
    (match step (due 0) with | .next t => some (t.postsDue.length, t.launches.length) | _ => none) = some (0, 2) := by decide +kernel
/-- The loader's task runs a word as the first instruction after reset. -/
theorem test_first : (match step (State.reset.withFetchWord 32 0x1B024005) with | .next t => some ((t.curLane 0).pc, reg 9 t) | _ => none) = some (0x1004, 5) := by
  decide +kernel

theorem witness_canonical : run.memOk = true ∧ (match step run with | .next t => t.memOk | _ => false) = true := by decide +kernel
theorem witness_words : (Instr.iadd ⟨true, true, 3⟩ 63 0 63).wf = true ∧ (0x00314518 : Nat) < 2 ^ 32 ∧ (decodeNat 0x00314518).toOption = some (.iadd ⟨false, false, 3⟩ 5 5 6) := by decide +kernel
theorem witness_hardwired : run.cur.stream = false ∧ aft (.iadd p0 0 1 2) run (reg 0) = some 0 ∧
    aft (.icmp p0 0 1 2 1) { run with cur := { run.cur with lanes := 1 } } (fun t => t.p 0 0) = some true := by decide +kernel

/-- The guards of a batch, an illegal operand, poison and a passed safe-point distance. -/
theorem witness_before_effect : run.cur.stream = false ∧ run.cur.counted = false ∧ hazOn run 0 = false ∧ run.curWarp.isGuest = false ∧
    run.active ⟨false, false, 2⟩ = [] ∧ (∀ l ∈ run.members, (run.curLane l).safecnt + 1 + run.cur.hints.length ≤ 2048) ∧
    (({ h := p0, ok := evenReg 1 } : Form).ok = false) ∧
    (let s := run.eachLane [0, 1] (fun s l => s.modCurLane l (fun x => { x with poison := [(3, true)] }))
     (s.active p0).all (fun l => !unpoisoned (s.curLane l) 3) = true) ∧
    (let s := run.eachLane [0, 1] (fun s l => s.modCurLane l (fun x => { x with safecnt := 2048 }))
     (∀ l ∈ s.members, 2048 < (s.curLane l).safecnt + 1 + s.cur.hints.length)) := by decide +kernel
/-! ## More of the same -/

/-- A guest that leaves once the commit can be made. -/
def leaving : State := guested.modSt 32 (fun k => { k with warps := k.warps.map (fun w => (w.1, { w.2 with
  lanes := w.2.lanes.map (fun l => (l.1, { l.2 with state := .parked, park := .leaving, homeDue := some (0x1008, {}) })) })) })
theorem witness_leaving : ((guested.core 32).st.warps.map (fun w => (w.1, (w.2.lane 0).guest.isSome))) = [(0, true)] ∧
    (leaving.warp? 32 0).map (fun w => ((w.lane 0).park, (w.lane 0).homeDue, parkOver leaving 32 w 0)) = some (.leaving, some (0x1008, {}), false) ∧
    commitWaits leaving 32 = false := by decide +kernel

/-- R180: the set-up of a group drops what the core's L1 shares; R23: the first group of a family fixes its motif. -/
def setUp : Option State := setupGroup (ordered.modCore 0 (fun k => { k with l1s := [(0x40002000, 3)] })) 7 (launchOf ordered) 0 0
theorem witness_setup : (setUp.map (fun t => (t.core 0).l1s)) = some [] ∧
    (let s := launched .ordered [(54, 1, 1)]
     let h := (launchOf s).header
     decide (0 < h.loclvl) && (launchOf s).families.isEmpty && familyMotif (s.modLaunch 7 (noteFamily h [0, 0, 0] 9)) 7 h [0, 0, 0] == some 1) = true := by decide +kernel

/-- R275: MBFREE discards the message that waits, and counts it. -/
theorem test_discard : aft (.mbfree p0 14 4) (match post bound (.device 0) 0x5000 (some []) with | (_, t) => t) (fun t => ((t.part 0).discarded, t.launches.length, (findBind t 0x5000).isSome)) =
    some (1, 1, false) := by decide +kernel

/-- R168: the check value of CRC-32C of the nine digits. -/
theorem test_crc : crc32c [0x31, 0x32, 0x33, 0x34, 0x35, 0x36, 0x37, 0x38, 0x39] = 0xE3069283 := by decide +kernel
/-! ## Hypotheses of the wider clauses -/

/-- Calls whose records lie in no window; members that are no guests, and one whose marked register it does not carry. -/
theorem witness_call_posts : (let f : Form := { h := p0, guestOk := false }
     postWait (stacked.charged f) [0, 1] ([0, 1].flatMap (fun l => okHalves (callCheck (stacked.charged f) 2 none l))) = none) ∧
    (let s := { guested with cur := { guested.cur with core := 32, lanes := 1, pc := 0x1004, hpc := 0x1004 } }
     performs { h := p0 } s = true ∧ s.active p0 = [0] ∧ ((s.curLane 0).guest).isSome = true ∧ migPoison s 0 = none) := by decide +kernel
/-- R124: a guest that ends leaves its host; its home lane is still AWAY. -/
theorem test_guest_end : aft (.fend p0) { guested with cur := { guested.cur with core := 32, lanes := 1, pc := 0x1004, hpc := 0x1004 } } (fun t =>
    (t.transit.filter (fun x => x.homeward)).map (fun x => (x.ended, x.exited, x.fault))) = some [(true, false, false)] := by decide +kernel

/-- A core that is to lose power in its next atomic. -/
def dying : State := run.modCore 0 (fun k => { k with cut := .armed })
theorem witness_cut : (run.core 0).cut ≠ .armed ∧ (dying.core 0).cut = .armed ∧ [0, 1] ≠ [] ∧ (run.core 0).egress = [] ∧ run.held = [] ∧ run.cutDue = none ∧
    (let t := next (.atom p0 8 4 0 0) dying
     t.cutDue = some 0 ∧ t.postsDue = []) := by decide +kernel
/-- 20 R392: the intent is committed and the home keeps its bytes. -/
theorem test_cut : aft (.atom p0 8 4 0 0) dying (fun t => (homeByte t 0x40002000, (t.core 0).cut, (t.core 0).epochs.length)) = some (0, .due, 1) := by decide +kernel

/-- Engines and holds: no step relocks the banks; a row operation's next segment is free; a failed engine may act; an address that a device reaches, or not. -/
theorem witness_engine_parts : banksStop requests 0 = false ∧ (mfind rowed.engines 3).map (fun e => (unitReady rowed e e.next, decide (e.next < e.total))) = some (true, true) ∧
    (mfind stale.engines 3).map (engMay stale) = some true ∧ (match devPa run 0 false 0x3000 with | .ok a => a == 0x40003000 | .error _ => false) = true ∧
    (match devPa run 0 false 0x7FFFFFFF0000 with | .ok _ => false | .error _ => true) = true ∧
    (mfind filled.engines 3).map (fun e => (e.kind.isCopy, e.hold.isSome)) = some (true, false) ∧ (mfind freeing.engines 3).map (fun e => e.hold.isSome) = some true ∧
    (let f : Form := { h := p0, ok := legal (.bchk p0 10), src := regsOf 10 2, uniform := true, guestOk := false, persist := true, mult := popcount 64 (banking.gd (banking.leader p0) 10).toNat }
     performsPersist f banking = true ∧ commitWaits banking 0 = false) ∧
    commitWaits (bchkRest checked ((checking.engines.map (·.1)).headD 0)) 0 = false := by decide +kernel
/-- R228: nothing is granted while the step of the motif's clock stops the banks. -/
theorem test_relock : [none, some ⟨true, 0, 1, 250⟩].map (fun x => aft (.holdGrant 0 8) (requests.modMotif 0 (fun m => { m with step := x })) (fun t =>
    ((t.core 0).holds.map (·.granted)))) = [some [false], some [false, false]] := by decide +kernel

/-- Dirty lines: waiting for nothing, behind another line, behind sixteen. -/
def lineQueue (q : List Nat) : State := { run with l2 := [(0x40002000, 9)], refresh := [(refreshKey { run with l2 := [(0x40002000, 9)] } 0x800040, q)] }
theorem witness_write_back : lineDirty { run with l2 := [(0x40002000, 9)] } 0x800040 = true ∧ (∀ x ∈ ({ run with l2 := [(0x40002000, 9)] } : State).refresh, 0x800040 ∉ x.2) ∧
    lineDirty run 0x800040 = false := by decide +kernel
theorem witness_line_queue (q : List Nat) (h : 0x800040 ∉ q) : (∀ x ∈ (lineQueue q).refresh, 0x800040 ∉ x.2) ∧
    mget (lineQueue q).refresh (refreshKey (lineQueue q) 0x800040) [] = q := by
  constructor
  · intro x hx
    cases List.mem_singleton.mp hx
    exact h
  · simp [lineQueue, refreshKey, mget, mfind]

/-- A queue whose bank no operation holds; words that a stream may hold and not; a fetch that faults, waits, or finds no page; a form that no stream takes. -/
theorem witness_stream_clauses : queueBusy (queued.charged { h := p0 }) 1 ((queued.charged { h := p0 }).curQueue 1).tail = none ∧
    queueBusy (queued.charged { h := p0 }) 1 ((queued.charged { h := p0 }).curQueue 1).head = none ∧
    [Instr.sopAdd p0 16 16 16, .cwait p0 2 4 6, .exit p0, .iadd p0 1 2 3].map mayStream = [true, true, false, false] ∧
    (let s := run.modCurWarp (fun w => { w with stream := some { base := 0x7FFFFFFF0000, count := 1, s := [], leader := 0 } })
     (match s.curWarp.stream with | some t => streamOpen s 0 s.curWarp t && (match fetch s 0 0 t.pc.toNat with | .fault _ => true | _ => false) | none => false) = true) ∧
    (let s := ({ run with motifs := [(0, { (run.motif 0) with loaded := true }), (1, { loaded := false })] } : State).modCurWarp (fun w =>
      { w with stream := some { base := 0x1010, count := 1, s := [], leader := 0 } })
     let dark := { s with motifs := (upFrom 32 0).map (fun m => (m, { loaded := false })) }
     (match dark.curWarp.stream with | some t => streamOpen dark 0 dark.curWarp t && (match fetch dark 0 0 t.pc.toNat with | .waits => true | _ => false) | none => false) = true) ∧
    (let s := { streaming false with cur := { (streaming false).cur with stream := true } }
     s.cur.stream = true ∧ (s.warp? 0 0).isSome = true ∧ s.curWarp.stream.isSome = true ∧ (⟨false, false, 1⟩ : Hdr).gp ≠ 0 ∧ 31 < 32) := by decide +kernel

/-- Waits: a nap that owes an S park, LBWAIT in two warps, members of a PGREQ, a spill onto a mailbox window. -/
def owing : State := (napping 100).modCurWarp (fun w => { w with pend := [{ id := 4, lanes := 1, effs := [.g 0 9 77] }], lanes := w.lanes.map (fun x => (x.1, { x.2 with owed := [(1, 5)] })) })
def twoWarps : State := (lacingPark 4).modSt 0 (fun k => { k with warps := k.warps ++ [(1, { launch := 1, lanes := [(3, { state := .parked, park := .lbwait 5 3 })] })] })
def pager (queued : Nat) (why : Park) (other : LaneState) : State :=
  { (oneLane (fun x => { x with state := .parked, park := why, tag := 5 })).modCurWarp (fun w => { w with lanes := w.lanes ++ [(1, { state := other, pc := 0x1000, park := if other = .parked then .pager else .none })] }) with
    parts := [(0, { run.part 0 with pgmbx := 0x80, binds := [(0, { window := 0x80, header := 0, size := 32, depth := 4, queued := queued })] })] }
def spillPost (rs : List PRes) : State := { (framed 0x8000 9).modCurWarp (fun w => { w with pend := rs }) with
  parts := [(0, { run.part 0 with binds := [(0, { window := 0x7FE8, header := 0, size := 64, depth := 4 })] })] }
theorem witness_wide_waits : (owing.curLane 0).state = .napping ∧ owedHeld owing.curWarp (owing.curLane 0).owed = true ∧ owedHeld (napping 100).curWarp ((napping 100).curLane 0).owed = false ∧
    ((twoWarps.core 0).st.warps.map (·.1)) = [0, 1] ∧ twoWarps.partOfCore 0 = some 0 ∧
    [1, 4].map (fun n => pagerRoom (pager n .pager .ended) 0) = [true, false] ∧ parkMates (pager 1 .pager .ended).curWarp 0 = [0] ∧
    [LaneState.parked, .ended].map (fun x => pagerLate (pager 1 (.pagerDone 0x1000) x).curWarp 0x1000) = [true, false] ∧
    (match spillAccess (spillPost []) 0x8000 with
      | .ok hs => halvesPost (spillPost []) hs && !hs.any (mustWait (spillPost []) (whoOf (spillPost []) 0 0 0) false 0) && egressRoom (spillPost []) (whoOf (spillPost []) 0 0 0) 0 false hs
      | .error _ => false) = true ∧
    [([] : List PRes), [{ id := 4, lanes := 1, effs := [.g 0 8 77] }]].map (fun rs => (pendingPersist (spillPost rs).curWarp 1, commitWaits (spillPost rs) 0)) = [(false, false), (true, false)] ∧
    (match spillAccess (framed 0x8000 9) 0x8000 with | .ok hs => !halvesPost (framed 0x8000 9) hs | .error _ => false) = true := by decide +kernel
theorem test_wide_waits : aft (.napWake 0 0 0) owing (fun t => ((t.curLane 0).state, (t.curLane 0).park)) = some (.parked, .switchMark) ∧
    aft (.lbwaitRelease 0 5) twoWarps (fun t => [(t.curLane 0).state, ((t.warp? 0 1).map (fun w => (w.lane 3).state)).getD .empty]) = some [.ready, .ready] ∧
    [1, 4].map (fun n => aft (.sParkRelease 0 0 1) (pager n .pager .ended) (fun t => (t.curLane 0).state)) = [some .ready, some .parked] ∧
    [LaneState.parked, .ended].map (fun x => aft (.sParkRelease 0 0 1) (pager 1 (.pagerDone 0x1000) x) (fun t => (t.curLane 0).state)) = [some .parked, some .ready] := by decide +kernel
/-- A channel whose counter is a bound window that is full; shuttles home that faulted, ended, left and were recalled, with a carried register; SHST. -/
def fullWindow : State :=
  let s := copying.modEngine 3 (fun e => { e with ctr := 0x5000 })
  { s with parts := [(0, { s.part 0 with binds := [(0, { window := 0x5000, header := 0x6000, size := 64, depth := 1, queued := 1 })] })] }
def homing (fault ended exited recalled : Bool) : Option Shuttle := (returning.transit.find? (fun x => x.homeward)).map (fun x =>
  { x with fault := fault, ended := ended, exited := exited, recalled := recalled, fcode := 0x12, faddr := 0x40, regs := [(9, 77)] })
theorem witness_way_home : (mfind fullWindow.engines 3).map (fun e => (e.ctr != 0, (counterPost (endEngine fullWindow e) e.part e.core e.ctr e.count e.status e.info e.path).1 != 0)) = some (true, true) ∧
    [(true, false, false), (false, true, false), (false, false, true), (false, false, false)].map (fun x => (homing x.1 x.2.1 x.2.2 false).map (fun y =>
      let t := homeState run 0 0 0 y
      ((t.curLane 0).state, decide (t = run)))) = [some (.faulted, false), some (.ended, false), some (.empty, false), some (.ready, true)] ∧
    (homing false false false false).map (fun y => (homeLane y { state := .away, wbase := 4, regs := [(13, 5), (2, 6)], poison := [(13, true)] }).regs) = some [(13, 77), (2, 6)] ∧
    (homing true false false false).map (fun y => (y.regs.map (·.1), decide ((9 : Nat) ≠ 0))) = some ([9], true) ∧
    (let f : Form := { h := p0, ok := legal (.shst p0 3 4), src := regsOf 4 2, shsrc := [3], uniform := true, guestOk := false }
     performs f run = true ∧ postWait (run.charged f) [0, 1] (okHalves (shapeCheck (run.charged f) .store 0x2000)) = none) := by decide +kernel
/-- R265: the refused post of a completion leaves code 0x12 in the channel's status. -/
theorem test_channel_post : aft (.channelCopyCompletion 5) fullWindow (fun t => (t.channel 5).code) = some 0x12 := by decide +kernel

/-- Windows: lanes that stand still, at OP1 and either ratio; the shares of one partition of 40 W on two motifs; a motif whose boost is over the cap. -/
def shared (n : Nat) : State := { run with parts := [(0, { run.part 0 with cores := 2 ^ n - 1, budget := 40 })] }
theorem witness_wide_power : ({ powered := false } : Motif).laneClock = 0 ∧ ({ step := some ⟨true, 0, 1, 250⟩ } : Motif).relocks.2 = true ∧ ({} : Motif).relocks.2 = false ∧
    [0, 1].map (fun r => ({ opl := 1, lratio := r } : Motif).laneClock) = [243, 486] ∧ [8, 16].map (fun n => powerCap (shared n) 0) = [40, 20] ∧
    coresOf (shared 16) 0 (upFrom 256 0) = 16 ∧ 40 * coresOf (shared 16) 0 (motifCores 0) ≤ 62 * coresOf (shared 16) 0 (upFrom 256 0) ∧
    (let x : IvalIn := { temp := 50, held := 40001, step := 39999, cap := 40 }
     x.allows = true ∧ x.keeps = false) := by decide +kernel
/-- 18 R362: the lane cycles of 10 µs at OP1 and LRATIO 1, and with 250 ns of a relock among them. -/
theorem test_lane_cycles : (({ opl := 1, lratio := 1 } : Motif).laneUnits 10000) / 200 = 24300 ∧
    (let m := (({ opl := 1, lratio := 0 } : Motif).counted 5000)
     let r := ({ m with step := some ⟨true, 1, 1, 5250⟩ } : Motif).phaseEnd 5250
     (r.lratio, r.laneUnits 10000 / 200) = (1, 6075 + 11542)) := by decide +kernel

/-- The host: accesses that wait for a slice without power, a read-only register, a command on a stopped core, and its waiting writes. -/
def unlit : State := { hosted with motifs := (upFrom 32 0).map (fun m => (m, { loaded := false })) }
def writing (ws : List (Nat × Byte)) : State := (inspected 3).modCore 0 (fun k => { k with debugWrites := ws })
theorem witness_wide_host : outsideWaits hosted 0 0x2000 4 = false ∧ outsideWaits unlit 0 0x2000 4 = true ∧
    ([(0x40002000, true, (5 : Byte))].map (·.1)).Nodup ∧ paTarget 0x40002000 = .hbm ∧ hosted.held = [] ∧ hosted.master 1 = { link := true } ∧
    chanMaster { hosted with parts := [(0, { hosted.part 0 with chgrant := 32 })] } 1 5 = true ∧ chanMaster hosted 2 5 = false ∧
    [2, 3].map (fun r => dbgRegion ((inspected r).master 1).dbgsel) = [2, 3] ∧ debugOpen (inspected 2) 1 (dbgCore ((inspected 2).master 1).dbgsel) = true ∧
    (let s := parted (fun p => { p with debug := 2 })
     { s with security := .secured }.security = .secured ∧ (s.part 0).debug ≠ 0 ∧ (s.master 0).nonce = none) ∧
    ((inspected 0).part 0).master = 1 ∧ ((inspected 0).core 0).debugWrites = [] ∧ ((writing [(0, 1)]).core 0).debugWrites ≠ [] ∧
    ((inspected 0).warp? 0 0).isSome = true ∧ (inspected 0).curWarp.nreg ≠ 0 ∧ ((inspected 0).core 0).st.ctx? 1 ≠ none ∧
    ((shot 1 (fun p => { p with shootBusy := true, shootSpan := (0x10000, 0x10000) })).part 0).shootSpan = (0x10000, 0x10000) := by decide +kernel
/-- R368: what waits takes effect when the core resumes: register 2 of lane 1 of slot 0, byte 1. -/
theorem test_wide_host : aft (.cmdDresume 1 0) (writing [(512 + 4 * 2 + 1, 7)]) (fun t => (t.g 1 2, (t.core 0).debugWrites)) = some (0x0703, []) ∧
    aft (.cmdDebug 1 0 0) (inspected 0) (fun t => ((t.part 0).debug, (t.core 0).stopped)) = some (0, false) ∧
    aft (.debugWindowAccess 1 0x40 0 (some [3])) (inspected 3) (fun t => (t.core 0).debugWrites) = some [(3 * 2 ^ 23 + 0x40, 3)] ∧
    aft (.debugWindowAccess 1 0x41 0 (some [3])) (inspected 2) (fun t => mget (t.core 0).st.acc 16 0) = some 0x300 ∧
    aft (.hostAccess 1 0 0x2000 4 none) unlit (fun t => (t.master 1).answer) = some [] ∧
    readRight { (parted (fun p => { p with debug := 2 })) with security := .secured } 0 0 (cmdBlock 12 0 0 0) = (0, { (parted (fun p => { p with debug := 2 })) with security := .secured }) ∧
    (readRight { hosted with security := .secured } 0 0 (cmdBlock 12 0 0 0)).1 = 8 := by decide +kernel
/-- R160: a write of the range's registers does not move the range of a shootdown that is in progress. -/
theorem test_shoot_span : aft (.mmioWrite 1 0x200000 (bytesLE 8 0x990000)) (shot 1 (fun p => { p with shootBusy := true, shootSpan := (0x10000, 0x10000) })) (fun t =>
    ((t.part 0).shootva, (t.part 0).shootSpan)) = some (0x990000, 0x10000, 0x10000) := by decide +kernel

/-- R25: a gated core of an ACTIVE partition that is needed is among what a round takes in; so is a motif without power. -/
theorem witness_wanted : (let s := ordered.modCore 0 (fun k => { k with power := .coreGated })
     (s.core 0).power ≠ .active ∧ coreWanted s 0 (s.core 0) = true ∧ (round s).contains (.own (.resume 0)) = true) ∧
    (let s := dark false
     (s.motif 0).loaded = false ∧ allGated s = false ∧ (s.part 0).state = 1 ∧ (round s).contains (.own (.restore 0)) = true) := by decide +kernel

end Sys2Proof.Tests
end

section
/-! The statements of 05_float_registers.md: values of .f32 codes and of the special functions, what the shared shapes of
completion leave pending, then each obligation from these. -/

namespace Sys2Proof.FloatRegisters
open Sys2Proof.Machine

/-! ## Codes of .f32 (02_number_formats.md R28) -/

/-- Bit 31 of a word is its sign bit. -/
theorem bitOf_msb (x : Word) : bitOf x.toNat 31 = x.msb := by
  rw [BitVec.msb_eq_decide, bitOf, Bool.eq_iff_iff, beq_iff_eq, decide_eq_true_eq]
  have := x.isLt
  omega

/-- The value of a .f32 code by its fields. -/
theorem f32v_eq (x : Word) : f32v x =
    if x.toNat / 2 ^ 23 % 256 = 255 then
      if x.toNat % 2 ^ 23 = 0 then .inf x.msb else .nan x.msb (!bitOf (x.toNat % 2 ^ 23) 22)
    else if x.toNat / 2 ^ 23 % 256 = 0 then .fin x.msb (x.toNat % 2 ^ 23) (-149)
    else .fin x.msb (2 ^ 23 + x.toNat % 2 ^ 23) ((x.toNat / 2 ^ 23 % 256 : Nat) - 150) := by
  have hq : ∀ e : Int, -149 + e - 1 = e - 150 := fun e => by omega
  simp [f32v, FFmt.decode, FFmt.f32, bits, bitOf_msb, hq]

theorem f32v_sign (x : Word) : (f32v x).sign = x.msb := by
  rw [f32v_eq]
  split
  · split <;> rfl
  · split <;> rfl

/-- A normal code by its exponent field and its significand, the hidden bit included. -/
theorem f32v_normal {x : Word} {E M : Nat} (h : x.toNat % 2 ^ 31 = E * 2 ^ 23 + M) (hE : E ≤ 253) (hl : 2 ^ 23 ≤ M)
    (hu : M < 2 ^ 24) : f32v x = .fin x.msb M (E - 149) := by
  have he : x.toNat / 2 ^ 23 % 256 = E + 1 := by omega
  have hm : x.toNat % 2 ^ 23 = M - 2 ^ 23 := by omega
  have hn : ¬ E + 1 = 255 := by omega
  rw [f32v_eq, he, hm, if_neg hn, if_neg (Nat.succ_ne_zero E), Nat.add_sub_cancel' hl]
  congr 1
  omega

/-- A code whose fraction is zero is a power of two. -/
theorem f32v_pow {E : Nat} (h1 : 1 ≤ E) (h2 : E ≤ 254) : f32v (BitVec.ofNat 32 (E * 2 ^ 23)) = .fin false (2 ^ 23) (E - 150) := by
  have hx : (BitVec.ofNat 32 (E * 2 ^ 23)).toNat = E * 2 ^ 23 := by simp; omega
  have hs : (BitVec.ofNat 32 (E * 2 ^ 23)).msb = false := by rw [BitVec.msb_eq_false_iff_two_mul_lt, hx]; omega
  rw [f32v_normal (E := E - 1) (M := 2 ^ 23) (by rw [hx]; omega) (by omega) (Nat.le_refl _) (by omega), hs]
  congr 1; omega

/-- The zeros are the codes whose bits below the sign are clear. -/
theorem f32v_zero_iff (x : Word) : (f32v x).isZero = true ↔ x.toNat % 2 ^ 31 = 0 := by
  rw [f32v_eq]
  split
  · split <;> simp [FVal.isZero] <;> omega
  · split <;> simp [FVal.isZero] <;> omega

/-! ## Rounding of values that .f32 holds (R37) -/

/-- The length of a number is its highest bit, counted from 1. -/
theorem bitLen_bounds {m : Nat} (h : m ≠ 0) : 0 < bitLen m ∧ 2 ^ (bitLen m - 1) ≤ m ∧ m < 2 ^ bitLen m := by
  have : bitLen m = m.log2 + 1 := if_neg h
  rw [this]
  exact ⟨by omega, Nat.log2_self_le h, Nat.lt_log2_self⟩

/-- A significand shifted to 24 bits. -/
theorem shifted_bounds {m : Nat} (h : m ≠ 0) (hb : bitLen m ≤ 24) :
    2 ^ 23 ≤ m * 2 ^ (24 - bitLen m) ∧ m * 2 ^ (24 - bitLen m) < 2 ^ 24 := by
  obtain ⟨h0, h1, h2⟩ := bitLen_bounds h
  constructor
  · calc 2 ^ 23 = 2 ^ (bitLen m - 1) * 2 ^ (24 - bitLen m) := by rw [← Nat.pow_add]; congr 1; omega
      _ ≤ _ := Nat.mul_le_mul_right _ h1
  · calc m * 2 ^ (24 - bitLen m) < 2 ^ bitLen m * 2 ^ (24 - bitLen m) := Nat.mul_lt_mul_of_pos_right h2 (Nat.two_pow_pos _)
      _ = _ := by rw [← Nat.pow_add]; congr 1; omega

/-- A value of at most 24 significant bits in the range of the normal numbers is its own rounding. -/
theorem round_exact (md : RMode) (n : Bool) {m : Nat} {e : Int} (hm : m ≠ 0) (hb : bitLen m ≤ 24)
    (hl : -125 ≤ e + bitLen m) (hu : e + bitLen m ≤ 128) : FFmt.f32.round md false (.fin n m e) =
      ((if n then 2 ^ 31 else 0) + ((e + bitLen m + 125).toNat * 2 ^ 23 + m * 2 ^ (24 - bitLen m)), 0) := by
  obtain ⟨-, hM⟩ := shifted_bounds hm hb
  have hr : FFmt.f32.roundMag md n m e = ⟨(e + bitLen m + 125).toNat * 2 ^ 23 + m * 2 ^ (24 - bitLen m), false, false⟩ := by
    have hmb : (FFmt.f32.mbits : Int) = 23 := rfl
    have hbi : (FFmt.f32.bias : Int) = 127 := rfl
    have hq : max (e + (bitLen m : Int) - 1 - FFmt.f32.mbits) (1 - (FFmt.f32.bias : Int) - FFmt.f32.mbits) =
        e + bitLen m - 24 := by rw [hmb, hbi]; omega
    have hle : e + (bitLen m : Int) - 24 ≤ e := by omega
    have hshift : (e - (e + (bitLen m : Int) - 24)).toNat = 24 - bitLen m := by omega
    have hfield : (e + (bitLen m : Int) - 24 - (1 - (FFmt.f32.bias : Int) - FFmt.f32.mbits)).toNat = (e + bitLen m + 125).toNat := by
      rw [hmb, hbi]; omega
    have htiny : decide (e + (bitLen m : Int) - 1 < 1 - (FFmt.f32.bias : Int)) = false := decide_eq_false (by rw [hbi]; omega)
    simp only [FFmt.roundMag, if_neg hm, hq, if_pos hle, hshift, hfield, htiny]
    rfl
  have hc : ¬ (e + bitLen m + 125).toNat * 2 ^ 23 + m * 2 ^ (24 - bitLen m) > FFmt.f32.maxCode := by
    have : FFmt.f32.maxCode = 255 * 2 ^ 23 - 1 := rfl
    omega
  simp only [FFmt.round, hr, if_neg hc]
  rfl

/-- The code of such a value has that value. -/
theorem f32v_round {n : Bool} {m : Nat} {e : Int} (md : RMode) (hm : m ≠ 0) (hb : bitLen m ≤ 24)
    (hl : -125 ≤ e + bitLen m) (hu : e + bitLen m ≤ 128) :
    f32v (BitVec.ofNat 32 (FFmt.f32.round md false (.fin n m e)).1) = .fin n (m * 2 ^ (24 - bitLen m)) (e + bitLen m - 24) := by
  obtain ⟨h1, h2⟩ := shifted_bounds hm hb
  rw [round_exact md n hm hb hl hu]
  have hx : (BitVec.ofNat 32 ((if n then 2 ^ 31 else 0) + ((e + bitLen m + 125).toNat * 2 ^ 23 + m * 2 ^ (24 - bitLen m)))).toNat =
      (if n then 2 ^ 31 else 0) + ((e + bitLen m + 125).toNat * 2 ^ 23 + m * 2 ^ (24 - bitLen m)) := by
    rw [BitVec.toNat_ofNat, Nat.mod_eq_of_lt]
    split <;> omega
  rw [f32v_normal (E := (e + bitLen m + 125).toNat) (by rw [hx]; split <;> omega) (by omega) h1 h2,
    BitVec.msb_eq_decide, hx]
  congr 1
  · cases n
    · simp; omega
    · simp
  · omega

/-- A power of two among the normal numbers. -/
theorem exactF_two_pow {k : Int} (hl : -126 ≤ k) (hu : k ≤ 127) :
    exactF (.fin false 1 k) = (BitVec.ofNat 32 ((k + 127).toNat * 2 ^ 23), 0) := by
  have h1 : bitLen 1 = 1 := rfl
  have h := round_exact .rn false (m := 1) (e := k) (by decide) (by decide) (by omega) (by omega)
  simp only [exactF, f32out, FFmt.finish, h, h1]
  congr 2
  simp; omega

/-! ## The order of values (R47, R94) -/

/-- Equal numbers of different signs are zeros. -/
theorem zeros_of_cmpVal_eq {v w : FVal} (h : cmpVal v w = .eq) (hv : v.isNan = false) (hw : w.isNan = false)
    (sv : v.sign = true) (sw : w.sign = false) : v.isZero = true ∧ w.isZero = true := by
  cases v with
  | nan => simp [FVal.isNan] at hv
  | inf x =>
    cases w with
    | nan => simp [FVal.isNan] at hw
    | inf y => simp_all [FVal.sign, cmpVal]
    | fin => simp_all [FVal.sign, cmpVal]
  | fin n m e =>
    cases w with
    | nan => simp [FVal.isNan] at hw
    | inf y => simp_all [FVal.sign, cmpVal]
    | fin n' m' e' =>
      simp only [FVal.sign] at sv sw
      subst sv sw
      simp only [cmpVal, Int.compare_eq_eq, alignTo, if_true, Bool.false_eq_true, if_false] at h
      have h1 : m * 2 ^ (e - min e e').toNat = 0 := by omega
      have h2 : m' * 2 ^ (e' - min e e').toNat = 0 := by omega
      have hz : ∀ {a j : Nat}, a * 2 ^ j = 0 → (a == 0) = true := fun {a j} h =>
        beq_iff_eq.mpr ((Nat.mul_eq_zero.mp h).resolve_right (Nat.ne_of_gt (Nat.two_pow_pos j)))
      exact ⟨hz h1, hz h2⟩

/-- The order of R47 on codes that are no NaN. -/
theorem ordBelow_f32v {x y : Word} (hx : (f32v x).isNan = false) (hy : (f32v y).isNan = false) :
    ordBelow (f32v x) (f32v y) =
      (cmpVal (f32v x) (f32v y) == .lt || (cmpVal (f32v x) (f32v y) == .eq && x.msb && !y.msb)) := by
  unfold ordBelow
  cases h : cmpVal (f32v x) (f32v y) with
  | lt => rfl
  | gt => rfl
  | eq =>
    have hz : x.msb = true → y.msb = false → (f32v x).isZero = true ∧ (f32v y).isZero = true := fun sx sy =>
      zeros_of_cmpVal_eq h hx hy ((f32v_sign x).trans sx) ((f32v_sign y).trans sy)
    simp only [f32v_sign]
    cases hsx : x.msb <;> cases hsy : y.msb <;> simp_all

/-- R94: the model's minimum and maximum are those of the rule. -/
theorem minMax_eq_lesserOrGreater (mx : Bool) (x y : Word) :
    (BitVec.ofNat 32 (FFmt.f32.minMax mx x.toNat y.toNat).1, (FFmt.f32.minMax mx x.toNat y.toNat).2) = lesserOrGreater mx x y := by
  have hf : ∀ w : Word, FFmt.f32.decode w.toNat = f32v w := fun _ => rfl
  have hn : BitVec.ofNat 32 FFmt.f32.nanCode = 0x7FC00000 := rfl
  simp only [FFmt.minMax, lesserOrGreater, hf]
  cases hx : (f32v x).isNan <;> cases hy : (f32v y).isNan
  case false.false =>
    have hxy := ordBelow_f32v hx hy
    have hyx := ordBelow_f32v hy hx
    cases mx
    · simp only [hyx, Bool.false_eq_true, and_self, Bool.and_self, if_false]
      split <;> simp
    · simp only [hxy, Bool.false_eq_true, and_self, Bool.and_self, if_true, if_false]
      split <;> simp
  all_goals simp [hn]

/-! ## Signs (R95) -/

/-- A sign operation is the one of R95 whose sign its function sets. -/
theorem signOp_eq_signed {f : Word → Word} (x : Word) (negative : Bool)
    (h : f x = (x &&& 0x7FFFFFFF) ||| (if negative then 0x80000000 else 0)) : signOp x f = signed x negative := by
  unfold signOp signed
  rw [h]
  rfl

theorem signBit_getElem : ∀ i (hi : i < 32), (0x80000000#32)[i] = decide (i = 31) := by decide

theorem clearBits_getElem : ∀ i (hi : i < 32), (0x7FFFFFFF#32)[i] = decide (i ≠ 31) := by decide

/-- A sign bit alone, by whether it is set. -/
theorem signBit_and (y : Word) : y &&& 0x80000000 = if y.msb then 0x80000000 else 0 := by
  ext i hi
  rw [BitVec.msb_eq_getLsbD_last]
  by_cases h : i = 31
  · subst h
    cases hy : y.getLsbD 31 <;> simp_all [signBit_getElem]
  · split <;> simp [signBit_getElem, h]

/-- Inversion of the sign bit keeps the rest. -/
theorem signBit_xor (x : Word) : x ^^^ 0x80000000 = (x &&& 0x7FFFFFFF) ||| (if !x.msb then 0x80000000 else 0) := by
  ext i hi
  rw [BitVec.msb_eq_getLsbD_last]
  by_cases h : i = 31
  · subst h
    cases hx : x.getLsbD 31 <;> simp_all [signBit_getElem, clearBits_getElem]
  · split <;> simp [signBit_getElem, clearBits_getElem, h]

theorem signOp_abs (x : Word) : signOp x (fun x => x &&& 0x7FFFFFFF) = signed x false := signOp_eq_signed x false (by simp)

theorem signOp_neg (x : Word) : signOp x (fun x => x ^^^ 0x80000000) = signed x (!x.msb) := signOp_eq_signed x _ (signBit_xor x)

theorem signOp_copy (x y : Word) : signOp x (fun x => (x &&& 0x7FFFFFFF) ||| (y &&& 0x80000000)) = signed x y.msb :=
  signOp_eq_signed x _ (by rw [signBit_and])

/-! ## The special functions (R97, Table 5-2) -/

/-- A NaN gives the canonical NaN. -/
theorem special_nan (md : RMode) {x : Word} (h : (f32v x).isNan = true) :
    ∀ r ∈ [frcp md x, fsqrt md x, frsq x, fex2 x, flg2 x, fsin x, fcos x, ftanh x],
      r = (0x7FC00000, OpFlags.when (f32v x).isSnan .nv) := by
  have hn : f32nan = 0x7FC00000 := rfl
  cases hv : f32v x with
  | inf => simp [hv, FVal.isNan] at h
  | fin => simp [hv, FVal.isNan] at h
  | nan sg sn => simp [frcp, fsqrt, frsq, fex2, flg2, fsin, fcos, ftanh, hv, hn, FVal.isSnan]

/-- What a negative number other than -0 is. -/
theorem f32v_negative {x : Word} (hn : (f32v x).isNan = false) (hs : x.msb = true) (hz : x ≠ 0x80000000) :
    f32v x = .inf true ∨ ∃ m e, m ≠ 0 ∧ f32v x = .fin true m e := by
  have hsign := (f32v_sign x).trans hs
  cases hv : f32v x with
  | nan => simp [hv, FVal.isNan] at hn
  | inf n => simp_all [FVal.sign]
  | fin n m e =>
    rw [hv] at hsign
    refine .inr ⟨m, e, fun hm => hz ?_, by rw [show n = true from hsign]⟩
    have h0 : x.toNat % 2 ^ 31 = 0 := (f32v_zero_iff x).mp (by simp [hv, FVal.isZero, hm])
    have h1 : 2 ^ 31 ≤ x.toNat := by simpa [BitVec.msb_eq_decide] using hs
    have := x.isLt
    exact BitVec.eq_of_toNat_eq (show x.toNat = 2 ^ 31 by omega)

/-- A negative number has no root and no logarithm. -/
theorem special_negative (md : RMode) {x : Word} (hn : (f32v x).isNan = false) (hs : x.msb = true) (hz : x ≠ 0x80000000) :
    fsqrt md x = (0x7FC00000, .nv) ∧ frsq x = (0x7FC00000, .nv) ∧ flg2 x = (0x7FC00000, .nv) := by
  have hnan : f32nan = 0x7FC00000 := rfl
  obtain hv | ⟨m, e, hm, hv⟩ := f32v_negative hn hs hz
  · simp [fsqrt, frsq, flg2, hv, hnan]
  · simp [fsqrt, frsq, flg2, hv, hnan, hm]

theorem powTwo_hidden (e : Int) : powTwo (2 ^ 23) e = some (e + 23) := by
  have : bitLen (2 ^ 23) = 24 := by decide
  simp only [powTwo, this]
  rw [if_pos (by decide)]
  congr 1; omega

/-- FRSQ of an even power of two is the exact power (R97). -/
theorem frsq_of_powTwo {x : Word} {m : Nat} {e k : Int} (hx : f32v x = .fin false m e) (hm : m ≠ 0) (hp : powTwo m e = some k)
    (hk : k % 2 = 0) : frsq x = exactF (.fin false 1 (-(k / 2))) := by
  simp [frsq, hx, hm, hp, hk]

/-- FLG2 of a power of two is exact (R97). -/
theorem flg2_of_powTwo {x : Word} {m : Nat} {e k : Int} (hx : f32v x = .fin false m e) (hm : m ≠ 0) (hp : powTwo m e = some k) :
    flg2 x = exactF (.ofInt k) := by
  simp [flg2, hx, hm, hp]

/-- 1/√(4^n) is exact. -/
theorem frsq_four_pow {n : Nat} (h : n ≤ 126) : frsq (BitVec.ofNat 32 ((2 * (n - 63 : Int) + 127).toNat * 2 ^ 23)) =
    (BitVec.ofNat 32 ((190 - n) * 2 ^ 23), 0) := by
  have hx := f32v_pow (E := (2 * (n - 63 : Int) + 127).toNat) (by omega) (by omega)
  rw [frsq_of_powTwo hx (Nat.ne_of_gt (Nat.two_pow_pos 23)) (powTwo_hidden _) (by omega), exactF_two_pow (by omega) (by omega)]
  congr 3
  omega

/-- An aligned significand with its sign. -/
theorem alignTo_eq (n : Bool) (a : Nat) (e e' : Int) :
    alignTo n a e e' = (if n then -(a : Int) else a) * 2 ^ (e - e').toNat := by
  have hc : ((a * 2 ^ (e - e').toNat : Nat) : Int) = a * 2 ^ (e - e').toNat := by rw [Int.natCast_mul, Int.natCast_pow]; rfl
  cases n
  · exact hc
  · exact (congrArg Neg.neg hc).trans (Int.neg_mul _ _).symm

/-- A comparison with an integer, at an exponent below 0. -/
theorem cmpVal_shift (n n' : Bool) (a b j : Nat) :
    cmpVal (.fin n (a * 2 ^ j) (-j)) (.fin n' b 0) = compare (if n then -(a : Int) else a) (if n' then -(b : Int) else b) := by
  have hmin : min (-(j : Int)) 0 = -j := by omega
  have hpos : (0 : Int) < 2 ^ j := Int.pow_pos (by decide)
  have hl : alignTo n (a * 2 ^ j) (-j) (-j) = alignTo n a 0 (-j) := by
    simp only [alignTo, Int.sub_self, Int.toNat_zero, Nat.pow_zero, Nat.mul_one, Int.zero_sub, Int.neg_neg, Int.toNat_natCast]
  have hj : ((0 : Int) - -(j : Int)).toNat = j := by omega
  simp only [cmpVal, hmin, hl, alignTo_eq, hj]
  generalize (if n then -(a : Int) else a) = p
  generalize (if n' then -(b : Int) else b) = q
  obtain h | rfl | h := Int.lt_trichotomy p q
  · rw [Int.compare_eq_lt.mpr h, Int.compare_eq_lt.mpr (Int.mul_lt_mul_of_pos_right h hpos)]
  · rw [Int.compare_eq_eq.mpr rfl, Int.compare_eq_eq.mpr rfl]
  · rw [Int.compare_eq_gt.mpr h, Int.compare_eq_gt.mpr (Int.mul_lt_mul_of_pos_right h hpos)]

/-- A shifted integer is the integer. -/
theorem integralOf_shift (n : Bool) (a : Nat) {j : Nat} (hj : 0 < j) :
    integralOf n (a * 2 ^ j) (-j) = some (if n then -(a : Int) else a) := by
  have h1 : ¬ (0 : Int) ≤ -(j : Int) := by omega
  simp only [integralOf, roundToInt, if_neg h1, roundShift, Int.neg_neg, Int.toNat_natCast, Nat.mul_mod_left,
    Nat.mul_div_cancel _ (Nat.two_pow_pos j)]
  rfl

/-- 2^k of an integral exponent whose result is a normal number is exact. -/
theorem fex2_of_integral {x : Word} {n : Bool} {a j : Nat} {k : Int} (hx : f32v x = .fin n (a * 2 ^ j) (-j)) (hj : 0 < j)
    (hk : (if n then -(a : Int) else a) = k) (hl : -126 ≤ k) (hu : k ≤ 127) :
    fex2 x = (BitVec.ofNat 32 ((k + 127).toNat * 2 ^ 23), 0) := by
  have hover : cmpVal (.fin n (a * 2 ^ j) (-j)) (.fin false 128 0) = .lt := by
    rw [cmpVal_shift, hk, if_neg Bool.false_ne_true, Int.compare_eq_lt]
    omega
  have hunder : cmpVal (.fin n (a * 2 ^ j) (-j)) (.fin true 149 0) = .gt := by
    rw [cmpVal_shift, hk, if_pos rfl, Int.compare_eq_gt]
    omega
  simp only [fex2, hx, hover, hunder, integralOf_shift n a hj, hk, if_pos hl, exactF_two_pow hl hu]
  rfl

/-- The code of a small integer. -/
theorem f32v_ofInt {k : Int} (h0 : k ≠ 0) (hl : -126 ≤ k) (hu : k ≤ 127) :
    ∃ j : Nat, 0 < j ∧ f32v (BitVec.ofNat 32 (FFmt.f32.round .rn false (.ofInt k)).1) = .fin (decide (k < 0)) (k.natAbs * 2 ^ j) (-j) := by
  obtain ⟨hb, hlo, -⟩ := bitLen_bounds (m := k.natAbs) (by omega)
  have hb7 : bitLen k.natAbs ≤ 7 := by
    refine Nat.le_of_not_lt fun hc => ?_
    have : 2 ^ 7 ≤ 2 ^ (bitLen k.natAbs - 1) := Nat.pow_le_pow_right (by decide) (by omega)
    omega
  refine ⟨24 - bitLen k.natAbs, by omega, ?_⟩
  rw [FVal.ofInt, f32v_round .rn (by omega) (by omega) (by omega) (by omega)]
  congr 1
  omega

/-- FEX2 of the code of an integral exponent is exact. -/
theorem fex2_integral {n : Nat} (h : n ≤ 253) : fex2 (BitVec.ofNat 32 (FFmt.f32.round .rn false (.ofInt (n - 126 : Int))).1) =
    (BitVec.ofNat 32 ((n + 1) * 2 ^ 23), 0) := by
  rcases Decidable.em ((n : Int) - 126 = 0) with hk | hk
  · obtain rfl : n = 126 := by omega
    rfl
  · obtain ⟨j, hj, hx⟩ := f32v_ofInt hk (by omega) (by omega)
    rw [fex2_of_integral hx hj (k := n - 126) (by simp only [decide_eq_true_eq]; split <;> omega) (by omega) (by omega)]
    congr 3
    omega

/-- FLG2 of a power of two is its exponent. -/
theorem flg2_two_pow {n : Nat} (h : n ≤ 253) : flg2 (BitVec.ofNat 32 ((n + 1) * 2 ^ 23)) =
    (BitVec.ofNat 32 (FFmt.f32.round .rn false (.ofInt (n - 126 : Int))).1, 0) := by
  have hk : ((n + 1 : Nat) : Int) - 150 + 23 = n - 126 := by omega
  rw [flg2_of_powTwo (f32v_pow (E := n + 1) (by omega) (by omega)) (Nat.ne_of_gt (Nat.two_pow_pos 23)) (powTwo_hidden _), hk]
  rfl

/-- The value of a code from a normal one upwards, by its magnitude. -/
theorem f32v_from {x : Word} (h1 : 2 ^ 23 ≤ x.toNat % 2 ^ 31) (h2 : x.toNat % 2 ^ 31 < 0x7F800000) :
    f32v x = .fin x.msb (2 ^ 23 + x.toNat % 2 ^ 31 % 2 ^ 23) ((x.toNat % 2 ^ 31 / 2 ^ 23 : Nat) - 150) := by
  rw [f32v_normal (E := x.toNat % 2 ^ 31 / 2 ^ 23 - 1) (M := 2 ^ 23 + x.toNat % 2 ^ 31 % 2 ^ 23) (by omega) (by omega)
    (by omega) (by omega)]
  congr 1
  omega

/-- A value at an exponent at or above `k - j` reaches `t * 2^k` if its significand reaches `t * 2^j`. -/
theorem scaled_le {t m j : Nat} {e k : Int} (hm : t * 2 ^ j ≤ m) (he : k - j ≤ e) :
    t * 2 ^ (k - min e k).toNat ≤ m * 2 ^ (e - min e k).toNat := by
  rcases Int.le_total e k with h | h
  · rw [Int.min_eq_left h, Int.sub_self, Int.toNat_zero, Nat.pow_zero, Nat.mul_one]
    exact Nat.le_trans (Nat.mul_le_mul_left t (Nat.pow_le_pow_right (by decide) (by omega))) hm
  · rw [Int.min_eq_right h, Int.sub_self, Int.toNat_zero, Nat.pow_zero, Nat.mul_one]
    exact Nat.le_trans (Nat.le_trans (Nat.le_mul_of_pos_right t (Nat.two_pow_pos j)) hm)
      (Nat.le_mul_of_pos_right m (Nat.two_pow_pos _))

/-- The same above `t * 2^k`. -/
theorem scaled_lt {t m j : Nat} {e k : Int} (hm : t * 2 ^ j < m) (he : k - j ≤ e) :
    t * 2 ^ (k - min e k).toNat < m * 2 ^ (e - min e k).toNat := by
  have h := scaled_le (m := m - 1) (Nat.le_sub_one_of_lt hm) he
  have hp := Nat.two_pow_pos (e - min e k).toNat
  exact Nat.lt_of_le_of_lt h (Nat.mul_lt_mul_of_pos_right (by omega) hp)

/-- Positive values compare as their significands at the lower of the two exponents. -/
theorem cmpVal_ge {t m : Nat} {e k : Int} (h : t * 2 ^ (k - min e k).toNat ≤ m * 2 ^ (e - min e k).toNat) :
    (cmpVal (.fin false m e) (.fin false t k) != .lt) = true := by
  have hn : cmpVal (.fin false m e) (.fin false t k) ≠ .lt := by
    simp only [cmpVal, alignTo, Bool.false_eq_true, if_false, ne_eq, Int.compare_eq_lt]
    omega
  simpa using hn

/-- Negative values compare the other way round. -/
theorem cmpVal_below {t m : Nat} {e k : Int} (h : t * 2 ^ (k - min e k).toNat < m * 2 ^ (e - min e k).toNat) :
    (cmpVal (.fin true m e) (.fin true t k) == .lt) = true := by
  have hn : cmpVal (.fin true m e) (.fin true t k) = .lt := by
    simp only [cmpVal, alignTo, if_true, Int.compare_eq_lt]
    omega
  simp [hn]

/-- A negative value or -0 is below every positive value. -/
theorem cmpVal_negative (m t : Nat) (e k : Int) (ht : 0 < t) : cmpVal (.fin true m e) (.fin false t k) = .lt := by
  simp only [cmpVal, alignTo, if_true, Bool.false_eq_true, if_false, Int.compare_eq_lt]
  have := Nat.mul_pos ht (Nat.two_pow_pos (k - min e k).toNat)
  omega

/-- From 128 upwards FEX2 overflows. -/
theorem fex2_overflow {x : Word} (hs : x.msb = false) (hl : 0x43000000 ≤ x.toNat) (hu : x.toNat < 0x7F800000) :
    fex2 x = (0x7F800000, OpFlags.ovf ||| OpFlags.nx) := by
  have hx := f32v_from (x := x) (by omega) (by omega)
  have hc := cmpVal_ge (t := 128) (k := 0) (scaled_le (j := 16) (m := 2 ^ 23 + x.toNat % 2 ^ 31 % 2 ^ 23)
    (e := (x.toNat % 2 ^ 31 / 2 ^ 23 : Nat) - 150) (by omega) (by omega))
  rw [hs] at hx
  simp only [fex2, hx, hc, if_true]
  rfl

/-- Below -149 FEX2 underflows. -/
theorem fex2_underflow {x : Word} (hl : 0xC3150000 < x.toNat) (hu : x.toNat < 0xFF800000) :
    fex2 x = (0, OpFlags.udf ||| OpFlags.nx) := by
  have hx := f32v_from (x := x) (by omega) (by omega)
  have hs : x.msb = true := by rw [BitVec.msb_eq_decide]; simp; omega
  have ho := fun m e => cmpVal_negative m 128 e 0 (by decide)
  have hc : (cmpVal (.fin true (2 ^ 23 + x.toNat % 2 ^ 31 % 2 ^ 23) ((x.toNat % 2 ^ 31 / 2 ^ 23 : Nat) - 150))
      (.fin true 149 0) == .lt) = true := by
    apply cmpVal_below
    by_cases h : x.toNat % 2 ^ 31 / 2 ^ 23 = 134
    · exact scaled_lt (j := 16) (by omega) (by omega)
    · exact scaled_lt (j := 15) (by omega) (by omega)
  rw [hs] at hx
  simp only [fex2, hx, hc, ho, bne_self_eq_false, if_true, Bool.false_eq_true, if_false]

/-- The sign bit of a code as a number. -/
theorem signed_one (x : Word) : BitVec.ofNat 32 (FFmt.f32.signBit x.msb + 0x3F800000) = (x &&& 0x80000000) ||| 0x3F800000 := by
  rw [signBit_and]
  cases x.msb <;> rfl

/-- From 9.5 upwards in magnitude FTANH is ±1. -/
theorem ftanh_saturates {x : Word} (hn : (f32v x).isNan = false) (hl : 0x41180000 ≤ x.toNat % 2 ^ 31) :
    ftanh x = ((x &&& 0x80000000) ||| 0x3F800000, 0) := by
  have hsign := f32v_sign x
  rcases Nat.lt_or_ge (x.toNat % 2 ^ 31) 0x7F800000 with hu | hu
  · have hx := f32v_from (x := x) (by omega) hu
    have hc : (cmpVal (.fin false (2 ^ 23 + x.toNat % 2 ^ 31 % 2 ^ 23) ((x.toNat % 2 ^ 31 / 2 ^ 23 : Nat) - 150))
        (.fin false 19 (-1)) != .lt) = true := by
      apply cmpVal_ge
      by_cases h : x.toNat % 2 ^ 31 / 2 ^ 23 = 130
      · exact scaled_le (j := 19) (by omega) (by omega)
      · exact scaled_le (j := 18) (by omega) (by omega)
    have hm : ¬ 2 ^ 23 + x.toNat % 2 ^ 31 % 2 ^ 23 = 0 := by omega
    simp only [ftanh, hx, hc, if_true, if_neg hm, signed_one]
  · have he : x.toNat / 2 ^ 23 % 256 = 255 := by omega
    rw [f32v_eq, he] at hn
    have hx : f32v x = .inf x.msb := by
      rw [f32v_eq, he]
      split
      · split
        · rfl
        · simp_all [FVal.isNan]
      · contradiction
    simp only [ftanh, hx, signed_one]

/-! ## Completion -/

section
variable {f : Form} {i : Instr} {s : State}

/-- An instruction each of whose members computes one word from its own operands. -/
theorem leavesWord_of_actD {d : BitVec 6} (val : State → Nat → Word × OpFlags) {v : Nat → Word × OpFlags}
    (hi : exec i s = issue f s (actD d.toNat val)) (hq : f.persist = false)
    (hv : ∀ u l, Agrees s u l → val u l = v l) : LeavesWord f i s d v := by
  intro hp
  rw [hi]
  exact issue_actD d val v hp (.inl hq) fun u l _ ha => hv u l ha

/-- An instruction each of whose members leaves one result, by its own operands and by the state after issue. -/
theorem issue_pends (step : State → List Nat → State → Nat → State) (effs : Nat → List Eff) (fl : Nat → OpFlags)
    (hp : performs f s = true) (hq : f.persist = false) (ho : ∀ l e, e ∈ effs l → e.onLane l = true)
    (hstep : ∀ u0 u l, Calm s u0 → l ∈ s.active f.h → Agrees s u l →
      step u0 (s.active f.h) u l = u.addLane l (effs l) (fl l)) :
    ∃ t, issue f s (.pure (fun u ls => u.eachLane ls (step u ls))) = .next t ∧ Pends s t (s.active f.h) effs fl := by
  obtain ⟨hs, hw, -⟩ := (performs_iff f s).mp hp
  obtain ⟨t, ht, rfl⟩ := issue_pure (fun u ls => u.eachLane ls (step u ls)) hp (.inl hq)
  have hu := Issued.ofPerforms hp
  obtain ⟨rs, h1, h2, h3⟩ := drel_foldl hs (step _ _) effs fl ho _ (active_nodup s f.h)
    (fun v l hl => hstep _ v l hu.1 hl) _ (fun l _ => hu.1.agrees hw l)
  exact ⟨_, ht, hu.pends hw (.ofPerforms hp) h1 h2 h3 _⟩

/-- An instruction that gives each member one word of the state after issue, and no flag. -/
theorem leavesWord_of_issued {d : BitVec 6} (val : State → List Nat → Nat → Word) {v : Nat → Word}
    (hi : exec i s = issue f s (.pure fun u0 ls => u0.eachLane ls fun u l =>
      u.addLane l (effG u.curWarp l d.toNat (val u0 ls l)) 0)) (hq : f.persist = false)
    (hv : ∀ u l, Calm s u → l ∈ s.active f.h → val u (s.active f.h) l = v l) : LeavesWord f i s d (fun l => (v l, 0)) := by
  intro hp
  rw [hi]
  refine issue_pends _ _ _ hp hq (fun l => effG_onLane _ _ _ _) fun u0 u l hu hl ha => ?_
  simp only [hv u0 l hu hl, ha.effG]

/-- A vote: each member receives one predicate formed from the members' own (R107). -/
theorem leavesPred_of_vote {h : Hdr} {q a : BitVec 4} {vote : List Bool → Bool} {v : Bool}
    (hi : exec i s = issue (formVote h q a) s (actVote q a vote))
    (hv : vote ((s.active h).map (fun l => s.p l a.toNat)) = v) : LeavesPred (formVote h q a) i s q (fun _ => (v, 0)) := by
  intro hp
  rw [hi]
  refine issue_pends (fun u0 ls u l => u.addLane l (effP l q.toNat (vote (ls.map (fun l => u0.p l a.toNat)))) 0) _ _ hp rfl
    (fun l => effP_onLane _ _ _) fun u0 u l hu _ _ => ?_
  simp only [hu.p, show (formVote h q a).h = h from rfl, hv]

end

/-- Settles O16: each form's act reads the operands of its member alone, so that the values at issue are those that complete. -/
theorem floatResults : Obligations.FloatResults := by
  unfold Obligations.FloatResults
  refine ⟨fun h d a b s => ⟨?_, ?_, ?_, ?_⟩, fun h a b q c s hp => ?_⟩
  · exact leavesWord_of_actD _ rfl rfl fun u l ha => by simp only [ha.g, ha.rmode]
  · exact leavesWord_of_actD _ rfl rfl fun u l ha => by simp only [ha.g, ha.rmode]
  · exact leavesWord_of_actD _ rfl rfl fun u l ha => by simp only [ha.g, ha.rmode]
  · exact leavesWord_of_actD _ rfl rfl fun u l ha => by
      simp only [ha.opnd, ha.g, ha.rmode, State.gThird]
      cases s.opnd <;> rfl
  · refine issue_d _ _ _ hp (.inl rfl) (fun l => effP_onLane _ _ _) fun u0 u l _ _ ha => ?_
    simp only [ha.g]

/-- Settles O17, by the order of R47 on codes and by the sign bit of a code. -/
theorem floatMinMaxMove : Obligations.FloatMinMaxMove := by
  unfold Obligations.FloatMinMaxMove
  intro h d a b s
  refine ⟨?_, ?_, ?_, ?_, ?_, ?_⟩
  · exact leavesWord_of_actD _ rfl rfl fun u l ha => by simp only [ha.g, minMax_eq_lesserOrGreater]
  · exact leavesWord_of_actD _ rfl rfl fun u l ha => by simp only [ha.g, minMax_eq_lesserOrGreater]
  · exact leavesWord_of_actD _ rfl rfl fun u l ha => by simp only [ha.g]
  · exact leavesWord_of_actD _ rfl rfl fun u l ha => by simp only [ha.g, signOp_abs]
  · exact leavesWord_of_actD _ rfl rfl fun u l ha => by simp only [ha.g, signOp_neg]
  · exact leavesWord_of_actD _ rfl rfl fun u l ha => by simp only [ha.g, signOp_copy]

/-- Table 5-2: zeros and infinities of the functions that round in the mode in force. -/
theorem recip_sqrt_special (md : RMode) : frcp md 0 = (0x7F800000, .dz) ∧ frcp md 0x80000000 = (0xFF800000, .dz) ∧
    frcp md 0x7F800000 = (0, 0) ∧ frcp md 0xFF800000 = (0x80000000, 0) ∧ fsqrt md 0x80000000 = (0x80000000, 0) ∧
    fsqrt md 0x7F800000 = (0x7F800000, 0) := by
  refine ⟨rfl, rfl, rfl, rfl, rfl, rfl⟩

/-- Table 5-2: zeros of the functions that pass or shift a zero. -/
theorem zeros_special : ∀ z ∈ [(0 : Word), 0x80000000], flg2 z = (0xFF800000, 0) ∧ fsin z = (z, 0) ∧
    fcos z = (0x3F800000, 0) ∧ ftanh z = (z, 0) := by
  simp only [List.forall_mem_cons, List.not_mem_nil, false_implies, implies_true, and_true]
  exact ⟨⟨rfl, rfl, rfl, rfl⟩, rfl, rfl, rfl, rfl⟩

/-- Table 5-2: the sine and the cosine of an infinity. -/
theorem trig_infinite : ∀ i ∈ [(0x7F800000 : Word), 0xFF800000], fsin i = (0x7FC00000, .nv) ∧ fcos i = (0x7FC00000, .nv) := by
  simp only [List.forall_mem_cons, List.not_mem_nil, false_implies, implies_true, and_true]
  exact ⟨⟨rfl, rfl⟩, rfl, rfl⟩

/-- Settles O18: Table 5-2's rows by value, the exact and the saturating cases by the fields of the source. -/
theorem specialFunctions : Obligations.SpecialFunctions := by
  unfold Obligations.SpecialFunctions
  refine ⟨fun h d a s => ⟨?_, ?_, ?_, ?_, ?_, ?_, ?_, ?_⟩, fun md x => special_nan md, recip_sqrt_special, rfl, rfl, rfl, rfl, rfl,
    zeros_special, rfl, trig_infinite, fun md x => special_negative md, fun n => frsq_four_pow,
    fun n hn => ⟨fex2_integral hn, flg2_two_pow hn⟩, fun x hn => ⟨fex2_overflow, fex2_underflow, ftanh_saturates hn⟩⟩
  all_goals exact leavesWord_of_actD _ rfl rfl fun u l ha => by simp only [ha.g, ha.rmode]

/-! ## Packed pairs and conversions (R98 to R101) -/

section
variable {f : Form} {i : Instr} {s : State} {d a b : BitVec 6} (fmt : FFmt)

/-- Each element is a sum of its own. -/
theorem leavesWord_of_pkAdd (hi : exec i s = issue f s (actPkAdd fmt d a b)) (hq : f.persist = false) :
    LeavesWord f i s d (fun l => pkWord fmt s.rmode s.sat (fun k =>
      addExact s.rmode (pkGet fmt (s.g l a.toNat) k) (pkGet fmt (s.g l b.toNat 1) k))) :=
  leavesWord_of_actD _ hi hq fun u l ha => by simp only [ha.g, ha.rmode, ha.sat]

/-- Each element is a product of its own. -/
theorem leavesWord_of_pkMul (hi : exec i s = issue f s (actPkMul fmt d a b)) (hq : f.persist = false) :
    LeavesWord f i s d (fun l => pkWord fmt s.rmode s.sat (fun k =>
      mulExact (pkGet fmt (s.g l a.toNat) k) (pkGet fmt (s.g l b.toNat 1) k))) :=
  leavesWord_of_actD _ hi hq fun u l ha => by simp only [ha.g, ha.rmode, ha.sat]

/-- The third source is gD, or the register that an OPND names. -/
theorem leavesWord_of_pkFma (hi : exec i s = issue f s (actPkFma fmt d a b)) (hq : f.persist = false) :
    LeavesWord f i s d (fun l => pkWord fmt s.rmode s.sat (fun k =>
      fmaExact s.rmode (pkGet fmt (s.g l a.toNat) k) (pkGet fmt (s.g l b.toNat 1) k)
        (pkGet fmt (s.g l (match s.opnd with | some c => c | none => d.toNat) 2) k))) :=
  leavesWord_of_actD _ hi hq fun u l ha => by
    simp only [ha.opnd, ha.g, ha.rmode, ha.sat, State.gThird]
    cases s.opnd <;> rfl

end

theorem effGd_onLane (w : Warp) (l i : Nat) (v : DWord) : ∀ e, e ∈ effGd w l i v → e.onLane l = true := by
  intro e he
  exact (List.mem_append.mp he).elim (effG_onLane w l i _ e) (effG_onLane w l (i + 1) _ e)

theorem effGd_agrees {s u : State} {l : Nat} (h : Agrees s u l) (i : Nat) (v : DWord) :
    effGd u.curWarp l i v = effGd s.curWarp l i v := by
  simp only [effGd, h.effG]

/-- A concatenation as a number. -/
theorem append_toNat {m n : Nat} (x : BitVec m) (y : BitVec n) : (x ++ y).toNat = x.toNat * 2 ^ n + y.toNat := by
  rw [BitVec.toNat_append, ← Nat.shiftLeft_add_eq_or_of_lt y.isLt, Nat.shiftLeft_eq]

theorem extract_toNat (x : Word) (lo len : Nat) : (x.extractLsb' lo len).toNat = bits x.toNat lo len := by
  rw [BitVec.extractLsb'_toNat, Nat.shiftRight_eq_div_pow, bits]

theorem bits_six_lt (n lo : Nat) : bits n lo 6 < 64 := Nat.mod_lt _ (by decide)

/-- PACK's dense bits are the low six of each byte, in order (R101). -/
theorem pack6_eq (x : Word) : BitVec.ofNat 32 (pack6 x.toNat) =
    (0 : BitVec 8) ++ x.extractLsb' 24 6 ++ x.extractLsb' 16 6 ++ x.extractLsb' 8 6 ++ x.extractLsb' 0 6 := by
  have h := bits_six_lt x.toNat
  have h0 := h 0; have h8 := h 8; have h16 := h 16; have h24 := h 24
  apply BitVec.eq_of_toNat_eq
  simp only [append_toNat, extract_toNat, pack6, BitVec.toNat_ofNat, show (0 : BitVec 8).toNat = 0 from rfl]
  omega

/-- UNPK's bytes are the six-bit fields, in order (R101). -/
theorem unpk6_eq (x : Word) : BitVec.ofNat 32 (unpk6 x.toNat) =
    (0 : BitVec 2) ++ x.extractLsb' 18 6 ++ (0 : BitVec 2) ++ x.extractLsb' 12 6 ++
      (0 : BitVec 2) ++ x.extractLsb' 6 6 ++ (0 : BitVec 2) ++ x.extractLsb' 0 6 := by
  have h := bits_six_lt x.toNat
  have h0 := h 0; have h6 := h 6; have h12 := h 12; have h18 := h 18
  apply BitVec.eq_of_toNat_eq
  simp only [append_toNat, extract_toNat, unpk6, BitVec.toNat_ofNat, show (0 : BitVec 2).toNat = 0 from rfl]
  omega

/-! ## Blocks (R103 to R105) -/

theorem upFrom_eq_range' (n i : Nat) : upFrom n i = List.range' i n := by
  induction n generalizing i with
  | zero => rfl
  | succ n ih => rw [upFrom, ih, List.range'_succ]

theorem upFrom_zero (n : Nat) : upFrom n 0 = List.range n := by
  rw [upFrom_eq_range', List.range_eq_range']

theorem blockCodes_of_calm {s u : State} (h : Calm s u) (ls : List Nat) (a : Nat) :
    blockCodes u ls a = (List.range 32).map (fun l => if l ∈ ls then (s.g l a).toNat else 0) := by
  simp only [blockCodes, upFrom_zero, h.g, List.contains_iff_mem]

/-- A shape register reads the same after a calm step: it lies in the context, of which only the energy account changes. -/
theorem shape_of_calm {s u : State} (h : Calm s u) (n : Nat) : u.shape n = s.shape n := by
  have hl : u.curWarp.launch = s.curWarp.launch := by
    have := congrArg Warp.launch h.warp; exact this
  have hc := h.out.ctxs s.curWarp.launch
  simp only [State.shape, h.cur, h.free, h.pend, hl]
  cases hu : (u.core s.cur.core).st.ctx? s.curWarp.launch with
  | none =>
    cases hs : (s.core s.cur.core).st.ctx? s.curWarp.launch with
    | none => rfl
    | some c => simp [hu, hs] at hc
  | some c' =>
    cases hs : (s.core s.cur.core).st.ctx? s.curWarp.launch with
    | none => simp [hu, hs] at hc
    | some c =>
      have hsh : c'.sh = c.sh := by
        rw [hu, hs] at hc
        have := congrArg Ctx.sh (Option.some.inj hc)
        exact this
      simp only [hsh]

/-- The keyed signs of the members' block: the seed of a shape register, and the leader's block number (R42, R104). -/
def blockSigns (s : State) (ls : List Nat) (a : BitVec 6) (hf : BitVec 3) : List Bool :=
  hadamardSigns (BitVec.ofNat 64 (bits (s.shape hf.toNat).toNat 128 64)) (BitVec.ofNat 64 (s.g (ls.headD 0) (a.toNat + 1)).toNat)

theorem blockSigns_of_calm {s u : State} (h : Calm s u) (ls : List Nat) (a : BitVec 6) (hf : BitVec 3) :
    blockSigns u ls a hf = blockSigns s ls a hf := by
  simp only [blockSigns, shape_of_calm h, h.g]

/-- Each member's result of a block is pending, beside what the instruction adds to it. -/
theorem issue_block {f : Form} {s : State} {d : BitVec 6} (codes : State → List Nat → List Nat)
    (quant : State → List Nat → Nat × List (Nat × Bool × Bool)) (more : State → List Nat → Nat → List Eff)
    (fl : State → List Nat → OpFlags) {src : List Nat} {q : Nat × List (Nat × Bool × Bool)} {ex : Nat → List Eff} {x : OpFlags}
    (hp : performs f s = true) (hq : f.persist = false) (hex : ∀ l e, e ∈ ex l → e.onLane l = true)
    (hc : ∀ u, Calm s u → codes u (s.active f.h) = src ∧ quant u (s.active f.h) = q ∧ more u (s.active f.h) = ex ∧
      fl u (s.active f.h) = x) :
    ∃ t, issue f s (.pure fun u ls => deliverBlock u ls d.toNat (codes u ls) (quant u ls) (more u ls) (fl u ls)) = .next t ∧
      Pends s t (s.active f.h)
        (fun l => effG s.curWarp l d.toNat (BitVec.ofNat 32 (q.2.getD l (0, false, false)).1) ++
          effG s.curWarp l (d.toNat + 1) (BitVec.ofNat 32 q.1) ++ ex l)
        (fun l => quantFlags (src.getD l 0) (q.2.getD l (0, false, false)) ||| x) := by
  refine issue_pends _ _ _ hp hq (fun l e he => ?_) fun u0 u l hu _ ha => ?_
  · rcases List.mem_append.mp he with he | he
    · exact (List.mem_append.mp he).elim (effG_onLane _ _ _ _ e) (effG_onLane _ _ _ _ e)
    · exact hex l e he
  · obtain ⟨h1, h2, h3, h4⟩ := hc u0 hu
    simp only [h1, h2, h3, h4, ha.effG]

/-- A register that every member may read may be read for the leader alone (R102). -/
theorem performs_lead {f : Form} {s : State} {r : Nat} (hl : f.lead = [])
    (hp : performs { f with src := f.src ++ [r] } s = true) : performs { f with lead := [r] } s = true := by
  have hmem : ∀ i, i ∈ ({ f with lead := [r] } : Form).srcs s ++ [r] ++ f.dst ↔
      i ∈ ({ f with src := f.src ++ [r] } : Form).srcs s ++ f.lead ++ f.dst := fun i => by
    simp only [Form.srcs, hl, List.mem_append, List.not_mem_nil, or_false]
    exact or_congr_left or_right_comm
  have hsub : ∀ i, i ∈ ({ f with lead := [r] } : Form).srcs s → i ∈ ({ f with src := f.src ++ [r] } : Form).srcs s := fun i hi => by
    simp only [Form.srcs, List.mem_append] at hi ⊢
    exact hi.imp_left Or.inl
  have hr : r ∈ ({ f with src := f.src ++ [r] } : Form).srcs s := by simp [Form.srcs]
  obtain ⟨h1, h2, h3, h4, h5, h6, h7, hlegal, hsrc, -⟩ := (performs_iff _ s).mp hp
  refine (performs_iff _ s).mpr ⟨h1, h2, h3, h4, h5, h6, h7, ?_, fun l hl' => ⟨fun i hi => (hsrc l hl').1 i (hsub i hi),
    fun i hi => (hsrc l hl').2 i ((hmem i).mp hi)⟩, fun i hi => ?_⟩
  · rw [← hlegal]
    unfold Form.legal Form.inWindow
    congr 1
    rw [Bool.eq_iff_iff, List.all_eq_true, List.all_eq_true]
    exact forall_congr' fun i => imp_congr_left (hmem i)
  · rw [List.mem_singleton.mp hi]
    refine (hsrc _ ?_).1 r hr
    cases ha : s.active f.h with
    | nil => exact absurd ha h6
    | cons l ls => simp

/-- The form of QHAD without the register of the block number. -/
def formQhad (h : Hdr) (d a : BitVec 6) (f hf : BitVec 3) : Form :=
  { h := h, ok := evenReg d && evenReg a && mxOk f, acc := { opndPDst := true, opndNeed := true }, src := [a.toNat],
    dst := regsOf d.toNat 2, shsrc := [hf.toNat] }

theorem exec_qhad (h : Hdr) (d a : BitVec 6) (f hf : BitVec 3) (s : State) : exec (.qhad h d a f hf) s =
    issue { formQhad h d a f hf with lead := [a.toNat + 1] } s (.pure fun u ls => deliverBlock u ls d.toNat (blockCodes u ls a.toNat)
      (quantBlock (mxOf f) (rotateBlock (blockSigns u ls a hf) (blockCodes u ls a.toNat)).1)
      (fun l => effP l (u.opndP.getD 0) ((blockSigns u ls a hf).getD l false))
      (OpFlags.when (rotateBlock (blockSigns u ls a hf) (blockCodes u ls a.toNat)).2 .nx)) := rfl

/-- Settles O19: packed pairs and conversions by operands, blocks by the state after issue. -/
theorem packedAndConverted : Obligations.PackedAndConverted := by
  unfold Obligations.PackedAndConverted
  refine ⟨fun h d a b s => ⟨?_, ?_, ?_, ?_, ?_, ?_⟩, fun h d a st dt m s => ⟨fun hp => ?_, ?_, ?_, ?_⟩,
    fun h d a f hf s => ⟨fun hp => ?_, fun hp => ?_, ?_⟩⟩
  · exact leavesWord_of_pkAdd _ rfl rfl
  · exact leavesWord_of_pkMul _ rfl rfl
  · exact leavesWord_of_pkAdd _ rfl rfl
  · exact leavesWord_of_pkMul _ rfl rfl
  · exact leavesWord_of_pkFma _ rfl rfl
  · exact leavesWord_of_pkFma _ rfl rfl
  · refine issue_d _ _ _ hp (.inl rfl) (fun l => ?_) fun u0 u l _ _ ha => ?_
    · split
      · exact effGd_onLane _ _ _ _
      · exact effG_onLane _ _ _ _
    · simp only [ha.g, ha.gd, ha.rmode, ha.sat, ha.effG, effGd_agrees ha]
  · exact leavesWord_of_actD _ rfl rfl fun u l ha => by simp only [ha.g]; rfl
  · exact leavesWord_of_actD _ rfl rfl fun u l ha => by simp only [ha.g, pack6_eq]
  · exact leavesWord_of_actD _ rfl rfl fun u l ha => by simp only [ha.g, unpk6_eq]
  · obtain ⟨t, ht, hP⟩ := issue_block (d := d) (fun u ls => blockCodes u ls a.toNat)
      (fun u ls => quantBlock (mxOf f) ((blockCodes u ls a.toNat).map FFmt.f32.decode)) (fun _ _ _ => []) (fun _ _ => 0)
      hp rfl (fun _ _ he => absurd he List.not_mem_nil) (fun u hu => ⟨blockCodes_of_calm hu _ _, by rw [blockCodes_of_calm hu],
        rfl, rfl⟩)
    refine ⟨t, ht, ?_⟩
    simpa only [List.append_nil, show ∀ x : OpFlags, x ||| 0 = x from fun _ => BitVec.or_zero] using hP
  · rw [exec_qhad]
    refine issue_block (d := d) (fun u ls => blockCodes u ls a.toNat) _ (fun u ls l => effP l (u.opndP.getD 0) _) _
      (performs_lead (f := formQhad h d a f hf) (r := a.toNat + 1) rfl hp) rfl (fun l => effP_onLane _ _ _) fun u hu => ?_
    simp only [blockCodes_of_calm hu, blockSigns_of_calm hu, State.opndP, hu.cur]
    exact ⟨rfl, rfl, rfl, rfl⟩
  · exact leavesWord_of_actD _ rfl rfl fun u l ha => by simp only [ha.g]

/-! ## Lane exchange (R106, R107) -/

theorem segWidth_eq (n : Nat) : segWidth n = segment n := rfl

theorem distance_eq (n : Nat) : bits n 0 5 = n % 32 := by simp [bits]

theorem segment_dvd (n : Nat) : segment n ∣ 32 := Nat.div_dvd_of_dvd (Nat.pow_dvd_pow 2 (Nat.min_le_right _ _))

/-- A segment begins at a multiple of its width. -/
theorem segment_base (n l : Nat) : l / segWidth n * segWidth n = segmentBase n l := by
  have := Nat.div_add_mod' l (segment n)
  rw [segWidth_eq, segmentBase]
  omega

/-- A distance of five bits in two's complement is the same distance modulo the width of a segment. -/
theorem rotate_distance (n w l : Nat) (hw : w ∣ 32) :
    ((((l % w : Nat) : Int) + sext n 5) % (w : Int)).toNat = (l % w + n % 32) % w := by
  have hs : sext n 5 = (n % 32 : Nat) ∨ sext n 5 = (n % 32 : Nat) - 32 := by
    unfold sext
    split <;> omega
  have hmod : (((l % w : Nat) : Int) + sext n 5) % (w : Int) = ((l % w + n % 32 : Nat) : Int) % w := by
    obtain ⟨k, hk⟩ := hw
    obtain h | h := hs
    · rw [h, Int.natCast_add]
    · have hwk : (w : Int) * k = 32 := by rw [← Int.natCast_mul, ← hk]; rfl
      have hturn : ((l % w : Nat) : Int) + ((n % 32 : Nat) - 32) = ((l % w + n % 32 : Nat) : Int) + w * (-(k : Int)) := by
        rw [Int.mul_neg, hwk]; omega
      rw [h, hturn]
      exact Int.add_mul_emod_self_left _ _ _
  rw [hmod, ← Int.natCast_emod, Int.toNat_natCast]

/-- All members hold the leader's value just if all hold the value of any one of them. -/
theorem all_eq_lead_iff (s : State) (ls : List Nat) (a : BitVec 6) {l : Nat} (hl : l ∈ ls) :
    ls.all (fun k => s.g k a.toNat == s.g (ls.headD 0) a.toNat) = true ↔ ∀ k ∈ ls, s.g k a.toNat = s.g l a.toNat := by
  have hd : ls.headD 0 ∈ ls := by cases ls <;> simp_all
  simp only [List.all_eq_true, beq_iff_eq]
  exact ⟨fun h k hk => (h k hk).trans (h l hl).symm, fun h k hk => (h k hk).trans (h _ hd).symm⟩

section
variable {i : Instr} {s : State} {h : Hdr} {d a b : BitVec 6} {source : Nat → Nat → Nat}

/-- A shuffle gives each member the word of its source lane, or its own where that lane is no member. -/
theorem leavesWord_of_shfl (src' : Nat → Nat → Nat) (hi : exec i s = issue (formShfl h d a b s) s (actShfl d a b source))
    (hsrc : ∀ n l, source n l = src' n l) : LeavesWord (formShfl h d a b s) i s d (fun l =>
      (s.g (if src' (s.gOrImm l b.toNat).toNat l ∈ s.active h then src' (s.gOrImm l b.toNat).toNat l else l) a.toNat, 0)) := by
  refine leavesWord_of_issued (fun u ls l => u.g (if ls.contains (source (u.gOrImm l b.toNat).toNat l) then
    source (u.gOrImm l b.toNat).toNat l else l) a.toNat) hi rfl fun u l hu _ => ?_
  simp only [hu.g, hu.gOrImm, hsrc, List.contains_iff_mem]
  rfl

end

/-! ## Reductions and scans (R108) -/

/-- The value of the fixed tree over the active members that a test names, or the identity. -/
def treeOver (s : State) (h : Hdr) (a : BitVec 6) (o t : BitVec 3) (takes : Nat → Bool) : Nat × OpFlags :=
  (redTree (redOp o.toNat t.toNat) ((List.range 32).map (fun j => if j ∈ s.active h ∧ takes j then
    some (redLeaf t.toNat (if 3 ≤ t.toNat then (s.gd j a.toNat).toNat else (s.g j a.toNat).toNat)) else none))).getD
      (redIdentity o.toNat t.toNat, 0)

/-- The form of REDW and SCANW. -/
def formRed (h : Hdr) (d a : BitVec 6) (o t : BitVec 3) : Form :=
  { h := h, ok := redOk d a o.toNat t.toNat, src := redRegs a.toNat t.toNat, dst := redRegs d.toNat t.toNat }

theorem redVals_of_calm {s u : State} (hu : Calm s u) (ls : List Nat) (a t : Nat) (takes : Nat → Bool) :
    redVals u ls a t takes = (List.range 32).map (fun j => if j ∈ ls ∧ takes j then
      some (redLeaf t (if 3 ≤ t then (s.gd j a).toNat else (s.g j a).toNat)) else none) := by
  simp only [redVals, upFrom_zero, hu.g, hu.gd, Bool.and_eq_true, List.contains_iff_mem, ge_iff_le]

theorem completes_of_red {i : Instr} {s : State} {h : Hdr} {d a : BitVec 6} {o t : BitVec 3} {takes : Nat → Nat → Bool}
    (hi : exec i s = issue (formRed h d a o t) s (actRed d a o t takes)) :
    Completes (formRed h d a o t) i s (fun v => Pends s v (s.active h)
      (fun l => if 3 ≤ t.toNat then effGd s.curWarp l d.toNat (BitVec.ofNat 64 (treeOver s h a o t (takes l)).1)
        else effG s.curWarp l d.toNat (BitVec.ofNat 32 (treeOver s h a o t (takes l)).1))
      (fun l => (treeOver s h a o t (takes l)).2)) := by
  intro hp
  rw [hi]
  refine issue_pends _ _ _ hp rfl (fun l => ?_) fun u0 u l hu _ ha => ?_
  · split
    · exact effGd_onLane _ _ _ _
    · exact effG_onLane _ _ _ _
  · simp only [redVals_of_calm hu, ha.effG, effGd_agrees ha]
    rfl

/-- Settles O20: shuffles by the source lane's segment, votes and trees by the members' values after issue. -/
theorem crossLane : Obligations.CrossLane := by
  unfold Obligations.CrossLane
  refine ⟨fun h d a b s => ⟨?_, ?_, ?_, ?_⟩, fun h d a q a4 s => ⟨?_, ?_, ?_, ?_, ?_, ?_, ?_⟩,
    fun h d a o k s => ⟨completes_of_red rfl, completes_of_red rfl, completes_of_red rfl⟩⟩
  · exact leavesWord_of_shfl (fun n l => segmentBase n l + n % 32 % segment n) rfl fun n l => by
      rw [srcLane, segment_base, distance_eq, segWidth_eq]
  · exact leavesWord_of_shfl (fun n l => segmentBase n l + (l % segment n + n % 32) % segment n) rfl fun n l => by
      rw [srcRot, segment_base, segWidth_eq, rotate_distance n (segment n) l (segment_dvd n)]
  · exact leavesWord_of_shfl (fun n l => segmentBase n l + (segment n - 1 - l % segment n)) rfl fun n l => by
      rw [srcMirr, segment_base, segWidth_eq]
  · exact leavesWord_of_shfl (fun n l => l ^^^ (n % 32 % segment n)) rfl fun n l => by
      rw [srcBfly, distance_eq, segWidth_eq]
  · exact leavesPred_of_vote rfl (by rw [List.all_map]; rfl)
  · exact leavesPred_of_vote rfl (by rw [List.any_map]; rfl)
  · exact leavesPred_of_vote rfl (by rw [List.all_map, List.all_map, List.not_any_eq_all_not]; rfl)
  · exact leavesPred_of_vote rfl (by rw [List.filter_map, List.length_map]; rfl)
  · exact leavesWord_of_issued (fun u ls _ => lanesMask (ls.filter (fun l => u.p l a4.toNat))) rfl rfl fun u l hu _ => by
      simp only [hu.p]
  · exact leavesWord_of_issued (fun u ls l => lanesMask (ls.filter (fun k => u.g k a.toNat == u.g l a.toNat))) rfl rfl
      fun u l hu _ => by simp only [hu.g]
  · refine leavesWord_of_issued (fun u ls _ => if ls.all (fun k => u.g k a.toNat == u.g (ls.headD 0) a.toNat) then lanesMask ls else 0)
      rfl rfl fun u l hu hl => ?_
    simp only [hu.g, all_eq_lead_iff s (s.active h) a hl]

end Sys2Proof.FloatRegisters
end

section
/-! The statement of shape and system registers (07_shape_system.md R138 to R141): an instruction whose checks find nothing
completes with the run of its act; which system registers a task may write, and what the write leaves. -/

namespace Sys2Proof.ShapeSystem
open Sys2Proof.Machine

/-! ## Checks that find nothing -/

/-- A check of the leader that finds nothing faults no member (R63). -/
theorem leaderCheck_eq_nil {check : State → Nat → Option Flt} {s : State} {ls : List Nat} (h : check s (ls.headD 0) = none) :
    leaderCheck check s ls = [] := by
  cases ls with
  | nil => rfl
  | cons l ls =>
    have hl : check s l = none := h
    simp only [leaderCheck, hl]

/-- A check that finds nothing in any member faults none. -/
theorem eachCheck_eq_nil {check : State → Nat → Option Flt} {s : State} {ls : List Nat} (h : ∀ l ∈ ls, check s l = none) :
    eachCheck check s ls = [] :=
  List.filterMap_eq_nil_iff.mpr fun l hl => by rw [h l hl, Option.map_none]

/-! ## Completion -/

section
variable {f : Form} {i : Instr} {s : State}

/-- An instruction that is no persist point completes with what its act runs, where neither wait nor check finds anything. -/
theorem hasEffectIf_of_act {clear : Prop} {effect : State → State} (a : Act) (hi : exec i s = issue f s a)
    (hpersist : f.persist = false) (hwait : clear → a.wait (s.charged f) (s.active f.h) = none)
    (hcheck : clear → a.check (s.charged f) (s.active f.h) = [])
    (hrun : clear → a.run (s.issued f) (s.active f.h) = (effect (s.issued f), [])) : HasEffectIf f i s clear effect := by
  intro hclear hperforms
  rw [hi]
  exact issue_act hperforms (.inl hpersist) (hwait hclear) (hcheck hclear) (hrun hclear)

/-- An instruction that waits for nothing and checks nothing completes with its effect. -/
theorem hasEffect_of_pure {effect : State → State} (e : State → List Nat → State) (hi : exec i s = issue f s (.pure e))
    (hpersist : f.persist = false) (he : ∀ u, e u (s.active f.h) = effect u) : HasEffect f i s effect :=
  hasEffectIf_of_act (clear := True) _ hi hpersist (fun _ => rfl) (fun _ => rfl) (fun _ => congrArg (·, []) (he _)) trivial

/-- An instruction whose check is the leader's completes with what its act runs, where neither wait nor check finds anything (R63). -/
theorem hasEffectIf_of_leaderCheck {clear : Prop} {effect : State → State} {check : State → Nat → Option Flt} (a : Act)
    (hi : exec i s = issue f s a) (hpersist : f.persist = false) (ha : a.check = leaderCheck check)
    (hwait : clear → a.wait (s.charged f) (s.active f.h) = none)
    (hcheck : clear → check (s.charged f) ((s.active f.h).headD 0) = none)
    (hrun : clear → a.run (s.issued f) (s.active f.h) = (effect (s.issued f), [])) : HasEffectIf f i s clear effect :=
  hasEffectIf_of_act a hi hpersist hwait (fun hclear => ha ▸ leaderCheck_eq_nil (hcheck hclear)) hrun

/-- CSRW, CSRS and CSRC complete with the new value stored, where the leader may write the register (R141, R290). -/
theorem hasEffectIf_of_actCsr {h : Hdr} {d : BitVec 6} {c : BitVec 12} {ok : Bool} (fn : Nat → Nat → Nat)
    (hi : exec i s = issue (formCsr h d c ok) s (actCsr d c fn)) :
    HasEffectIf (formCsr h d c ok) i s
      (guestCsrFault c false (s.charged (formCsr h d c ok)) ((s.active h).headD 0) = none ∧
        csrWriteFault (s.charged (formCsr h d c ok)) d c fn ((s.active h).headD 0) = none)
      (fun u => csrStore u (csrBase c.toNat) (csrNext u d c fn ((s.active h).headD 0))) := by
  refine hasEffectIf_of_leaderCheck _ hi rfl rfl (fun _ => rfl) (fun ⟨hguest, hwrite⟩ => ?_) fun _ => rfl
  simp only [show (formCsr h d c ok).h = h from rfl, hguest, hwrite]

end

/-! ## Registers that a task may write (R140, R141, Table 7-6) -/

section
variable {s : State} {d : BitVec 6} {c : BitVec 12} {fn : Nat → Nat → Nat} {l : Nat}

/-- A register that no task writes is refused, HAZCHK outside HALT apart: with ILLEGAL_OP where no level writes it, else with PRIV. -/
theorem csrWriteFault_of_not_task (htask : csrBase c.toNat ∉ [0x032, 0x040, 0x041])
    (hhalt : csrBase c.toNat ≠ 0x063 ∨ inHalt s s.cur.core = true) :
    ∃ x, csrWriteFault s d c fn l = some x ∧ (x.code = fcIllegalOp ∨ x.code = fcPriv) := by
  have hnoTask : ¬ csrTask (csrBase c.toNat) = true := by rwa [csrTask, List.contains_iff_mem]
  have hnoHaz : ¬ (csrBase c.toNat = 0x063 ∧ (!inHalt s s.cur.core) = true) := by
    rintro ⟨hbase, hout⟩
    obtain h | h := hhalt
    · exact h hbase
    · rw [h] at hout; exact Bool.false_ne_true hout
  simp only [csrWriteFault, if_neg hnoTask, if_neg hnoHaz]
  by_cases hfixed : csrFixed (csrBase c.toNat) = true
  · exact ⟨_, if_pos hfixed, .inl rfl⟩
  · exact ⟨_, if_neg hfixed, .inr rfl⟩

/-- MIGSET takes a set of at most 16 registers. -/
theorem csrWriteFault_migset (hbase : csrBase c.toNat = 0x032) (hsize : popcount 64 (csrNext s d c fn l) ≤ 16) :
    csrWriteFault s d c fn l = none := by
  have htask : csrTask 0x032 = true := rfl
  rw [csrWriteFault, hbase, if_pos htask]
  exact if_neg fun h => Nat.not_lt.mpr hsize h.2

end

/-! ## What a write leaves -/

section
variable {s : State}

/-- MIGSET is the warp's own, and a write of it changes nothing else of the warp. -/
theorem curWarp_csrStore_migset (v : Nat) (hw : Home s) :
    (csrStore s 0x032 v).curWarp = { s.curWarp with migset := BitVec.ofNat 64 v } :=
  State.curWarp_modCurWarp s _ hw

/-- A write of a context leaves the warp of the instruction in progress. -/
theorem curWarp_modCtx (core launch : Nat) (f : Ctx → Ctx) : (s.modCtx core launch f).curWarp = s.curWarp := by
  have hcur : (s.modCtx core launch f).cur = s.cur := rfl
  rw [State.curWarp, hcur, State.warp?_modCtx, State.curWarp]

/-- A write of the context of the instruction in progress, where there is one. -/
theorem curCtx_modCtx {x : Ctx} (f : Ctx → Ctx) (hx : (s.core s.cur.core).st.ctx? s.curWarp.launch = some x) :
    (s.modCtx s.cur.core s.curWarp.launch f).curCtx = f x := by
  have hcur : (s.modCtx s.cur.core s.curWarp.launch f).cur = s.cur := rfl
  rw [State.curCtx, hcur, curWarp_modCtx, State.ctx?_modCtx, if_pos ⟨rfl, rfl⟩, hx]
  rfl

/-- OPF and ACCSAT are those of the task's context. -/
theorem curCtx_csrStore_opf {x : Ctx} (v : Nat) (hx : (s.core s.cur.core).st.ctx? s.curWarp.launch = some x) :
    (csrStore s 0x040 v).curCtx = { x with opf := BitVec.ofNat 6 v } :=
  curCtx_modCtx _ hx

theorem curCtx_csrStore_accsat {x : Ctx} (v : Nat) (hx : (s.core s.cur.core).st.ctx? s.curWarp.launch = some x) :
    (csrStore s 0x041 v).curCtx = { x with accsat := BitVec.ofNat 2 v } :=
  curCtx_modCtx _ hx

end

/-- Settles O49: each instruction completes with what its act runs; which registers a task writes by their numbers, and what a write leaves
by the warp or the context that holds the register. -/
theorem shapesAndSystemRegisters : Obligations.ShapesAndSystemRegisters := by
  unfold Obligations.ShapesAndSystemRegisters
  refine ⟨fun h hf a fd s => ⟨?shld, ?shst, ?shget, ?shset⟩, fun h d c s => ⟨?csrr, ?csrw, ?csrs, ?csrc⟩,
    fun s d c fn l => ⟨csrWriteFault_of_not_task, csrWriteFault_migset⟩, fun s v hw => ?migset, fun s v x hx => ?context⟩
  case shld =>
    refine hasEffectIf_of_leaderCheck _ rfl rfl rfl (fun ⟨hwait, _, _⟩ => hwait) (fun ⟨_, hcheck, _⟩ => hcheck)
      fun ⟨_, _, htag⟩ => if_neg ?_
    exact Bool.eq_false_iff.mp htag
  case shst =>
    refine hasEffectIf_of_leaderCheck _ rfl rfl rfl (fun ⟨haccess, hpost, _⟩ => ?_) (fun ⟨_, _, hcheck⟩ => hcheck) fun _ => rfl
    exact Option.or_eq_none_iff.mpr ⟨hpost, haccess⟩
  case shget => exact hasEffect_of_pure _ rfl rfl fun _ => rfl
  case shset => exact hasEffect_of_pure _ rfl rfl fun _ => rfl
  case csrr => exact hasEffectIf_of_act _ rfl rfl (fun _ => rfl) (fun hguest => eachCheck_eq_nil hguest) fun _ => rfl
  case csrw => exact hasEffectIf_of_actCsr _ rfl
  case csrs => exact hasEffectIf_of_actCsr _ rfl
  case csrc => exact hasEffectIf_of_actCsr _ rfl
  case migset =>
    have hwarp := curWarp_csrStore_migset v hw
    refine ⟨congrArg Warp.migset hwarp, fun l => ?_⟩
    rw [State.curLane, hwarp]
    rfl
  case context =>
    rw [curCtx_csrStore_opf v hx, curCtx_csrStore_accsat v hx]
    exact ⟨rfl, rfl⟩

end Sys2Proof.ShapeSystem
end
